-- ==== Sys2Proof/Word.lean ====
section
/-! DEFINITION. Words, bytes and the plainest arithmetic on them (00 R3, R4). -/

namespace Sys2Proof

/-- One byte of memory. -/
abbrev Byte := BitVec 8
/-- A 32-bit value of one thread. -/
abbrev W32 := BitVec 32
/-- A 64-bit value: a uniform register, an address, an instruction word. -/
abbrev Word := BitVec 64
/-- The bytes of one 128-byte line, byte 0 in bits 7:0 (10 R248). -/
abbrev LineData := BitVec 1024
/-- One bit per byte of a line. -/
abbrev ByteMask := BitVec 128

end Sys2Proof
end

