-- ==== Sys2Proof/Machine/Bits.lean ====
section
/-! DEFINITION. Bit fields, signed readings, thread masks and the byte order (00 R3, R4, R8, R9). -/

namespace Sys2Proof

/-- Bits `h:l` of `x` (00 R3) as a natural number. -/
def bits (x : Nat) (h l : Nat) : Nat := (x >>> l) % 2 ^ (h + 1 - l)

/-- `SX(x, n)`: the low `n` bits of `x` read as a signed number (00 R8). -/
def sx (x n : Nat) : Int :=
  let v := x % 2 ^ n
  if n = 0 then 0 else if v < 2 ^ (n - 1) then (v : Int) else (v : Int) - 2 ^ n

/-- An integer reduced modulo `2^n` to a natural number. -/
def wrapInt (n : Nat) (z : Int) : Nat := (z % (2 ^ n : Int)).toNat

/-- The number of set bits of a mask of `w` threads. -/
def popCount : Nat → Nat → Nat
  | 0, _ => 0
  | w + 1, m => popCount w m + (if m.testBit w then 1 else 0)

/-- The threads of a mask of width `w`, in increasing number (00 R9). -/
def threadsOf (w : Nat) (m : Word) : List Nat :=
  (List.range w).filter (fun t => m.getLsbD t)

/-- The mask holding exactly the threads of a list. -/
def maskOf (ts : List Nat) : Word :=
  ts.foldl (fun m t => m ||| BitVec.ofNat 64 (2 ^ t)) 0

/-- All threads of a group of width `w`. -/
def fullMask (w : Nat) : Word := BitVec.ofNat 64 (2 ^ w - 1)

/-- The little-endian number held in a list of bytes, first byte lowest (00 R4). -/
def leNat : List Byte → Nat
  | [] => 0
  | b :: bs => b.toNat + 256 * leNat bs

/-- The `n` little-endian bytes of a number (00 R4). -/
def leBytes : Nat → Nat → List Byte
  | 0, _ => []
  | n + 1, x => BitVec.ofNat 8 x :: leBytes n (x / 256)

/-- The smallest multiple of `m` at or above `x`. -/
def alignUp (x m : Nat) : Nat := (x + m - 1) / m * m

/-- `ceil(x / m)`. -/
def ceilDiv (x m : Nat) : Nat := (x + m - 1) / m

end Sys2Proof
end

