-- ==== Sys2Proof/Config.lean ====
section
/-! DEFINITION. What an implementation fixes and the spec leaves open: constants without a body, so that nothing can
be proved of their values, and the fixed sizes of the part (00 R1). -/

namespace Sys2Proof.Config

/-- The free value of a count: a value the spec leaves open, a fresh one for each reading of the state's counter
(log entry 4). -/
opaque freeValue : Nat → Word

/-- The 64-byte key pair of slot 0, the firmware's own, as a number, low byte first (10 R266, log entry 5). -/
opaque deviceKey : Nat

/-- Whether an image's RSASSA-PSS signature verifies against the fused key digest (21 R377, log entry 6). -/
opaque signatureOk : List Byte → Bool

/-- The plaintext of an RSAES-OAEP message under the device's key-transport key; `none` where decryption fails
(21 R379, log entry 6). -/
opaque oaepOpen : List Byte → Option (List Byte)

/-- The RSASSA-PSS signature of the device identity key over a digest, and the key-transport public key
(21 R378, log entry 6). -/
opaque quoteSign : List Byte → List Byte
/-- The key-transport public key (21 R378, log entry 6). -/
opaque transportKey : List Byte

/-- The DEFLATE encoding a compression engine writes (21 R373); the format admits several (log entry 6). -/
opaque deflate : List Byte → List Byte
/-- The bytes a DEFLATE stream expands to (21 R373, log entry 6). -/
opaque inflate : List Byte → List Byte

/-- The fused rollback counter (21 R377, log entry 6). -/
opaque rollback : Nat
/-- Whether a new image of a target starts (23 R407 step 6, log entry 6). -/
opaque imageStarts : Nat → List Byte → Bool
/-- The version of an image, and the component it is for, as a live update reads them (23 R406, R407, log entry 6). -/
opaque imageVersion : List Byte → Nat
/-- The component of an image that a live update loads (21 R378, log entry 6). -/
opaque imageComponent : List Byte → Nat
/-- Which of the 20 islands of the I/O die and fabric clocks the scheduling unit (19 R335, log entry 6). -/
opaque schedIslandIndex : Nat
/-- Which of those 20 islands clocks a die's fabric (00 R1, R2, log entry 6). -/
opaque fabricIslandIndex : Nat → Nat
/-- The corrected-error threshold past which the firmware retires a part (23 R403, log entry 6). -/
opaque retireThreshold : Nat

/-- The result of a correctly rounded elementary function where its approximation by bounds leaves two candidates: by
function code, operand bits and rounding (06 R141, log entry 7). -/
opaque elementary : Nat → W32 → W32

/-- The physical 64 KiB page of a partition's prefetch counters (10 R264); the spec gives no address (log entry 8). -/
opaque counterPage : Nat → Nat

/-- The island that clocks the scheduling unit: one of islands 300 to 319 (00 R1, 19 R335). -/
def schedIsland : Nat := 300 + schedIslandIndex % 20
/-- The physical address at which the host link begins (20 R363). -/
def hostBase : Nat := 0x9000000000
/-- The bytes of one channel (19 R345). -/
def channelBytes : Nat := 0x60000000
/-- The rows of a core's vector register file (02 R40). -/
def rows : Nat := 8192
/-- The lines of a slice: 1.5 MiB (10 R248, 00 R1). -/
def sliceLines : Nat := 12288
/-- The dirty-line cap (12 R292). -/
def dirtyCap : Nat := 4096
/-- The pocket pool of a lane cluster (10 R249). -/
def pocketPool : Nat := 32768
/-- The spill area reserved with each group's pockets (03 R56). -/
def spillBytes : Nat := 1536
/-- Entries of a core's dependency table (08 R209). -/
def depEntries : Nat := 32
/-- Entries of a near TLB and cached leaves of a translation service (20 R367). -/
def tlbEntries : Nat := 256
/-- Cached leaves of a die's translation service (20 R367). -/
def serviceEntries : Nat := 16384

end Sys2Proof.Config
end

