-- ==== Sys2Proof/Syntax.lean ====
section
/-! DEFINITION. The instructions and device events of the Hokuile H8: one constructor of `Instr` for each row of
the table of operations and events. -/

namespace Sys2Proof

/-- Type codes of the `ty` field (05 R99). Code 15 is no type. -/
inductive Ty where
  | b32 | i8 | i16 | i32 | i64 | n8 | n16 | n32 | n64 | f16x2 | bf16x2 | f32 | f64 | b64 | b128
  deriving DecidableEq, Repr

/-- Rounding modes of the `rm` field (04 R64). -/
inductive Rm where
  | rn | rz | ru | rd
  deriving DecidableEq, Repr

/-- Neighbour select of the `na`, `nb` and `ns` fields (05 R95). Code 11 is reserved. -/
inductive Nbr where
  | self | left | right
  deriving DecidableEq, Repr

/-- Edge mode (02 R47). Code 11 is reserved. -/
inductive Edge where
  | zero | clamp | wrap
  deriving DecidableEq, Repr

/-- The fields of an F-shaped first word other than `op` (05 R95). -/
structure FOps where
  k : BitVec 3
  kn : Bool
  la : BitVec 4
  d : BitVec 6
  a : BitVec 6
  b : BitVec 6
  c : BitVec 6
  na : Nbr
  nb : Nbr
  edge : Edge
  u : Bool
  lrA : Bool
  lrB : Bool
  lrC : Bool
  ty : Ty
  mod : BitVec 3
  rm : Rm
  sat : Bool
  x : BitVec 3
  deriving DecidableEq, Repr

/-- The fields of one pair slot other than `op7` (05 R112). -/
structure PSlot where
  d : BitVec 6
  s : BitVec 6
  ns : Nbr
  lrd : Bool
  lrs : Bool
  k : BitVec 3
  kn : Bool
  u : Bool
  deriving DecidableEq, Repr

/-- The pair operations (05 R113). -/
inductive PairOp where
  | nop
  | mov
  | iaddI32
  | isubI32
  | iminI32
  | imaxI32
  | iminN32
  | imaxN32
  | and32
  | or32
  | xor32
  | andn32
  | shl32
  | shr32
  | sar32
  | faddF32
  | fmulF32
  | fminF32
  | fmaxF32
  | faddBf16x2
  | fmulBf16x2
  | fminBf16x2
  | fmaxBf16x2
  | iaddI64
  | isubI64
  | movImm
  | iaddI32Imm
  | andImm
  | orImm
  | xorImm
  | shlImm
  | shrImm
  | sarImm
  | iaddI64Imm
  deriving DecidableEq, Repr

/-- A pair slot with its operation: slot B of a pair word (05 R112). -/
structure PairSlot where
  op : PairOp
  f : PSlot
  deriving DecidableEq, Repr

/-- The fields of a filter word other than `op` (22 R395). -/
structure FlF where
  d : BitVec 4
  a : BitVec 4
  b : BitVec 4
  imm : BitVec 14
  deriving DecidableEq, Repr

/-- Scopes of the ordering instructions (05 R100, 12 R279). -/
inductive Scope where
  | grp | team | core | die | dev | sys
  deriving DecidableEq, Repr

/-- Atomic operations (07 R173), and compare-and-swap (07 R176). -/
inductive AtomOp where
  | add | and | or | xor | min | max | exch | incw | cas
  deriving DecidableEq, Repr

/-- MOESI states of a line in a die's slice (12 R298). -/
inductive Moesi where
  | m | o | e | s | i
  deriving DecidableEq, Repr

/-- What kind of copy a core asks for (10 R255; `sliceOnly` is `PREF.slice`, 07 R167). -/
inductive CopyKind where
  | leased | constant | exclusive | sliceOnly
  deriving DecidableEq, Repr

/-- A core's request for a line as it travels to the local slice and the home (10 R261, 18 R326). `rv` is the
requesting group's reading vintage (12 R286), `tenant` the tenant charged. -/
structure LineReq where
  core : Nat
  la : Nat
  slot : Nat
  kind : CopyKind
  rv : Nat
  tenant : Nat
  deriving DecidableEq, Repr

/-- A near-cache write-back or ownership return on its way to the line's authority (12 R288): the bytes under `mask`,
the writer's vintage, the group whose outstanding count it is in, the line whose waiting acquire or release it drains
for (12 R290), and the number that orders the write-backs of one line and by which the group counts it. -/
structure WbMsg where
  id : Nat
  core : Nat
  la : Nat
  slot : Nat
  data : LineData
  mask : ByteMask
  vw : Nat
  grp : Option Nat
  drainFor : Option Nat
  poisoned : Bool
  deriving DecidableEq, Repr

/-- One thread's part of a store-release on its way to the home (12 R289); `id` is the number by which the group counts
it. -/
structure RelMsg where
  id : Nat
  core : Nat
  g : Nat
  scope : Scope
  la : Nat
  slot : Nat
  data : LineData
  mask : ByteMask
  vw : Nat
  deriving DecidableEq, Repr

/-- A load-acquire on its way to the home of one line (12 R290): it answers window `win` of group `g`. -/
structure AcqMsg where
  core : Nat
  g : Nat
  win : Nat
  scope : Scope
  la : Nat
  slot : Nat
  deriving DecidableEq, Repr

/-- One thread's `AREDN` on its way to the home (07 R177); `id` is the number by which the group counts it. -/
structure AtomMsg where
  id : Nat
  core : Nat
  g : Nat
  la : Nat
  slot : Nat
  off : Nat
  op : AtomOp
  ty : Ty
  data : Word
  vw : Nat
  deriving DecidableEq, Repr

/-- Why a team is killed, as the kind 6 record names it (20 R361, R362). -/
structure KillWhy where
  code : Nat
  cause : Nat
  addr : Word
  va : Word
  relaunch : Bool
  deriving DecidableEq, Repr

/-- What an invalidation removes (09 R245, 20 R367): everything of a partition, one address space, or one page. -/
inductive InvalidateScope where
  | all (part : Nat)
  | asid (asid : Nat)
  | page (asid : Nat) (va : Nat)
  deriving DecidableEq, Repr

/-- Kinds of part that have spares (23 R402). -/
inductive PartKind where
  | core | slice | channel
  deriving DecidableEq, Repr

/-- Where ECC finds an uncorrectable error (20 R369, 23 R409). -/
inductive EccSite where
  | line (la : Nat)
  | nearLine (core la : Nat)
  | part (kind : PartKind) (n : Nat)
  deriving DecidableEq, Repr

/-- States of a voltage and frequency island (23 R405). -/
inductive IslandState where
  | nominal | reduced | gated
  deriving DecidableEq, Repr

/-- An image read from flash or from memory (21 R377): what component it is, its version, its bytes, and whether the
flash read succeeded. -/
structure BootImage where
  component : Nat
  version : Nat
  bytes : List Byte
  readOk : Bool
  deriving DecidableEq, Repr

/-- A host access to device memory through CXL.mem (21 R373). -/
inductive HostAccess where
  | read (n : Nat)
  | write (bytes : List Byte)
  deriving DecidableEq, Repr

/-- A Taster event (22 R382). -/
structure TEvent where
  code : Nat
  source : Nat
  tenant : Nat
  payload : W32
  seq : Nat
  deriving DecidableEq, Repr

/-- A host write to a register window (21 R372, 22 R388): by the physical function (`none`) or a virtual function,
to a BAR, at an offset, of 4 or 8 bytes. -/
structure RegWrite where
  fn : Option Nat
  bar : Nat
  off : Nat
  size : Nat
  value : Word
  deriving DecidableEq, Repr


/-- The numbers a device event concerns, by name: which group, line, core, die, command and so on. An event without
operands of its own reads the fields its docstring names from the state. -/
structure Subj where
  g : Nat := 0
  win : Nat := 0
  core : Nat := 0
  la : Nat := 0
  t : Nat := 0
  site : Nat := 0
  cmd : Nat := 0
  line : Nat := 0
  gen : Nat := 0
  cause : Nat := 0
  engine : Nat := 0
  part : Nat := 0
  tenant : Nat := 0
  n : Nat := 0
  die : Nat := 0
  slice : Nat := 0
  channel : Nat := 0
  team : Nat := 0
  cask : Nat := 0
  pa : Nat := 0
  vf : Nat := 0
  q : Nat := 0
  launch : Nat := 0
  asid : Nat := 0
  va : Nat := 0
  port : Nat := 0
  qp : Nat := 0
  slot : Nat := 0
  desc : Nat := 0
  deriving DecidableEq, Repr

/-- One constructor per row of the table of operations and events: Afren instructions (05 R107), pair words named by
their slot A (05 R113), device events, and the Taster's filter instructions (22 R395). -/
inductive Instr where
  /-- NOP (R126). -/
  | nop (f : FOps)
  /-- BR (R59). -/
  | br (f : FOps) (w : Word)
  /-- JOIN (R59). -/
  | join (f : FOps)
  /-- CALL (R59). -/
  | call (f : FOps) (w : Word)
  /-- RET (R59). -/
  | ret (f : FOps)
  /-- BTAB (R59). -/
  | btab (f : FOps) (ws : List Word)
  /-- LOOPU (R59). -/
  | loopu (f : FOps) (w : Word)
  /-- EXIT (R59). -/
  | exit (f : FOps)
  /-- SINK (R189). -/
  | sink (f : FOps)
  /-- REGION (R240). -/
  | region (f : FOps)
  /-- COMMIT (R240). -/
  | commit (f : FOps)
  /-- YIELD (R127). -/
  | yield_ (f : FOps)
  /-- BPT (R128). -/
  | bpt (f : FOps)
  /-- TRAP (R128). -/
  | trap (f : FOps)
  /-- IADD (R129). -/
  | iadd (f : FOps)
  /-- ISUB (R129). -/
  | isub (f : FOps)
  /-- IMUL (R129). -/
  | imul (f : FOps)
  /-- IMULH (R129). -/
  | imulh (f : FOps)
  /-- IMAD (R129). -/
  | imad (f : FOps)
  /-- IADDC (R130). -/
  | iaddc (f : FOps)
  /-- IMIN (R129). -/
  | imin (f : FOps)
  /-- IMAX (R129). -/
  | imax (f : FOps)
  /-- IABS (R129). -/
  | iabs (f : FOps)
  /-- INEG (R129). -/
  | ineg (f : FOps)
  /-- IDIV (R72). -/
  | idiv (f : FOps)
  /-- IREM (R72). -/
  | irem (f : FOps)
  /-- ICMP (R131). -/
  | icmp (f : FOps)
  /-- LEA (R132). -/
  | lea (f : FOps)
  /-- SEL (R132). -/
  | sel (f : FOps)
  /-- MOV (R132). -/
  | mov (f : FOps)
  /-- AND (R133). -/
  | and_ (f : FOps)
  /-- OR (R133). -/
  | or_ (f : FOps)
  /-- XOR (R133). -/
  | xor_ (f : FOps)
  /-- NOT (R133). -/
  | not_ (f : FOps)
  /-- ANDN (R133). -/
  | andn (f : FOps)
  /-- SHL (R133). -/
  | shl (f : FOps)
  /-- SHR (R133). -/
  | shr (f : FOps)
  /-- SAR (R133). -/
  | sar (f : FOps)
  /-- ROL (R133). -/
  | rol (f : FOps)
  /-- POPC (R133). -/
  | popc (f : FOps)
  /-- CLZ (R133). -/
  | clz (f : FOps)
  /-- BREV (R133). -/
  | brev (f : FOps)
  /-- BFX (R134). -/
  | bfx (f : FOps)
  /-- BFI (R134). -/
  | bfi (f : FOps)
  /-- PERM (R135). -/
  | perm (f : FOps)
  /-- MOVI (R132). -/
  | movi (f : FOps) (w : Word)
  /-- FADD (R136). -/
  | fadd (f : FOps)
  /-- FSUB (R136). -/
  | fsub (f : FOps)
  /-- FMUL (R136). -/
  | fmul (f : FOps)
  /-- FFMA (R136). -/
  | ffma (f : FOps)
  /-- FMIN (R137). -/
  | fmin (f : FOps)
  /-- FMAX (R137). -/
  | fmax (f : FOps)
  /-- FABS (R136). -/
  | fabs (f : FOps)
  /-- FNEG (R136). -/
  | fneg (f : FOps)
  /-- FCMP (R138). -/
  | fcmp (f : FOps)
  /-- FCLASS (R139). -/
  | fclass (f : FOps)
  /-- FRCP (R140). -/
  | frcp (f : FOps)
  /-- FRSQ (R140). -/
  | frsq (f : FOps)
  /-- FSQRT (R140). -/
  | fsqrt (f : FOps)
  /-- FEX2 (R140). -/
  | fex2 (f : FOps)
  /-- FLG2 (R140). -/
  | flg2 (f : FOps)
  /-- FTRIG (R140). -/
  | ftrig (f : FOps)
  /-- DADD (R142). -/
  | dadd (f : FOps)
  /-- DSUB (R142). -/
  | dsub (f : FOps)
  /-- DMUL (R142). -/
  | dmul (f : FOps)
  /-- DFMA (R142). -/
  | dfma (f : FOps)
  /-- DMIN (R142). -/
  | dmin (f : FOps)
  /-- DMAX (R142). -/
  | dmax (f : FOps)
  /-- DCMP (R142). -/
  | dcmp (f : FOps)
  /-- DRCP (R142). -/
  | drcp (f : FOps)
  /-- DSQRT (R142). -/
  | dsqrt (f : FOps)
  /-- CVT (R143). -/
  | cvt (f : FOps)
  /-- CVTB (R147). -/
  | cvtb (f : FOps)
  /-- FRND (R144). -/
  | frnd (f : FOps)
  /-- FSCL (R145). -/
  | fscl (f : FOps)
  /-- VOTE (R149). -/
  | vote (f : FOps)
  /-- SHFL (R150). -/
  | shfl (f : FOps)
  /-- GSCAN (R151). -/
  | gscan (f : FOps)
  /-- GRED (R151). -/
  | gred (f : FOps)
  /-- BCAST (R152). -/
  | bcast (f : FOps)
  /-- MATCH (R153). -/
  | match_ (f : FOps)
  /-- KOP (R154). -/
  | kop (f : FOps)
  /-- KMOV (R155). -/
  | kmov (f : FOps)
  /-- LD (R163). -/
  | ld (f : FOps) (w : Word)
  /-- LDS (R163). -/
  | lds (f : FOps) (w : Word)
  /-- LDP (R163). -/
  | ldp (f : FOps) (w : Word)
  /-- LDC (R164). -/
  | ldc (f : FOps) (w : Word)
  /-- LDA (R165). -/
  | lda (f : FOps) (w : Word)
  /-- LDX (R166). -/
  | ldx (f : FOps) (w : Word)
  /-- PREF (R167). -/
  | pref (f : FOps)
  /-- ST (R168). -/
  | st (f : FOps) (w : Word)
  /-- STS (R168). -/
  | sts (f : FOps) (w : Word)
  /-- STP (R168). -/
  | stp (f : FOps) (w : Word)
  /-- STRL (R169). -/
  | strl (f : FOps) (w : Word)
  /-- CLEAN (R170). -/
  | clean (f : FOps)
  /-- INVAL (R170). -/
  | inval (f : FOps)
  /-- FLUSHN (R171). -/
  | flushn (f : FOps)
  /-- ATOM (R175). -/
  | atom (f : FOps)
  /-- ACAS (R176). -/
  | acas (f : FOps)
  /-- AREDN (R177). -/
  | aredn (f : FOps)
  /-- ATOMS (R177). -/
  | atoms (f : FOps)
  /-- FENCE (R178). -/
  | fence (f : FOps)
  /-- BARW (R180). -/
  | barw (f : FOps)
  /-- BARA (R180). -/
  | bara (f : FOps)
  /-- DRAIN (R179). -/
  | drain (f : FOps)
  /-- TXB (R183). -/
  | txb (f : FOps)
  /-- TXE (R185). -/
  | txe (f : FOps)
  /-- TXA (R182). -/
  | txa (f : FOps)
  /-- TXQ (R182). -/
  | txq (f : FOps)
  /-- WAITE (R181). -/
  | waite (f : FOps)
  /-- SPAWN (R232). -/
  | spawn (f : FOps)
  /-- AWAIT (R234). -/
  | await_ (f : FOps)
  /-- RESOLVE (R230). -/
  | resolve (f : FOps)
  /-- PARK (R236). -/
  | park (f : FOps)
  /-- STEAL (R237). -/
  | steal (f : FOps)
  /-- ROLE (R238). -/
  | role (f : FOps)
  /-- FUTNEW (R229). -/
  | futnew (f : FOps)
  /-- MMA (R196). -/
  | mma (f : FOps)
  /-- MMAZ (R196). -/
  | mmaz (f : FOps)
  /-- MLDS (R198). -/
  | mlds (f : FOps)
  /-- MSTS (R198). -/
  | msts (f : FOps)
  /-- MTRN (R199). -/
  | mtrn (f : FOps)
  /-- TMMA (R211). -/
  | tmma (f : FOps)
  /-- COPY (R223). -/
  | copy (f : FOps)
  /-- COLL (R224). -/
  | coll (f : FOps)
  /-- PRESS (R222). -/
  | press (f : FOps) (w1 w2 w3 : Word)
  /-- LNEST (R218). -/
  | lnest (f : FOps) (w1 w2 w3 : Word)
  /-- TDEP (R208). -/
  | tdep (f : FOps)
  /-- TSTORE (R213). -/
  | tstore (f : FOps)
  /-- TZERO (R215). -/
  | tzero (f : FOps)
  /-- ECANCEL (R226). -/
  | ecancel (f : FOps)
  /-- RDS (R242). -/
  | rds (f : FOps)
  /-- WRS (R242). -/
  | wrs (f : FOps)
  /-- EVENT (R243). -/
  | event (f : FOps)
  /-- CLOCKC (R244). -/
  | clockc (f : FOps)
  /-- TRET (R245). -/
  | tret (f : FOps)
  /-- TLBI (R245). -/
  | tlbi (f : FOps)
  /-- CTXSV (R358). -/
  | ctxsv (f : FOps)
  /-- CTXLD (R358). -/
  | ctxld (f : FOps)
  /-- KILLT (R245). -/
  | killt (f : FOps)
  /-- HALT (R245). -/
  | halt (f : FOps)
  /-- PAIR_NOP (R113). -/
  | pairNop (a : PSlot) (b : PairSlot)
  /-- PAIR_MOV (R113). -/
  | pairMov (a : PSlot) (b : PairSlot)
  /-- PAIR_IADD_I32 (R113). -/
  | pairIaddI32 (a : PSlot) (b : PairSlot)
  /-- PAIR_ISUB_I32 (R113). -/
  | pairIsubI32 (a : PSlot) (b : PairSlot)
  /-- PAIR_IMIN_I32 (R113). -/
  | pairIminI32 (a : PSlot) (b : PairSlot)
  /-- PAIR_IMAX_I32 (R113). -/
  | pairImaxI32 (a : PSlot) (b : PairSlot)
  /-- PAIR_IMIN_N32 (R113). -/
  | pairIminN32 (a : PSlot) (b : PairSlot)
  /-- PAIR_IMAX_N32 (R113). -/
  | pairImaxN32 (a : PSlot) (b : PairSlot)
  /-- PAIR_AND (R113). -/
  | pairAnd (a : PSlot) (b : PairSlot)
  /-- PAIR_OR (R113). -/
  | pairOr (a : PSlot) (b : PairSlot)
  /-- PAIR_XOR (R113). -/
  | pairXor (a : PSlot) (b : PairSlot)
  /-- PAIR_ANDN (R113). -/
  | pairAndn (a : PSlot) (b : PairSlot)
  /-- PAIR_SHL (R113). -/
  | pairShl (a : PSlot) (b : PairSlot)
  /-- PAIR_SHR (R113). -/
  | pairShr (a : PSlot) (b : PairSlot)
  /-- PAIR_SAR (R113). -/
  | pairSar (a : PSlot) (b : PairSlot)
  /-- PAIR_FADD_F32 (R113). -/
  | pairFaddF32 (a : PSlot) (b : PairSlot)
  /-- PAIR_FMUL_F32 (R113). -/
  | pairFmulF32 (a : PSlot) (b : PairSlot)
  /-- PAIR_FMIN_F32 (R113). -/
  | pairFminF32 (a : PSlot) (b : PairSlot)
  /-- PAIR_FMAX_F32 (R113). -/
  | pairFmaxF32 (a : PSlot) (b : PairSlot)
  /-- PAIR_FADD_BF16X2 (R113). -/
  | pairFaddBf16x2 (a : PSlot) (b : PairSlot)
  /-- PAIR_FMUL_BF16X2 (R113). -/
  | pairFmulBf16x2 (a : PSlot) (b : PairSlot)
  /-- PAIR_FMIN_BF16X2 (R113). -/
  | pairFminBf16x2 (a : PSlot) (b : PairSlot)
  /-- PAIR_FMAX_BF16X2 (R113). -/
  | pairFmaxBf16x2 (a : PSlot) (b : PairSlot)
  /-- PAIR_IADD_I64 (R113). -/
  | pairIaddI64 (a : PSlot) (b : PairSlot)
  /-- PAIR_ISUB_I64 (R113). -/
  | pairIsubI64 (a : PSlot) (b : PairSlot)
  /-- PAIR_MOV_IMM (R113). -/
  | pairMovImm (a : PSlot) (b : PairSlot)
  /-- PAIR_IADD_I32_IMM (R113). -/
  | pairIaddI32Imm (a : PSlot) (b : PairSlot)
  /-- PAIR_AND_IMM (R113). -/
  | pairAndImm (a : PSlot) (b : PairSlot)
  /-- PAIR_OR_IMM (R113). -/
  | pairOrImm (a : PSlot) (b : PairSlot)
  /-- PAIR_XOR_IMM (R113). -/
  | pairXorImm (a : PSlot) (b : PairSlot)
  /-- PAIR_SHL_IMM (R113). -/
  | pairShlImm (a : PSlot) (b : PairSlot)
  /-- PAIR_SHR_IMM (R113). -/
  | pairShrImm (a : PSlot) (b : PairSlot)
  /-- PAIR_SAR_IMM (R113). -/
  | pairSarImm (a : PSlot) (b : PairSlot)
  /-- PAIR_IADD_I64_IMM (R113). -/
  | pairIaddI64Imm (a : PSlot) (b : PairSlot)
  /-- COLL_COMPLETE (R225). -/
  | collComplete (cmd : Nat) (agree : Bool) (ranks : List (List W32))
  /-- NEAR_CACHE_MISS (R261). -/
  | nearCacheMiss (r : LineReq)
  /-- NEAR_CACHE_FILL (R317). -/
  | nearCacheFill (r : LineReq) (data : LineData) (wv le : Nat)
  /-- NEAR_CACHE_WRITEBACK (R288). -/
  | nearCacheWriteback (m : WbMsg)
  /-- WRITEBACK_ACK (R172). -/
  | writebackAck (m : WbMsg) (wv : Nat)
  /-- HOME_READ (R298). -/
  | homeRead (die : Nat) (r : LineReq)
  /-- HOME_READ_EXCLUSIVE (R298). -/
  | homeReadExclusive (die : Nat) (r : LineReq)
  /-- HOME_UPGRADE (R298). -/
  | homeUpgrade (die : Nat) (r : LineReq)
  /-- FORWARD_REPLY (R298). -/
  | forwardReply (die la : Nat) (data : LineData) (modified : Bool)
  /-- SLICE_WRITEBACK (R298). -/
  | sliceWriteback (die la : Nat) (data : LineData) (st : Moesi)
  /-- EXCLUSIVE_GRANT (R326). -/
  | exclusiveGrant (die : Nat) (r : LineReq)
  /-- HOME_RELEASE (R289). -/
  | homeRelease (m : RelMsg)
  /-- HOME_ACQUIRE (R290). -/
  | homeAcquire (m : AcqMsg)
  /-- HOME_ATOMIC (R177). -/
  | homeAtomic (m : AtomMsg)
  /-- QUEUE_DOORBELL (R332). -/
  | queueDoorbell (vf q : Nat) (tail : Word)
  /-- TEAM_SAVE (R350). -/
  | teamSave (team : Nat) (evict : Bool)
  /-- TEAM_KILL (R362). -/
  | teamKill (team : Nat) (why : KillWhy)
  /-- TRANSLATION_INVALIDATE_COMPLETE (R367). -/
  | translationInvalidateComplete (i : InvalidateScope)
  /-- ECC_UNCORRECTABLE (R369). -/
  | eccUncorrectable (site : EccSite)
  /-- PART_RETIRE (R403). -/
  | partRetire (kind : PartKind) (n : Nat)
  /-- ISLAND_STATE_CHANGE (R405). -/
  | islandStateChange (island : Nat) (st : IslandState)
  /-- BOOT_STAGE (R377). -/
  | bootStage (stage : Nat) (img : BootImage)
  /-- HOST_MEMORY_ACCESS (R373). -/
  | hostMemoryAccess (pa : Nat) (acc : HostAccess)
  /-- TASTER_EVENT_ARRIVAL (R392). -/
  | tasterEventArrival (die : Nat) (ev : TEvent)
  /-- SCTL_START (R390). -/
  | sctlStart (die slot : Nat) (v : Word)
  /-- SCTL_STOP (R390). -/
  | sctlStop (die slot : Nat) (v : Word)
  /-- SOWN_WRITE (R391). -/
  | sownWrite (die slot : Nat) (v : Word)
  /-- REGISTER_WRITE (R388). -/
  | registerWrite (w : RegWrite)
  /-- FILTER_END (R395). -/
  | filterEnd (f : FlF)
  /-- FILTER_LDF (R395). -/
  | filterLdf (f : FlF)
  /-- FILTER_SETI (R395). -/
  | filterSeti (f : FlF)
  /-- FILTER_ADD (R395). -/
  | filterAdd (f : FlF)
  /-- FILTER_ADDI (R395). -/
  | filterAddi (f : FlF)
  /-- FILTER_SUB (R395). -/
  | filterSub (f : FlF)
  /-- FILTER_AND (R395). -/
  | filterAnd (f : FlF)
  /-- FILTER_ANDI (R395). -/
  | filterAndi (f : FlF)
  /-- FILTER_OR (R395). -/
  | filterOr (f : FlF)
  /-- FILTER_XOR (R395). -/
  | filterXor (f : FlF)
  /-- FILTER_SHLI (R395). -/
  | filterShli (f : FlF)
  /-- FILTER_SHRI (R395). -/
  | filterShri (f : FlF)
  /-- FILTER_SLTU (R395). -/
  | filterSltu (f : FlF)
  /-- FILTER_CEQI (R395). -/
  | filterCeqi (f : FlF)
  /-- FILTER_BZ (R395). -/
  | filterBz (f : FlF)
  /-- FILTER_BNZ (R395). -/
  | filterBnz (f : FlF)
  /-- FILTER_JMP (R395). -/
  | filterJmp (f : FlF)
  /-- FILTER_LDW (R395). -/
  | filterLdw (f : FlF)
  /-- FILTER_STW (R395). -/
  | filterStw (f : FlF)
  /-- FILTER_HASH (R396). -/
  | filterHash (f : FlF)
  /-- FILTER_HINC (R397). -/
  | filterHinc (f : FlF)
  /-- FILTER_CMS (R397). -/
  | filterCms (f : FlF)
  /-- FILTER_HLL (R397). -/
  | filterHll (f : FlF)
  /-- FILTER_TRIG (R398). -/
  | filterTrig (f : FlF)
  /-- FILTER_SNAP (R399). -/
  | filterSnap (f : FlF)
  /-- ILLEGAL_INSTRUCTION (R108). -/
  | illegalInstruction (w : Word)
  /-- CENSUS_REPLY (R297). -/
  | censusReply (part la die : Nat) (lower upper : Bool)
  /-- CORRECTED_ERROR (R409). -/
  | correctedError (kind : PartKind) (n : Nat)
  /-- CREATE_QUEUE (R332). -/
  | createQueue (vf q : Nat) (desc : List Byte)
  /-- HOST_TRANSFER (R373). -/
  | hostTransfer (compress : Bool) (src dst len : Nat)
  /-- LONG_LATENCY_RESULT (R118); subject: g win. -/
  | longLatencyResult
  /-- FAULT_DELIVERY (R120); subject: g. -/
  | faultDelivery
  /-- YIELD_EXPIRY (R127); subject: g. -/
  | yieldExpiry
  /-- REGISTER_PARK_EVICTION (R46); subject: core. -/
  | registerParkEviction
  /-- REGISTER_GRANT (R44); subject: core. -/
  | registerGrant
  /-- PARKED_SCRATCH_ACCESS (R161); subject: g. -/
  | parkedScratchAccess
  /-- SINK_PROBE (R272); subject: g la. -/
  | sinkProbe
  /-- SINK_HOLD_GRANT (R272); subject: g la. -/
  | sinkHoldGrant
  /-- SINK_INSTANCE (R190); subject: g t site. -/
  | sinkInstance
  /-- SINK_RESULT (R274); subject: g t. -/
  | sinkResult
  /-- SINK_CORE_REEXECUTION (R275); subject: g. -/
  | sinkCoreReexecution
  /-- ENGINE_DISPATCH (R202); subject: cmd. -/
  | engineDispatch
  /-- DEPENDENCY_ENTRY_LEAVE (R209); subject: cmd. -/
  | dependencyEntryLeave
  /-- ENGINE_SCRATCH_LINE_LAND (R253); subject: cmd core line gen. -/
  | engineScratchLineLand
  /-- ENGINE_COMMAND_COMPLETE (R202); subject: cmd. -/
  | engineCommandComplete
  /-- ENGINE_FAULT (R205); subject: cmd cause. -/
  | engineFault
  /-- ENGINE_LEASE_EXPIRY (R342); subject: engine. -/
  | engineLeaseExpiry
  /-- ENGINE_LEASE_BIND (R342); subject: engine part tenant. -/
  | engineLeaseBind
  /-- PRESS_SHARE (R222); subject: cmd la. -/
  | pressShare
  /-- TMMA_KBLOCK (R211); subject: cmd. -/
  | tmmaKblock
  /-- STORE_ACK (R168); subject: g n. -/
  | storeAck
  /-- NEAR_CACHE_RECALL (R320); subject: core la. -/
  | nearCacheRecall
  /-- FORWARD_SHARED (R327); subject: die la. -/
  | forwardShared
  /-- FORWARD_EXCLUSIVE (R327); subject: die la. -/
  | forwardExclusive
  /-- NO_DATA_REPLY (R298); subject: die la. -/
  | noDataReply
  /-- INVALIDATION (R298); subject: die la. -/
  | invalidation
  /-- INVALIDATION_ACK (R298); subject: die la. -/
  | invalidationAck
  /-- SLICE_EVICTION (R327); subject: die la. -/
  | sliceEviction
  /-- DIRECTORY_CENSUS (R297); subject: part la die. -/
  | directoryCensus
  /-- DIRECTORY_MERGE (R297); subject: part la. -/
  | directoryMerge
  /-- CORE_DRAIN (R290); subject: core la. -/
  | coreDrain
  /-- DRAIN_COMPLETE (R290); subject: la. -/
  | drainComplete
  /-- TRANSACTION_DOOM (R184); subject: g t cause. -/
  | transactionDoom
  /-- SLICE_PREFETCH (R262); subject: slice la tenant. -/
  | slicePrefetch
  /-- PRESS_PREFETCH (R262); subject: channel la tenant. -/
  | pressPrefetch
  /-- PRESS_SCRUB (R410); subject: channel. -/
  | pressScrub
  /-- VINTAGE_REBASE (R302); subject: part. -/
  | vintageRebase
  /-- SPLIT_SCRATCH_TO_CACHE (R257); subject: core. -/
  | splitScratchToCache
  /-- SPLIT_CACHE_TO_SCRATCH (R257); subject: core. -/
  | splitCacheToScratch
  /-- GRANULE_RELEASE (R260); subject: team. -/
  | granuleRelease
  /-- CASK_LAUNCH (R305); subject: core cask. -/
  | caskLaunch
  /-- CASK_AGE_EXPIRY (R305); subject: core cask. -/
  | caskAgeExpiry
  /-- OVERFLOW_MOVE (R304); subject: part die. -/
  | overflowMove
  /-- IDLE_STEAL (R308); subject: core. -/
  | idleSteal
  /-- ADOPTION_RETURN (R235); subject: g. -/
  | adoptionReturn
  /-- FUTURE_WAKE (R234); subject: pa. -/
  | futureWake
  /-- SPAWN_OVERFLOW_RETRY (R307); subject: g. -/
  | spawnOverflowRetry
  /-- LAUNCH_RECORD_TAKE (R333); subject: vf q. -/
  | launchRecordTake
  /-- TEAM_PLACEMENT (R336); subject: part. -/
  | teamPlacement
  /-- PLACEMENT_HOLD_EXPIRY (R336); subject: part. -/
  | placementHoldExpiry
  /-- COOPERATIVE_CANCEL (R338); subject: launch. -/
  | cooperativeCancel
  /-- LAUNCH_COMPLETION (R334); subject: launch. -/
  | launchCompletion
  /-- TOKEN_PERIOD_START (R339); subject: part. -/
  | tokenPeriodStart
  /-- TOKEN_GRANT_DRAW (R340); subject: core tenant. -/
  | tokenGrantDraw
  /-- TENANT_IDLE (R341); subject: part tenant. -/
  | tenantIdle
  /-- CORE_LEAVE (R346); subject: part core. -/
  | coreLeave
  /-- TRANSLATION_WALK (R367); subject: core asid va. -/
  | translationWalk
  /-- CHANNEL_COPY_COMPLETE (R403); subject: channel. -/
  | channelCopyComplete
  /-- DEVICE_RESET (R2). -/
  | deviceReset
  /-- FLIT_RETRY (R375); subject: port. -/
  | flitRetry
  /-- ROCE_RETRANSMISSION (R385); subject: port qp tenant. -/
  | roceRetransmission
  /-- CREATE_PARTITION (R343). -/
  | createPartition
  /-- DESTROY_PARTITION (R374). -/
  | destroyPartition
  /-- RESIZE (R346). -/
  | resizeRequest
  /-- PRE_EMPT (R349). -/
  | preEmpt
  /-- RESUME (R360). -/
  | resumeRequest
  /-- KILL (R360). -/
  | killRequest
  /-- QUERY (R374). -/
  | queryRequest
  /-- INSTALL_HANDLER_TABLE (R359). -/
  | installHandlerTable
  /-- REGISTER_CONTEXT_POOL (R349). -/
  | registerContextPool
  /-- SET_COMMUNICATOR (R376). -/
  | setCommunicator
  /-- INVALIDATE_TRANSLATIONS (R367). -/
  | invalidateTranslations
  /-- SET_ADDRESS_SPACE (R363). -/
  | setAddressSpace
  /-- KEY_CREATE (R379). -/
  | keyCreate
  /-- KEY_BIND (R379). -/
  | keyBind
  /-- KEY_UNBIND (R379). -/
  | keyUnbind
  /-- KEY_DESTROY (R267). -/
  | keyDestroy
  /-- READ_ATTESTATION_LOG (R378). -/
  | readAttestationLog
  /-- QUOTE (R378). -/
  | quote_
  /-- FIRMWARE_UPDATE (R407). -/
  | firmwareUpdate
  /-- MANAGEMENT_UNKNOWN_CODE (R374). -/
  | managementUnknownCode
  /-- FILTER_RUN_START (R392); subject: die slot. -/
  | filterRunStart
  /-- FILTER_RUN_END (R392); subject: die slot. -/
  | filterRunEnd
  /-- TASTER_BUDGET_WINDOW (R392); subject: die. -/
  | tasterBudgetWindow
  /-- SNAPSHOT_COPY_COMPLETE (R399); subject: die slot. -/
  | snapshotCopyComplete
  /-- ENGINE_OPERATION (R342); subject: cmd. -/
  | engineOperation
  /-- FILL_FROM_MEMORY (R298); subject: la slot. -/
  | fillFromMemory
  /-- SLICE_RECALL (R327); subject: die la. -/
  | sliceRecall
  /-- DOORBELL_WRITE_IGNORED (R374). -/
  | doorbellWriteIgnored
  /-- SLICE_CHANNEL_HOME_TABLE_CHANGE (R348); subject: part desc. -/
  | sliceChannelHomeTableChange
  deriving DecidableEq, Repr

end Sys2Proof
end

