-- ==== Sys2Proof/Machine/Forms.lean ====
section
/-! DEFINITION. What each entry says of the fields of its words, the numbers of the operations, and the checks of
05 R96 to R106, R112 to R114 and 22 R395 of one word. -/

namespace Sys2Proof

/-- How an entry uses a register field. `typed`: a register of the instruction's type, uniform under U (02 R32, R34).
`one`: one 32-bit register, or a uniform register under U. `reg`: a register whose alignment the entry itself fixes.
`uni`: a uniform register whatever U. `mask`: a mask number 0 to 7; `maskDst`: 1 to 7. `raw`: a number. -/
inductive Use where
  | none | typed | one | reg | uni | mask | maskDst | raw
  deriving DecidableEq, Repr

/-- What an entry says of x[0] (05 R97): no immediate, an optional one, or a required one. -/
inductive ImmRule where
  | no | opt | req
  deriving DecidableEq, Repr

/-- What an entry says of U. -/
inductive URule where
  | any | zero | one
  deriving DecidableEq, Repr

/-- The address space of a memory operand (05 R102): none, virtual memory, or scratch and pocket. -/
inductive MemRule where
  | none | virt | space
  deriving DecidableEq, Repr

/-- What one entry says of the fields of its F word (05 R96). -/
structure Entry where
  d : Use := .none
  a : Use := .none
  b : Use := .none
  c : Use := .none
  tys : List Ty := [.b32]
  mods : Nat := 1
  imm : ImmRule := .no
  rm : Bool := false
  sat : Bool := false
  nbr : Bool := false
  u : URule := .any
  mask : Bool := true
  la : Bool := false
  mem : MemRule := .none
  lform : Bool := false
  hasScope : Bool := false
  x21 : Bool := false
  store : Bool := false

/-- The eight integer types (05 R99). -/
def intTys : List Ty := [.i8, .i16, .i32, .i64, .n8, .n16, .n32, .n64]
/-- The types of loads and stores (07 R162, R168). -/
def memTys : List Ty := .b32 :: intTys ++ [.b64, .b128]
/-- The types of acquires, releases and atomics (07 R162, R168, R173). -/
def syncTys : List Ty := [.b32, .i32, .i64, .n32, .n64, .b64]

/-- Element width in bits of a type (05 R99); a packed type counts as its 32-bit word. -/
def Ty.width : Ty → Nat
  | .i8 | .n8 => 8
  | .i16 | .n16 => 16
  | .b32 | .i32 | .n32 | .f32 | .f16x2 | .bf16x2 => 32
  | .i64 | .n64 | .f64 | .b64 => 64
  | .b128 => 128

/-- The number of vector registers an operand of the type occupies (02 R31). -/
def Ty.regs (t : Ty) : Nat := if t.width = 64 then 2 else if t.width = 128 then 4 else 1

/-- The i types, which compare and extend as signed (02 R33). -/
def Ty.signed : Ty → Bool
  | .i8 | .i16 | .i32 | .i64 => true
  | _ => false

/-- The i and n types. -/
def Ty.isInt : Ty → Bool
  | .i8 | .i16 | .i32 | .i64 | .n8 | .n16 | .n32 | .n64 => true
  | _ => false

/-- The packed types (04 R63). -/
def Ty.packed : Ty → Bool
  | .f16x2 | .bf16x2 => true
  | _ => false

/-- The code of a type (05 R99). -/
def Ty.code : Ty → Nat
  | .b32 => 0 | .i8 => 1 | .i16 => 2 | .i32 => 3 | .i64 => 4 | .n8 => 5 | .n16 => 6 | .n32 => 7 | .n64 => 8
  | .f16x2 => 9 | .bf16x2 => 10 | .f32 => 11 | .f64 => 12 | .b64 => 13 | .b128 => 14

/-- The type of a code; 15 is reserved (05 R99). -/
def Ty.ofCode (c : Nat) : Option Ty :=
  match c with
  | 0 => some .b32 | 1 => some .i8 | 2 => some .i16 | 3 => some .i32 | 4 => some .i64 | 5 => some .n8
  | 6 => some .n16 | 7 => some .n32 | 8 => some .n64 | 9 => some .f16x2 | 10 => some .bf16x2 | 11 => some .f32
  | 12 => some .f64 | 13 => some .b64 | 14 => some .b128 | _ => none

/-- The code of a rounding mode (04 R64). -/
def Rm.code : Rm → Nat
  | .rn => 0 | .rz => 1 | .ru => 2 | .rd => 3

/-- The rounding mode of a two-bit code (04 R64). -/
def Rm.ofCode (c : Nat) : Rm :=
  match c % 4 with
  | 0 => .rn | 1 => .rz | 2 => .ru | _ => .rd

/-- The code of a neighbour select (05 R95). -/
def Nbr.code : Nbr → Nat
  | .self => 0 | .left => 1 | .right => 2

/-- The neighbour select of a code; 11 is reserved (02 R48). -/
def Nbr.ofCode (c : Nat) : Option Nbr :=
  match c with
  | 0 => some .self | 1 => some .left | 2 => some .right | _ => none

/-- The code of an edge mode (05 R95). -/
def Edge.code : Edge → Nat
  | .zero => 0 | .clamp => 1 | .wrap => 2

/-- The edge mode of a code; 11 is reserved (02 R48). -/
def Edge.ofCode (c : Nat) : Option Edge :=
  match c with
  | 0 => some .zero | 1 => some .clamp | 2 => some .wrap | _ => none

/-- x[0]: the immediate bit (05 R95). -/
def FOps.x0 (f : FOps) : Bool := f.x.getLsbD 0
/-- x[2:1]: the address form on memory instructions (05 R101). -/
def FOps.form (f : FOps) : Nat := f.x.toNat / 2
/-- The 12-bit immediate field, bits 34:23 (05 R97). -/
def FOps.imm12 (f : FOps) : BitVec 12 := f.b ++ f.c
/-- The signed 12-bit immediate (05 R97). -/
def FOps.imm (f : FOps) : Int := f.imm12.toInt
/-- The 3-bit scope code, bits 5:3 (05 R100). -/
def FOps.sc (f : FOps) : Nat := f.rm.code * 2 + (if f.sat then 1 else 0)
/-- The scope of the scope code; 6 and 7 are reserved (05 R100). -/
def FOps.scope (f : FOps) : Option Scope :=
  match f.sc with
  | 0 => some .grp | 1 => some .team | 2 => some .core | 3 => some .die | 4 => some .dev | 5 => some .sys | _ => none
/-- The L form of a load or store: mod bit 8 (05 R103). -/
def FOps.isL (f : FOps) : Bool := f.mod.getLsbD 2
/-- Bit 54:52 and 51: no mask. -/
def FOps.noMask (f : FOps) : Bool := f.k == 0 && !f.kn


/-- The F-shaped opcodes (05 R107). -/
inductive Op where
  | nop | br | join | call | ret | btab | loopu | exit
  | sink | region | commit | yield_ | bpt | trap | iadd | isub
  | imul | imulh | imad | iaddc | imin | imax | iabs | ineg
  | idiv | irem | icmp | lea | sel | mov | and_ | or_
  | xor_ | not_ | andn | shl | shr | sar | rol | popc
  | clz | brev | bfx | bfi | perm | movi | fadd | fsub
  | fmul | ffma | fmin | fmax | fabs | fneg | fcmp | fclass
  | frcp | frsq | fsqrt | fex2 | flg2 | ftrig | dadd | dsub
  | dmul | dfma | dmin | dmax | dcmp | drcp | dsqrt | cvt
  | cvtb | frnd | fscl | vote | shfl | gscan | gred | bcast
  | match_ | kop | kmov | ld | lds | ldp | ldc | lda
  | ldx | pref | st | sts | stp | strl | clean | inval
  | flushn | atom | acas | aredn | atoms | fence | barw | bara
  | drain | txb | txe | txa | txq | waite | spawn | await_
  | resolve | park | steal | role | futnew | mma | mmaz | mlds
  | msts | mtrn | tmma | copy | coll | press | lnest | tdep
  | tstore | tzero | ecancel | rds | wrs | event | clockc | tret
  | tlbi | ctxsv | ctxld | killt | halt
  deriving DecidableEq, Repr

/-- The 8-bit opcode (05 R107). -/
def Op.code : Op → Nat
  | .nop => 0x00
  | .br => 0x01
  | .join => 0x02
  | .call => 0x03
  | .ret => 0x04
  | .btab => 0x05
  | .loopu => 0x06
  | .exit => 0x07
  | .sink => 0x08
  | .region => 0x09
  | .commit => 0x0A
  | .yield_ => 0x0B
  | .bpt => 0x0C
  | .trap => 0x0D
  | .iadd => 0x10
  | .isub => 0x11
  | .imul => 0x12
  | .imulh => 0x13
  | .imad => 0x14
  | .iaddc => 0x15
  | .imin => 0x16
  | .imax => 0x17
  | .iabs => 0x18
  | .ineg => 0x19
  | .idiv => 0x1A
  | .irem => 0x1B
  | .icmp => 0x1C
  | .lea => 0x1D
  | .sel => 0x1E
  | .mov => 0x1F
  | .and_ => 0x20
  | .or_ => 0x21
  | .xor_ => 0x22
  | .not_ => 0x23
  | .andn => 0x24
  | .shl => 0x25
  | .shr => 0x26
  | .sar => 0x27
  | .rol => 0x28
  | .popc => 0x29
  | .clz => 0x2A
  | .brev => 0x2B
  | .bfx => 0x2C
  | .bfi => 0x2D
  | .perm => 0x2E
  | .movi => 0x2F
  | .fadd => 0x30
  | .fsub => 0x31
  | .fmul => 0x32
  | .ffma => 0x33
  | .fmin => 0x34
  | .fmax => 0x35
  | .fabs => 0x36
  | .fneg => 0x37
  | .fcmp => 0x38
  | .fclass => 0x39
  | .frcp => 0x3A
  | .frsq => 0x3B
  | .fsqrt => 0x3C
  | .fex2 => 0x3D
  | .flg2 => 0x3E
  | .ftrig => 0x3F
  | .dadd => 0x40
  | .dsub => 0x41
  | .dmul => 0x42
  | .dfma => 0x43
  | .dmin => 0x44
  | .dmax => 0x45
  | .dcmp => 0x46
  | .drcp => 0x47
  | .dsqrt => 0x48
  | .cvt => 0x49
  | .cvtb => 0x4A
  | .frnd => 0x4B
  | .fscl => 0x4C
  | .vote => 0x50
  | .shfl => 0x51
  | .gscan => 0x52
  | .gred => 0x53
  | .bcast => 0x54
  | .match_ => 0x55
  | .kop => 0x56
  | .kmov => 0x57
  | .ld => 0x60
  | .lds => 0x61
  | .ldp => 0x62
  | .ldc => 0x63
  | .lda => 0x64
  | .ldx => 0x65
  | .pref => 0x66
  | .st => 0x70
  | .sts => 0x71
  | .stp => 0x72
  | .strl => 0x73
  | .clean => 0x74
  | .inval => 0x75
  | .flushn => 0x76
  | .atom => 0x80
  | .acas => 0x81
  | .aredn => 0x82
  | .atoms => 0x83
  | .fence => 0x90
  | .barw => 0x91
  | .bara => 0x92
  | .drain => 0x93
  | .txb => 0x94
  | .txe => 0x95
  | .txa => 0x96
  | .txq => 0x97
  | .waite => 0x98
  | .spawn => 0xA0
  | .await_ => 0xA1
  | .resolve => 0xA2
  | .park => 0xA3
  | .steal => 0xA4
  | .role => 0xA5
  | .futnew => 0xA6
  | .mma => 0xB0
  | .mmaz => 0xB1
  | .mlds => 0xB2
  | .msts => 0xB3
  | .mtrn => 0xB4
  | .tmma => 0xC0
  | .copy => 0xC1
  | .coll => 0xC2
  | .press => 0xC3
  | .lnest => 0xC4
  | .tdep => 0xC5
  | .tstore => 0xC6
  | .tzero => 0xC7
  | .ecancel => 0xC8
  | .rds => 0xD0
  | .wrs => 0xD1
  | .event => 0xD2
  | .clockc => 0xD3
  | .tret => 0xE0
  | .tlbi => 0xE1
  | .ctxsv => 0xE2
  | .ctxld => 0xE3
  | .killt => 0xE4
  | .halt => 0xE5

/-- The opcode map read from a code; `none` for every code marked as unassigned (05 R107, R108). -/
def Op.ofCode (c : Nat) : Option Op :=
  match c with
  | 0x00 => some .nop
  | 0x01 => some .br
  | 0x02 => some .join
  | 0x03 => some .call
  | 0x04 => some .ret
  | 0x05 => some .btab
  | 0x06 => some .loopu
  | 0x07 => some .exit
  | 0x08 => some .sink
  | 0x09 => some .region
  | 0x0A => some .commit
  | 0x0B => some .yield_
  | 0x0C => some .bpt
  | 0x0D => some .trap
  | 0x10 => some .iadd
  | 0x11 => some .isub
  | 0x12 => some .imul
  | 0x13 => some .imulh
  | 0x14 => some .imad
  | 0x15 => some .iaddc
  | 0x16 => some .imin
  | 0x17 => some .imax
  | 0x18 => some .iabs
  | 0x19 => some .ineg
  | 0x1A => some .idiv
  | 0x1B => some .irem
  | 0x1C => some .icmp
  | 0x1D => some .lea
  | 0x1E => some .sel
  | 0x1F => some .mov
  | 0x20 => some .and_
  | 0x21 => some .or_
  | 0x22 => some .xor_
  | 0x23 => some .not_
  | 0x24 => some .andn
  | 0x25 => some .shl
  | 0x26 => some .shr
  | 0x27 => some .sar
  | 0x28 => some .rol
  | 0x29 => some .popc
  | 0x2A => some .clz
  | 0x2B => some .brev
  | 0x2C => some .bfx
  | 0x2D => some .bfi
  | 0x2E => some .perm
  | 0x2F => some .movi
  | 0x30 => some .fadd
  | 0x31 => some .fsub
  | 0x32 => some .fmul
  | 0x33 => some .ffma
  | 0x34 => some .fmin
  | 0x35 => some .fmax
  | 0x36 => some .fabs
  | 0x37 => some .fneg
  | 0x38 => some .fcmp
  | 0x39 => some .fclass
  | 0x3A => some .frcp
  | 0x3B => some .frsq
  | 0x3C => some .fsqrt
  | 0x3D => some .fex2
  | 0x3E => some .flg2
  | 0x3F => some .ftrig
  | 0x40 => some .dadd
  | 0x41 => some .dsub
  | 0x42 => some .dmul
  | 0x43 => some .dfma
  | 0x44 => some .dmin
  | 0x45 => some .dmax
  | 0x46 => some .dcmp
  | 0x47 => some .drcp
  | 0x48 => some .dsqrt
  | 0x49 => some .cvt
  | 0x4A => some .cvtb
  | 0x4B => some .frnd
  | 0x4C => some .fscl
  | 0x50 => some .vote
  | 0x51 => some .shfl
  | 0x52 => some .gscan
  | 0x53 => some .gred
  | 0x54 => some .bcast
  | 0x55 => some .match_
  | 0x56 => some .kop
  | 0x57 => some .kmov
  | 0x60 => some .ld
  | 0x61 => some .lds
  | 0x62 => some .ldp
  | 0x63 => some .ldc
  | 0x64 => some .lda
  | 0x65 => some .ldx
  | 0x66 => some .pref
  | 0x70 => some .st
  | 0x71 => some .sts
  | 0x72 => some .stp
  | 0x73 => some .strl
  | 0x74 => some .clean
  | 0x75 => some .inval
  | 0x76 => some .flushn
  | 0x80 => some .atom
  | 0x81 => some .acas
  | 0x82 => some .aredn
  | 0x83 => some .atoms
  | 0x90 => some .fence
  | 0x91 => some .barw
  | 0x92 => some .bara
  | 0x93 => some .drain
  | 0x94 => some .txb
  | 0x95 => some .txe
  | 0x96 => some .txa
  | 0x97 => some .txq
  | 0x98 => some .waite
  | 0xA0 => some .spawn
  | 0xA1 => some .await_
  | 0xA2 => some .resolve
  | 0xA3 => some .park
  | 0xA4 => some .steal
  | 0xA5 => some .role
  | 0xA6 => some .futnew
  | 0xB0 => some .mma
  | 0xB1 => some .mmaz
  | 0xB2 => some .mlds
  | 0xB3 => some .msts
  | 0xB4 => some .mtrn
  | 0xC0 => some .tmma
  | 0xC1 => some .copy
  | 0xC2 => some .coll
  | 0xC3 => some .press
  | 0xC4 => some .lnest
  | 0xC5 => some .tdep
  | 0xC6 => some .tstore
  | 0xC7 => some .tzero
  | 0xC8 => some .ecancel
  | 0xD0 => some .rds
  | 0xD1 => some .wrs
  | 0xD2 => some .event
  | 0xD3 => some .clockc
  | 0xE0 => some .tret
  | 0xE1 => some .tlbi
  | 0xE2 => some .ctxsv
  | 0xE3 => some .ctxld
  | 0xE4 => some .killt
  | 0xE5 => some .halt
  | _ => none

/-- What each entry of the instruction chapters says of its fields (06 R123 to 09 R245). -/
def Op.entry : Op → Entry
  | .nop => { mask := false, u := .zero }
  | .br => { u := .zero }
  | .join => { imm := .req, mask := false, u := .zero }
  | .call => { mask := false, u := .zero }
  | .ret => { mask := false, u := .zero }
  | .btab => { d := .raw, a := .one, imm := .req, mask := false }
  | .loopu => { d := .uni, mask := false, u := .one }
  | .exit => { u := .zero }
  | .sink => { mods := 8, x21 := true, la := true, u := .zero }
  | .region => { mask := false, u := .zero }
  | .commit => { mask := false, u := .zero }
  | .yield_ => { imm := .req, mask := false, u := .zero }
  | .bpt => { imm := .req, u := .zero }
  | .trap => { imm := .req, u := .zero }
  | .iadd => { d := .typed, a := .typed, b := .typed, tys := intTys, imm := .opt, sat := true, nbr := true }
  | .isub => { d := .typed, a := .typed, b := .typed, tys := intTys, imm := .opt, sat := true, nbr := true }
  | .imul => { d := .typed, a := .typed, b := .typed, tys := intTys, imm := .opt, sat := true, nbr := true }
  | .imulh => { d := .typed, a := .typed, b := .typed, tys := [.i32, .i64, .n32, .n64], imm := .opt, nbr := true }
  | .imad => { d := .typed, a := .typed, b := .typed, c := .typed, tys := intTys, sat := true, nbr := true }
  | .iaddc => { d := .typed, a := .typed, b := .typed, c := .maskDst, tys := [.n32, .n64], nbr := true }
  | .imin => { d := .typed, a := .typed, b := .typed, tys := intTys, imm := .opt, nbr := true }
  | .imax => { d := .typed, a := .typed, b := .typed, tys := intTys, imm := .opt, nbr := true }
  | .iabs => { d := .typed, a := .typed, tys := [.i8, .i16, .i32, .i64], sat := true, nbr := true }
  | .ineg => { d := .typed, a := .typed, tys := intTys, sat := true, nbr := true }
  | .idiv => { d := .typed, a := .typed, b := .typed, tys := intTys, imm := .opt, sat := true, nbr := true, la := true }
  | .irem => { d := .typed, a := .typed, b := .typed, tys := intTys, imm := .opt, sat := true, nbr := true, la := true }
  | .icmp => { d := .maskDst, a := .typed, b := .typed, tys := intTys, mods := 6, imm := .opt, nbr := true }
  | .lea => { d := .typed, a := .typed, b := .one, tys := [.b64], mods := 8, imm := .opt, nbr := true }
  | .sel => { d := .typed, a := .typed, b := .typed, c := .mask, tys := [.b32, .b64], nbr := true }
  | .mov => { d := .typed, a := .typed, tys := [.b32, .b64, .b128], imm := .opt, nbr := true }
  | .and_ => { d := .typed, a := .typed, b := .typed, tys := [.b32, .b64, .b128], imm := .opt, nbr := true }
  | .or_ => { d := .typed, a := .typed, b := .typed, tys := [.b32, .b64, .b128], imm := .opt, nbr := true }
  | .xor_ => { d := .typed, a := .typed, b := .typed, tys := [.b32, .b64, .b128], imm := .opt, nbr := true }
  | .not_ => { d := .typed, a := .typed, tys := [.b32, .b64, .b128], nbr := true }
  | .andn => { d := .typed, a := .typed, b := .typed, tys := [.b32, .b64, .b128], imm := .opt, nbr := true }
  | .shl => { d := .typed, a := .typed, b := .typed, tys := [.b32, .b64], imm := .opt, nbr := true }
  | .shr => { d := .typed, a := .typed, b := .typed, tys := [.b32, .b64], imm := .opt, nbr := true }
  | .sar => { d := .typed, a := .typed, b := .typed, tys := [.b32, .b64], imm := .opt, nbr := true }
  | .rol => { d := .typed, a := .typed, b := .typed, tys := [.b32, .b64], imm := .opt, nbr := true }
  | .popc => { d := .typed, a := .typed, tys := [.b32, .b64], nbr := true }
  | .clz => { d := .typed, a := .typed, tys := [.b32, .b64], nbr := true }
  | .brev => { d := .typed, a := .typed, tys := [.b32, .b64], nbr := true }
  | .bfx => { d := .typed, a := .typed, b := .typed, tys := [.i32, .n32], imm := .opt, nbr := true }
  | .bfi => { d := .typed, a := .typed, b := .typed, c := .typed, nbr := true }
  | .perm => { d := .typed, a := .typed, b := .typed, c := .typed, nbr := true }
  | .movi => { d := .typed, tys := [.b32, .b64] }
  | .fadd => { d := .typed, a := .typed, b := .typed, tys := [.f16x2, .bf16x2, .f32], imm := .opt, rm := true, sat := true, nbr := true }
  | .fsub => { d := .typed, a := .typed, b := .typed, tys := [.f16x2, .bf16x2, .f32], imm := .opt, rm := true, sat := true, nbr := true }
  | .fmul => { d := .typed, a := .typed, b := .typed, tys := [.f16x2, .bf16x2, .f32], imm := .opt, rm := true, sat := true, nbr := true }
  | .ffma => { d := .typed, a := .typed, b := .typed, c := .typed, tys := [.f16x2, .bf16x2, .f32], rm := true, sat := true, nbr := true }
  | .fmin => { d := .typed, a := .typed, b := .typed, tys := [.f16x2, .bf16x2, .f32], imm := .opt, nbr := true }
  | .fmax => { d := .typed, a := .typed, b := .typed, tys := [.f16x2, .bf16x2, .f32], imm := .opt, nbr := true }
  | .fabs => { d := .typed, a := .typed, tys := [.f16x2, .bf16x2, .f32], nbr := true }
  | .fneg => { d := .typed, a := .typed, tys := [.f16x2, .bf16x2, .f32], nbr := true }
  | .fcmp => { d := .maskDst, a := .typed, b := .typed, tys := [.f32], mods := 8, imm := .opt, nbr := true }
  | .fclass => { d := .one, a := .typed, tys := [.f32, .f64], nbr := true }
  | .frcp => { d := .typed, a := .typed, tys := [.f32], sat := true, nbr := true, la := true }
  | .frsq => { d := .typed, a := .typed, tys := [.f32], sat := true, nbr := true, la := true }
  | .fsqrt => { d := .typed, a := .typed, tys := [.f32], sat := true, nbr := true, la := true }
  | .fex2 => { d := .typed, a := .typed, tys := [.f32], sat := true, nbr := true, la := true }
  | .flg2 => { d := .typed, a := .typed, tys := [.f32], sat := true, nbr := true, la := true }
  | .ftrig => { d := .typed, a := .typed, tys := [.f32], mods := 2, sat := true, nbr := true, la := true }
  | .dadd => { d := .typed, a := .typed, b := .typed, tys := [.f64], imm := .opt, rm := true, sat := true, nbr := true }
  | .dsub => { d := .typed, a := .typed, b := .typed, tys := [.f64], imm := .opt, rm := true, sat := true, nbr := true }
  | .dmul => { d := .typed, a := .typed, b := .typed, tys := [.f64], imm := .opt, rm := true, sat := true, nbr := true }
  | .dfma => { d := .typed, a := .typed, b := .typed, c := .typed, tys := [.f64], rm := true, sat := true, nbr := true }
  | .dmin => { d := .typed, a := .typed, b := .typed, tys := [.f64], imm := .opt, nbr := true }
  | .dmax => { d := .typed, a := .typed, b := .typed, tys := [.f64], imm := .opt, nbr := true }
  | .dcmp => { d := .maskDst, a := .typed, b := .typed, tys := [.f64], mods := 8, imm := .opt, nbr := true }
  | .drcp => { d := .typed, a := .typed, tys := [.f64], sat := true, nbr := true, la := true }
  | .dsqrt => { d := .typed, a := .typed, tys := [.f64], sat := true, nbr := true, la := true }
  | .cvt => { d := .typed, a := .reg, c := .raw, tys := intTys ++ [.f16x2, .bf16x2, .f32, .f64], mods := 2, rm := true, sat := true, nbr := true }
  | .cvtb => { d := .typed, a := .typed, c := .raw, tys := [.f32], mods := 2, rm := true, u := .zero }
  | .frnd => { d := .typed, a := .typed, tys := [.f16x2, .bf16x2, .f32, .f64], rm := true, nbr := true }
  | .fscl => { d := .typed, a := .typed, b := .one, tys := [.f32, .f64], imm := .opt, rm := true, sat := true, nbr := true }
  | .vote => { d := .uni, a := .typed, mods := 4, u := .zero }
  | .shfl => { d := .typed, a := .typed, b := .one, tys := [.b32, .b64], mods := 4, imm := .opt, u := .zero }
  | .gscan => { d := .typed, a := .typed, tys := [.b32, .i8, .i16, .i32, .i64, .n8, .n16, .n32, .n64, .f32, .b64], mods := 6, sat := true, x21 := true, u := .zero, la := true }
  | .gred => { d := .reg, a := .typed, tys := [.b32, .i8, .i16, .i32, .i64, .n8, .n16, .n32, .n64, .f32, .b64], mods := 6, sat := true, x21 := true, u := .zero, la := true }
  | .bcast => { d := .reg, a := .reg, b := .raw, tys := [.b32, .b64], mods := 3, imm := .opt, u := .zero }
  | .match_ => { d := .reg, a := .typed, tys := [.b32, .b64], u := .zero }
  | .kop => { d := .maskDst, a := .mask, b := .mask, mods := 5, u := .one, mask := false }
  | .kmov => { d := .raw, a := .reg, mods := 4 }
  | .ld => { d := .typed, tys := memTys, mem := .virt, lform := true, la := true }
  | .lds => { d := .typed, tys := memTys, mem := .space, lform := true, la := true }
  | .ldp => { d := .typed, tys := memTys, mem := .space, lform := true, la := true, u := .zero }
  | .ldc => { d := .typed, tys := memTys, mem := .virt, lform := true, la := true }
  | .lda => { d := .typed, tys := syncTys, mem := .virt, lform := true, la := true, hasScope := true }
  | .ldx => { d := .typed, tys := memTys, mem := .virt, lform := true, la := true }
  | .pref => { mods := 3, mem := .virt }
  | .st => { d := .typed, tys := memTys, mem := .virt, lform := true, store := true }
  | .sts => { d := .typed, tys := memTys, mem := .space, lform := true, store := true }
  | .stp => { d := .typed, tys := memTys, mem := .space, lform := true, store := true, u := .zero }
  | .strl => { d := .typed, tys := syncTys, mem := .virt, lform := true, store := true, hasScope := true }
  | .clean => { mem := .virt }
  | .inval => { mem := .virt }
  | .flushn => { mods := 2, u := .zero }
  | .atom => { d := .typed, c := .typed, tys := syncTys ++ [.bf16x2, .f32], mods := 8, mem := .virt, la := true, hasScope := true }
  | .acas => { d := .typed, c := .reg, tys := [.b32, .b64], mem := .virt, la := true, hasScope := true }
  | .aredn => { c := .typed, tys := syncTys ++ [.bf16x2, .f32], mods := 6, mem := .virt, hasScope := true }
  | .atoms => { d := .typed, c := .typed, tys := syncTys ++ [.bf16x2, .f32], mods := 8, mem := .space, la := true }
  | .fence => { mods := 3, u := .zero, hasScope := true }
  | .barw => { d := .raw, imm := .opt, mask := false, u := .zero }
  | .bara => { d := .raw, imm := .opt, mask := false, u := .zero }
  | .drain => { d := .raw, imm := .opt, mask := false, u := .zero }
  | .txb => { u := .zero }
  | .txe => { d := .typed, u := .zero }
  | .txa => { imm := .req, u := .zero }
  | .txq => { d := .typed, u := .zero }
  | .waite => { d := .raw, imm := .req, mask := false, u := .zero }
  | .spawn => { d := .typed, a := .uni, b := .reg, c := .raw, mods := 2, u := .zero }
  | .await_ => { d := .uni, a := .uni, imm := .opt, u := .one }
  | .resolve => { c := .reg, mods := 8, mem := .virt }
  | .park => { a := .uni, mods := 2, imm := .opt, u := .one }
  | .steal => { d := .uni, a := .uni, b := .uni, imm := .opt, u := .one }
  | .role => { a := .uni, u := .one }
  | .futnew => { mem := .virt }
  | .mma => { d := .reg, a := .reg, b := .reg, c := .reg, tys := [.f32, .f64], mods := 8, x21 := true, u := .zero, la := true }
  | .mmaz => { d := .reg, a := .reg, b := .reg, c := .reg, tys := [.f32, .f64], mods := 8, x21 := true, u := .zero, la := true }
  | .mlds => { d := .reg, mods := 4, mem := .space, la := true, u := .zero }
  | .msts => { d := .reg, mods := 4, mem := .space, store := true, u := .zero }
  | .mtrn => { d := .reg, a := .reg, tys := [.n8, .n16, .b32], u := .zero }
  | .tmma => { a := .uni, b := .raw, tys := [.f32], mods := 2, x21 := true, u := .one }
  | .copy => { d := .uni, a := .uni, b := .uni, mods := 2, x21 := true, u := .one }
  | .coll => { a := .uni, x21 := true, u := .one }
  | .press => { a := .uni, b := .uni, c := .uni, x21 := true, u := .one }
  | .lnest => { d := .uni, a := .uni, b := .uni, c := .uni, x21 := true, u := .one }
  | .tdep => { a := .uni, u := .one }
  | .tstore => { a := .uni, b := .raw, tys := [.f32], mods := 2, x21 := true, u := .one }
  | .tzero => { a := .uni, x21 := true, u := .one }
  | .ecancel => { x21 := true, u := .one }
  | .rds => { d := .typed, a := .raw }
  | .wrs => { d := .raw, a := .uni, u := .one }
  | .event => { a := .typed, imm := .req }
  | .clockc => { d := .uni, u := .one }
  | .tret => { u := .one, mask := false }
  | .tlbi => { a := .uni, mods := 3, u := .one, mask := false }
  | .ctxsv => { a := .uni, u := .one, mask := false }
  | .ctxld => { a := .uni, u := .one, mask := false }
  | .killt => { a := .uni, mods := 2, x21 := true, u := .one, mask := false }
  | .halt => { u := .one, mask := false }

/-- The instruction of an opcode, its F word and its further words. -/
def Op.build (op : Op) (f : FOps) (ws : List Word) : Instr :=
  match op with
  | .nop => .nop f
  | .br => .br f (ws.getD 0 0)
  | .join => .join f
  | .call => .call f (ws.getD 0 0)
  | .ret => .ret f
  | .btab => .btab f ws
  | .loopu => .loopu f (ws.getD 0 0)
  | .exit => .exit f
  | .sink => .sink f
  | .region => .region f
  | .commit => .commit f
  | .yield_ => .yield_ f
  | .bpt => .bpt f
  | .trap => .trap f
  | .iadd => .iadd f
  | .isub => .isub f
  | .imul => .imul f
  | .imulh => .imulh f
  | .imad => .imad f
  | .iaddc => .iaddc f
  | .imin => .imin f
  | .imax => .imax f
  | .iabs => .iabs f
  | .ineg => .ineg f
  | .idiv => .idiv f
  | .irem => .irem f
  | .icmp => .icmp f
  | .lea => .lea f
  | .sel => .sel f
  | .mov => .mov f
  | .and_ => .and_ f
  | .or_ => .or_ f
  | .xor_ => .xor_ f
  | .not_ => .not_ f
  | .andn => .andn f
  | .shl => .shl f
  | .shr => .shr f
  | .sar => .sar f
  | .rol => .rol f
  | .popc => .popc f
  | .clz => .clz f
  | .brev => .brev f
  | .bfx => .bfx f
  | .bfi => .bfi f
  | .perm => .perm f
  | .movi => .movi f (ws.getD 0 0)
  | .fadd => .fadd f
  | .fsub => .fsub f
  | .fmul => .fmul f
  | .ffma => .ffma f
  | .fmin => .fmin f
  | .fmax => .fmax f
  | .fabs => .fabs f
  | .fneg => .fneg f
  | .fcmp => .fcmp f
  | .fclass => .fclass f
  | .frcp => .frcp f
  | .frsq => .frsq f
  | .fsqrt => .fsqrt f
  | .fex2 => .fex2 f
  | .flg2 => .flg2 f
  | .ftrig => .ftrig f
  | .dadd => .dadd f
  | .dsub => .dsub f
  | .dmul => .dmul f
  | .dfma => .dfma f
  | .dmin => .dmin f
  | .dmax => .dmax f
  | .dcmp => .dcmp f
  | .drcp => .drcp f
  | .dsqrt => .dsqrt f
  | .cvt => .cvt f
  | .cvtb => .cvtb f
  | .frnd => .frnd f
  | .fscl => .fscl f
  | .vote => .vote f
  | .shfl => .shfl f
  | .gscan => .gscan f
  | .gred => .gred f
  | .bcast => .bcast f
  | .match_ => .match_ f
  | .kop => .kop f
  | .kmov => .kmov f
  | .ld => .ld f (ws.getD 0 0)
  | .lds => .lds f (ws.getD 0 0)
  | .ldp => .ldp f (ws.getD 0 0)
  | .ldc => .ldc f (ws.getD 0 0)
  | .lda => .lda f (ws.getD 0 0)
  | .ldx => .ldx f (ws.getD 0 0)
  | .pref => .pref f
  | .st => .st f (ws.getD 0 0)
  | .sts => .sts f (ws.getD 0 0)
  | .stp => .stp f (ws.getD 0 0)
  | .strl => .strl f (ws.getD 0 0)
  | .clean => .clean f
  | .inval => .inval f
  | .flushn => .flushn f
  | .atom => .atom f
  | .acas => .acas f
  | .aredn => .aredn f
  | .atoms => .atoms f
  | .fence => .fence f
  | .barw => .barw f
  | .bara => .bara f
  | .drain => .drain f
  | .txb => .txb f
  | .txe => .txe f
  | .txa => .txa f
  | .txq => .txq f
  | .waite => .waite f
  | .spawn => .spawn f
  | .await_ => .await_ f
  | .resolve => .resolve f
  | .park => .park f
  | .steal => .steal f
  | .role => .role f
  | .futnew => .futnew f
  | .mma => .mma f
  | .mmaz => .mmaz f
  | .mlds => .mlds f
  | .msts => .msts f
  | .mtrn => .mtrn f
  | .tmma => .tmma f
  | .copy => .copy f
  | .coll => .coll f
  | .press => .press f (ws.getD 0 0) (ws.getD 1 0) (ws.getD 2 0)
  | .lnest => .lnest f (ws.getD 0 0) (ws.getD 1 0) (ws.getD 2 0)
  | .tdep => .tdep f
  | .tstore => .tstore f
  | .tzero => .tzero f
  | .ecancel => .ecancel f
  | .rds => .rds f
  | .wrs => .wrs f
  | .event => .event f
  | .clockc => .clockc f
  | .tret => .tret f
  | .tlbi => .tlbi f
  | .ctxsv => .ctxsv f
  | .ctxld => .ctxld f
  | .killt => .killt f
  | .halt => .halt f

/-- The opcode, the F word and the further words of an instruction with an F-shaped first word. -/
def Instr.parts : Instr → Option (Op × FOps × List Word)
  | .nop f => some (.nop, f, [])
  | .br f w => some (.br, f, [w])
  | .join f => some (.join, f, [])
  | .call f w => some (.call, f, [w])
  | .ret f => some (.ret, f, [])
  | .btab f ws => some (.btab, f, ws)
  | .loopu f w => some (.loopu, f, [w])
  | .exit f => some (.exit, f, [])
  | .sink f => some (.sink, f, [])
  | .region f => some (.region, f, [])
  | .commit f => some (.commit, f, [])
  | .yield_ f => some (.yield_, f, [])
  | .bpt f => some (.bpt, f, [])
  | .trap f => some (.trap, f, [])
  | .iadd f => some (.iadd, f, [])
  | .isub f => some (.isub, f, [])
  | .imul f => some (.imul, f, [])
  | .imulh f => some (.imulh, f, [])
  | .imad f => some (.imad, f, [])
  | .iaddc f => some (.iaddc, f, [])
  | .imin f => some (.imin, f, [])
  | .imax f => some (.imax, f, [])
  | .iabs f => some (.iabs, f, [])
  | .ineg f => some (.ineg, f, [])
  | .idiv f => some (.idiv, f, [])
  | .irem f => some (.irem, f, [])
  | .icmp f => some (.icmp, f, [])
  | .lea f => some (.lea, f, [])
  | .sel f => some (.sel, f, [])
  | .mov f => some (.mov, f, [])
  | .and_ f => some (.and_, f, [])
  | .or_ f => some (.or_, f, [])
  | .xor_ f => some (.xor_, f, [])
  | .not_ f => some (.not_, f, [])
  | .andn f => some (.andn, f, [])
  | .shl f => some (.shl, f, [])
  | .shr f => some (.shr, f, [])
  | .sar f => some (.sar, f, [])
  | .rol f => some (.rol, f, [])
  | .popc f => some (.popc, f, [])
  | .clz f => some (.clz, f, [])
  | .brev f => some (.brev, f, [])
  | .bfx f => some (.bfx, f, [])
  | .bfi f => some (.bfi, f, [])
  | .perm f => some (.perm, f, [])
  | .movi f w => some (.movi, f, [w])
  | .fadd f => some (.fadd, f, [])
  | .fsub f => some (.fsub, f, [])
  | .fmul f => some (.fmul, f, [])
  | .ffma f => some (.ffma, f, [])
  | .fmin f => some (.fmin, f, [])
  | .fmax f => some (.fmax, f, [])
  | .fabs f => some (.fabs, f, [])
  | .fneg f => some (.fneg, f, [])
  | .fcmp f => some (.fcmp, f, [])
  | .fclass f => some (.fclass, f, [])
  | .frcp f => some (.frcp, f, [])
  | .frsq f => some (.frsq, f, [])
  | .fsqrt f => some (.fsqrt, f, [])
  | .fex2 f => some (.fex2, f, [])
  | .flg2 f => some (.flg2, f, [])
  | .ftrig f => some (.ftrig, f, [])
  | .dadd f => some (.dadd, f, [])
  | .dsub f => some (.dsub, f, [])
  | .dmul f => some (.dmul, f, [])
  | .dfma f => some (.dfma, f, [])
  | .dmin f => some (.dmin, f, [])
  | .dmax f => some (.dmax, f, [])
  | .dcmp f => some (.dcmp, f, [])
  | .drcp f => some (.drcp, f, [])
  | .dsqrt f => some (.dsqrt, f, [])
  | .cvt f => some (.cvt, f, [])
  | .cvtb f => some (.cvtb, f, [])
  | .frnd f => some (.frnd, f, [])
  | .fscl f => some (.fscl, f, [])
  | .vote f => some (.vote, f, [])
  | .shfl f => some (.shfl, f, [])
  | .gscan f => some (.gscan, f, [])
  | .gred f => some (.gred, f, [])
  | .bcast f => some (.bcast, f, [])
  | .match_ f => some (.match_, f, [])
  | .kop f => some (.kop, f, [])
  | .kmov f => some (.kmov, f, [])
  | .ld f w => some (.ld, f, [w])
  | .lds f w => some (.lds, f, [w])
  | .ldp f w => some (.ldp, f, [w])
  | .ldc f w => some (.ldc, f, [w])
  | .lda f w => some (.lda, f, [w])
  | .ldx f w => some (.ldx, f, [w])
  | .pref f => some (.pref, f, [])
  | .st f w => some (.st, f, [w])
  | .sts f w => some (.sts, f, [w])
  | .stp f w => some (.stp, f, [w])
  | .strl f w => some (.strl, f, [w])
  | .clean f => some (.clean, f, [])
  | .inval f => some (.inval, f, [])
  | .flushn f => some (.flushn, f, [])
  | .atom f => some (.atom, f, [])
  | .acas f => some (.acas, f, [])
  | .aredn f => some (.aredn, f, [])
  | .atoms f => some (.atoms, f, [])
  | .fence f => some (.fence, f, [])
  | .barw f => some (.barw, f, [])
  | .bara f => some (.bara, f, [])
  | .drain f => some (.drain, f, [])
  | .txb f => some (.txb, f, [])
  | .txe f => some (.txe, f, [])
  | .txa f => some (.txa, f, [])
  | .txq f => some (.txq, f, [])
  | .waite f => some (.waite, f, [])
  | .spawn f => some (.spawn, f, [])
  | .await_ f => some (.await_, f, [])
  | .resolve f => some (.resolve, f, [])
  | .park f => some (.park, f, [])
  | .steal f => some (.steal, f, [])
  | .role f => some (.role, f, [])
  | .futnew f => some (.futnew, f, [])
  | .mma f => some (.mma, f, [])
  | .mmaz f => some (.mmaz, f, [])
  | .mlds f => some (.mlds, f, [])
  | .msts f => some (.msts, f, [])
  | .mtrn f => some (.mtrn, f, [])
  | .tmma f => some (.tmma, f, [])
  | .copy f => some (.copy, f, [])
  | .coll f => some (.coll, f, [])
  | .press f w1 w2 w3 => some (.press, f, [w1, w2, w3])
  | .lnest f w1 w2 w3 => some (.lnest, f, [w1, w2, w3])
  | .tdep f => some (.tdep, f, [])
  | .tstore f => some (.tstore, f, [])
  | .tzero f => some (.tzero, f, [])
  | .ecancel f => some (.ecancel, f, [])
  | .rds f => some (.rds, f, [])
  | .wrs f => some (.wrs, f, [])
  | .event f => some (.event, f, [])
  | .clockc f => some (.clockc, f, [])
  | .tret f => some (.tret, f, [])
  | .tlbi f => some (.tlbi, f, [])
  | .ctxsv f => some (.ctxsv, f, [])
  | .ctxld f => some (.ctxld, f, [])
  | .killt f => some (.killt, f, [])
  | .halt f => some (.halt, f, [])
  | _ => none

/-- The 7-bit pair operation code (05 R113). -/
def PairOp.code : PairOp → Nat
  | .nop => 0x00
  | .mov => 0x01
  | .iaddI32 => 0x02
  | .isubI32 => 0x03
  | .iminI32 => 0x04
  | .imaxI32 => 0x05
  | .iminN32 => 0x06
  | .imaxN32 => 0x07
  | .and32 => 0x08
  | .or32 => 0x09
  | .xor32 => 0x0A
  | .andn32 => 0x0B
  | .shl32 => 0x0C
  | .shr32 => 0x0D
  | .sar32 => 0x0E
  | .faddF32 => 0x0F
  | .fmulF32 => 0x10
  | .fminF32 => 0x11
  | .fmaxF32 => 0x12
  | .faddBf16x2 => 0x13
  | .fmulBf16x2 => 0x14
  | .fminBf16x2 => 0x15
  | .fmaxBf16x2 => 0x16
  | .iaddI64 => 0x17
  | .isubI64 => 0x18
  | .movImm => 0x20
  | .iaddI32Imm => 0x21
  | .andImm => 0x22
  | .orImm => 0x23
  | .xorImm => 0x24
  | .shlImm => 0x25
  | .shrImm => 0x26
  | .sarImm => 0x27
  | .iaddI64Imm => 0x28

/-- The pair operation of a code; `none` for every code not listed (05 R113). -/
def PairOp.ofCode (c : Nat) : Option PairOp :=
  match c with
  | 0x00 => some .nop
  | 0x01 => some .mov
  | 0x02 => some .iaddI32
  | 0x03 => some .isubI32
  | 0x04 => some .iminI32
  | 0x05 => some .imaxI32
  | 0x06 => some .iminN32
  | 0x07 => some .imaxN32
  | 0x08 => some .and32
  | 0x09 => some .or32
  | 0x0A => some .xor32
  | 0x0B => some .andn32
  | 0x0C => some .shl32
  | 0x0D => some .shr32
  | 0x0E => some .sar32
  | 0x0F => some .faddF32
  | 0x10 => some .fmulF32
  | 0x11 => some .fminF32
  | 0x12 => some .fmaxF32
  | 0x13 => some .faddBf16x2
  | 0x14 => some .fmulBf16x2
  | 0x15 => some .fminBf16x2
  | 0x16 => some .fmaxBf16x2
  | 0x17 => some .iaddI64
  | 0x18 => some .isubI64
  | 0x20 => some .movImm
  | 0x21 => some .iaddI32Imm
  | 0x22 => some .andImm
  | 0x23 => some .orImm
  | 0x24 => some .xorImm
  | 0x25 => some .shlImm
  | 0x26 => some .shrImm
  | 0x27 => some .sarImm
  | 0x28 => some .iaddI64Imm
  | _ => none

/-- The instruction of a pair word: its constructor is named by slot A (05 R112). -/
def PairOp.build (op : PairOp) (a : PSlot) (b : PairSlot) : Instr :=
  match op with
  | .nop => .pairNop a b
  | .mov => .pairMov a b
  | .iaddI32 => .pairIaddI32 a b
  | .isubI32 => .pairIsubI32 a b
  | .iminI32 => .pairIminI32 a b
  | .imaxI32 => .pairImaxI32 a b
  | .iminN32 => .pairIminN32 a b
  | .imaxN32 => .pairImaxN32 a b
  | .and32 => .pairAnd a b
  | .or32 => .pairOr a b
  | .xor32 => .pairXor a b
  | .andn32 => .pairAndn a b
  | .shl32 => .pairShl a b
  | .shr32 => .pairShr a b
  | .sar32 => .pairSar a b
  | .faddF32 => .pairFaddF32 a b
  | .fmulF32 => .pairFmulF32 a b
  | .fminF32 => .pairFminF32 a b
  | .fmaxF32 => .pairFmaxF32 a b
  | .faddBf16x2 => .pairFaddBf16x2 a b
  | .fmulBf16x2 => .pairFmulBf16x2 a b
  | .fminBf16x2 => .pairFminBf16x2 a b
  | .fmaxBf16x2 => .pairFmaxBf16x2 a b
  | .iaddI64 => .pairIaddI64 a b
  | .isubI64 => .pairIsubI64 a b
  | .movImm => .pairMovImm a b
  | .iaddI32Imm => .pairIaddI32Imm a b
  | .andImm => .pairAndImm a b
  | .orImm => .pairOrImm a b
  | .xorImm => .pairXorImm a b
  | .shlImm => .pairShlImm a b
  | .shrImm => .pairShrImm a b
  | .sarImm => .pairSarImm a b
  | .iaddI64Imm => .pairIaddI64Imm a b

/-- Both slots of a pair word. -/
def Instr.pairParts : Instr → Option (PairSlot × PairSlot)
  | .pairNop a b => some (⟨.nop, a⟩, b)
  | .pairMov a b => some (⟨.mov, a⟩, b)
  | .pairIaddI32 a b => some (⟨.iaddI32, a⟩, b)
  | .pairIsubI32 a b => some (⟨.isubI32, a⟩, b)
  | .pairIminI32 a b => some (⟨.iminI32, a⟩, b)
  | .pairImaxI32 a b => some (⟨.imaxI32, a⟩, b)
  | .pairIminN32 a b => some (⟨.iminN32, a⟩, b)
  | .pairImaxN32 a b => some (⟨.imaxN32, a⟩, b)
  | .pairAnd a b => some (⟨.and32, a⟩, b)
  | .pairOr a b => some (⟨.or32, a⟩, b)
  | .pairXor a b => some (⟨.xor32, a⟩, b)
  | .pairAndn a b => some (⟨.andn32, a⟩, b)
  | .pairShl a b => some (⟨.shl32, a⟩, b)
  | .pairShr a b => some (⟨.shr32, a⟩, b)
  | .pairSar a b => some (⟨.sar32, a⟩, b)
  | .pairFaddF32 a b => some (⟨.faddF32, a⟩, b)
  | .pairFmulF32 a b => some (⟨.fmulF32, a⟩, b)
  | .pairFminF32 a b => some (⟨.fminF32, a⟩, b)
  | .pairFmaxF32 a b => some (⟨.fmaxF32, a⟩, b)
  | .pairFaddBf16x2 a b => some (⟨.faddBf16x2, a⟩, b)
  | .pairFmulBf16x2 a b => some (⟨.fmulBf16x2, a⟩, b)
  | .pairFminBf16x2 a b => some (⟨.fminBf16x2, a⟩, b)
  | .pairFmaxBf16x2 a b => some (⟨.fmaxBf16x2, a⟩, b)
  | .pairIaddI64 a b => some (⟨.iaddI64, a⟩, b)
  | .pairIsubI64 a b => some (⟨.isubI64, a⟩, b)
  | .pairMovImm a b => some (⟨.movImm, a⟩, b)
  | .pairIaddI32Imm a b => some (⟨.iaddI32Imm, a⟩, b)
  | .pairAndImm a b => some (⟨.andImm, a⟩, b)
  | .pairOrImm a b => some (⟨.orImm, a⟩, b)
  | .pairXorImm a b => some (⟨.xorImm, a⟩, b)
  | .pairShlImm a b => some (⟨.shlImm, a⟩, b)
  | .pairShrImm a b => some (⟨.shrImm, a⟩, b)
  | .pairSarImm a b => some (⟨.sarImm, a⟩, b)
  | .pairIaddI64Imm a b => some (⟨.iaddI64Imm, a⟩, b)
  | _ => none

/-- The filter opcodes (22 R395). -/
inductive FlOp where
  | stop | ldf | seti | add | addi | sub | and_ | andi | or_ | xor_ | shli | shri | sltu | ceqi | bz | bnz | jmp | ldw | stw | hash | hinc | cms | hll | trig | snap
  deriving DecidableEq, Repr

/-- The 6-bit filter opcode (22 R395). -/
def FlOp.code : FlOp → Nat
  | .stop => 0x00
  | .ldf => 0x01
  | .seti => 0x02
  | .add => 0x03
  | .addi => 0x04
  | .sub => 0x05
  | .and_ => 0x06
  | .andi => 0x07
  | .or_ => 0x08
  | .xor_ => 0x09
  | .shli => 0x0A
  | .shri => 0x0B
  | .sltu => 0x0C
  | .ceqi => 0x0D
  | .bz => 0x0E
  | .bnz => 0x0F
  | .jmp => 0x10
  | .ldw => 0x11
  | .stw => 0x12
  | .hash => 0x13
  | .hinc => 0x14
  | .cms => 0x15
  | .hll => 0x16
  | .trig => 0x17
  | .snap => 0x18

/-- The filter opcode of a code; 0x19 to 0x3F are reserved (22 R395). -/
def FlOp.ofCode (c : Nat) : Option FlOp :=
  match c with
  | 0x00 => some .stop
  | 0x01 => some .ldf
  | 0x02 => some .seti
  | 0x03 => some .add
  | 0x04 => some .addi
  | 0x05 => some .sub
  | 0x06 => some .and_
  | 0x07 => some .andi
  | 0x08 => some .or_
  | 0x09 => some .xor_
  | 0x0A => some .shli
  | 0x0B => some .shri
  | 0x0C => some .sltu
  | 0x0D => some .ceqi
  | 0x0E => some .bz
  | 0x0F => some .bnz
  | 0x10 => some .jmp
  | 0x11 => some .ldw
  | 0x12 => some .stw
  | 0x13 => some .hash
  | 0x14 => some .hinc
  | 0x15 => some .cms
  | 0x16 => some .hll
  | 0x17 => some .trig
  | 0x18 => some .snap
  | _ => none

/-- Which of d, a, b and imm a row of 22 R395 uses. -/
def FlOp.uses : FlOp → Bool × Bool × Bool × Bool
  | .stop => (false, false, false, false)
  | .ldf => (true, false, false, true)
  | .seti => (true, false, false, true)
  | .add => (true, true, true, false)
  | .addi => (true, true, false, true)
  | .sub => (true, true, true, false)
  | .and_ => (true, true, true, false)
  | .andi => (true, true, false, true)
  | .or_ => (true, true, true, false)
  | .xor_ => (true, true, true, false)
  | .shli => (true, true, false, true)
  | .shri => (true, true, false, true)
  | .sltu => (true, true, true, false)
  | .ceqi => (true, true, false, true)
  | .bz => (false, true, false, true)
  | .bnz => (false, true, false, true)
  | .jmp => (false, false, false, true)
  | .ldw => (true, true, false, true)
  | .stw => (true, true, false, true)
  | .hash => (true, true, false, true)
  | .hinc => (true, true, true, true)
  | .cms => (true, true, false, true)
  | .hll => (false, true, false, true)
  | .trig => (false, true, false, true)
  | .snap => (false, false, false, true)

/-- The instruction of a filter word. -/
def FlOp.build (op : FlOp) (f : FlF) : Instr :=
  match op with
  | .stop => .filterEnd f
  | .ldf => .filterLdf f
  | .seti => .filterSeti f
  | .add => .filterAdd f
  | .addi => .filterAddi f
  | .sub => .filterSub f
  | .and_ => .filterAnd f
  | .andi => .filterAndi f
  | .or_ => .filterOr f
  | .xor_ => .filterXor f
  | .shli => .filterShli f
  | .shri => .filterShri f
  | .sltu => .filterSltu f
  | .ceqi => .filterCeqi f
  | .bz => .filterBz f
  | .bnz => .filterBnz f
  | .jmp => .filterJmp f
  | .ldw => .filterLdw f
  | .stw => .filterStw f
  | .hash => .filterHash f
  | .hinc => .filterHinc f
  | .cms => .filterCms f
  | .hll => .filterHll f
  | .trig => .filterTrig f
  | .snap => .filterSnap f

/-- The opcode and fields of a filter instruction. -/
def Instr.flParts : Instr → Option (FlOp × FlF)
  | .filterEnd f => some (.stop, f)
  | .filterLdf f => some (.ldf, f)
  | .filterSeti f => some (.seti, f)
  | .filterAdd f => some (.add, f)
  | .filterAddi f => some (.addi, f)
  | .filterSub f => some (.sub, f)
  | .filterAnd f => some (.and_, f)
  | .filterAndi f => some (.andi, f)
  | .filterOr f => some (.or_, f)
  | .filterXor f => some (.xor_, f)
  | .filterShli f => some (.shli, f)
  | .filterShri f => some (.shri, f)
  | .filterSltu f => some (.sltu, f)
  | .filterCeqi f => some (.ceqi, f)
  | .filterBz f => some (.bz, f)
  | .filterBnz f => some (.bnz, f)
  | .filterJmp f => some (.jmp, f)
  | .filterLdw f => some (.ldw, f)
  | .filterStw f => some (.stw, f)
  | .filterHash f => some (.hash, f)
  | .filterHinc f => some (.hinc, f)
  | .filterCms f => some (.cms, f)
  | .filterHll f => some (.hll, f)
  | .filterTrig f => some (.trig, f)
  | .filterSnap f => some (.snap, f)
  | _ => none

/-- A register field against its use (02 R32, R34; 05 R96). -/
def Use.ok (us : Use) (f : FOps) (r : BitVec 6) : Bool :=
  match us with
  | .none => r == 0
  | .typed => if f.u then r.toNat < 32 else r.toNat % f.ty.regs == 0
  | .one | .reg => if f.u then r.toNat < 32 else true
  | .uni => r.toNat < 32
  | .mask => r.toNat < 8
  | .maskDst => 1 ≤ r.toNat && r.toNat < 8
  | .raw => true

/-- Whether a field names a vector register, so that a last-read bit or a neighbour select may stand (05 R96). -/
def Use.isVec (us : Use) (f : FOps) : Bool :=
  !f.u && (us == .typed || us == .one || us == .reg)

/-- The address fields of a memory operand (05 R101 to R103): x0, fields a and b, and their last-read bits. -/
def wfMem (e : Entry) (f : FOps) : Bool :=
  let lf := e.lform && f.isL
  let uniBase := f.form == 1 || f.form == 2 || f.u
  (if f.form == 3 then e.mem == .space else true)
  && (if f.form == 1 || f.form == 2 then !f.u else true)
  && (if f.form == 2 || lf then !f.x0 else true)
  && (if f.form == 3 then f.a == 0
      else if uniBase then f.a.toNat < 32
      else if e.mem == .virt then f.a.toNat % 2 == 0 else true)
  && (if f.form == 2 || f.x0 then true else f.b == 0)
  && (if f.lrA then f.form == 0 && !f.u else true)
  && (if f.lrB then f.form == 2 else true)

/-- The checks of 05 R96 to R103 that do not depend on the single entry. -/
def wfFields (e : Entry) (f : FOps) : Bool :=
  e.tys.contains f.ty
  && (if e.lform then f.mod.toNat % 4 == 0 else decide (f.mod.toNat < e.mods))
  && (if e.la then true else f.la == 0)
  && (if e.hasScope then f.scope.isSome else (e.rm || f.rm == .rn) && (e.sat || !f.sat))
  && (match e.u with | .any => true | .zero => !f.u | .one => f.u)
  && !(f.k == 0 && f.kn)
  && (e.mask || f.noMask)
  && !(f.ty == .b128 && f.u)
  && (match e.imm with | .no => e.mem != .none || !f.x0 | .opt => true | .req => f.x0)
  && (e.x21 || e.mem != .none || f.form == 0)
  && (if f.x0 && e.imm != .no then f.nb == .self && !f.lrB && !f.lrC && (e.c == .none) else true)
  && (if f.x0 && e.mem != .none then f.nb == .self && !f.lrB && (e.store || !f.lrC) && e.c == .none else true)
  && (f.na == .self || (e.nbr && e.a.isVec f)) && (f.nb == .self || (e.nbr && e.b.isVec f))
  && (f.edge == .zero || f.na != .self || f.nb != .self)
  && e.d.ok f f.d
  && (if e.mem == .none then e.a.ok f f.a && (f.x0 || e.b.ok f f.b) else wfMem e f)
  && (f.x0 || e.c.ok f f.c)
  && (if e.mem == .none then (!f.lrA || e.a.isVec f) && (!f.lrB || (e.b.isVec f && !f.x0)) else true)
  && (!f.lrC || (if e.store then e.d.isVec f else e.c.isVec f))

/-- The types an operation of `GSCAN` and `GRED` accepts (06 R151). -/
def scanTyOk (mod : Nat) (t : Ty) : Bool :=
  if mod < 3 then t.isInt || t == .f32 else t == .b32 || t == .b64

/-- The types an atomic operation accepts (07 R173). -/
def atomTyOk (mod : Nat) (t : Ty) : Bool :=
  match mod with
  | 0 => t == .i32 || t == .i64 || t == .n32 || t == .n64 || t == .f32 || t == .bf16x2
  | 1 | 2 | 3 | 6 => t == .b32 || t == .b64
  | 4 | 5 => t == .i32 || t == .i64 || t == .n32 || t == .n64
  | _ => t == .n32 || t == .n64

/-- The vector registers a run of `MTRN` takes (08 R199). -/
def mtrnRegs (t : Ty) : Nat := match t with | .n8 => 4 | .n16 => 8 | _ => 16

/-- Operator `i` of a `PRESS` program (08 R219). -/
def pressOp (w1 w2 : Word) (i : Nat) : Nat :=
  if i < 12 then bits w1.toNat (5 * i + 4) (5 * i) else bits w2.toNat (5 * (i - 12) + 4) (5 * (i - 12))

/-- Values an operator needs on the Press stack, and the depth it leaves when `n` stood there (08 R220). -/
def pressEffect (o n : Nat) : Option Nat :=
  let step (need pushed : Nat) : Option Nat :=
    if n < need then none else if n - need + pushed > 4 then none else some (n - need + pushed)
  if o < 8 then step 0 1
  else match o with
    | 0x08 | 0x09 | 0x0A | 0x0C | 0x0D => step 2 1
    | 0x0B | 0x14 | 0x15 => step 3 1
    | 0x0E | 0x0F | 0x13 => step 1 1
    | 0x10 => step 1 2
    | 0x11 => step 2 2
    | 0x12 => step 1 0
    | 0x16 | 0x17 => step 0 1
    | _ => none

/-- The stack depth a list of Press operators leaves, or none where 08 R221 rejects it. -/
def pressDepth : List Nat → Nat → Option Nat
  | [], n => some n
  | o :: os, n => (pressEffect o n).bind (pressDepth os)

/-- The operators of a `PRESS` word in order. -/
def pressProgram (w1 w2 w3 : Word) : List Nat :=
  (List.range (bits w3.toNat 20 16)).map (pressOp w1 w2)

/-- The words 1 to 3 of `PRESS` (08 R219, R221). -/
def wfPress (w1 w2 w3 : Word) : Bool :=
  let n := bits w3.toNat 20 16
  let prog := pressProgram w1 w2 w3
  bits w1.toNat 63 60 == 0 && bits w2.toNat 63 60 == 0 && bits w3.toNat 63 21 == 0 && bits w3.toNat 15 15 == 0
  && 1 ≤ n && decide (n ≤ 24)
  && ((List.range 24).all fun i => decide (i < n) || pressOp w1 w2 i == 0)
  && pressDepth prog 0 == some 1
  && ((List.range 4).all fun s => prog.contains s || bits w3.toNat (3 * s + 2) (3 * s) == 0)

/-- The operation codes of `LNEST` that read Y (08 R217). -/
def lnestReadsY (code : Nat) : Bool := code == 1 || code == 2 || code == 3 || code == 4 || code == 6 || code == 7 || code == 19

/-- The words 1 to 3 of `LNEST` (08 R216, R217, R411). -/
def wfLnest (f : FOps) (w1 w2 w3 : Word) : Bool :=
  let code := bits w2.toNat 4 0
  let red := bits w2.toNat 21 17
  bits w1.toNat 63 60 == 0 && bits w2.toNat 7 5 == 0 && bits w2.toNat 63 22 == 0 && bits w3.toNat 63 32 == 0
  && ((decide (code ≤ 9) && red == 0) || (16 ≤ code && decide (code ≤ 20) && red != 0))
  && (lnestReadsY code || (f.b == 0 && bits w2.toNat 13 11 == 0))

/-- Selectors of the special registers with one value per thread (02 R35). -/
def selPerThread (sel : Nat) : Bool := sel == 0 || sel == 10

/-- What the single entries add to the common checks (06 R126 to 09 R245). -/
def Op.extra (op : Op) (f : FOps) (ws : List Word) : Bool :=
  let w := (ws.getD 0 0).toNat
  let imm := f.imm
  match op with
  | .call | .loopu => bits w 63 32 == 0
  | .movi => f.x == 0 && (f.ty == .b64 || bits w 63 32 == 0)
  | .btab => ws.length == (f.d.toNat + 2) / 2
  | .sink => f.mod != 0 && f.form != 3
  | .yield_ | .bpt | .trap => decide (0 ≤ imm)
  | .mov => !f.x0 || (f.a == 0 && f.na == .self && !f.lrA)
  | .cvt =>
    let src := f.c.toNat % 16
    f.c.toNat < 16
    && (match Ty.ofCode src with
        | some t => 1 ≤ src && decide (src ≤ 12) && t != f.ty && (f.u || f.a.toNat % t.regs == 0)
            && (f.rm == .rn || !(t.isInt && f.ty.isInt))
            && (f.mod == 0 || (t.packed != f.ty.packed))
        | none => false)
    && (!f.sat || f.ty.isInt)
  | .cvtb => f.c.toNat < 8 && (f.mod == 0 || f.rm == .rn)
  | .gscan => !f.x.getLsbD 2 && scanTyOk f.mod.toNat f.ty && (!f.sat || (f.mod == 0 && f.ty.isInt))
  | .gred => !f.x.getLsbD 2 && scanTyOk f.mod.toNat f.ty && (!f.sat || (f.mod == 0 && f.ty.isInt))
      && (if f.x.getLsbD 1 then f.d.toNat < 32 else f.d.toNat % f.ty.regs == 0)
  | .bcast =>
    let n := f.ty.regs
    match f.mod.toNat with
    | 0 => !f.x0 && f.d.toNat % n == 0 && f.a.toNat < 32 && f.b == 0 && !f.lrA
    | 1 => f.d.toNat % n == 0 && f.a.toNat % n == 0 && (f.x0 || f.b.toNat < 32)
    | _ => !f.x0 && f.d.toNat < 32 && f.a.toNat % n == 0 && f.b == 0
  | .match_ => f.d.toNat % 2 == 0
  | .kop => f.mod != 4 || f.b == 0
  | .kmov => match f.mod.toNat with
    | 0 => f.u && f.noMask && f.d.toNat < 32 && f.a.toNat < 8
    | 1 => f.u && f.noMask && 1 ≤ f.d.toNat && f.d.toNat < 8
    | 2 => !f.u && f.a.toNat < 8 && !f.lrA
    | _ => !f.u && 1 ≤ f.d.toNat && f.d.toNat < 8
  | .atom | .aredn | .atoms => !f.x0 && atomTyOk f.mod.toNat f.ty
  | .acas => !f.x0 && (if f.u || f.ty == .b32 then f.c.toNat % 2 == 0 else f.c.toNat % 4 == 0)
  | .barw | .bara | .drain => f.d.toNat < 16 && (!f.x0 || (1 ≤ imm && imm ≤ 16))
  | .txa => decide (0 ≤ imm && imm ≤ 255)
  | .waite => f.d.toNat < 4 && decide (0 ≤ imm)
  | .spawn => f.x == 0 && f.c.toNat ≤ 16 && decide (f.b.toNat + f.c.toNat ≤ 64) && !f.lrC && !f.lrA
      && (f.mod == 0 || (2 ≤ f.c.toNat && f.b.toNat % 2 == 0))
  | .resolve => !f.x0 && (f.u || f.c.toNat % 2 == 0)
  | .park => f.mod != 0 || (f.a == 0 && f.x == 0)
  | .steal => !f.x0 || imm == -1
  | .role => f.a.toNat % 2 == 0
  | .mma | .mmaz => f.d.toNat % 16 == 0 && f.a.toNat % 4 == 0 && f.b.toNat % 4 == 0 && f.c.toNat % 2 == 0
      && !f.x.getLsbD 0 && !f.x.getLsbD 2 && (f.ty == .f64 || !f.x.getLsbD 1)
  | .mlds | .msts => f.d.toNat % 4 == 0 && decide (f.d.toNat + 4 * (f.mod.toNat + 1) ≤ 64)
  | .mtrn => f.d.toNat % 4 == 0 && f.a.toNat % 4 == 0 && decide (f.d.toNat + mtrnRegs f.ty ≤ 64)
      && decide (f.a.toNat + mtrnRegs f.ty ≤ 64)
  | .tmma => decide (f.a.toNat ≤ 27)
  | .tstore => decide (f.a.toNat ≤ 28) && f.b.toNat % 8 == 0
  | .press => decide (f.a.toNat ≤ 27) && decide (f.b.toNat ≤ 30)
      && wfPress (ws.getD 0 0) (ws.getD 1 0) (ws.getD 2 0)
  | .lnest => decide (f.c.toNat ≤ 27) && wfLnest f (ws.getD 0 0) (ws.getD 1 0) (ws.getD 2 0)
  | .rds => f.a.toNat ≤ 12 && (f.u == !selPerThread f.a.toNat)
  | .wrs => f.d == 8 || f.d == 9
  | .event => decide (0 ≤ imm && imm ≤ 255)
  | .killt => !f.x.getLsbD 2 && !f.x0 && (f.mod != 0 || f.a == 0)
  | .tlbi => f.mod != 0 || f.a == 0
  | .ld | .lds | .ldp | .ldc | .lda | .ldx | .st | .sts | .stp | .strl => f.isL || w == 0
  | _ => true

/-- A legal F-shaped instruction (05 R96). -/
def Op.wf (op : Op) (f : FOps) (ws : List Word) : Bool := wfFields op.entry f && op.extra f ws

/-- Whether a pair operation takes a 6-bit immediate (05 R113). -/
def PairOp.isImm (o : PairOp) : Bool := decide (0x20 ≤ o.code)
/-- Whether a pair operation is 64 bits wide (05 R113). -/
def PairOp.is64 : PairOp → Bool
  | .iaddI64 | .isubI64 | .iaddI64Imm => true
  | _ => false
/-- Whether a pair operation reads d (05 R113). -/
def PairOp.readsD : PairOp → Bool
  | .nop | .mov | .movImm => false
  | _ => true

/-- A legal pair slot (05 R112 to R114). -/
def PairSlot.wf (p : PairSlot) : Bool :=
  let f := p.f
  let zero6 : BitVec 6 := 0
  if p.op == .nop then
    f.d == zero6 && f.s == zero6 && f.ns == .self && !f.lrd && !f.lrs && f.k == 0 && !f.kn && !f.u
  else
    !(f.k == 0 && f.kn)
    && (if f.u then f.d.toNat < 32 && (p.op.isImm || f.s.toNat < 32) else true)
    && (f.ns == .self || (!p.op.isImm && !f.u))
    && (match p.op with | .shlImm | .shrImm | .sarImm => decide (f.s.toNat < 32) | _ => true)
    && (if p.op.is64 && !f.u then f.d.toNat % 2 == 0 && (p.op.isImm || f.s.toNat % 2 == 0) else true)
    && (!f.lrd || (p.op.readsD && !f.u))
    && (!f.lrs || (!p.op.isImm && !f.u))

/-- A filter word whose unused fields are zero (22 R395). -/
def FlOp.wf (o : FlOp) (f : FlF) : Bool :=
  let (ud, ua, ub, ui) := o.uses
  (ud || f.d == 0) && (ua || f.a == 0) && (ub || f.b == 0) && (ui || f.imm == 0)

end Sys2Proof
end

