-- ==== Sys2Proof/WellFormed.lean ====
section
/-! DEFINITION. Which instructions are legal: the checks of 05 R96 to R106, R112 to R114 and 22 R395 as one predicate. A
word that fails it raises illegal-instruction. -/

namespace Sys2Proof

/-- An instruction that some word encodes: an F-shaped instruction that passes every decode check, a pair word of two
legal slots, or a filter word with its unused fields zero. A device event is no word, and is not well-formed here. -/
def Instr.wf (i : Instr) : Bool :=
  match i.parts with
  | some (op, f, ws) => op.wf f ws
  | none => match i.pairParts with
    | some (a, b) => a.wf && b.wf
    | none => match i.flParts with
      | some (o, f) => o.wf f
      | none => false

end Sys2Proof
end

