-- ==== Sys2Proof/Machine/Float.lean ====
section
/-! DEFINITION. Numbers: the floating-point formats, exact values, the one rounding, the arithmetic on them, the SB blocks
and the sums of matrix products (04 R62 to R90). -/

namespace Sys2Proof.Machine

/-- A binary format: precision with the hidden bit, exponent bits (04 R62). The bias is `2^(e-1) - 1`. -/
structure Fmt where
  p : Nat
  eb : Nat
  deriving DecidableEq, Repr

/-- binary32. -/
def f32 : Fmt := ⟨24, 8⟩
/-- binary64. -/
def f64 : Fmt := ⟨53, 11⟩
/-- binary16. -/
def f16 : Fmt := ⟨11, 5⟩
/-- BF16. -/
def bf16 : Fmt := ⟨8, 8⟩

/-- The exponent bias. -/
def Fmt.bias (f : Fmt) : Nat := 2 ^ (f.eb - 1) - 1
/-- The exponent of the last place of a subnormal number. -/
def Fmt.qmin (f : Fmt) : Int := 2 - (f.bias : Int) - f.p
/-- The width in bits. -/
def Fmt.width (f : Fmt) : Nat := f.p + f.eb
/-- The bits of +infinity. -/
def Fmt.inf (f : Fmt) : Nat := (2 ^ f.eb - 1) * 2 ^ (f.p - 1)
/-- The default NaN (04 R62). -/
def Fmt.nan (f : Fmt) : Nat := f.inf + 2 ^ (f.p - 2)
/-- The sign bit. -/
def Fmt.sign (f : Fmt) (neg : Bool) : Nat := if neg then 2 ^ (f.width - 1) else 0

/-- The value of a float: a NaN, signalling or quiet; an infinity; or `m × 2^e` with its sign. -/
inductive FV where
  | nan (sig : Bool)
  | inf (neg : Bool)
  | fin (neg : Bool) (m : Nat) (e : Int)
  deriving DecidableEq, Repr

/-- Bit of `%fpflags` for an invalid operation (02 R37). -/
def NV : Nat := 1
/-- Division by zero. -/
def DZ : Nat := 2
/-- Overflow. -/
def OF : Nat := 4
/-- Underflow. -/
def UF : Nat := 8
/-- Inexact. -/
def NX : Nat := 16
/-- Integer division by zero. -/
def IDZ : Nat := 32

/-- The value of a float's bits. -/
def unpackFloat (f : Fmt) (x : Nat) : FV :=
  let neg := x.testBit (f.width - 1)
  let ex := bits x (f.width - 2) (f.p - 1)
  let fr := x % 2 ^ (f.p - 1)
  if ex = 2 ^ f.eb - 1 then
    if fr = 0 then .inf neg else .nan (!fr.testBit (f.p - 2))
  else if ex = 0 then .fin neg fr f.qmin
  else .fin neg (fr + 2 ^ (f.p - 1)) (f.qmin + ex - 1)

/-- Bit length. -/
def bitLen (m : Nat) : Nat := if m = 0 then 0 else m.log2 + 1

/-- Round `m / 2^sh` to an integer: the integer, and whether anything was lost (04 R64). -/
def roundShift (rm : Rm) (neg : Bool) (m sh : Nat) : Nat × Bool :=
  let n := m / 2 ^ sh
  let r := m % 2 ^ sh
  let half := 2 ^ sh / 2
  let up := match rm with
    | .rn => decide (half < r) || (decide (r = half) && sh != 0 && n % 2 = 1)
    | .rz => false
    | .ru => !neg && r != 0
    | .rd => neg && r != 0
  (if up then n + 1 else n, r != 0)

/-- `m × 2^e` rounded to a multiple of `2^q`, as a count of them. -/
def roundAt (rm : Rm) (neg : Bool) (m : Nat) (e q : Int) : Nat × Bool :=
  if q ≤ e then (m * 2 ^ (e - q).toNat, false) else roundShift rm neg m (q - e).toNat

/-- Round an exact value once to a format: its bits and the flags (04 R64, R65, R67). `sticky` says that the value lies
above `m × 2^e` by less than one unit of `2^e`. Tininess is detected after rounding. -/
def roundFloat (f : Fmt) (rm : Rm) (neg : Bool) (m : Nat) (e : Int) (sticky : Bool := false) : Nat × Nat :=
  let (m, e) := if sticky then (m * 2 ^ (f.p + 3) + 1, e - (f.p + 3 : Nat)) else (m, e)
  if m = 0 then (f.sign neg, 0)
  else
    let qu := e + bitLen m - f.p
    let q := max qu f.qmin
    let (n, inex) := roundAt rm neg m e q
    let (n, q) := if n = 2 ^ f.p then (2 ^ (f.p - 1), q + 1) else (n, q)
    let big := f.qmin + 2 ^ f.eb - 3
    if big < q then
      let toInf := match rm with
        | .rn => true
        | .rz => false
        | .ru => !neg
        | .rd => neg
      (f.sign neg + (if toInf then f.inf else f.inf - 1), OF ||| NX)
    else
      let nu := (roundAt rm neg m e qu).1
      let tiny := decide (qu + bitLen nu ≤ f.qmin + f.p - 1)
      let b := if n < 2 ^ (f.p - 1) then n else (q - f.qmin + 1).toNat * 2 ^ (f.p - 1) + (n - 2 ^ (f.p - 1))
      (f.sign neg + b, (if inex then NX else 0) ||| (if tiny && inex then UF else 0))

/-- A signed exact number `z × 2^e` rounded to a format; an exact zero takes the given sign. -/
def roundInt (f : Fmt) (rm : Rm) (zeroNeg : Bool) (z e : Int) : Nat × Nat :=
  if z = 0 then (f.sign zeroNeg, 0) else roundFloat f rm (decide (z < 0)) z.natAbs e

/-- Whether an exact sum of opposite signs that is zero is negative (04 R65). -/
def sumNeg (rm : Rm) : Bool := rm == .rd

/-- The signed significand of a finite value. -/
def signedM (neg : Bool) (m : Nat) : Int := if neg then -(m : Int) else m

/-- The exact sum of `a × 2^e` and `b × 2^g` as a significand and an exponent. -/
def addExact (a : Int) (e : Int) (b : Int) (g : Int) : Int × Int :=
  let q := min e g
  (a * 2 ^ (e - q).toNat + b * 2 ^ (g - q).toNat, q)

/-- NV where any operand is a signalling NaN (04 R66). -/
def sigFlag (l : List FV) : Nat := if l.any (fun v => v == .nan true) then NV else 0

/-- Whether a value is a NaN. -/
def FV.isNan : FV → Bool
  | .nan _ => true
  | _ => false

/-- Whether a value is zero. -/
def FV.isZero : FV → Bool
  | .fin _ 0 _ => true
  | _ => false

/-- Whether the sign bit is set; a NaN's sign is nowhere used. -/
def FV.neg : FV → Bool
  | .nan _ => false
  | .inf n => n
  | .fin n _ _ => n

/-- The value with its sign reversed. -/
def FV.negate : FV → FV
  | .nan s => .nan s
  | .inf n => .inf (!n)
  | .fin n m e => .fin (!n) m e

/-- The sum of two values, rounded once (04 R65, R66). -/
def addV (f : Fmt) (rm : Rm) (a b : FV) : Nat × Nat :=
  match a, b with
  | .nan _, _ | _, .nan _ => (f.nan, sigFlag [a, b])
  | .inf x, .inf y => if x = y then (f.sign x + f.inf, 0) else (f.nan, NV)
  | .inf x, _ => (f.sign x + f.inf, 0)
  | _, .inf y => (f.sign y + f.inf, 0)
  | .fin x m e, .fin y n g =>
    let (z, q) := addExact (signedM x m) e (signedM y n) g
    if z = 0 then (f.sign (if m = 0 && n = 0 && x == y then x else sumNeg rm), 0)
    else roundInt f rm false z q

/-- The product of two values, rounded once. -/
def mulV (f : Fmt) (rm : Rm) (a b : FV) : Nat × Nat :=
  match a, b with
  | .nan _, _ | _, .nan _ => (f.nan, sigFlag [a, b])
  | .inf x, .inf y => (f.sign (x != y) + f.inf, 0)
  | .inf x, .fin y n _ => if n = 0 then (f.nan, NV) else (f.sign (x != y) + f.inf, 0)
  | .fin x m _, .inf y => if m = 0 then (f.nan, NV) else (f.sign (x != y) + f.inf, 0)
  | .fin x m e, .fin y n g => roundFloat f rm (x != y) (m * n) (e + g)

/-- `a × b + c`, rounded once after the exact product and sum (04 R65, R66). -/
def fmaV (f : Fmt) (rm : Rm) (a b c : FV) : Nat × Nat :=
  let bad := match a, b with
    | .inf _, .fin _ 0 _ | .fin _ 0 _, .inf _ => true
    | _, _ => false
  if bad then (f.nan, NV)
  else match a, b with
    | .nan _, _ | _, .nan _ => (f.nan, sigFlag [a, b, c])
    | .inf x, .inf y | .inf x, .fin y _ _ | .fin x _ _, .inf y => addV f rm (.inf (x != y)) c
    | .fin x m e, .fin y n g => addV f rm (.fin (x != y) (m * n) (e + g)) c

/-- Compare two numbers; `none` where either is a NaN. -/
def cmpV (a b : FV) : Option Ordering :=
  match a, b with
  | .nan _, _ | _, .nan _ => none
  | .inf x, .inf y => some (if x = y then .eq else if x then .lt else .gt)
  | .inf x, _ => some (if x then .lt else .gt)
  | _, .inf y => some (if y then .gt else .lt)
  | .fin x m e, .fin y n g =>
    let z := (addExact (signedM x m) e (-(signedM y n)) g).1
    some (if z < 0 then .lt else if z = 0 then .eq else .gt)

/-- Replace an infinite result by the largest finite magnitude of its sign (04 R68). -/
def satF (f : Fmt) (sat : Bool) (r : Nat × Nat) : Nat × Nat :=
  if sat then
    if r.1 = f.inf then (f.inf - 1, r.2)
    else if r.1 = f.sign true + f.inf then (f.sign true + f.inf - 1, r.2)
    else r
  else r

/-- The integer square root of a number of at most `2 n` bits, by bits from the top. -/
def isqrtFrom : Nat → Nat → Nat → Nat
  | 0, _, r => r
  | n + 1, x, r =>
    let c := r + 2 ^ n
    if c * c ≤ x then isqrtFrom n x c else isqrtFrom n x r

/-- The integer square root. -/
def isqrt (x : Nat) : Nat := isqrtFrom (bitLen x / 2 + 1) x 0

/-- The quotient `m × 2^e / (n × 2^g)` to enough bits, and whether bits remain. -/
def divExact (f : Fmt) (m : Nat) (e : Int) (n : Nat) (g : Int) : Nat × Int × Bool :=
  let k := f.p + 3 + bitLen n
  (m * 2 ^ k / n, e - g - k, m * 2 ^ k % n != 0)

/-- The square root of `m × 2^e` to enough bits, and whether bits remain. -/
def sqrtExact (f : Fmt) (m : Nat) (e : Int) : Nat × Int × Bool :=
  let k := 2 * f.p + 8
  let (m, e) := if e % 2 = 0 then (m, e) else (2 * m, e - 1)
  let x := m * 2 ^ (2 * k)
  let r := isqrt x
  (r, e / 2 - k, r * r != x)

/-- The reciprocal, rounded once (06 R141, R142). -/
def rcpV (f : Fmt) (rm : Rm) (a : FV) : Nat × Nat :=
  match a with
  | .nan s => (f.nan, if s then NV else 0)
  | .inf n => (f.sign n, 0)
  | .fin n 0 _ => (f.sign n + f.inf, DZ)
  | .fin n m e =>
    let (q, g, st) := divExact f 1 0 m e
    roundFloat f rm n q g st

/-- The square root, rounded once. -/
def sqrtV (f : Fmt) (rm : Rm) (a : FV) : Nat × Nat :=
  match a with
  | .nan s => (f.nan, if s then NV else 0)
  | .inf n => if n then (f.nan, NV) else (f.inf, 0)
  | .fin n 0 _ => (f.sign n, 0)
  | .fin true _ _ => (f.nan, NV)
  | .fin false m e =>
    let (q, g, st) := sqrtExact f m e
    roundFloat f rm false q g st

/-- The reciprocal square root, rounded once. -/
def rsqV (f : Fmt) (rm : Rm) (a : FV) : Nat × Nat :=
  match a with
  | .nan s => (f.nan, if s then NV else 0)
  | .inf n => if n then (f.nan, NV) else (0, 0)
  | .fin n 0 _ => (f.sign n + f.inf, DZ)
  | .fin true _ _ => (f.nan, NV)
  | .fin false m e =>
    -- 1 / sqrt(m 2^e) = sqrt(2^(2k) / m) with the exponent halved; the quotient is taken to many bits and its
    -- remainder kept as a low set bit, so that the root's own remainder is never lost.
    let (m, e) := if e % 2 = 0 then (m, e) else (2 * m, e - 1)
    let k := 2 * f.p + 10 + bitLen m
    let x := 2 ^ (4 * k) / m
    let exact := 2 ^ (4 * k) % m = 0
    let r := isqrt x
    roundFloat f rm false r (-(e / 2) - 2 * k) (!(exact && r * r = x))

/-- Convert a value to a format (04 R70). -/
def convV (f : Fmt) (rm : Rm) (a : FV) : Nat × Nat :=
  match a with
  | .nan s => (f.nan, if s then NV else 0)
  | .inf n => (f.sign n + f.inf, 0)
  | .fin n m e => roundFloat f rm n m e

/-- An integer as a float (04 R70). -/
def intToFloat (f : Fmt) (rm : Rm) (z : Int) : Nat × Nat := roundInt f rm false z 0

/-- A float rounded to an integer by rm: the integer and whether it differs. -/
def toInt (rm : Rm) (neg : Bool) (m : Nat) (e : Int) : Int × Bool :=
  let (n, inex) := roundAt rm neg m e 0
  (signedM neg n, inex)

/-- Clamp to the range of an integer type. -/
def clampInt (signed : Bool) (w : Nat) (z : Int) : Int :=
  if signed then max (-(2 ^ (w - 1) : Int)) (min z (2 ^ (w - 1) - 1)) else max 0 (min z (2 ^ w - 1))

/-- The minimum or maximum of two floats as `FMIN` and `FMAX` give it (06 R137). A NaN operand yields the other; two NaNs
the default NaN; −0 counts as less than +0. -/
def minmaxV (f : Fmt) (isMax : Bool) (x y : Nat) : Nat × Nat :=
  let a := unpackFloat f x
  let b := unpackFloat f y
  let fl := sigFlag [a, b]
  match a.isNan, b.isNan with
  | true, true => (f.nan, fl)
  | true, false => (y, fl)
  | false, true => (x, fl)
  | false, false =>
    let less := match cmpV a b with
      | some .lt => true
      | some .eq => a.neg && !b.neg
      | _ => false
    (if less != isMax then x else y, fl)

/-! ### SB blocks -/

/-- The magnitude bits of SB2, SB4 and SB7 by efmt code (04 R73, R79). -/
def sbBits (efmt : Nat) : Nat := if efmt = 1 then 2 else if efmt = 2 then 4 else 7

/-- Bytes of a packed block (04 R73). -/
def sbPacked (efmt : Nat) : Nat := 2 * (sbBits efmt + 1) + 2
/-- Bytes of a split element plane per block (04 R73). -/
def sbPlane (efmt : Nat) : Nat := 2 * (sbBits efmt + 1)

/-- The value of an SB element from its field, its block's exponent byte and its pair's micro-exponent (04 R73, R74). -/
def sbValue (m field ex mu : Nat) : FV :=
  if ex = 255 then .nan false
  else .fin (field.testBit m) (field % 2 ^ m) ((ex : Int) - 127 - mu - (m - 1 : Nat))

/-- Element `i` of a packed block (04 R75). -/
def sbElem (efmt blk i : Nat) : FV :=
  let m := sbBits efmt
  sbValue m (bits blk (16 + i * (m + 1) + m) (16 + i * (m + 1))) (blk % 256) (if blk.testBit (8 + i / 2) then 1 else 0)

/-- The largest magnitude of a list of finite values, as a significand and exponent; zero for none. -/
def maxMag : List FV → Nat × Int
  | [] => (0, 0)
  | v :: vs =>
    let (m, e) := maxMag vs
    match v with
    | .fin _ n g => if (addExact n g (-(m : Int)) e).1 > 0 then (n, g) else (m, e)
    | _ => (m, e)

/-- A magnitude over `2^k`, rounded to an integer. -/
def magOver (rm : Rm) (m : Nat) (e k : Int) : Nat × Bool := roundAt rm false m (e - k) 0

/-- The exponent of a quantised block (04 R77). -/
def sbExp (xs : List FV) : Nat :=
  let (mm, me) := maxMag xs
  if mm = 0 then 0 else (max (me + mm.log2 + 127) 0).toNat

/-- The micro-exponent of a pair (04 R77). -/
def sbMu (m : Nat) (rm : Rm) (ex : Nat) (a b : FV) : Nat :=
  let (pm, pe) := maxMag [a, b]
  if pm = 0 then 0
  else if (magOver rm pm (pe + (m - 1 : Nat)) ((ex : Int) - 128)).1 ≤ 2 ^ m - 1 then 1 else 0

/-- One element's field and flags (04 R77): `.ru` and `.rd` round the magnitude away from and toward zero. -/
def sbField (m : Nat) (rm : Rm) (ex mu : Nat) (x : FV) : Nat × Nat :=
  match x with
  | .fin n mm e =>
    let (q, inex) := magOver rm mm (e + (m - 1 : Nat)) ((ex : Int) - 127 - mu)
    let c := min q (2 ^ m - 1)
    (c + (if n then 2 ^ m else 0), (if inex || c != q then NX else 0) ||| (if c != q then OF else 0))
  | _ => (0, 0)

/-- Quantise sixteen values to a packed SB block (04 R77): the block's bits and the flags. -/
def quantise (efmt : Nat) (rm : Rm) (xs : List FV) : Nat × Nat :=
  let m := sbBits efmt
  if xs.any (fun v => v.isNan || (match v with | .inf _ => true | _ => false)) then (255, NV)
  else
    let ex := sbExp xs
    let at_ (i : Nat) : FV := xs.getD i (.fin false 0 0)
    let mu (j : Nat) : Nat := sbMu m rm ex (at_ (2 * j)) (at_ (2 * j + 1))
    let el (i : Nat) : Nat × Nat := sbField m rm ex (mu (i / 2)) (at_ i)
    let body := ((List.range 16).map fun i => (el i).1 * 2 ^ (16 + i * (m + 1))).sum
    let mus := ((List.range 8).map fun j => mu j * 2 ^ (8 + j)).sum
    (ex + mus + body, (List.range 16).foldl (fun a i => a ||| (el i).2) 0)

/-! ### Sums of products -/

/-- The exact product of two factors (04 R86): NaN where either block is NaN, with NV for a signalling NaN or 0 × ∞. -/
def prodV (a b : FV) : FV × Nat :=
  match a, b with
  | .nan _, _ | _, .nan _ => (.nan false, sigFlag [a, b])
  | .inf x, .inf y => (.inf (x != y), 0)
  | .inf x, .fin y n _ => if n = 0 then (.nan false, NV) else (.inf (x != y), 0)
  | .fin x m _, .inf y => if m = 0 then (.nan false, NV) else (.inf (x != y), 0)
  | .fin x m e, .fin y n g => (.fin (x != y) (m * n) (e + g), 0)

/-- One term of a block sum truncated to the window's lowest weight `2^q`: the signed count and whether a bit was lost. -/
def windowTerm (q : Int) (v : FV) : Int × Bool :=
  match v with
  | .fin n m e => if q ≤ e then (signedM n (m * 2 ^ (e - q).toNat), false)
    else (signedM n (m / 2 ^ (q - e).toNat), m % 2 ^ (q - e).toNat != 0)
  | _ => (0, false)

/-- The block result of up to sixteen products with a window of `w` bits (04 R87): FP32 bits and flags. Missing products
of a partial block are zeros (04 R85), so the block then is not all −0. A NaN product decides before infinities of both signs, with
no NV (log entry 17). -/
def blockSum (w : Nat) (ps : List FV) (full : Bool) : Nat × Nat :=
  let pinf := ps.any (· == .inf false)
  let ninf := ps.any (· == .inf true)
  if ps.any FV.isNan then (f32.nan, 0)
  else if pinf && ninf then (f32.nan, NV)
  else if pinf then (f32.inf, 0)
  else if ninf then (f32.sign true + f32.inf, 0)
  else
    let zsign := f32.sign (full && ps.all fun p => p.isZero && p.neg)
    let tops := ps.filterMap fun p => match p with
      | .fin _ m e => if m = 0 then none else some (e + m.log2)
      | _ => none
    match tops with
    | [] => (zsign, 0)
    | t :: ts =>
      let q := ts.foldl max t - w + 1
      let terms := ps.map (windowTerm q)
      let sum := (terms.map (·.1)).sum
      let sticky := terms.any (·.2)
      let nx := if sticky then NX else 0
      if sum = 0 then (zsign, nx)
      else
        let (b, fl) := roundFloat f32 .rn (decide (sum < 0)) sum.natAbs q sticky
        (b, fl ||| nx)

/-- Update an FP32 accumulator with one block of products (04 R88). -/
def accBlock (w : Nat) (full : Bool) (acc : Nat × Nat) (ps : List (FV × Nat)) : Nat × Nat :=
  let (b, f1) := blockSum w (ps.map (·.1)) full
  let (c, f2) := addV f32 .rn (unpackFloat f32 acc.1) (unpackFloat f32 b)
  (c, acc.2 ||| f1 ||| f2 ||| ps.foldl (fun a p => a ||| p.2) 0)

/-- Cut a list into runs of `n`. Fuel bounds their number. -/
def chunks {α : Type} (fuel n : Nat) (l : List α) : List (List α) :=
  match fuel with
  | 0 => []
  | fuel + 1 => if l.isEmpty then [] else l.take n :: chunks fuel n (l.drop n)

/-- Accumulate products of increasing k in blocks of 16 (04 R87, R88). -/
def accumulate (w : Nat) (acc : Nat × Nat) (ps : List (FV × Nat)) : Nat × Nat :=
  (chunks ps.length 16 ps).foldl (fun a b => accBlock w (b.length = 16) a b) acc

/-- Add up to four exact products to an FP64 accumulator and round once (04 R89). A NaN decides before infinities of both
signs, with no NV (log entry 17). -/
def acc64 (acc : Nat × Nat) (ps : List (FV × Nat)) : Nat × Nat :=
  let vs := unpackFloat f64 acc.1 :: ps.map (·.1)
  let fl := acc.2 ||| ps.foldl (fun a p => a ||| p.2) (sigFlag [unpackFloat f64 acc.1])
  let pinf := vs.any (· == .inf false)
  let ninf := vs.any (· == .inf true)
  if vs.any FV.isNan then (f64.nan, fl)
  else if pinf && ninf then (f64.nan, fl ||| NV)
  else if pinf then (f64.inf, fl)
  else if ninf then (f64.sign true + f64.inf, fl)
  else
    let (z, q) := vs.foldl (fun (z, q) v => match v with
      | .fin n m e => addExact z q (signedM n m) e
      | _ => (z, q)) ((0 : Int), (0 : Int))
    if z = 0 then (f64.sign (vs.all fun v => v.isZero && v.neg), fl)
    else
      let (b, f2) := roundInt f64 .rn false z q
      (b, fl ||| f2)

/-- Accumulate FP64 products in blocks of 4 (04 R89). -/
def accumulate64 (acc : Nat × Nat) (ps : List (FV × Nat)) : Nat × Nat := (chunks ps.length 4 ps).foldl acc64 acc

/-- The window of a format's block sums (04 R87): 36 bits for SB and INT8, 48 for BF16 and FP16. -/
def sumWindow (efmt : Nat) : Nat := if efmt ≤ 4 then 36 else 48

/-- Bytes of an element of a format that is not SB (04 R79). -/
def elemBytes (efmt : Nat) : Nat := if efmt = 4 then 1 else if efmt = 5 || efmt = 6 then 2 else if efmt = 7 then 4 else 8

/-- The value of an element of a format that is not SB. -/
def elemValue (efmt x : Nat) : FV :=
  match efmt with
  | 4 => .fin (decide (sx x 8 < 0)) (sx x 8).natAbs 0
  | 5 => unpackFloat bf16 x
  | 6 => unpackFloat f16 x
  | 7 => unpackFloat f32 x
  | _ => unpackFloat f64 x

/-- A value converted to an element of a format that is not SB, by RNE; INT8 is also clamped (08 R218, R222). -/
def elemStore (efmt : Nat) (v : FV) : Nat × Nat :=
  match efmt with
  | 4 => match v with
    | .nan s => (0, if s then NV else 0)
    | .inf n => (wrapInt 8 (if n then -128 else 127), NV)
    | .fin n m e => (wrapInt 8 (clampInt true 8 (toInt .rn n m e).1), 0)
  | 5 => convV bf16 .rn v
  | 6 => convV f16 .rn v
  | 7 => convV f32 .rn v
  | _ => convV f64 .rn v

end Sys2Proof.Machine
end

