-- ==== Sys2Proof/Machine/Cipher.lean ====
section
/-! DEFINITION. AES-256-XTS, under which the stacks hold their sectors (10 R265; log entry 5). -/

namespace Sys2Proof.Machine

/-! ### Bytes as polynomials -/

/-- Twice an element of the cipher's field of 256 elements. -/
def fieldTwice (x : Nat) : Nat := if x < 128 then 2 * x else (2 * x) ^^^ 0x11B

/-- The product of two elements of the field. -/
def fieldMul (x y : Nat) : Nat :=
  ((List.range 8).foldl (fun (sum, z) i => (if y.testBit i then sum ^^^ z else sum, fieldTwice z)) (0, x)).1

/-- The inverse of an element, zero's being zero: its 254th power. -/
def fieldInv (x : Nat) : Nat :=
  ((List.range 7).foldl (fun (p, q) _ => let q := fieldMul q q; (fieldMul p q, q)) (1, x)).1

/-- The sum of a byte's rotations left by the places given. -/
def turns (x : Nat) (places : List Nat) : Nat := places.foldl (fun r i => r ^^^ (x * 2 ^ i % 256 ||| x * 2 ^ i / 256)) 0

/-- The cipher's substitution of a byte. -/
def subByte (x : Nat) : Nat := turns (fieldInv x) [0, 1, 2, 3, 4] ^^^ 0x63
/-- The substitution that undoes it. -/
def unsubByte (x : Nat) : Nat := fieldInv (turns x [1, 3, 6] ^^^ 5)

/-- The bitwise sum of two runs of bytes. -/
def sumBytes (xs ys : List Nat) : List Nat := List.zipWith (· ^^^ ·) xs ys

/-! ### The block cipher -/

/-- The sixty words of a 256-bit key's schedule. -/
def keyWords (key : List Nat) : List (List Nat) :=
  (List.range 52).foldl (fun ws n =>
    let i := n + 8
    let last := ws.getD (i - 1) []
    let t := if i % 8 = 0 then sumBytes ((last.drop 1 ++ last.take 1).map subByte) [2 ^ (i / 8 - 1), 0, 0, 0]
      else if i % 8 = 4 then last.map subByte else last
    ws ++ [sumBytes (ws.getD n []) t]) ((List.range 8).map fun i => (key.drop (4 * i)).take 4)

/-- The sixteen bytes of a round's key. -/
def roundKey (ws : List (List Nat)) (r : Nat) : List Nat := ((ws.drop (4 * r)).take 4).flatten

/-- A block with the byte at place `i` taken from place `i * k`. -/
def shuffle (k : Nat) (b : List Nat) : List Nat := (List.range 16).map fun i => b.getD (i * k % 16) 0

/-- A block with each of its columns multiplied by a fixed polynomial, given by its coefficients. -/
def mixColumns (cs b : List Nat) : List Nat :=
  (List.range 16).map fun i => (List.range 4).foldl (fun r k =>
    r ^^^ fieldMul (b.getD (i / 4 * 4 + k) 0) (cs.getD ((k + 4 - i % 4) % 4) 0)) 0

/-- Encrypt a block. -/
def aesEncrypt (key block : List Nat) : List Nat :=
  let ws := keyWords key
  let b := (List.range 13).foldl (fun b r => sumBytes (mixColumns [2, 3, 1, 1] (shuffle 5 (b.map subByte))) (roundKey ws (r + 1)))
    (sumBytes block (roundKey ws 0))
  sumBytes (shuffle 5 (b.map subByte)) (roundKey ws 14)

/-- Decrypt a block. -/
def aesDecrypt (key block : List Nat) : List Nat :=
  let ws := keyWords key
  let b := (List.range 13).foldl (fun b r => mixColumns [14, 11, 13, 9] (sumBytes ((shuffle 13 b).map unsubByte) (roundKey ws (13 - r))))
    (sumBytes block (roundKey ws 14))
  sumBytes ((shuffle 13 b).map unsubByte) (roundKey ws 0)

/-! ### Sectors -/

/-- The bytes of a number, as numbers. -/
def numBytes (n x : Nat) : List Nat := (leBytes n x).map (·.toNat)
/-- The number that such bytes are. -/
def bytesNum (bs : List Nat) : Nat := leNat (bs.map fun b => (.ofNat 8 b : Byte))

/-- The mask of block `j` of a sector: the sector's number, encrypted under the second key and then doubled `j` times. -/
def xtsMask (key : List Nat) (sec j : Nat) : List Nat :=
  let t := bytesNum (aesEncrypt (key.drop 32) (numBytes 16 sec))
  numBytes 16 ((List.range j).foldl (fun t _ => if t < 2 ^ 127 then 2 * t else (2 * t - 2 ^ 128) ^^^ 0x87) t)

/-- Apply a block cipher to a sector's two blocks, each under its mask. -/
def xtsSector (cipher : List Nat → List Nat → List Nat) (key : List Nat) (sec : Nat) (x : BitVec 256) : BitVec 256 :=
  let one (j : Nat) : List Nat :=
    let m := xtsMask key sec j
    sumBytes (cipher (key.take 32) (sumBytes (numBytes 16 (x.toNat / 2 ^ (128 * j))) m)) m
  .ofNat 256 (bytesNum (one 0 ++ one 1))

/-- What a sector's ciphertext under one key pair decrypts to under another (10 R265, R267). -/
def recrypt (wrote reads : List Nat) (sec : Nat) (plain : BitVec 256) : BitVec 256 :=
  xtsSector aesDecrypt reads sec (xtsSector aesEncrypt wrote sec plain)

end Sys2Proof.Machine
end

