-- ==== Sys2Proof/Decode.lean ====
section
/-! DEFINITION. The decoder, total on any words and rejecting by name, and the encoder written from the same field
tables (05 R91 to R114, 22 R395). -/

namespace Sys2Proof

/-- Why words are no instruction. Each of these raises illegal-instruction on a core (05 R96, R108, R112 to R114) and
status 2 or 3 at a Taster slot's start (22 R390). -/
inductive DecErr where
  /-- No word was given. -/
  | noWords
  /-- The first word asks for more words than were given (05 R91). -/
  | missingWords (need : Nat)
  /-- The opcode is unassigned (05 R107, R108). -/
  | unassignedOpcode (code : Nat)
  /-- The type code is 15 (05 R99). -/
  | reservedType
  /-- A neighbour select or the edge field is 11 (02 R48). -/
  | reservedNeighbour
  /-- A field holds a value the instruction's entry does not accept (05 R96). -/
  | illegalField (code : Nat)
  /-- A pair operation code is not listed (05 R113). -/
  | unassignedPairOp (code : Nat)
  /-- Bit 0 of a pair word, or bits 2:0 of a slot, is not zero (05 R112). -/
  | pairReserved
  /-- A pair slot holds a value its operation does not accept (05 R114). -/
  | illegalPairSlot
  /-- A filter opcode is reserved (22 R395). -/
  | unassignedFilterOp (code : Nat)
  /-- An unused filter field is not zero (22 R395). -/
  | filterUnused
  deriving DecidableEq, Repr

/-- Cut a number into fields of the given widths, the lowest first. -/
def unpackFields : List Nat → Nat → List Nat
  | [], _ => []
  | w :: ws, x => x % 2 ^ w :: unpackFields ws (x / 2 ^ w)

/-- Put fields of the given widths side by side, the lowest first. -/
def packFields : List (Nat × Nat) → Nat
  | [] => 0
  | (w, v) :: fs => v % 2 ^ w + 2 ^ w * packFields fs

/-- The widths of the fields of an F word from bit 0 up (05 R95): x, sat, rm, mod, ty, lr of c, b and a, U, edge, nb,
na, c, b, a, d, la, kn, k, op, form. -/
def fWidths : List Nat := [3, 1, 2, 3, 4, 1, 1, 1, 1, 2, 2, 2, 6, 6, 6, 6, 4, 1, 3, 8, 1]

/-- The widths of a pair slot's fields from slot bit 0 up (05 R112): zero, U, kn, k, lrs, lrd, ns, s, d, op7. -/
def slotWidths : List Nat := [3, 1, 1, 3, 1, 1, 2, 6, 6, 7]

/-- The widths of a filter word's fields from bit 0 up (22 R395): imm, b, a, d, op. -/
def flWidths : List Nat := [14, 4, 4, 4, 6]

/-- A flag as one bit. -/
def bit (b : Bool) : Nat := if b then 1 else 0

/-- The opcode and the fields of an F-shaped first word (05 R95). -/
def unpackF (w : Word) : Except DecErr (Op × FOps) :=
  match unpackFields fWidths w.toNat with
  | [x, sat, rm, mod, ty, lrc, lrb, lra, u, edge, nb, na, c, b, a, d, la, kn, k, op, _] =>
    match Op.ofCode op with
    | none => .error (.unassignedOpcode op)
    | some o =>
      match Ty.ofCode ty with
      | none => .error .reservedType
      | some t =>
        match Nbr.ofCode na, Nbr.ofCode nb, Edge.ofCode edge with
        | some na', some nb', some e' =>
          .ok (o, { k := .ofNat 3 k, kn := kn == 1, la := .ofNat 4 la, d := .ofNat 6 d, a := .ofNat 6 a,
                    b := .ofNat 6 b, c := .ofNat 6 c, na := na', nb := nb', edge := e', u := u == 1,
                    lrA := lra == 1, lrB := lrb == 1, lrC := lrc == 1, ty := t, mod := .ofNat 3 mod,
                    rm := Rm.ofCode rm, sat := sat == 1, x := .ofNat 3 x })
        | _, _, _ => .error .reservedNeighbour
  | _ => .error .noWords

/-- The F-shaped first word of an opcode and its fields (05 R95). -/
def packF (o : Op) (f : FOps) : Word :=
  .ofNat 64 (packFields (fWidths.zip
    [f.x.toNat, bit f.sat, f.rm.code, f.mod.toNat, f.ty.code, bit f.lrC, bit f.lrB, bit f.lrA, bit f.u, f.edge.code,
     f.nb.code, f.na.code, f.c.toNat, f.b.toNat, f.a.toNat, f.d.toNat, f.la.toNat, bit f.kn, f.k.toNat, o.code, 0]))

/-- The number of words of an instruction with an F-shaped first word, by its fields d and mod (05 R104 to R106, R110). -/
def Op.length (o : Op) (d : BitVec 6) (mod : BitVec 3) : Nat :=
  match o with
  | .br | .call | .loopu | .movi => 2
  | .btab => 1 + (d.toNat + 2) / 2
  | .press | .lnest => 4
  | .ld | .lds | .ldp | .ldc | .lda | .ldx | .st | .sts | .stp | .strl => if mod.getLsbD 2 then 2 else 1
  | _ => 1

/-- The number of words of an instruction with an F-shaped first word (05 R104 to R106, R110). -/
def Op.words (o : Op) (f : FOps) : Nat := o.length f.d f.mod

/-- The number of words of the instruction a first word begins, which its opcode fixes with the fields d and mod, whatever
its other fields hold; an unassigned opcode counts as one word (05 R91, R110). -/
def instrLen (w : Word) : Nat :=
  if w.getLsbD 63 then 1
  else match unpackFields fWidths w.toNat with
    | [_, _, _, mod, _, _, _, _, _, _, _, _, _, _, _, d, _, _, _, op, _] =>
      match Op.ofCode op with
      | some o => o.length (.ofNat 6 d) (.ofNat 3 mod)
      | none => 1
    | _ => 1

/-- The opcode of a word with an F-shaped first word (05 R95); a pair word has none. -/
def opcodeOf (w : Word) : Nat := if w.getLsbD 63 then 0 else w.toNat / 2 ^ 55 % 256

/-- One slot of a pair word (05 R112). -/
def unpackSlot (x : Nat) : Except DecErr PairSlot :=
  match unpackFields slotWidths x with
  | [z, u, kn, k, lrs, lrd, ns, s, d, op7] =>
    if z ≠ 0 then .error .pairReserved
    else match PairOp.ofCode op7, Nbr.ofCode ns with
      | some o, some n =>
        .ok ⟨o, { d := .ofNat 6 d, s := .ofNat 6 s, ns := n, lrd := lrd == 1, lrs := lrs == 1, k := .ofNat 3 k,
                  kn := kn == 1, u := u == 1 }⟩
      | none, _ => .error (.unassignedPairOp op7)
      | _, none => .error .reservedNeighbour
  | _ => .error .noWords

/-- The 31 bits of a slot (05 R112). -/
def packSlot (p : PairSlot) : Nat :=
  packFields (slotWidths.zip
    [0, bit p.f.u, bit p.f.kn, p.f.k.toNat, bit p.f.lrs, bit p.f.lrd, p.f.ns.code, p.f.s.toNat, p.f.d.toNat, p.op.code])

/-- A pair word: slot A in bits 62:32, slot B in bits 31:1, bit 0 zero (05 R112). -/
def decodePair (w : Word) : Except DecErr Instr :=
  match unpackFields [1, 31, 31, 1] w.toNat with
  | [z, xb, xa, _] =>
    if z ≠ 0 then .error .pairReserved
    else match unpackSlot xa, unpackSlot xb with
      | .ok a, .ok b => if a.wf && b.wf then .ok (a.op.build a.f b) else .error .illegalPairSlot
      | .error e, _ => .error e
      | _, .error e => .error e
  | _ => .error .noWords

/-- The pair word of two slots (05 R112). -/
def packPair (a b : PairSlot) : Word :=
  .ofNat 64 (packFields ([1, 31, 31, 1].zip [0, packSlot b, packSlot a, 1]))

/-- An instruction with an F-shaped first word and the words that follow it (05 R95 to R106). -/
def decodeF (w : Word) (rest : List Word) : Except DecErr Instr :=
  match unpackF w with
  | .error e => .error e
  | .ok (o, f) =>
    let n := o.words f - 1
    if rest.length < n then .error (.missingWords (n + 1))
    else
      let ws := rest.take n
      if o.wf f ws then .ok (o.build f ws) else .error (.illegalField o.code)

/-- The decoder of Afren words: the instruction that begins at the first word (05 R91, R93). Every decode check of
05 R96 is made here; the privileged-instruction fault and the illegal-pairing trap come later (05 R111). -/
def decode : List Word → Except DecErr Instr
  | [] => .error .noWords
  | w :: rest => if w.getLsbD 63 then decodePair w else decodeF w rest

/-- The decoder of filter words (22 R395). -/
def decodeFilter (w : W32) : Except DecErr Instr :=
  match unpackFields flWidths w.toNat with
  | [imm, b, a, d, op] =>
    match FlOp.ofCode op with
    | none => .error (.unassignedFilterOp op)
    | some o =>
      let f : FlF := { d := .ofNat 4 d, a := .ofNat 4 a, b := .ofNat 4 b, imm := .ofNat 14 imm }
      if o.wf f then .ok (o.build f) else .error .filterUnused
  | _ => .error .noWords

/-- The filter word of an opcode and its fields (22 R395). -/
def packFilter (o : FlOp) (f : FlF) : W32 :=
  .ofNat 32 (packFields (flWidths.zip [f.imm.toNat, f.b.toNat, f.a.toNat, f.d.toNat, o.code]))

/-- The words of an instruction; none for a device event. A filter instruction's word stands in the low half. -/
def encode (i : Instr) : List Word :=
  match i.parts with
  | some (o, f, ws) => packF o f :: ws.take (o.words f - 1)
  | none => match i.pairParts with
    | some (a, b) => [packPair a b]
    | none => match i.flParts with
      | some (o, f) => [(packFilter o f).setWidth 64]
      | none => []

/-- The 64-bit words of a long bit string, the lowest bits first. -/
def wordsOf : Nat → Nat → List Word
  | 0, _ => []
  | n + 1, x => .ofNat 64 x :: wordsOf n (x / 2 ^ 64)

/-- The most words an instruction has: a `BTAB` of 64 entries (05 R105). -/
def maxWords : Nat := 33

/-- The instruction the decoder reads from the bits `w` of a row of the opcode table, every bit from `nbits` on
being zero: a row of at most 32 bits is a filter instruction, any other an Afren instruction. -/
def decodeTableWord (nbits w : Nat) : Option Instr :=
  let x := w % 2 ^ nbits
  if nbits ≤ 32 then (decodeFilter (.ofNat 32 x)).toOption
  else (decode (wordsOf maxWords x)).toOption

end Sys2Proof
end

