-- ==== Sys2Proof/Machine/State.lean ====
section
/-! DEFINITION. The state of the machine as plain data, the reasons a step can stop, and the state after reset. -/

namespace Sys2Proof.Machine

/-- A sparse table by number: pairs in strictly rising order of key. -/
abbrev Tbl (α : Type) := List (Nat × α)

/-- Why a step stops where the spec gives no effect to perform. Each is safe: the hardware goes on or never does this,
and nothing is claimed of what follows. -/
inductive Fault where
  /-- Raised by the meaning of an Afren or pair instruction when no live, ready group is current. A core executes
  instructions only for a group, so the hardware never does this; safe. -/
  | noGroup
  /-- Raised by the meaning of a filter instruction when no Taster slot run is current; safe. -/
  | noFilterRun
  /-- Raised by the meaning of a device event whose conditions do not hold, with the event's name: the hardware never
  performs the event then; safe. -/
  | notEnabled (event : String)
  deriving DecidableEq, Repr

/-- Why an instruction has no meaning. -/
inductive Refusal where
  /-- Raised by `exec` for an instruction whose meaning is not written; safe. -/
  | notModelled (mnemonic : String)
  deriving DecidableEq, Repr

/-- A device event in flight, or one that the outside brings: the event and the numbers it concerns. -/
structure Due where
  ev : Instr
  subj : Subj := {}
  deriving DecidableEq, Repr

/-- The clocks of 00 R2: of a core, a slice, a die's fabric, a stack's base die, and the scheduling unit. -/
inductive Clock where
  | core (n : Nat) | slice (n : Nat) | die (n : Nat) | press (stack : Nat) | sched
  deriving DecidableEq, Repr

/-- One choice of what happens next, where the spec leaves the order to the part or to the outside: a device event, a
group's issue, a Taster slot's instruction, the passing of a clock's cycles, the loss of a sideband event, that an access
or write-back performed in the step before it is performed sector by sector, its first sectors then and the rest later
(12 R282), or that nothing happens. -/
inductive Choice where
  | event (d : Due)
  | issue (g : Nat)
  | filter (die slot : Nat)
  | elapse (c : Clock) (n : Nat)
  | loseEvent (d : Due)
  | split
  | defer
  deriving DecidableEq, Repr

/-! ### Groups -/

/-- An entry of the split stack (03 R55). -/
structure SplitEntry where
  rpc : Word := 0
  dpc : Word := 0
  dmask : Word := 0
  jmask : Word := 0
  rmask : Word := 0
  depth : Nat := 0
  deriving DecidableEq, Repr

/-- A mapped vector register: its physical register and the value of each thread (02 R40). -/
structure VReg where
  pid : Nat := 0
  vals : List W32 := []
  deriving DecidableEq, Repr

/-- One register write of a long-latency result: the register, whether it is uniform, the thread, the value. -/
structure RegWr where
  reg : Nat
  uni : Bool
  t : Nat
  val : Word
  deriving DecidableEq, Repr

/-- One thread's access of a memory instruction: its address, its data, and `ACAS`'s new value, captured at issue. -/
structure Acc where
  t : Nat
  ea : Word := 0
  data : Nat := 0
  new : Nat := 0
  deriving DecidableEq, Repr

/-- What a captured memory instruction does. -/
inductive MemKind where
  | ld | ldc | lda | ldx | atom | acas | lds | ldp | atoms | mlds
  deriving DecidableEq, Repr

/-- A memory instruction as captured when it issued (05 R120). -/
structure MemReq where
  kind : MemKind
  ty : Ty
  size : Nat
  uni : Bool
  dst : Nat
  scope : Scope := .grp
  op : AtomOp := .add
  eff : Word := 0
  accs : List Acc := []
  deriving DecidableEq, Repr

/-- One part of an access: the bytes of one thread in one line, and the bytes once it is served. -/
structure Part where
  t : Nat
  pos : Nat
  la : Nat
  slot : Nat
  lo : Nat
  n : Nat
  got : Option (List Byte) := none
  deriving DecidableEq, Repr

/-- A fault or trap as its record names it (20 R359). -/
structure FaultRec where
  code : Nat := 0
  cause : Nat := 0
  inner : Nat := 0
  innerCause : Nat := 0
  site : Nat := 0
  iaddr : Word := 0
  pc : Word := 0
  failing : Word := 0
  eff : Word := 0
  va : Word := 0
  tcode : Nat := 0
  task : Nat := 0
  helper : Word := 0
  second : Option (Nat × Nat × Word) := none
  deriving DecidableEq, Repr

/-- A lookahead window (05 R117, R118): the instruction that opened it, the words left, its destination, the registers its
last-read bits free when its result takes effect, its result as far as it has arrived, and its fault. One with `sink` set
stands for a memory word that a sink group's threads execute in the core. `srcs` and `usrcs` are its sources as captured
when it issued, in the order of its operands (20 R356). -/
structure Win where
  id : Nat
  pc : Word
  left : Nat
  vdst : List Nat := []
  udst : List Nat := []
  pids : List (Nat × Nat) := []
  discarded : Bool := false
  frees : List Nat := []
  req : Option MemReq := none
  parts : List Part := []
  waitLines : List Nat := []
  sink : Bool := false
  vals : List RegWr := []
  flags : Nat := 0
  rv : Nat := 0
  done : Bool := false
  fault : Option FaultRec := none
  srcs : List (List W32) := []
  usrcs : List Word := []
  deriving DecidableEq, Repr

/-- A thread's open transaction (07 R182 to R186): its read lines, the first value of each byte read and whether a
later read differed, its write lines, the key slot of each line, why it is doomed (0 where it is not) and the user code. Its
pending bytes stand in its core's pending lines. -/
structure Tx where
  rlines : List Nat := []
  rbytes : Tbl (Byte × Bool) := []
  wlines : List Nat := []
  slots : Tbl Nat := []
  doom : Nat := 0
  user : Nat := 0
  deriving DecidableEq, Repr

/-- A cached leaf translation (20 R365, R367). -/
structure Leaf where
  asid : Nat
  vpage : Nat
  bits : Nat
  ppage : Nat
  slot : Nat
  r : Bool
  w : Bool
  x : Bool
  cow : Bool
  deriving DecidableEq, Repr

/-- A sink group in progress (07 R187 to R192, R412; 11), under its window's number: its `SINK` word's address, the marked
words, E, the limit, whether it stores; the threads running the words in the core, from word `idx`, and the window of
the memory word they wait for; the threads decided to leave and not yet sent, those away, and those that came back
unperformed; each thread's code; the lines still to hold and those held, with the code of their site; the line and key
slot of each thread away; the captured registers and the threads' working ones; flags and vintage so far; a fault met
away, whether the unsent threads are to be decided afresh, and the numbers by which threads away are counted; the leaf that
translated each leaving thread's anchor, and the bytes of each line that threads in the core have written. -/
structure SinkSt where
  pc : Word
  words : List (Op × FOps) := []
  eff : Word := 0
  lim : Nat := 0
  store : Bool := false
  core : Word := 0
  idx : Nat := 1
  hid : Nat := 0
  unsent : Word := 0
  away : Word := 0
  returned : Word := 0
  codes : List (Nat × Nat) := []
  probes : List Nat := []
  held : List (Nat × Nat) := []
  lines : List (Nat × Nat × Nat) := []
  scap : List Word := []
  vcap : Tbl VReg := []
  loc : Tbl VReg := []
  flags : Nat := 0
  rv : Nat := 0
  fault : Option FaultRec := none
  redo : Bool := false
  outs : List (Nat × Nat) := []
  leaves : Tbl Leaf := []
  stood : Tbl ByteMask := []
  deriving DecidableEq, Repr

/-- What `REGION` checkpoints (09 R240). -/
structure Ckpt where
  v : Tbl VReg := []
  s : List Word := []
  k : List Word := []
  fpflags : Nat := 0
  active : Word := 0
  depth : Nat := 0
  deriving DecidableEq, Repr

/-- A group's context: what a save keeps and a handler's shadow holds (20 R353 to R356); `barWait` is the barrier at which it has
arrived and waits (20 R357). -/
structure Ctx where
  pc : Word := 0
  active : Word := 0
  live : Word := 0
  depth : Nat := 0
  stack : List SplitEntry := []
  s : List Word := List.replicate 32 0
  k : List Word := List.replicate 8 0
  v : Tbl VReg := []
  taskid : List Nat := []
  fpflags : Nat := 0
  rv : Nat := 0
  region : Word := 0
  sinkrec0 : Word := 0
  sinkrec1 : Word := 0
  allot : Nat := 64
  cls : Nat := 0
  entry : Word := 0
  tdep : List Word := []
  wins : List Win := []
  tx : Tbl Tx := []
  sinks : Tbl SinkSt := []
  spawnRem : Word := 0
  ckpt : Option Ckpt := none
  pocket : Tbl Byte := []
  pending : Option FaultRec := none
  phase : Nat := 0
  barWait : Option Nat := none
  deriving DecidableEq, Repr

/-- Why a group is parked or waiting (02 R53): `await` with the future's address and the word that was found, `scratch` with
the absent lines it touches, `regs` with the registers it lacks, `spawnRoom` with the entry of the record that found no room,
`yielding` with the cluster's opportunity count when it yielded and the opportunities it lets pass. -/
inductive Why where
  | await (pa : Nat) (w : Word)
  | scratch (lines : List Nat)
  | barrier (b : Nat)
  | regs (n : Nat)
  | engine (ec v : Nat)
  | counterFull (ec : Nat)
  | depTable
  | outstanding
  | sinkDone
  | spawnRoom (entry : Word)
  | yielding (start n : Nat)
  deriving DecidableEq, Repr

/-- Where a group stands (02 R51): ready or waiting for a source, parked or waiting for a reason, an outer frame of an
adoption, halted, retired with results in flight, not resident and parked by `PARK` (with its wake future), saved with
its team, or held for its fault. -/
inductive Run where
  | ready
  | parked (w : Why)
  | outer (inner : Nat)
  | halted
  | retired
  | out (wake : Option Nat)
  | saved
  | faultHeld
  deriving DecidableEq, Repr

/-- A group; `after` is where it stands once a saved group is restored, and `redo` that its faulted instruction is then
performed again (20 R360); `grant` is how many physical registers a grant keeps for it until it takes them (02 R44), and
`stall` that its next word was found to wait for a source and nothing has happened since (02 R51). -/
structure Group where
  team : Nat := 0
  gid : Nat := 0
  w : Nat := 16
  core : Nat := 0
  slot0 : Nat := 0
  run : Run := .ready
  ctx : Ctx := {}
  shadow : Option Ctx := none
  frec : Option FaultRec := none
  outer : Option Nat := none
  depth : Nat := 0
  lastIssue : Nat := 0
  out : List Nat := []
  win : Nat := 0
  parkedAt : Nat := 0
  after : Run := .ready
  redo : Bool := false
  grant : Nat := 0
  stall : Bool := false
  deriving DecidableEq, Repr

/-- A barrier's phase (07 R180, 20 R357): the "every group" form, the expected count (0 before the first arrival), and
the groups that have arrived. -/
structure Bar where
  every : Bool := false
  expected : Nat := 0
  arrived : List Nat := []
  deriving DecidableEq, Repr

/-- Where a team stands. -/
inductive TeamSt where
  | waiting | resident | saved | killed | retired
  deriving DecidableEq, Repr

/-- A team: its launch, number, groups, cores, scratch, presence, barriers, task id, posted engine faults; the accumulators
and the results' vintages a save keeps; whether it is being saved, and if so whether by an eviction; the runs of the context
pool that a save of it takes. -/
structure Team where
  launch : Nat := 0
  num : Nat := 0
  cask : Bool := false
  groups : List Nat := []
  core : Nat := 0
  pair : Bool := false
  st : TeamSt := .waiting
  scratch : Tbl Byte := []
  granules : List (Nat × Nat) := []
  absent : List (Nat × Nat) := []
  bars : Tbl Bar := []
  task : Nat := 0
  posted : List (Nat × Nat × Nat × Word) := []
  tas : Bool := false
  savedTas : List (Tbl W32 × Tbl Nat) := []
  ecRv : List Nat := [0, 0, 0, 0]
  saving : Option Bool := none
  pool : List (Nat × Nat) := []
  deriving DecidableEq, Repr

/-- A launch record's fields (19 R329). -/
structure Rec where
  entry : Word := 0
  arg : Word := 0
  compl : Word := 0
  grid : Nat := 1
  scratch : Nat := 0
  pocket : Nat := 0
  w : Nat := 16
  team : Nat := 1
  pair : Bool := false
  regs : Nat := 1
  cls : Nat := 0
  blocks : Nat := 0
  region : Bool := false
  tas : Bool := false
  tile : Bool := false
  ordered : Bool := false
  coop : Nat := 0
  age : Nat := 256
  fmts : List Nat := List.replicate 8 0
  deriving DecidableEq, Repr

/-- An accepted launch; `ran` are the cores its groups have run on (18 R328). -/
structure Launch where
  part : Nat := 0
  slot : Nat := 0
  vf : Nat := 0
  q : Nat := 0
  tenant : Nat := 0
  rc : Rec := {}
  accepted : Nat := 0
  next : Nat := 0
  tokens : Nat := 0
  reports : List (Nat × Nat × Nat × Word) := []
  killed : Bool := false
  cancelled : Bool := false
  done : Bool := false
  ran : List Nat := []
  deriving DecidableEq, Repr

/-- A task record (09 R228): the physical addresses of the futures the task owns. -/
structure Task where
  owned : List Nat := []
  deriving DecidableEq, Repr

/-- A boost (09 R234, 13 R310): the owner's partition and task, the future it is to change with the word found there, and
the waiter's class. -/
structure Boost where
  part : Nat
  task : Nat
  pa : Nat
  word : Word
  cls : Nat
  deriving DecidableEq, Repr

/-! ### Cores -/

/-- States of a near-cache line that is not pending (10 R255). -/
inductive NcSt where
  | leased | constant | dirty | exclusive
  deriving DecidableEq, Repr

/-- A near-cache line: state, bytes, the mask of bytes not yet written back, key slot, the vintages it was granted with,
last use, when it was dirtied, its near-SRAM block, poison. -/
structure NcLine where
  st : NcSt := .leased
  data : LineData := 0
  mask : ByteMask := 0
  slot : Nat := 0
  wv : Nat := 0
  le : Nat := 0
  use : Nat := 0
  dirtied : Nat := 0
  blk : Nat := 11
  poison : Bool := false
  deriving DecidableEq, Repr

/-- A pending line (10 R255): the bytes one group's open region, or one thread's transaction, has stored over the line as it was
found; `deep` says that the region is that of the context in a handler's shadow. -/
structure PendLine where
  la : Nat
  slot : Nat
  g : Nat
  t : Option Nat
  data : LineData := 0
  mask : ByteMask := 0
  dirtied : Nat := 0
  blk : Nat := 11
  deep : Bool := false
  deriving DecidableEq, Repr

/-- A spawn record (13 R307): entry, task id, whether `.fut` handed it a future, launch handle, `%rv`, argument words; `seen`
is the vintage of what its spawner's core had written by then (09 R232, log entry 31), and `place` where it lies in an overflow area
(log entry 33). -/
structure SpawnRec where
  entry : Word := 0
  task : Nat := 0
  fut : Option Nat := none
  launch : Nat := 0
  rv : Nat := 0
  seen : Nat := 0
  args : List W32 := []
  place : Nat := 0
  deriving DecidableEq, Repr

/-- A cask (13 R303, R305): its key, its records oldest first, the core cycle its oldest record became its oldest, and how
many of its oldest records were stolen to be launched at once (13 R308). -/
structure Cask where
  launch : Nat := 0
  entry : Word := 0
  recs : List SpawnRec := []
  since : Nat := 0
  stolen : Nat := 0
  deriving DecidableEq, Repr

/-- A physical register that is not free: its rows, whether it drains, and how many writes are in flight to it. -/
structure PReg where
  rows : Nat := 1
  flight : Nat := 0
  draining : Bool := false
  deriving DecidableEq, Repr

/-- A core. `blocks` are its scratch blocks (10 R251), `moving` the block being emptied to become one. -/
structure Core where
  cycles : Nat := 0
  near : Tbl NcLine := []
  pend : List PendLine := []
  stamp : Nat := 0
  tlb : List Leaf := []
  obsv : Nat := 0
  ec : List Nat := [0, 0, 0, 0]
  ecRv : List Nat := [0, 0, 0, 0]
  casks : Tbl Cask := []
  target : Nat := 0
  moving : Option Nat := none
  blocks : List Nat := []
  granules : Tbl Nat := []
  gens : Tbl Nat := []
  tas : Tbl W32 := []
  tasFlags : Tbl Nat := []
  tasBy : Option Nat := none
  dep : List Nat := []
  pregs : Tbl PReg := []
  pgens : Tbl Nat := []
  regQueue : List Nat := []
  idle : Nat := 0
  opp : List Nat := List.replicate 16 0
  tokens : Tbl Nat := []
  deriving DecidableEq, Repr

/-! ### Memory -/

/-- A copy of a line in a slice of a die other than the home's (12 R298, R299). -/
structure DieCopy where
  st : Moesi := .i
  data : LineData := 0
  slot : Nat := 0
  wv : Nat := 0
  le : Nat := 0
  deriving DecidableEq, Repr

/-- A release record (12 R289). -/
structure RelRec where
  core : Nat
  scope : Scope
  deriving DecidableEq, Repr

/-- The transient state of a line at its home (12 R298): the request being served and the dies still to answer. A fill, a
census, and the drains of an acquire and of a fifth release keep the line in the same way. -/
inductive Busy where
  | idle
  | up (req : Due) (acks : List Nat)
  | rx (req : Due) (acks : List Nat) (fwd : Option Nat)
  | fw (req : Due) (owner : Nat)
  | wb (req : Due) (from_ : Nat) (acks : List Nat)
  | fill (req : Due)
  | census (req : Due) (dies : List Nat) (lower upper : List Nat)
  | acquire (req : Due) (cores : List Nat) (vmax : Nat)
  | release (req : Due) (core : Nat)
  deriving DecidableEq, Repr

/-- Everything kept of one physical line other than its bytes in memory: vintages, the home slice's copy, the other
dies' copies, release records, the transient state and its queue, a sink group's hold, poison, and the prefetch that
brought it. -/
structure LineSt where
  wv : Nat := 0
  le : Nat := 0
  home : Option LineData := none
  homeDirty : Bool := false
  slot : Nat := 0
  copies : Tbl DieCopy := []
  recs : List RelRec := []
  busy : Busy := .idle
  queue : List Due := []
  hold : Option Nat := none
  poison : Bool := false
  pf : Option (Nat × Nat × Bool) := none
  deriving DecidableEq, Repr

/-- A directory entry of a home slice (12 R296). -/
structure DirEnt where
  slice : Nat
  base : Nat
  span : Nat := 0
  sharers : List Nat := []
  owner : Option (Nat × Moesi) := none
  events : Nat := 0
  use : Nat := 0
  deriving DecidableEq, Repr

/-- A prefetcher's streams (last line, direction, misses seen, tenant), a Press's buffer (line and tenant), and counters
(10 R262, R263). -/
structure Pref where
  streams : List (Nat × Int × Nat × Nat) := []
  buffer : List (Nat × Nat) := []
  issued : Nat := 0
  used : Nat := 0
  late : Nat := 0
  evicted : Nat := 0
  deriving DecidableEq, Repr

/-! ### Engines -/

/-- Kinds of engine command (08 R200). -/
inductive CmdKind where
  | copy | fill | coll | press | lnest | tmma | tstore | tzero
  deriving DecidableEq, Repr

/-- Where a command stands (08 R202): waiting to go to its engine, running, stopped at a fault that the driver is to
answer, with the cause, cancelled, or over. -/
inductive CmdSt where
  | waiting | running | faulted (cause : Nat) | cancelled | over
  deriving DecidableEq, Repr

/-- Bytes of a command on their way into scratch (10 R260): the core, the scratch line, the generation of its granule when
they left, the first byte in the line, and the bytes, under a number of their own. -/
structure Flight where
  id : Nat
  core : Nat
  line : Nat
  gen : Nat
  lo : Nat
  bytes : List Byte
  deriving DecidableEq, Repr

/-- An engine command (08 R202): who issued it, its counter, the operand registers and words captured at issue, the
format slots, the outstanding operations it waits for, its dependency ranges, its number in the order of issue, its
progress, its pool engine, its bytes on their way into scratch, the vintage of its results, the address it faulted
at, and the values that elements of a loop nest's result had before it where it reads them too (08 R218). -/
structure Cmd where
  kind : CmdKind := .copy
  st : CmdSt := .waiting
  g : Nat := 0
  core : Nat := 0
  team : Nat := 0
  launch : Nat := 0
  tenant : Nat := 0
  ec : Nat := 0
  rv : Nat := 0
  iaddr : Word := 0
  task : Nat := 0
  regs : List Word := []
  ws : List Word := []
  mod : Nat := 0
  fmts : List Nat := []
  waits : List Nat := []
  deps : List Word := []
  seq : Nat := 0
  prog : Nat := 0
  engine : Option Nat := none
  flight : List Flight := []
  wv : Nat := 0
  va : Word := 0
  toScratch : Bool := false
  olds : Tbl Nat := []
  deriving DecidableEq, Repr

/-- A pool engine's lease (19 R342): partition, tenant, operations left. -/
structure Engine where
  part : Nat := 0
  tenant : Nat := 0
  left : Nat := 0
  deriving DecidableEq, Repr

/-! ### Partitions, functions and keys -/

/-- A tenant of a partition (19 R339 to R341). -/
structure Tenant where
  budget : Nat := 0
  balance : Nat := 0
  debt : Nat := 0
  credit : Nat := 0
  idle : Nat := 0
  deriving DecidableEq, Repr

/-- A partition (19 R343); `killed` are the fault records of its killed teams by the handle of each one's event record (20 R361). -/
structure Partition where
  step : Nat := 10
  cores : List Nat := []
  slices : List Nat := []
  channels : List Nat := []
  engines : List Nat := []
  home : List Nat := []
  ovBase : List Nat := [0, 0, 0, 0]
  ovLog : Nat := 12
  ovHead : List Nat := [0, 0, 0, 0]
  ov : Tbl (List SpawnRec) := []
  tenants : Tbl Tenant := []
  ring : Nat := 0
  ringLog : Nat := 4
  seq : Nat := 0
  nextTask : Nat := 1
  handlers : List Word := []
  pool : Nat := 0
  poolLen : Nat := 0
  turn : Nat := 0
  firstTeam : Option Nat := none
  firstSince : Nat := 0
  hold : Bool := false
  period : Nat := 0
  designated : Option (Nat × Nat × Nat) := none
  removing : List Nat := []
  newCores : Option (List Nat) := none
  blockers : List (Nat × Nat) := []
  pendingCoop : Option Nat := none
  closed : List Nat := []
  ctr : Option Nat := none
  killed : Tbl FaultRec := []
  deriving DecidableEq, Repr

/-- A queue (19 R332). -/
structure Queue where
  base : Nat := 0
  log : Nat := 4
  part : Nat := 0
  tenant : Nat := 0
  report : Nat := 0
  head : Nat := 0
  tail : Nat := 0
  rejects : Nat := 0
  unwritten : Nat := 0
  overrun : Bool := false
  deriving DecidableEq, Repr

/-- A virtual function: its address space and its queues (20 R363, 19 R332). -/
structure Vf where
  asid : Nat := 0
  root : Option Nat := none
  queues : Tbl Queue := []
  deriving DecidableEq, Repr

/-- A key slot (21 R379): live, the functions bound to it, and the number that tells its key from every other: one more than the
key pair's own, its 64 bytes read low byte first; 0 where there is none, and for slot 0. -/
structure KeySlot where
  live : Bool := false
  bound : List Nat := []
  key : Nat := 0
  deriving DecidableEq, Repr

/-- A communicator (21 R376). -/
structure Comm where
  count : Nat := 0
  rank : Nat := 0
  path : Nat := 0
  mask : Nat := 0
  table : Nat := 0
  deriving DecidableEq, Repr

/-- The management window (21 R372, R374): the request's bytes as they stand, the request being performed, the reply, whether
one is in progress, whether a doorbell write was ignored meanwhile, whether a slice or channel was lost (23 R404), and
how far a request that takes several steps has come, with the teams it concerns and those of them saved for it, and whether
the image of a live update starts. -/
structure Mgmt where
  req : List Byte := List.replicate 64 0
  cur : List Byte := List.replicate 64 0
  reply : List Byte := List.replicate 64 0
  busy : Bool := false
  late : Bool := false
  loss : Bool := false
  phase : Nat := 0
  list : List Nat := []
  saved : List Nat := []
  starts : Bool := false
  deriving DecidableEq, Repr

/-- An invalidation of translations in progress (20 R367): the group that asked, or none for a request; what it removes; and the
accesses begun before it that are still to be performed, each by its group and number. -/
structure Inval where
  who : Option Nat
  scope : InvalidateScope
  left : List (Nat × Nat) := []
  deriving DecidableEq, Repr

/-- Boot (21 R377): the stage reached, the failing stage and its cause, and the attestation log's entries
(stage and component, version, digest) oldest first. -/
structure Boot where
  stage : Nat := 0
  failed : Nat := 0
  cause : Nat := 0
  log : List (Nat × Nat × List Byte) := []
  deriving DecidableEq, Repr

/-! ### Tasters -/

/-- A filter run in progress (22 R394): the program it runs, registers, pc, the event, the cost so far, the cost deducted, the
window it began in, whether `SNAP` ran and with which immediates. -/
structure FlRun where
  code : List W32 := []
  regs : List W32 := List.replicate 16 0
  pc : Nat := 0
  ev : TEvent := { code := 0, source := 0, tenant := 0, payload := 0, seq := 0 }
  cost : Nat := 0
  held : Nat := 0
  window : Nat := 0
  snap : Bool := false
  zero : Bool := false
  ended : Bool := false
  deriving DecidableEq, Repr

/-- A Taster slot (22 R388 to R399). -/
structure TSlot where
  state : Tbl W32 := []
  prog : Tbl W32 := []
  run : Bool := false
  irq : Bool := false
  kinds : Nat := 0
  high : Nat := 0
  low : Nat := 0
  len : Nat := 0
  status : Nat := 0
  failWord : Nat := 0
  worst : Nat := 0
  accepted : Nat := 0
  qdrops : Nat := 0
  bdrops : Nat := 0
  runs : Nat := 0
  triggers : Nat := 0
  head : Nat := 0
  snapSeq : Nat := 0
  owner : Nat := 0
  bound : Bool := false
  ring : Tbl (List Byte) := []
  snap : Tbl W32 := []
  queue : List TEvent := []
  cur : Option FlRun := none
  copying : Option Bool := none
  copyFrom : Nat := 0
  copied : Nat := 0
  nextOwner : Option Nat := none
  deriving DecidableEq, Repr

/-- A Taster (22 R386, R392, R393): its cycles, the windows begun, the budgets and their balances and drops, the expected
sequence of each source, and the sideband-lost count. -/
structure Taster where
  cycles : Nat := 0
  windows : Nat := 0
  budget : Tbl Nat := []
  balance : Tbl Nat := []
  drops : Tbl Nat := []
  expect : Tbl Nat := []
  lost : Nat := 0
  stopped : Bool := false
  deriving DecidableEq, Repr

/-! ### The machine -/

/-- The machine. `cur` is the group an Afren instruction acts for, `curSlot` the Taster slot a filter
instruction acts for, `subj` the numbers the device event now performed concerns; `tape` holds the choices to come and
`due` the device events in flight, oldest first; `fresh` counts the free values taken (log entries 1 and 4);
`returned` is what the device last gave to the outside beside a reply: a host read's bytes, a quote's signature and key.
`dead` and `failing` name parts that failed for good and parts the firmware is to retire, `copying` those being replaced, each
by kind (core, slice, channel) and number. -/
structure State where
  mem : List Host.Cell := []
  tags : Tbl (Nat × Nat) := []
  lines : Tbl LineSt := []
  dir : List DirEnt := []
  cores : Tbl Core := []
  groups : Tbl Group := []
  teams : Tbl Team := []
  launches : Tbl Launch := []
  tasks : Tbl Task := []
  boosts : List Boost := []
  parts : Tbl Partition := []
  vfs : Tbl Vf := []
  cmds : Tbl Cmd := []
  engines : Tbl Engine := []
  keys : Tbl KeySlot := []
  comms : Tbl Comm := []
  service : Tbl (List Leaf) := []
  invals : List Inval := []
  prefS : Tbl Pref := []
  prefP : Tbl Pref := []
  scrub : Tbl Nat := []
  sliceCycles : Tbl Nat := []
  pressCycles : Tbl Nat := []
  mgmt : Mgmt := {}
  boot : Boot := {}
  msix : List (Option Nat × Nat) := []
  sched : Nat := 0
  tasters : Tbl Taster := []
  slots : Tbl TSlot := []
  srcSeq : Tbl Nat := []
  islands : Tbl IslandState := []
  spares : Tbl Nat := []
  dead : List (Nat × Nat) := []
  corrected : Tbl Nat := []
  failing : List (Nat × Nat) := []
  copying : List (Nat × Nat) := []
  returned : List Byte := []
  accepted : Nat := 0
  nextId : Nat := 1
  cur : Nat := 0
  curSlot : Nat := 0
  subj : Subj := {}
  tape : List Choice := []
  due : List Due := []
  fresh : Nat := 0
  deriving DecidableEq, Repr

/-- The machine right after reset: every client key slot destroyed and slot 0 live (10 R266, 21 R380), the counts the spec
zeroes at zero (02 R51, 09 R244, 10 R263, 22 R392), no partition, group, command or cached copy, and every register
the spec gives no reset value at zero (log entry 3). -/
def State.reset : State := { keys := [(0, { live := true })] }

end Sys2Proof.Machine
end

