-- ==== Sys2Proof/Machine/Ops.lean ====
section
/-! DEFINITION. The named operations over the state: tables, memory, keys, lines and their copies, records the device
writes, events in flight, groups, and taking a fault and returning from one. -/

namespace Sys2Proof.Machine

/-! ### Tables -/

/-- The value at a key. -/
def find {α : Type} : Tbl α → Nat → Option α
  | [], _ => none
  | (j, v) :: t, k => if j = k then some v else find t k

/-- The value at a key, or the value of an unlisted key. -/
def look {α : Type} (t : Tbl α) (k : Nat) (d : α) : α := (find t k).getD d

/-- Set the value at a key, keeping the keys in rising order. -/
def put {α : Type} : Tbl α → Nat → α → Tbl α
  | [], k, v => [(k, v)]
  | (j, u) :: t, k, v =>
    if k < j then (k, v) :: (j, u) :: t else if k = j then (k, v) :: t else (j, u) :: put t k v

/-- Unlist a key. -/
def del {α : Type} : Tbl α → Nat → Tbl α
  | [], _ => []
  | (j, u) :: t, k => if j = k then del t k else (j, u) :: del t k

/-- The list with the entry at an index replaced. -/
def setAt {α : Type} : List α → Nat → α → List α
  | [], _, _ => []
  | _ :: t, 0, v => v :: t
  | u :: t, n + 1, v => u :: setAt t n v

/-- A list of numbers or registers with the entry at an index replaced; entries past its end read as a given value. -/
def setPad {α : Type} (d : α) : List α → Nat → α → List α
  | [], 0, v => [v]
  | [], n + 1, v => d :: setPad d [] n v
  | _ :: t, 0, v => v :: t
  | u :: t, n + 1, v => u :: setPad d t n v

/-- Left fold over a list of a state transformer. -/
def each {α β : Type} (l : List α) (s : β) (f : β → α → β) : β := l.foldl f s

/-! ### Memory -/

/-- What an address holds that memory does not list (log entry 2). -/
def unlisted : Byte := 0

/-- One byte of memory. -/
def peek (m : List Host.Cell) (a : Nat) : Byte := look m a unlisted

/-- Set one byte of memory, keeping the canonical form. -/
def poke (m : List Host.Cell) (a : Nat) (b : Byte) : List Host.Cell :=
  if b = unlisted then del m a else put m a b

/-- The canonical form of memory: addresses strictly rising and no byte listed that an unlisted address reads as. -/
def Memory.wf : List Host.Cell → Bool
  | [] => true
  | [(_, b)] => b != unlisted
  | (a, b) :: (a', b') :: m => decide (a < a') && b != unlisted && Memory.wf ((a', b') :: m)

/-- Consecutive bytes of memory. -/
def peeks (m : List Host.Cell) (a : Nat) : Nat → List Byte
  | 0 => []
  | n + 1 => peek m a :: peeks m (a + 1) n

/-- Set consecutive bytes of memory. -/
def pokes (m : List Host.Cell) (a : Nat) : List Byte → List Host.Cell
  | [] => m
  | b :: bs => pokes (poke m a b) (a + 1) bs

/-! ### Bytes of a line -/

/-- Byte `i` of a line. -/
def lineByte (d : LineData) (i : Nat) : Byte := d.extractLsb' (8 * i) 8

/-- Bytes `lo` to `lo + n - 1` of a line. -/
def lineBytes (d : LineData) (lo n : Nat) : List Byte := (List.range n).map fun i => lineByte d (lo + i)

/-- A line from its bytes, byte 0 first. -/
def lineOf (bs : List Byte) : LineData := BitVec.ofNat 1024 (leNat bs)

/-- The mask of bytes `lo` to `lo + n - 1`. -/
def maskBytes (lo n : Nat) : ByteMask := BitVec.ofNat 128 ((2 ^ n - 1) * 2 ^ lo)

/-- The bits of a line that a byte mask selects. -/
def spread : Nat → ByteMask → Nat
  | 0, _ => 0
  | n + 1, m => spread n m + (if m.getLsbD n then 255 * 256 ^ n else 0)

/-- Replace the masked bytes of a line by those of another. -/
def mergeLine (old new : LineData) (m : ByteMask) : LineData :=
  let sel : LineData := BitVec.ofNat 1024 (spread 128 m)
  (old &&& ~~~sel) ||| (new &&& sel)

/-- A line whose bytes from `lo` are the given ones. -/
def placeBytes (lo : Nat) (bs : List Byte) : LineData := BitVec.ofNat 1024 (leNat bs * 256 ^ lo)

/-- A line with bytes from `lo` replaced. -/
def setBytes (d : LineData) (lo : Nat) (bs : List Byte) : LineData :=
  mergeLine d (placeBytes lo bs) (maskBytes lo bs.length)

/-! ### Parts of the state -/

/-- A core. -/
def coreOf (s : State) (c : Nat) : Core := look s.cores c {}
/-- Replace a core. -/
def setCore (s : State) (c : Nat) (v : Core) : State := { s with cores := put s.cores c v }
/-- Change a core. -/
def modCore (s : State) (c : Nat) (f : Core → Core) : State := setCore s c (f (coreOf s c))

/-- What is kept of a physical line. -/
def lineSt (s : State) (la : Nat) : LineSt := look s.lines la {}
/-- Change what is kept of a physical line. -/
def modLine (s : State) (la : Nat) (f : LineSt → LineSt) : State :=
  { s with lines := put s.lines la (f (lineSt s la)) }

/-- A group by handle. -/
def groupOf (s : State) (h : Nat) : Option Group := find s.groups h
/-- Replace a group. -/
def setGroup (s : State) (h : Nat) (g : Group) : State := { s with groups := put s.groups h g }
/-- Change a group. -/
def modGroup (s : State) (h : Nat) (f : Group → Group) : State :=
  match groupOf s h with
  | some g => setGroup s h (f g)
  | none => s
/-- Change a group's context. -/
def modCtx (s : State) (h : Nat) (f : Ctx → Ctx) : State := modGroup s h fun g => { g with ctx := f g.ctx }

/-- A team by handle. -/
def teamOf (s : State) (t : Nat) : Team := look s.teams t {}
/-- Change a team. -/
def modTeam (s : State) (t : Nat) (f : Team → Team) : State :=
  { s with teams := put s.teams t (f (teamOf s t)) }

/-- A launch by handle. -/
def launchOf (s : State) (l : Nat) : Launch := look s.launches l {}
/-- Change a launch. -/
def modLaunch (s : State) (l : Nat) (f : Launch → Launch) : State :=
  { s with launches := put s.launches l (f (launchOf s l)) }

/-- A partition. -/
def partOf (s : State) (p : Nat) : Partition := look s.parts p {}
/-- Change a partition. -/
def modPart (s : State) (p : Nat) (f : Partition → Partition) : State :=
  match find s.parts p with
  | some v => { s with parts := put s.parts p (f v) }
  | none => s

/-- A command. -/
def cmdOf (s : State) (c : Nat) : Cmd := look s.cmds c { st := .over }
/-- Change a command. -/
def modCmd (s : State) (c : Nat) (f : Cmd → Cmd) : State :=
  match find s.cmds c with
  | some v => { s with cmds := put s.cmds c (f v) }
  | none => s

/-- A number no handle has had. -/
def newId (s : State) : Nat × State := (s.nextId, { s with nextId := s.nextId + 1 })

/-- A fresh free value (log entry 4). -/
def freeWord (s : State) : Word × State := (Config.freeValue s.fresh, { s with fresh := s.fresh + 1 })

/-- The events that are messages already in flight: they happen only when one is (12 R298, 18 R327). -/
def isMessage (ev : Instr) : Bool :=
  match ev with
  | .sinkProbe | .sinkHoldGrant | .sinkInstance | .sinkResult | .nearCacheMiss _ | .nearCacheFill _ _ _ _
  | .nearCacheWriteback _ | .writebackAck _ _ | .storeAck | .homeRead _ _ | .homeReadExclusive _ _ | .homeUpgrade _ _
  | .forwardShared | .forwardExclusive | .forwardReply _ _ _ _ | .noDataReply | .invalidation | .invalidationAck
  | .sliceWriteback _ _ _ _ | .directoryCensus | .censusReply _ _ _ _ _ | .exclusiveGrant _ _ | .homeRelease _
  | .homeAcquire _ | .coreDrain | .drainComplete | .transactionDoom | .homeAtomic _ | .fillFromMemory | .tasterEventArrival _ _ => true
  | _ => false

/-- Put an event in flight behind those already there. One that is no message only says that something may now happen, and
need not be said twice. -/
def send (s : State) (ev : Instr) (subj : Subj := {}) : State :=
  if !isMessage ev && s.due.contains ⟨ev, subj⟩ then s else { s with due := s.due ++ [⟨ev, subj⟩] }

/-- The die of a core. -/
def dieOf (core : Nat) : Nat := core / 64

/-- The launch of a group's team. -/
def launchIdOf (s : State) (g : Group) : Nat := (teamOf s g.team).launch
/-- The launch of a group. -/
def groupLaunch (s : State) (g : Group) : Launch := launchOf s (launchIdOf s g)
/-- The partition of a group. -/
def groupPart (s : State) (g : Group) : Nat := (groupLaunch s g).part

/-- The partition that owns a core. -/
def partOfCore (s : State) (c : Nat) : Nat :=
  match s.parts.find? (fun p => p.2.cores.contains c) with
  | some p => p.1
  | none => 0

/-! ### Tasters' events -/

/-- The Taster that receives a source's events (22 R383). -/
def receivingDie (kind idx : Nat) : Nat :=
  match kind with
  | 0 | 1 => idx / 64
  | 2 => idx / 96
  | _ => 0

/-- Post one Taster event: it takes its source's next sequence number and goes on the sideband (22 R382 to R386). -/
def post (s : State) (code kind idx tenant : Nat) (payload : W32) : State :=
  let src := kind * 4096 + idx
  let n := look s.srcSeq src 0
  let s := { s with srcSeq := put s.srcSeq src ((n + 1) % 256) }
  send s (.tasterEventArrival (receivingDie kind idx)
    { code := code, source := src, tenant := tenant, payload := payload, seq := n })

/-- Post an event of a group's core, charged to the function whose queue accepted its launch (22 R384). -/
def postGroup (s : State) (g : Group) (code : Nat) (payload : W32) : State :=
  post s code 0 g.core (groupLaunch s g).vf payload

/-! ### Keys and sectors -/

/-- The number that tells a slot's key from every other: one more than its key pair's, and 0 for slot 0's. -/
def keyOf (s : State) (slot : Nat) : Nat := (look s.keys slot {}).key

/-- Whether an access of a virtual function passes the check of a slot (10 R267, 21 R380). -/
def slotOk (s : State) (vf slot : Nat) : Bool :=
  let k := look s.keys slot {}
  k.live && k.bound.contains vf

/-- The 64 bytes of the key pair that has a number. -/
def keyPair (n : Nat) : List Nat := numBytes 64 (if n = 0 then Config.deviceKey else n - 1)

/-- The 32 bytes of a sector of the stacks as an access under a slot reads them (10 R265, R266): the plaintext where
the sector was last written under the same key, otherwise what the ciphertext decrypts to. -/
def readSector (s : State) (sec slot : Nat) : BitVec 256 :=
  let plain : BitVec 256 := .ofNat 256 (leNat (peeks s.mem (32 * sec) 32))
  if Config.hostBase ≤ 32 * sec then plain
  else match find s.tags sec with
    | none => plain
    | some (_, key) =>
      if key = keyOf s slot then plain else recrypt (keyPair key) (keyPair (keyOf s slot)) sec plain

/-- A line of the stacks as an access under a slot reads it. -/
def memLine (s : State) (la slot : Nat) : LineData :=
  (readSector s (4 * la + 3) slot ++ readSector s (4 * la + 2) slot ++ readSector s (4 * la + 1) slot
    ++ readSector s (4 * la) slot)

/-- Write the masked bytes of one sector under a slot: the rest is decrypted, merged and encrypted with them
(10 R265). -/
def writeSector (s : State) (la i slot : Nat) (data : LineData) (mask : ByteMask) : State :=
  if (mask.extractLsb' (32 * i) 32) = 0 then s
  else
    let sec := 4 * la + i
    let old : LineData := (readSector s sec slot).setWidth 1024 <<< (256 * i)
    let new := mergeLine old data mask
    { s with
      mem := pokes s.mem (32 * sec) (lineBytes new (32 * i) 32)
      tags := if Config.hostBase ≤ 32 * sec then s.tags else put s.tags sec (slot, keyOf s slot) }

/-- Write the masked bytes of a line to the stacks under a slot. -/
def memWrite (s : State) (la slot : Nat) (data : LineData) (mask : ByteMask) : State :=
  writeSector (writeSector (writeSector (writeSector s la 0 slot data mask) la 1 slot data mask) la 2 slot data mask)
    la 3 slot data mask

/-- All bytes of a line. -/
def allBytes : ByteMask := BitVec.allOnes 128

/-- Write a slice's dirty line back to the stacks under its slot; under a destroyed one nothing is written (10 R267). -/
def memBack (s : State) (la slot : Nat) (data : LineData) : State :=
  if (look s.keys slot {}).live then memWrite s la slot data allBytes else s

/-! ### Homes -/

/-- The channel of a line (19 R345). -/
def channelOf (la : Nat) : Nat := 128 * la / Config.channelBytes

/-- Whether the Press of a channel pauses while the images of its die are loaded (23 R407 step 5). -/
def pressPaused (s : State) (c : Nat) : Bool :=
  s.mgmt.busy && s.mgmt.phase == 2 && leNat (s.mgmt.cur.take 2) == 0x30 && leNat ((s.mgmt.cur.drop 24).take 1) == c / 96

/-- The partition that owns a line's channel. -/
def partOfLine (s : State) (la : Nat) : Nat :=
  match s.parts.find? (fun p => p.2.channels.contains (channelOf la)) with
  | some p => p.1
  | none => match s.parts with
    | p :: _ => p.1
    | [] => 0

/-- The index of a physical line address in a home table (19 R344). -/
def homeIndex (la : Nat) : Nat :=
  bits la 9 0 ^^^ bits la 19 10 ^^^ bits la 29 20 ^^^ bits la 39 30 ^^^ bits la 44 40

/-- The home slice of a line (10 R261, 19 R344). -/
def homeSlice (s : State) (la : Nat) : Nat :=
  (partOf s (partOfLine s la)).home.getD (homeIndex la) 0 % 256

/-- The die of a line's home slice. -/
def homeDie (s : State) (la : Nat) : Nat := homeSlice s la / 64

/-- The local slice of a line on a die: the home where the partition owns no slice of that die (10 R261). -/
def localSlice (s : State) (d la : Nat) : Nat :=
  let p := partOf s (partOfLine s la)
  if p.slices.any (fun x => x / 64 = d) then
    64 * d + bits (p.home.getD (homeIndex la) 0) (6 * d + 13) (6 * d + 8)
  else homeSlice s la

/-- The die whose slice serves a core's misses on a line (10 R261). -/
def localDie (s : State) (core la : Nat) : Nat := localSlice s (dieOf core) la / 64

/-! ### Copies of a line -/

/-- The cores that hold a line exclusively (10 R255). -/
def exclCores (s : State) (la : Nat) : List Nat :=
  (s.cores.filter fun c => match find c.2.near la with
    | some n => n.st == .exclusive
    | none => false).map (·.1)

/-- The die that owns a line in M, O or E, other than the home's. -/
def ownerDie (ls : LineSt) : Option Nat :=
  (ls.copies.find? fun c => c.2.st == .m || c.2.st == .o || c.2.st == .e).map (·.1)

/-- The die that holds a line's vintage authority (12 R299). -/
def authorityDie (ls : LineSt) : Option Nat :=
  (ls.copies.find? fun c => c.2.st == .m || c.2.st == .e).map (·.1)

/-- The directory entry of a line's home slice that covers the line (12 R296). -/
def dirAt (s : State) (la : Nat) : Option DirEnt :=
  s.dir.find? fun e => e.slice = homeSlice s la && decide (e.base ≤ la) && decide (la < e.base + 2 ^ e.span)

/-- Replace one directory entry. -/
def setDir (s : State) (e e' : DirEnt) : State := { s with dir := s.dir.map fun x => if x = e then e' else x }

/-- Record at a line's directory entry which dies hold it: exactly for an entry of one line, in addition to what it
records for a wider one (12 R296). -/
def dirSync (s : State) (la : Nat) : State :=
  match dirAt s la with
  | none => s
  | some e =>
    let cs := (lineSt s la).copies
    let owner := (cs.find? fun c => c.2.st == .m || c.2.st == .o || c.2.st == .e).map fun c => (c.1, c.2.st)
    let sharers := (cs.filter fun c => c.2.st == .s || c.2.st == .o).map (·.1)
    if e.span = 0 then setDir s e { e with owner := owner, sharers := sharers }
    else setDir s e { e with owner := if owner.isSome then owner else e.owner
                             sharers := (e.sharers ++ sharers).eraseDups }

/-- Take the write vintage of a write at the authority (12 R288). -/
def stampWrite (ls : LineSt) (vw : Nat) : LineSt :=
  let wv := max (ls.le + 1) vw
  { ls with wv := wv, le := max ls.le wv }

/-- Grant a read copy: the lease end it carries (12 R286). -/
def grantLease (s : State) (ls : LineSt) (la rv : Nat) : LineSt :=
  { ls with le := max ls.le (max ls.wv rv + (partOf s (partOfLine s la)).step) }

/-- The bytes at the home: its own copy, or those of the stacks under a slot (10 R266: a copy under another slot is
first written back and dropped). -/
def homeData (s : State) (la slot : Nat) : LineData :=
  let ls := lineSt s la
  match ls.home with
  | some d => if ls.slot = slot then d else memLine (memBack s la ls.slot d) la slot
  | none => memLine s la slot

/-- Whether nothing holds a line's requests back at its home: no hold, no transient state (12 R300, 11 R272). -/
def lineFree (s : State) (la : Nat) : Bool :=
  let ls := lineSt s la
  ls.hold.isNone && ls.busy == .idle

/-- Whether the bytes of a line, or a grant of it, are between a slice and its home or a core, so that its home's record
and its copies disagree. -/
def lineMoving (s : State) (la : Nat) : Bool :=
  s.due.any fun d => match d.ev with
    | .sliceWriteback _ l _ _ => l == la
    | .forwardReply _ l _ _ => l == la
    | .exclusiveGrant _ r => r.la == la
    | _ => false

/-- Whether a line may be acted on at its home at once: no hold, no transient state, nothing of it between its holders. -/
def lineReady (s : State) (la : Nat) : Bool := lineFree s la && !lineMoving s la

/-- Whether a grant of a line from a die's slice is on its way to a core. -/
def granting (s : State) (die la : Nat) : Bool :=
  s.due.any fun d => match d.ev with
    | .exclusiveGrant x r => x == die && r.la == la
    | _ => false

/-- Whether a die's slice has a request for a line outstanding at the home (18 R326). -/
def sliceAsked (s : State) (die la : Nat) : Bool :=
  let mine (d : Due) : Bool := match d.ev with
    | .homeRead x r | .homeReadExclusive x r | .homeUpgrade x r => x == die && r.la == la
    | _ => false
  let l := lineSt s la
  s.due.any mine || l.queue.any mine || (match l.busy with
    | .up d _ | .rx d _ _ | .fw d _ | .wb d _ _ | .fill d | .census d _ _ _ => mine d
    | _ => false)

/-- Whether a slice's write-back of a line is on its way. -/
def sliceWbInFlight (s : State) (die la : Nat) : Bool :=
  s.due.any fun d => match d.ev with
    | .sliceWriteback x l _ _ => x == die && l == la
    | _ => false

/-! ### Prefetchers -/

/-- The streams of a prefetcher after a demand miss, and the direction of the stream once it has seen three misses to
consecutive lines of one 64 KiB region (10 R262). -/
def train (cap : Nat) (p : Pref) (la tenant : Nat) : Pref × Option (Int × Nat) :=
  let fits (x : Nat × Int × Nat × Nat) : Bool :=
    x.1 / 512 = la / 512 && ((x.2.1 != -1 && la = x.1 + 1) || (x.2.1 != 1 && la + 1 = x.1))
  match p.streams.find? fits with
  | some (last, _, n, t) =>
    let d : Int := if last < la then 1 else -1
    ({ p with streams := p.streams.map fun x => if fits x && x.1 = last then (la, d, n + 1, t) else x },
     if 3 ≤ n + 1 then some (d, t) else none)
  | none => ({ p with streams := ((la, 0, 1, tenant) :: p.streams).take cap }, none)

/-- The lines a stream fetches ahead, never past its 64 KiB region (10 R262). -/
def ahead (la : Nat) (d : Int) (n : Nat) : List Nat :=
  (List.range n).filterMap fun (i : Nat) =>
    let x : Int := (la : Int) + d * ((i : Int) + 1)
    if 0 ≤ x && x.toNat / 512 = la / 512 then some x.toNat else none

/-- Post one count of a prefetcher (10 R263, 22 R385). -/
def postPref (s : State) (press : Bool) (idx code la tenant : Nat) : State :=
  post s code (if press then 2 else 1) idx tenant (.ofNat 32 la)

/-- Change a slice's prefetcher. -/
def modPrefS (s : State) (sl : Nat) (f : Pref → Pref) : State := { s with prefS := put s.prefS sl (f (look s.prefS sl {})) }
/-- Change a channel's prefetcher. -/
def modPrefP (s : State) (c : Nat) (f : Pref → Pref) : State := { s with prefP := put s.prefP c (f (look s.prefP c {})) }

/-- The first demand access to a prefetched line: used where it had arrived, late where it had not (10 R263). -/
def demand (s : State) (la : Nat) : State :=
  match (lineSt s la).pf with
  | none => s
  | some (t, sl, arrived) =>
    let s := modLine s la fun l => { l with pf := none }
    let s := modPrefS s sl fun p => if arrived then { p with used := p.used + 1 } else { p with late := p.late + 1 }
    postPref s false sl (if arrived then 0x111 else 0x112) la t

/-- A prefetched line leaves its slice before any demand access (10 R263). -/
def unused (s : State) (la : Nat) : State :=
  match (lineSt s la).pf with
  | some (t, sl, true) =>
    let s := modLine s la fun l => { l with pf := none }
    let s := modPrefS s sl fun p => { p with evicted := p.evicted + 1 }
    postPref s false sl 0x113 la t
  | _ => s

/-- A demand miss trains its slice's prefetcher, which asks for up to four lines ahead (10 R262). -/
def missAt (s : State) (sl la slot tenant : Nat) : State :=
  let (p, go) := train 16 (look s.prefS sl {}) la tenant
  let s := { s with prefS := put s.prefS sl p }
  match go with
  | none => s
  | some (d, t) => each (ahead la d 4) s fun s l =>
      if (lineSt s l).poison || (lineSt s l).pf.isSome then s
      else
        let s := modLine s l fun x => { x with pf := some (t, sl, false) }
        let s := modPrefS s sl fun p => { p with issued := p.issued + 1 }
        send (postPref s false sl 0x110 l t) .slicePrefetch { slice := sl, la := l, tenant := t, slot := slot }

/-- A demand fill trains its channel's Press, and finds its line in the buffer, or on its way there, or not (10 R262,
R263). -/
def fillAt (s : State) (la tenant : Nat) : State :=
  let c := channelOf la
  match find (look s.prefP c {}).buffer la with
  | some t => postPref (modPrefP s c fun p => { p with used := p.used + 1, buffer := del p.buffer la }) true c 0x111 la t
  | none =>
    let coming (d : Due) : Bool := d.ev == .pressPrefetch && d.subj.la == la
    let s := match s.due.find? coming with
      | some d => postPref (modPrefP { s with due := s.due.filter fun d => !coming d } c fun p => { p with late := p.late + 1 })
          true c 0x112 la d.subj.tenant
      | none => s
    let (p, go) := train 8 (look s.prefP c {}) la tenant
    let s := { s with prefP := put s.prefP c p }
    match go with
    | none => s
    | some (d, t) => each (ahead la d 8) s fun s l =>
        if (lineSt s l).poison || (find (look s.prefP c {}).buffer l).isSome || s.due.any (fun d => d.ev == .pressPrefetch && d.subj.la == l) then s
        else
          let s := modPrefP s c fun p => { p with issued := p.issued + 1 }
          send (postPref s true c 0x110 l t) .pressPrefetch { channel := c, la := l, tenant := t }

/-- A demand access of a line at a slice under a key slot: a prefetched line counts as used or late, a miss trains the slice's
prefetcher, and, with `fills`, a read of the stack trains the Press (10 R262, R263). -/
def demandAt (s : State) (sl la slot tenant : Nat) (fills : Bool := true) : State :=
  let s := demand s la
  let l := lineSt s la
  let home := l.home.isSome && l.slot = slot
  let here := if sl = homeSlice s la then home else (find l.copies (sl / 64)).isSome
  let s := if here then s else missAt s sl la slot tenant
  if fills && !home && (ownerDie l).isNone then fillAt s la tenant else s

/-- A demand access of a line at its home slice. -/
def demandHome (s : State) (la slot tenant : Nat) : State := demandAt s (homeSlice s la) la slot tenant

/-! ### Slices -/

/-- The key slot a line lies under. -/
def slotOfLine (s : State) (la : Nat) : Nat :=
  if (lineSt s la).home.isSome then (lineSt s la).slot else (look s.tags (4 * la) (0, 0)).1

/-- Whether a slice holds a line: the home its own copy, a slice of another die its die's copy (10 R261). -/
def sliceHas (s : State) (sl : Nat) (l : Nat × LineSt) : Bool :=
  if homeSlice s l.1 = sl then l.2.home.isSome
  else (find l.2.copies (sl / 64)).isSome && localSlice s (sl / 64) l.1 = sl

/-- Whether a slice may give a line up now (18 R326, R327, 16 R322): nothing of it is asked for or moving, and no near cache
that would first be recalled holds it exclusively. -/
def sliceFrees (s : State) (die la : Nat) : Bool :=
  !granting s die la && !sliceAsked s die la && (exclCores s la).isEmpty && (die != homeDie s la || lineReady s la)

/-- A slice gives a line up (18 R327): a die's copy in E, M or O sends a write-back home, one in S goes silently; the home's
own bytes go to the stack. -/
def dropSliceLine (s : State) (die la : Nat) : State :=
  let s := unused s la
  if die = homeDie s la then
    let l := lineSt s la
    let s := match l.home with
      | some d => if l.homeDirty then memBack s la l.slot d else s
      | none => s
    modLine s la fun l => { l with home := none, homeDirty := false }
  else match find (lineSt s la).copies die with
    | none => s
    | some c =>
      let s := modLine s la fun l => { l with copies := del l.copies die }
      if c.st == .s then s else send s (.sliceWriteback die la c.data c.st)

/-- Make room in a slice for a line it does not hold: where it is full, it gives up one that it may (10 R248, 00 R1; which one is
log entry 11). -/
def sliceRoom (s : State) (sl la : Nat) : State :=
  let mine := s.lines.filter (sliceHas s sl)
  if mine.length < Config.sliceLines then s
  else match mine.find? fun l => l.1 != la && sliceFrees s (sl / 64) l.1 with
    | some l => dropSliceLine s (sl / 64) l.1
    | none => s

/-- Fill the home's copy of a line from the stacks under a slot, a copy under another slot being written back and
dropped first (10 R265, R266). -/
def fillHome (s : State) (la slot : Nat) : State :=
  let ls := lineSt s la
  match ls.home with
  | some d =>
    if ls.slot = slot then s
    else
      let s := if ls.homeDirty then memBack s la ls.slot d else s
      modLine s la fun l => { l with home := some (memLine s la slot), homeDirty := false, slot := slot }
  | none =>
    let s := sliceRoom s (homeSlice s la) la
    modLine s la fun l => { l with home := some (memLine s la slot), homeDirty := false, slot := slot }

/-- The bytes of a line that a slice has sent home and that have not arrived (12 R298). -/
def linePassing (s : State) (la : Nat) : Option LineData :=
  s.due.findSome? fun d => match d.ev with
    | .sliceWriteback _ l x st => if l = la && (st == .m || st == .o) then some x else none
    | .forwardReply _ l x true => if l = la then some x else none
    | _ => none

/-- The home takes the bytes of a line that are on their way to it. -/
def takePassing (s : State) (la : Nat) : State :=
  match linePassing s la with
  | some x => modLine s la fun l => { l with home := some x, homeDirty := true }
  | none => s

/-- Bytes written at a home are also in the messages that bring it the line. -/
def patchPassing (s : State) (la : Nat) (data : LineData) (mask : ByteMask) : State :=
  let patch (d : Due) : Due := match d.ev with
    | .sliceWriteback k l x st => if l = la then { d with ev := .sliceWriteback k l (mergeLine x data mask) st } else d
    | .forwardReply k l x m => if l = la then { d with ev := .forwardReply k l (mergeLine x data mask) m } else d
    | _ => d
  { s with due := s.due.map patch }

/-- Merge masked bytes into the home's copy (12 R288); `vw = none` keeps the vintages. -/
def mergeHome (s : State) (la slot : Nat) (data : LineData) (mask : ByteMask) (vw : Option Nat) : State :=
  let s := patchPassing (fillHome s la slot) la data mask
  modLine s la fun l =>
    let l := match vw with
      | some v => stampWrite l v
      | none => l
    { l with home := l.home.map (fun d => mergeLine d data mask), homeDirty := true }

/-- Raise a core's observed vintage (12 R285). -/
def observe (s : State) (c v : Nat) : State := modCore s c fun k => { k with obsv := max k.obsv v }

/-- A core stops serving leased copies whose leases ended before its observed vintage, those still on their way to it included:
they are asked for again. An acquire that stays in the core does this, so that no group of the core then reads what a write
its core has already observed replaced (12 R284, R287, R291; log entry 13). -/
def dropStale (s : State) (c : Nat) : State :=
  let v := (coreOf s c).obsv
  let again (d : Due) : Due := match d.ev with
    | .nearCacheFill r _ _ le => if r.core = c && r.kind == .leased && decide (le < v) then { d with ev := .nearCacheMiss r } else d
    | _ => d
  modCore { s with due := s.due.map again } c fun k =>
    { k with near := k.near.filter fun n => !(n.2.st == .leased && decide (n.2.le < v)) }

/-- Put a core's near-cache line away. -/
def dropNear (s : State) (c la : Nat) : State := modCore s c fun k => { k with near := del k.near la }

/-- Every other die's copy of a line is invalidated; a prefetched one leaves its slice (10 R263). -/
def dropCopies (s : State) (la : Nat) : State :=
  let l := lineSt s la
  let s := match l.pf with
    | some (_, sl, _) => if (find l.copies (sl / 64)).isSome then unused s la else s
    | none => s
  modLine s la fun l => { l with copies := [] }

/-- Merge a near cache's dirty bytes of a line at the line's authority: into the local slice where that holds the line in M or E
under the same key slot, otherwise at the home, every other die's copy being invalidated and an owner's bytes going there first
under their own slot (18 R327, 12 R288, 10 R266). -/
def mergeAuthority (s : State) (c la slot : Nat) (data : LineData) (mask : ByteMask) (vw : Nat) (poisoned : Bool) : State :=
  let d := localDie s c la
  let ls := lineSt s la
  let atHome : State :=
    let s := match ownerDie ls with
      | some o =>
        let cp := look ls.copies o {}
        if cp.st == .e then s else mergeHome s la cp.slot cp.data allBytes none
      | none => s
    mergeHome (dropCopies s la) la slot data mask (some vw)
  let s := match find ls.copies d with
    | some cp =>
      if (cp.st == .m || cp.st == .e) && cp.slot = slot then
        modLine s la fun l =>
          { stampWrite l vw with copies := put l.copies d { cp with st := .m, data := mergeLine cp.data data mask } }
      else atHome
    | none => atHome
  dirSync (if poisoned then modLine s la fun l => { l with poison := true } else s) la

/-- End a core's exclusive ownership of a line: its dirty bytes go to the die's slice or the home, and the copy is dropped
(16 R322, 18 R327). Their acknowledgement goes to the core. -/
def recallNear (s : State) (la : Nat) (c : Nat) : State :=
  match find (coreOf s c).near la with
  | some n =>
    if n.st == .exclusive then
      let s := dropNear s c la
      if n.mask = 0 then s
      else
        let v := (coreOf s c).obsv
        let (id, s) := newId (mergeAuthority s c la n.slot n.data n.mask v n.poison)
        send s (.writebackAck { id := id, core := c, la := la, slot := n.slot, data := n.data, mask := n.mask, vw := v, grp := none
                                drainFor := none, poisoned := n.poison } (lineSt s la).wv)
    else s
  | none => s

/-- Perform a near-cache write-back at the line's authority: a core that holds the line exclusively gives it up first
(16 R322, 18 R327, 12 R288, R293). -/
def performWriteback (s : State) (c la slot : Nat) (data : LineData) (mask : ByteMask) (vw : Nat)
    (poisoned : Bool) : State :=
  let s := each ((exclCores s la).filter fun k => k != c) s fun s k => recallNear s la k
  mergeAuthority s c la slot data mask vw poisoned

/-- Recall every core's exclusive ownership of a line. -/
def recallNears (s : State) (la : Nat) : State := each (exclCores s la) s fun s c => recallNear s la c

/-- Recall exclusive near-cache copies whose local slice is on a die (18 R327). -/
def recallDie (s : State) (die la : Nat) : State :=
  each ((exclCores s la).filter fun c => localDie s c la = die) s fun s c => recallNear s la c

/-! ### The directory -/

/-- A stamp later than every earlier one. -/
def stamp (s : State) : Nat × State := newId s

/-- Count one directory event on a line's entry (12 R297). -/
def dirEvent (s : State) (la : Nat) : State :=
  match dirAt s la with
  | none => s
  | some e =>
    let (u, s) := stamp s
    setDir s e { e with events := min 65535 (e.events + 1), use := u }

/-- The entry of a slice used least recently. -/
def lruEntry (l : List DirEnt) : Option DirEnt :=
  l.foldl (fun b e => match b with
    | some x => if e.use < x.use then some e else b
    | none => some e) none

/-- The home takes the bytes of a line from the die that owns it, whose copy becomes a shared or an owned one (12 R298). -/
def ownerHome (s : State) (la : Nat) : State :=
  match ownerDie (lineSt s la) with
  | some o =>
    let c := look (lineSt s la).copies o {}
    modLine (fillHome s la c.slot) la fun l =>
      { l with
        home := some c.data, homeDirty := l.homeDirty || c.st == .m || c.st == .o
        copies := put l.copies o { c with st := if c.st == .e then .s else .o } }
  | none => s

/-- Bring the bytes of an owning die's slice to the home (12 R299), as far as they are on their way already. With `keep`, an
owner's copy stays as a shared or owned one (R298 Busy-fw); otherwise every other die's copy is invalidated. -/
def bringHome (s : State) (la : Nat) (keep : Bool) : State :=
  let s := ownerHome (takePassing (recallNears s la) la) la
  dirSync (if keep then s else dropCopies s la) la

/-- Give up an entry: every line of its span is recalled from the dies that hold it (12 R296). -/
def evictEntry (s : State) (e : DirEnt) : State :=
  let here := s.lines.filter fun l => decide (e.base ≤ l.1) && decide (l.1 < e.base + 2 ^ e.span)
    && homeSlice s l.1 = e.slice && !l.2.copies.isEmpty
  let s := each here s fun s l => bringHome s l.1 false
  { s with dir := s.dir.filter fun x => !(x.slice = e.slice && x.base = e.base && x.span = e.span) }

/-- Make room among a slice's directory entries: the one used least recently makes way where none is free, one entry at a base
excepted (12 R296). -/
def entryRoom (s : State) (sl but : Nat) : State :=
  let mine := s.dir.filter fun e => e.slice = sl
  if mine.length < 16384 then s else match lruEntry (mine.filter fun e => e.base != but) with
    | some e => evictEntry s e
    | none => s

/-- Make sure a line has a directory entry; a new one covers the line alone, and takes the place of the entry used least
recently where its slice has none free (12 R296, log entry 11). -/
def dirRoom (s : State) (la : Nat) : State :=
  match dirAt s la with
  | some _ => s
  | none =>
    let (u, s) := stamp (entryRoom s (homeSlice s la) (2 ^ 64))
    { s with dir := s.dir ++ [{ slice := homeSlice s la, base := la, use := u }] }

/-- Whether serving a die's request conflicts with a wide entry (12 R297). -/
def conflicts (e : DirEnt) (die : Nat) (excl : Bool) : Bool :=
  let owned := match e.owner with
    | some (o, _) => o != die
    | none => false
  decide (0 < e.span) && (owned || (excl && e.sharers.any fun d => d != die))

/-- The dies an entry records. -/
def recorded (e : DirEnt) : List Nat :=
  (e.sharers ++ (match e.owner with
    | some (o, _) => [o]
    | none => [])).eraseDups

/-- The half of a wide entry that a census leaves (12 R297): the dies that hold lines in it. -/
def halfEntry (e : DirEnt) (upper : Bool) (dies : List Nat) : DirEnt :=
  { e with
    base := if upper then e.base + 2 ^ (e.span - 1) else e.base
    span := e.span - 1
    sharers := e.sharers.filter dies.contains
    owner := match e.owner with
      | some (o, st) => if dies.contains o then some (o, st) else none
      | none => none
    events := 0 }

/-- The recorded dies that hold a line of part of an entry's span, or have one on its way home (12 R297). -/
def halfDies (s : State) (e : DirEnt) (lo hi : Nat) : List Nat :=
  (recorded e).filter fun die => s.lines.any fun l =>
    decide (lo ≤ l.1) && decide (l.1 < hi) && homeSlice s l.1 = e.slice
      && ((find l.2.copies die).isSome || sliceWbInFlight s die l.1)

/-- A request handled at once by the home, which would invalidate, forward or recall a die that a wide entry records, first halves
the entry by a census of the recorded dies, for as long as it conflicts (12 R297). Fuel bounds the halvings. -/
def narrow (fuel : Nat) (s : State) (la : Nat) (excl : Bool) : State :=
  match fuel, dirAt s la with
  | fuel + 1, some e =>
    if e.span = 0 || !(e.owner.isSome || (excl && !e.sharers.isEmpty)) then s
    else
      let mid := e.base + 2 ^ (e.span - 1)
      let halves := [halfEntry e false (halfDies s e e.base mid), halfEntry e true (halfDies s e mid (e.base + 2 ^ e.span))]
      let s := entryRoom s e.slice e.base
      let s := { s with dir := (s.dir.filter fun x => !(x.slice = e.slice && x.base = e.base && x.span = e.span)) ++ halves }
      narrow fuel (dirEvent (post s 0x120 1 e.slice 0xFF (.ofNat 32 (e.span - 1))) la) la excl
  | _, _ => s

/-- Bring the bytes of an owning die's slice to the home (12 R299): with `keep`, an owner's copy stays as a shared or owned one
(R298 Busy-fw); otherwise every other die's copy is invalidated. A wide directory entry is first halved (12 R297). -/
def gather (s : State) (la : Nat) (keep : Bool) : State := bringHome (narrow 10 s la (!keep)) la keep

/-- Every owner of a line recalled and its bytes read at the home under a slot (12 R299). -/
def readAtHome (s : State) (la slot : Nat) : LineData × State :=
  let s := fillHome (gather s la true) la slot
  (homeData s la slot, s)

/-- Read a line for a core: at its die's slice where that holds the line's authority, otherwise at the home (12 R299). -/
def readFor (s : State) (c la slot : Nat) : LineData × State :=
  let d := localDie s c la
  match find (lineSt s la).copies d with
  | some cp =>
    if (cp.st == .m || cp.st == .e) && cp.slot = slot then
      let s := recallNears s la
      ((look (lineSt s la).copies d cp).data, s)
    else readAtHome s la slot
  | none => readAtHome s la slot

/-- Give a die's slice a copy of a line (12 R298): a slice that holds it already keeps its state. -/
def dieCopy (s : State) (die la slot : Nat) (st : Moesi) (data : LineData) : State :=
  let s := sliceRoom s (localSlice s die la) la
  let l := lineSt s la
  let c : DieCopy := match find l.copies die with
    | some c => if c.st == .s then { c with data := data } else c
    | none => { st := st, data := data }
  dirSync (modLine s la fun l => { l with copies := put l.copies die { c with slot := slot, wv := l.wv, le := l.le } }) la

/-- Write the masked bytes of a line at the home: owners are recalled, every other die's copy invalidated, and the write
takes its vintage (12 R288). A write of all 128 bytes clears poison (20 R369). -/
def writeAtHome (s : State) (la slot : Nat) (data : LineData) (mask : ByteMask) (vw : Nat) : State :=
  let s := mergeHome (gather s la false) la slot data mask (some vw)
  if mask = allBytes then modLine s la fun l => { l with poison := false } else s

/-- Whether the step's accesses are performed sector by sector, which a choice of the tape says (12 R282); it is then used up. -/
def takeSplit (s : State) : Bool × State :=
  match s.tape with
  | .split :: rest => (true, { s with tape := rest })
  | _ => (false, s)

/-! ### The device's own records -/

/-- Read consecutive physical bytes at their homes under a slot. -/
def physRead (s : State) (pa n slot : Nat) : List Byte × State :=
  (List.range n).foldl (fun (acc, s) i =>
    let (d, s) := if (pa + i) % 128 = 0 || i = 0 then readAtHome s ((pa + i) / 128) slot
      else (homeData s ((pa + i) / 128) slot, s)
    (acc ++ [lineByte d ((pa + i) % 128)], s)) ([], s)

/-- The line-sized pieces of a run of bytes: line, first byte, bytes. Fuel bounds the number of lines. -/
def pieces (fuel pa : Nat) (bs : List Byte) : List (Nat × Nat × List Byte) :=
  match fuel with
  | 0 => []
  | fuel + 1 =>
    if bs.isEmpty then []
    else
      let lo := pa % 128
      let n := 128 - lo
      (pa / 128, lo, bs.take n) :: pieces fuel (pa + n) (bs.drop n)

/-- Write consecutive physical bytes at their homes under a slot. -/
def physWrite (s : State) (pa : Nat) (bs : List Byte) (slot vw : Nat) : State :=
  each (pieces (bs.length / 128 + 2) pa bs) s fun s (la, lo, p) =>
    writeAtHome s la slot (placeBytes lo p) (maskBytes lo p.length) vw

/-- A little-endian number read from physical memory under a slot. -/
def physNat (s : State) (pa n slot : Nat) : Nat := leNat (physRead s pa n slot).1

/-- Bytes with little-endian fields set in them: offset, size, value. -/
def withFields (bs : List Byte) (fs : List (Nat × Nat × Nat)) : List Byte :=
  each fs bs fun r (off, n, v) => each (List.range n) r fun r i => setAt r (off + i) (BitVec.ofNat 8 (v / 256 ^ i))

/-- A record of that many bytes from its fields, its other bytes zero. -/
def record (size : Nat) (fs : List (Nat × Nat × Nat)) : List Byte := withFields (List.replicate size 0) fs

/-- Append a record to a partition's event ring; a new record overwrites the one written 2^n records earlier
(20 R361). -/
def ringWrite (s : State) (p kind lslot : Nat) (fs : List (Nat × Nat × Nat)) : State :=
  match find s.parts p with
  | none => s
  | some v =>
    let a := v.ring + 64 * (v.seq % 2 ^ v.ringLog)
    let s := physWrite s a (record 64 ([(0, 2, kind), (2, 2, lslot), (4, 4, v.seq)] ++ fs)) 0 0
    modPart s p fun v => { v with seq := (v.seq + 1) % 2 ^ 32 }

/-! ### Futures -/

/-- A future word at its home. -/
def futWord (s : State) (pa : Nat) : Word :=
  let la := pa / 128
  .ofNat 64 (leNat (lineBytes (readAtHome s la (lineSt s la).slot).1 (pa % 128) 8))

/-- Write a future word under a slot as one indivisible operation at `.dev` (09 R228): boosts that waited for the change end
(13 R310), and groups parked on the word may try again. -/
def futPut (s : State) (pa slot : Nat) (w : Word) (vw : Nat) : State :=
  let la := pa / 128
  let data := placeBytes (pa % 128) (leBytes 8 w.toNat)
  let mask := maskBytes (pa % 128) 8
  let s := writeAtHome s la slot data mask vw
  send { s with boosts := s.boosts.filter fun b => b.pa != pa } .futureWake { pa := pa }

/-- Write a future word under the slot it lies under. -/
def futWrite (s : State) (pa : Nat) (w : Word) (vw : Nat) : State :=
  let la := pa / 128
  let slot := match find s.tags (4 * la + pa % 128 / 32) with
    | some (sl, _) => sl
    | none => (lineSt s la).slot
  futPut s pa slot w vw

/-- The key under which a task's record stands: partition and task id. -/
def taskKey (p id : Nat) : Nat := p * 2 ^ 28 + id

/-- A task record. -/
def taskOf (s : State) (p id : Nat) : Task := look s.tasks (taskKey p id) {}

/-- Change a task record. -/
def modTask (s : State) (p id : Nat) (f : Task → Task) : State :=
  { s with tasks := put s.tasks (taskKey p id) (f (taskOf s p id)) }

/-- The state field of a future word. -/
def futState (w : Word) : Nat := bits w.toNat 63 60
/-- The owner or tag field of a future word. -/
def futOwner (w : Word) : Nat := bits w.toNat 59 32

/-- Rewrite the state of every future a task owns from `a` to `b` (09 R228). -/
def futShift (s : State) (p id : Nat) (froms : List Nat) (next : Nat) : State :=
  each (taskOf s p id).owned s fun s pa =>
    let w := futWord s pa
    if froms.contains (futState w) then
      futWrite s pa (.ofNat 64 (next * 2 ^ 60 + w.toNat % 2 ^ 60)) 0
    else s

/-- Every future a task owns becomes faulted with a code, and leaves the task's list (09 R228). -/
def futFault (s : State) (p id code : Nat) : State :=
  if id = 0 then s
  else
    let s := each (taskOf s p id).owned s fun s pa =>
      let w := futWord s pa
      futWrite s pa (.ofNat 64 (7 * 2 ^ 60 + futOwner w * 2 ^ 32 + code)) 0
    { s with tasks := del s.tasks (taskKey p id) }

/-! ### Groups: barriers, counters, registers -/

/-- The registers a group's launch keeps for it; an adopted group has no place of its own, and none are kept (02 R44, R45,
log entry 32). -/
def regMin (s : State) (g : Group) : Nat := if g.outer.isSome then 0 else (groupLaunch s g).rc.regs

/-- Rows a physical register of a group takes (02 R40). -/
def rowsOf (w : Nat) : Nat := w / 16

/-- The groups on a core that hold its slots and registers. -/
def residents (s : State) (c : Nat) : List (Nat × Group) :=
  s.groups.filter fun g => g.2.core = c && (match g.2.run with
    | .retired | .out _ | .saved | .faultHeld => false
    | _ => true)

/-- The rows of a core that are taken or draining (02 R40, R43). -/
def rowsUsed (k : Core) : Nat := (k.pregs.map fun p => p.2.rows).sum

/-- Free a physical register: its generation rises, and it drains while a write to it is in flight (02 R43). -/
def freeReg (k : Core) (pid : Nat) : Core :=
  match find k.pregs pid with
  | none => k
  | some p =>
    let k := { k with pgens := put k.pgens pid (look k.pgens pid 0 + 1) }
    if p.flight = 0 then { k with pregs := del k.pregs pid }
    else { k with pregs := put k.pregs pid { p with draining := true } }

/-- A write in flight to a physical register arrives: a draining register becomes free with its last one (02 R43). -/
def landFlight (k : Core) (pid : Nat) : Core :=
  match find k.pregs pid with
  | none => k
  | some p =>
    if p.flight ≤ 1 && p.draining then { k with pregs := del k.pregs pid }
    else { k with pregs := put k.pregs pid { p with flight := p.flight - 1 } }

/-- The writes of windows that will never arrive are no longer in flight (02 R43). -/
def landWins (s : State) (c : Nat) (ws : List Win) : State :=
  modCore s c fun k => each ((ws.map (·.pids)).flatten.map (·.1)) k landFlight

/-- Free several physical registers and let register-parked groups try again in the order they parked (02 R44). -/
def freeRegs (s : State) (c : Nat) (pids : List Nat) : State :=
  let s := modCore s c fun k => each pids k freeReg
  if pids.isEmpty || (coreOf s c).regQueue.isEmpty then s else send s .registerGrant { core := c }

/-- The lowest number no physical register of a core has. -/
def freePid (k : Core) : Nat :=
  each k.pregs 0 fun n p => if p.1 = n then n + 1 else n

/-- The physical registers a context holds: those mapped, and those its region's checkpoint names. -/
def heldRegs (x : Ctx) : List Nat :=
  (x.v.map fun r => r.2.pid) ++ (match x.ckpt with
    | some c => c.v.map fun r => r.2.pid
    | none => [])

/-- Every physical register a group holds, its shadow's included, each once. -/
def groupRegs (g : Group) : List Nat :=
  (heldRegs g.ctx ++ (match g.shadow with
    | some x => heldRegs x
    | none => [])).eraseDups

/-- Decrement an engine counter of a core (08 R202). -/
def ecDown (s : State) (c ec : Nat) : State :=
  modCore s c fun k => { k with ec := setPad 0 k.ec ec (k.ec.getD ec 0 - 1) }

/-- The groups of a team that have not retired. -/
def liveGroups (s : State) (t : Nat) : List Nat :=
  (teamOf s t).groups.filter fun h => match groupOf s h with
    | some g => g.run != .retired
    | none => false

/-- A context goes on past the barrier at which it waits. -/
def passBar (x : Ctx) (obs : Nat) : Ctx := { x with pc := x.pc + 8, rv := max x.rv obs, phase := 0, barWait := none }

/-- Let a group that waits at barrier `b` go on, with the vintage observed (07 R180, 12 R291). -/
def letPass (b obs : Nat) (s : State) (h : Nat) : State :=
  match groupOf s h with
  | some g => if g.run == .parked (.barrier b) then
      setGroup s h { g with run := .ready, ctx := passBar g.ctx obs }
    else match g.shadow with
      | some x => if x.barWait = some b then setGroup s h { g with shadow := some (passBar x obs) } else s
      | none => s
  | none => s

/-- Let a barrier's phase pass when its arrivals reach the expected count (07 R180). A departing group resumes at the next
word and acquires at scope `.team`: on a pair team its `%rv` rises to the observed vintage of the team's cores. -/
def barrierCheck (s : State) (t b : Nat) : State :=
  let tm := teamOf s t
  let bar := look tm.bars b {}
  if bar.expected ≠ 0 && decide (bar.expected ≤ bar.arrived.length) then
    let s := modTeam s t fun tm => { tm with bars := put tm.bars b {} }
    let obs := if tm.pair then max (coreOf s tm.core).obsv (coreOf s (tm.core + 1)).obsv else 0
    each tm.groups (if tm.pair then s else dropStale s tm.core) (letPass b obs)
  else s

/-! ### Translation -/

/-- A table entry as read at its line's home under slot 0 (20 R364, R367). -/
def tableEntry (s : State) (table i : Nat) : Nat :=
  let a := table + 8 * i
  leNat (lineBytes (readAtHome s (a / 128) 0).1 (a % 128) 8)

/-- Whether an entry is ill-formed at a level (20 R365). -/
def badEntry (lvl e : Nat) : Bool :=
  let leaf := e.testBit 1
  let size := if lvl = 0 then 16 else if lvl = 1 then 21 else 30
  bits e 63 62 != 0 || bits e 11 6 != 0
  || (leaf && decide (3 ≤ lvl)) || (!leaf && lvl == 0)
  || (!leaf && (bits e 5 2 != 0 || bits e 61 52 != 0))
  || (leaf && decide (lvl ≤ 2) && bits e 51 12 * 4096 % 2 ^ size != 0)
  || (leaf && e.testBit 3 && e.testBit 5)

/-- Walk the tables from a level down (20 R364, R365): the leaf, or the translation fault's cause. -/
def walkFrom (s : State) (asid va : Nat) : List (Nat × Nat × Nat) → Nat → Except Nat Leaf
  | [], _ => .error 2
  | (lvl, lo, w) :: rest, table =>
    let e := tableEntry s table (va / 2 ^ lo % 2 ^ w)
    if !e.testBit 0 then .error 1
    else if badEntry lvl e then .error 2
    else if e.testBit 1 then
      .ok { asid := asid, vpage := va / 2 ^ lo, bits := lo, ppage := bits e 51 12 * 4096 / 2 ^ lo, slot := bits e 61 52,
            r := e.testBit 2, w := e.testBit 3, x := e.testBit 4, cow := e.testBit 5 }
    else walkFrom s asid va rest (bits e 51 12 * 4096)

/-- A walk of an address space's tables (20 R363 to R365). -/
def walk (s : State) (root asid va : Nat) : Except Nat Leaf :=
  if 2 ^ 56 ≤ va then .error 3
  else walkFrom s asid va [(4, 48, 8), (3, 39, 9), (2, 30, 9), (1, 21, 9), (0, 16, 5)] root

/-- A cached leaf for an address. -/
def cachedLeaf (ls : List Leaf) (asid va : Nat) : Option Leaf :=
  ls.find? fun l => l.asid = asid && l.vpage = va / 2 ^ l.bits

/-- Cache a leaf in a core's near TLB and its die's translation service, the oldest entries making room (20 R367). -/
def cacheLeaf (s : State) (c : Nat) (l : Leaf) : State :=
  let s := modCore s c fun k => { k with tlb := (l :: k.tlb).take Config.tlbEntries }
  let sv := look s.service (dieOf c) []
  if sv.contains l then s
  else { s with service := put s.service (dieOf c) ((l :: sv).take Config.serviceEntries) }

/-- Translate an address for a core and a virtual function: from the near TLB, else the translation service, else by a
walk; the leaf found is cached (20 R363 to R367). -/
def translate (s : State) (c vf va : Nat) : Except Nat Leaf × State :=
  let f := look s.vfs vf {}
  if 2 ^ 56 ≤ va then (.error 3, s)
  else match cachedLeaf (coreOf s c).tlb f.asid va with
    | some l => (.ok l, s)
    | none => match cachedLeaf (look s.service (dieOf c) []) f.asid va with
      | some l => (.ok l, cacheLeaf s c l)
      | none => match f.root with
        | none => (.error 1, s)
        | some root => match walk s root f.asid va with
          | .ok l => (.ok l, cacheLeaf s c l)
          | .error e => (.error e, s)

/-- The physical address a leaf maps an address to. -/
def leafPa (l : Leaf) (va : Nat) : Nat := l.ppage * 2 ^ l.bits + va % 2 ^ l.bits

/-- What an access needs of a page (07 R158). -/
inductive Need where
  | read | write | both | exec | any
  deriving DecidableEq, Repr

/-- Whether a partition owns the channel of a line; host memory lies on none (19 R345, 20 R363). -/
def ownsLine (p : Partition) (la : Nat) : Bool :=
  decide (Config.hostBase ≤ 128 * la) || p.channels.contains (channelOf la)

/-- Whether a line lies on a channel, or is homed on a slice, that has failed with no spare (23 R404). -/
def deadLine (s : State) (la : Nat) : Bool :=
  s.dead.contains (2, channelOf la) || s.dead.contains (1, homeSlice s la)

/-- Whether a line lies on a partition's page of prefetch counters (10 R264). -/
def onCounters (p : Partition) (la : Nat) : Bool := p.ctr == some (128 * la / 65536)

/-- The permission check of one access on one page (20 R366, 10 R267, R268, 21 R380, 19 R345): the cause of a refusal. -/
def permCause (s : State) (p : Partition) (vf : Nat) (l : Leaf) (need : Need) (la : Nat) : Option Nat :=
  let ctr := onCounters p la
  let rd := match need with
    | .read | .both => !l.r
    | _ => false
  let wr := match need with
    | .write | .both => !l.w
    | _ => false
  if wr && l.cow then some 1
  else if rd || wr || (ctr && (need == .write || need == .both)) then some 0
  else if ctr && need == .read then none
  else if need != .any && !slotOk s vf l.slot then some 2
  else if need != .any && !ownsLine p la then some 3
  else none

/-- The launch's virtual function of a group. -/
def vfOf (s : State) (g : Group) : Nat := (groupLaunch s g).vf

/-- Whether an access of a line finds poison, or a part that has failed (20 R369, 23 R404). -/
def lineBad (s : State) (la : Nat) : Bool := (lineSt s la).poison || deadLine s la

/-- Whether an access of a line by a core finds poison, at the line or in the bytes its own near cache holds (20 R369). -/
def poisonedFor (s : State) (c la : Nat) : Bool := lineBad s la || (look (coreOf s c).near la {}).poison

/-- Check and translate one byte's access of a group (07 R158): physical address and key slot, or code and cause. -/
def checkByte (s : State) (g : Group) (va : Nat) (need : Need) : Except (Nat × Nat) (Nat × Nat) × State :=
  match translate s g.core (vfOf s g) va with
  | (.error e, s) => (.error (0x13, e), s)
  | (.ok l, s) =>
    let pa := leafPa l va
    match permCause s (partOf s (groupPart s g)) (vfOf s g) l need (pa / 128) with
    | some c => (.error (0x14, c), s)
    | none =>
      if need != .any && poisonedFor s g.core (pa / 128) then (.error (0x15, 0), s)
      else (.ok (pa, l.slot), s)

/-- The sectors' pieces of `n` bytes from an address, `pos` bytes into an access. Fuel bounds the sectors. -/
def sectorsFrom : Nat → Nat → Nat → Nat → List (Nat × Nat × Nat)
  | 0, _, _, _ => []
  | fuel + 1, pos, ea, n =>
    let m := min n (32 - ea % 32)
    if m = n then [(pos, ea, n)] else (pos, ea, m) :: sectorsFrom fuel (pos + m) (ea + m) (n - m)

/-- The sectors' pieces of an access (12 R282): position in the access, address, length. -/
def spans (ea n : Nat) : List (Nat × Nat × Nat) := sectorsFrom (n / 32 + 2) 0 ea n

/-- Check and translate one thread's access of `n` bytes: its parts by sector, or code and cause (07 R157, R158). A part's
address past the top of the address space has wrapped (05 R102). -/
def checkAccess (s : State) (g : Group) (t ea n : Nat) (need : Need) : Except (Nat × Nat) (List Part) × State :=
  (spans ea n).foldl (fun (acc, s) (pos, a, m) =>
    match acc with
    | .error e => (.error e, s)
    | .ok ps => match checkByte s g (a % 2 ^ 64) need with
      | (.error e, s) => (.error e, s)
      | (.ok (pa, slot), s) =>
        (.ok (ps ++ [{ t := t, pos := pos, la := pa / 128, slot := slot, lo := pa % 128, n := m }]), s)) (.ok [], s)

/-- Write a record of the device through a group's address space (20 R359); where the address does not translate, nothing
is written (log entry 9). -/
def writeRecord (s : State) (g : Group) (va : Nat) (bs : List Byte) : State :=
  each (pieces (bs.length / 128 + 2) va bs) s fun s (line, lo, p) =>
    match translate s g.core (vfOf s g) (128 * line + lo) with
    | (.ok l, s) =>
      let pa := leafPa l (128 * line + lo)
      writeAtHome s (pa / 128) l.slot (placeBytes (pa % 128) p) (maskBytes (pa % 128) p.length) 0
    | (.error _, s) => s

/-! ### Outstanding operations -/

/-- Count one more outstanding operation of a group (07 R172): its number. -/
def addOut (s : State) (h : Nat) : Nat × State :=
  let (id, s) := newId s
  (id, modGroup s h fun g => { g with out := g.out ++ [id] })

/-- An outstanding operation of a group is acknowledged: it no longer counts, and no command waits for it (07 R172). -/
def ackOut (s : State) (h id : Nat) : State :=
  let s := modGroup s h fun g => { g with out := g.out.filter (· != id) }
  { s with cmds := s.cmds.map fun (c, v) => (c, { v with waits := v.waits.filter (· != id) }) }

/-- An operation that is acknowledged in due course. -/
def outSoon (s : State) (h : Nat) : State :=
  let (id, s) := addOut s h
  send s .storeAck { g := h, n := id }

/-! ### Write-backs on their way -/

/-- Whether a write-back of a line is on its way from a core. -/
def wbInFlight (s : State) (c la : Nat) : Bool :=
  s.due.any fun d => match d.ev with
    | .nearCacheWriteback m => m.core == c && m.la == la
    | _ => false

/-- Whether a core's request for a line can be served: the home holds nothing back, and no write-back of the core's own
is still on its way (12 R281: a thread reads its own earlier writes). -/
def coreLineFree (s : State) (c la : Nat) : Bool := lineFree s la && !wbInFlight s c la

/-- A near-cache line of a core. -/
def nearLine (s : State) (c la : Nat) : Option NcLine := find (coreOf s c).near la

/-- Change a near-cache line. -/
def modNear (s : State) (c la : Nat) (f : NcLine → NcLine) : State :=
  modCore s c fun k => match find k.near la with
    | some n => { k with near := put k.near la (f n) }
    | none => k

/-- Whether a near-cache line holds bytes that its home has not received (12 R292). -/
def NcLine.isDirty (n : NcLine) : Bool := n.st == .dirty || (n.st == .exclusive && n.mask != 0)

/-- Write back a near-cache line, which stays as a read copy, or as a clean exclusive one, or is dropped (07 R170, 18 R327,
12 R288). A lazily released line's bytes leave as a message; an exclusive line's return at once, since ownership and
data return together. `grp` counts it until its acknowledgement; `drain` names the line whose acquire waits for it. -/
def writeBack (s : State) (c la : Nat) (grp drain : Option Nat) (drop : Bool) : State :=
  match nearLine s c la with
  | none => s
  | some n =>
    let (id, s) := match grp with
      | some h => addOut s h
      | none => newId s
    let k := coreOf s c
    let m : WbMsg := { id := id, core := c, la := la, slot := n.slot, data := n.data, mask := n.mask, vw := k.obsv,
                       grp := grp, drainFor := drain, poisoned := n.poison }
    match n.st with
    | .dirty =>
      let s := if drop || n.poison then dropNear s c la else modNear s c la fun n => { n with st := .leased, mask := 0 }
      send s (.nearCacheWriteback m)
    | .exclusive =>
      let s := if drop then dropNear s c la else modNear s c la fun n => { n with mask := 0 }
      let s := if n.mask = 0 then s else performWriteback s c la n.slot n.data n.mask k.obsv n.poison
      send s (.writebackAck m (lineSt s la).wv)
    | _ => if drop then dropNear s c la else s

/-- `CLEAN`, or `INVAL` with `drop`, of one line of a core's near cache (07 R170); `grp` counts what it sends. -/
def maintain (s : State) (c la : Nat) (grp : Option Nat) (drop : Bool) : State :=
  match nearLine s c la with
  | none => s
  | some n => if n.isDirty || (drop && n.st == .exclusive) then writeBack s c la grp none drop
    else if drop then dropNear s c la else s

/-! ### Open regions -/

/-- A pending line becomes an ordinary dirty line: its bytes join the line the near cache holds, or lie dirty in a line of
their own (09 R240, R241). A copy under another key slot is first put away (10 R266). -/
def pendToDirty (s : State) (c : Nat) (p : PendLine) : State :=
  let s := match nearLine s c p.la with
    | some n => if n.slot = p.slot then s else maintain s c p.la none true
    | none => s
  modCore s c fun k =>
    let k := { k with pend := k.pend.filter (· != p) }
    match find k.near p.la with
    | some n =>
      let n := { n with st := if n.st == .exclusive then .exclusive else .dirty, data := mergeLine n.data p.data p.mask
                        mask := n.mask ||| p.mask, dirtied := min n.dirtied p.dirtied }
      { k with near := put k.near p.la n }
    | none =>
      let n : NcLine := { st := .dirty, data := p.data, mask := p.mask, slot := p.slot, use := k.stamp
                          dirtied := p.dirtied, blk := p.blk }
      { k with near := put k.near p.la n }

/-- The pending lines of a group's region become ordinary dirty lines (09 R240, R241): of its own context's region, or, with
`deep`, of the region in its handler's shadow. -/
def settlePend (s : State) (h c : Nat) (deep : Bool := false) : State :=
  each ((coreOf s c).pend.filter fun p => p.g = h && p.t.isNone && p.deep == deep) s fun s p => pendToDirty s c p

/-- Mark the pending lines of a group's region as those of its handler's shadow, or as its own again (09 R245). -/
def deepPend (s : State) (h c : Nat) (deep : Bool) : State :=
  modCore s c fun k => if k.pend.isEmpty then k
    else { k with pend := k.pend.map fun p => if p.g = h && p.t.isNone then { p with deep := deep } else p }

/-- Whether a group has an open region that has not fallen back (02 R39). -/
def inRegion (x : Ctx) : Bool := x.region.getLsbD 0 && !x.region.getLsbD 1

/-- A group's open region falls back (09 R241). -/
def fallBack (s : State) (h : Nat) : State :=
  match groupOf s h with
  | some g => if inRegion g.ctx then
      let s := postGroup s g 0x105 (.ofNat 32 (g.ctx.region.toNat / 8))
      settlePend (setGroup s h { g with ctx := { g.ctx with region := g.ctx.region ||| 2 } }) h g.core
    else s
  | none => s

/-- The region of the context in a group's shadow falls back (09 R241, R245, 10 R256). -/
def fallDeep (s : State) (h : Nat) : State :=
  match groupOf s h with
  | some g => match g.shadow with
    | some x => if inRegion x then
        let s := postGroup s g 0x105 (.ofNat 32 (x.region.toNat / 8))
        settlePend (setGroup s h { g with shadow := some { x with region := x.region ||| 2 } }) h g.core true
      else s
    | none => s
  | none => s

/-! ### Taking a fault and returning -/

/-- Whether every outstanding long-latency operation of a context has completed or faulted (05 R121). -/
def settled (x : Ctx) : Bool :=
  x.wins.all (fun w => w.done || w.fault.isSome)

/-- The state of 01 R20 at an entry: every register zero, no mask, the given threads active. -/
def entryCtx (pc active s0 : Word) (tids : List Nat) (rv allot cls : Nat) (entry : Word) : Ctx :=
  { pc := pc, active := active, live := active, s := s0 :: List.replicate 31 0, taskid := tids, rv := rv,
    allot := allot, cls := cls, entry := entry }

/-- The lowest thread of a mask. -/
def lowest (m : Word) : Nat := ((List.range 64).find? fun t => m.getLsbD t).getD 0

/-- Doom every open transaction of a context with a cause, dropping its pending bytes (07 R184). -/
def doomAll (x : Ctx) (cause : Nat) : Ctx :=
  { x with tx := x.tx.map fun (t, y) =>
      (t, if y.doom = 0 then { y with doom := cause, wlines := [], rlines := [], rbytes := [] } else y) }

/-- Drop the pending lines of a group's transactions: all, or one thread's (07 R184). -/
def dropTxLines (s : State) (h : Nat) (c : Nat) (t : Option Nat) : State :=
  modCore s c fun k => { k with pend := k.pend.filter fun p =>
    !(p.g = h && p.t.isSome && (t.isNone || p.t = t)) }

/-- The 256-byte fault record (20 R359). -/
def faultBytes (r : FaultRec) : List Byte :=
  let (c2, k2, a2) := match r.second with
    | some x => x
    | none => (0, 0, 0)
  record 256 [(0, 1, r.code), (1, 1, r.cause), (2, 1, r.inner), (3, 1, r.innerCause), (4, 1, r.site),
    (5, 1, if r.second.isSome then 1 else 0), (8, 8, r.iaddr.toNat), (16, 8, r.pc.toNat), (24, 8, r.failing.toNat),
    (32, 8, r.eff.toNat), (40, 8, r.va.toNat), (48, 2, r.tcode), (52, 4, r.task), (56, 8, r.helper.toNat),
    (64, 1, c2), (65, 1, k2), (72, 8, a2.toNat)]

/-- Append a group's fault to the event ring, with the group's own handle (20 R361). The task record of an adopted group's
fault names its helper's team (13 R311). -/
def ringFault (s : State) (h : Nat) (g : Group) (r : FaultRec) : State :=
  let l := groupLaunch s g
  let team := match g.outer.bind (groupOf s) with
    | some o => o.team
    | none => g.team
  ringWrite s l.part 3 l.slot
    [(8, 1, r.code), (9, 1, r.cause), (10, 1, r.inner), (11, 1, r.site), (12, 4, r.task), (16, 8, r.iaddr.toNat),
     (24, 8, r.va.toNat), (32, 8, r.failing.toNat), (40, 4, (teamOf s team).num), (44, 2, g.core),
     (46, 1, g.depth), (48, 8, r.helper.toNat), (56, 4, l.tenant), (60, 4, h)]

/-- Halt a group for the driver: it keeps its slot and registers, and a kind 3 record is appended (20 R360). -/
def haltGroup (s : State) (h : Nat) (r : FaultRec) : State :=
  match groupOf s h with
  | none => s
  | some g =>
    let s := setGroup s h { g with run := .halted, frec := some r }
    ringFault s h g r

/-- Where a group's fault record is written: pool + 256 × (256 × core + first slot ÷ 16) (20 R359). -/
def recordAddr (pool core slot0 : Nat) : Nat := pool + 256 * (256 * core + slot0 / 16)

/-- The handler of a code, if the partition's table names one (20 R359). -/
def handlerOf (p : Partition) (code : Nat) : Option Word :=
  let e := p.handlers.getD code 0
  if 1 ≤ code && code < 64 && e.getLsbD 0 then some (.ofNat 64 (bits e.toNat 55 3 * 8)) else none

/-- The record's helper field for an adopted group (20 R359, 13 R311). -/
def helperWord (s : State) (g : Group) : Word :=
  match g.outer with
  | some o => match groupOf s o with
    | some hg => .ofNat 64 (hg.core + hg.slot0 / 256 * 2 ^ 16 + hg.gid * 2 ^ 20 + g.depth * 2 ^ 24)
    | none => 0
  | none => 0

/-- Return a helper to its slot: its `AWAIT` executes again (09 R235, 13 R311). -/
def returnHelper (s : State) (g : Group) : State :=
  match g.outer with
  | some o =>
    let s := modGroup s o fun hg => { hg with run := .ready }
    match groupOf s o with
    | some hg => postGroup s hg 0x103 (.ofNat 32 hg.depth)
    | none => s
  | none => s

/-- The tasks of the threads of a mask. -/
def tasksOf (x : Ctx) (m : Word) : List Nat :=
  ((List.range x.taskid.length).filter fun t => m.getLsbD t).map (fun t => x.taskid.getD t 0) |>.eraseDups

/-- Deliver a fault to the partition's handler for its code, or halt the group for the driver (09 R245, 20 R359, R360).
The record is written at its address in the pool, which `s0` then holds. The handler's call depth and pocket windows are its own, at
zero (log entry 25). -/
def deliver (s : State) (h : Nat) (r : FaultRec) : State :=
  match groupOf s h with
  | none => s
  | some g =>
    let p := partOf s (groupPart s g)
    match handlerOf p r.code with
    | some pc =>
      let a := recordAddr (p.handlers.getD 0 0).toNat g.core g.slot0
      let x := g.ctx
      let y := entryCtx pc x.live (.ofNat 64 a) x.taskid x.rv x.allot x.cls x.entry
      setGroup (deepPend (writeRecord s g a (faultBytes r)) h g.core true) h { g with ctx := y, shadow := some x, frec := some r, run := .ready }
    | none => haltGroup s h r

/-- A group leaves its core: no write of its windows is in flight there any more, and its registers are free; their values
stay with the context (20 R353). -/
def unseat (s : State) (h : Nat) : State :=
  match groupOf s h with
  | none => s
  | some g =>
    let wins := g.ctx.wins ++ (g.shadow.map (·.wins)).getD []
    let s := landWins s g.core wins
    let bare (x : Ctx) : Ctx := { x with wins := x.wins.map (fun w => { w with pids := [] }), ckpt := none }
    freeRegs (setGroup s h { g with ctx := bare g.ctx, shadow := g.shadow.map bare }) g.core (groupRegs g)

/-- The threads a fault is charged to: those that failed, or every live one. -/
def charged (g : Group) (r : FaultRec) : Word := if r.failing = 0 then g.ctx.live else r.failing

/-- A fault's record as it is filed: with the task of the lowest thread charged, and the helper (20 R359). -/
def filedFault (s : State) (g : Group) (r : FaultRec) : FaultRec :=
  { r with task := g.ctx.taskid.getD (lowest (charged g r)) 0, helper := helperWord s g }

/-- What a fault makes of the context it stops: the saved program counter, open transactions doomed with cause 8 (09 R245,
07 R184). -/
def faultCtx (x : Ctx) (r : FaultRec) : Ctx := { doomAll x 8 with pc := r.pc, pending := none, phase := 0 }

/-- What a fault ends beyond its group: the transactions' pending lines, and, except at a breakpoint or a user trap, the
futures of the tasks charged (07 R184, 09 R228). -/
def faultEnds (s : State) (h : Nat) (g : Group) (r : FaultRec) : State :=
  let s := dropTxLines s h g.core none
  if r.code = 0x08 || r.code = 0x09 then s
  else each (tasksOf g.ctx (charged g r)) s fun s id => futFault s (groupPart s g) id r.code

/-- The task records of an adopted group's fault: one for each task charged (09 R235, 13 R311). -/
def ringTasks (s : State) (h : Nat) (g : Group) (r : FaultRec) : State :=
  each (tasksOf g.ctx (charged g r)) s fun s id => ringFault s h g { r with task := id }

/-- An adopted group that faults leaves its helper's slot and waits for the driver (13 R311). The context `x` is what the
fault leaves; `again` is the record of a second fault, in handler mode, which no handler is given (09 R246). -/
def faultLeaves (s : State) (h : Nat) (g : Group) (x : Ctx) (r : FaultRec) (again : Option FaultRec := none) : State :=
  let s := fallBack (setGroup s h { g with ctx := { x with pending := if again.isSome then none else some r }
                                           frec := if again.isSome then again else g.frec }) h
  let s := unseat (modGroup s h fun g => { g with run := .faultHeld, outer := none, depth := 0 }) h
  send (returnHelper (ringTasks s h g r) g) .teamPlacement { part := groupPart s g }

/-- A second fault, in handler mode, joins the record of the first, which is written anew (09 R246, 20 R359). -/
def secondFault (s : State) (g : Group) (r : FaultRec) : FaultRec × State :=
  let q := { g.frec.getD {} with second := some (r.code, r.cause, r.iaddr) }
  let pool := ((partOf s (groupPart s g)).handlers.getD 0 0).toNat
  (q, writeRecord s g (recordAddr pool g.core g.slot0) (faultBytes q))

/-- Take a fault or trap: the one operation by which a group that faults leaves off (05 R120, 09 R245, R246, R228,
20 R359, R360, 13 R311, 07 R184). The record's pc is the saved program counter. A group in handler mode halts with both
faults named; an adopted group leaves its helper's slot; a group whose partition names a handler moves its context to the
shadow and starts there; any other halts for the driver. -/
def takeFault (s : State) (h : Nat) (r : FaultRec) : State :=
  match groupOf s h with
  | none => s
  | some g =>
    let u := faultEnds s h g r
    match g.shadow, g.outer with
    | some _, none =>
      let (q, u) := secondFault u g r
      haltGroup (setGroup u h { g with ctx := faultCtx g.ctx r }) h q
    | some _, some _ =>
      let (q, u) := secondFault u g r
      faultLeaves u h g (faultCtx g.ctx r) (filedFault s g r) (some q)
    | none, some _ => faultLeaves u h g (faultCtx g.ctx r) (filedFault s g r)
    | none, none => deliver (setGroup u h { g with ctx := faultCtx g.ctx r }) h (filedFault s g r)

/-- The oldest fault of a group that waits to be delivered: a window's, else that of the word at the program counter
(05 R121). -/
def oldestFault (x : Ctx) : Option FaultRec :=
  match x.wins.findSome? fun w => if w.left = 0 && !w.sink then w.fault else none with
  | some r => some { r with pc := x.pc }
  | none => x.pending

/-- Raise a fault of the word at the program counter: where nothing long-latency is outstanding the oldest fault pending is
taken at once, an earlier instruction's whose window has ended before this word's, which is fetched again in its turn;
otherwise it is kept until everything outstanding has completed (05 R121). -/
def raise (s : State) (h : Nat) (r : FaultRec) : State :=
  match groupOf s h with
  | none => s
  | some g =>
    if settled g.ctx then takeFault s h ((oldestFault { g.ctx with pending := some r }).getD r)
    else setGroup s h { g with ctx := { g.ctx with pending := some r } }

/-- Return from a handler: its registers are freed, and the shadow context resumes at its saved program counter
(09 R245), or at the barrier where it waits (20 R357). `%rv` does not fall (12 R302). -/
def returnFault (s : State) (h : Nat) : State :=
  match groupOf s h with
  | none => s
  | some g =>
    match g.shadow with
    | none => s
    | some x =>
      let mine := (heldRegs g.ctx).filter fun p => !(heldRegs x).contains p
      let run : Run := match x.barWait with
        | some b => .parked (.barrier b)
        | none => .ready
      freeRegs (setGroup (deepPend s h g.core false) h { g with ctx := { x with rv := max x.rv g.ctx.rv }, shadow := none, frec := none,
                                                                run := run }) g.core mine

end Sys2Proof.Machine
end

