-- ==== Sys2Proof/Machine/Flags.lean ====
section
/-! DEFINITION. The sticky flags of a group (02 R37, 04 R67). -/

namespace Sys2Proof.Machine

/-- Set sticky flags: each raised bit stays set until `WRS` (02 R37). -/
def setFlags (x : Ctx) (fl : Nat) : Ctx := { x with fpflags := (x.fpflags ||| fl) % 64 }

/-- `WRS %fpflags`: bits 5:0 replace the flags (02 R37). -/
def writeFlags (x : Ctx) (v : Word) : Ctx := { x with fpflags := v.toNat % 64 }

/-- The flags all of a list of results raise. -/
def orFlags (l : List Nat) : Nat := l.foldl (fun a b => a ||| b) 0

end Sys2Proof.Machine
end

