-- ==== Sys2Proof/Machine/Operands.lean ====
section
/-! DEFINITION. Operand forms, register reads and writes with renaming, lookahead windows, and the issue of one word:
what it waits for, what it frees and allocates, and what it costs (02 R28 to R51, 05 R97 to R119). -/

namespace Sys2Proof.Machine

/-! ### Reading -/

/-- A mask register; `k0` is the active mask (02 R31). -/
def maskReg (x : Ctx) (n : Nat) : Word := if n = 0 then x.active else x.k.getD n 0

/-- The effective active set (02 R28). -/
def effSet (x : Ctx) (w : Nat) (k : BitVec 3) (kn : Bool) : Word :=
  if k = 0 then x.active
  else x.active &&& (if kn then ~~~(maskReg x k.toNat) else maskReg x k.toNat) &&& fullMask w

/-- One thread's value of a vector register; an unmapped register reads as zero (01 R20). -/
def readV (x : Ctx) (r t : Nat) : W32 :=
  match find x.v r with
  | some v => v.vals.getD t 0
  | none => 0

/-- A uniform register. -/
def readS (x : Ctx) (n : Nat) : Word := x.s.getD n 0

/-- One thread's value of a run of `n` vector registers, the first lowest (02 R31). -/
def readRun (x : Ctx) (r n t : Nat) : Nat :=
  match n with
  | 0 => 0
  | n + 1 => (readV x r t).toNat + 2 ^ 32 * readRun x (r + 1) n t

/-- The thread whose register a neighbour select reads, or none where the operand is zero (02 R47). -/
def nbrThread (w t : Nat) (n : Nbr) (e : Edge) : Option Nat :=
  match n with
  | .self => some t
  | .left => if 0 < t then some (t - 1) else match e with
    | .zero => none
    | .clamp => some t
    | .wrap => some (w - 1)
  | .right => if t + 1 < w then some (t + 1) else match e with
    | .zero => none
    | .clamp => some t
    | .wrap => some 0

/-- A vector source with its neighbour select: the operand's bits. -/
def readNbr (x : Ctx) (w r n t : Nat) (nb : Nbr) (e : Edge) : Nat :=
  match nbrThread w t nb e with
  | some t' => readRun x r n t'
  | none => 0

/-- The immediate of 05 R97 applied by type: bits of the operand's width. -/
def immBits (ty : Ty) (i : Int) : Nat :=
  match ty with
  | .f32 => (intToFloat f32 .rn i).1
  | .f64 => (intToFloat f64 .rn i).1
  | .f16x2 => (intToFloat f16 .rn i).1 * 65537
  | .bf16x2 => (intToFloat bf16 .rn i).1 * 65537
  | _ => wrapInt ty.width i

/-- Source a of one thread, or of the group under U: the low bits of the type's width. -/
def srcA (x : Ctx) (w : Nat) (f : FOps) (ty : Ty) (t : Nat) : Nat :=
  (if f.u then (readS x f.a.toNat).toNat else readNbr x w f.a.toNat ty.regs t f.na f.edge) % 2 ^ ty.width

/-- Source b, or the immediate that stands for it (05 R97). -/
def srcB (x : Ctx) (w : Nat) (f : FOps) (ty : Ty) (t : Nat) : Nat :=
  if f.x0 then immBits ty f.imm
  else (if f.u then (readS x f.b.toNat).toNat else readNbr x w f.b.toNat ty.regs t f.nb f.edge) % 2 ^ ty.width

/-- Source c. -/
def srcC (x : Ctx) (f : FOps) (ty : Ty) (t : Nat) : Nat :=
  (if f.u then (readS x f.c.toNat).toNat else readRun x f.c.toNat ty.regs t) % 2 ^ ty.width

/-- A result of a type extended to its destination (02 R33): 32, 64 or 128 bits of a vector destination, 64 of a uniform
one. -/
def extendTo (ty : Ty) (uni : Bool) (v : Nat) : Nat :=
  let v := v % 2 ^ ty.width
  if ty.signed && decide (ty.width < 32 || (uni && ty.width < 64)) then
    wrapInt (if uni then 64 else 32) (sx v ty.width)
  else v

/-- The writes of one thread's vector result to a run of registers. -/
def wrRun (r n t v : Nat) : List RegWr :=
  match n with
  | 0 => []
  | n + 1 => { reg := r, uni := false, t := t, val := .ofNat 64 (v % 2 ^ 32) } :: wrRun (r + 1) n t (v / 2 ^ 32)

/-- The writes of a result to destination `r`: a uniform register, or one thread's run of vector registers. -/
def wrDst (uni : Bool) (r n t v : Nat) : List RegWr :=
  if uni then [{ reg := r, uni := true, t := 0, val := .ofNat 64 v }] else wrRun r n t v

/-! ### What a word reads, writes and frees -/

/-- The registers a word reads, writes and marks as last read. -/
structure Io where
  vr : List Nat := []
  ur : List Nat := []
  vw : List Nat := []
  uw : List Nat := []
  lr : List Nat := []
  deriving DecidableEq, Repr

/-- A run of registers. -/
def run (r n : Nat) : List Nat := (List.range n).map (r + ·)

/-- Several sets of registers together. -/
def Io.join (a b : Io) : Io := ⟨a.vr ++ b.vr, a.ur ++ b.ur, a.vw ++ b.vw, a.uw ++ b.uw, a.lr ++ b.lr⟩

/-- A source of `n` vector registers, or a uniform one, with its last-read bit. -/
def ioSrc (uni : Bool) (r n : Nat) (lr : Bool) : Io :=
  if uni then { ur := [r] } else { vr := run r n, lr := if lr then run r n else [] }

/-- A destination. -/
def ioDst (uni : Bool) (r n : Nat) : Io := if uni then { uw := [r] } else { vw := run r n }

/-- Sources a, b and c and destination d of a word whose fields are used as its entry says (05 R96). -/
def ioOf (e : Entry) (f : FOps) (ty : Ty) : Io :=
  let src (us : Use) (r : BitVec 6) (lr : Bool) : Io :=
    match us with
    | .typed => ioSrc f.u r.toNat ty.regs lr
    | .one => ioSrc f.u r.toNat 1 lr
    | .uni => { ur := [r.toNat] }
    | _ => {}
  let b := if f.x0 then {} else src e.b f.b f.lrB
  let d : Io := match e.d with
    | .typed => ioDst f.u f.d.toNat ty.regs
    | .one => ioDst f.u f.d.toNat 1
    | .uni => { uw := [f.d.toNat] }
    | _ => {}
  (src e.a f.a f.lrA).join (b.join ((if f.x0 then {} else src e.c f.c f.lrC).join d))

/-- Whether two lists share a number. -/
def meets (a b : List Nat) : Bool := a.any b.contains

/-- What a word reads and writes when its effective active set is this: one that is empty writes nothing (05 R118). -/
def Io.under (io : Io) (eff : Word) : Io := if eff = 0 then { io with vw := [], uw := [] } else io

/-- Whether a word waits for a long-latency result whose window has ended (05 R119). -/
def blocked (x : Ctx) (io : Io) : Bool :=
  x.wins.any fun w => w.left = 0 && !w.discarded && (meets w.vdst (io.vr ++ io.vw) || meets w.udst (io.ur ++ io.uw))

/-- The opcodes that end every window (05 R117). -/
def endsWindows (code : Nat) : Bool :=
  (decide (1 ≤ code) && decide (code ≤ 0x0D)) || (decide (0x90 ≤ code) && decide (code ≤ 0x98))
  || (decide (0xA0 ≤ code) && decide (code ≤ 0xA6)) || code == 0xD1 || (decide (0xE0 ≤ code) && decide (code ≤ 0xE5))

/-- End every window of a context. -/
def endWins (x : Ctx) : Ctx := { x with wins := x.wins.map fun w => { w with left := 0 } }

/-- The words of windows pass: each loses the words just executed (05 R117). -/
def passWins (x : Ctx) (len : Nat) : Ctx :=
  { x with wins := x.wins.map fun w => { w with left := w.left - len } }

/-- A write of registers inside windows discards the results it overlaps (05 R118). -/
def discardWins (x : Ctx) (vw uw : List Nat) : Ctx :=
  { x with wins := x.wins.map fun w =>
      if 0 < w.left && (meets w.vdst vw || meets w.udst uw) then { w with discarded := true } else w }

/-! ### Renaming -/

/-- Last-read bits take effect only while the split stack is empty (01 R22, 03 R57). -/
def lrTakes (x : Ctx) (io : Io) : List Nat := if x.stack.isEmpty then io.lr.eraseDups else []

/-- Whether a register's physical register is named in the open region's checkpoint (09 R240). -/
def inCkpt (x : Ctx) (pid : Nat) : Bool :=
  match x.ckpt with
  | some c => c.v.any fun r => r.2.pid = pid
  | none => false

/-- Unmap registers: those left, and the physical registers to free, the checkpoint's being kept (02 R42, 09 R240). -/
def unmap (x : Ctx) (rs : List Nat) : Ctx × List Nat :=
  let pids := rs.filterMap fun r => (find x.v r).map (·.pid)
  ({ x with v := each rs x.v del }, pids.filter fun p => !inCkpt x p)

/-- The vector registers of a list that a write would give a new physical register (02 R41, R42, 09 R240). -/
def needNew (x : Ctx) (freed vw : List Nat) : List Nat :=
  vw.eraseDups.filter fun r => freed.contains r || (match find x.v r with
    | none => true
    | some v => inCkpt x v.pid)

/-- The rows of a core kept for its other resident groups: for their register minimums, and for the registers they were
granted and have not taken (02 R44, R45). -/
def reserved (s : State) (c : Nat) (but : Nat) : Nat :=
  ((residents s c).map fun (h, g) =>
    if h = but then 0 else (regMin s g - (groupRegs g).length + g.grant) * rowsOf g.w).sum

/-- What allocating physical registers comes to (02 R44). -/
inductive Alloc where
  | ok | trap | park
  deriving DecidableEq, Repr

/-- The registers of a group's minimum that it does not hold yet: its own reservation (02 R44 step 2). -/
def ownShare (s : State) (g : Group) : Nat := regMin s g - (groupRegs g).length

/-- Whether the rows that no other group holds, is owed or was granted hold what `n` new registers take beyond a group's own
reservation (02 R44 step 3). -/
def rowsServe (s : State) (h : Nat) (g : Group) (n : Nat) : Bool :=
  decide (rowsUsed (coreOf s g.core) + reserved s g.core h + (n - ownShare s g) * rowsOf g.w + ownShare s g * rowsOf g.w ≤ Config.rows)

/-- Whether `n` new physical registers may be allocated, when the group would then have `mapped` registers (02 R44): a group
that was granted none takes none ahead of the groups parked for registers, to which freed registers go first. -/
def allocCheck (s : State) (h : Nat) (g : Group) (mapped n : Nat) : Alloc :=
  if n ≠ 0 && g.ctx.allot < mapped then .trap
  else if n ≤ ownShare s g then .ok
  else if rowsServe s h g n && (decide (n - ownShare s g ≤ g.grant) || (coreOf s g.core).regQueue.isEmpty) then .ok
  else .park

/-- Allocate a physical register for a vector register: zero-filled, or holding the checkpoint's values (02 R41,
09 R240). -/
def allocReg (s : State) (g : Group) (r : Nat) (fresh : Bool) : State × Group :=
  let k := coreOf s g.core
  let pid := freePid k
  let vals := match find g.ctx.v r, fresh with
    | some v, false => v.vals
    | _, _ => List.replicate g.w 0
  let g := { g with ctx := { g.ctx with v := put g.ctx.v r { pid := pid, vals := vals } } }
  (setCore s g.core { k with pregs := put k.pregs pid { rows := rowsOf g.w } }, g)

/-- Apply one register write to a context. -/
def applyWr (x : Ctx) (wr : RegWr) : Ctx :=
  if wr.uni then { x with s := setPad 0 x.s wr.reg wr.val }
  else match find x.v wr.reg with
    | some v => { x with v := put x.v wr.reg { v with vals := setPad 0 v.vals wr.t (wr.val.setWidth 32) } }
    | none => x

/-- Write a mask register; `k0` is never written, and bits at W and above read as zero (02 R31). -/
def writeMask (x : Ctx) (w n : Nat) (m : Word) : Ctx :=
  if n = 0 then x else { x with k := setPad 0 x.k n (m &&& fullMask w) }

/-- The vector registers a list of writes names. -/
def vRegs (wr : List RegWr) : List Nat := ((wr.filter fun w => !w.uni).map (·.reg)).eraseDups
/-- The uniform registers a list of writes names. -/
def uRegs (wr : List RegWr) : List Nat := ((wr.filter fun w => w.uni).map (·.reg)).eraseDups

/-- Apply register writes to a group, allocating what they need: registers freed by this word and registers unmapped
before it are zero-filled first (02 R41, R42). Those beyond its minimum are taken from what it was granted (02 R44). -/
def writeRegs (s : State) (g : Group) (wr : List RegWr) : State × Group :=
  let news := needNew g.ctx [] (vRegs wr)
  let left := g.grant - (news.length - ownShare s g)
  let (s, g) := each news (s, g) fun (s, g) r => allocReg s g r (find g.ctx.v r).isNone
  (s, { g with ctx := each wr g.ctx applyWr, grant := left })

/-! ### The cost of issue -/

/-- Draw a grant for a tenant on a core: from its balance, or borrowed from the idle tenant with the largest balance, never past
a debt of twice the budget (19 R340, R341). -/
def drawGrant (s : State) (c tenant : Nat) : State :=
  let p := partOfCore s c
  let v := partOf s p
  let x := look v.tenants tenant {}
  let give (n : Nat) (s : State) : State :=
    modCore s c fun k => { k with tokens := put k.tokens tenant (look k.tokens tenant 0 + n) }
  if 0 < x.balance then
    let n := min 256 x.balance
    give n (modPart s p fun v =>
      { v with tenants := put v.tenants tenant { x with balance := x.balance - n, idle := 0 } })
  else if 2 * x.budget ≤ x.debt then s
  else
    let lenders := v.tenants.filter fun l => l.1 != tenant && decide (2 ^ 14 ≤ l.2.idle) && decide (0 < l.2.balance)
    match lenders with
    | [] => s
    | l :: ls =>
      let (id, y) := ls.foldl (fun a b => if a.2.balance < b.2.balance then b else a) l
      let n := min (min 256 y.balance) (2 * x.budget - x.debt)
      give n (modPart s p fun v =>
        { v with tenants := put (put v.tenants id { y with balance := y.balance - n, credit := y.credit + n }) tenant
                                { x with debt := x.debt + n } })

/-- Charge lane cycles to a group's tenant on its core, drawing grants as the core's run out (19 R339, R340). Where no grant can be
drawn in the middle of a word, the rest of its cycles goes unpaid (log entry 21). Fuel bounds the grants drawn: each holds at
least one token. -/
def charge (fuel : Nat) (s : State) (c tenant n : Nat) : State :=
  let t := look (coreOf s c).tokens tenant 0
  let s := modCore s c fun k => { k with tokens := put k.tokens tenant (t - n) }
  match fuel with
  | 0 => s
  | fuel + 1 =>
    if n ≤ t then s
    else
      let u := drawGrant s c tenant
      if look (coreOf u c).tokens tenant 0 = 0 then s else charge fuel u c tenant (n - t)

/-- Whether a tenant holds, or can draw or borrow, a token on a core (19 R340). -/
def hasTokens (s : State) (c tenant : Nat) : Bool :=
  0 < look (coreOf s c).tokens tenant 0 || 0 < look (coreOf (drawGrant s c tenant) c).tokens tenant 0

/-- A word's issue takes its cluster's opportunity and its lane's cycles (02 R28, R51, 09 R244, 19 R339). -/
def spend (s : State) (h cycles : Nat) : State :=
  match groupOf s h with
  | none => s
  | some g =>
    let cl := g.slot0 / 256
    let n := (coreOf s g.core).opp.getD cl 0
    let s := modCore s g.core fun k =>
      { k with cycles := k.cycles + cycles, opp := setPad 0 k.opp cl ((n + 1) % 2 ^ 32), idle := 0 }
    let s := setGroup s h { g with lastIssue := n }
    let l := launchIdOf s g
    charge cycles (modLaunch s l fun l => { l with tokens := l.tokens + cycles }) g.core (launchOf s l).tenant cycles

/-- The lane cycles of a vector word (02 R28). -/
def laneCycles (w : Nat) (eff : Word) : Nat := max 1 (threadsOf w eff).length

/-! ### Issuing a word that reads and writes registers -/

/-- The current group, if it is resident and ready. -/
def current (s : State) : Option (Nat × Group) :=
  match groupOf s s.cur with
  | some g => if g.run == .ready && g.ctx.pending.isNone then some (s.cur, g) else none
  | none => none

/-- What a word does to registers: its writes, the masks it writes, the flags it raises. -/
structure Res where
  wr : List RegWr := []
  masks : List (Nat × Word) := []
  flags : Nat := 0
  deriving DecidableEq, Repr

/-- A fault of a word: code and cause, the failing threads, the address. -/
structure Bad where
  code : Nat
  cause : Nat := 0
  failing : Word := 0
  va : Nat := 0
  tcode : Nat := 0
  deriving DecidableEq, Repr

/-- The record of a fault precise to the word at the program counter; a user trap saves the next word (09 R247). -/
def badRec (x : Ctx) (eff : Word) (b : Bad) : FaultRec :=
  { code := b.code, cause := b.cause, iaddr := x.pc, pc := if b.code = 0x09 then x.pc + 8 else x.pc, failing := if b.failing = 0 then eff else b.failing,
    eff := eff, va := .ofNat 64 b.va, tcode := b.tcode }

/-- Post that a group parks (22 R385 code 0x104). -/
def postPark (s : State) (g : Group) (reason : Nat) : State := postGroup s g 0x104 (.ofNat 32 reason)

/-- Park a group at the word it is at. -/
def park (s : State) (h : Nat) (why : Why) (reason : Nat) : State :=
  match groupOf s h with
  | none => s
  | some g => postPark (setGroup s h { g with run := .parked why, parkedAt := (coreOf s g.core).cycles }) g reason

/-- Park a group for `n` registers: it joins its core's queue (02 R44, R46). -/
def parkRegs (s : State) (h : Nat) (g : Group) (n : Nat) : State :=
  park (modCore s g.core fun k => { k with regQueue := if k.regQueue.contains h then k.regQueue else k.regQueue ++ [h] }) h (.regs n) 3

/-- Complete a word's effect on registers: windows it overlaps lose their results, last-read registers are freed once
every source is read, results are written, the program counter moves on and the windows' words pass (02 R29, R30,
R42, 05 R117, R118). Registers granted to it that it did not take are kept for it no longer (02 R44). -/
def retire (s : State) (h : Nat) (g : Group) (io : Io) (len cycles : Nat) (r : Res) : State :=
  let x := discardWins g.ctx (vRegs r.wr) (uRegs r.wr)
  let (x, pids) := unmap x (lrTakes g.ctx io)
  let (s, g') := writeRegs s { g with ctx := x } r.wr
  let x := each r.masks g'.ctx fun x (n, m) => writeMask x g.w n m
  let x := setFlags x r.flags
  let x := passWins { x with pc := x.pc + .ofNat 64 (8 * len), phase := 0 } len
  spend (freeRegs (setGroup s h { g' with ctx := x, grant := 0 }) g.core pids) h cycles

/-- The registers a word newly needs, and how many registers would then be mapped (02 R44). -/
def allocNeed (x : Ctx) (io : Io) (vw : List Nat) : Nat × Nat :=
  let freed := lrTakes x io
  let news := needNew x freed vw
  let kept := (x.v.filter fun r => !freed.contains r.1).length
  let added := (vw.eraseDups.filter fun r => freed.contains r || (find x.v r).isNone).length
  (kept + added, news.length)

/-- Issue a word that only reads and writes registers (06 R123). `body` computes the results from the context before the
word, for the effective active set; it may answer a fault, raised before anything changes. A word that must wait for
a long-latency result leaves everything as it was and issues again; so does one that parks for registers. -/
def issue (s : State) (code len : Nat) (k : BitVec 3) (kn uni : Bool) (io : Io)
    (body : Ctx → Nat → Word → Except Bad Res) : Host.Outcome State Fault Refusal :=
  match current s with
  | none => .fault .noGroup
  | some (h, g) =>
    let g := if endsWindows code then { g with ctx := endWins g.ctx } else g
    let eff := effSet g.ctx g.w k kn
    if blocked g.ctx (io.under eff) then .next (setGroup s h g)
    else match body g.ctx g.w eff with
      | .error b => .next (raise (setGroup s h g) h (badRec g.ctx eff b))
      | .ok r =>
        let (mapped, n) := allocNeed g.ctx io (vRegs r.wr)
        match allocCheck s h g mapped n with
        | .trap => .next (raise (setGroup s h g) h (badRec g.ctx eff { code := 0x07 }))
        | .park => .next (parkRegs (setGroup s h g) h g n)
        | .ok => .next (retire s h g io len (if uni then 1 else laneCycles g.w eff) r)

/-- One result per thread of E, or one for the group where U is set and E is not empty (06 R123, 02 R28). -/
def perThread (uni : Bool) (w : Nat) (eff : Word) (f : Nat → Res) : Res :=
  if uni then (if eff = 0 then {} else f 0)
  else
    let rs := (threadsOf w eff).map f
    { wr := (rs.map (·.wr)).flatten, flags := orFlags (rs.map (·.flags)) }

/-- Issue a word of the plain kind: one result of a type per thread from its own sources (06 R123). `op` gives the
result's bits and flags from those of a, b and c. -/
def issueAlu (s : State) (op : Op) (f : FOps) (comp : Nat → Nat → Nat → Nat × Nat) :
    Host.Outcome State Fault Refusal :=
  let ty := f.ty
  issue s op.code 1 f.k f.kn f.u (ioOf op.entry f ty) fun x w eff =>
    .ok (perThread f.u w eff fun t =>
      let (v, fl) := comp (srcA x w f ty t) (srcB x w f ty t) (srcC x f ty t)
      { wr := wrDst f.u f.d.toNat ty.regs t (extendTo ty f.u v), flags := fl })

/-- The mask a comparison writes: its results for the threads of E, the other bits kept (06 R124). -/
def maskResult (x : Ctx) (uni : Bool) (w d : Nat) (eff : Word) (p : Nat → Bool × Nat) : Res :=
  if uni then
    if eff = 0 then {}
    else
      let (b, fl) := p 0
      { masks := [(d, (maskReg x d &&& ~~~eff) ||| (if b then eff else 0))], flags := fl }
  else
    let ts := threadsOf w eff
    { masks := if eff = 0 then [] else [(d, (maskReg x d &&& ~~~eff) ||| maskOf (ts.filter fun t => (p t).1))]
      flags := orFlags (ts.map fun t => (p t).2) }

/-- One more write is in flight to a physical register (02 R43). -/
def noteFlight (k : Core) (pid : Nat) : Core :=
  match find k.pregs pid with
  | some q => { k with pregs := put k.pregs pid { q with flight := q.flight + 1 } }
  | none => k

/-- Open a lookahead window whose result is known at issue (05 R117): the registers to be written are noted, the last-read
bits freed at once (log entry 41), but for a register the result writes again, which reads in the window still see (02 R42); the
result lands when the window has ended. -/
def openWin (s : State) (h : Nat) (g : Group) (io : Io) (len cycles : Nat) (la : Nat) (win : Win) : State :=
  let (id, s) := newId s
  let pids := (io.vw.filterMap fun r => (find g.ctx.v r).map fun v => (v.pid, look (coreOf s g.core).pgens v.pid 0))
  let s := modCore s g.core fun k => each (pids.map (·.1)) k noteFlight
  let x := discardWins g.ctx io.vw io.uw
  let last := lrTakes g.ctx io
  let (x, freed) := unmap x (last.filter fun r => !io.vw.contains r)
  let x := passWins x len
  let x := { x with
    pc := x.pc + .ofNat 64 (8 * len), phase := 0
    wins := x.wins ++ [{ win with srcs := io.vr.map fun r => (List.range g.w).map fun t => readV g.ctx r t
                                  usrcs := io.ur.map (readS g.ctx)
                                  id := id, pc := g.ctx.pc, left := la, vdst := io.vw.eraseDups, udst := io.uw,
                                  pids := pids, frees := win.frees ++ last.filter io.vw.contains }] }
  spend (freeRegs (setGroup s h { g with ctx := x }) g.core freed) h cycles

/-- Issue a long-latency word whose result is computed from registers (05 R117 to R119): the result takes effect when the
window has ended, and takes the registers it needs then (02 R42). -/
def issueLong (s : State) (f : FOps) (io : Io) (body : Ctx → Nat → Word → Except Bad Res) :
    Host.Outcome State Fault Refusal :=
  match current s with
  | none => .fault .noGroup
  | some (h, g) =>
    let eff := effSet g.ctx g.w f.k f.kn
    let uni := f.u
    if blocked g.ctx (io.under eff) then .next s
    else match body g.ctx g.w eff with
      | .error b => .next (raise s h (badRec g.ctx eff b))
      | .ok r =>
        let (mapped, n) := allocNeed g.ctx io (vRegs r.wr)
        match allocCheck s h g mapped n with
        | .trap => .next (raise s h (badRec g.ctx eff { code := 0x07 }))
        | _ =>
          let cycles := if uni then 1 else laneCycles g.w eff
          .next (openWin s h g { io with vw := vRegs r.wr, uw := uRegs r.wr } 1 cycles f.la.toNat
            { id := 0, pc := 0, left := 0, vals := r.wr, flags := r.flags, done := true })

end Sys2Proof.Machine
end

