-- ==== Sys2Proof/Machine/Near.lean ====
section
/-! DEFINITION. A core's near cache: room, evictions, write-backs on their way, the dirty-line cap, pending lines, regions
that fall back and transactions that are doomed for want of room (10 R255 to R257, 12 R287 to R292, 09 R240, R241,
07 R168, R170, R183, R184). -/

namespace Sys2Proof.Machine

/-! ### Pending lines -/

/-- End a region: the checkpoint is released, pending lines become dirty, `%region` is cleared (09 R240). -/
def endRegion (s : State) (h : Nat) : State :=
  match groupOf s h with
  | none => s
  | some g => if g.ctx.region.getLsbD 0 then
      let mapped := g.ctx.v.map fun r => r.2.pid
      let gone := match g.ctx.ckpt with
        | some c => (c.v.map fun r => r.2.pid).filter fun p => !mapped.contains p
        | none => []
      let s := settlePend s h g.core
      let s := modCtx s h fun x => { x with region := 0, ckpt := none }
      freeRegs s g.core gone
    else s

/-- Doom one thread's open transaction with a cause: its pending bytes are dropped (07 R184). -/
def doomThread (s : State) (h t cause user : Nat) : State :=
  match groupOf s h with
  | none => s
  | some g =>
    match find g.ctx.tx t with
    | none => s
    | some y => if y.doom ≠ 0 then s
      else
        let y := { y with doom := cause, user := user, wlines := [], rlines := [], rbytes := [] }
        dropTxLines (setGroup s h { g with ctx := { g.ctx with tx := put g.ctx.tx t y } }) h g.core (some t)

/-! ### Room -/

/-- The next stamp of a core: each use and each first dirtying takes one. -/
def stampOf (s : State) (c : Nat) : Nat × State :=
  let n := (coreOf s c).stamp + 1
  (n, modCore s c fun k => { k with stamp := n })

/-- The near-SRAM blocks that hold near-cache lines (10 R251, R257). -/
def cacheBlocks (k : Core) : List Nat :=
  (List.range 12).filter fun b => !k.blocks.contains b && k.moving != some b

/-- The lines in a block, pending ones included. -/
def blockLines (k : Core) (b : Nat) : Nat :=
  (k.near.filter fun n => n.2.blk = b).length + (k.pend.filter fun p => p.blk = b).length

/-- A block with room for one more line. -/
def roomBlk (k : Core) : Option Nat := (cacheBlocks k).find? fun b => decide (blockLines k b < 1024)

/-- The near-cache line used least recently. -/
def lruLine (k : Core) : Option Nat :=
  (k.near.foldl (fun (best : Option (Nat × Nat)) n => match best with
    | some (_, u) => if n.2.use < u then some (n.1, n.2.use) else best
    | none => some (n.1, n.2.use)) none).map (·.1)

/-- The pending line that was first dirtied longest ago. -/
def oldestPend (l : List PendLine) : Option PendLine :=
  l.foldl (fun best p => match best with
    | some q => if p.dirtied < q.dirtied then some p else best
    | none => some p) none

/-- Make room by a pending line: its region falls back, or its transaction is doomed with cause 4 (10 R256). -/
def yieldPend (s : State) (p : PendLine) : State :=
  match p.t with
  | none => if p.deep then fallDeep s p.g else fallBack s p.g
  | some t => doomThread s p.g t 4 0

/-- Make room for one line in a near cache, evicting the line used least recently, or, where every line is pending, the one
first dirtied longest ago (10 R256). -/
def makeRoom (s : State) (c : Nat) : State :=
  let k := coreOf s c
  if (roomBlk k).isSome then s
  else match lruLine k with
    | some la => maintain s c la none true
    | none => match oldestPend k.pend with
      | none => s
      | some p => maintain (yieldPend s p) c p.la none true

/-- Install a line in a near cache (10 R255, R256). -/
def install (s : State) (c la : Nat) (n : NcLine) : State :=
  let s := if (nearLine s c la).isSome then s else makeRoom s c
  let (u, s) := stampOf s c
  modCore s c fun k =>
    let blk := match find k.near la with
      | some o => o.blk
      | none => (roomBlk k).getD 11
    { k with near := put k.near la { n with use := u, blk := blk } }

/-- Mark a line as used now. -/
def useLine (s : State) (c la : Nat) : State :=
  let (u, s) := stampOf s c
  modNear s c la fun n => { n with use := u }

/-- Put away a core's copies of a line that stand under another key slot, writing them back first where they are dirty; one that
is pending is first handled as for want of room (10 R266, R256, log entry 11). -/
def dropOther (s : State) (c la slot : Nat) : State :=
  let s := each ((coreOf s c).pend.filter fun p => p.la = la && p.slot != slot) s yieldPend
  match nearLine s c la with
  | some n => if n.slot = slot then s else maintain s c la none true
  | none => s

/-- Lines of a core that are dirty or pending, exclusive dirty ones included (12 R292). -/
def dirtyCount (k : Core) : Nat := (k.near.filter fun n => n.2.isDirty).length + k.pend.length

/-- The dirty or pending line of a core that was first dirtied longest ago. -/
def oldestDirty (k : Core) : Option (Nat × Nat × Option PendLine) :=
  let a := k.near.foldl (fun (best : Option (Nat × Nat × Option PendLine)) n =>
    if n.2.isDirty then match best with
      | some (_, u, _) => if n.2.dirtied < u then some (n.1, n.2.dirtied, none) else best
      | none => some (n.1, n.2.dirtied, none)
    else best) none
  match oldestPend k.pend, a with
  | some p, some (_, u, _) => if p.dirtied < u then some (p.la, p.dirtied, some p) else a
  | some p, none => some (p.la, p.dirtied, some p)
  | none, _ => a

/-- Keep within the dirty-line cap before a store makes one more line dirty: the line first dirtied longest ago is written
back, its region first falling back where it is pending; the write-back counts for the storing group (12 R292,
07 R172). A pending line of a transaction dooms its thread, as for room. -/
def capRoom (s : State) (h c : Nat) : State :=
  let k := coreOf s c
  if dirtyCount k < Config.dirtyCap then s
  else match oldestDirty k with
    | none => s
    | some (la, _, none) => writeBack s c la (some h) none false
    | some (la, _, some p) => writeBack (yieldPend s p) c la (some h) none false

/-- Make sure that a core has room for a line that becomes dirty or pending: a free place in its blocks first, then the cap
(10 R256, 12 R292). -/
def storeRoom (s : State) (h c la : Nat) : State :=
  let s := if (nearLine s c la).isSome then s else makeRoom s c
  match nearLine s c la with
  | some n => if n.isDirty then s else capRoom s h c
  | none => capRoom s h c

/-- A read copy of a line from its home for a core, granted at once (12 R286): its bytes, wv and le. The core's local slice
keeps a copy where it is not the home (10 R261, 12 R298). -/
def homeCopy (s : State) (c la slot rv tenant : Nat) : LineData × Nat × Nat × State :=
  let d := localDie s c la
  let s := if d = homeDie s la then s else dirRoom (demandHome s la slot tenant) la
  let (data, s) := readAtHome s la slot
  let s := modLine s la fun l => grantLease s l la rv
  let s := if d = homeDie s la then s else dieCopy s d la slot (if (lineSt s la).copies.isEmpty then .e else .s) data
  let l := lineSt s la
  (data, l.wv, l.le, observe s c l.wv)

/-- A read copy of a line for a core, granted at once: from its local slice where that may serve it, otherwise from the home
(10 R261, 12 R286, R299). -/
def nearCopy (s : State) (c la slot rv tenant : Nat) : LineData × Nat × Nat × State :=
  let d := localDie s c la
  let s := demandAt s (localSlice s (dieOf c) la) la slot tenant (d = homeDie s la)
  match find (lineSt s la).copies d with
  | none => homeCopy s c la slot rv tenant
  | some cp =>
    if cp.slot ≠ slot then homeCopy s c la slot rv tenant
    else if cp.st == .m || cp.st == .e then
      let s := recallNears s la
      let s := modLine s la fun l => grantLease s l la rv
      let l := lineSt s la
      ((look l.copies d cp).data, l.wv, l.le, observe s c l.wv)
    else if rv ≤ cp.le then (cp.data, cp.wv, cp.le, observe s c cp.wv)
    else homeCopy s c la slot rv tenant

/-- The bytes of a line as a store of a core finds them beneath it: its own valid copy, or a fresh one. -/
def baseCopy (s : State) (c la slot rv tenant : Nat) : LineData × Nat × Nat × State :=
  match nearLine s c la with
  | some n => if n.st == .dirty || n.st == .exclusive || (n.st == .leased && decide (rv ≤ n.le)) then (n.data, n.wv, n.le, s)
    else nearCopy s c la slot rv tenant
  | none => nearCopy s c la slot rv tenant

/-- The tenant of a group by handle. -/
def tenantOf (s : State) (h : Nat) : Nat := ((groupOf s h).map fun g => (groupLaunch s g).tenant).getD 0

/-- Write bytes into a core's near cache as a lazily released dirty line, or into the line it holds exclusively
(07 R168). The fetch of the line beneath them is made at once. -/
def nearWrite (s : State) (h c la slot rv : Nat) (data : LineData) (mask : ByteMask) : State :=
  let s := dropOther s c la slot
  let (base, wv, le, s) := baseCopy s c la slot rv (tenantOf s h)
  let s := storeRoom s h c la
  let (u, s) := stampOf s c
  match nearLine s c la with
  | some n =>
    if n.st == .exclusive || n.st == .dirty then
      useLine (modNear s c la fun n => { n with
        data := mergeLine n.data data mask, mask := n.mask ||| mask
        dirtied := if n.isDirty then n.dirtied else u }) c la
    else install s c la { st := .dirty, data := mergeLine base data mask, mask := mask, slot := slot, wv := wv, le := le
                          dirtied := u }
  | none => install s c la { st := .dirty, data := mergeLine base data mask, mask := mask, slot := slot, wv := wv, le := le
                             dirtied := u }

/-- Whether stores of a group, or of one of its threads' transactions, are still held pending. -/
def pends (s : State) (h : Nat) (t : Option Nat) : Bool :=
  match groupOf s h with
  | none => false
  | some g => match t with
    | none => inRegion g.ctx
    | some t => match find g.ctx.tx t with
      | some y => y.doom = 0
      | none => false

/-- Write bytes into a pending line of a region, or of a thread's transaction (09 R240, 07 R183): a line not yet pending takes
the place of the core's own copy, whose dirty bytes are first written back. Where making room for it ends the region's or the
transaction's hold on its lines, the bytes become dirty at once, or are dropped (09 R241, 07 R184). -/
def pendWrite (s : State) (h c : Nat) (t : Option Nat) (la slot rv : Nat) (data : LineData) (mask : ByteMask) : State :=
  let s := dropOther s c la slot
  match (coreOf s c).pend.find? fun p => p.la = la && p.g = h && p.t = t && p.slot = slot && !p.deep with
  | some p =>
    modCore s c fun k => { k with pend := k.pend.map fun q =>
      if q = p then { q with data := mergeLine q.data data mask, mask := q.mask ||| mask } else q }
  | none =>
    let s := storeRoom s h c la
    if !pends s h t then (if t.isNone then nearWrite s h c la slot rv data mask else s)
    else
      let (base, _, _, s) := baseCopy s c la slot rv (tenantOf s h)
      let s := maintain s c la (some h) true
      let (u, s) := stampOf s c
      modCore s c fun k => { k with pend := k.pend ++
        [{ la := la, slot := slot, g := h, t := t, data := mergeLine base data mask, mask := mask, dirtied := u
           blk := (roomBlk k).getD 11 }] }

end Sys2Proof.Machine
end

