-- ==== Sys2Proof/Machine/Groups.lean ====
section
/-! DEFINITION. Groups and teams come and go: thread slots and pocket room, task ids, a group's entry into its slot,
threads that exit, groups and teams that retire (02 R26, R27, R45, 09 R228, R233, R413, 10 R249, R259, 13 R305). -/

namespace Sys2Proof.Machine

/-! ### Room on a core -/

/-- The pocket bytes a group of width `w` with windows of `win` bytes reserves (10 R249). -/
def pocketNeed (w win : Nat) : Nat := w * win + Config.spillBytes

/-- The groups that hold a core's thread slots: of an adoption chain, the outermost (13 R309). -/
def seats (s : State) (c : Nat) : List Group := ((residents s c).map (·.2)).filter fun g => g.outer.isNone

/-- The lowest free block of `w` thread slots of a core, in the lowest cluster with pocket room (02 R27, 10 R249). -/
def freeSeat (s : State) (c w win : Nat) : Option Nat :=
  (List.range 16).findSome? fun cl =>
    let here := (seats s c).filter fun g => g.slot0 / 256 = cl
    let used := (here.map fun g => pocketNeed g.w (groupLaunch s g).rc.pocket).sum
    if Config.pocketPool < used + pocketNeed w win then none
    else ((List.range (256 / w)).map fun i => 256 * cl + w * i).find? fun x =>
      here.all fun g => decide (g.slot0 + g.w ≤ x) || decide (x + w ≤ g.slot0)

/-- The rows that register minimums reserve on a core (02 R45). -/
def minRows (s : State) (c : Nat) : Nat :=
  ((residents s c).map fun (_, g) => regMin s g * rowsOf g.w).sum

/-- Whether a core can take one more group of a launch (02 R45, 10 R249): the slot it would receive. -/
def groupFits (s : State) (c : Nat) (r : Rec) : Option Nat :=
  if Config.rows < minRows s c + r.regs * rowsOf r.w then none else freeSeat s c r.w r.pocket

/-- A core's island returns to its rated clock before anything is placed there (23 R405). -/
def wakeIsland (s : State) (c : Nat) : State :=
  if look s.islands c .nominal == .gated then { s with islands := put s.islands c .nominal } else s

/-- Whether a core takes no new team: it leaves its partition, its die is being updated, or a spare is taking its place
(19 R346, 23 R403, R407). -/
def coreShut (s : State) (p c : Nat) : Bool :=
  (partOf s p).removing.contains c || (partOf s p).closed.contains (dieOf c) || s.copying.contains (0, c)

/-- A launch's groups run on a core (18 R328). -/
def noteRan (s : State) (l c : Nat) : State :=
  modLaunch s l fun l => if l.ran.contains c then l else { l with ran := l.ran ++ [c] }

/-- A new group in its slot; it counts as having last issued just before (02 R51). -/
def addGroup (s : State) (g : Group) : Nat × State :=
  let (h, s) := newId (wakeIsland s g.core)
  let n := (coreOf s g.core).opp.getD (g.slot0 / 256) 0
  (h, setGroup s h { g with lastIssue := (n + 2 ^ 32 - 1) % 2 ^ 32 })

/-! ### Task ids -/

/-- The records a partition's casks and overflow areas hold. -/
def recordsOf (s : State) (p : Nat) : List SpawnRec :=
  ((s.cores.map fun c => (c.2.casks.map fun k => k.2.recs).flatten).flatten.filter fun r => (launchOf s r.launch).part = p)
    ++ ((partOf s p).ov.map (·.2)).flatten

/-- Whether a live thread of a partition holds a task id (09 R228). -/
def taskHeld (s : State) (p id : Nat) : Bool :=
  s.groups.any fun (_, g) => g.run != .retired && groupPart s g = p
    && (threadsOf g.w g.ctx.live).any fun t => g.ctx.taskid.getD t 0 = id

/-- Whether a task of a partition has not retired (09 R413): one of a killed team that is to run again keeps its id (20 R362). -/
def taskLives (s : State) (p id : Nat) : Bool :=
  taskHeld s p id || (recordsOf s p).any (fun r => r.task = id)
    || s.teams.any fun t => t.2.st == .waiting && t.2.task = id && (launchOf s t.2.launch).part = p

/-- Take the next task id, skipping those of tasks that live (09 R413). Fuel bounds the ids skipped. -/
def takeTask (fuel : Nat) (s : State) (p : Nat) : Nat × State :=
  let id := (partOf s p).nextTask
  let s := modPart s p fun v => { v with nextTask := if id + 1 = 2 ^ 28 then 1 else id + 1 }
  match fuel with
  | 0 => (id, s)
  | fuel + 1 => if taskLives s p id then takeTask fuel s p else (id, s)

/-- A bound on the task ids that live. -/
def taskFuel (s : State) (p : Nat) : Nat := 64 * s.groups.length + s.teams.length + (recordsOf s p).length + 1

/-- Threads exit: a task none of whose threads lives any more loses the futures it still owns (09 R228). -/
def endThreads (s : State) (h : Nat) (m : Word) : State :=
  match groupOf s h with
  | none => s
  | some g =>
    let p := groupPart s g
    let s := setGroup s h { g with ctx := { g.ctx with live := g.ctx.live &&& ~~~m
                                                       tx := g.ctx.tx.filter fun y => !m.getLsbD y.1 } }
    let s := modCore s g.core fun k => { k with pend := k.pend.filter fun q =>
      !(q.g = h && (match q.t with
        | some t => m.getLsbD t
        | none => false)) }
    each (tasksOf g.ctx m) s fun s id => if taskHeld s p id then s else futFault s p id 0x30

/-! ### Commands left behind -/

/-- Register `i` of a command's captured operands. -/
def Cmd.reg (c : Cmd) (i : Nat) : Word := c.regs.getD i 0

/-- A rectangle of the tile accumulator store (08 R207): rows, columns, first row and column, K. -/
structure Shape where
  m : Nat
  n : Nat
  row : Nat
  col : Nat
  k : Nat
  deriving DecidableEq, Repr

/-- The rectangle a shape register describes. -/
def shapeOf (w : Word) : Shape :=
  let x := w.toNat
  { m := 16 * (bits x 4 0 + 1), n := 16 * (bits x 8 5 + 1), row := 16 * bits x 13 9, col := 16 * bits x 17 14, k := bits x 47 24 }

/-- The shape register of a tile command. -/
def Cmd.shape (c : Cmd) : Shape :=
  shapeOf (match c.kind with
    | .tmma => c.reg 4
    | .tstore => c.reg 3
    | _ => c.reg 0)

/-- Whether a command can no longer be cancelled: a `TZERO` that has left the dependency table completes, and so does a `TSTORE`
that has written its flag word (08 R214, R215, R226). -/
def Cmd.closing (c : Cmd) : Bool :=
  match c.kind with
  | .tzero => c.st != .waiting
  | .tstore => decide (c.shape.m < c.prog)
  | _ => false

/-- A command is cancelled: it starts no more accesses, and its end follows (08 R226). -/
def cancelCmd (s : State) (c : Nat) : State :=
  let v := cmdOf s c
  if v.closing then s
  else match v.st with
  | .over | .cancelled => s
  | _ => send (modCmd s c fun v => { v with st := .cancelled }) .engineCommandComplete { cmd := c }

/-- The last group of a team has retired: its commands into its own scratch and tile are cancelled, the rest run on; its
scratch, pockets and accumulators follow once they are done (10 R259, R260), and so may its launch (17 R325). -/
def teamRetires (s : State) (t : Nat) : State :=
  let tm := teamOf s t
  let s := modTeam s t fun tm => { tm with st := if tm.st == .killed then .killed else .retired }
  let s := each (s.cmds.filter fun c => c.2.team = t && (c.2.toScratch || c.2.kind == .tmma || c.2.kind == .tzero)) s
    fun s c => cancelCmd s c.1
  let s := send s .granuleRelease { team := t }
  let s := send s .launchCompletion { launch := tm.launch }
  send s .teamPlacement { part := (launchOf s tm.launch).part }

/-- A group retires (03 R59, 02 R42, R43): its region ends as `COMMIT` ends it, its registers are freed, results on their
way will find no one, faults not yet delivered are dropped, barriers that count it count one fewer, and an adopted
group's helper returns. -/
def retireGroup (s : State) (h : Nat) : State :=
  let s := dropTxLines (endRegion s h) h ((groupOf s h).getD {}).core none
  match groupOf s h with
  | none => s
  | some g =>
    let wins := (g.ctx.wins.filter fun w => w.fault.isNone).map fun w => { w with left := 0, discarded := true }
    let pids := groupRegs g
    let s := landWins s g.core ((g.ctx.wins.filter fun w => w.fault.isSome) ++ (g.shadow.map (·.wins)).getD [])
    let s := setGroup s h { g with run := .retired, shadow := none, frec := none, grant := 0
                                   ctx := { g.ctx with v := [], wins := wins, tx := [], live := 0, active := 0
                                                       pending := none
                                                       sinks := g.ctx.sinks.filter fun k => wins.any fun w => w.id = k.1 } }
    let s := freeRegs s g.core pids
    let s := each (List.range 16) s fun s b =>
      let bar := look (teamOf s g.team).bars b {}
      if bar.every && bar.expected ≠ 0 then
        let bar := { bar with expected := bar.expected - 1 }
        barrierCheck (modTeam s g.team fun tm => { tm with bars := put tm.bars b bar }) g.team b
      else s
    let s := if g.outer.isSome then send s .adoptionReturn { g := h } else s
    if (liveGroups s g.team).isEmpty then teamRetires s g.team else s

/-! ### Groups from records -/

/-- The context of a group whose threads start from records (09 R233, 13 R305), its registers still to be given. -/
def recordCtx (r : Rec) (recs : List SpawnRec) : Ctx :=
  let n := recs.length
  let ids := (recs.map (·.task)) ++ List.replicate (r.w - n) 0
  entryCtx ((recs.map (·.entry)).headD 0) (fullMask n) r.arg ids ((recs.map fun x => max x.rv x.seen).foldl max 0) 64 r.cls
    ((recs.map (·.entry)).headD 0)

/-- Give the argument words of records to the threads that start from them, in `v0` up (09 R233). -/
def giveArgs (s : State) (h : Nat) (recs : List SpawnRec) : State :=
  match groupOf s h with
  | none => s
  | some g =>
    let n := (recs.map fun r => r.args.length).foldl max 0
    let wr := ((List.range recs.length).map fun t =>
      (List.range n).map fun i =>
        ({ reg := i, uni := false, t := t
           val := (((recs.getD t {}).args.getD i 0).setWidth 64) } : RegWr)).flatten
    let (s, g) := writeRegs s g wr
    setGroup s h g

/-- A team of one group formed from records, in a slot of a core (13 R305): its handle. Each task's futures pass from
unstarted to running (09 R228). `outer` and `depth` place it in an adoption chain. -/
def formRecords (s : State) (c slot0 launch : Nat) (recs : List SpawnRec) (outer : Option Nat) (depth : Nat) :
    Nat × State :=
  let l := launchOf s launch
  let (t, s) := newId s
  let (h, s) := addGroup s { team := t, gid := 0, w := l.rc.w, core := c, slot0 := slot0, ctx := recordCtx l.rc recs
                             outer := outer, depth := depth, win := l.rc.pocket }
  let s := modTeam s t fun _ => { launch := launch, num := 2 ^ 64 - 1, cask := true, groups := [h], core := c
                                  st := .resident }
  let s := giveArgs (noteRan s launch c) h recs
  (h, each recs s fun s r => futShift s l.part r.task [3] 1)

end Sys2Proof.Machine
end

