-- ==== Sys2Proof/Machine/Schedule.lean ====
section
/-! DEFINITION. Fetching a word, which group issues next, what ends a wait, and the passing of time (02 R51 to R53,
05 R91 to R94, 00 R2). -/

namespace Sys2Proof.Machine

/-- The code and cause of a fetch that fails: a fetch fault (05 R92), or the poison fault that every access of a poisoned line
raises (20 R369, log entry 39). -/
abbrev FetchBad := Nat × Nat

/-- Fetch one word for a group (05 R92). -/
def fetchWord (s : State) (g : Group) (va : Nat) : Except FetchBad Word × State :=
  match translate s g.core (vfOf s g) va with
  | (.error _, s) => (.error (0x04, 2), s)
  | (.ok l, s) =>
    let pa := leafPa l va
    if !l.x then (.error (0x04, 3), s)
    else if !slotOk s (vfOf s g) l.slot then (.error (0x04, 4), s)
    else if !ownsLine (partOf s (groupPart s g)) (pa / 128) then (.error (0x04, 5), s)
    else if lineBad s (pa / 128) then (.error (0x15, 0), s)
    else (.ok (.ofNat 64 (leNat (lineBytes (readAtHome s (pa / 128) l.slot).1 (pa % 128) 8))), s)

/-- Fetch `n` words from an address. -/
def fetchWords (s : State) (g : Group) (va : Nat) : Nat → Except FetchBad (List Word) × State
  | 0 => (.ok [], s)
  | n + 1 =>
    match fetchWord s g va with
    | (.error e, s) => (.error e, s)
    | (.ok w, s) =>
      match fetchWords s g (va + 8) n with
      | (.error e, s) => (.error e, s)
      | (.ok ws, s) => (.ok (w :: ws), s)

/-- Fetch the instruction at a group's program counter: its words, their number decided by the first (05 R91). -/
def fetchInstr (s : State) (g : Group) : Except FetchBad (List Word) × State :=
  match fetchWord s g g.ctx.pc.toNat with
  | (.error e, s) => (.error e, s)
  | (.ok w, s) =>
    match fetchWords s g (g.ctx.pc.toNat + 8) (instrLen w - 1) with
    | (.error e, s) => (.error e, s)
    | (.ok ws, s) => (.ok (w :: ws), s)

/-- The instruction that words are, or the illegal-instruction event (05 R108). -/
def decodeOr (ws : List Word) : Instr :=
  match decode ws with
  | .ok i => i
  | .error _ => .illegalInstruction (ws.headD 0)

/-- Whether a sink group of a context is in progress and has not met a fault (07 R191). -/
def sinkRuns (x : Ctx) : Bool := x.sinks.any fun k => !x.wins.any fun w => w.id = k.1 && w.fault.isSome

/-- Whether a group is held for want of tokens (19 R340). -/
def heldGroup (s : State) (g : Group) : Bool := !hasTokens s g.core (groupLaunch s g).tenant

/-- Whether a fault of a group waits to be delivered (05 R120). -/
def faultWaits (x : Ctx) : Bool :=
  x.pending.isSome || x.wins.any (fun w => w.left = 0 && !w.sink && w.fault.isSome)

/-- Whether a group stops issuing because its team, or that of the outermost group of its adoption chain, is being saved
(20 R350). Fuel bounds the chain. -/
def stopped (fuel : Nat) (s : State) (g : Group) : Bool :=
  (teamOf s g.team).saving.isSome || (match fuel, g.outer with
    | fuel + 1, some o => match groupOf s o with
      | some og => stopped fuel s og
      | none => false
    | _, _ => false)

/-- Whether a vintage has come within 2^40 of the top (12 R302). -/
def nearTop (v : Nat) : Bool := decide (2 ^ 48 ≤ v + 2 ^ 40)

/-- Whether a vintage of a partition has come so far that the partition is to be rebased (12 R302). -/
def rebaseDue (s : State) (p : Nat) : Bool :=
  s.lines.any (fun l => (nearTop l.2.wv || nearTop l.2.le) && partOfLine s l.1 == p)
  || s.groups.any (fun g => nearTop g.2.ctx.rv && groupPart s g.2 == p)
  || (partOf s p).cores.any fun c => nearTop (coreOf s c).obsv

/-- Whether a partition's groups stop issuing while it is quiesced: it is to be rebased, or a spare is to take over one of its
slices (12 R302, 23 R403). -/
def quiescing (s : State) (p : Nat) : Bool :=
  rebaseDue s p || s.failing.any fun f => f.1 = 1 && (partOf s p).slices.contains f.2

/-- Whether nothing but its run state keeps a group from issuing: threads are active, no fault is to be delivered first, its
tenant has tokens, its team is not being saved, its next word is not known to wait for a source (02 R51), and its partition is not
quiesced. -/
def unheld (s : State) (g : Group) : Bool :=
  g.ctx.active != 0 && !g.stall && !faultWaits g.ctx && !heldGroup s g && !stopped 5 s g && !quiescing s (groupPart s g)

/-- Whether some other group of a group's cluster is ready (02 R51, 06 R127). -/
def othersReady (s : State) (g : Group) : Bool :=
  s.groups.any fun o => o.2 != g && o.2.core = g.core && o.2.slot0 / 256 = g.slot0 / 256 && o.2.run == .ready && unheld s o.2

/-! ### Room for records -/

/-- The casks of a core bound to a key: at most one. -/
def caskFor (k : Core) (launch : Nat) (entry : Word) : Option (Nat × Cask) :=
  k.casks.find? fun x => x.2.launch = launch && x.2.entry = entry

/-- A free cask of a core. -/
def freeCask (k : Core) : Option Nat := (List.range 16).find? fun i => (find k.casks i).isNone

/-- The cask a core puts records of a key into: its own with room, else a free one (13 R304). -/
def caskRoom (k : Core) (launch : Nat) (entry : Word) : Option (Nat × Cask) :=
  match caskFor k launch entry with
  | some (i, c) => if c.recs.length < 64 then some (i, c) else none
  | none => (freeCask k).map fun i => (i, { launch := launch, entry := entry, since := k.cycles })

/-- Whether a die's overflow area has room. -/
def ringRoom (s : State) (p d : Nat) : Bool :=
  let v := partOf s p
  decide ((look v.ov d []).length < 2 ^ v.ovLog)

/-- Whether a core has that many rows free, beyond what it keeps for its groups (02 R44). -/
def rowsFree (s : State) (c n : Nat) : Bool := decide (rowsUsed (coreOf s c) + reserved s c 0 + n ≤ Config.rows)

/-- Whether a group that waits for room in its die's overflow area may adopt from it (13 R307): its depth is below 4, and the
registers of the oldest record are free. -/
def ringAdopts (s : State) (g : Group) : Bool :=
  match look (partOf s (groupPart s g)).ov (dieOf g.core) [] with
  | r :: _ => decide (g.depth < 4) && rowsFree s g.core (r.args.length * rowsOf (launchOf s r.launch).rc.w)
  | [] => false

/-- Whether what a parked group waits for has come about, so that its word may issue again (02 R53). A group parked on a
future, on a barrier or for registers is resumed by the event that ends its wait. -/
def wakes (s : State) (g : Group) : Why → Bool
  | .await _ _ | .barrier _ => false
  | .scratch lines => lines.all fun l => !(teamOf s g.team).absent.any fun a => a.1 = l
  | .regs _ => false
  | .engine ec v => decide ((coreOf s g.core).ec.getD ec 0 ≤ v)
  | .counterFull ec => decide ((coreOf s g.core).ec.getD ec 0 < 65535)
  | .depTable => decide ((coreOf s g.core).dep.length < Config.depEntries)
  | .outstanding => g.out.isEmpty
  | .sinkDone => !sinkRuns g.ctx
  | .spawnRoom e =>
    ringRoom s (groupPart s g) (dieOf g.core) || (caskRoom (coreOf s g.core) (launchIdOf s g) e).isSome || ringAdopts s g
  | .yielding start n =>
    decide (n ≤ ((coreOf s g.core).opp.getD (g.slot0 / 256) 0 + 2 ^ 32 - start) % 2 ^ 32) || !othersReady s g

/-- Whether a group may take an issue opportunity: ready, or parked on what has come about, with nothing else in its way
(02 R51). -/
def issuable (s : State) (g : Group) : Bool :=
  unheld s g && (match g.run with
    | .ready => true
    | .parked w => wakes s g w
    | _ => false)

/-- Whether a live thread of a group belongs to a task. -/
def holdsTask (g : Group) (id : Nat) : Bool := (threadsOf g.w g.ctx.live).any fun t => g.ctx.taskid.getD t 0 = id

/-- A group's class in force: its set class, or a boost of higher priority (13 R310). -/
def classOf (s : State) (g : Group) : Nat :=
  ((s.boosts.filter fun b => b.part = groupPart s g && holdsTask g b.task).map (·.cls)).foldl min g.ctx.cls

/-- The opportunities since a group's last issue, counted modulo 2^32 (02 R51). -/
def sinceIssue (s : State) (g : Group) : Nat :=
  ((coreOf s g.core).opp.getD (g.slot0 / 256) 0 + 2 ^ 32 - g.lastIssue) % 2 ^ 32

/-- The better of two candidates of one class: the one that issued least recently, then the lower first slot. -/
def older (s : State) (a b : Nat × Group) : Nat × Group :=
  if sinceIssue s a.2 < sinceIssue s b.2 then b
  else if sinceIssue s a.2 = sinceIssue s b.2 && b.2.slot0 < a.2.slot0 then b else a

/-- The group one cluster's opportunity goes to (02 R51). -/
def chooseIn (s : State) (c cl : Nat) : Option Nat :=
  let cands := s.groups.filter fun g => g.2.core = c && g.2.slot0 / 256 = cl && issuable s g.2
  let n := (coreOf s c).opp.getD cl 0 % 32
  let of_ (k : Nat) := cands.filter fun g => classOf s g.2 = k
  let turn := if 29 ≤ n then of_ (n - 28) else []
  let best := (List.range 4).map of_ |>.find? (fun l => !l.isEmpty)
  let cls := if turn.isEmpty then best.getD [] else turn
  match cls with
  | [] => none
  | g :: gs => some (gs.foldl (older s) g).1

/-- The clusters that hold an issuable group. -/
def busyClusters (s : State) : List (Nat × Nat) :=
  ((s.groups.filter fun g => issuable s g.2).map fun g => (g.2.core, g.2.slot0 / 256)).eraseDups

/-- The group that issues next where no choice is made: the first busy cluster's. -/
def chooseGroup (s : State) : Option Nat :=
  match busyClusters s with
  | [] => none
  | (c, cl) :: _ => chooseIn s c cl

/-- The group with a fault ready to be delivered: nothing of it is still outstanding (05 R120, R121). -/
def chooseFault (s : State) : Option Nat :=
  (s.groups.find? fun g => g.2.run != .retired && faultWaits g.2.ctx && settled g.2.ctx && (match g.2.run with
    | .ready | .parked _ => true
    | _ => false)).map (·.1)

/-- The group and window of a result that is complete and whose window has ended (05 R117). -/
def chooseResult (s : State) : Option (Nat × Nat) :=
  s.groups.findSome? fun (h, g) =>
    (g.ctx.wins.find? fun w => w.done && !w.sink && w.fault.isNone && (w.left = 0 || g.run == .retired)).map fun w => (h, w.id)

/-- Whether a sink group has words to run in the core now: the threads that stayed there, or, once every thread away is
back, those that came back unperformed (11 R275). -/
def sinkWaits (x : Ctx) (wid : Nat) (k : SinkSt) : Bool :=
  (x.wins.any fun w => w.id = wid && w.fault.isNone)
  && (if k.core ≠ 0 then k.hid = 0 || x.wins.all (fun w => w.id != k.hid || w.done || w.fault.isSome)
    else k.returned ≠ 0 && k.away = 0 && k.unsent = 0)

/-- The group and window of a sink group with words to run in the core. -/
def chooseSink (s : State) : Option (Nat × Nat) :=
  s.groups.findSome? fun (h, g) => (g.ctx.sinks.find? fun k => sinkWaits g.ctx k.1 k.2).map fun k => (h, k.1)

/-- Whether a word left a group where it was, but for the windows it ended: it waits for a source (02 R51, 05 R119). -/
def stayed (s t : State) (h : Nat) (g : Group) : Bool :=
  (coreOf t g.core).opp == (coreOf s g.core).opp && (match groupOf t h with
    | some g' => { g' with ctx := endWins g'.ctx } == { g with ctx := endWins g.ctx }
    | none => false)

/-- Something has happened: any group's word may find its sources now. -/
def freshen (s : State) : State :=
  if s.groups.any (·.2.stall) then { s with groups := s.groups.map fun (h, g) => (h, { g with stall := false }) } else s

/-- Make a parked group ready again: its word issues once more. -/
def unpark (s : State) (h : Nat) : State :=
  modGroup s h fun g => match g.run with
    | .parked _ => { g with run := .ready }
    | _ => g

/-- Whether some group of a core is ready or waiting (13 R308): one that yields, or waits for room for a record, waits; one held for
tokens does neither. -/
def coreBusy (s : State) (c : Nat) : Bool :=
  (residents s c).any fun g => !heldGroup s g.2 && (match g.2.run with
    | .ready | .parked (.yielding _ _) | .parked (.spawnRoom _) => true
    | _ => false)

/-- The island that clocks a unit (00 R1, 23 R405, log entry 36). -/
def islandOf : Clock → Nat
  | .core k => k
  | .slice k => 256 + k / 8
  | .press k => 288 + k
  | .die d => 300 + Config.fabricIslandIndex d % 20
  | .sched => Config.schedIsland

/-- A clock's cycles pass (00 R2): its count does not advance while its island is gated (23 R405). Each core cycle is an
issue opportunity of every cluster of the core (02 R51). -/
def elapse (s : State) (c : Clock) (n : Nat) : State :=
  if look s.islands (islandOf c) .nominal == .gated then s
  else match c with
  | .core k =>
      modCore s k fun v => { v with cycles := v.cycles + n
                                    opp := v.opp.map fun o => (o + n) % 2 ^ 32
                                    idle := if coreBusy s k then 0 else v.idle + n }
  | .die d =>
    let t := look s.tasters d {}
    { s with tasters := put s.tasters d { t with cycles := t.cycles + n } }
  | .slice k => { s with sliceCycles := put s.sliceCycles k (look s.sliceCycles k 0 + n) }
  | .press p => { s with pressCycles := put s.pressCycles p (look s.pressCycles p 0 + n) }
  | .sched =>
    let s := { s with sched := s.sched + n }
    { s with parts := s.parts.map fun (p, v) =>
        (p, { v with tenants := v.tenants.map fun (t, x) =>
                (t, if 0 < x.balance then { x with idle := x.idle + n } else x) }) }

end Sys2Proof.Machine
end

