-- ==== Sys2Proof/Machine/Control.lean ====
section
/-! DEFINITION. The split stack and the control instructions (03 R54 to R61, 06 R126 to R128), and the events of a group's
results, faults and waits (05 R117 to R121, 02 R44, R53). -/

namespace Sys2Proof.Machine

/-! ### The split stack -/

/-- A byte of a thread's pocket window in the group's pocket table. -/
def pocketKey (t x : Nat) : Nat := 65536 * t + x

/-- The bytes of a thread's pocket window (10 R250). -/
def pocketRead (x : Ctx) (t a n : Nat) : List Byte := (List.range n).map fun i => look x.pocket (pocketKey t (a + i)) 0

/-- Write bytes of a thread's pocket window. -/
def pocketWrite (x : Ctx) (t a : Nat) (bs : List Byte) : Ctx :=
  { x with pocket := each (List.range bs.length) x.pocket fun p i => put p (pocketKey t (a + i)) (bs.getD i 0) }

/-- What a control instruction comes to: the group goes on, it retires, or a fault with its code and cause. -/
inductive Flow where
  | go (x : Ctx)
  | gone (x : Ctx)
  | bad (code cause : Nat)
  deriving DecidableEq, Repr

/-- The three procedures that run without a fetch (03 R59). -/
inductive Walk where
  | advance
  | joinAt (j : Word)
  | leave
  deriving DecidableEq, Repr

/-- Whether an address may be transferred to (05 R92). -/
def goodPc (a : Word) : Bool := a.toNat % 8 = 0 && decide (a.toNat < 2 ^ 56)

/-- `RETACT` past the top entry: the return address that every active thread's window names (03 R59). -/
def returnTo (x : Ctx) (w win : Nat) : Flow :=
  let at_ (t : Nat) : Nat := leNat (pocketRead x t (win - 8 * x.depth) 8)
  let a : Word := .ofNat 64 (at_ (lowest x.active))
  if (threadsOf w x.active).any fun t => at_ t != a.toNat then .bad 0x05 0
  else if !goodPc a then .bad 0x04 1
  else .go { x with pc := a, depth := x.depth - 1 }

/-- `ADVANCE`, `JOINACT` and `RETACT` (03 R59). Each turn empties or pops an entry, so that four turns for each entry
suffice; fuel bounds them. -/
def walkStack (fuel w win : Nat) (a : Walk) (x : Ctx) : Flow :=
  match fuel with
  | 0 => .gone x
  | fuel + 1 =>
    match a with
    | .joinAt j =>
      match x.stack with
      | e :: es => if e.rpc = j && e.depth = x.depth then
          walkStack fuel w win .advance { x with stack := { e with jmask := e.jmask ||| x.active } :: es }
        else .go { x with pc := j }
      | [] => .go { x with pc := j }
    | .leave =>
      match x.stack with
      | e :: es => if e.depth = x.depth then
          walkStack fuel w win .advance { x with stack := { e with rmask := e.rmask ||| x.active } :: es }
        else returnTo x w win
      | [] => returnTo x w win
    | .advance =>
      match x.stack with
      | [] => .gone x
      | e :: es =>
        let x := { x with depth := e.depth }
        if e.dmask ≠ 0 then .go { x with active := e.dmask, pc := e.dpc, stack := { e with dmask := 0 } :: es }
        else if e.jmask ≠ 0 then
          if e.rmask = 0 then walkStack fuel w win (.joinAt e.rpc) { x with active := e.jmask, pc := e.rpc, stack := es }
          else .go { x with active := e.jmask, pc := e.rpc, stack := { e with jmask := 0 } :: es }
        else if e.rmask ≠ 0 then walkStack fuel w win .leave { x with active := e.rmask, stack := es }
        else if es.isEmpty then .gone { x with stack := [], active := 0 }
        else walkStack fuel w win .advance { x with stack := es, active := 0 }

/-- Fuel enough for a full stack. -/
def walkFuel : Nat := 512

/-- Push entries, or the control-stack fault where one would be the 65th (03 R56). -/
def pushAll (x : Ctx) (es : List SplitEntry) (next : Ctx → Ctx) : Flow :=
  if 64 < x.stack.length + es.length then .bad 0x05 0 else .go (next { x with stack := es ++ x.stack })

/-! ### Issuing a control word -/

/-- Issue a control word: its windows end, it waits for what it reads, a fault leaves the control state as it was
(03 R60), and otherwise the group goes on as `body` says. `body` has the context, width, pocket size and E. -/
def issueCtl (s : State) (io : Io) (k : BitVec 3) (kn uni : Bool) (body : Ctx → Nat → Nat → Word → Flow) :
    Host.Outcome State Fault Refusal :=
  match current s with
  | none => .fault .noGroup
  | some (h, g) =>
    let g := { g with ctx := endWins g.ctx }
    let eff := effSet g.ctx g.w k kn
    let s := setGroup s h g
    if blocked g.ctx (io.under eff) then .next s
    else match body g.ctx g.w (groupLaunch s g).rc.pocket eff with
      | .bad code cause => .next (raise s h (badRec g.ctx eff { code := code, cause := cause }))
      | .go x =>
        let (x, pids) := unmap x (lrTakes g.ctx io)
        let s := setGroup s h { g with ctx := { x with phase := 0 } }
        .next (spend (freeRegs s g.core pids) h (if uni then 1 else laneCycles g.w eff))
      | .gone _ =>
        .next (retireGroup (endThreads (spend s h (if uni then 1 else laneCycles g.w eff)) h g.ctx.live) h)

/-- The address `n` words from the word at the program counter. -/
def wordsFrom (x : Ctx) (n : Int) : Word := x.pc + .ofInt 64 (8 * n)

/-- The target offset of an immediate word: bits 31:0 (03 R58). -/
def offLo (w : Word) : Int := sx w.toNat 32
/-- The reconvergence offset of an immediate word: bits 63:32 (03 R58). -/
def offHi (w : Word) : Int := sx (w.toNat / 2 ^ 32) 32

/-- `BR` (03 R59). -/
def brFlow (x : Ctx) (w : Nat) (eff word : Word) : Flow :=
  let target := wordsFrom x (offLo word)
  let recon := wordsFrom x (offHi word)
  let next := x.pc + 16
  let T := eff
  let N := x.active &&& ~~~eff
  if !goodPc target || !goodPc recon then .bad 0x04 1
  else if N = 0 then .go { x with pc := target }
  else if !goodPc next then .bad 0x04 1
  else if T = 0 then .go { x with pc := next }
  else
    let first := decide (popCount w T.toNat ≤ popCount w N.toNat)
    let (F, fpc, M, mpc) := if first then (T, target, N, next) else (N, next, T, target)
    pushAll x [{ rpc := recon, dpc := mpc, dmask := M, depth := x.depth }] fun x => { x with active := F, pc := fpc }

/-- `BR` (03 R59). -/
def execBr (f : FOps) (word : Word) (s : State) : Host.Outcome State Fault Refusal :=
  issueCtl s {} f.k f.kn false fun x w _ eff => brFlow x w eff word

/-- `JOIN` (03 R59). -/
def execJoin (f : FOps) (s : State) : Host.Outcome State Fault Refusal :=
  issueCtl s {} f.k f.kn false fun x w win _ =>
    let j := wordsFrom x f.imm
    if !goodPc j then .bad 0x04 1 else walkStack walkFuel w win (.joinAt j) x

/-- `CALL` (03 R59): the return addresses stand at the top of the pocket windows. -/
def execCall (f : FOps) (word : Word) (s : State) : Host.Outcome State Fault Refusal :=
  issueCtl s {} f.k f.kn false fun x w win _ =>
    let target := wordsFrom x (offLo word)
    let next := x.pc + 16
    if !goodPc target then .bad 0x04 1
    else if win < 8 * (x.depth + 1) then .bad 0x05 0
    else
      let a := win - 8 * (x.depth + 1)
      let x := each (threadsOf w x.active) x fun x t => pocketWrite x t a (leBytes 8 next.toNat)
      .go { x with depth := x.depth + 1, pc := target }

/-- `RET` (03 R59). -/
def execRet (f : FOps) (s : State) : Host.Outcome State Fault Refusal :=
  issueCtl s {} f.k f.kn false fun x w win _ =>
    if x.depth = 0 then .bad 0x05 0 else walkStack walkFuel w win .leave x

/-- Entry `i` of a branch table (05 R105). -/
def tableOffset (ws : List Word) (i : Nat) : Int :=
  sx ((ws.getD (i / 2) 0).toNat / 2 ^ (32 * (i % 2))) 32

/-- The distinct numbers of a list below `n`, rising. -/
def risen (n : Nat) (l : List Nat) : List Nat := (List.range n).filter l.contains

/-- `BTAB` (03 R59): a bad reconvergence address or target that an active thread selects is reported before an index past
the table (05 R111). -/
def btabFlow (f : FOps) (ws : List Word) (x : Ctx) (w : Nat) : Flow :=
  let n := f.d.toNat + 1
  let recon := wordsFrom x f.imm
  let ts := threadsOf w x.active
  let idx (t : Nat) : Nat := if f.u then (readS x f.a.toNat).toNat % 2 ^ 32 else readNbr x w f.a.toNat 1 t f.na f.edge
  let tgt (i : Nat) : Word := wordsFrom x (tableOffset ws i)
  let I := risen n (ts.map idx)
  if !goodPc recon || I.any fun i => !goodPc (tgt i) then .bad 0x04 1
  else if ts.any fun t => decide (n ≤ idx t) then .bad 0x06 0
  else
    let mask (i : Nat) : Word := maskOf (ts.filter fun t => idx t = i)
    match I with
      | [] => .go x
      | i :: rest =>
        pushAll x (rest.map fun j => { rpc := recon, dpc := tgt j, dmask := mask j, depth := x.depth }) fun x =>
          { x with active := mask i, pc := tgt i }

/-- `BTAB` (03 R59). -/
def execBtab (f : FOps) (ws : List Word) (s : State) : Host.Outcome State Fault Refusal :=
  issueCtl s (ioSrc f.u f.a.toNat 1 f.lrA) f.k f.kn f.u fun x w _ _ => btabFlow f ws x w

/-- `LOOPU` (03 R59). -/
def execLoopu (f : FOps) (word : Word) (s : State) : Host.Outcome State Fault Refusal :=
  issueCtl s { ur := [f.d.toNat], uw := [f.d.toNat] } f.k f.kn true fun x _ _ _ =>
    let n := readS x f.d.toNat - 1
    let target := wordsFrom x (offLo word)
    let next := x.pc + 16
    if !goodPc target || (n = 0 && !goodPc next) then .bad 0x04 1
    else .go { x with s := setPad 0 x.s f.d.toNat n, pc := if n = 0 then next else target }

/-- The control state after threads have exited (03 R59). -/
def exitFlow (x : Ctx) (w win : Nat) (gone : Word) : Flow :=
  let x := { x with active := x.active &&& ~~~gone }
  if x.active ≠ 0 then .go { x with pc := x.pc + 8 }
  else if x.stack.isEmpty then .gone x
  else walkStack walkFuel w win .advance x

/-- `EXIT` (03 R59): the threads of E exit. An open region ends as `COMMIT` ends it (09 R240), and the group's dependency list is
discarded (08 R208). -/
def execExit (f : FOps) (s : State) : Host.Outcome State Fault Refusal :=
  match current s with
  | none => .fault .noGroup
  | some (h, g) =>
    let g := { g with ctx := endWins g.ctx }
    let eff := effSet g.ctx g.w f.k f.kn
    let s := setGroup s h g
    match exitFlow g.ctx g.w (groupLaunch s g).rc.pocket eff with
    | .bad code cause => .next (raise s h (badRec g.ctx eff { code := code, cause := cause }))
    | .go x =>
      let s := if eff = 0 then s else endRegion s h
      let s := endThreads (spend s h (laneCycles g.w eff)) h eff
      let y (y : Ctx) : Ctx := { y with pc := x.pc, active := x.active, depth := x.depth, stack := x.stack, phase := 0 }
      .next (modCtx s h fun z => { y z with tdep := if eff = 0 then z.tdep else [] })
    | .gone _ => .next (retireGroup (endThreads (endRegion (spend s h (laneCycles g.w eff)) h) h g.ctx.live) h)

/-! ### The other control words -/

/-- `NOP` (06 R126). -/
def execNop (f : FOps) (s : State) : Host.Outcome State Fault Refusal :=
  issue s Op.nop.code 1 f.k f.kn true {} fun _ _ _ => .ok {}

/-- `YIELD` (06 R127): with a count of 0 it is `NOP`; otherwise the group waits for that many further opportunities of
its cluster, or for one that finds no other group ready. -/
def execYield (f : FOps) (s : State) : Host.Outcome State Fault Refusal :=
  match issue s Op.yield_.code 1 f.k f.kn true {} fun _ _ _ => .ok {} with
  | .next s => .next (if f.imm = 0 then s else modGroup s s.cur fun g =>
      { g with run := .parked (.yielding ((coreOf s g.core).opp.getD (g.slot0 / 256) 0) f.imm12.toNat) })
  | r => r

/-- Issue a trap word: with E not empty it raises the trap with its code (06 R128). -/
def issueTrap (s : State) (op : Op) (f : FOps) (code : Nat) : Host.Outcome State Fault Refusal :=
  issue s op.code 1 f.k f.kn false {} fun _ _ eff =>
    if eff = 0 then .ok {} else .error { code := code, tcode := f.imm12.toNat }

/-- `BPT` (06 R128): the saved program counter is the word's own. -/
def execBpt (f : FOps) (s : State) : Host.Outcome State Fault Refusal := issueTrap s .bpt f 0x08
/-- `TRAP` (06 R128): the saved program counter is the next word's. -/
def execTrap (f : FOps) (s : State) : Host.Outcome State Fault Refusal := issueTrap s .trap f 0x09

/-- `ILLEGAL_INSTRUCTION` (05 R108): a fetched word that is no instruction. Windows end before it where its opcode is one that
ends them (05 R117). -/
def execIllegalInstruction (w : Word) (s : State) : Host.Outcome State Fault Refusal :=
  match current s with
  | none => .fault .noGroup
  | some (h, g) =>
    let g := if endsWindows (opcodeOf w) then { g with ctx := endWins g.ctx } else g
    .next (raise (setGroup s h g) h (badRec g.ctx g.ctx.active { code := 0x01 }))

/-! ### Results, faults and waits -/

/-- An event that cannot happen now. -/
def notNow (name : String) : Host.Outcome State Fault Refusal := .fault (.notEnabled name)

/-- A window is over: its writes are no longer in flight, and the group forgets it (02 R43, 05 R117). Registers parked
for may now be granted. -/
def closeWin (s : State) (h : Nat) (w : Win) : State :=
  match groupOf s h with
  | none => s
  | some g =>
    let s := modCore s g.core fun k => each (w.pids.map (·.1)) k landFlight
    let s := if (coreOf s g.core).regQueue.isEmpty then s else send s .registerGrant { core := g.core }
    modCtx s h fun x => { x with wins := x.wins.filter fun v => v.id != w.id }

/-- A result takes effect (05 R118): registers its last-read bits free and its result writes again are freed first
(02 R42), its registers are allocated where they are unmapped, its writes land, its flags
and `%rv` rise. `%rv` rises even where the registers' result is discarded. -/
def landResult (s : State) (h : Nat) (g : Group) (w : Win) : State :=
  if w.discarded then
    modCtx (closeWin s h w) h fun x => { x with rv := max x.rv w.rv }
  else
    let (x, pids) := unmap g.ctx w.frees
    let (s, g) := writeRegs s { g with ctx := x } w.vals
    let x := setFlags g.ctx w.flags
    freeRegs (closeWin (setGroup s h { g with ctx := { x with rv := max x.rv w.rv } }) h w) g.core pids

/-- `LONG_LATENCY_RESULT` (05 R118): a complete result of a window that has ended takes effect, unless the window
discarded it or its group has retired. -/
def execLongLatencyResult (s : State) : Host.Outcome State Fault Refusal :=
  match groupOf s s.subj.g with
  | none => notNow "LONG_LATENCY_RESULT"
  | some g =>
    match g.ctx.wins.find? fun w => w.id = s.subj.win with
    | none => notNow "LONG_LATENCY_RESULT"
    | some w =>
      if !w.done || w.sink || w.fault.isSome then notNow "LONG_LATENCY_RESULT"
      else if g.run == .retired then .next (closeWin s s.subj.g w)
      else if w.left ≠ 0 then notNow "LONG_LATENCY_RESULT"
      else
        let x := if w.discarded then g.ctx else (unmap g.ctx w.frees).1
        let news := if w.discarded then [] else needNew x [] (vRegs w.vals)
        let mapped := x.v.length + (news.filter fun r => (find x.v r).isNone).length
        match allocCheck s s.subj.g g mapped news.length with
        | .ok => .next (landResult s s.subj.g g w)
        | .park => match g.run with
          | .ready => .next (parkRegs s s.subj.g g news.length)
          | _ => notNow "LONG_LATENCY_RESULT"
        | .trap =>
          let r : FaultRec := { code := 0x07, iaddr := w.pc, failing := g.ctx.live, eff := g.ctx.active }
          .next (modCtx s s.subj.g fun x => { x with wins := x.wins.map fun v =>
            if v.id = w.id then { v with fault := some r } else v })

/-- `FAULT_DELIVERY` (05 R120, R121, 09 R245): once everything outstanding has completed or faulted, the oldest fault is
delivered; the saved program counter is the boundary. -/
def execFaultDelivery (s : State) : Host.Outcome State Fault Refusal :=
  match groupOf s s.subj.g with
  | none => notNow "FAULT_DELIVERY"
  | some g =>
    match g.run, oldestFault g.ctx with
    | .ready, some r | .parked _, some r =>
      if settled g.ctx then .next (takeFault s s.subj.g r) else notNow "FAULT_DELIVERY"
    | _, _ => notNow "FAULT_DELIVERY"

/-- A parked group becomes ready once what it waits for has come about. -/
def wakeEvent (s : State) (name : String) (why : Why → Bool) : Host.Outcome State Fault Refusal :=
  match groupOf s s.subj.g with
  | none => notNow name
  | some g => match g.run with
    | .parked w => if why w && wakes s g w then .next (unpark s s.subj.g) else notNow name
    | _ => notNow name

/-- `YIELD_EXPIRY` (06 R127). -/
def execYieldExpiry (s : State) : Host.Outcome State Fault Refusal :=
  wakeEvent s "YIELD_EXPIRY" fun w => match w with
    | .yielding _ _ => true
    | _ => false

/-- `PARKED_SCRATCH_ACCESS` (07 R161): every line the parked instruction touches is present, and it is performed by its
next issue, which nothing of the group precedes. -/
def execParkedScratchAccess (s : State) : Host.Outcome State Fault Refusal :=
  wakeEvent s "PARKED_SCRATCH_ACCESS" fun w => match w with
    | .scratch _ => true
    | _ => false

/-- `REGISTER_GRANT` (02 R44 step 4): the group that has been parked for registers longest is granted what it lacks; the
registers are kept for it until its word takes them. -/
def execRegisterGrant (s : State) : Host.Outcome State Fault Refusal :=
  let c := s.subj.core
  match (coreOf s c).regQueue with
  | [] => notNow "REGISTER_GRANT"
  | h :: rest =>
    match groupOf s h with
    | none => .next (modCore s c fun k => { k with regQueue := rest })
    | some g =>
      match g.run with
      | .parked (.regs n) =>
        if !rowsServe s h g n then notNow "REGISTER_GRANT"
        else
          let s := modCore s c fun k => { k with regQueue := rest }
          let s := if rest.isEmpty then s else send s .registerGrant { core := c }
          .next (modGroup (unpark s h) h fun g => { g with grant := n - ownShare s g })
      | _ => .next (modCore s c fun k => { k with regQueue := rest })

end Sys2Proof.Machine
end

