-- ==== Sys2Proof/Machine/Access.lean ====
section
/-! DEFINITION. Memory accesses: addresses, the checks of a whole instruction, transactions' sets, and how a captured
access is served from the near cache, from scratch and pockets, or by a line that comes from farther out
(05 R101 to R103, 07 R156 to R166, R173 to R176, R182 to R184, 10 R253 to R255, 12 R287). -/

namespace Sys2Proof.Machine

/-! ### Addresses -/

/-- The displacement (05 R101, R103): `w` is the second word of an opcode that has an L form. -/
def dispOf (f : FOps) (w : Option Word) : Int :=
  match w with
  | some d => if f.isL then d.toInt else if f.x0 then f.imm else 0
  | none => if f.x0 then f.imm else 0

/-- The address of one thread's access, or of the group's under U (05 R101, R102). `space` says that the access is to
scratch or a pocket. -/
def eaOf (x : Ctx) (f : FOps) (space : Bool) (disp : Int) (t : Nat) : Word :=
  let base : Nat := match f.form with
    | 3 => 0
    | 1 | 2 => (readS x f.a.toNat).toNat
    | _ => if f.u then (readS x f.a.toNat).toNat
      else if space then (readV x f.a.toNat t).toNat else readRun x f.a.toNat 2 t
  let idx : Int := if f.form = 2 then sx (readV x f.b.toNat t).toNat 32 else 0
  .ofInt 64 (base + idx + disp)

/-- The registers an address reads (05 R101). -/
def ioAddr (f : FOps) (space : Bool) : Io :=
  match f.form with
  | 3 => {}
  | 1 => { ur := [f.a.toNat] }
  | 2 => ({ ur := [f.a.toNat] } : Io).join (ioSrc false f.b.toNat 1 f.lrB)
  | _ => ioSrc f.u f.a.toNat (if space then 1 else 2) f.lrA

/-- The threads an instruction acts for: those of E, or once for the group where U is set and E is not empty (02 R28). -/
def sites (uni : Bool) (w : Nat) (eff : Word) : List Nat :=
  if uni then (if eff = 0 then [] else [0]) else threadsOf w eff

/-! ### Scratch and pockets -/

/-- The scratch bytes of a group's team on one core; a team formed from records has none (13 R305). -/
def scratchSize (s : State) (g : Group) : Nat :=
  let tm := teamOf s g.team
  if tm.cask then 0 else (launchOf s tm.launch).rc.scratch

/-- Whether a scratch access lies wholly within the team's scratch (07 R160). -/
def scratchOk (s : State) (g : Group) (a n : Nat) : Bool :=
  decide (a < 2 ^ 21) && ((teamOf s g.team).pair || decide (a < 2 ^ 20)) && decide (a % 2 ^ 20 + n ≤ scratchSize s g)

/-- Bytes of a team's scratch. -/
def scratchRead (tm : Team) (a n : Nat) : List Byte := (List.range n).map fun i => look tm.scratch (a + i) 0

/-- Write bytes of a team's scratch; a byte of zero is not listed. -/
def scratchWrite (tm : Team) (a : Nat) (bs : List Byte) : Team :=
  { tm with scratch := each (List.range bs.length) tm.scratch fun p i =>
      let b := bs.getD i 0
      if b = 0 then del p (a + i) else put p (a + i) b }

/-- Whether a scratch line is absent: some command has yet to write it (10 R253). -/
def lineAbsent (tm : Team) (l : Nat) : Bool := tm.absent.any fun a => a.1 = l

/-- The scratch lines an access touches. -/
def scratchLines (a n : Nat) : List Nat := if a / 128 = (a + n - 1) / 128 then [a / 128] else [a / 128, (a + n - 1) / 128]

/-! ### Checks -/

/-- Check one thread's scratch or pocket access (07 R157, R160); a run of registers is aligned to 16 bytes (08 R198). -/
def checkSpace (s : State) (g : Group) (pocket : Bool) (n : Nat) (a : Acc) : Except Bad Unit :=
  let ea := a.ea.toNat
  if ea % min n 16 ≠ 0 then .error { code := 0x10, va := ea }
  else if pocket then
    if ea + n ≤ (groupLaunch s g).rc.pocket then .ok () else .error { code := 0x12, va := ea }
  else if scratchOk s g ea n then .ok () else .error { code := 0x11, va := ea }

/-- Check one thread's access of virtual memory: its parts by line, or its fault (07 R157, R158). -/
def checkVirt (s : State) (g : Group) (natural : Bool) (n : Nat) (need : Need) (a : Acc) :
    Except Bad (List Part) × State :=
  let ea := a.ea.toNat
  if natural && ea % n ≠ 0 then (.error { code := 0x10, va := ea }, s)
  else match checkAccess s g a.t ea n need with
    | (.error (c, k), s) => (.error { code := c, cause := k, va := ea }, s)
    | (.ok ps, s) => (.ok ps, s)

/-- Check several threads' accesses of virtual memory, each against the same translations. -/
def checkAll (s : State) (g : Group) (natural : Bool) (n : Nat) (need : Need) (accs : List Acc) :
    List (Acc × Except Bad (List Part)) × State :=
  accs.foldl (fun (rs, s) a =>
    let (r, s) := checkVirt s g natural n need a
    (rs ++ [(a, r)], s)) ([], s)

/-- The fault of an instruction from its threads' faults: the lowest failing thread's, with every failing thread named;
under U the group's (07 R158). -/
def failOf (uni : Bool) (bs : List (Nat × Bad)) : Option Bad :=
  match bs with
  | [] => none
  | (t, b) :: more => some { b with failing := if uni then 0 else maskOf (t :: more.map (·.1)) }

/-- The faults among checked accesses. -/
def badsOf (rs : List (Acc × Except Bad (List Part))) : List (Nat × Bad) :=
  rs.filterMap fun (a, r) => match r with
    | .error b => some (a.t, b)
    | .ok _ => none

/-- The parts of checked accesses. -/
def partsOf (rs : List (Acc × Except Bad (List Part))) : List Part :=
  (rs.map fun (_, r) => match r with
    | .ok ps => ps
    | .error _ => []).flatten

/-! ### Transactions -/

/-- Whether a thread has an open transaction. -/
def inTx (x : Ctx) (t : Nat) : Bool := (find x.tx t).isSome

/-- Whether a thread's open transaction is doomed. -/
def txDoomed (x : Ctx) (t : Nat) : Bool :=
  match find x.tx t with
  | some y => y.doom != 0
  | none => false

/-- Whether a thread has an open transaction that is not doomed. -/
def txLive (x : Ctx) (t : Nat) : Bool := inTx x t && !txDoomed x t

/-- Doom the open transactions of a mask's threads (07 R184). -/
def doomThreads (s : State) (h : Nat) (m : Word) (cause user : Nat) : State :=
  match groupOf s h with
  | none => s
  | some g => if g.ctx.tx.isEmpty then s
    else each (threadsOf g.w m) s fun s t => doomThread s h t cause user

/-- A forbidden instruction dooms the open transactions of E with cause 7 (07 R184). -/
def forbid (s : State) (h : Nat) (eff : Word) : State := doomThreads s h eff 7 0

/-- A line enters a thread's read or write set (07 R183): of two threads whose accesses conflict the higher is doomed with
cause 1, and a set that overflows dooms its thread. -/
def txTouch (s : State) (h t la slot : Nat) (write : Bool) : State :=
  match groupOf s h with
  | none => s
  | some g => match find g.ctx.tx t with
    | none => s
    | some y =>
      if y.doom ≠ 0 then s
      else
        let foes := (g.ctx.tx.filter fun (u, z) =>
          u != t && z.doom == 0 && (z.wlines.contains la || (write && z.rlines.contains la))).map (·.1)
        if foes.any (fun u => decide (u < t)) then doomThread s h t 1 0
        else
          let s := each foes s fun s u => doomThread s h u 1 0
          let lines := if write then y.wlines else y.rlines
          if lines.contains la then s
          else if (if write then 8 else 16) ≤ lines.length then doomThread s h t (if write then 4 else 3) 0
          else
            let y := { y with slots := put y.slots la slot }
            let y := if write then { y with wlines := y.wlines ++ [la] } else { y with rlines := y.rlines ++ [la] }
            modCtx s h fun x => { x with tx := put x.tx t y }

/-- Note the bytes a transactional load read from memory: the first value of each, and whether a later one differed; bytes
under `skip` came from the thread's own stores (07 R183). -/
def noteRead (y : Tx) (la lo : Nat) (bs : List Byte) (skip : ByteMask) : Tx :=
  { y with rbytes := each (List.range bs.length) y.rbytes fun r i =>
      if skip.getLsbD (lo + i) then r
      else
        let key := 128 * la + lo + i
        let b := bs.getD i 0
        match find r key with
        | none => put r key (b, false)
        | some (v, d) => put r key (v, d || v != b) }

/-! ### Dirty copies of other cores -/

/-- Perform a near-cache write-back at its line's authority: the vintage it was given (12 R288). -/
def performMsg (s : State) (m : WbMsg) : Nat × State :=
  let s := performWriteback s m.core m.la m.slot m.data m.mask m.vw m.poisoned
  ((lineSt s m.la).wv, s)

/-- Perform at once the write-backs of a line that are on their way, of every core or of one; each is then acknowledged. -/
def landFlights (s : State) (core : Option Nat) (la : Nat) : State :=
  let mine (d : Due) : Option WbMsg := match d.ev with
    | .nearCacheWriteback m => if m.la = la && (core.isNone || core == some m.core) then some m else none
    | _ => none
  each (s.due.filterMap mine) { s with due := s.due.filter fun d => (mine d).isNone } fun s m =>
    let (wv, s) := performMsg s m
    send s (.writebackAck m wv)

/-- Recall every lazily released dirty copy of a line that a near cache holds, one core's excepted, and what is on its way
(07 R183). -/
def flushDirty (s : State) (but : Option Nat) (la : Nat) : State :=
  let s := landFlights s none la
  each (s.cores.filter fun k => some k.1 != but) s fun s k => match find k.2.near la with
    | some n => if n.st == .dirty then
        let s := if n.poison then dropNear s k.1 la else modNear s k.1 la fun n => { n with st := .leased, mask := 0 }
        let (id, s) := newId (performWriteback s k.1 la n.slot n.data n.mask k.2.obsv n.poison)
        send s (.writebackAck { id := id, core := k.1, la := la, slot := n.slot, data := n.data, mask := n.mask, vw := k.2.obsv
                                grp := none, drainFor := none, poisoned := n.poison } (lineSt s la).wv)
      else s
    | none => s

/-- Whether a core has asked for a line and not yet been answered. -/
def askedFor (s : State) (c la : Nat) : Bool :=
  let mine (r : LineReq) : Bool := r.core == c && r.la == la
  let inDue (d : Due) : Bool := match d.ev with
    | .nearCacheMiss r | .nearCacheFill r _ _ _ | .homeRead _ r | .homeReadExclusive _ r | .homeUpgrade _ r
    | .exclusiveGrant _ r => mine r
    | _ => false
  let l := lineSt s la
  s.due.any inDue || l.queue.any inDue || (match l.busy with
    | .up q _ | .rx q _ _ | .fw q _ | .wb q _ _ | .fill q | .census q _ _ _ => inDue q
    | _ => false)

/-- Whether a core may at once fetch the bytes of a line from its home, with nothing of its own on the way. -/
def canFetch (s : State) (c la : Nat) : Bool := lineReady s la && !wbInFlight s c la && !askedFor s c la

/-! ### Serving an access -/

/-- The key in a core's near table of the copy that `LDC` installed (07 R164). -/
def constKey (la : Nat) : Nat := la + 2 ^ 45

/-- Whether an ordering instruction at a scope acts at the home: `.die` and wider, and `.team` on a pair team
(07 R165, R169). -/
def wideScope (s : State) (g : Group) (sc : Scope) : Bool :=
  match sc with
  | .die | .dev | .sys => true
  | .team => (teamOf s g.team).pair
  | .grp | .core => false

/-- The line pending for a group's open region, or for a thread's transaction (10 R255): the group's own region first, then that
of the context in its shadow. -/
def pendOf (k : Core) (h la slot : Nat) (t : Option Nat) : Option PendLine :=
  let mine (deep : Bool) := k.pend.find? fun p => p.la = la && p.g = h && p.t = t && p.slot = slot && p.deep == deep
  (mine false).or (mine true)

/-- A line's bytes as they reach a core that does not keep them: line, key slot, bytes, write vintage. -/
abbrev Passing := Nat × Nat × LineData × Nat

/-- The bytes with which a near cache serves a load of a line, and the vintage they carry (07 R163 to R166, 10 R255, 12 R287).
A line pending for another group's region, or for a transaction, serves nothing; beside one no read copy is kept, and a load
that went farther out is served by the bytes that `pass` brings. -/
def lineServe (s : State) (g : Group) (h : Nat) (req : MemReq) (la slot : Nat) (pass : Option Passing := none) :
    Option (LineData × Nat) :=
  let k := coreOf s g.core
  let held : Option (LineData × Nat) := match find k.near la with
    | some n =>
      if n.slot ≠ slot then none
      else if n.st == .dirty || n.st == .exclusive then some (n.data, 0)
      else if n.st == .leased && decide (g.ctx.rv ≤ n.le) && !(k.pend.any fun p => p.la = la) then some (n.data, n.wv)
      else none
    | none => none
  let plain : Option (LineData × Nat) := match held, pass with
    | none, some (l, sl, d, wv) => if l = la && sl = slot then some (d, wv) else none
    | x, _ => x
  match req.kind with
  | .ldc => match find k.near (constKey la) with
    | some n => if n.slot = slot then some (n.data, 0) else none
    | none => none
  | .ldx => match find k.near la with
    | some n => if n.slot = slot && n.st == .exclusive then
        some ((match pendOf k h la slot none with
          | some p => mergeLine n.data p.data p.mask
          | none => n.data), 0)
      else none
    | none => none
  | .lda => if wideScope s g req.scope then none else match pendOf k h la slot none with
    | some p => some (p.data, 0)
    | none => plain
  | _ => match pendOf k h la slot none with
    | some p => some (p.data, 0)
    | none => plain

/-- The bytes of one part of a load, the vintage they carry, and which bytes came from the thread's own transaction: a line
pending for the thread serves it whole (07 R163, R183). -/
def partServe (s : State) (g : Group) (h : Nat) (req : MemReq) (p : Part) (pass : Option Passing := none) :
    Option (List Byte × Nat × ByteMask) :=
  let own := if req.uni || req.kind == .ldc then none else pendOf (coreOf s g.core) h p.la p.slot (some p.t)
  match own with
  | some q => some (lineBytes q.data p.lo p.n, 0, q.mask)
  | none => (lineServe s g h req p.la p.slot pass).map fun (d, v) => (lineBytes d p.lo p.n, v, 0)

/-- The value a thread's parts brought, the bytes in the order of the access. -/
def partsValue (ps : List Part) (t : Nat) : Nat :=
  leNat ((ps.filter fun p => p.t = t).map fun p => p.got.getD []).flatten

/-- The registers a complete load or atomic writes (07 R163, R175); a thread without parts reads zero (07 R184). -/
def winVals (w : Win) (r : MemReq) : List RegWr :=
  (r.accs.map fun a => wrDst r.uni r.dst r.ty.regs a.t (extendTo r.ty r.uni (partsValue w.parts a.t))).flatten

/-- The new value an atomic operation gives from the old value and the data (07 R173, R174, R176). -/
def atomNew (op : AtomOp) (ty : Ty) (o c new : Nat) : Nat :=
  let sgn (x : Nat) : Int := if ty.signed then sx x ty.width else x
  match op with
  | .add => match ty with
    | .f32 => (addV f32 .rn (unpackFloat f32 o) (unpackFloat f32 c)).1
    | .bf16x2 =>
      (addV bf16 .rn (unpackFloat bf16 (o % 65536)) (unpackFloat bf16 (c % 65536))).1
        + 65536 * (addV bf16 .rn (unpackFloat bf16 (o / 65536)) (unpackFloat bf16 (c / 65536))).1
    | _ => (o + c) % 2 ^ ty.width
  | .and => o &&& c
  | .or => o ||| c
  | .xor => o ^^^ c
  | .min => if sgn o ≤ sgn c then o else c
  | .max => if sgn o ≤ sgn c then c else o
  | .exch => c
  | .incw => if c ≤ o then 0 else o + 1
  | .cas => if o = c then new else o

/-- The atomic operation of a mod (07 R173). -/
def atomOf (mod : Nat) : AtomOp :=
  match mod with
  | 0 => .add | 1 => .and | 2 => .or | 3 => .xor | 4 => .min | 5 => .max | 6 => .exch | _ => .incw

/-- Perform one thread's atomic in the near cache of a core that holds the line exclusively: the old bytes (07 R175). -/
def atomNear (s : State) (h c : Nat) (rv : Nat) (op : AtomOp) (ty : Ty) (n : Nat) (la slot lo : Nat) (a : Acc) :
    Option (List Byte × State) :=
  match nearLine s c la with
  | some x =>
    if x.st == .exclusive && x.slot == slot then
      let old := lineBytes x.data lo n
      let new := atomNew op ty (leNat old) a.data a.new
      some (old, nearWrite s h c la slot rv (placeBytes lo (leBytes n new)) (maskBytes lo n))
    else none
  | none => none

/-- Change one window of a group. -/
def modWin (s : State) (h wid : Nat) (f : Win → Win) : State :=
  modCtx s h fun x => { x with wins := x.wins.map fun w => if w.id = wid then f w else w }

/-- One window of a group. -/
def winOf (x : Ctx) (wid : Nat) : Option Win := x.wins.find? fun w => w.id = wid

/-- Serve one waiting part of a window from the near cache, if it can be: for a load its bytes, for an atomic its
operation, in the order of the threads (07 R159, R175, 16 R320). -/
def servePart (s : State) (h wid i : Nat) (pass : Option Passing := none) : State :=
  match groupOf s h with
  | none => s
  | some g => match winOf g.ctx wid with
    | none => s
    | some w => match w.req, w.parts[i]? with
      | some req, some p =>
        let keep (s : State) (bs : List Byte) (v : Nat) : State :=
          modWin s h wid fun w => { w with parts := setAt w.parts i { p with got := some bs }, rv := max w.rv v }
        if p.got.isSome then s
        else match req.kind with
          | .atom | .acas =>
            match atomNear s h g.core g.ctx.rv req.op req.ty req.size p.la p.slot p.lo
                ((req.accs.find? fun a => a.t = p.t).getD { t := p.t }) with
            | some (old, s) => keep s old 0
            | none => s
          | _ => match partServe s g h req p pass with
            | some (bs, v, own) =>
              let s := if !req.uni && txLive g.ctx p.t && req.kind == .ld then
                  modCtx s h fun x => match find x.tx p.t with
                    | some y => { x with tx := put x.tx p.t (noteRead y p.la p.lo bs own) }
                    | none => x
                else s
              keep (useLine s g.core p.la) bs v
            | none => s
      | _, _ => s

/-- Complete a window all of whose parts are served; an acquire that stays in the core ends the core's stale leases. -/
def finishWin (s : State) (h wid : Nat) : State :=
  let s := match groupOf s h with
    | some g => match winOf g.ctx wid with
      | some w => match w.req with
        | some r => if r.kind == .lda && !wideScope s g r.scope && w.parts.all (fun p => p.got.isSome) then dropStale s g.core
          else s
        | none => s
      | none => s
    | none => s
  modWin s h wid fun w => match w.req with
    | some r => if w.parts.all (fun p => p.got.isSome) then
        { w with done := true, waitLines := [], vals := winVals w r }
      else w
    | none => w

/-- The fault of a long-latency instruction, kept in its window (05 R120). -/
def winFault (s : State) (h wid : Nat) (b : Bad) : State :=
  modWin s h wid fun w =>
    let eff := match w.req with
      | some r => r.eff
      | none => 0
    { w with fault := some { code := b.code, cause := b.cause, iaddr := w.pc, pc := w.pc, eff := eff, va := .ofNat 64 b.va
                             failing := if b.failing = 0 then eff else b.failing }
             waitLines := [] }

/-- The fault that a part still to be served meets when it is performed: its slot is destroyed or no longer bound, or its line is
poisoned (21 R380, 20 R369). -/
def partBad (s : State) (g : Group) (p : Part) : Option (Nat × Nat) :=
  if p.got.isSome then none
  else if !slotOk s (vfOf s g) p.slot then some (0x14, 2)
  else if poisonedFor s g.core p.la then some (0x15, 0)
  else none

/-- The threads of a window whose waiting parts meet a fault, each with its first. -/
def partBads (s : State) (g : Group) (w : Win) (r : MemReq) : List (Nat × Bad) :=
  r.accs.filterMap fun a =>
    ((w.parts.filter fun p => p.t = a.t).findSome? (partBad s g)).map fun c => (a.t, { code := c.1, cause := c.2, va := a.ea.toNat })

/-- A window whose waiting parts have come to meet a fault has that fault; a transaction's thread is doomed by it (07 R184). -/
def recheckWin (s : State) (h wid : Nat) : State :=
  match groupOf s h with
  | none => s
  | some g => match winOf g.ctx wid with
    | none => s
    | some w => match w.req with
      | none => s
      | some r =>
        let bads := partBads s g w r
        if bads.isEmpty then s
        else match failOf r.uni (bads.filter fun b => r.uni || !inTx g.ctx b.1) with
          | some b => winFault s h wid b
          | none => modWin (each bads s fun s b => doomThread s h b.1 5 0) h wid fun w =>
              { w with parts := w.parts.filter fun p => !bads.any fun b => b.1 = p.t }

/-- Serve what the near cache can of a window's parts, and complete it if nothing is left. Where the accesses are performed sector
by sector, only each thread's first waiting sector is served now (12 R282). -/
def serveWin (s : State) (h wid : Nat) (pass : Option Passing := none) : State :=
  let (cut, s) := takeSplit (recheckWin s h wid)
  match groupOf s h with
  | none => s
  | some g => match winOf g.ctx wid with
    | none => s
    | some w =>
      if w.fault.isSome then s else
      let first (i : Nat) : Bool := !cut || (match w.parts[i]? with
        | some p => !(w.parts.take i).any fun q => q.t = p.t && q.got.isNone
        | none => true)
      finishWin (each ((List.range w.parts.length).filter first) s fun s i => servePart s h wid i pass) h wid

/-- The lines a window still waits for, with their slots, each once. -/
def missing (w : Win) : List (Nat × Nat) := ((w.parts.filter fun p => p.got.isNone).map fun p => (p.la, p.slot)).eraseDups

/-- What kind of copy a captured access asks for. -/
def copyKindOf (k : MemKind) : CopyKind :=
  match k with
  | .ldc => .constant
  | .ldx | .atom | .acas => .exclusive
  | _ => .leased

/-- Ask for one line for a group: its core's copy under another slot is first put away (10 R261, R266). -/
def askLine (s : State) (h : Nat) (g : Group) (la slot : Nat) (kind : CopyKind) : State :=
  send (dropOther s g.core la slot) (.nearCacheMiss
    { core := g.core, la := la, slot := slot, kind := kind, rv := g.ctx.rv, tenant := (groupLaunch s g).tenant })
    { g := h }

/-- Ask for every line a window waits for. A load-acquire at the home first puts away the core's own copy, dirty or
exclusive, and goes to the home (12 R290). -/
def askLines (s : State) (h wid : Nat) : State :=
  match groupOf s h with
  | none => s
  | some g => match winOf g.ctx wid with
    | none => s
    | some w => match w.req with
      | none => s
      | some r =>
        let ls := missing w
        let s := modWin s h wid fun w => { w with waitLines := ls.map (·.1) }
        if r.kind == .lda && wideScope s g r.scope then
          each ls s fun s (la, slot) =>
            send (maintain s g.core la none true)
              (.homeAcquire { core := g.core, g := h, win := wid, scope := r.scope, la := la, slot := slot })
        else each ls s fun s (la, slot) => askLine s h g la slot (copyKindOf r.kind)

/-! ### The counters' page -/

/-- One of a prefetcher's counters as a number: issued, used, late, evicted unused (10 R263). -/
def Pref.counter (p : Pref) (i : Nat) : Nat :=
  match i with
  | 0 => p.issued
  | 1 => p.used
  | 2 => p.late
  | _ => p.evicted

/-- A byte of a partition's counter page (10 R264): the counters of parts it does not own, and the rest, read as zero. -/
def counterByte (s : State) (p : Partition) (off : Nat) : Byte :=
  let i := off % 32 / 8
  let v := if off < 0x2000 then (if p.slices.contains (off / 32) then (look s.prefS (off / 32) {}).counter i else 0)
    else if off < 0x5000 then
      let c := (off - 0x2000) / 32
      if p.channels.contains c then (look s.prefP c {}).counter i else 0
    else 0
  .ofNat 8 (v % 2 ^ 64 / 256 ^ (off % 8))

/-- Serve a window's parts that lie on the counter page, at the counters (10 R264). -/
def serveCounters (s : State) (h wid : Nat) : State :=
  match groupOf s h with
  | none => s
  | some g =>
    let p := partOf s (groupPart s g)
    if p.ctr.isNone then s
    else
      let serve (x : Part) : Part :=
        if onCounters p x.la then
          { x with got := some ((List.range x.n).map fun i => counterByte s p ((128 * x.la + x.lo + i) % 65536)) }
        else x
      modWin s h wid fun w => { w with parts := w.parts.map serve }

/-! ### Performing a captured access -/

/-- Whether a captured instruction's accesses must be naturally aligned (07 R157). -/
def MemKind.natural : MemKind → Bool
  | .ld | .ldc => false
  | _ => true

/-- What a captured instruction needs of a page (07 R158). -/
def memNeed (k : MemKind) : Need :=
  match k with
  | .atom | .acas => .both
  | _ => .read

/-- Perform, or begin, the accesses of virtual memory a window captured (07 R158, R163 to R166, R175, R176, R183, R184):
every thread is checked, and a failure is the window's fault; a doomed thread's access reads zero and checks nothing;
a transactional one that fails dooms its thread; what the near cache holds is served, and the rest is asked for. -/
def startVirt (s : State) (h wid : Nat) : State :=
  match groupOf s h with
  | none => s
  | some g => match (winOf g.ctx wid).bind (·.req) with
    | none => s
    | some req =>
      let tx (f : Ctx → Nat → Bool) (t : Nat) : Bool := !req.uni && f g.ctx t
      let (rs, s) := checkAll s g req.kind.natural req.size (memNeed req.kind)
        (req.accs.filter fun a => !tx txDoomed a.t)
      let bads := badsOf rs
      match failOf req.uni (bads.filter fun b => !tx inTx b.1) with
      | some b => winFault s h wid b
      | none =>
        let s := each bads s fun s b => doomThread s h b.1 5 0
        let ps := partsOf rs
        let s := if req.kind == .ld && !req.uni then
            each (ps.filter fun p => tx txLive p.t) s fun s p => txTouch s h p.t p.la p.slot false
          else s
        let gone (t : Nat) : Bool := !req.uni && (match groupOf s h with
          | some g => txDoomed g.ctx t
          | none => false)
        let s := each ((ps.filter fun p => tx txLive p.t).map (·.la)).eraseDups s fun s la =>
          if lineReady s la then flushDirty s (some g.core) la else s
        let s := modWin s h wid fun w => { w with fault := none, parts := ps.filter fun p => !gone p.t }
        askLines (serveWin (serveCounters s h wid) h wid) h wid

/-- The lines that a word's scratch accesses touch and that are absent (07 R161). -/
def absentLines (s : State) (g : Group) (n : Nat) (accs : List Acc) : List Nat :=
  let tm := teamOf s g.team
  ((accs.map fun a => scratchLines a.ea.toNat n).flatten.filter (lineAbsent tm)).eraseDups

/-- The first fault among scratch or pocket accesses, with every failing thread (07 R158, R160). -/
def spaceFail (s : State) (g : Group) (pocket uni : Bool) (n : Nat) (accs : List Acc) : Option Bad :=
  failOf uni (accs.filterMap fun a => match checkSpace s g pocket n a with
    | .error b => some (a.t, b)
    | .ok _ => none)

/-- The bytes of each thread's load of scratch or its pocket; a run of registers receives four bytes each (08 R198). -/
def spaceLoad (s : State) (g : Group) (req : MemReq) : List RegWr :=
  let tm := teamOf s g.team
  (req.accs.map fun a =>
    let bs := if req.kind == .ldp then pocketRead g.ctx a.t a.ea.toNat req.size else scratchRead tm a.ea.toNat req.size
    if req.kind == .mlds then wrRun req.dst (req.size / 4) a.t (leNat bs)
    else wrDst req.uni req.dst req.ty.regs a.t (extendTo req.ty req.uni (leNat bs))).flatten

/-- Perform each thread's atomic on scratch in temporal order: the registers that receive the old values (07 R177). -/
def spaceAtoms (s : State) (g : Group) (req : MemReq) : List RegWr × State :=
  req.accs.foldl (fun (ws, s) a =>
    let old := leNat (scratchRead (teamOf s g.team) a.ea.toNat req.size)
    let new := atomNew req.op req.ty old a.data a.new
    (ws ++ wrDst req.uni req.dst req.ty.regs a.t (extendTo req.ty req.uni old),
     modTeam s g.team fun tm => scratchWrite tm a.ea.toNat (leBytes req.size new))) ([], s)

/-- Perform the scratch or pocket accesses a window captured (07 R160, R161, R163, R177). One replayed while a line it
touches is absent waits for it. -/
def startSpace (s : State) (h wid : Nat) : State :=
  match groupOf s h with
  | none => s
  | some g => match (winOf g.ctx wid).bind (·.req) with
    | none => s
    | some req =>
      match spaceFail s g (req.kind == .ldp) req.uni req.size req.accs with
      | some b => winFault s h wid b
      | none =>
        let gone := if req.kind == .ldp then [] else absentLines s g req.size req.accs
        if !gone.isEmpty then modWin s h wid fun w => { w with fault := none, waitLines := gone }
        else
          let (ws, s) := if req.kind == .atoms then spaceAtoms s g req else (spaceLoad s g req, s)
          modWin s h wid fun w => { w with fault := none, waitLines := [], vals := ws, done := true }

/-- Perform, or begin, what a window captured (05 R120). -/
def startWin (s : State) (h wid : Nat) : State :=
  match (groupOf s h).bind fun g => (winOf g.ctx wid).bind (·.req) with
  | some r => match r.kind with
    | .lds | .ldp | .atoms | .mlds => startSpace s h wid
    | _ => startVirt s h wid
  | none => s

end Sys2Proof.Machine
end

