-- ==== Sys2Proof/Machine/Memory.lean ====
section
/-! DEFINITION. The memory instructions: loads, stores, near-cache maintenance, atomics, fences and barriers
(07 R156 to R180). -/

namespace Sys2Proof.Machine

/-! ### Shared forms -/

/-- What one thread's word captures: its address, its data and, for `ACAS`, its new value. -/
def accsOf (x : Ctx) (w : Nat) (f : FOps) (space : Bool) (d : Option Word) (eff : Word) (data new : Nat → Nat) : List Acc :=
  (sites f.u w eff).map fun t =>
    { t := t, ea := eaOf x f space (dispOf f d) t, data := data t, new := new t }

/-- The words an instruction has: two in the L form (05 R103). -/
def lenOf (f : FOps) (d : Option Word) : Nat := if d.isSome && f.isL then 2 else 1

/-- The bytes of a type (07 R156). -/
def sizeOfTy (ty : Ty) : Nat := ty.width / 8

/-- Whether an access must wait for an earlier sink group of its thread, of those numbered before `till` (07 R190, R412): it
touches a line on which an instance of the thread acts, or the thread has yet to run marked words in the core. -/
def sinkHolds (x : Ctx) (till : Nat) (uni : Bool) (ps : List Part) : Bool :=
  x.sinks.any fun (i, k) => decide (i < till) && !(x.wins.any fun w => w.id = i && w.fault.isSome) && ps.any fun p =>
    let here := k.core ||| k.unsent ||| k.returned
    (if uni then here != 0 else here.getLsbD p.t) || k.lines.any fun (t, la, _) => la = p.la && (uni || t = p.t)

/-- Whether an access must wait for an earlier access of its thread to the same bytes that has yet to be performed, among the
windows numbered before `till` (12 R281). -/
def winHolds (x : Ctx) (till : Nat) (uni : Bool) (ps : List Part) : Bool :=
  x.wins.any fun w => decide (w.id < till) && !w.done && w.fault.isNone && (match w.req with
    | some r => w.parts.any fun q => q.got.isNone && ps.any fun p =>
        q.la = p.la && (uni || r.uni || q.t = p.t) && decide (q.lo < p.lo + p.n) && decide (p.lo < q.lo + q.n)
    | none => false)

/-- Whether an access must wait for an operation of its group on one of its lines that is on its way to the home (12 R281). -/
def siteHolds (s : State) (h : Nat) (ps : List Part) : Bool :=
  let mine (d : Due) : Bool := match d.ev with
    | .homeAtomic m => m.g == h && ps.any fun p => p.la = m.la
    | .homeRelease m => m.g == h && ps.any fun p => p.la = m.la
    | _ => false
  s.due.any mine || s.lines.any fun l => l.2.queue.any mine || (match l.2.busy with
    | .release q _ => mine q
    | _ => false)

/-- Whether an access must wait for something earlier of its own thread (07 R190, R412, 12 R281). -/
def earlierHolds (s : State) (h : Nat) (x : Ctx) (till : Nat) (uni : Bool) (ps : List Part) : Bool :=
  sinkHolds x till uni ps || winHolds x till uni ps || siteHolds s h ps

/-- Issue a long-latency access of virtual memory (07 R163 to R166, R175, R176): its window opens with the captured
accesses, and they are performed or asked for. `io2` names its data registers; `tx` says that it is forbidden in a
transaction, and `fall` that it makes a region fall back. -/
def issueVirt (s : State) (f : FOps) (d : Option Word) (kind : MemKind) (op : AtomOp) (scope : Scope) (io2 : Io)
    (data new : Ctx → Nat → Nat) (tx fall : Bool) : Host.Outcome State Fault Refusal :=
  match current s with
  | none => .fault .noGroup
  | some (h, g) =>
    let eff := effSet g.ctx g.w f.k f.kn
    let io := (ioAddr f false).join (io2.join (ioDst f.u f.d.toNat f.ty.regs))
    if blocked g.ctx (io.under eff) then .next s
    else
      let (mapped, n) := allocNeed g.ctx io io.vw
      if eff ≠ 0 && allocCheck s h g mapped n == .trap then .next (raise s h (badRec g.ctx eff { code := 0x07 }))
      else
        let accs := accsOf g.ctx g.w f false d eff (data g.ctx) (new g.ctx)
        let req : MemReq := { kind := kind, ty := f.ty, size := sizeOfTy f.ty, uni := f.u, dst := f.d.toNat
                              scope := scope, op := op, eff := eff, accs := accs }
        let (rs, s) := checkAll s g kind.natural req.size (memNeed kind)
          (accs.filter fun a => f.u || !txDoomed g.ctx a.t)
        let ps := partsOf rs
        if earlierHolds s h g.ctx s.nextId f.u ps || (!f.u && ps.any fun p => txLive g.ctx p.t && !lineReady s p.la) then .next s
        else
          let s := if tx then forbid s h eff else s
          let s := if fall && eff ≠ 0 && (badsOf rs).isEmpty then fallBack s h else s
          match groupOf s h with
          | none => .next s
          | some g =>
            let id := s.nextId
            let cycles := if f.u then 1 else laneCycles g.w eff
            .next (startWin (openWin s h g (io.under eff) (lenOf f d) cycles f.la.toNat { id := 0, pc := 0, left := 0, req := some req })
              h id)

/-- Issue a long-latency access of `n` bytes of scratch or pockets into a run of `regs` registers (07 R161, R163, R177,
08 R198): checked, parked while a line it touches is absent, and performed at once. -/
def issueSpaceRun (s : State) (f : FOps) (d : Option Word) (kind : MemKind) (n regs : Nat) (op : AtomOp) (io2 : Io)
    (data : Ctx → Nat → Nat) (fall : Bool) : Host.Outcome State Fault Refusal :=
  match current s with
  | none => .fault .noGroup
  | some (h, g) =>
    let eff := effSet g.ctx g.w f.k f.kn
    let io := (ioAddr f true).join (io2.join (ioDst f.u f.d.toNat regs))
    if blocked g.ctx (io.under eff) then .next s
    else
      let (mapped, need) := allocNeed g.ctx io io.vw
      if eff ≠ 0 && allocCheck s h g mapped need == .trap then .next (raise s h (badRec g.ctx eff { code := 0x07 }))
      else
        let accs := accsOf g.ctx g.w f true d eff (data g.ctx) fun _ => 0
        let req : MemReq := { kind := kind, ty := f.ty, size := n, uni := f.u, dst := f.d.toNat
                              op := op, eff := eff, accs := accs }
        let bad := spaceFail s g (kind == .ldp) f.u req.size accs
        let gone := if kind == .ldp || bad.isSome then [] else absentLines s g req.size accs
        if !gone.isEmpty then .next (park s h (.scratch gone) 1)
        else
          let s := if fall && eff ≠ 0 && bad.isNone then fallBack s h else s
          match groupOf s h with
          | none => .next s
          | some g =>
            let id := s.nextId
            let cycles := if f.u then 1 else laneCycles g.w eff
            .next (startWin (openWin s h g (io.under eff) (lenOf f d) cycles f.la.toNat { id := 0, pc := 0, left := 0, req := some req })
              h id)

/-- Issue a long-latency access of scratch or pockets by its type. -/
def issueSpace (s : State) (f : FOps) (d : Option Word) (kind : MemKind) (op : AtomOp) (io2 : Io)
    (data : Ctx → Nat → Nat) (fall : Bool) : Host.Outcome State Fault Refusal :=
  issueSpaceRun s f d kind (sizeOfTy f.ty) f.ty.regs op io2 data fall

/-! ### Loads -/

/-- `LD` (07 R163). -/
def execLd (f : FOps) (d : Word) (s : State) : Host.Outcome State Fault Refusal :=
  issueVirt s f (some d) .ld .add .grp {} (fun _ _ => 0) (fun _ _ => 0) false false
/-- `LDC` (07 R164). -/
def execLdc (f : FOps) (d : Word) (s : State) : Host.Outcome State Fault Refusal :=
  issueVirt s f (some d) .ldc .add .grp {} (fun _ _ => 0) (fun _ _ => 0) false false
/-- `LDA` (07 R165). -/
def execLda (f : FOps) (d : Word) (s : State) : Host.Outcome State Fault Refusal :=
  issueVirt s f (some d) .lda .add (f.scope.getD .grp) {} (fun _ _ => 0) (fun _ _ => 0) true false
/-- `LDX` (07 R166). -/
def execLdx (f : FOps) (d : Word) (s : State) : Host.Outcome State Fault Refusal :=
  issueVirt s f (some d) .ldx .add .grp {} (fun _ _ => 0) (fun _ _ => 0) true false
/-- `LDS` (07 R163). -/
def execLds (f : FOps) (d : Word) (s : State) : Host.Outcome State Fault Refusal :=
  issueSpace s f (some d) .lds .add {} (fun _ _ => 0) false
/-- `LDP` (07 R163). -/
def execLdp (f : FOps) (d : Word) (s : State) : Host.Outcome State Fault Refusal :=
  issueSpace s f (some d) .ldp .add {} (fun _ _ => 0) false

/-- Issue a word that writes no register and acts through addresses of single bytes, one after another (07 R167, R170):
`body` acts for the group on the list of its threads' addresses. -/
def issueAddr (s : State) (f : FOps) (tx : Bool)
    (body : State → Nat → Group → Word → List Acc → State ⊕ Bad) : Host.Outcome State Fault Refusal :=
  match current s with
  | none => .fault .noGroup
  | some (h, g) =>
    let eff := effSet g.ctx g.w f.k f.kn
    let io := ioAddr f false
    if blocked g.ctx io then .next s
    else
      let accs := accsOf g.ctx g.w f false none eff (fun _ => 0) (fun _ => 0)
      let s := if tx then forbid s h eff else s
      match body s h g eff accs with
      | .inr b => .next (raise s h (badRec g.ctx eff b))
      | .inl s =>
        match groupOf s h with
        | none => .next s
        | some g => .next (retire s h g io 1 (if f.u then 1 else laneCycles g.w eff) {})

/-- Bring one thread's line closer (07 R167); a line that a copy of the kind asked for already serves is left alone. -/
def prefetchLine (s : State) (h : Nat) (g : Group) (mod : Nat) (p : Part) : State :=
  if onCounters (partOf s (groupPart s g)) p.la then s
  else
    let kind : CopyKind := match mod with
      | 0 => .leased
      | 1 => .sliceOnly
      | _ => .exclusive
    let held : Bool := match nearLine s g.core p.la with
      | some n => n.slot == p.slot && (match kind with
        | .exclusive => n.st == .exclusive
        | .sliceOnly => false
        | _ => n.st == .dirty || n.st == .exclusive || (n.st == .leased && decide (g.ctx.rv ≤ n.le)))
      | none => false
    if held then s else askLine s h g p.la p.slot kind

/-- `PREF` (07 R167): a thread whose check fails, or that is in a doomed transaction, is skipped. -/
def execPref (f : FOps) (s : State) : Host.Outcome State Fault Refusal :=
  issueAddr s f false fun s h g _ accs =>
    let (rs, s) := checkAll s g false 1 .read (accs.filter fun a => f.u || !txDoomed g.ctx a.t)
    let ls := ((partsOf rs).map fun p => (p.la, p.slot)).eraseDups
    .inl (each ls s fun s (la, slot) => prefetchLine s h g f.mod.toNat { t := 0, pos := 0, la := la, slot := slot, lo := 0, n := 1 })

/-! ### Stores -/

/-- The data of a store's thread (07 R168). -/
def storeData (x : Ctx) (f : FOps) (t : Nat) : Nat :=
  (if f.u then (readS x f.d.toNat).toNat else readRun x f.d.toNat f.ty.regs t) % 2 ^ f.ty.width

/-- The registers a store reads. -/
def ioStore (f : FOps) (space : Bool) : Io := (ioAddr f space).join (ioSrc f.u f.d.toNat f.ty.regs f.lrC)

/-- Whether a store can write a line now: the core's own copy lies beneath it, or one can be fetched at once. -/
def storeReady (s : State) (c la slot rv : Nat) : Bool :=
  match nearLine s c la with
  | some n => n.slot == slot
      && (n.st == .dirty || n.st == .exclusive || (n.st == .leased && decide (rv ≤ n.le)) || canFetch s c la)
  | none => canFetch s c la

/-- The bytes of one part of a thread's store, in their place in the line. -/
def partData (a : Acc) (n : Nat) (p : Part) : LineData :=
  placeBytes p.lo ((leBytes n a.data).drop p.pos |>.take p.n)

/-- Write one part of a store: pending for its thread's transaction, pending for the group's region, or dirty
(07 R168, R183, 09 R240). -/
def storePart (s : State) (h : Nat) (g : Group) (uni : Bool) (n : Nat) (a : Acc) (p : Part) : State :=
  let data := partData a n p
  let mask := maskBytes p.lo p.n
  if !uni && inTx g.ctx a.t then pendWrite s h g.core (some a.t) p.la p.slot g.ctx.rv data mask
  else if inRegion g.ctx then pendWrite s h g.core none p.la p.slot g.ctx.rv data mask
  else nearWrite s h g.core p.la p.slot g.ctx.rv data mask

/-- Perform a checked store of virtual memory by the threads whose parts are given, lowest thread first (07 R159, R168):
transactional lines enter their write sets, and outside a region the store counts until its acknowledgement. -/
def performStore (s : State) (h : Nat) (uni : Bool) (n : Nat) (rs : List (Acc × List Part)) : State :=
  match groupOf s h with
  | none => s
  | some g =>
    let s := if uni then s else each rs s fun s (a, ps) => each ps s fun s p => txTouch s h a.t p.la p.slot true
    match groupOf s h with
    | none => s
    | some g' =>
      let rs := rs.filter fun r => uni || !txDoomed g'.ctx r.1.t
      let s := each rs s fun s (a, ps) => each ps s fun s p => match groupOf s h with
        | some g => if !uni && txDoomed g.ctx a.t then s else storePart s h g uni n a p
        | none => s
      if !inRegion g.ctx && (rs.any fun r => uni || !inTx g'.ctx r.1.t) then outSoon s h else s

/-- What trying a store comes to: its fault, a wait for a line, or its effect. -/
inductive Try where
  | bad (b : Bad) (s : State)
  | wait (s : State)
  | done (s : State)
  deriving DecidableEq, Repr

/-- Try a store of virtual memory (07 R158, R159, R168): the threads in doomed transactions are left out, and one whose
check fails in a transaction is doomed. -/
def tryStore (s : State) (h : Nat) (g : Group) (uni : Bool) (n : Nat) (accs : List Acc) (till : Nat) : Try :=
  let (rs, s) := checkAll s g false n .write (accs.filter fun a => uni || !txDoomed g.ctx a.t)
  let bads := badsOf rs
  match failOf uni (bads.filter fun b => uni || !inTx g.ctx b.1) with
  | some b => .bad b s
  | none =>
    let ps := partsOf rs
    let lines := (ps.map fun p => (p.la, p.slot)).eraseDups
    let s := each lines s fun s (la, slot) => dropOther s g.core la slot
    if earlierHolds s h g.ctx till uni ps || lines.any (fun (la, slot) => !storeReady s g.core la slot g.ctx.rv) then .wait s
    else
      let s := each bads s fun s b => doomThread s h b.1 5 0
      .done (performStore s h uni n (rs.filterMap fun (a, r) => match r with
        | .ok ps => some (a, ps)
        | .error _ => none))

/-- `ST` (07 R168). -/
def execSt (f : FOps) (d : Word) (s : State) : Host.Outcome State Fault Refusal :=
  match current s with
  | none => .fault .noGroup
  | some (h, g) =>
    let eff := effSet g.ctx g.w f.k f.kn
    let io := ioStore f false
    if blocked g.ctx io then .next s
    else match tryStore s h g f.u (sizeOfTy f.ty) (accsOf g.ctx g.w f false (some d) eff (storeData g.ctx f) fun _ => 0)
        s.nextId with
      | .bad b s => .next (raise s h (badRec g.ctx eff b))
      | .wait s => .next s
      | .done s => match groupOf s h with
        | none => .next s
        | some g => .next (retire s h g io (lenOf f (some d)) (if f.u then 1 else laneCycles g.w eff) {})

/-- Perform checked stores to scratch or pockets, lowest thread first. -/
def spaceStore (s : State) (h : Nat) (g : Group) (pocket : Bool) (n : Nat) (accs : List Acc) : State :=
  each accs s fun s a =>
    if pocket then modCtx s h fun x => pocketWrite x a.t a.ea.toNat (leBytes n a.data)
    else modTeam s g.team fun tm => scratchWrite tm a.ea.toNat (leBytes n a.data)

/-- Issue a store of `n` bytes to scratch or pockets (07 R161, R168, 08 R198). -/
def issueSpaceStoreRun (s : State) (f : FOps) (l : Option Word) (pocket fall : Bool) (n : Nat) (io : Io)
    (data : Ctx → Nat → Nat) : Host.Outcome State Fault Refusal :=
  match current s with
  | none => .fault .noGroup
  | some (h, g) =>
    let eff := effSet g.ctx g.w f.k f.kn
    if blocked g.ctx io then .next s
    else
      let accs := accsOf g.ctx g.w f true l eff (data g.ctx) fun _ => 0
      match spaceFail s g pocket f.u n accs with
      | some b => .next (raise s h (badRec g.ctx eff b))
      | none =>
        let gone := if pocket then [] else absentLines s g n accs
        if !gone.isEmpty then .next (park s h (.scratch gone) 1)
        else
          let s := spaceStore (if eff = 0 || !fall then s else fallBack s h) h g pocket n accs
          match groupOf s h with
          | none => .next s
          | some g => .next (retire s h g io (lenOf f l) (if f.u then 1 else laneCycles g.w eff) {})

/-- Issue a store to scratch or pockets by its type. -/
def issueSpaceStore (s : State) (f : FOps) (d : Word) (pocket : Bool) : Host.Outcome State Fault Refusal :=
  issueSpaceStoreRun s f (some d) pocket true (sizeOfTy f.ty) (ioStore f true) fun x => storeData x f

/-- `STS` (07 R168). -/
def execSts (f : FOps) (d : Word) (s : State) : Host.Outcome State Fault Refusal := issueSpaceStore s f d false
/-- `STP` (07 R168). -/
def execStp (f : FOps) (d : Word) (s : State) : Host.Outcome State Fault Refusal := issueSpaceStore s f d true

/-- Whether one of a group's operations is on its way to be performed at a home. -/
def siteInFlight (s : State) (h : Nat) : Bool :=
  let mine (d : Due) : Bool := match d.ev with
    | .homeAtomic m => m.g == h
    | .homeRelease m => m.g == h
    | _ => false
  s.due.any mine || s.lines.any fun l => l.2.queue.any mine || (match l.2.busy with
    | .release q _ => mine q
    | _ => false)

/-- Put away a core's own copies of lines that are about to be acted on at their homes (12 R290, R281). -/
def putAway (s : State) (c : Nat) (lines : List Nat) : State :=
  each lines s fun s la => maintain s c la none true

/-- Whether a line lies in the host's memory (21 R373). -/
def hostLine (la : Nat) : Bool := decide (Config.hostBase ≤ 128 * la)

/-- Send a core's writes to the host's memory across the link, as a `.sys` release of a group needs (12 R301); the group counts them
until they are acknowledged. -/
def sendHost (s : State) (c h : Nat) : State :=
  each (((coreOf s c).near.filter fun n => hostLine n.1 && n.2.isDirty).map (·.1)) s fun s la => writeBack s c la (some h) none false

/-- Whether a core's writes to the host's memory are all acknowledged. -/
def hostQuiet (s : State) (c : Nat) : Bool :=
  !s.due.any fun d => match d.ev with
    | .nearCacheWriteback m => m.core == c && hostLine m.la
    | .writebackAck m _ => m.core == c && hostLine m.la
    | _ => false

/-- `STRL` (07 R169): once every earlier access of the group is done, the store is performed at its home, which records
the release, or, at a scope within the core, in the near cache. At `.sys` the core's writes to the host's memory are acknowledged
first (12 R301). -/
def execStrl (f : FOps) (d : Word) (s : State) : Host.Outcome State Fault Refusal :=
  match current s with
  | none => .fault .noGroup
  | some (h, g) =>
    let eff := effSet g.ctx g.w f.k f.kn
    let io := ioStore f false
    let scope := f.scope.getD .grp
    let done (s : State) : Host.Outcome State Fault Refusal :=
      match groupOf s h with
      | none => .next s
      | some g => .next (retire s h g io (lenOf f (some d)) (if f.u then 1 else laneCycles g.w eff) {})
    if blocked g.ctx io then .next s
    else
      let n := sizeOfTy f.ty
      let s := forbid s h eff
      let accs := (accsOf g.ctx g.w f false (some d) eff (storeData g.ctx f) fun _ => 0).filter fun a =>
        f.u || !inTx g.ctx a.t
      let (rs, s) := checkAll s g true n .write accs
      match failOf f.u (badsOf rs) with
      | some b => .next (raise s h (badRec g.ctx eff b))
      | none =>
        let ps := partsOf rs
        if eff = 0 then done s
        else if !settled g.ctx || !g.out.isEmpty || sinkHolds g.ctx s.nextId f.u ps then .next s
        else
          let s := fallBack s h
          let lines := (ps.map fun p => (p.la, p.slot)).eraseDups
          let good := rs.filterMap fun (a, r) => match r with
            | .ok ps => some (a, ps)
            | .error _ => none
          if wideScope s g scope then
            let s := putAway s g.core (lines.map (·.1))
            let s := if scope == .sys then sendHost s g.core h else s
            if lines.any (fun l => wbInFlight s g.core l.1) || (scope == .sys && !hostQuiet s g.core) then .next s
            else
              let pair := (teamOf s g.team).pair
              let sc := if scope == .team && pair then .die else scope
              done (each good s fun s (a, ps) => each ps s fun s p =>
                let (id, s) := addOut s h
                send s (.homeRelease { id := id, core := g.core, g := h, scope := sc, la := p.la, slot := p.slot
                                       data := partData a n p, mask := maskBytes p.lo p.n, vw := g.ctx.rv }))
          else
            let s := each lines s fun s (la, slot) => dropOther s g.core la slot
            if lines.any (fun (la, slot) => !storeReady s g.core la slot g.ctx.rv) then .next s
            else done (performStore s h f.u n good)

/-! ### Near-cache maintenance -/

/-- `CLEAN` and `INVAL` (07 R170): only translation is checked, and a thread in a transaction whose translation fails is
passed over. Doomed threads' lines are cleaned too (log entry 18). -/
def issueMaintain (s : State) (f : FOps) (drop : Bool) : Host.Outcome State Fault Refusal :=
  issueAddr s f true fun s h g eff accs =>
    let (rs, s) := checkAll s g false 1 .any accs
    match failOf f.u ((badsOf rs).filter fun b => f.u || !inTx g.ctx b.1) with
    | some b => .inr b
    | none =>
      let s := if eff = 0 then s else fallBack s h
      .inl (each ((partsOf rs).map (·.la)).eraseDups s fun s la =>
        let s := maintain s g.core la (some h) drop
        if drop then dropNear s g.core (constKey la) else s)

/-- `CLEAN` (07 R170). -/
def execClean (f : FOps) (s : State) : Host.Outcome State Fault Refusal := issueMaintain s f false
/-- `INVAL` (07 R170). -/
def execInval (f : FOps) (s : State) : Host.Outcome State Fault Refusal := issueMaintain s f true

/-- Issue a word that acts once for the group where E is not empty, and reads no register. -/
def issueGroup (s : State) (f : FOps) (tx fall : Bool) (body : State → Nat → Group → State) :
    Host.Outcome State Fault Refusal :=
  match current s with
  | none => .fault .noGroup
  | some (h, g) =>
    let eff := effSet g.ctx g.w f.k f.kn
    let s := if tx then forbid s h eff else s
    let s := if fall && eff ≠ 0 then fallBack s h else s
    let s := if eff = 0 then s else match groupOf s h with
      | some g => body s h g
      | none => s
    match groupOf s h with
    | none => .next s
    | some g => .next (retire s h g {} 1 1 {})

/-- `FLUSHN` (07 R171): every line of the core's near cache. -/
def execFlushn (f : FOps) (s : State) : Host.Outcome State Fault Refusal :=
  issueGroup s f true true fun s h g =>
    each ((coreOf s g.core).near.map (·.1)) s fun s la => maintain s g.core la (some h) (f.mod == 1)

/-! ### Atomics -/

/-- The data register of an atomic (07 R173). -/
def atomData (f : FOps) (x : Ctx) (t : Nat) : Nat :=
  (if f.u then (readS x f.c.toNat).toNat else readRun x f.c.toNat f.ty.regs t) % 2 ^ f.ty.width

/-- `ATOM` (07 R175). -/
def execAtom (f : FOps) (s : State) : Host.Outcome State Fault Refusal :=
  issueVirt s f none .atom (atomOf f.mod.toNat) (f.scope.getD .grp) (ioSrc f.u f.c.toNat f.ty.regs f.lrC) (atomData f)
    (fun _ _ => 0) true true

/-- `ACAS`'s new value (07 R176): the register, or pair, after the comparand's. -/
def acasNew (f : FOps) (x : Ctx) (t : Nat) : Nat :=
  (if f.u then (readS x (f.c.toNat + 1)).toNat else readRun x (f.c.toNat + f.ty.regs) f.ty.regs t) % 2 ^ f.ty.width

/-- `ACAS` (07 R176). -/
def execAcas (f : FOps) (s : State) : Host.Outcome State Fault Refusal :=
  let io := if f.u then { ur := [f.c.toNat, f.c.toNat + 1] } else ioSrc false f.c.toNat (2 * f.ty.regs) f.lrC
  issueVirt s f none .acas .cas (f.scope.getD .grp) io (atomData f) (acasNew f) true true

/-- `ATOMS` (07 R177). -/
def execAtoms (f : FOps) (s : State) : Host.Outcome State Fault Refusal :=
  issueSpace s f none .atoms (atomOf f.mod.toNat) (ioSrc f.u f.c.toNat f.ty.regs f.lrC) (atomData f) true

/-- Perform, or send on its way, one thread's `AREDN` (07 R177): in the near cache of a core that holds the line
exclusively, otherwise at the home. -/
def arednPart (s : State) (h : Nat) (g : Group) (f : FOps) (n : Nat) (a : Acc) (p : Part) : State :=
  let op := atomOf f.mod.toNat
  match atomNear s h g.core g.ctx.rv op f.ty n p.la p.slot p.lo a with
  | some (_, s) => outSoon s h
  | none =>
    let (id, s) := addOut s h
    send s (.homeAtomic { id := id, core := g.core, g := h, la := p.la, slot := p.slot, off := p.lo, op := op, ty := f.ty
                          data := .ofNat 64 a.data, vw := g.ctx.rv })

/-- `AREDN` (07 R177). -/
def execAredn (f : FOps) (s : State) : Host.Outcome State Fault Refusal :=
  match current s with
  | none => .fault .noGroup
  | some (h, g) =>
    let eff := effSet g.ctx g.w f.k f.kn
    let io := (ioAddr f false).join (ioSrc f.u f.c.toNat f.ty.regs f.lrC)
    if blocked g.ctx io then .next s
    else
      let n := sizeOfTy f.ty
      let s := forbid s h eff
      let accs := (accsOf g.ctx g.w f false none eff (atomData f g.ctx) fun _ => 0).filter fun a => f.u || !inTx g.ctx a.t
      let (rs, s) := checkAll s g true n .both accs
      match failOf f.u (badsOf rs) with
      | some b => .next (raise s h (badRec g.ctx eff b))
      | none =>
        let ps := partsOf rs
        let excl (la slot : Nat) : Bool := match nearLine s g.core la with
          | some x => x.st == .exclusive && x.slot == slot
          | none => false
        let away := ((ps.filter fun p => !excl p.la p.slot).map (·.la)).eraseDups
        if sinkHolds g.ctx s.nextId f.u ps || winHolds g.ctx s.nextId f.u ps then .next s
        else
          let s := if eff = 0 then s else fallBack s h
          let s := putAway s g.core away
          if away.any fun la => wbInFlight s g.core la then .next s
          else
            let s := each rs s fun s (a, r) => match r with
              | .ok ps => each ps s fun s p => arednPart s h g f n a p
              | .error _ => s
            match groupOf s h with
            | none => .next s
            | some g => .next (retire s h g io 1 (if f.u then 1 else laneCycles g.w eff) {})

/-! ### Fences and barriers -/

/-- Whether nothing written back by a core is still on its way or unacknowledged. -/
def coreQuiet (s : State) (c : Nat) : Bool :=
  !s.due.any fun d => match d.ev with
    | .nearCacheWriteback m => m.core == c
    | .writebackAck m _ => m.core == c
    | _ => false

/-- Write back every dirty line of a core's near cache, exclusive dirty ones included (07 R178, 12 R290). -/
def drainCore (s : State) (c : Nat) (grp drain : Option Nat) : State :=
  each (((coreOf s c).near.filter fun n => n.2.isDirty).map (·.1)) s fun s la => writeBack s c la grp drain false

/-- The release part of a fence or of an arrival: whether it is complete, and the state it leaves (07 R178, 12 R291). A
wide one first writes every dirty line of the core back, then waits for the acknowledgements. -/
def releasePart (s : State) (h : Nat) (g : Group) (wide : Bool) : Bool × State :=
  if !settled g.ctx || siteInFlight s h then (false, s)
  else if !wide then (true, s)
  else if g.ctx.phase = 0 then
    (false, modCtx (drainCore s g.core (some h) none) h fun x => { x with phase := 1 })
  else (coreQuiet s g.core, s)

/-- A fence of a group with threads in E, from the state its region and transactions leave (07 R178, 12 R290, R291). One that only
acquires waits for the group's earlier loads, whose vintages it takes (12 R283, R284). -/
def fenceFrom (s : State) (h : Nat) (g : Group) (f : FOps) : Host.Outcome State Fault Refusal :=
  let wide := wideScope s g (f.scope.getD .grp)
  let (ok, s) := if f.mod == 2 then (settled g.ctx, s) else releasePart s h g wide
  if !ok then .next s
  else match groupOf s h with
    | none => .next s
    | some g =>
      let rv := if wide && f.mod != 1 then max g.ctx.rv (coreOf s g.core).obsv else g.ctx.rv
      let s := if wide || f.mod == 1 then s else dropStale s g.core
      .next (retire s h { g with ctx := { g.ctx with rv := rv } } {} 1 1 {})

/-- `FENCE` (07 R178). -/
def execFence (f : FOps) (s : State) : Host.Outcome State Fault Refusal :=
  match current s with
  | none => .fault .noGroup
  | some (h, g) =>
    let g := { g with ctx := endWins g.ctx }
    let eff := effSet g.ctx g.w f.k f.kn
    let s := setGroup s h g
    if eff = 0 then .next (retire s h g {} 1 1 {})
    else
      let s := fallBack (forbid s h eff) h
      match groupOf s h with
      | none => .next s
      | some g => fenceFrom s h g f

/-- An arrival of a group at a barrier of its team, the release part being done (07 R180): the barrier's count becomes `bar`'s, and
the group waits where `wait` says so. -/
def arriveBar (s : State) (h : Nat) (g : Group) (b : Nat) (bar : Bar) (wait : Bool) : State :=
  let s := modTeam (spend s h 1) g.team fun tm => { tm with bars := put tm.bars b bar }
  if !wait then modCtx s h fun x => { passWins x 1 with pc := x.pc + 8, phase := 0 }
  else
    let s := modGroup s h fun g => { g with run := .parked (.barrier b), ctx := { g.ctx with barWait := some b }
                                            parkedAt := (coreOf s g.core).cycles }
    if bar.arrived.length < bar.expected then postPark s g 2 else s

/-- Arrive at a barrier, and wait at it where `wait` says so (07 R179, R180). `drain` first waits until nothing of the
group is outstanding. -/
def issueBar (s : State) (f : FOps) (wait drain : Bool) : Host.Outcome State Fault Refusal :=
  match current s with
  | none => .fault .noGroup
  | some (h, g) =>
    let g := { g with ctx := endWins g.ctx }
    let s := fallBack (setGroup s h g) h
    let b := f.d.toNat
    let tm := teamOf s g.team
    let bar := look tm.bars b {}
    let every := !f.x0
    let n := if every then (liveGroups s g.team).length else f.imm12.toNat
    let bad : Bool := !g.ctx.stack.isEmpty
      || (bar.expected != 0 && (bar.every != every || (!every && bar.expected != n))) || bar.arrived.contains g.gid
    if drain && !g.out.isEmpty then .next (modGroup s h fun g => { g with run := .parked .outstanding })
    else if bad then .next (raise s h (badRec g.ctx g.ctx.active { code := 0x18 }))
    else
      let (ok, s) := releasePart s h g tm.pair
      if !ok then .next s
      else
        let want := if bar.expected = 0 then n else bar.expected
        .next (barrierCheck (arriveBar s h g b { every := every, expected := want, arrived := bar.arrived ++ [g.gid] } wait) g.team b)

/-- `BARW` (07 R180). -/
def execBarw (f : FOps) (s : State) : Host.Outcome State Fault Refusal := issueBar s f true false
/-- `BARA` (07 R180). -/
def execBara (f : FOps) (s : State) : Host.Outcome State Fault Refusal := issueBar s f false false
/-- `DRAIN` (07 R179). -/
def execDrain (f : FOps) (s : State) : Host.Outcome State Fault Refusal := issueBar s f true true

end Sys2Proof.Machine
end

