-- ==== Sys2Proof/Machine/Matrix.lean ====
section
/-! DEFINITION. The matrix instructions that act on registers: products, fragment moves and transposes (08 R193 to
R199). -/

namespace Sys2Proof.Machine

/-! ### Fragments -/

/-- The sizes that an element format fixes (08 R194): K, the registers of the A group, of one B row, and of a scale row. -/
structure Frag where
  k : Nat := 16
  a : Nat := 8
  row : Nat := 8
  scale : Nat := 0
  deriving DecidableEq, Repr

/-- The sizes of a format (08 R194). -/
def fragOf (efmt : Nat) : Frag :=
  match efmt with
  | 1 => { k := 128, a := 12, row := 2, scale := 4 }
  | 2 => { k := 64, a := 10, row := 3, scale := 2 }
  | 3 => { k := 32, a := 8, row := 4, scale := 1 }
  | 4 => { k := 32, a := 8, row := 4 }
  | 8 => { k := 8, a := 16, row := 16 }
  | _ => {}

/-- Whether a format is SB (04 R79). -/
def isSb (efmt : Nat) : Bool := efmt == 1 || efmt == 2 || efmt == 3

/-- The registers of the B group at a width (08 R194). -/
def Frag.b (fr : Frag) (w : Nat) : Nat := fr.row * ceilDiv fr.k w

/-- The bits of an element that is not SB. -/
def elemWidth (efmt : Nat) : Nat := 8 * elemBytes efmt

/-- Field `i` of a bit string of equal fields. -/
def fieldAt (x width i : Nat) : Nat := x / 2 ^ (width * i) % 2 ^ width

/-- The exponent byte of block `q` in a run of scale registers, and its byte of micro-exponents (08 R195). -/
def scaleAt (x q : Nat) : Nat × Nat := (fieldAt x 8 (2 * q), fieldAt x 8 (2 * q + 1))

/-- An SB element from its field, its block's two scale bytes and its place in the block. -/
def sbAt (efmt field : Nat) (sc : Nat × Nat) (i : Nat) : FV :=
  sbValue (sbBits efmt) field sc.1 (if sc.2.testBit (i / 2) then 1 else 0)

/-- Row `t` of A (08 R195): its K elements. -/
def rowA (x : Ctx) (f : FOps) (efmt t : Nat) : List FV :=
  let fr := fragOf efmt
  let bits := readRun x f.a.toNat fr.a t
  if isSb efmt then
    let sc := readRun x f.c.toNat fr.scale t
    (List.range fr.k).map fun k => sbAt efmt (fieldAt bits (sbBits efmt + 1) k) (scaleAt sc (k / 16)) (k % 16)
  else (List.range fr.k).map fun k => elemValue efmt (fieldAt bits (elemWidth efmt) k)

/-- Row `k` of B as the bits its thread holds (08 R194). -/
def rowB (x : Ctx) (f : FOps) (w efmt k : Nat) : Nat :=
  let fr := fragOf efmt
  readRun x (f.b.toNat + k / w * fr.row) fr.row (k % w)

/-- Column `n` of B from its rows (08 R195): an SB column's scales lie in thread `n`'s registers after those of A. -/
def colB (x : Ctx) (f : FOps) (efmt n : Nat) (rows : List Nat) : List FV :=
  let fr := fragOf efmt
  if isSb efmt then
    let sc := readRun x (f.c.toNat + fr.scale) fr.scale n
    (rows.zip (List.range fr.k)).map fun (r, k) => sbAt efmt (fieldAt r (sbBits efmt + 1) n) (scaleAt sc (k / 16)) (k % 16)
  else rows.map fun r => elemValue efmt (fieldAt r (elemWidth efmt) n)

/-- Accumulate the products of a row and a column (04 R86 to R89). -/
def dot (efmt acc : Nat) (a b : List FV) : Nat × Nat :=
  let ps := (a.zip b).map fun (x, y) => prodV x y
  if efmt = 8 then accumulate64 (acc, 0) ps else accumulate (sumWindow efmt) (acc, 0) ps

/-! ### `MMA` and `MMAZ` -/

/-- The columns a product has: sixteen, or eight of FP64. -/
def mmaCols (efmt : Nat) : Nat := if efmt = 8 then 8 else 16

/-- Whether a product's slot and register groups are accepted (08 R197). -/
def mmaOk (f : FOps) (w efmt : Nat) : Bool :=
  let fr := fragOf efmt
  let c := run f.d.toNat 16
  let a := run f.a.toNat fr.a
  let b := run f.b.toNat (fr.b w)
  let sc := run f.c.toNat (2 * fr.scale)
  (if f.ty == .f64 then efmt == 8 else decide (1 ≤ efmt && efmt ≤ 6))
    && (a ++ b ++ c ++ sc).all (fun r => decide (r < 64)) && !meets c (a ++ b ++ sc)
    && (isSb efmt || (f.c == 0 && !f.lrC))

/-- The registers of a product. -/
def mmaIo (f : FOps) (w efmt : Nat) (zero : Bool) : Io :=
  let fr := fragOf efmt
  (ioSrc false f.a.toNat fr.a f.lrA).join ((ioSrc false f.b.toNat (fr.b w) f.lrB).join
    ((ioSrc false f.c.toNat (2 * fr.scale) f.lrC).join
      ((ioSrc false f.d.toNat (if zero then 0 else 16) false).join (ioDst false f.d.toNat 16))))

/-- The product's new accumulators for the threads of E, and the flags they raise (08 R196, 04 R90). The format is
checked also where E is empty (log entry 17). -/
def mmaBody (f : FOps) (efmt : Nat) (zero : Bool) (x : Ctx) (w : Nat) (eff : Word) : Except Bad Res :=
  if !mmaOk f w efmt then .error { code := 0x0A }
  else
    let n := mmaCols efmt
    let regs := 16 / n
    let rows := (List.range (fragOf efmt).k).map (rowB x f w efmt)
    let cols := (List.range n).map fun j => colB x f efmt j rows
    .ok (perThread false w eff fun t =>
      let a := rowA x f efmt t
      let rs := (List.range n).map fun j =>
        let d := f.d.toNat + regs * j
        let (v, fl) := dot efmt (if zero then 0 else readRun x d regs t) a (cols.getD j [])
        (wrRun d regs t v, fl)
      { wr := (rs.map (·.1)).flatten, flags := orFlags (rs.map (·.2)) })

/-- Issue a product (08 R193 to R197). -/
def issueMma (s : State) (f : FOps) (zero : Bool) : Host.Outcome State Fault Refusal :=
  match current s with
  | none => .fault .noGroup
  | some (_, g) =>
    let efmt := (groupLaunch s g).rc.fmts.getD f.mod.toNat 0 % 16
    issueLong s f (mmaIo f g.w efmt zero) (mmaBody f efmt zero)

/-- `MMA` (08 R196). -/
def execMma (f : FOps) (s : State) : Host.Outcome State Fault Refusal := issueMma s f false
/-- `MMAZ` (08 R196): every updated accumulator starts from +0. -/
def execMmaz (f : FOps) (s : State) : Host.Outcome State Fault Refusal := issueMma s f true

/-! ### Fragment moves -/

/-- The registers of a fragment move (08 R198). -/
def fragRun (f : FOps) : Nat := 4 * (f.mod.toNat + 1)

/-- `MLDS` (08 R198). -/
def execMlds (f : FOps) (s : State) : Host.Outcome State Fault Refusal :=
  issueSpaceRun s f none .mlds (4 * fragRun f) (fragRun f) .add {} (fun _ _ => 0) false

/-- `MSTS` (08 R198). -/
def execMsts (f : FOps) (s : State) : Host.Outcome State Fault Refusal :=
  issueSpaceStoreRun s f none false false (4 * fragRun f)
    ((ioAddr f true).join (ioSrc false f.d.toNat (fragRun f) f.lrC)) fun x t => readRun x f.d.toNat (fragRun f) t

/-- The transposed run of one thread (08 R199): element `j` is element `t mod 16` of thread `16 g + j`. -/
def transposed (x : Ctx) (f : FOps) (t : Nat) : Nat :=
  let n := mtrnRegs f.ty
  let ew := f.ty.width
  ((List.range 16).map fun j =>
    fieldAt (readRun x f.a.toNat n (t / 16 * 16 + j)) ew (t % 16) * 2 ^ (ew * j)).sum

/-- `MTRN` (08 R199). -/
def execMtrn (f : FOps) (s : State) : Host.Outcome State Fault Refusal :=
  let n := mtrnRegs f.ty
  issue s Op.mtrn.code 1 f.k f.kn false ((ioSrc false f.a.toNat n f.lrA).join (ioDst false f.d.toNat n)) fun x w eff =>
    .ok (perThread false w eff fun t => { wr := wrRun f.d.toNat n t (transposed x f t) })

end Sys2Proof.Machine
end

