-- ==== Sys2Proof/Machine/EngineOps.lean ====
section
/-! DEFINITION. What engine commands do: engine addresses, reads and writes of memory and scratch, copies, loop nests,
Press programs, tile products and stores, and collectives (08 R201 to R225, 04 R79 to R90). -/

namespace Sys2Proof.Machine

/-! ### Addresses and ranges -/

/-- Whether an engine address names scratch (08 R201). -/
def inScratch (a : Word) : Bool := a.getLsbD 63

/-- Whether a value is an engine address (08 R201). -/
def goodAddr (a : Word) : Bool := if inScratch a then bits a.toNat 62 21 = 0 else bits a.toNat 62 56 = 0

/-- A scratch address of an engine address. -/
def scratchPart (a : Word) : Nat := a.toNat % 2 ^ 21

/-- Whether a range of scratch lies in its team's scratch (07 R160, 08 R202); an empty one does. -/
def rangeOk (s : State) (g : Group) (a n : Nat) : Bool := n = 0 || (scratchOk s g a 1 && decide (a % 2 ^ 20 + n ≤ scratchSize s g))

/-- The fault of an engine operand range: a bad address, or one beyond the scratch (08 R201, R202). -/
def addrBad (s : State) (g : Group) (a : Word) (n : Nat) : Option Bad :=
  if !goodAddr a then some { code := 0x20 }
  else if inScratch a && !rangeOk s g (scratchPart a) n then some { code := 0x11, va := scratchPart a }
  else none

/-- The same for a range around an address, from `lo` to `hi` bytes. -/
def spanBad (s : State) (g : Group) (a : Word) (lo hi : Int) : Option Bad :=
  if !goodAddr a then some { code := 0x20 }
  else if !inScratch a then none
  else
    let z : Int := (scratchPart a % 2 ^ 20 : Nat) + lo
    if z < 0 || !rangeOk s g (scratchPart a / 2 ^ 20 * 2 ^ 20 + z.toNat) (hi - lo).toNat then
      some { code := 0x11, va := scratchPart a }
    else none

/-- The first of several faults. -/
def firstBad (l : List (Option Bad)) : Option Bad := l.findSome? id

/-! ### Reading and writing -/

/-- Why an engine's operation does not happen now: it waits, or it meets a fault: code and cause of 09 R247, and the
address. -/
abbrev Stop := Option (Nat × Nat × Nat)

/-- What a command's next operation comes to: nothing is left, a stop, or its effect with the number of line operations
it takes. -/
inductive Eng where
  | done
  | stop (w : Stop)
  | op (n : Nat) (s : State)
  deriving DecidableEq, Repr

/-- The leaf an engine's access uses: the translation service's, or a walk's (20 R367). -/
def engLeaf (s : State) (core vf va : Nat) : Except Nat Leaf :=
  let f := look s.vfs vf {}
  if 2 ^ 56 ≤ va then .error 3
  else match cachedLeaf (look s.service (dieOf core) []) f.asid va with
    | some l => .ok l
    | none => match f.root with
      | none => .error 1
      | some root => walk s root f.asid va

/-- Check and translate an engine's access of one line (08 R205): the physical address and key slot. `full` says that the
command writes the whole line, which clears poison (20 R369). -/
def engCheck (s : State) (c : Cmd) (va : Nat) (need : Need) (full : Bool) : Except Stop (Nat × Nat) :=
  let l := launchOf s c.launch
  match engLeaf s c.core l.vf va with
  | .error e => .error (some (0x13, e, va))
  | .ok f =>
    let pa := leafPa f va
    match permCause s (partOf s l.part) l.vf f need (pa / 128) with
    | some k => .error (some (0x14, k, va))
    | none =>
      if if full then deadLine s (pa / 128) else lineBad s (pa / 128) then .error (some (0x15, 0, va))
      else if !lineReady s (pa / 128) then .error none
      else .ok (pa, f.slot)

/-- The line-sized cuts of a range: address and length. Fuel bounds them. -/
def cuts (fuel a n : Nat) : List (Nat × Nat) :=
  match fuel with
  | 0 => []
  | fuel + 1 =>
    if n = 0 then []
    else
      let m := min n (128 - a % 128)
      (a, m) :: cuts fuel (a + m) (n - m)

/-- The cuts of a range. -/
def lineCuts (a n : Nat) : List (Nat × Nat) := cuts (n / 128 + 2) a n

/-- How many lines a range touches. -/
def lineCount (a n : Nat) : Nat := if n = 0 then 0 else (a % 128 + n + 127) / 128

/-- Whether a scratch line is absent because of some other command (10 R253). -/
def absentFor (tm : Team) (cid line : Nat) : Bool := tm.absent.any fun a => a.1 = line && a.2 != cid

/-- Read virtual memory for a command (08 R203): exclusive owners are recalled, dirty copies are not seen. The counter page is
read at the counters (10 R264). -/
def virtRead (s : State) (c : Cmd) (va n : Nat) : Except Stop (List Byte × State) :=
  (lineCuts va n).foldl (fun r (a, m) =>
    match r with
    | .error e => .error e
    | .ok (bs, s) => match engCheck s c a .read false with
      | .error e => .error e
      | .ok (pa, slot) =>
        let p := partOf s (launchOf s c.launch).part
        if onCounters p (pa / 128) then .ok (bs ++ (List.range m).map fun i => counterByte s p ((pa + i) % 65536), s)
        else
        let (d, s) := readAtHome (dirEvent (demandHome s (pa / 128) slot c.tenant) (pa / 128)) (pa / 128) slot
        .ok (bs ++ lineBytes d (pa % 128) m, s)) (.ok ([], s))

/-- Read a command's operand bytes at an engine address; a scratch line that another command has yet to write is waited
for (10 R253). -/
def engRead (s : State) (cid : Nat) (c : Cmd) (a : Word) (n : Nat) : Except Stop (List Byte × State) :=
  if inScratch a then
    let tm := teamOf s c.team
    let x := scratchPart a
    if (lineCuts x n).any fun p => absentFor tm cid (p.1 / 128) then .error none
    else .ok (scratchRead tm x n, s)
  else virtRead s c a.toNat n

/-- The granule of a team's scratch address: the core and its granule's number (10 R251). -/
def granuleAt (tm : Team) (a : Nat) : Nat × Nat :=
  let core := tm.core + a / 2 ^ 20
  (core, ((tm.granules.filter fun x => x.1 = core).map (·.2)).getD (a % 2 ^ 20 / 4096) 0)

/-- The generation of a scratch address's granule (10 R260). -/
def genAt (s : State) (tm : Team) (a : Nat) : Nat :=
  let (core, gr) := granuleAt tm a
  look (coreOf s core).gens gr 0

/-- Send a command's bytes of one scratch line on their way (10 R253, R260). -/
def sendScratch (s : State) (cid : Nat) (c : Cmd) (a : Nat) (bs : List Byte) : State :=
  let tm := teamOf s c.team
  let (id, s) := newId s
  let x : Flight := { id := id, core := (granuleAt tm a).1, line := a / 128, gen := genAt s tm a, lo := a % 128, bytes := bs }
  let s := modCmd s cid fun c => { c with flight := c.flight ++ [x] }
  send s .engineScratchLineLand { cmd := cid, core := x.core, line := x.line, gen := x.gen, n := id }

/-- Write bytes of one line of virtual memory for a command: exclusive ownership is taken, and the write takes its vintage
(08 R203, 12 R288). -/
def engStore (s : State) (cid : Nat) (c : Cmd) (pa slot : Nat) (bs : List Byte) (full : Bool) : State :=
  let la := pa / 128
  let s := writeAtHome (dirEvent s la) la slot (placeBytes (pa % 128) bs) (maskBytes (pa % 128) bs.length) c.rv
  let s := if full then modLine s la fun l => { l with poison := false } else s
  let v := (lineSt s la).wv
  modCmd s cid fun c => { c with wv := max c.wv v }

/-- Write a command's bytes in virtual memory, once every line may be written; `full` says of a line's address whether the
command writes the line wholly. -/
def virtWrite (s : State) (cid : Nat) (c : Cmd) (va : Nat) (bs : List Byte) (full : Nat → Bool) : Except Stop State :=
  let ps := pieces (bs.length / 128 + 2) va bs
  match ps.mapM fun (line, lo, _) => engCheck s c (128 * line + lo) .write (full (128 * line)) with
  | .error e => .error e
  | .ok pas => .ok (each (ps.zip pas) s fun s ((line, _, p), (pa, slot)) => engStore s cid c pa slot p (full (128 * line)))

/-- Write a command's bytes at an engine address: in virtual memory, or on their way to scratch. -/
def engWrite (s : State) (cid : Nat) (c : Cmd) (a : Word) (bs : List Byte) (full : Nat → Bool) : Except Stop State :=
  if inScratch a then
    .ok (each (pieces (bs.length / 128 + 2) (scratchPart a) bs) s fun s (line, lo, p) => sendScratch s cid c (128 * line + lo) p)
  else virtWrite s cid c a.toNat bs full

/-- An engine address some bytes on; one below zero or past the top wraps to an address that does not translate. -/
def plus (a : Word) (n : Int) : Word := a + .ofInt 64 n

/-- Count a command's progress. -/
def advance (s : State) (cid n : Nat) : State := modCmd s cid fun c => { c with prog := c.prog + n }

/-! ### Operands of a command -/

/-- A format slot of a command. -/
def Cmd.slot (c : Cmd) (i : Nat) : Nat := c.fmts.getD i 0
/-- The element format of a slot (04 R79). -/
def efmtOf (slot : Nat) : Nat := slot % 16
/-- The row pitch of a slot in groups of 16 elements. -/
def rowblkOf (slot : Nat) : Nat := bits slot 23 8
/-- Whether a slot's layout is split. -/
def splitOf (slot : Nat) : Bool := slot.testBit 4
/-- The bytes between scale entries of a slot. -/
def sstrideOf (slot : Nat) : Nat := bits slot 47 32
/-- The scale policy of a slot. -/
def spolOf (slot : Nat) : Nat := bits slot 49 48
/-- The scale count of a slot. -/
def scountOf (slot : Nat) : Nat := bits slot 79 64

/-- The bytes of sixteen elements of a slot as they lie in a row (04 R82). -/
def groupBytes (slot : Nat) : Nat :=
  let e := efmtOf slot
  if isSb e then (if splitOf slot then sbPlane e else sbPacked e) else 16 * elemBytes e

/-! ### `COPY` -/

/-- The next line of a copy or a fill (08 R223). -/
def copyStep (s : State) (cid : Nat) (c : Cmd) : Eng :=
  let len := bits (c.reg 2).toNat 39 0
  if len ≤ c.prog then .done
  else
    let dst := plus (c.reg 0) c.prog
    let n := min (len - c.prog) (128 - dst.toNat % 128)
    let full (line : Nat) : Bool := decide ((c.reg 0).toNat ≤ line) && decide (line + 128 ≤ (c.reg 0).toNat + len)
    let put (bs : List Byte) (s : State) : Eng :=
      match engWrite s cid c dst bs full with
      | .error e => .stop e
      | .ok s => .op (1 + (if c.kind == .fill then 0 else (lineCuts (plus (c.reg 1) c.prog).toNat n).length)) (advance s cid n)
    if c.kind == .fill then
      put ((List.range n).map fun i => .ofNat 8 ((c.reg 1).toNat / 256 ^ ((c.prog + i) % 8))) s
    else match engRead s cid c (plus (c.reg 1) c.prog) n with
      | .error e => .stop e
      | .ok (bs, s) => put bs s

/-! ### `LNEST` -/

/-- The operation code, and the slots of X, Y and Z, of a loop nest (08 R216). -/
def Cmd.lnOp (c : Cmd) : Nat := bits (c.ws.getD 1 0).toNat 4 0
/-- The slot number of an operand: 0 for X, 1 for Y, 2 for Z. -/
def Cmd.lnSlot (c : Cmd) (o : Nat) : Nat := c.slot (bits (c.ws.getD 1 0).toNat (10 + 3 * o) (8 + 3 * o))
/-- Whether a level is reduced. -/
def Cmd.lnRed (c : Cmd) (l : Nat) : Bool := (c.ws.getD 1 0).getLsbD (17 + l)
/-- The extent of a level. -/
def Cmd.lnExt (c : Cmd) (l : Nat) : Nat := bits (c.ws.getD 0 0).toNat (12 * l + 11) (12 * l) + 1
/-- The stride of an operand at a level. -/
def Cmd.lnStride (c : Cmd) (o l : Nat) : Int := sx (bits (c.reg (3 + l)).toNat (21 * o + 20) (21 * o)) 21
/-- The base of an operand; `regs` holds Z, X, Y and the five stride registers. -/
def Cmd.lnBase (c : Cmd) (o : Nat) : Word := c.reg (if o = 2 then 0 else o + 1)
/-- Whether a loop nest reduces. -/
def Cmd.lnReduces (c : Cmd) : Bool := decide (16 ≤ c.lnOp)
/-- The element type a loop nest computes in: FP64 where its slots hold FP64 (08 R204). -/
def Cmd.lnFmt (c : Cmd) : Fmt := if efmtOf (c.lnSlot 2) = 8 then f64 else f32

/-- The levels a loop nest's results vary over, or those it reduces. -/
def Cmd.lnLevels (c : Cmd) (red : Bool) : List Nat := (List.range 5).filter fun l => c.lnRed l == red

/-- The number of index combinations of some levels. -/
def Cmd.lnCount (c : Cmd) (ls : List Nat) : Nat := (ls.map c.lnExt).foldl (· * ·) 1

/-- The element index of an operand at combination `n` of some levels, the lowest varying fastest (08 R218). -/
def Cmd.lnIndex (c : Cmd) (o : Nat) : List Nat → Nat → Int
  | [], _ => 0
  | l :: ls, n => (n % c.lnExt l : Nat) * c.lnStride o l + c.lnIndex o ls (n / c.lnExt l)

/-- The smallest and largest element index of an operand. -/
def Cmd.lnRange (c : Cmd) (o : Nat) : Int × Int :=
  (List.range 5).foldl (fun (lo, hi) l =>
    let z := (c.lnExt l - 1 : Nat) * c.lnStride o l
    (lo + min z 0, hi + max z 0)) (0, 0)

/-- The bytes of an element, or of an SB block, at an element index: address and length. -/
def Cmd.lnPlace (c : Cmd) (o : Nat) (e : Int) : Word × Nat :=
  let f := efmtOf (c.lnSlot o)
  if isSb f then (plus (c.lnBase o) (e / 16 * sbPacked f), sbPacked f)
  else (plus (c.lnBase o) (e * elemBytes f), elemBytes f)

/-- Whether Z coincides with an input: the same base, strides and format (08 R218). -/
def Cmd.lnSame (c : Cmd) (o : Nat) : Bool :=
  c.lnBase o == c.lnBase 2 && efmtOf (c.lnSlot o) = efmtOf (c.lnSlot 2) && (List.range 5).all fun l => c.lnStride o l == c.lnStride 2 l

/-- The number under which a command keeps the value that element `e` of Z had before it. -/
def Cmd.lnKey (c : Cmd) (e : Int) : Nat := (e - (c.lnRange 2).1).toNat

/-- Read an element of an operand: its value's bits in the type of the computation (08 R218: exact). Where Z coincides with the
operand, an element already written gives its old value. -/
def lnRead (s : State) (cid : Nat) (c : Cmd) (o : Nat) (e : Int) : Except Stop (Nat × State) :=
  match if c.lnSame o then find c.olds (c.lnKey e) else none with
  | some v => .ok (v, s)
  | none =>
    let f := efmtOf (c.lnSlot o)
    let (a, n) := c.lnPlace o e
    match engRead s cid c a n with
    | .error w => .error w
    | .ok (bs, s) =>
      let v := if isSb f then sbElem f (leNat bs) (e % 16).toNat else elemValue f (leNat bs)
      .ok ((convV c.lnFmt .rn v).1, s)

/-- An element-wise operation, or one step of a reduction with the accumulator for Y's place (08 R217). -/
def lnCompute (c : Cmd) (x y acc : Nat) : Nat :=
  let f := c.lnFmt
  let u := unpackFloat f
  let k := (convV f .rn (unpackFloat f32 (bits (c.ws.getD 2 0).toNat 31 0))).1
  match c.lnOp with
  | 0 => x
  | 1 => (addV f .rn (u x) (u y)).1
  | 2 => (addV f .rn (u x) (u y).negate).1
  | 3 => (mulV f .rn (u x) (u y)).1
  | 4 => (fmaV f .rn (u k) (u x) (u y)).1
  | 5 => (mulV f .rn (u k) (u x)).1
  | 6 => (minmaxV f false x y).1
  | 7 => (minmaxV f true x y).1
  | 8 => (minmaxV f true x 0).1
  | 9 => x % f.sign true
  | 16 => (addV f .rn (u acc) (u x)).1
  | 17 => (minmaxV f true acc x).1
  | 18 => (minmaxV f false acc x).1
  | 19 => (fmaV f .rn (u x) (u y) (u acc)).1
  | _ => (fmaV f .rn (u x) (u x) (u acc)).1

/-- The value a reduction's accumulator begins from (08 R217). -/
def lnIdentity (c : Cmd) : Nat :=
  let f := c.lnFmt
  match c.lnOp with
  | 17 => f.sign true + f.inf
  | 18 => f.inf
  | _ => f.sign true

/-- Whether a loop nest reads Y. -/
def Cmd.lnY (c : Cmd) : Bool := lnestReadsY c.lnOp

/-- Read the inputs at one index combination and compute. -/
def lnElem (s : State) (cid : Nat) (c : Cmd) (ix iy : Int) (acc : Nat) : Except Stop (Nat × State) :=
  match lnRead s cid c 0 ix with
  | .error w => .error w
  | .ok (x, s) =>
    if c.lnY then match lnRead s cid c 1 iy with
      | .error w => .error w
      | .ok (y, s) => .ok (lnCompute c x y acc, s)
    else .ok (lnCompute c x 0 acc, s)

/-- The result at one combination of the unreduced levels: one element, or a whole reduction in iteration order. -/
def lnResult (s : State) (cid : Nat) (c : Cmd) (n : Nat) : Except Stop (Nat × State) :=
  let out := c.lnLevels false
  let red := c.lnLevels true
  let ix := c.lnIndex 0 out n
  let iy := c.lnIndex 1 out n
  if !c.lnReduces then lnElem s cid c ix iy 0
  else (List.range (c.lnCount red)).foldl (fun r j =>
    match r with
    | .error w => .error w
    | .ok (acc, s) => lnElem s cid c (ix + c.lnIndex 0 red j) (iy + c.lnIndex 1 red j) acc) (.ok (lnIdentity c, s))

/-- The value of an element of Z that is about to be written is kept, where Z coincides with an input that is read (08 R218). -/
def lnKeep (s : State) (cid : Nat) (c : Cmd) (e : Int) : State :=
  let o := if c.lnSame 0 then some 0 else if c.lnY && c.lnSame 1 then some 1 else none
  match o with
  | none => s
  | some o => if (find c.olds (c.lnKey e)).isSome then s
    else match lnRead s cid c o e with
      | .ok (v, _) => modCmd s cid fun c => { c with olds := put c.olds (c.lnKey e) v }
      | .error _ => s

/-- The lines that the results from combination `n` read and write: every line touched once (19 R342). -/
def lnLines (c : Cmd) (n per : Nat) : Nat :=
  let out := c.lnLevels false
  let red := c.lnLevels true
  let at_ (o : Nat) (e : Int) : List Nat :=
    let (a, m) := c.lnPlace o e
    (lineCuts a.toNat m).map fun x => x.1 / 128
  let ins := (List.range per).map fun i => (List.range (if c.lnReduces then c.lnCount red else 1)).map fun j =>
    at_ 0 (c.lnIndex 0 out (n + i) + c.lnIndex 0 red j)
      ++ (if c.lnY then at_ 1 (c.lnIndex 1 out (n + i) + c.lnIndex 1 red j) else [])
  ins.flatten.flatten.eraseDups.length + (at_ 2 (c.lnIndex 2 out n)).eraseDups.length

/-- Whether a loop nest writes every byte of a line of virtual memory (20 R369). -/
def lnCovers (c : Cmd) (line : Nat) : Bool :=
  let out := c.lnLevels false
  (List.range 128).all fun i => (List.range (c.lnCount out)).any fun n =>
    let (a, m) := c.lnPlace 2 (c.lnIndex 2 out n)
    decide (a.toNat ≤ line + i) && decide (line + i < a.toNat + m)

/-- The next result of a loop nest: one element, or the sixteen of an SB block (08 R218). -/
def lnestStep (s : State) (cid : Nat) (c : Cmd) : Eng :=
  let out := c.lnLevels false
  let f := efmtOf (c.lnSlot 2)
  let per := if isSb f then 16 else 1
  if c.lnCount out ≤ c.prog then .done
  else
    let r := (List.range per).foldl (fun r i =>
      match r with
      | .error w => .error w
      | .ok (vs, s) => match lnResult s cid c (c.prog + i) with
        | .error w => .error w
        | .ok (v, s) => .ok (vs ++ [unpackFloat c.lnFmt v], s)) (.ok (([] : List FV), s) : Except Stop (List FV × State))
    match r with
    | .error w => .stop w
    | .ok (vs, s) =>
      let (a, n) := c.lnPlace 2 (c.lnIndex 2 out c.prog)
      let v := if isSb f then (quantise f .rn vs).1 else (elemStore f (vs.getD 0 (.fin false 0 0))).1
      let s := each (List.range per) s fun s i => lnKeep s cid (cmdOf s cid) (c.lnIndex 2 out (c.prog + i))
      match engWrite s cid c a (leBytes n v) (fun line => (match engCheck s c line .any false with
          | .error (some (0x15, _)) => lnCovers c line
          | _ => false)) with
      | .error w => .stop w
      | .ok s => .op (lnLines c c.prog per) (advance s cid per)

/-! ### `PRESS` -/

/-- The slot of stream `i`, or of the result for 4 (08 R219). -/
def Cmd.prSlot (c : Cmd) (i : Nat) : Nat := c.slot (bits (c.ws.getD 2 0).toNat (3 * i + 2) (3 * i))

/-- One operator of the Press on its stack, the top first, as f32 bits (08 R220). -/
def pressStep (c : Cmd) (ins : List Nat) (st : List Nat) (o : Nat) : List Nat :=
  let u := unpackFloat f32
  let k (i : Nat) : Nat := bits (c.reg (5 + i / 2)).toNat (32 * (i % 2) + 31) (32 * (i % 2))
  match o, st with
  | 0x08, y :: x :: t => (addV f32 .rn (u x) (u y)).1 :: t
  | 0x09, y :: x :: t => (addV f32 .rn (u x) (u y).negate).1 :: t
  | 0x0A, y :: x :: t => (mulV f32 .rn (u x) (u y)).1 :: t
  | 0x0B, z :: y :: x :: t => (fmaV f32 .rn (u x) (u y) (u z)).1 :: t
  | 0x0C, y :: x :: t => (minmaxV f32 false x y).1 :: t
  | 0x0D, y :: x :: t => (minmaxV f32 true x y).1 :: t
  | 0x0E, x :: t => (x ^^^ 2 ^ 31) :: t
  | 0x0F, x :: t => x % 2 ^ 31 :: t
  | 0x10, x :: t => x :: x :: t
  | 0x11, y :: x :: t => x :: y :: t
  | 0x12, _ :: t => t
  | 0x13, x :: t => (minmaxV f32 true x 0).1 :: t
  | 0x14, z :: y :: x :: t => (if cmpV (u x) (.fin false 0 0) = some .gt then y else z) :: t
  | 0x15, h :: l :: x :: t => (minmaxV f32 false (minmaxV f32 true x l).1 h).1 :: t
  | 0x16, t => 0 :: t
  | 0x17, t => 0x3F800000 :: t
  | o, t => if o < 4 then ins.getD o 0 :: t else if o < 8 then k (o - 4) :: t else t

/-- The program of a Press command. -/
def Cmd.prProg (c : Cmd) : List Nat := pressProgram (c.ws.getD 0 0) (c.ws.getD 1 0) (c.ws.getD 2 0)

/-- The element count of a Press command; `regs` holds the five stream addresses, the constants and the count. -/
def Cmd.prCount (c : Cmd) : Nat := bits (c.reg 7).toNat 39 0

/-- The share of the next result line: its result address and number of elements (08 R222). -/
def Cmd.prShare (c : Cmd) : Nat × Nat :=
  let sz := elemBytes (efmtOf (c.prSlot 4))
  let a := (c.reg 4).toNat + c.prog * sz
  (a, min (c.prCount - c.prog) ((128 - a % 128) / sz))

/-- Read the elements of a stream that a share needs, as f32 bits. -/
def prStream (s : State) (c : Cmd) (i m : Nat) : Except Stop (List Nat × State) :=
  let f := efmtOf (c.prSlot i)
  let sz := elemBytes f
  match virtRead s c ((c.reg i).toNat + c.prog * sz) (m * sz) with
  | .error w => .error w
  | .ok (bs, s) => .ok ((List.range m).map fun j => (convV f32 .rn (elemValue f (leNat ((bs.drop (j * sz)).take sz)))).1, s)

/-- The share of the next result line of a Press command (08 R222): computed at the line's home slice where the slice holds
the line, otherwise at its channel's Press. -/
def pressShareStep (s : State) (cid : Nat) (c : Cmd) : Eng :=
  if c.prCount ≤ c.prog then .done
  else
    let (a, m) := c.prShare
    let sz := elemBytes (efmtOf (c.prSlot 4))
    let full := m * sz = 128
    let r := (List.range 4).foldl (fun r i =>
      match r with
      | .error w => .error w
      | .ok (ins, s) => if c.prProg.contains i then match prStream s c i m with
          | .error w => .error w
          | .ok (x, s) => .ok (ins ++ [x], s)
        else .ok (ins ++ [[]], s)) (.ok (([] : List (List Nat)), s) : Except Stop (List (List Nat) × State))
    match r with
    | .error w => .stop w
    | .ok (ins, s) => match engCheck s c a .write full with
      | .error w => .stop w
      | .ok (pa, slot) =>
        let out (j : Nat) : List Byte :=
          let v := (c.prProg.foldl (pressStep c (ins.map fun x => x.getD j 0)) []).headD 0
          leBytes sz (elemStore (efmtOf (c.prSlot 4)) (unpackFloat f32 v)).1
        let bs := ((List.range m).map out).flatten
        let la := pa / 128
        let l := lineSt s la
        let atSlice := l.home.isSome || !l.copies.isEmpty || !(exclCores s la).isEmpty
        let s := if atSlice then
            post (engStore s cid c pa slot bs full) 0x130 1 (homeSlice s la) c.tenant (.ofNat 32 c.core)
          else
            let s := memWrite s la slot (placeBytes (pa % 128) bs) (maskBytes (pa % 128) bs.length)
            let s := modLine s la fun l => { stampWrite l c.rv with poison := l.poison && !full }
            let v := (lineSt s la).wv
            post (modCmd s cid fun c => { c with wv := max c.wv v }) 0x131 2 (channelOf la) c.tenant (.ofNat 32 c.core)
        .op 1 (advance s cid m)

/-- The physical line of a Press command's next share, where its address translates. -/
def shareLine (s : State) (c : Cmd) : Option Nat :=
  match engCheck s c c.prShare.1 .any true with
  | .ok (pa, _) => some (pa / 128)
  | .error _ => none

/-! ### Tiles -/

/-- Whether a shape register keeps within the limits of 08 R207. -/
def shapeOk (w : Word) (pair product : Bool) : Bool :=
  let z := shapeOf w
  bits w.toNat 63 48 = 0 && bits w.toNat 23 18 = 0 && (if product then z.k != 0 else z.k == 0)
    && decide (z.col + z.n ≤ 256) && decide (z.row + z.m ≤ if pair then 512 else 256)

/-- Whether two rectangles overlap. -/
def Shape.meets (a b : Shape) : Bool :=
  decide (a.row < b.row + b.m) && decide (b.row < a.row + a.m) && decide (a.col < b.col + b.n) && decide (b.col < a.col + a.n)

/-- The core that holds row `g` of a team's accumulators, and the row there (08 R206). -/
def tasRow (tm : Team) (g : Nat) : Nat × Nat := (tm.core + g / 256, g % 256)

/-- An accumulator. -/
def tasAt (s : State) (tm : Team) (g j : Nat) : Nat :=
  let (c, r) := tasRow tm g
  (look (coreOf s c).tas (256 * r + j) 0).toNat

/-- Set an accumulator. -/
def tasSet (s : State) (tm : Team) (g j v : Nat) : State :=
  let (c, r) := tasRow tm g
  modCore s c fun k => { k with tas := if v = 0 then del k.tas (256 * r + j) else put k.tas (256 * r + j) (.ofNat 32 v) }

/-- The condition bits of the sub-tile of an accumulator. -/
def tasFlagsAt (s : State) (tm : Team) (g j : Nat) : Nat :=
  let (c, r) := tasRow tm g
  look (coreOf s c).tasFlags (16 * (r / 16) + j / 16) 0

/-- Replace the condition bits of the sub-tile of an accumulator. -/
def tasFlagsSet (s : State) (tm : Team) (g j fl : Nat) : State :=
  let (c, r) := tasRow tm g
  let key := 16 * (r / 16) + j / 16
  modCore s c fun k => { k with tasFlags := if fl = 0 then del k.tasFlags key else put k.tasFlags key fl }

/-- The four conditions a tile records (08 R206). -/
def tileFlags : Nat := NV ||| OF ||| UF ||| NX

/-- Clear a rectangle to +0 and its condition bits (08 R213, R215). -/
def tasClear (s : State) (tm : Team) (z : Shape) : State :=
  each (List.range z.m) s fun s i =>
    let s := each (List.range z.n) s fun s j => tasSet s tm (z.row + i) (z.col + j) 0
    if i % 16 = 0 then each (List.range (z.n / 16)) s fun s j => tasFlagsSet s tm (z.row + i) (z.col + 16 * j) 0 else s

/-- The scale index of block `j` of row `r` under a slot over K elements (04 R82). -/
def scaleIndex (slot k r j : Nat) : Nat :=
  match spolOf slot with
  | 0 => r * scountOf slot + j
  | 1 => r * ceilDiv k 16 + j
  | _ => j

/-- Read elements `k0` to `k0 + n - 1`, at most sixteen, of row `r` of a slot-described operand over K elements
(04 R82, R85): elements past K are not read, the block's scale is. -/
def rowBlock (s : State) (cid : Nat) (c : Cmd) (slot : Nat) (base scale : Word) (k r j n : Nat) :
    Except Stop (List FV × State) :=
  let e := efmtOf slot
  let a := plus base ((r * rowblkOf slot * groupBytes slot + j * groupBytes slot : Nat))
  if isSb e then
    let w := sbBits e + 1
    let body := ceilDiv (n * w) 8
    if splitOf slot then
      match engRead s cid c a body with
      | .error x => .error x
      | .ok (bs, s) => match engRead s cid c (plus scale (scaleIndex slot k r j * sstrideOf slot : Nat)) 2 with
        | .error x => .error x
        | .ok (sc, s) => .ok ((List.range n).map fun i => sbAt e (fieldAt (leNat bs) w i) (scaleAt (leNat sc) 0) i, s)
    else match engRead s cid c a (2 + body) with
      | .error x => .error x
      | .ok (bs, s) => .ok ((List.range n).map fun i => sbAt e (fieldAt (leNat (bs.drop 2)) w i) (scaleAt (leNat bs) 0) i, s)
  else
    let eb := elemBytes e
    match engRead s cid c a (n * eb) with
    | .error x => .error x
    | .ok (bs, s) => .ok ((List.range n).map fun i => elemValue e (leNat ((bs.drop (i * eb)).take eb)), s)

/-- Read the elements of row `r` in one K-block of 128. -/
def rowK (s : State) (cid : Nat) (c : Cmd) (slot : Nat) (base scale : Word) (k r q : Nat) : Except Stop (List FV × State) :=
  (List.range 8).foldl (fun x b =>
    match x with
    | .error e => .error e
    | .ok (vs, s) =>
      let j := 8 * q + b
      if k ≤ 16 * j then .ok (vs, s)
      else match rowBlock s cid c slot base scale k r j (min 16 (k - 16 * j)) with
        | .error e => .error e
        | .ok (us, s) => .ok (vs ++ us, s)) (.ok ([], s))

/-- Read some rows in one K-block. -/
def rowsK (s : State) (cid : Nat) (c : Cmd) (slot : Nat) (base scale : Word) (k m q : Nat) :
    Except Stop (List (List FV) × State) :=
  (List.range m).foldl (fun x r =>
    match x with
    | .error e => .error e
    | .ok (rows, s) => match rowK s cid c slot base scale k r q with
      | .error e => .error e
      | .ok (v, s) => .ok (rows ++ [v], s)) (.ok ([], s))

/-- The slots P and Q of a tile command (08 R200): `mod` carries them above its own bits. -/
def Cmd.slotP (c : Cmd) : Nat := c.slot (c.mod / 8 % 8)
/-- Slot Q. -/
def Cmd.slotQ (c : Cmd) : Nat := c.slot (c.mod / 64 % 8)

/-- One K-block of a tile product, for every element of its rectangle (08 R211). -/
def tmmaStep (s : State) (cid : Nat) (c : Cmd) : Eng :=
  let z := c.shape
  if ceilDiv z.k 128 ≤ c.prog then .done
  else match rowsK s cid c c.slotP (c.reg 0) (c.reg 2) z.k z.m c.prog with
    | .error w => .stop w
    | .ok (as, s) => match rowsK s cid c c.slotQ (c.reg 1) (c.reg 3) z.k z.n c.prog with
      | .error w => .stop w
      | .ok (bs, s) =>
        let tm := teamOf s c.team
        let w := sumWindow (efmtOf c.slotP)
        let s := each (as.zip (List.range z.m)) s fun s (a, i) => each (bs.zip (List.range z.n)) s fun s (b, j) =>
          let g := z.row + i
          let h := z.col + j
          let acc := if c.prog = 0 && c.mod % 2 = 0 then 0 else tasAt s tm g h
          let (v, fl) := accumulate w (acc, 0) ((a.zip b).map fun (x, y) => prodV x y)
          let s := tasSet s tm g h v
          tasFlagsSet s tm g h (tasFlagsAt s tm g h ||| (fl &&& tileFlags))
        .op 1 (advance s cid 1)

/-- Sixteen columns of one row of a tile as a slot's format stores them (08 R213): their bytes, the two scale bytes of a
split block, and the conditions the conversion raises. -/
def tileGroup (slot : Nat) (vs : List Nat) : List Byte × List Byte × Nat :=
  let e := efmtOf slot
  if isSb e then
    let (v, fl) := quantise e .rn (vs.map (unpackFloat f32))
    if splitOf slot then (leBytes (sbPlane e) (v / 65536), leBytes 2 v, fl) else (leBytes (sbPacked e) v, [], fl)
  else if e = 7 then ((vs.map fun v => leBytes 4 v).flatten, [], 0)
  else
    let rs := vs.map fun v => elemStore e (unpackFloat f32 v)
    ((rs.map fun r => leBytes (elemBytes e) r.1).flatten, [], orFlags (rs.map (·.2)))

/-- The columns of one row of a rectangle in groups of sixteen. -/
def tileRow (s : State) (tm : Team) (z : Shape) (i : Nat) : List (List Nat) :=
  (List.range (z.n / 16)).map fun j => (List.range 16).map fun n => tasAt s tm (z.row + i) (z.col + 16 * j + n)

/-- The address of a row's elements. -/
def rowAddr (c : Cmd) (i : Nat) : Word := plus (c.reg 0) (i * rowblkOf c.slotP * groupBytes c.slotP : Nat)

/-- The address of the scale of block `j` of a row. -/
def scaleAddr (c : Cmd) (i j : Nat) : Word := plus (c.reg 1) (scaleIndex c.slotP c.shape.n i j * sstrideOf c.slotP : Nat)

/-- Whether a tile store writes every byte of a line (20 R369). -/
def tileCovers (c : Cmd) (z : Shape) (line : Nat) : Bool :=
  let len := z.n / 16 * groupBytes c.slotP
  (List.range 128).all fun b => (List.range z.m).any fun i =>
    let a := (rowAddr c i).toNat
    decide (a ≤ line + b) && decide (line + b < a + len)

/-- The value a tile store ORs into its flag word (08 R214). -/
def tileFlagWord (s : State) (c : Cmd) : Nat :=
  let tm := teamOf s c.team
  let z := c.shape
  let kept := (List.range (z.m / 16)).map fun i => orFlags ((List.range (z.n / 16)).map fun j =>
    tasFlagsAt s tm (z.row + 16 * i) (z.col + 16 * j))
  let made := (List.range z.m).map fun i => orFlags ((tileRow s tm z i).map fun vs => (tileGroup c.slotP vs).2.2)
  (orFlags kept ||| orFlags made) &&& tileFlags

/-- The conditions of a tile store's conversions stand in the tile store (08 R204). -/
def tileNote (s : State) (c : Cmd) : State :=
  let tm := teamOf s c.team
  let z := c.shape
  each (List.range z.m) s fun s i => each ((tileRow s tm z i).zip (List.range (z.n / 16))) s fun s (vs, j) =>
    let g := z.row + i
    let h := z.col + 16 * j
    tasFlagsSet s tm g h (tasFlagsAt s tm g h ||| ((tileGroup c.slotP vs).2.2 &&& tileFlags))

/-- One row of a tile store; then, once every row is written, its flag word, and its conditions or with `.z` the clearing
(08 R204, R213, R214). -/
def tstoreStep (s : State) (cid : Nat) (c : Cmd) : Eng :=
  let z := c.shape
  let tm := teamOf s c.team
  if c.prog < z.m then
    let gs := (tileRow s tm z c.prog).map (tileGroup c.slotP)
    let full (line : Nat) : Bool := match engCheck s c line .any false with
      | .error (some (0x15, _)) => tileCovers c z line
      | _ => false
    let body := (gs.map (·.1)).flatten
    match engWrite s cid c (rowAddr c c.prog) body full with
    | .error w => .stop w
    | .ok s =>
      if isSb (efmtOf c.slotP) && splitOf c.slotP then
        let r := (gs.zip (List.range gs.length)).foldl (fun r (g, j) =>
          match r with
          | .error w => .error w
          | .ok s => engWrite s cid c (scaleAddr c c.prog j) g.2.1 fun _ => false)
          (.ok s : Except Stop State)
        match r with
        | .error w => .stop w
        | .ok s => .op 1 (advance s cid 1)
      else .op 1 (advance s cid 1)
  else if c.prog = z.m then
    if !c.flight.isEmpty then .stop none
    else
    let clear (s : State) : State := advance (if c.mod % 2 = 1 then tasClear s tm z else tileNote s c) cid 1
    let a := (c.reg 2).toNat
    if a = 0 then .op 1 (clear s)
    else match engCheck s c a .both false with
      | .error w => .stop w
      | .ok (pa, slot) =>
        let (d, s) := readAtHome s (pa / 128) slot
        let old := leNat (lineBytes d (pa % 128) 4)
        .op 1 (clear (engStore s cid c pa slot (leBytes 4 (old ||| tileFlagWord s c)) false))
  else .done

/-- `TZERO`'s one operation (08 R215). -/
def tzeroStep (s : State) (cid : Nat) (c : Cmd) : Eng :=
  if c.prog = 0 then .op 1 (advance (tasClear s (teamOf s c.team) c.shape) cid 1) else .done

/-! ### `COLL` -/

/-- A collective's descriptor (08 R224). -/
structure Coll where
  send : Nat
  recv : Nat
  count : Nat
  comm : Nat
  op : Nat
  red : Nat
  fmt : Nat
  root : Nat
  bad : Bool
  deriving DecidableEq, Repr

/-- A collective's descriptor from its bytes. -/
def collOf (s : State) (bs : List Byte) : Coll :=
  let x := leNat bs
  let f (lo n : Nat) : Nat := x / 256 ^ lo % 256 ^ n
  let m := look s.comms (f 24 2) {}
  let p := m.count
  { send := f 0 8, recv := f 8 8, count := f 16 5, comm := f 24 2, op := f 26 1, red := f 27 1, fmt := f 28 1, root := f 30 2
    bad := f 21 3 != 0 || f 29 1 != 0 || f 32 32 != 0 || decide (4095 < f 24 2) || decide (4 < f 26 1) || decide (2 < f 27 1)
      || !(f 28 1 == 5 || f 28 1 == 6 || f 28 1 == 7) || p = 0
      || ((f 26 1 = 1 || f 26 1 = 2) && f 16 5 % max p 1 != 0) || decide (p ≤ f 30 2) }

/-- The elements this device sends: all, a participant's share of an all-gather, or none where only the root sends. -/
def Coll.sends (d : Coll) (p rank : Nat) : Nat :=
  if d.op = 2 then d.count / max p 1 else if d.op = 3 && rank != d.root then 0 else d.count

/-- The elements this device receives. -/
def Coll.recvs (d : Coll) (p rank : Nat) : Nat :=
  if d.op = 1 then d.count / max p 1 else if d.op = 4 && rank != d.root then 0 else d.count

/-- Combine one element of every participant, in increasing rank order (08 R225). -/
def collReduce (d : Coll) (xs : List Nat) : Nat :=
  let vs := xs.map fun x => (convV f32 .rn (elemValue d.fmt x)).1
  match vs with
  | [] => 0
  | v :: vs =>
    let r := vs.foldl (fun a x => match d.red with
      | 0 => (addV f32 .rn (unpackFloat f32 a) (unpackFloat f32 x)).1
      | 1 => (minmaxV f32 false a x).1
      | _ => (minmaxV f32 true a x).1) v
    (elemStore d.fmt (unpackFloat f32 r)).1

/-- What this device receives from every participant's elements (08 R224, R225). -/
def collResult (d : Coll) (p rank : Nat) (xs : List (List Nat)) : List Nat :=
  let at_ (i : Nat) : Nat := collReduce d (xs.map fun x => x.getD i 0)
  match d.op with
  | 0 | 4 => (List.range (d.recvs p rank)).map at_
  | 1 => (List.range (d.recvs p rank)).map fun i => at_ (rank * (d.count / max p 1) + i)
  | 2 => xs.flatten
  | _ => xs.getD d.root []

/-- Complete a collective with the other participants' elements (08 R224, R225). A refused descriptor and a mismatch stop
it with causes 4 and 5, given here as codes of their own. -/
def collStep (s : State) (cid : Nat) (c : Cmd) (agree : Bool) (ranks : List (List W32)) : Eng :=
  if c.prog ≠ 0 then .done
  else match virtRead s c (c.reg 0).toNat 64 with
    | .error w => .stop w
    | .ok (bs, s) =>
      let d := collOf s bs
      if d.bad then .stop (some (0x21, 4, (c.reg 0).toNat))
      else if !agree then .stop (some (0x21, 5, (c.reg 0).toNat))
      else
        let m := look s.comms d.comm {}
        let eb := elemBytes d.fmt
        let n := d.sends m.count m.rank
        match virtRead s c d.send (n * eb) with
        | .error w => .stop w
        | .ok (own, s) =>
          let mine := (List.range n).map fun i => leNat ((own.drop (i * eb)).take eb)
          let xs := (List.range m.count).map fun r => if r = m.rank then mine else (ranks.getD r []).map (·.toNat)
          let res := collResult d m.count m.rank xs
          let out := (List.range (d.recvs m.count m.rank)).map fun i => res.getD i 0
          let bytes := (out.map fun v => leBytes eb v).flatten
          let full (line : Nat) : Bool := decide (d.recv ≤ line) && decide (line + 128 ≤ d.recv + bytes.length)
          match virtWrite s cid c d.recv bytes full with
          | .error w => .stop w
          | .ok s => .op (1 + lineCount d.send (n * eb) + lineCount d.recv bytes.length) (advance s cid 1)

/-- A command's next operation. A collective's comes from outside. -/
def nextOp (s : State) (cid : Nat) (c : Cmd) : Eng :=
  match c.kind with
  | .copy | .fill => copyStep s cid c
  | .lnest => lnestStep s cid c
  | .press => pressShareStep s cid c
  | .tmma => tmmaStep s cid c
  | .tstore => tstoreStep s cid c
  | .tzero => tzeroStep s cid c
  | .coll => if c.prog = 0 then .stop none else .done

end Sys2Proof.Machine
end

