-- ==== Sys2Proof/Machine/Tx.lean ====
section
/-! DEFINITION. Transactions: opening, dooming, asking and committing (07 R182 to R186). -/

namespace Sys2Proof.Machine

/-- Open a transaction for one thread; a second `TXB` dooms the one that is open (07 R182, R184). -/
def openTx (s : State) (h t : Nat) : State :=
  match groupOf s h with
  | none => s
  | some g => if inTx g.ctx t then doomThread s h t 7 0
    else modCtx s h fun x => { x with tx := put x.tx t {} }

/-- Issue a transaction word that acts for each thread of E and writes no register. -/
def issueTx (s : State) (op : Op) (f : FOps) (body : State → Nat → Group → Word → State) :
    Host.Outcome State Fault Refusal :=
  match issue s op.code 1 f.k f.kn false {} fun _ _ _ => .ok {} with
  | .next s' => match current s, groupOf s' s'.cur with
    | some (h, g), some g' =>
      if g'.ctx.pc = g.ctx.pc then .next s' else .next (body s' h g (effSet g.ctx g.w f.k f.kn))
    | _, _ => .next s'
  | r => r

/-- `TXB` (07 R183). -/
def execTxb (f : FOps) (s : State) : Host.Outcome State Fault Refusal :=
  issueTx s .txb f fun s h g eff =>
    let s := if eff = 0 then s else fallBack s h
    each (threadsOf g.w eff) s fun s t => openTx s h t

/-- `TXA` (07 R182, R184): the code is the transaction's user code. -/
def execTxa (f : FOps) (s : State) : Host.Outcome State Fault Refusal :=
  issueTx s .txa f fun s h _ eff => doomThreads s h eff 6 f.imm12.toNat

/-- A status word (07 R182): cause, user code, and whether a transaction is open. -/
def txStatus (cause user : Nat) (isOpen : Bool) : Nat :=
  cause % 256 + user % 256 * 256 + (if isOpen then 65536 else 0)

/-- `TXQ` (07 R182). -/
def execTxq (f : FOps) (s : State) : Host.Outcome State Fault Refusal :=
  issue s Op.txq.code 1 f.k f.kn false (ioDst false f.d.toNat 1) fun x w eff =>
    .ok (perThread false w eff fun t =>
      let v := match find x.tx t with
        | some y => txStatus y.doom y.user true
        | none => 0
      { wr := wrDst false f.d.toNat 1 t v })

/-- The lines of the transactions of a mask's threads that are not doomed. -/
def txLines (x : Ctx) (w : Nat) (eff : Word) : List Nat :=
  ((threadsOf w eff).map fun t => match find x.tx t with
    | some y => if y.doom = 0 then y.rlines ++ y.wlines else []
    | none => []).flatten.eraseDups

/-- Whether a transactional load of a mask's threads has yet to bring its bytes (07 R183). -/
def txLoads (x : Ctx) (eff : Word) : Bool :=
  x.wins.any fun w => !w.done && w.fault.isNone && (match w.req with
    | some r => r.kind == .ld && !r.uni && w.parts.any fun p => p.got.isNone && eff.getLsbD p.t && inTx x p.t
    | none => false)

/-- Whether every byte a transaction read still holds the one value that was read (07 R185). -/
def txValid (s : State) (y : Tx) : Bool :=
  y.rbytes.all fun (key, v, differed) =>
    let la := key / 128
    !differed && lineByte (readAtHome s la (look y.slots la 0)).1 (key % 128) == v

/-- Perform a transaction's pending lines at their homes: the largest vintage they took (07 R185, 12 R288). -/
def txWrite (s : State) (h c t rv : Nat) : Nat × State :=
  ((coreOf s c).pend.filter fun p => p.g = h && p.t = some t).foldl (fun (v, s) p =>
    let s := writeAtHome s p.la p.slot p.data p.mask rv
    let s := modCore s c fun k => match find k.near p.la with
      | some n => if n.st == .leased then { k with near := del k.near p.la } else k
      | none => k
    (max v (lineSt s p.la).wv, s)) (rv, s)

/-- Close one thread's transaction: its status (07 R185). Every dirty copy of its lines is first recalled. -/
def closeTx (s : State) (h t : Nat) : Nat × State :=
  match groupOf s h with
  | none => (0, s)
  | some g => match find g.ctx.tx t with
    | none => (txStatus 9 0 false, s)
    | some y =>
      let shut (cause user : Nat) (s : State) : Nat × State :=
        let s := modCtx (dropTxLines s h g.core (some t)) h fun x => { x with tx := del x.tx t }
        (txStatus cause user false, postGroup s g 0x106 (.ofNat 32 (cause + 256 * t)))
      if y.doom ≠ 0 then shut y.doom y.user s
      else
        let s := each (y.rlines ++ y.wlines).eraseDups s fun s la => flushDirty s none la
        if txValid s y then
          let (v, s) := txWrite s h g.core t g.ctx.rv
          shut 0 0 (modCtx s h fun x => { x with rv := max x.rv v })
        else shut 2 0 s

/-- `TXE` (07 R185): it waits until its threads' loads have been served and the homes of the lines hold nothing back, and
visits the threads in temporal order. -/
def execTxe (f : FOps) (s : State) : Host.Outcome State Fault Refusal :=
  match current s with
  | none => .fault .noGroup
  | some (h, g) =>
    let g := { g with ctx := endWins g.ctx }
    let eff := effSet g.ctx g.w f.k f.kn
    let io := ioDst false f.d.toNat 1
    let s := setGroup s h g
    if blocked g.ctx (io.under eff) then .next s
    else
      let (mapped, n) := if eff = 0 then (0, 0) else allocNeed g.ctx io io.vw
      match allocCheck s h g mapped n with
      | .trap => .next (raise s h (badRec g.ctx eff { code := 0x07 }))
      | .park => .next (parkRegs s h g n)
      | .ok =>
        if !(txLines g.ctx g.w eff).all (lineReady s) || txLoads g.ctx eff then .next s
        else
          let (wr, s) := (threadsOf g.w eff).foldl (fun (wr, s) t =>
            let (v, s) := closeTx s h t
            (wr ++ wrDst false f.d.toNat 1 t v, s)) (([] : List RegWr), s)
          match groupOf s h with
          | none => .next s
          | some g => .next (retire s h g io 1 (laneCycles g.w eff) { wr := wr })

/-- `TRANSACTION_DOOM` (07 R184): a thread whose pending line must go is doomed. -/
def execTransactionDoom (s : State) : Host.Outcome State Fault Refusal :=
  match groupOf s s.subj.g with
  | some g => if txLive g.ctx s.subj.t then .next (doomThread s s.subj.g s.subj.t s.subj.cause 0)
    else notNow "TRANSACTION_DOOM"
  | none => notNow "TRANSACTION_DOOM"

end Sys2Proof.Machine
end

