-- ==== Sys2Proof/Machine/Coherence.lean ====
section
/-! DEFINITION. The messages between near caches, slices and homes: misses and fills, write-backs, the directory and its
transient states, releases and acquires at the home, prefetchers, and the rebase of vintages (10 R261 to R263,
12 R285 to R302, 18 R326, R327). -/

namespace Sys2Proof.Machine

/-! ### Prefetchers -/

/-- `PRESS_PREFETCH` (10 R262): a line is read ahead into the Press's buffer of 64. -/
def execPressPrefetch (s : State) : Host.Outcome State Fault Refusal :=
  let c := s.subj.channel
  let la := s.subj.la
  let p := look s.prefP c {}
  if channelOf la ≠ c || (lineSt s la).poison || (find p.buffer la).isSome || p.issued ≤ p.used + p.late + p.evicted + p.buffer.length then
    notNow "PRESS_PREFETCH"
  else
    let s := match p.buffer with
      | old :: rest => if 64 ≤ p.buffer.length then
          postPref (modPrefP s c fun p => { p with evicted := p.evicted + 1, buffer := rest }) true c 0x113 old.1 old.2
        else s
      | [] => s
    .next (modPrefP s c fun p => { p with buffer := p.buffer ++ [(la, s.subj.tenant)] })

/-! ### Answers of the home -/

/-- Put a line into a transient state, or end one. -/
def setBusy (s : State) (la : Nat) (b : Busy) : State := modLine s la fun l => { l with busy := b }

/-- Send a granted copy to the core that asked, unless only its slice was to hold it (07 R167). -/
def reply (s : State) (r : LineReq) (data : LineData) (wv le : Nat) : State :=
  if r.kind == .sliceOnly then s else send s (.nearCacheFill r data wv le)

/-- Answer a read at the home (12 R286, R298): a die with no other holder beside it receives the line in E, otherwise, or where an
owner was asked first, in S; a die that holds it already keeps its state. -/
def answerRead (s : State) (die : Nat) (r : LineReq) (forwarded : Bool := false) : State :=
  let la := r.la
  let s := recallDie s die la
  let s := modLine s la fun l => grantLease s l la r.rv
  if die = homeDie s la then
    let l := lineSt s la
    reply (if r.kind == .sliceOnly then fillHome s la r.slot else s) r (homeData s la r.slot) l.wv l.le
  else
    let st : Moesi := if (lineSt s la).copies.isEmpty && !forwarded then .e else .s
    let s := dieCopy s die la r.slot st (homeData s la r.slot)
    let c := look (lineSt s la).copies die {}
    reply s r c.data c.wv c.le

/-- End a read-exclusive or an upgrade: the requester in M, no other die a holder, and the core granted (12 R298, R299,
18 R326). The home keeps a copy of its own while a near cache holds the line exclusively (16 R322). -/
def answerExcl (s : State) (die : Nat) (r : LineReq) : State :=
  let la := r.la
  let s := fillHome s la r.slot
  let own : Option DieCopy := (find (lineSt s la).copies die).bind fun c => if c.slot = r.slot then some c else none
  let s := if die = homeDie s la then modLine s la fun l => { l with copies := [] }
    else
      let s := sliceRoom s (localSlice s die la) la
      let data := match own with
        | some c => c.data
        | none => homeData s la r.slot
      modLine s la fun l => { l with copies := [(die, { st := .m, data := data, slot := r.slot, wv := l.wv, le := l.le })] }
  send (dirSync s la) (.exclusiveGrant die r)

/-- Whether the home lacks the bytes of a line under a slot. -/
def needFill (s : State) (la slot : Nat) : Bool :=
  let l := lineSt s la
  l.home.isNone || l.slot != slot

/-- Begin a read of a stack for a die's request at the home: one from another die's slice is a miss at the home slice too. -/
def startFill (s : State) (d : Due) (die la slot tenant : Nat) : State :=
  let s := if die = homeDie s la then fillAt s la tenant else demandHome s la slot tenant
  send (setBusy s la (.fill d)) .fillFromMemory { la := la, slot := slot, tenant := tenant }

/-- Ask every recorded die which half of a wide entry it holds lines in (12 R297). -/
def startCensus (s : State) (d : Due) (e : DirEnt) (la : Nat) : State :=
  let dies := recorded e
  each dies (setBusy s la (.census d dies [] [])) fun s die =>
    send s .directoryCensus { part := partOfLine s la, la := la, die := die }

/-- Copies under another key slot are written back and dropped before a request is served (10 R266). -/
def dropSlots (s : State) (la slot : Nat) : State :=
  if (lineSt s la).copies.any fun c => c.2.slot != slot then gather s la false else s

/-- Serve a read at an idle home (12 R298). -/
def startRead (s : State) (d : Due) (die : Nat) (r : LineReq) : State :=
  let la := r.la
  let s := recallDie (dropSlots s la r.slot) (homeDie s la) la
  let s := if die = homeDie s la then s else dirRoom s la
  let e := (dirAt s la).getD { slice := 0, base := la }
  if conflicts e die false then startCensus (dirEvent s la) d e la
  else match e.owner with
    | some (o, _) =>
      if o ≠ die then send (setBusy (dirEvent s la) la (.fw d o)) .forwardShared { die := o, la := la }
      else answerRead (dirEvent s la) die r
    | none => if needFill s la r.slot then startFill s d die la r.slot r.tenant else answerRead (dirEvent s la) die r

/-- Serve a read-exclusive at an idle home (12 R298). -/
def startExcl (s : State) (d : Due) (die : Nat) (r : LineReq) : State :=
  let la := r.la
  let s := recallDie (dropSlots s la r.slot) (homeDie s la) la
  let s := if die = homeDie s la then s else dirRoom s la
  let e := (dirAt s la).getD { slice := 0, base := la }
  if conflicts e die true then startCensus (dirEvent s la) d e la
  else
    let own := match e.owner with
      | some (o, _) => if o = die then none else some o
      | none => none
    let others := e.sharers.filter fun x => x != die && some x != own
    if own.isNone && others.isEmpty then
      if needFill s la r.slot && (find (lineSt s la).copies die).isNone then startFill s d die la r.slot r.tenant
      else answerExcl (dirEvent s la) die r
    else
      let s := each others (setBusy (dirEvent s la) la (.rx d others own)) fun s x => send s .invalidation { die := x, la := la }
      match own with
      | some o => send s .forwardExclusive { die := o, la := la }
      | none => s

/-- Serve an upgrade at an idle home (12 R298, R300): one from a die that is no longer recorded is served as a
read-exclusive. -/
def startUp (s : State) (d : Due) (die : Nat) (r : LineReq) : State :=
  let la := r.la
  let e := (dirAt s la).getD { slice := 0, base := la }
  if !(recorded e).contains die || (find (lineSt s la).copies die).isNone then
    startExcl s ⟨.homeReadExclusive die r, d.subj⟩ die r
  else
    let s := dirEvent (dropSlots s la r.slot) la
    let e := (dirAt s la).getD { slice := 0, base := la }
    if conflicts e die true then startCensus s d e la
    else
      let others := (recorded e).filter fun x => x != die
      if others.isEmpty then answerExcl s die r
      else each others (setBusy s la (.up d others)) fun s x => send s .invalidation { die := x, la := la }

/-! ### Releases, acquires and atomics at the home -/

/-- Whether a scope, for an agent on core `a`, covers an agent on core `b` (12 R279). -/
def covers (sc : Scope) (a b : Nat) : Bool :=
  match sc with
  | .dev | .sys => true
  | .die => dieOf a = dieOf b
  | _ => a = b

/-- The scope an acquire has at the home (07 R165, 12 R280). -/
def acquireScope (s : State) (m : AcqMsg) : Scope :=
  match m.scope with
  | .team | .die => if homeDie s m.la = dieOf m.core then .die else .dev
  | sc => sc

/-- Whether an acquire drains a record's core (12 R290). -/
def drains (s : State) (m : AcqMsg) (r : RelRec) : Bool :=
  covers r.scope r.core m.core && covers (acquireScope s m) m.core r.core

/-- Return an acquire's value (12 R290), read where the line's authority stands (12 R299): the variable's vintage rises to the
largest drained, the records go, and the window's parts on the line receive their bytes with that vintage. -/
def finishAcquire (s : State) (m : AcqMsg) (vmax : Nat) : State :=
  let (d, s) := readFor (dirEvent s m.la) m.core m.la m.slot
  let s := modLine s m.la fun l =>
    { l with wv := max l.wv vmax, le := max l.le (max l.wv vmax), recs := l.recs.filter fun r => !drains s m r }
  let v := (lineSt s m.la).wv
  let give (p : Part) : Part :=
    if p.la = m.la && p.slot = m.slot && p.got.isNone then { p with got := some (lineBytes d p.lo p.n) } else p
  let s := recheckWin s m.g m.win
  match (groupOf s m.g).bind fun g => winOf g.ctx m.win with
  | some w =>
    let s := if w.fault.isSome then s
      else finishWin (modWin s m.g m.win fun w => { w with parts := w.parts.map give, rv := max w.rv v }) m.g m.win
    observe s m.core v
  | none => observe s m.core v

/-- Serve an acquire at an idle home (12 R290). -/
def startAcquire (s : State) (d : Due) (m : AcqMsg) : State :=
  let cores := (((lineSt s m.la).recs.filter (drains s m)).map (·.core)).eraseDups
  let s := demandHome s m.la m.slot (tenantOf s m.g)
  if cores.isEmpty then finishAcquire s m 0
  else each cores (setBusy s m.la (.acquire d cores 0)) fun s c => send s .coreDrain { core := c, la := m.la }

/-- A group's own operation at a home is performed: its core keeps no read copy from before it, and the acknowledgement leaves
with the vintage the line took (12 R285, R288). -/
def performed (s : State) (core g id la : Nat) : State :=
  let v := (lineSt s la).wv
  let s := modCore s core fun k => match find k.near la with
    | some n => if n.st == .leased then { k with near := del k.near la } else k
    | none => k
  send s .storeAck { g := g, n := id, core := core, va := v }

/-- Perform a release at the home (12 R289). -/
def performRelease (s : State) (m : RelMsg) : State :=
  let s := writeAtHome (dirEvent (demandHome s m.la m.slot (tenantOf s m.g)) m.la) m.la m.slot m.data m.mask m.vw
  let s := modLine s m.la fun l => { l with recs := l.recs ++ [{ core := m.core, scope := m.scope }] }
  performed s m.core m.g m.id m.la

/-- Serve a release at an idle home: a fifth record first drains the core of the oldest (12 R289). -/
def startRelease (s : State) (d : Due) (m : RelMsg) : State :=
  match (lineSt s m.la).recs with
  | r :: rest =>
    if 4 ≤ rest.length + 1 then send (setBusy s m.la (.release d r.core)) .coreDrain { core := r.core, la := m.la }
    else performRelease s m
  | [] => performRelease s m

/-- Perform an `AREDN` at the home (07 R177, 12 R293). -/
def startAtomic (s : State) (m : AtomMsg) : State :=
  let n := m.ty.width / 8
  let (d, s) := readAtHome (dirEvent (demandHome s m.la m.slot (tenantOf s m.g)) m.la) m.la m.slot
  let new := atomNew m.op m.ty (leNat (lineBytes d m.off n)) m.data.toNat 0
  let s := writeAtHome s m.la m.slot (placeBytes m.off (leBytes n new)) (maskBytes m.off n) m.vw
  performed s m.core m.g m.id m.la

/-- Serve a sink group's probe at an idle home (11 R270, R272): the hold is taken, the copies recalled and invalidated, and
the site that will perform the line's runs is settled: the home slice where any slice or near cache had the line, or the
group allows slices only, otherwise the Press. -/
def startProbe (s : State) (d : Due) : State :=
  let la := d.subj.la
  let l := lineSt s la
  let near := if homeDie s la = dieOf d.subj.core then 1 else 2
  let valid := (l.home.isSome && l.slot = d.subj.slot) || !l.copies.isEmpty || !(exclCores s la).isEmpty
  let code := if valid || d.subj.cause = 1 then near else 3
  let s := gather (dirEvent s la) la false
  let s := if code = 3 then s else fillHome s la d.subj.slot
  send (modLine s la fun l => { l with hold := some d.subj.win }) .sinkHoldGrant { d.subj with site := code }

/-- Serve one request at a line whose home is idle. -/
def homeStart (s : State) (d : Due) : State :=
  match d.ev with
  | .homeRead die r => startRead s d die r
  | .homeReadExclusive die r => startExcl s d die r
  | .homeUpgrade die r => startUp s d die r
  | .homeAcquire m => startAcquire s d m
  | .homeRelease m => startRelease s d m
  | .homeAtomic m => startAtomic s m
  | .sinkProbe => startProbe s d
  | _ => s

/-- Serve the requests queued at a line, in arrival order, for as long as its home is idle (12 R300). Fuel bounds them. -/
def pump (fuel : Nat) (s : State) (la : Nat) : State :=
  match fuel with
  | 0 => s
  | fuel + 1 =>
    if !lineReady s la then s
    else match (lineSt s la).queue with
      | [] => s
      | d :: rest => pump fuel (homeStart (modLine s la fun l => { l with queue := rest }) d) la

/-- Serve what waits at a line. -/
def serveLine (s : State) (la : Nat) : State := pump ((lineSt s la).queue.length + 1) s la

/-- A request arrives at a line's home (12 R300). -/
def arrive (s : State) (la : Nat) (d : Due) : State :=
  serveLine (modLine s la fun l => { l with queue := l.queue ++ [d] }) la

/-- End a line's transient state and go on with what waits. -/
def endBusy (s : State) (la : Nat) (next : State → State) : State := serveLine (next (setBusy s la .idle)) la

/-! ### Requests -/

/-- `NEAR_CACHE_MISS` (10 R261, 12 R286, 18 R326): the local slice serves what its state allows, and asks the home for the
rest. A core's own write-back of the line on its way goes first. -/
def execNearCacheMiss (r : LineReq) (s : State) : Host.Outcome State Fault Refusal :=
  let la := r.la
  let d := localDie s r.core la
  let excl := r.kind == .exclusive
  if wbInFlight s r.core la || granting s d la then notNow "NEAR_CACHE_MISS"
  else
    let s := demandAt s (localSlice s (dieOf r.core) la) la r.slot r.tenant false
    let ask : Instr := if excl then .homeReadExclusive d r else .homeRead d r
    if d = homeDie s la then .next (send s ask)
    else match find (lineSt s la).copies d with
      | none => .next (send s ask)
      | some c =>
        if c.slot ≠ r.slot then .next (send s ask)
        else if excl then
          if c.st == .m || c.st == .e then
            .next (send (dirSync (modLine s la fun l => { l with copies := put l.copies d { c with st := .m } }) la)
              (.exclusiveGrant d r))
          else .next (send s (.homeUpgrade d r))
        else if c.st == .m || c.st == .e then
          let s := recallDie s d la
          let s := modLine s la fun l => grantLease s l la r.rv
          let l := lineSt s la
          .next (reply s r (look l.copies d {}).data l.wv l.le)
        else if r.rv ≤ c.le then .next (reply s r c.data c.wv c.le)
        else .next (send s ask)

/-- `HOME_READ` (12 R298). -/
def execHomeRead (die : Nat) (r : LineReq) (s : State) : Host.Outcome State Fault Refusal :=
  .next (arrive s r.la ⟨.homeRead die r, s.subj⟩)
/-- `HOME_READ_EXCLUSIVE` (12 R298). -/
def execHomeReadExclusive (die : Nat) (r : LineReq) (s : State) : Host.Outcome State Fault Refusal :=
  .next (arrive s r.la ⟨.homeReadExclusive die r, s.subj⟩)
/-- `HOME_UPGRADE` (12 R298, R300). -/
def execHomeUpgrade (die : Nat) (r : LineReq) (s : State) : Host.Outcome State Fault Refusal :=
  .next (arrive s r.la ⟨.homeUpgrade die r, s.subj⟩)

/-- Whether an earlier operation of one group on one line is still to arrive at its home (07 R159). -/
def olderAtHome (s : State) (g la id : Nat) : Bool :=
  s.due.any fun d => match d.ev with
    | .homeRelease m => m.g == g && m.la == la && decide (m.id < id)
    | .homeAtomic m => m.g == g && m.la == la && decide (m.id < id)
    | _ => false

/-- `HOME_RELEASE` (12 R289). -/
def execHomeRelease (m : RelMsg) (s : State) : Host.Outcome State Fault Refusal :=
  if olderAtHome s m.g m.la m.id then notNow "HOME_RELEASE"
  else .next (arrive s m.la ⟨.homeRelease m, s.subj⟩)
/-- `HOME_ATOMIC` (07 R177). -/
def execHomeAtomic (m : AtomMsg) (s : State) : Host.Outcome State Fault Refusal :=
  if olderAtHome s m.g m.la m.id then notNow "HOME_ATOMIC"
  else .next (arrive s m.la ⟨.homeAtomic m, s.subj⟩)
/-- `HOME_ACQUIRE` (12 R290): the core's own copy of the line has reached the home first. -/
def execHomeAcquire (m : AcqMsg) (s : State) : Host.Outcome State Fault Refusal :=
  if wbInFlight s m.core m.la then notNow "HOME_ACQUIRE"
  else .next (arrive s m.la ⟨.homeAcquire m, s.subj⟩)

/-! ### Forwards, invalidations and slices' write-backs -/

/-- `FORWARD_SHARED` (18 R327, 12 R298). -/
def execForwardShared (s : State) : Host.Outcome State Fault Refusal :=
  let die := s.subj.die
  let la := s.subj.la
  if granting s die la then notNow "FORWARD_SHARED"
  else
    let s := recallDie s die la
    match find (lineSt s la).copies die with
    | none => .next (send s .noDataReply { die := die, la := la })
    | some c =>
      let s := modLine s la fun l =>
        { l with copies := put l.copies die { c with st := if c.st == .e then .s else .o, wv := l.wv, le := l.le } }
      .next (send s (.forwardReply die la c.data (c.st == .m || c.st == .o)))

/-- `FORWARD_EXCLUSIVE` (18 R327, 12 R298). -/
def execForwardExclusive (s : State) : Host.Outcome State Fault Refusal :=
  let die := s.subj.die
  let la := s.subj.la
  if granting s die la then notNow "FORWARD_EXCLUSIVE"
  else
    let s := recallDie s die la
    match find (lineSt s la).copies die with
    | none => .next (send s .noDataReply { die := die, la := la })
    | some c =>
      let s := modLine (unused s la) la fun l => { l with copies := del l.copies die }
      .next (send s (.forwardReply die la c.data (c.st == .m || c.st == .o)))

/-- The request of a transient state goes on once its data is at the home (12 R298). -/
def resumeReq (s : State) (d : Due) (acks : List Nat) (fwd : Option Nat) (la : Nat) : State :=
  match d.ev with
  | .homeRead die r => endBusy s la fun s => answerRead s die r true
  | .homeReadExclusive die r | .homeUpgrade die r =>
    if acks.isEmpty && fwd.isNone then endBusy s la fun s => answerExcl s die r else setBusy s la (.rx d acks fwd)
  | _ => endBusy s la id

/-- Take the bytes of a line into the home's copy. -/
def absorb (s : State) (la : Nat) (data : LineData) (modified : Bool) : State :=
  modLine (if (lineSt s la).home.isSome then s else sliceRoom s (homeSlice s la) la) la fun l =>
    { l with home := some data, homeDirty := l.homeDirty || modified }

/-- `FORWARD_REPLY` (12 R298): the home keeps the data and completes the request. -/
def execForwardReply (die la : Nat) (data : LineData) (modified : Bool) (s : State) : Host.Outcome State Fault Refusal :=
  match (lineSt s la).busy with
  | .fw d o => if o = die then .next (resumeReq (dirSync (absorb s la data modified) la) d [] none la)
    else notNow "FORWARD_REPLY"
  | .rx d acks (some o) => if o = die then .next (resumeReq (dirSync (absorb s la data modified) la) d acks none la)
    else notNow "FORWARD_REPLY"
  | _ => notNow "FORWARD_REPLY"

/-- `NO_DATA_REPLY` (12 R298): the request completes with the data that the write-back brought. -/
def execNoDataReply (s : State) : Host.Outcome State Fault Refusal :=
  let die := s.subj.die
  let la := s.subj.la
  if sliceWbInFlight s die la then notNow "NO_DATA_REPLY"
  else match (lineSt s la).busy with
    | .wb d o acks => if o = die then .next (resumeReq s d acks none la) else notNow "NO_DATA_REPLY"
    | .fw d o => if o = die then .next (resumeReq (fillHome (dirSync s la) la (lineSt s la).slot) d [] none la)
      else notNow "NO_DATA_REPLY"
    | .rx d acks (some o) => if o = die then .next (resumeReq (dirSync s la) d acks none la) else notNow "NO_DATA_REPLY"
    | _ => notNow "NO_DATA_REPLY"

/-- `INVALIDATION` (12 R298). -/
def execInvalidation (s : State) : Host.Outcome State Fault Refusal :=
  let die := s.subj.die
  let la := s.subj.la
  if granting s die la then notNow "INVALIDATION"
  else
    let s := if (find (lineSt s la).copies die).isSome then unused s la else s
    .next (send (modLine s la fun l => { l with copies := del l.copies die }) .invalidationAck { die := die, la := la })

/-- `INVALIDATION_ACK` (12 R298). -/
def execInvalidationAck (s : State) : Host.Outcome State Fault Refusal :=
  let die := s.subj.die
  let la := s.subj.la
  match (lineSt s la).busy with
  | .up d acks =>
    let acks := acks.erase die
    if acks.isEmpty then match d.ev with
      | .homeUpgrade x r => .next (endBusy s la fun s => answerExcl s x r)
      | _ => .next (endBusy s la id)
    else .next (setBusy s la (.up d acks))
  | .rx d acks fwd => .next (resumeReq s d (acks.erase die) fwd la)
  | .wb d o acks => .next (setBusy s la (.wb d o (acks.erase die)))
  | _ => notNow "INVALIDATION_ACK"

/-- `SLICE_WRITEBACK` (12 R298, 18 R327): data in M or O is taken, a clean notice brings none; during a forward to that
slice the home enters Busy-wb. The acknowledgement that it gets carries nothing, and is not sent (log entry 11). -/
def execSliceWriteback (die la : Nat) (data : LineData) (st : Moesi) (s : State) : Host.Outcome State Fault Refusal :=
  let s := if st == .m || st == .o then absorb s la data true else s
  let s := dirEvent (dirSync s la) la
  let enter (d : Due) (acks : List Nat) : State :=
    post (setBusy s la (.wb d die acks)) 0x122 1 (homeSlice s la) 0xFF (.ofNat 32 die)
  match (lineSt s la).busy with
  | .fw d o => if o = die then .next (enter d []) else .next (serveLine s la)
  | .rx d acks (some o) => if o = die then .next (enter d acks) else .next (serveLine s la)
  | _ => .next (serveLine s la)

/-- `SLICE_EVICTION` (18 R327): near caches of the die that hold the line exclusively are first recalled, and the line is given up;
the home's copy stays while a near cache holds the line exclusively (16 R322). -/
def execSliceEviction (s : State) : Host.Outcome State Fault Refusal :=
  let die := s.subj.die
  let la := s.subj.la
  if granting s die la || sliceAsked s die la then notNow "SLICE_EVICTION"
  else if die = homeDie s la then
    if lineReady s la && (lineSt s la).home.isSome && (exclCores s la).isEmpty then .next (dropSliceLine s die la)
    else notNow "SLICE_EVICTION"
  else match find (lineSt s la).copies die with
    | none => notNow "SLICE_EVICTION"
    | some c => .next (dropSliceLine (if c.st == .m || c.st == .e then recallDie s die la else s) die la)

/-- `SLICE_RECALL` (18 R327): the slice gives up the line, its data and vintages returning to the home. -/
def execSliceRecall (s : State) : Host.Outcome State Fault Refusal :=
  let die := s.subj.die
  let la := s.subj.la
  if granting s die la || sliceAsked s die la || !lineReady s la then notNow "SLICE_RECALL"
  else match find (lineSt s la).copies die with
    | none => notNow "SLICE_RECALL"
    | some _ =>
      let s := recallDie s die la
      let c := look (lineSt s la).copies die {}
      let s := fillHome s la c.slot
      let s := if c.st == .m || c.st == .o then absorb s la c.data true else s
      .next (dirEvent (dirSync (modLine (unused s la) la fun l => { l with copies := del l.copies die }) la) la)

/-- `FILL_FROM_MEMORY` (12 R298): the bytes read from the stack reach the home, whose request goes on. -/
def execFillFromMemory (s : State) : Host.Outcome State Fault Refusal :=
  let la := s.subj.la
  match (lineSt s la).busy with
  | .fill d => .next (endBusy (fillHome s la s.subj.slot) la fun s => homeStart s d)
  | .idle => .next (fillHome s la s.subj.slot)
  | _ => notNow "FILL_FROM_MEMORY"

/-! ### Splitting and merging directory entries -/

/-- `DIRECTORY_CENSUS` (12 R297): a die answers which half of a span it holds lines in. -/
def execDirectoryCensus (s : State) : Host.Outcome State Fault Refusal :=
  let la := s.subj.la
  let die := s.subj.die
  match dirAt s la with
  | none => .next (send s (.censusReply s.subj.part la die false false))
  | some e =>
    let mid := e.base + 2 ^ (e.span - 1)
    let held (lo hi : Nat) : Bool := (halfDies s { e with sharers := [die], owner := none } lo hi).contains die
    .next (send s (.censusReply s.subj.part la die (held e.base mid) (held mid (e.base + 2 ^ e.span))))

/-- `CENSUS_REPLY` (12 R297): once every die has answered, the entry becomes its two halves and the request is served
again. -/
def execCensusReply (part la die : Nat) (lower upper : Bool) (s : State) : Host.Outcome State Fault Refusal :=
  match (lineSt s la).busy with
  | .census d dies lo up =>
    if part ≠ partOfLine s la || !dies.contains die then notNow "CENSUS_REPLY"
    else
      let dies := dies.erase die
      let lo := if lower then lo ++ [die] else lo
      let up := if upper then up ++ [die] else up
      if !dies.isEmpty then .next (setBusy s la (.census d dies lo up))
      else
        let s := match dirAt s la with
          | none => s
          | some e =>
            let halves := [halfEntry e false lo, halfEntry e true up]
            let s := entryRoom s e.slice e.base
            let others := s.dir.filter fun x => !(x.slice = e.slice && x.base = e.base && x.span = e.span)
            post { s with dir := others ++ halves } 0x120 1 e.slice 0xFF (.ofNat 32 (e.span - 1))
        .next (endBusy s la fun s => homeStart s d)
  | _ => notNow "CENSUS_REPLY"

/-- Whether no line of a span is in a transient state. -/
def spanIdle (s : State) (e : DirEnt) : Bool :=
  s.lines.all fun l => !(decide (e.base ≤ l.1) && decide (l.1 < e.base + 2 ^ e.span) && l.2.busy != .idle)

/-- `DIRECTORY_MERGE` (12 R297): two idle sibling entries with equal records that have counted 65,536 events merge. -/
def execDirectoryMerge (s : State) : Host.Outcome State Fault Refusal :=
  match dirAt s s.subj.la with
  | none => notNow "DIRECTORY_MERGE"
  | some e =>
    let base := e.base / 2 ^ (e.span + 1) * 2 ^ (e.span + 1)
    let sib := if e.base = base then e.base + 2 ^ e.span else base
    match s.dir.find? fun x => x.slice = e.slice && x.base = sib && x.span = e.span with
    | none => notNow "DIRECTORY_MERGE"
    | some x =>
      if s.subj.part = partOfLine s s.subj.la && e.span < 9 && 65536 ≤ e.events + x.events && e.owner == x.owner
          && e.sharers == x.sharers && spanIdle s e && spanIdle s x then
        let m : DirEnt := { e with base := base, span := e.span + 1, events := 0, use := max e.use x.use }
        .next (post { s with dir := (s.dir.filter fun y => y != e && y != x) ++ [m] } 0x121 1 e.slice 0xFF (.ofNat 32 m.span))
      else notNow "DIRECTORY_MERGE"

/-! ### Near caches -/

/-- The windows of a core's groups that still wait for a line. -/
def waiters (s : State) (c la : Nat) : List (Nat × Win) :=
  ((s.groups.filter fun g => g.2.core = c).map fun g =>
    (g.2.ctx.wins.filter fun w => w.fault.isNone && w.parts.any fun p => p.la = la && p.got.isNone).map fun w => (g.1, w)).flatten

/-- Serve every window of a core that waits for a line from what its near cache now holds; what it cannot serve is asked
for again with its group's reading vintage (12 R286, R287). -/
def serveCore (s : State) (c la : Nat) (kind : CopyKind) (v : Nat) (pass : Option Passing := none) : State :=
  each (waiters s c la) s fun s (h, w) =>
    match w.req with
    | none => s
    | some r =>
      if copyKindOf r.kind != kind then s
      else
        let s := serveWin s h w.id pass
        let s := if r.kind == .ldx then modWin s h w.id fun w => { w with rv := max w.rv v } else s
        match groupOf s h with
        | none => s
        | some g => match winOf g.ctx w.id with
          | some w => match w.parts.find? fun p => w.fault.isNone && p.la = la && p.got.isNone with
            | some p => askLine s h g la p.slot kind
            | none => s
          | none => s

/-- `NEAR_CACHE_FILL` (15 R317, 10 R255, R256): the line is installed before any result it serves takes effect. A copy that
a later write has overtaken, or behind which the core's own bytes are on their way, is asked for again; beside a pending line
none is kept, and the copy serves those that asked (07 R163). -/
def execNearCacheFill (r : LineReq) (data : LineData) (wv le : Nat) (s : State) : Host.Outcome State Fault Refusal :=
  let la := r.la
  let s := observe s r.core wv
  if r.kind == .constant then
    let s := install s r.core (constKey la) { st := .constant, data := data, slot := r.slot, wv := wv, le := le }
    .next (serveCore s r.core la .constant 0)
  else
    let own : Bool := match nearLine s r.core la with
      | some n => n.slot == r.slot && (n.st == .dirty || n.st == .exclusive)
      | none => false
    if own then .next (serveCore s r.core la .leased 0)
    else if wv ≠ (lineSt s la).wv || wbInFlight s r.core la then .next (serveCore s r.core la .leased 0)
    else
      let s := dropOther s r.core la r.slot
      if (coreOf s r.core).pend.any fun p => p.la = la then
        .next (serveCore s r.core la .leased 0 (some (la, r.slot, data, wv)))
      else
      let s := install s r.core la { st := .leased, data := data, slot := r.slot, wv := wv, le := le }
      .next (serveCore s r.core la .leased 0)

/-- `EXCLUSIVE_GRANT` (18 R326, 16 R320, R322): the core takes exclusive ownership, its own dirty bytes staying over the line's,
and the operations that wait for the line are performed before anything recalls it. What the core had written back of the line
arrives first, and the home keeps a copy. -/
def execExclusiveGrant (die : Nat) (r : LineReq) (s : State) : Host.Outcome State Fault Refusal :=
  let la := r.la
  let s := each ((exclCores s la).filter fun c => c != r.core) s fun s c => recallNear s la c
  let s := landFlights (dropOther s r.core la r.slot) (some r.core) la
  let s := fillHome s la r.slot
  let l := lineSt s la
  let base := if die = homeDie s la then homeData s la r.slot else (look l.copies die {}).data
  let n : NcLine := match nearLine s r.core la with
    | some o => if o.isDirty then { o with st := .exclusive, data := mergeLine base o.data o.mask, wv := l.wv, le := l.le }
      else { o with st := .exclusive, data := if o.st == .exclusive then o.data else base, mask := 0, wv := l.wv, le := l.le }
    | none => { st := .exclusive, data := base, slot := r.slot, wv := l.wv, le := l.le }
  let s := observe (install s r.core la n) r.core l.wv
  .next (serveLine (serveCore s r.core la .exclusive l.wv) la)

/-- `NEAR_CACHE_RECALL` (16 R320, R322). -/
def execNearCacheRecall (s : State) : Host.Outcome State Fault Refusal :=
  if (exclCores s s.subj.la).contains s.subj.core then .next (recallNear s s.subj.la s.subj.core)
  else notNow "NEAR_CACHE_RECALL"

/-- Whether a near-cache write-back must wait: an earlier one of the line from the same core is on its way, or the line's
home is between two states. -/
def wbWaits (s : State) (m : WbMsg) : Bool :=
  let older : Bool := s.due.any fun d => match d.ev with
    | .nearCacheWriteback x => x.core == m.core && x.la == m.la && decide (x.id < m.id)
    | _ => false
  let l := lineSt s m.la
  let into : Bool := match find l.copies (localDie s m.core m.la) with
    | some c => c.st == .m || c.st == .e
    | none => false
  let free : Bool := l.hold.isNone && !lineMoving s m.la && (match l.busy with
    | .idle | .acquire _ _ _ | .release _ _ => true
    | _ => false)
  older || !(into || free)

/-- The bytes of a mask that lie in its first sector. -/
def firstSector (m : ByteMask) : ByteMask :=
  (((List.range 4).map fun i => m &&& maskBytes (32 * i) 32).find? fun x => x != 0).getD 0

/-- `NEAR_CACHE_WRITEBACK` (12 R288, 18 R327): each sector is performed as one write, and the sectors together unless the tape
splits them (12 R282). -/
def execNearCacheWriteback (m : WbMsg) (s : State) : Host.Outcome State Fault Refusal :=
  if wbWaits s m then notNow "NEAR_CACHE_WRITEBACK"
  else
    let (cut, s) := takeSplit s
    let now := if cut then firstSector m.mask else m.mask
    let (wv, s) := performMsg s { m with mask := now }
    if now = m.mask then .next (send s (.writebackAck m wv))
    else .next (send s (.nearCacheWriteback { m with mask := m.mask &&& ~~~now }))

/-- A core that a waiting acquire or release drains has been drained and has nothing left on its way (12 R289, R290). The
vintage drained is the largest the core has observed, so that it covers the write-backs the core made before the drain (12
R284, log entry 14). -/
def drained (s : State) (c : Nat) : State :=
  let asked (la : Nat) : Bool := s.due.any fun d => d.ev == .coreDrain && d.subj.core = c && d.subj.la = la
  if !coreQuiet s c then s
  else each (s.lines.filter fun l => !asked l.1) s fun s (la, l) => match l.busy with
    | .acquire d cores v => if cores.contains c then
        let rest := cores.erase c
        let s := setBusy s la (.acquire d rest (max v (coreOf s c).obsv))
        if rest.isEmpty then send s .drainComplete { la := la } else s
      else s
    | .release _ k => if k = c then send s .drainComplete { la := la } else s
    | _ => s

/-- `WRITEBACK_ACK` (07 R172, 12 R285, R290). -/
def execWritebackAck (m : WbMsg) (wv : Nat) (s : State) : Host.Outcome State Fault Refusal :=
  let s := observe s m.core wv
  let s := match m.grp with
    | some h => ackOut s h m.id
    | none => s
  let note (l : LineSt) : LineSt := match l.busy with
    | .acquire d cores v => if cores.contains m.core then { l with busy := .acquire d cores (max v wv) } else l
    | _ => l
  let s := if (coreOf s m.core).moving.isSome then send s .splitCacheToScratch { core := m.core } else s
  .next (drained { s with lines := s.lines.map fun x => (x.1, note x.2) } m.core)

/-- `STORE_ACK` (07 R168, R172, 12 R285, R288): the group's `%rv` and its core's observed vintage rise to the vintage that the
acknowledgement carries. -/
def execStoreAck (s : State) : Host.Outcome State Fault Refusal :=
  let v := s.subj.va
  let s := ackOut s s.subj.g s.subj.n
  .next (if v = 0 then s else observe (modCtx s s.subj.g fun x => { x with rv := max x.rv v }) s.subj.core v)

/-- `CORE_DRAIN` (12 R290): every dirty line of the core is written back, exclusive dirty ones staying as clean ones. -/
def execCoreDrain (s : State) : Host.Outcome State Fault Refusal :=
  .next (drained (drainCore s s.subj.core none (some s.subj.la)) s.subj.core)

/-- `DRAIN_COMPLETE` (12 R289, R290): the acquire returns, or the release that found four records is performed, the drained vintage
standing on the variable. -/
def execDrainComplete (s : State) : Host.Outcome State Fault Refusal :=
  let la := s.subj.la
  match (lineSt s la).busy with
  | .acquire d [] v => match d.ev with
    | .homeAcquire m => .next (endBusy s la fun s => finishAcquire s m v)
    | _ => .next (endBusy s la id)
  | .release d k =>
    let v := (coreOf s k).obsv
    let s := modLine s la fun l =>
      { l with wv := max l.wv v, le := max l.le (max l.wv v), recs := l.recs.drop 1 }
    match d.ev with
    | .homeRelease m => .next (endBusy s la fun s => performRelease s m)
    | _ => .next (endBusy s la id)
  | _ => notNow "DRAIN_COMPLETE"

/-! ### Slice prefetches and the rebase -/

/-- `SLICE_PREFETCH` (10 R262): the line reaches the slice through its home as a read copy would, with no vintage changed. -/
def execSlicePrefetch (s : State) : Host.Outcome State Fault Refusal :=
  let la := s.subj.la
  let slot := s.subj.slot
  let die := s.subj.slice / 64
  match (lineSt s la).pf with
  | some (t, sl, false) =>
    if sl ≠ s.subj.slice || (lineSt s la).poison || !lineReady s la then notNow "SLICE_PREFETCH"
    else
      let s := modLine s la fun l => { l with pf := some (t, sl, true) }
      if die = homeDie s la then .next (fillHome s la slot)
      else if (find (lineSt s la).copies die).isSome then .next s
      else
        let s := dirRoom (dropSlots s la slot) la
        let (d, s) := readAtHome s la slot
        .next (dieCopy s die la slot (if (lineSt s la).copies.isEmpty then .e else .s) d)
  | _ => notNow "SLICE_PREFETCH"

/-- Whether nothing of a partition is outstanding: its groups' results and operations, its commands, and every message. -/
def partQuiet (s : State) (p : Nat) : Bool :=
  s.groups.all (fun g => groupPart s g.2 != p || (settled g.2.ctx && g.2.out.isEmpty && g.2.ctx.sinks.isEmpty))
  && s.cmds.all (fun c => (launchOf s c.2.launch).part != p || (match c.2.st with
    | .over | .faulted _ => true
    | _ => false))
  && !s.due.any fun d => match d.ev with
    | .tasterEventArrival _ _ => false
    | e => isMessage e

/-- Write back every dirty line of a core and drop every read copy; pending lines stay (12 R302). -/
def settleCore (s : State) (c : Nat) : State :=
  let s := each (coreOf s c).near s fun s (la, n) =>
    if n.isDirty then performWriteback s c la n.slot n.data n.mask (coreOf s c).obsv n.poison else s
  modCore s c fun k => { k with
    near := (k.near.filter fun n => n.2.st == .exclusive).map fun n => (n.1, { n.2 with mask := 0, wv := 0, le := 0 })
    obsv := 0, ecRv := [0, 0, 0, 0] }

/-- A context with its vintages at zero. -/
def zeroRv (x : Ctx) : Ctx := { x with rv := 0, wins := x.wins.map fun w => { w with rv := 0 } }

/-- What a rebase of a partition leaves of a line. -/
def rebaseLine (s : State) (p la : Nat) (l : LineSt) : LineSt :=
  if partOfLine s la = p then { l with wv := 0, le := 0, copies := l.copies.map (fun c => (c.1, { c.2 with wv := 0, le := 0 })) } else l

/-- What a rebase of a partition leaves of a group. -/
def rebaseGroup (s : State) (p : Nat) (g : Group) : Group :=
  if groupPart s g = p then { g with ctx := zeroRv g.ctx, shadow := g.shadow.map zeroRv } else g

/-- A spawn record with its vintages at zero. -/
def zeroSpawn (r : SpawnRec) : SpawnRec := { r with rv := 0, seen := 0 }

/-- What a rebase leaves of a core's casks: their records with no vintage. -/
def rebaseCasks (s : State) (c : Nat) : State :=
  modCore s c fun k => { k with casks := k.casks.map fun x => (x.1, { x.2 with recs := x.2.recs.map zeroSpawn }) }

/-- `VINTAGE_REBASE` (12 R302): once nothing of the partition is outstanding and a vintage has come within 2^40 of the
top, every vintage becomes zero. -/
def execVintageRebase (s : State) : Host.Outcome State Fault Refusal :=
  let p := s.subj.part
  if !rebaseDue s p || !partQuiet s p then notNow "VINTAGE_REBASE"
  else
    let s := each (partOf s p).cores s fun s c => rebaseCasks (settleCore s c) c
    let t := { s with
      lines := s.lines.map fun x => (x.1, rebaseLine s p x.1 x.2)
      groups := s.groups.map fun x => (x.1, rebaseGroup s p x.2)
      teams := s.teams.map fun (t, v) =>
        if (launchOf s v.launch).part = p then (t, { v with ecRv := [0, 0, 0, 0] }) else (t, v)
      cmds := s.cmds.map fun (c, v) =>
        if (launchOf s v.launch).part = p then (c, { v with rv := 0, wv := 0 }) else (c, v) }
    .next (modPart t p fun v => { v with ov := v.ov.map fun x => (x.1, x.2.map zeroSpawn) })

/-- The rebase that is due: of a partition with a vintage near the top and nothing outstanding. -/
def chooseRebase (s : State) : Option Due :=
  (s.parts.find? fun p => rebaseDue s p.1 && partQuiet s p.1).map fun p => ⟨.vintageRebase, { part := p.1 }⟩

end Sys2Proof.Machine
end

