-- ==== Sys2Proof/Machine/Elementary.lean ====
section
/-! DEFINITION. The elementary functions 2^a, log2 a, sin and cos of π a, rounded once to the nearest binary32 number
(06 R140, R141). Each is computed in fixed point between two bounds; where both bounds round alike, that is the rounded
value, since the exact value is then irrational and lies strictly between them. -/

namespace Sys2Proof.Machine

/-- The fraction bits of the fixed-point numbers. -/
def fxBits : Nat := 320
/-- One, in fixed point. -/
def fxOne : Nat := 2 ^ fxBits
/-- π in fixed point, truncated. -/
def fxPi : Nat := 0x3243f6a8885a308d313198a2e03707344a4093822299f31d0082efa98ec4e6c89452821e638d01377
/-- The natural logarithm of 2 in fixed point, truncated. -/
def fxLn2 : Nat := 0xb17217f7d1cf79abc9e3b39803f2f6af40f343267298b62d8a0d175b8baafa2be7b876206debac98
/-- The product of two fixed-point numbers, truncated. -/
def fxMul (a b : Nat) : Nat := a * b / fxOne
/-- What no sum of truncated terms here is off by. -/
def fxErr : Nat := 4096

/-- `1 + x/i + x²/(i (i+1)) + …`, `n` terms. -/
def expTail : Nat → Nat → Nat → Nat
  | 0, _, _ => 0
  | n + 1, i, x => fxOne + fxMul x (expTail n (i + 1) x) / i

/-- `z + z³/3 + z⁵/5 + …` from the power `p = z^i`, `n` terms. -/
def atanhTail : Nat → Nat → Nat → Nat → Nat
  | 0, _, _, _ => 0
  | n + 1, i, p, z2 => p / i + atanhTail n (i + 2) (fxMul p z2) z2

/-- `1 - x²/(i (i+1)) (1 - …)`, `n` terms: the cosine of x for `i = 1`, the sine over x for `i = 2`. -/
def trigTail : Nat → Nat → Nat → Nat
  | 0, _, _ => 0
  | n + 1, i, x2 => fxOne - fxMul x2 (trigTail n (i + 2) x2) / (i * (i + 1))

/-- Round a value known to lie within `fxErr` of a fixed-point number to binary32; `code` and `a` name the function and
operand where the bounds do not agree (log entry 7). -/
def roundFx (code : Nat) (a : Nat) (neg : Bool) (v : Nat) (e : Int) : Nat × Nat :=
  let lo := roundFloat f32 .rn neg (v - fxErr) (e - fxBits) true
  let hi := roundFloat f32 .rn neg (v + fxErr) (e - fxBits) true
  if lo = hi then lo else ((Config.elementary code (.ofNat 32 a)).toNat, lo.2 ||| NX)

/-- 2^a (06 R140, R141). -/
def exp2F (x : Nat) : Nat × Nat :=
  match unpackFloat f32 x with
  | .nan s => (f32.nan, if s then NV else 0)
  | .inf neg => (if neg then 0 else f32.inf, 0)
  | .fin neg m e =>
    let whole := m % 2 ^ (-e).toNat = 0
    let n : Int := if 0 ≤ e then signedM neg m * 2 ^ e.toNat else Int.fdiv (signedM neg m) (2 ^ (-e).toNat)
    if 128 ≤ n then roundFloat f32 .rn false 1 128
    else if n < -160 then roundFloat f32 .rn false 1 (-200)
    else if whole then roundFloat f32 .rn false 1 n
    else if e + bitLen m < -40 then ((f32.bias * 2 ^ 23), NX)
    else
      let fr := (wrapInt (-e).toNat (signedM neg m)) * 2 ^ (fxBits - (-e).toNat)
      roundFx 0 x false (expTail 100 1 (fxMul fr fxLn2)) n

/-- log2 a (06 R140, R141). -/
def log2F (x : Nat) : Nat × Nat :=
  match unpackFloat f32 x with
  | .nan s => (f32.nan, if s then NV else 0)
  | .inf neg => if neg then (f32.nan, NV) else (f32.inf, 0)
  | .fin neg m e =>
    if m = 0 then (f32.sign true + f32.inf, DZ)
    else if neg then (f32.nan, NV)
    else
      let n : Int := e + m.log2
      if m = 2 ^ m.log2 then intToFloat f32 .rn n
      else
        let y := m * 2 ^ (fxBits - m.log2)
        let z := (y - fxOne) * fxOne / (y + fxOne)
        let ln := 2 * atanhTail 120 1 z (fxMul z z)
        let v : Int := (ln * fxOne / fxLn2 : Nat) + n * fxOne
        roundFx 1 x (decide (v < 0)) v.natAbs 0

/-- sin(π a), or cos(π a) with `cos` (06 R140, R141). -/
def trigF (cos : Bool) (x : Nat) : Nat × Nat :=
  match unpackFloat f32 x with
  | .nan s => (f32.nan, if s then NV else 0)
  | .inf _ => (f32.nan, NV)
  | .fin neg m e =>
    let A := m * 2 ^ (e + fxBits).toNat
    let q := A / 2 ^ (fxBits - 1) % 4 + (if cos then 1 else 0)
    let fr := A % 2 ^ (fxBits - 1)
    let sgn := decide (2 ≤ q % 4) != (neg && !cos)
    if fr = 0 then
      if q % 2 = 1 then (f32.sign sgn + f32.bias * 2 ^ 23, 0)
      else (f32.sign (!cos && neg && m = 0), 0)
    else
      let y := fxMul fr fxPi
      let y2 := fxMul y y
      let v := if q % 2 = 0 then fxMul y (trigTail 60 2 y2) else trigTail 60 1 y2
      roundFx (if cos then 3 else 2) x sgn v 0

end Sys2Proof.Machine
end

