-- ==== Sys2Proof/Machine/Integer.lean ====
section
/-! DEFINITION. The integer, move, logic and bit instructions (06 R129 to R135). -/

namespace Sys2Proof.Machine

/-- The integer a source's bits stand for under a type (04 R71). -/
def intVal (ty : Ty) (v : Nat) : Int := if ty.signed then sx v ty.width else (v % 2 ^ ty.width : Nat)

/-- An exact result wrapped or, under sat, clamped to a type's range (04 R71). -/
def fitInt (ty : Ty) (sat : Bool) (z : Int) : Nat :=
  wrapInt ty.width (if sat then clampInt ty.signed ty.width z else z)

/-- Issue an integer word whose exact result is a function of its sources (06 R129). -/
def issueInt (s : State) (op : Op) (f : FOps) (comp : Int → Int → Int → Int) : Host.Outcome State Fault Refusal :=
  issueAlu s op f fun a b c => (fitInt f.ty f.sat (comp (intVal f.ty a) (intVal f.ty b) (intVal f.ty c)), 0)

/-- Issue a word whose result is a function of its sources' bits and that raises no flag. -/
def issueBits (s : State) (op : Op) (f : FOps) (comp : Nat → Nat → Nat → Nat) : Host.Outcome State Fault Refusal :=
  issueAlu s op f fun a b c => (comp a b c, 0)

/-- Issue a long-latency word of the plain kind (05 R110, 06 R123). -/
def issueLongAlu (s : State) (op : Op) (f : FOps) (comp : Nat → Nat → Nat → Nat × Nat) :
    Host.Outcome State Fault Refusal :=
  issueLong s f (ioOf op.entry f f.ty) fun x w eff =>
    .ok (perThread f.u w eff fun t =>
      let (v, fl) := comp (srcA x w f f.ty t) (srcB x w f f.ty t) (srcC x f f.ty t)
      { wr := wrDst f.u f.d.toNat f.ty.regs t (extendTo f.ty f.u v), flags := fl })

/-- `IADD` (06 R129). -/
def execIadd (f : FOps) (s : State) : Host.Outcome State Fault Refusal := issueInt s .iadd f fun a b _ => a + b
/-- `ISUB` (06 R129). -/
def execIsub (f : FOps) (s : State) : Host.Outcome State Fault Refusal := issueInt s .isub f fun a b _ => a - b
/-- `IMUL` (06 R129). -/
def execImul (f : FOps) (s : State) : Host.Outcome State Fault Refusal := issueInt s .imul f fun a b _ => a * b
/-- `IMULH` (06 R129): the floor of the product over 2^w. -/
def execImulh (f : FOps) (s : State) : Host.Outcome State Fault Refusal :=
  issueInt s .imulh f fun a b _ => Int.fdiv (a * b) (2 ^ f.ty.width)
/-- `IMAD` (06 R129). -/
def execImad (f : FOps) (s : State) : Host.Outcome State Fault Refusal := issueInt s .imad f fun a b c => a * b + c
/-- `IMIN` (06 R129). -/
def execImin (f : FOps) (s : State) : Host.Outcome State Fault Refusal := issueInt s .imin f fun a b _ => min a b
/-- `IMAX` (06 R129). -/
def execImax (f : FOps) (s : State) : Host.Outcome State Fault Refusal := issueInt s .imax f fun a b _ => max a b
/-- `IABS` (06 R129). -/
def execIabs (f : FOps) (s : State) : Host.Outcome State Fault Refusal := issueInt s .iabs f fun a _ _ => (a.natAbs : Int)
/-- `INEG` (06 R129). -/
def execIneg (f : FOps) (s : State) : Host.Outcome State Fault Refusal := issueInt s .ineg f fun a _ _ => -a

/-- The carry-in bit of a mask for a thread, or under U for the lowest thread of E (06 R130). -/
def carryIn (x : Ctx) (uni : Bool) (eff : Word) (c t : Nat) : Nat :=
  if (maskReg x c).getLsbD (if uni then lowest eff else t) then 1 else 0

/-- `IADDC` (06 R130): the sum with the carry of kC, and the carry-out written under 06 R124. -/
def execIaddc (f : FOps) (s : State) : Host.Outcome State Fault Refusal :=
  issue s Op.iaddc.code 1 f.k f.kn f.u (ioOf Op.iaddc.entry f f.ty) fun x w eff =>
    let sum (t : Nat) : Nat := srcA x w f f.ty t + srcB x w f f.ty t + carryIn x f.u eff f.c.toNat t
    let r := perThread f.u w eff fun t =>
      { wr := wrDst f.u f.d.toNat f.ty.regs t (extendTo f.ty f.u (sum t)) }
    .ok { r with masks := (maskResult x f.u w f.c.toNat eff fun t => (decide (2 ^ f.ty.width ≤ sum t), 0)).masks }

/-- The quotient and remainder of 04 R72: truncating division; a zero divisor gives all ones and the dividend, with
IDZ. -/
def divRem (ty : Ty) (sat : Bool) (a b : Nat) : Nat × Nat × Nat :=
  let x := intVal ty a
  let y := intVal ty b
  if y = 0 then (2 ^ ty.width - 1, a % 2 ^ ty.width, IDZ)
  else (fitInt ty sat (Int.tdiv x y), fitInt ty false (Int.tmod x y), 0)

/-- `IDIV` (04 R72, 06 R129). -/
def execIdiv (f : FOps) (s : State) : Host.Outcome State Fault Refusal :=
  issueLongAlu s .idiv f fun a b _ => let r := divRem f.ty f.sat a b; (r.1, r.2.2)
/-- `IREM` (04 R72, 06 R129). -/
def execIrem (f : FOps) (s : State) : Host.Outcome State Fault Refusal :=
  issueLongAlu s .irem f fun a b _ => let r := divRem f.ty f.sat a b; (r.2.1, r.2.2)

/-- The condition of a comparison by its mod code (06 R131). -/
def intCond (m : Nat) (a b : Int) : Bool :=
  match m with
  | 0 => a == b
  | 1 => a != b
  | 2 => decide (a < b)
  | 3 => decide (a ≤ b)
  | 4 => decide (b < a)
  | _ => decide (b ≤ a)

/-- `ICMP` (06 R131). -/
def execIcmp (f : FOps) (s : State) : Host.Outcome State Fault Refusal :=
  issue s Op.icmp.code 1 f.k f.kn f.u (ioOf Op.icmp.entry f f.ty) fun x w eff =>
    .ok (maskResult x f.u w f.d.toNat eff fun t =>
      (intCond f.mod.toNat (intVal f.ty (srcA x w f f.ty t)) (intVal f.ty (srcB x w f f.ty t)), 0))

/-- `LEA` (06 R132): b is one 32-bit register, or the immediate. -/
def execLea (f : FOps) (s : State) : Host.Outcome State Fault Refusal :=
  issue s Op.lea.code 1 f.k f.kn f.u (ioOf Op.lea.entry f .b64) fun x w eff =>
    .ok (perThread f.u w eff fun t =>
      let b := sx (srcB x w f .b32 t) 32
      let v := wrapInt 64 ((srcA x w f .b64 t : Int) + b * 2 ^ f.mod.toNat)
      { wr := wrDst f.u f.d.toNat 2 t v })

/-- `SEL` (06 R132): under U, bit 0 of kC selects; C = 0 takes a, whether thread 0 is active or not (log entry 17). -/
def execSel (f : FOps) (s : State) : Host.Outcome State Fault Refusal :=
  issue s Op.sel.code 1 f.k f.kn f.u (ioOf Op.sel.entry f f.ty) fun x w eff =>
    .ok (perThread f.u w eff fun t =>
      let c := f.c = 0 || (maskReg x f.c.toNat).getLsbD (if f.u then 0 else t)
      { wr := wrDst f.u f.d.toNat f.ty.regs t (if c then srcA x w f f.ty t else srcB x w f f.ty t) })

/-- `MOV` (06 R125, R132): with x[0] the immediate. -/
def execMov (f : FOps) (s : State) : Host.Outcome State Fault Refusal :=
  let e := if f.x0 then { Op.mov.entry with a := .none } else Op.mov.entry
  issue s Op.mov.code 1 f.k f.kn f.u (ioOf e f f.ty) fun x w eff =>
    .ok (perThread f.u w eff fun t =>
      { wr := wrDst f.u f.d.toNat f.ty.regs t (if f.x0 then srcB x w f f.ty t else srcA x w f f.ty t) })

/-- `MOVI` (06 R132): the immediate word. -/
def execMovi (f : FOps) (w : Word) (s : State) : Host.Outcome State Fault Refusal :=
  issue s Op.movi.code 2 f.k f.kn f.u (ioOf Op.movi.entry f f.ty) fun _ wd eff =>
    .ok (perThread f.u wd eff fun t => { wr := wrDst f.u f.d.toNat f.ty.regs t (w.toNat % 2 ^ f.ty.width) })

/-- `AND` (06 R133). -/
def execAnd (f : FOps) (s : State) : Host.Outcome State Fault Refusal := issueBits s .and_ f fun a b _ => a &&& b
/-- `OR` (06 R133). -/
def execOr (f : FOps) (s : State) : Host.Outcome State Fault Refusal := issueBits s .or_ f fun a b _ => a ||| b
/-- `XOR` (06 R133). -/
def execXor (f : FOps) (s : State) : Host.Outcome State Fault Refusal := issueBits s .xor_ f fun a b _ => a ^^^ b
/-- `NOT` (06 R133). -/
def execNot (f : FOps) (s : State) : Host.Outcome State Fault Refusal :=
  issueBits s .not_ f fun a _ _ => 2 ^ f.ty.width - 1 - a
/-- `ANDN` (06 R133). -/
def execAndn (f : FOps) (s : State) : Host.Outcome State Fault Refusal :=
  issueBits s .andn f fun a b _ => a &&& (2 ^ f.ty.width - 1 - b)
/-- `SHL` (06 R133): the count is taken modulo the width. -/
def execShl (f : FOps) (s : State) : Host.Outcome State Fault Refusal :=
  issueBits s .shl f fun a b _ => a * 2 ^ (b % f.ty.width)
/-- `SHR` (06 R133). -/
def execShr (f : FOps) (s : State) : Host.Outcome State Fault Refusal :=
  issueBits s .shr f fun a b _ => a / 2 ^ (b % f.ty.width)
/-- `SAR` (06 R133). -/
def execSar (f : FOps) (s : State) : Host.Outcome State Fault Refusal :=
  issueBits s .sar f fun a b _ => wrapInt f.ty.width (Int.fdiv (sx a f.ty.width) (2 ^ (b % f.ty.width)))

/-- Rotate the low `w` bits left by `n`. -/
def rotl (w a n : Nat) : Nat := (a * 2 ^ (n % w)) % 2 ^ w + a / 2 ^ (w - n % w)

/-- `ROL` (06 R133). -/
def execRol (f : FOps) (s : State) : Host.Outcome State Fault Refusal := issueBits s .rol f fun a b _ => rotl f.ty.width a b
/-- `POPC` (06 R133). -/
def execPopc (f : FOps) (s : State) : Host.Outcome State Fault Refusal :=
  issueBits s .popc f fun a _ _ => popCount f.ty.width a
/-- `CLZ` (06 R133). -/
def execClz (f : FOps) (s : State) : Host.Outcome State Fault Refusal :=
  issueBits s .clz f fun a _ _ => f.ty.width - bitLen a

/-- The low `w` bits reversed. -/
def revBits : Nat → Nat → Nat
  | 0, _ => 0
  | w + 1, a => (if a % 2 = 1 then 2 ^ w else 0) + revBits w (a / 2)

/-- `BREV` (06 R133). -/
def execBrev (f : FOps) (s : State) : Host.Outcome State Fault Refusal := issueBits s .brev f fun a _ _ => revBits f.ty.width a

/-- Position and length of a bit field (06 R134). -/
def fieldOf (b : Nat) : Nat × Nat := (b % 32, min (bits b 10 5) (32 - b % 32))

/-- Whether some thread of E gives a length above 32, which is illegal for the whole word (06 R134). -/
def badField (x : Ctx) (w : Nat) (f : FOps) (eff : Word) : Bool :=
  if f.u then eff != 0 && decide (32 < bits (srcB x w f f.ty 0) 10 5)
  else (threadsOf w eff).any fun t => 32 < bits (srcB x w f f.ty t) 10 5

/-- Extract a field (06 R134). -/
def bfx (signed : Bool) (a b : Nat) : Nat :=
  let (pos, len) := fieldOf b
  if len = 0 then 0
  else
    let v := a / 2 ^ pos % 2 ^ len
    if signed then wrapInt 32 (sx v len) else v

/-- Insert a field (06 R134). -/
def bfi (a b c : Nat) : Nat :=
  let (pos, len) := fieldOf b
  let m := (2 ^ len - 1) * 2 ^ pos
  (a &&& (2 ^ 32 - 1 - m)) ||| (c * 2 ^ pos &&& m)

/-- Issue a bit-field word: an illegal length in any thread of E is illegal-instruction (06 R134). -/
def issueField (s : State) (op : Op) (f : FOps) (comp : Nat → Nat → Nat → Nat) : Host.Outcome State Fault Refusal :=
  issue s op.code 1 f.k f.kn f.u (ioOf op.entry f f.ty) fun x w eff =>
    if badField x w f eff then .error { code := 0x01 }
    else .ok (perThread f.u w eff fun t =>
      { wr := wrDst f.u f.d.toNat 1 t (extendTo f.ty f.u (comp (srcA x w f f.ty t) (srcB x w f f.ty t)
                                                              (srcC x f f.ty t))) })

/-- `BFX` (06 R134). -/
def execBfx (f : FOps) (s : State) : Host.Outcome State Fault Refusal :=
  issueField s .bfx f fun a b _ => bfx (f.ty == .i32) a b
/-- `BFI` (06 R134). -/
def execBfi (f : FOps) (s : State) : Host.Outcome State Fault Refusal := issueField s .bfi f bfi

/-- Byte `j` of the permutation (06 R135). -/
def permByte (a b c j : Nat) : Nat :=
  let n := bits c (4 * j + 3) (4 * j)
  if 8 ≤ n then 0 else (a + 2 ^ 32 * b) / 256 ^ n % 256

/-- The permuted word. -/
def perm (a b c : Nat) : Nat :=
  permByte a b c 0 + 256 * permByte a b c 1 + 65536 * permByte a b c 2 + 16777216 * permByte a b c 3

/-- `PERM` (06 R135). -/
def execPerm (f : FOps) (s : State) : Host.Outcome State Fault Refusal := issueBits s .perm f perm

end Sys2Proof.Machine
end

