-- ==== Sys2Proof/Machine/FloatOps.lean ====
section
/-! DEFINITION. The floating-point, conversion and scaling instructions (06 R136 to R147). -/

namespace Sys2Proof.Machine

/-- The element format of a floating type (04 R62). -/
def fmtOf (ty : Ty) : Fmt :=
  match ty with
  | .f16x2 => f16
  | .bf16x2 => bf16
  | .f64 => f64
  | _ => f32

/-- Apply an element operation to a word: to both halves of a packed type, their flags ORed (04 R63). -/
def onElems (ty : Ty) (op : Fmt → Nat → Nat → Nat → Nat × Nat) (a b c : Nat) : Nat × Nat :=
  if ty.packed then
    let lo := op (fmtOf ty) (a % 65536) (b % 65536) (c % 65536)
    let hi := op (fmtOf ty) (a / 65536 % 65536) (b / 65536 % 65536) (c / 65536 % 65536)
    (lo.1 + 65536 * hi.1, lo.2 ||| hi.2)
  else op (fmtOf ty) a b c

/-- Issue a correctly rounded word (06 R136, R142): rounding by rm, sat by 04 R68. -/
def issueFp (s : State) (op : Op) (f : FOps) (comp : Fmt → FV → FV → FV → Nat × Nat) :
    Host.Outcome State Fault Refusal :=
  issueAlu s op f (onElems f.ty fun m a b c =>
    satF m f.sat (comp m (unpackFloat m a) (unpackFloat m b) (unpackFloat m c)))

/-- Issue a word that acts on the bits of its elements. -/
def issueFpBits (s : State) (op : Op) (f : FOps) (comp : Fmt → Nat → Nat → Nat × Nat) :
    Host.Outcome State Fault Refusal :=
  issueAlu s op f (onElems f.ty fun m a b _ => comp m a b)

/-- `FADD` (06 R136). -/
def execFadd (f : FOps) (s : State) : Host.Outcome State Fault Refusal := issueFp s .fadd f fun m a b _ => addV m f.rm a b
/-- `FSUB` (06 R136). -/
def execFsub (f : FOps) (s : State) : Host.Outcome State Fault Refusal :=
  issueFp s .fsub f fun m a b _ => addV m f.rm a b.negate
/-- `FMUL` (06 R136). -/
def execFmul (f : FOps) (s : State) : Host.Outcome State Fault Refusal := issueFp s .fmul f fun m a b _ => mulV m f.rm a b
/-- `FFMA` (06 R136). -/
def execFfma (f : FOps) (s : State) : Host.Outcome State Fault Refusal := issueFp s .ffma f fun m a b c => fmaV m f.rm a b c
/-- `FMIN` (06 R137). -/
def execFmin (f : FOps) (s : State) : Host.Outcome State Fault Refusal := issueFpBits s .fmin f fun m a b => minmaxV m false a b
/-- `FMAX` (06 R137). -/
def execFmax (f : FOps) (s : State) : Host.Outcome State Fault Refusal := issueFpBits s .fmax f fun m a b => minmaxV m true a b
/-- `FABS` (06 R136): bits only. -/
def execFabs (f : FOps) (s : State) : Host.Outcome State Fault Refusal :=
  issueFpBits s .fabs f fun m a _ => (a % 2 ^ (m.width - 1), 0)
/-- `FNEG` (06 R136): bits only. -/
def execFneg (f : FOps) (s : State) : Host.Outcome State Fault Refusal :=
  issueFpBits s .fneg f fun m a _ => (a ^^^ 2 ^ (m.width - 1), 0)

/-- `DADD` (06 R142). -/
def execDadd (f : FOps) (s : State) : Host.Outcome State Fault Refusal := issueFp s .dadd f fun m a b _ => addV m f.rm a b
/-- `DSUB` (06 R142). -/
def execDsub (f : FOps) (s : State) : Host.Outcome State Fault Refusal :=
  issueFp s .dsub f fun m a b _ => addV m f.rm a b.negate
/-- `DMUL` (06 R142). -/
def execDmul (f : FOps) (s : State) : Host.Outcome State Fault Refusal := issueFp s .dmul f fun m a b _ => mulV m f.rm a b
/-- `DFMA` (06 R142). -/
def execDfma (f : FOps) (s : State) : Host.Outcome State Fault Refusal := issueFp s .dfma f fun m a b c => fmaV m f.rm a b c
/-- `DMIN` (06 R142). -/
def execDmin (f : FOps) (s : State) : Host.Outcome State Fault Refusal := issueFpBits s .dmin f fun m a b => minmaxV m false a b
/-- `DMAX` (06 R142). -/
def execDmax (f : FOps) (s : State) : Host.Outcome State Fault Refusal := issueFpBits s .dmax f fun m a b => minmaxV m true a b

/-- A floating comparison by its mod code: the result and its flags (06 R138). -/
def fpCond (m : Nat) (a b : FV) : Bool × Nat :=
  let un := a.isNan || b.isNan
  let fl := sigFlag [a, b] ||| (if un && decide (2 ≤ m) && decide (m ≤ 5) then NV else 0)
  let c := cmpV a b
  (match m with
   | 0 => c == some .eq
   | 1 => c != some .eq
   | 2 => c == some .lt
   | 3 => c == some .lt || c == some .eq
   | 4 => c == some .gt
   | 5 => c == some .gt || c == some .eq
   | 6 => !un
   | _ => un, fl)

/-- Issue a floating comparison (06 R138, R142). -/
def issueFcmp (s : State) (op : Op) (f : FOps) : Host.Outcome State Fault Refusal :=
  issue s op.code 1 f.k f.kn f.u (ioOf op.entry f f.ty) fun x w eff =>
    .ok (maskResult x f.u w f.d.toNat eff fun t =>
      fpCond f.mod.toNat (unpackFloat (fmtOf f.ty) (srcA x w f f.ty t)) (unpackFloat (fmtOf f.ty) (srcB x w f f.ty t)))

/-- `FCMP` (06 R138). -/
def execFcmp (f : FOps) (s : State) : Host.Outcome State Fault Refusal := issueFcmp s .fcmp f
/-- `DCMP` (06 R142). -/
def execDcmp (f : FOps) (s : State) : Host.Outcome State Fault Refusal := issueFcmp s .dcmp f

/-- The class bit of a float (06 R139). -/
def fclass (m : Fmt) (x : Nat) : Nat :=
  match unpackFloat m x with
  | .nan sig => if sig then 0 else 1
  | .inf neg => if neg then 2 else 9
  | .fin neg v _ =>
    if v = 0 then (if neg then 5 else 6)
    else if v < 2 ^ (m.p - 1) then (if neg then 4 else 7)
    else if neg then 3 else 8

/-- `FCLASS` (06 R139): d is one register. -/
def execFclass (f : FOps) (s : State) : Host.Outcome State Fault Refusal :=
  issue s Op.fclass.code 1 f.k f.kn f.u (ioOf Op.fclass.entry f f.ty) fun x w eff =>
    .ok (perThread f.u w eff fun t => { wr := wrDst f.u f.d.toNat 1 t (2 ^ fclass (fmtOf f.ty) (srcA x w f f.ty t)) })

/-- Issue a long-latency float word of one source (06 R140 to R142). -/
def issueFpLong (s : State) (op : Op) (f : FOps) (comp : Fmt → Nat → Nat × Nat) : Host.Outcome State Fault Refusal :=
  issueLongAlu s op f fun a _ _ => satF (fmtOf f.ty) f.sat (comp (fmtOf f.ty) a)

/-- `FRCP` (06 R140, R141). -/
def execFrcp (f : FOps) (s : State) : Host.Outcome State Fault Refusal :=
  issueFpLong s .frcp f fun m a => rcpV m .rn (unpackFloat m a)
/-- `FRSQ` (06 R140, R141). -/
def execFrsq (f : FOps) (s : State) : Host.Outcome State Fault Refusal :=
  issueFpLong s .frsq f fun m a => rsqV m .rn (unpackFloat m a)
/-- `FSQRT` (06 R140, R141). -/
def execFsqrt (f : FOps) (s : State) : Host.Outcome State Fault Refusal :=
  issueFpLong s .fsqrt f fun m a => sqrtV m .rn (unpackFloat m a)
/-- `FEX2` (06 R140, R141). -/
def execFex2 (f : FOps) (s : State) : Host.Outcome State Fault Refusal := issueFpLong s .fex2 f fun _ a => exp2F a
/-- `FLG2` (06 R140, R141). -/
def execFlg2 (f : FOps) (s : State) : Host.Outcome State Fault Refusal := issueFpLong s .flg2 f fun _ a => log2F a
/-- `FTRIG` (06 R140, R141): mod 0 is the sine, mod 1 the cosine of π a. -/
def execFtrig (f : FOps) (s : State) : Host.Outcome State Fault Refusal :=
  issueFpLong s .ftrig f fun _ a => trigF (f.mod = 1) a
/-- `DRCP` (06 R141, R142). -/
def execDrcp (f : FOps) (s : State) : Host.Outcome State Fault Refusal :=
  issueFpLong s .drcp f fun m a => rcpV m .rn (unpackFloat m a)
/-- `DSQRT` (06 R142). -/
def execDsqrt (f : FOps) (s : State) : Host.Outcome State Fault Refusal :=
  issueFpLong s .dsqrt f fun m a => sqrtV m .rn (unpackFloat m a)

/-! ### Conversions -/

/-- A float rounded by rm to an integer type and clamped to its range: a NaN gives 0; NV for a NaN or a clamped value, NX
for any other inexact result (04 R70). -/
def floatToInt (ty : Ty) (rm : Rm) (v : FV) : Nat × Nat :=
  let clamp (z : Int) : Int := clampInt ty.signed ty.width z
  match v with
  | .nan _ => (0, NV)
  | .inf neg => (wrapInt ty.width (clamp (if neg then -(2 ^ 70) else 2 ^ 70)), NV)
  | .fin neg m e =>
    let (z, inex) := toInt rm neg m e
    (wrapInt ty.width (clamp z), if clamp z = z then (if inex then NX else 0) else NV)

/-- Convert one value between two types of 05 R99, a packed type standing for one of its elements (04 R70, 06 R143). -/
def convert (src dst : Ty) (rm : Rm) (sat : Bool) (v : Nat) : Nat × Nat :=
  if src.isInt then
    if dst.isInt then (fitInt dst sat (intVal src v), 0) else intToFloat (fmtOf dst) rm (intVal src v)
  else
    let x := unpackFloat (fmtOf src) v
    if dst.isInt then floatToInt dst rm x else convV (fmtOf dst) rm x

/-- The source type of `CVT` (06 R143). -/
def cvtSrc (f : FOps) : Ty := (Ty.ofCode (f.c.toNat % 16)).getD .i32

/-- `CVT` of one operand `a`, where `old` is the destination before (06 R143). -/
def cvt (src dst : Ty) (rm : Rm) (sat hi : Bool) (a old : Nat) : Nat × Nat :=
  match src.packed, dst.packed with
  | true, true =>
    let lo := convert src dst rm sat (a % 65536)
    let up := convert src dst rm sat (a / 65536 % 65536)
    (lo.1 + 65536 * up.1, lo.2 ||| up.2)
  | true, false => convert src dst rm sat (if hi then a / 65536 % 65536 else a % 65536)
  | false, true =>
    let (v, fl) := convert src dst rm sat a
    (if hi then v * 65536 + old % 65536 else old / 65536 % 65536 * 65536 + v, fl)
  | false, false => convert src dst rm sat a

/-- The destination of a word before it, for an entry that reads it. -/
def oldDst (x : Ctx) (f : FOps) (t : Nat) : Nat :=
  if f.u then (readS x f.d.toNat).toNat % 2 ^ 32 else (readV x f.d.toNat t).toNat

/-- `CVT` (06 R143). -/
def execCvt (f : FOps) (s : State) : Host.Outcome State Fault Refusal :=
  let src := cvtSrc f
  let io := (ioSrc f.u f.a.toNat src.regs f.lrA).join (ioDst f.u f.d.toNat f.ty.regs)
  issue s Op.cvt.code 1 f.k f.kn f.u io fun x w eff =>
    .ok (perThread f.u w eff fun t =>
      let (v, fl) := cvt src f.ty f.rm f.sat (f.mod.getLsbD 0) (srcA x w f src t) (oldDst x f t)
      { wr := wrDst f.u f.d.toNat f.ty.regs t (extendTo f.ty f.u v), flags := fl })

/-- One element rounded to an integral value of its own format (06 R144); a number that rounds to zero keeps its
sign (log entry 17). -/
def frnd (m : Fmt) (rm : Rm) (a : Nat) : Nat × Nat :=
  match unpackFloat m a with
  | .nan sig => (m.nan, if sig then NV else 0)
  | .inf _ => (a, 0)
  | .fin neg v e => ((roundFloat m rm neg (roundAt rm neg v e 0).1 0).1, 0)

/-- `FRND` (06 R144). -/
def execFrnd (f : FOps) (s : State) : Host.Outcome State Fault Refusal := issueFpBits s .frnd f fun m a _ => frnd m f.rm a

/-- a × 2^n, rounded once (06 R145). A count beyond ±5000 scales every number past the format's range either way. -/
def fscl (m : Fmt) (rm : Rm) (a : Nat) (n : Int) : Nat × Nat :=
  match unpackFloat m a with
  | .nan sig => (m.nan, if sig then NV else 0)
  | .inf _ => (a, 0)
  | .fin neg v e => if v = 0 then (a, 0) else roundFloat m rm neg v (e + max (-5000) (min 5000 n))

/-- `FSCL` (06 R145): b is one 32-bit register, the low word of a uniform register, or the immediate. With sat
set an infinity is clipped too (log entry 17). -/
def execFscl (f : FOps) (s : State) : Host.Outcome State Fault Refusal :=
  issue s Op.fscl.code 1 f.k f.kn f.u (ioOf Op.fscl.entry f f.ty) fun x w eff =>
    .ok (perThread f.u w eff fun t =>
      let m := fmtOf f.ty
      let (v, fl) := satF m f.sat (fscl m f.rm (srcA x w f f.ty t) (sx (srcB x w f .b32 t) 32))
      { wr := wrDst f.u f.d.toNat f.ty.regs t v, flags := fl })

/-! ### SB quantisation -/

/-- A format slot of a group's launch (04 R79). -/
def fmtSlot (s : State) (g : Group) (i : Nat) : Nat := (groupLaunch s g).rc.fmts.getD i 0

/-- The efmt of the format slot that the current group's word names. -/
def curEfmt (s : State) (i : Nat) : Nat :=
  match current s with
  | some (_, g) => bits (fmtSlot s g i) 3 0
  | none => 0

/-- The element-form word of a quantised block's element (06 R146). -/
def elemWord (efmt blk i : Nat) : Nat :=
  let m := sbBits efmt
  (if blk.testBit (8 + i / 2) then 2 ^ 24 else 0) + blk % 256 * 65536 + bits blk (16 + i * (m + 1) + m) (16 + i * (m + 1))

/-- The quantised block of the threads from `16 j`, those outside E standing as +0 (06 R147). -/
def cvtbBlock (efmt : Nat) (rm : Rm) (eff : Word) (a : Nat → Nat) (j : Nat) : Nat × Nat :=
  quantise efmt rm ((List.range 16).map fun i =>
    if eff.getLsbD (16 * j + i) then unpackFloat f32 (a (16 * j + i)) else .fin false 0 0)

/-- The f32 value of an element-form word (06 R147). -/
def cvtbValue (efmt v : Nat) : Nat :=
  (convV f32 .rn (sbValue (sbBits efmt) (bits v (sbBits efmt) 0) (bits v 23 16) (bits v 24 24))).1

/-- `CVTB` (06 R146, R147). The format slot is checked at issue (04 R81). -/
def execCvtb (f : FOps) (s : State) : Host.Outcome State Fault Refusal :=
  let efmt := curEfmt s (f.c.toNat % 8)
  issue s Op.cvtb.code 1 f.k f.kn false (ioOf Op.cvtb.entry f f.ty) fun x w eff =>
    if !(decide (1 ≤ efmt) && decide (efmt ≤ 3)) then .error { code := 0x0A }
    else
      let a (t : Nat) : Nat := (readV x f.a.toNat t).toNat
      .ok (perThread false w eff fun t =>
        if f.mod = 0 then
          let (blk, fl) := cvtbBlock efmt f.rm eff a (t / 16)
          { wr := wrDst false f.d.toNat 1 t (elemWord efmt blk (t % 16)), flags := fl }
        else { wr := wrDst false f.d.toNat 1 t (cvtbValue efmt (a t)) })

end Sys2Proof.Machine
end

