-- ==== Sys2Proof/Machine/Sink.lean ====
section
/-! DEFINITION. Sink groups: what may be marked, the decision at the anchor, the words run in the core, the instances run
at slices and Presses, the holds of store groups, results and faults (07 R187 to R192, R412; 11 R269 to R278; 15 R317 to
R319; 16 R321, R322). -/

namespace Sys2Proof.Machine

/-! ### The marked words -/

/-- Whether a marked word is of the kind that only computes (07 R188): the integer words, and the floating-point ones of
type f32 or bf16x2. -/
def sinkComputes (o : Op) (f : FOps) : Bool :=
  match o with
  | .iadd | .isub | .imul | .imulh | .imad | .imin | .imax | .iabs | .ineg | .lea | .mov | .and_ | .or_ | .xor_ | .not_
  | .andn | .shl | .shr | .sar | .rol | .popc | .clz | .brev | .bfx | .bfi | .perm => true
  | .fadd | .fsub | .fmul | .ffma | .fmin | .fmax | .fabs | .fneg => f.ty == .f32 || f.ty == .bf16x2
  | _ => false

/-- Run a marked word that computes, as the instruction it is. -/
def sinkCompute (o : Op) (f : FOps) (s : State) : Host.Outcome State Fault Refusal :=
  match o with
  | .iadd => execIadd f s | .isub => execIsub f s | .imul => execImul f s | .imulh => execImulh f s
  | .imad => execImad f s | .imin => execImin f s | .imax => execImax f s | .iabs => execIabs f s
  | .ineg => execIneg f s | .lea => execLea f s | .mov => execMov f s | .and_ => execAnd f s | .or_ => execOr f s
  | .xor_ => execXor f s | .not_ => execNot f s | .andn => execAndn f s | .shl => execShl f s | .shr => execShr f s
  | .sar => execSar f s | .rol => execRol f s | .popc => execPopc f s | .clz => execClz f s | .brev => execBrev f s
  | .bfx => execBfx f s | .bfi => execBfi f s | .perm => execPerm f s | .fadd => execFadd f s | .fsub => execFsub f s
  | .fmul => execFmul f s | .ffma => execFfma f s | .fmin => execFmin f s | .fmax => execFmax f s
  | .fabs => execFabs f s | .fneg => execFneg f s
  | _ => .next s

/-- Whether a marked word is a store or an atomic. -/
def sinkStores (o : Op) : Bool := o == .st || o == .sts || o == .stp || o == .atom || o == .acas || o == .atoms

/-- The stores and atomics of an anchor's space (07 R188). -/
def sinkStoreOf (anchor o : Op) : Bool :=
  match anchor with
  | .ld => o == .st || o == .atom || o == .acas
  | .lds => o == .sts || o == .atoms
  | _ => o == .stp

/-- What a marked word reads, writes and marks as last read. -/
def sinkIo (o : Op) (f : FOps) : Io :=
  match o with
  | .ld => (ioAddr f false).join (ioDst false f.d.toNat f.ty.regs)
  | .lds | .ldp => (ioAddr f true).join (ioDst false f.d.toNat f.ty.regs)
  | .st => ioStore f false
  | .sts | .stp => ioStore f true
  | .atom => (ioAddr f false).join ((ioSrc false f.c.toNat f.ty.regs f.lrC).join (ioDst false f.d.toNat f.ty.regs))
  | .acas => (ioAddr f false).join ((ioSrc false f.c.toNat (2 * f.ty.regs) f.lrC).join (ioDst false f.d.toNat f.ty.regs))
  | .atoms => (ioAddr f true).join ((ioSrc false f.c.toNat f.ty.regs f.lrC).join (ioDst false f.d.toNat f.ty.regs))
  | .lea => ioOf Op.lea.entry f .b64
  | .mov => ioOf (if f.x0 then { Op.mov.entry with a := .none } else Op.mov.entry) f f.ty
  | _ => ioOf o.entry f f.ty

/-- The registers of a sink group: those it captures, those it writes, those its last-read bits free, and those of its own
results that a later word reads last. -/
structure SinkRegs where
  vr : List Nat := []
  ur : List Nat := []
  vw : List Nat := []
  uw : List Nat := []
  lr : List Nat := []
  last : List Nat := []
  deriving DecidableEq, Repr

/-- One more word of a group. -/
def SinkRegs.add (r : SinkRegs) (io : Io) : SinkRegs :=
  let outer := fun x => !r.vw.contains x
  { vr := (r.vr ++ io.vr.filter outer).eraseDups, ur := (r.ur ++ io.ur).eraseDups
    vw := (r.vw ++ io.vw).eraseDups, uw := r.uw ++ io.uw
    lr := r.lr ++ io.lr.filter outer
    last := (r.last ++ io.lr.filter r.vw.contains).filter fun x => !io.vw.contains x }

/-- The registers of marked words. -/
def sinkRegs (ws : List (Op × FOps)) : SinkRegs := ws.foldl (fun r w => r.add (sinkIo w.1 w.2)) {}

/-- Whether one marked word has the shape that rule 1 asks for (07 R188). -/
def sinkPlain (o : Op) (f : FOps) : Bool :=
  o.wf f [] && o.words f = 1 && f.noMask && f.la == 0 && !f.u && f.na == .self && f.nb == .self

/-- The checks of 07 R188. -/
def sinkLegal (ws : List (Op × FOps)) : Bool :=
  match ws with
  | [] => false
  | (a, _) :: rest =>
    let r := sinkRegs ws
    ws.all (fun w => sinkPlain w.1 w.2) && (a == .ld || a == .lds || a == .ldp)
      && rest.all (fun w => sinkComputes w.1 w.2 || w.1 == a || sinkStoreOf a w.1)
      && decide ((rest.filter fun w => w.1 == a).length ≤ 1) && decide ((rest.filter fun w => sinkStores w.1).length ≤ 1)
      && r.uw.isEmpty && decide (r.vw.length ≤ 2) && decide (r.vr.length + r.ur.length ≤ 4)

/-- The marked words as instructions, where each is one with an F-shaped word. -/
def sinkWords (ws : List Word) : Option (List (Op × FOps)) :=
  ws.mapM fun w => if w.getLsbD 63 then none else match unpackF w with
    | .ok p => some p
    | .error _ => none

/-! ### Running words on captured registers -/

/-- The context a thread's words read: the captured uniform registers and the working vector registers. -/
def SinkSt.ctx (k : SinkSt) (set : Word) : Ctx := { active := set, live := set, s := k.scap, v := k.loc }

/-- Run a word that computes for a set of threads on their working registers (07 R190: the bits the core would give). -/
def SinkSt.compute (k : SinkSt) (w : Nat) (set : Word) (o : Op) (f : FOps) : SinkSt :=
  let f := { f with lrA := false, lrB := false, lrC := false }
  let t : State := { groups := [(1, { w := w, ctx := k.ctx set })], nextId := 2, cur := 1 }
  match sinkCompute o f t with
  | .next t => match groupOf t 1 with
    | some g => { k with loc := g.ctx.v, flags := k.flags ||| g.ctx.fpflags }
    | none => k
  | _ => k

/-- Whether a marked word is illegal on the registers of a set of threads: a bit field longer than 32 bits (06 R134). -/
def SinkSt.illegal (k : SinkSt) (w : Nat) (set : Word) (o : Op) (f : FOps) : Bool :=
  (o == .bfx || o == .bfi) && badField (k.ctx set) w f set

/-- Write results to the working registers. -/
def SinkSt.write (k : SinkSt) (wr : List RegWr) : SinkSt := { k with loc := (each wr (k.ctx 0) applyWr).v }

/-- A group's sink group. -/
def sinkOf (s : State) (h wid : Nat) : Option (Group × SinkSt) :=
  match groupOf s h with
  | some g => (find g.ctx.sinks wid).map fun k => (g, k)
  | none => none

/-- Change a sink group. -/
def modSink (s : State) (h wid : Nat) (f : SinkSt → SinkSt) : State :=
  modCtx s h fun x => match find x.sinks wid with
    | some k => { x with sinks := put x.sinks wid (f k) }
    | none => x

/-! ### Faults and the end of a group -/

/-- Keep a fault in a sink group's window. -/
def sinkFault (s : State) (h wid : Nat) (r : FaultRec) : State := modWin s h wid fun w => { w with fault := some r }

/-- The sunk fault of a group (07 R192, 11 R277): its inner code and cause, the site, the failing threads. -/
def sunkRec (k : SinkSt) (b : Bad) (site : Nat) : FaultRec :=
  { code := 0x16, inner := b.code, innerCause := b.cause, site := site, iaddr := k.pc, pc := k.pc, failing := b.failing
    eff := k.eff, va := .ofNat 64 b.va }

/-- Raise a group's sunk fault: nothing of it stays away, its holds are over, and one event is posted (11 R274, 22 R386). -/
def raiseSunk (s : State) (h wid : Nat) (r : FaultRec) : State :=
  match sinkOf s h wid with
  | none => s
  | some (g, k) =>
    let s := each k.held s fun s (la, _) => serveLine (modLine s la fun l => { l with hold := none }) la
    let s := each k.outs s fun s (_, id) => ackOut s h id
    let s := modSink s h wid fun k => { k with core := 0, unsent := 0, away := 0, returned := 0, probes := [], held := []
                                               lines := [], outs := [], fault := none }
    let s := postGroup s g 0x101 (.ofNat 32 (r.site + 4 * lowest r.failing + 256 * r.inner))
    sinkFault s h wid r

/-- The code of a thread. -/
def SinkSt.code (k : SinkSt) (t : Nat) : Nat := ((k.codes.find? fun c => c.1 = t).map (·.2)).getD 0

/-- A run record from its threads' codes: threads `lo` to `lo + 31`, two bits each (02 R36). -/
def sinkRecord (k : SinkSt) (lo : Nat) : Word :=
  .ofNat 64 (((List.range 32).map fun i => k.code (lo + i) * 4 ^ i).sum)

/-- Complete a sink group (07 R191, 11 R274, 15 R319): the run record is written, an event is posted for each thread of E,
and the writes of every thread of E stand ready in the window as its result. A destination that a later marked word read last
is freed instead, where last-read bits took effect when `SINK` issued (03 R57). -/
def finishSink (s : State) (h wid : Nat) : State :=
  match sinkOf s h wid with
  | none => s
  | some (g, k) =>
    let ts := threadsOf g.w k.eff
    let r := sinkRegs k.words
    let x := k.ctx 0
    let gone := ((winOf g.ctx wid).map (·.frees)).getD []
    let wr (t : Nat) : List RegWr := (r.vw.filter fun v => !gone.contains v).map fun v =>
      { reg := v, uni := false, t := t, val := (readV x v t).setWidth 64 }
    let s := each ts s fun s t => postGroup s g 0x100 (.ofNat 32 (k.code t + 4 * t + 256 * (k.words.length - 1)
      + (if k.store then 2048 else 0) + 4096 * bits k.pc.toNat 22 3))
    let s := modCtx s h fun x => { x with sinkrec0 := sinkRecord k 0, sinkrec1 := sinkRecord k 32, sinks := del x.sinks wid }
    modWin s h wid fun w => { w with vals := (ts.map wr).flatten, flags := k.flags, rv := k.rv, done := true }

/-! ### The decision at the anchor -/

/-- What the anchor decides for a set of threads (07 R189): the threads that run in the core, and those that leave, each with
its line and key slot and the leaf that translated it; or the failure of a translation, which arises at the core (11 R277). A
thread whose anchor lies on the page of counters runs in the core. -/
def sinkDecide (s : State) (h wid : Nat) (who : Word) : Except Bad (Word × List (Nat × Nat × Nat × Leaf)) × State :=
  match sinkOf s h wid with
  | none => (.ok (0, []), s)
  | some (g, k) => match k.words with
    | [] => (.ok (0, []), s)
    | (o, f) :: _ =>
      let n := sizeOfTy f.ty
      let x : Ctx := { s := k.scap, v := k.vcap }
      let ea (t : Nat) : Nat := (eaOf x f false (dispOf f none) t).toNat
      let stays (t : Nat) : Bool := k.lim = 2 || o != .ld || inTx g.ctx t || (inRegion g.ctx && k.store)
        || decide (128 < ea t % 128 + n)
      let req : MemReq := { kind := .ld, ty := f.ty, size := n, uni := false, dst := 0 }
      let ts := threadsOf g.w who
      let (bads, core, away, s) := (ts.filter fun t => !stays t).foldl (fun (bads, core, away, s) t =>
        match translate s g.core (vfOf s g) (ea t) with
        | (.error e, s) => (bads ++ [(t, ({ code := 0x13, cause := e, va := ea t } : Bad))], core, away, s)
        | (.ok l, s) =>
          let la := leafPa l (ea t) / 128
          if (lineServe s g h req la l.slot).isSome || onCounters (partOf s (groupPart s g)) la then
            (bads, core ++ [t], away, s)
          else (bads, core, away ++ [(t, la, l.slot, l)], s))
        (([] : List (Nat × Bad)), ts.filter stays, ([] : List (Nat × Nat × Nat × Leaf)), s)
      match failOf false bads with
      | some b => (.error b, s)
      | none => (.ok (maskOf core, away), s)

/-! ### Words in the core -/

/-- A marked word's ordinary fault (07 R412): its own code, its set, its address. -/
def coreFault (s : State) (h wid : Nat) (k : SinkSt) (b : Bad) : State :=
  let s := modCtx s h fun x => { x with wins := x.wins.filter fun w => w.id != k.hid || k.hid = 0 }
  let s := modSink s h wid fun k => { k with hid := 0, redo := true }
  sinkFault s h wid { code := b.code, cause := b.cause, iaddr := k.pc + .ofNat 64 (8 * k.idx), pc := k.pc
                      failing := if b.failing = 0 then k.core else b.failing, eff := k.core, va := .ofNat 64 b.va }

/-- What performing one marked word in the core comes to: the next word, a wait, or a fault. -/
inductive CoreWord where
  | on (s : State)
  | wait (s : State)
  | bad (s : State)
  deriving DecidableEq, Repr

/-- The captured access of a marked load or atomic. -/
def sinkReq (k : SinkSt) (w : Nat) (o : Op) (f : FOps) : MemReq :=
  let x := k.ctx k.core
  let space := o == .lds || o == .ldp || o == .atoms
  let kind : MemKind := match o with
    | .lds => .lds | .ldp => .ldp | .atom => .atom | .acas => .acas | .atoms => .atoms | _ => .ld
  { kind := kind, ty := f.ty, size := sizeOfTy f.ty, uni := false, dst := f.d.toNat, scope := f.scope.getD .grp
    op := if o == .acas then .cas else atomOf f.mod.toNat, eff := k.core
    accs := (threadsOf w k.core).map fun t =>
      { t := t, ea := eaOf x f space (dispOf f none) t, data := atomData f x t, new := acasNew f x t } }

/-- Land the result of the memory word that a sink group's core threads wait for, or its fault. -/
def sinkLand (s : State) (h wid : Nat) (g : Group) (k : SinkSt) : CoreWord :=
  match winOf g.ctx k.hid with
  | none => .wait s
  | some w => match w.fault with
    | some r => .bad (coreFault s h wid k { code := r.code, cause := r.cause, failing := r.failing, va := r.va.toNat })
    | none =>
      if !w.done then .wait s
      else
        let s := modCtx s h fun x => { x with wins := x.wins.filter fun v => v.id != w.id }
        .on (modSink s h wid fun k => { k.write w.vals with hid := 0, idx := k.idx + 1, rv := max k.rv w.rv })

/-- Note the bytes that the threads in the core write, on their lines (11 R275). -/
def noteStood (s : State) (h wid : Nat) (ps : List Part) : State :=
  modSink s h wid fun k => { k with stood := each ps k.stood fun m p => put m p.la (look m p.la 0 ||| maskBytes p.lo p.n) }

/-- Begin a marked load or atomic in the core (07 R412): an atomic is forbidden in a transaction and makes a region fall
back, as the plain word does. -/
def sinkAccess (s : State) (h wid : Nat) (g : Group) (k : SinkSt) (o : Op) (f : FOps) : CoreWord :=
  let req := sinkReq k g.w o f
  let tx := o == .atom || o == .acas
  let fall := tx || o == .atoms
  let space := req.kind == .lds || req.kind == .ldp || req.kind == .atoms
  let (rs, s) := if space then ([], s) else
    checkAll s g req.kind.natural req.size (memNeed req.kind) (req.accs.filter fun a => !txDoomed g.ctx a.t)
  let ps := partsOf rs
  if earlierHolds s h g.ctx wid false ps || ps.any (fun p => txLive g.ctx p.t && !lineReady s p.la) then .wait s
  else
    let ok := if space then (spaceFail s g (o == .ldp) false req.size req.accs).isNone else (badsOf rs).isEmpty
    let s := if tx then forbid s h k.core else s
    let s := if fall && ok then fallBack s h else s
    let (id, s) := newId s
    let s := modCtx s h fun x => { x with wins := x.wins ++
      [{ id := id, pc := k.pc + .ofNat 64 (8 * k.idx), left := 0, req := some req, sink := true }] }
    let s := if tx && ok then noteStood s h wid ps else s
    let s := startWin (modSink (spend s h (laneCycles g.w k.core)) h wid fun k => { k with hid := id }) h id
    match sinkOf s h wid with
    | some (g, k) => sinkLand s h wid g k
    | none => .wait s

/-- Perform one marked word for the threads that run in the core: ordinary code, which occupies the lane as such (11 R275, 19
R339). -/
def sinkWord (s : State) (h wid : Nat) (g : Group) (k : SinkSt) : CoreWord :=
  if k.hid ≠ 0 then sinkLand s h wid g k
  else match k.words[k.idx - 1]? with
    | none => .wait s
    | some (o, f) =>
      let on (s : State) : CoreWord :=
        .on (modSink (spend s h (laneCycles g.w k.core)) h wid fun k => { k with idx := k.idx + 1 })
      match o with
      | .ld | .lds | .ldp | .atom | .acas | .atoms => sinkAccess s h wid g k o f
      | .st =>
        let x := k.ctx k.core
        let accs := (threadsOf g.w k.core).map fun t => ({ t := t, ea := eaOf x f false (dispOf f none) t, data := storeData x f t } : Acc)
        match tryStore s h g false (sizeOfTy f.ty) accs wid with
        | .bad b s => .bad (coreFault s h wid k b)
        | .wait s => .wait s
        | .done s => on (noteStood s h wid (partsOf (checkAll s g false (sizeOfTy f.ty) .write (accs.filter fun a => !inTx g.ctx a.t)).1))
      | .sts | .stp =>
        let x := k.ctx k.core
        let n := sizeOfTy f.ty
        let accs := (threadsOf g.w k.core).map fun t => ({ t := t, ea := eaOf x f true (dispOf f none) t, data := storeData x f t } : Acc)
        match spaceFail s g (o == .stp) false n accs with
        | some b => .bad (coreFault s h wid k b)
        | none =>
          if o == .sts && !(absentLines s g n accs).isEmpty then .wait s
          else on (spaceStore (fallBack s h) h g (o == .stp) n accs)
      | _ => if k.illegal g.w k.core o f then .bad (coreFault s h wid k { code := 0x01 })
        else on (modSink s h wid fun k => k.compute g.w k.core o f)

/-! ### Instances -/

/-- Send the probe of a store group's next line to its home (11 R272). -/
def sendProbe (s : State) (h wid : Nat) : State :=
  match sinkOf s h wid with
  | some (g, k) => match k.probes with
    | la :: _ =>
      let slot := ((k.lines.find? fun l => l.2.1 = la).map (·.2.2)).getD 0
      send s .sinkProbe { g := h, win := wid, la := la, slot := slot, core := g.core, cause := k.lim }
    | [] => s
  | none => s

/-- Send one thread's instance. -/
def sendInstance (s : State) (h wid core : Nat) (l : Nat × Nat × Nat) : State :=
  send s .sinkInstance { g := h, win := wid, t := l.1, la := l.2.1, slot := l.2.2, core := core }

/-- The lines of instances in the order in which their holds are taken: by home slice, then by address (11 R272). -/
def holdOrder (s : State) (ls : List Nat) : List Nat :=
  ls.mergeSort fun a b =>
    decide (homeSlice s a < homeSlice s b) || (homeSlice s a = homeSlice s b && decide (a ≤ b))

/-- Send the instances that are to leave (11 R272, R273, R274): each counts until its result arrives; a store group's first
probe goes first. -/
def sendAway (s : State) (h wid : Nat) : State :=
  match sinkOf s h wid with
  | none => s
  | some (g, k) =>
    let s := each k.lines s fun s l =>
      let (id, s) := addOut s h
      modSink s h wid fun k => { k with outs := k.outs ++ [(l.1, id)] }
    let s := modSink s h wid fun k => { k with unsent := 0, away := k.unsent }
    if k.store then
      sendProbe (modSink s h wid fun k => { k with probes := holdOrder s (k.lines.map (·.2.1)).eraseDups }) h wid
    else each k.lines s fun s l => sendInstance s h wid g.core l

/-- Take what the anchor decides for a set of threads, their working registers being the captured ones. -/
def sinkTake (s : State) (h wid : Nat) (who : Word) : State :=
  match sinkDecide s h wid who with
  | (.error b, s) => match sinkOf s h wid with
    | some (_, k) => raiseSunk s h wid (sunkRec k b 0)
    | none => s
  | (.ok (core, away), s) => modSink s h wid fun k =>
    { k with core := core, idx := 1, redo := false, unsent := maskOf (away.map (·.1))
             lines := away.map fun (t, la, slot, _) => (t, la, slot)
             leaves := each away ([] : Tbl Leaf) fun m (t, _, _, l) => put m t l }

/-- Go on with a sink group (11 R275): the threads in the core run word by word, then the instances leave, and once all are
back the group is complete. The threads whose instances came back unperformed begin when their event happens. Fuel
bounds the words. -/
def sinkGo (fuel : Nat) (s : State) (h wid : Nat) : State :=
  match fuel with
  | 0 => s
  | fuel + 1 =>
    match sinkOf s h wid with
    | none => s
    | some (g, k) =>
      if k.core ≠ 0 then
        if k.words.length < k.idx then
          sinkGo fuel (modSink s h wid fun k => { k with core := 0, idx := 1 }) h wid
        else match sinkWord s h wid g k with
          | .on s => sinkGo fuel s h wid
          | .wait s => s
          | .bad s => s
      else if k.redo then
        let s := sinkTake s h wid k.unsent
        match sinkOf s h wid with
        | some (_, k) => if k.redo then s else sinkGo fuel s h wid
        | none => s
      else if k.unsent ≠ 0 then sendAway s h wid
      else if k.away ≠ 0 || k.returned ≠ 0 then s
      else finishSink s h wid

/-- Fuel for one turn of a sink group: two passes over its words and what lies between them. -/
def sinkFuel : Nat := 32

/-- Begin a sink group from its anchor, or begin it again (11 R277). -/
def sinkBegin (s : State) (h wid : Nat) : State :=
  match sinkOf s h wid with
  | none => s
  | some (_, k) =>
    let s := modWin s h wid fun w => { w with fault := none }
    let s := modSink s h wid fun k => { k with loc := k.vcap, flags := 0, rv := 0, codes := [], fault := none, redo := false
                                               hid := 0, returned := 0, away := 0, stood := [] }
    let s := sinkTake s h wid k.eff
    match (groupOf s h).bind fun g => winOf g.ctx wid with
    | some w => if w.fault.isSome then s else sinkGo sinkFuel s h wid
    | none => s

/-- Perform again an instruction that faulted in a window (05 R120): a sunk fault's group from its anchor, a marked word
that faulted in the core from that word (07 R412), any other captured access as a whole. -/
def replayWin (s : State) (h : Nat) (w : Win) : State :=
  match w.fault, sinkOf s h w.id with
  | none, _ => s
  | some r, some _ =>
    if r.code = 0x16 then sinkBegin s h w.id
    else sinkGo sinkFuel (modWin s h w.id fun w => { w with fault := none }) h w.id
  | some _, none =>
    let s := modWin s h w.id fun w => { w with fault := none }
    if w.done then s else startWin s h w.id

/-- Perform again every faulted instruction of a group's windows (05 R120, R121). -/
def replayWins (s : State) (h : Nat) : State :=
  match groupOf s h with
  | none => s
  | some g => each (g.ctx.wins.filter fun w => !w.sink) s fun s w => replayWin s h w

/-- Try again the accesses of windows that wait for scratch lines which are now present (10 R253). -/
def retryScratch (s : State) (team : Nat) : State :=
  each (s.groups.filter fun g => g.2.team = team) s fun s (h, g) =>
    each (g.ctx.wins.filter fun w => !w.done && w.fault.isNone && !w.waitLines.isEmpty && (match w.req with
      | some r => r.kind == .lds || r.kind == .atoms || r.kind == .mlds
      | none => false)) s fun s w => startSpace s h w.id

/-! ### The instruction -/

/-- The register values a group captures for its threads when `SINK` issues, its destinations among them (07 R188). -/
def sinkCapture (x : Ctx) (w : Nat) (r : SinkRegs) : Tbl VReg :=
  each (r.vr ++ r.vw) ([] : Tbl VReg) fun t v => put t v { vals := (List.range w).map fun i => readV x v i }

/-- `SINK` (07 R187 to R189): the marked words are checked before anything changes; with E empty the group passes and its
run record reads zero. -/
def execSink (f : FOps) (s : State) : Host.Outcome State Fault Refusal :=
  match current s with
  | none => .fault .noGroup
  | some (h, g) =>
    let g := { g with ctx := endWins g.ctx }
    let eff := effSet g.ctx g.w f.k f.kn
    let n := f.mod.toNat + 1
    let (fetched, s) := fetchWords (setGroup s h g) g (g.ctx.pc.toNat + 8) n
    match fetched with
    | .error (code, cause) => .next (raise s h (badRec g.ctx eff { code := code, cause := cause }))
    | .ok raw =>
      match sinkWords raw with
      | none => .next (raise s h (badRec g.ctx eff { code := 0x01 }))
      | some ws =>
        if !sinkLegal ws then .next (raise s h (badRec g.ctx eff { code := 0x01 }))
        else
          let r := sinkRegs ws
          let io : Io := { vr := r.vr, ur := r.ur, vw := r.vw, uw := [], lr := r.lr }
          let cycles := laneCycles g.w eff
          if blocked g.ctx (io.under eff) then .next s
          else if eff = 0 then
            let s := modCtx s h fun x => { x with sinkrec0 := 0, sinkrec1 := 0 }
            match groupOf s h with
            | some g => .next (retire s h g (io.under eff) (n + 1) cycles {})
            | none => .next s
          else
            let (mapped, need) := allocNeed g.ctx io io.vw
            if allocCheck s h g mapped need == .trap then .next (raise s h (badRec g.ctx eff { code := 0x07 }))
            else
              let id := s.nextId
              let cap := sinkCapture g.ctx g.w r
              let k : SinkSt := { pc := g.ctx.pc, words := ws, eff := eff, lim := f.form, scap := g.ctx.s, vcap := cap
                                  store := ws.any fun w => sinkStores w.1 }
              let frees := if g.ctx.stack.isEmpty then r.last else []
              let try_ := modCtx s h fun x => { x with sinks := put x.sinks id k }
              let waits : Bool := match sinkDecide try_ h id eff with
                | (.ok (_, away), s) => earlierHolds s h g.ctx id false (away.map fun (t, la, slot, _) =>
                    { t := t, pos := 0, la := la, slot := slot, lo := 0, n := 128 })
                | (.error _, _) => false
              if waits then .next s
              else
                let s := openWin s h g io (n + 1) cycles f.la.toNat { id := 0, pc := 0, left := 0, frees := frees }
                .next (sinkBegin (modCtx s h fun x => { x with sinks := put x.sinks id k }) h id)

/-! ### Events -/

/-- `SINK_PROBE` (11 R272): the probe reaches its line's home, where it waits in arrival order; the core's own write-back of
the line goes first. -/
def execSinkProbe (s : State) : Host.Outcome State Fault Refusal :=
  if wbInFlight s s.subj.core s.subj.la then notNow "SINK_PROBE"
  else .next (arrive s s.subj.la ⟨.sinkProbe, s.subj⟩)

/-- Check at a line's site, for threads whose anchors lie on it, what their group needs of the page (07 R192, 11 R272, R277): the
page's permissions are those of the leaf that translated the anchor at the core, and nothing is translated again. -/
def siteCheck (s : State) (h wid la : Nat) (ts : List Nat) (need : Need) : Option Bad :=
  match sinkOf s h wid with
  | none => none
  | some (g, k) => match k.words with
    | [] => none
    | (_, f) :: _ =>
      let x : Ctx := { s := k.scap, v := k.vcap }
      failOf false (ts.filterMap fun t =>
        let bad (code cause : Nat) : Option (Nat × Bad) :=
          some (t, { code := code, cause := cause, va := (eaOf x f false (dispOf f none) t).toNat })
        match (find k.leaves t).bind fun l => permCause s (partOf s (groupPart s g)) (vfOf s g) l need la with
        | some c => bad 0x14 c
        | none => if lineBad s la then bad 0x15 0 else none)

/-- `SINK_HOLD_GRANT` (11 R272, 16 R321): a failed check releases every hold of the group and raises its sunk fault;
otherwise the next probe leaves, and after the last the instances do (11 R273). -/
def execSinkHoldGrant (s : State) : Host.Outcome State Fault Refusal :=
  let h := s.subj.g
  let wid := s.subj.win
  let la := s.subj.la
  match sinkOf s h wid with
  | none => notNow "SINK_HOLD_GRANT"
  | some (g, k) =>
    if k.probes.head? ≠ some la then notNow "SINK_HOLD_GRANT"
    else
      let s := modSink s h wid fun k => { k with held := k.held ++ [(la, s.subj.site)], probes := k.probes.drop 1 }
      match siteCheck s h wid la ((k.lines.filter fun l => l.2.1 = la).map (·.1)) .both with
      | some b => .next (raiseSunk s h wid (sunkRec k b (if homeDie s la = dieOf g.core then 1 else 2)))
      | none =>
        if k.probes.length = 1 then .next (each k.lines s fun s l => sendInstance s h wid g.core l)
        else .next (sendProbe s h wid)

/-- What an instance has done so far: its group with the thread's working registers, the line's bytes, and which of them it
wrote. -/
structure Inst where
  k : SinkSt
  data : LineData
  mask : ByteMask := 0

/-- Run one marked word of a thread's instance on a line (07 R190); none where the instance comes back unperformed, as one whose
word is illegal also does: the core then raises its fault (07 R412, log entry 19). -/
def instWord (w t base : Nat) (i : Inst) (o : Op) (f : FOps) : Option Inst :=
  let x := i.k.ctx (maskOf [t])
  let ea := (eaOf x f false (dispOf f none) t).toNat
  let n := sizeOfTy f.ty
  let lo := ea % 128
  let inLine := ea / 128 = base && decide (lo + n ≤ 128)
  let inSector := inLine && decide (lo % 32 + n ≤ 32)
  let dst (v : Nat) : SinkSt := i.k.write (wrDst false f.d.toNat f.ty.regs t (extendTo f.ty false v))
  let put (v : Nat) : LineData × ByteMask := (setBytes i.data lo (leBytes n v), i.mask ||| maskBytes lo n)
  let old := leNat (lineBytes i.data lo n)
  match o with
  | .ld => if inLine then some { i with k := dst old } else none
  | .st => if inSector then
      let (d, m) := put (storeData x f t)
      some { i with data := d, mask := m }
    else none
  | .atom | .acas => if inSector && ea % n = 0 then
      let op := if o == .acas then .cas else atomOf f.mod.toNat
      let (d, m) := put (atomNew op f.ty old (atomData f x t) (acasNew f x t))
      some { k := dst old, data := d, mask := m }
    else none
  | _ => if i.k.illegal w (maskOf [t]) o f then none else some { i with k := i.k.compute w (maskOf [t]) o f }

/-- Run a thread's instance on a line's bytes. -/
def runInstance (k : SinkSt) (w t : Nat) (data : LineData) : Option Inst :=
  match k.words with
  | [] => none
  | (_, f) :: _ =>
    let x : Ctx := { s := k.scap, v := k.vcap }
    let base := (eaOf x f false (dispOf f none) t).toNat / 128
    k.words.foldl (fun i wd => i.bind fun i => instWord w t base i wd.1 wd.2) (some { k := k, data := data })

/-- Answer an instance: the thread's working registers stand, and its result leaves with code and vintage (11 R271, R274). -/
def answerInstance (s : State) (h wid t la core wv code : Nat) (i : Option Inst) : State :=
  match i with
  | some i => send (modSink s h wid fun k => { k with loc := i.k.loc, flags := i.k.flags }) .sinkResult
      { g := h, win := wid, t := t, la := la, core := core, n := wv, site := code }
  | none => send s .sinkResult { g := h, win := wid, t := t, la := la, core := core, n := wv, cause := 1 }

/-- Whether an instance of one line from a lower thread of the same group is still to be performed (07 R190). -/
def lowerInstance (s : State) (h wid t la : Nat) : Bool :=
  s.due.any fun d => d.ev == .sinkInstance && d.subj.g = h && d.subj.win = wid && d.subj.la = la && decide (d.subj.t < t)

/-- Perform an instance of a store group on its held line (11 R270, R271, R273), and release the hold after the last. A byte that a
thread of the group wrote in the core keeps that value (11 R275). -/
def performStoreInstance (s : State) (g : Group) (k : SinkSt) (j : Subj) : State :=
  let la := j.la
  let code := ((k.held.find? fun x => x.1 = la).map (·.2)).getD 1
  let press := code = 3 && (lineSt s la).home.isNone
  let s := demandAt s (homeSlice s la) la j.slot (groupLaunch s g).tenant (!press)
  let (data, s) := if press then (memLine s la j.slot, s) else readAtHome s la j.slot
  let i := runInstance k g.w j.t data
  let s := match i with
    | some i =>
      let mask := i.mask &&& ~~~look k.stood la 0
      if press then modLine (memWrite s la j.slot i.data mask) la fun l => stampWrite l g.ctx.rv
      else writeAtHome s la j.slot i.data mask g.ctx.rv
    | none => s
  let s := modCore s g.core fun c => match find c.near la with
    | some n => if n.st == .leased then { c with near := del c.near la } else c
    | none => c
  let s := answerInstance s j.g j.win j.t la j.core (lineSt s la).wv code i
  if s.due.any fun d => d.ev == .sinkInstance && d.subj.win = j.win && d.subj.la = la then s
  else
    let s := modSink s j.g j.win fun k => { k with held := k.held.filter fun x => x.1 != la }
    serveLine (modLine s la fun l => { l with hold := none }) la

/-- A read instance met a fault at its site: the lowest failing thread's stands, with every failing thread named (11 R273,
R274). -/
def noteFault (k : SinkSt) (t site : Nat) (b : Bad) : SinkSt :=
  let r := sunkRec k { b with failing := maskOf [t] } site
  match k.fault with
  | none => { k with fault := some r }
  | some q => if t < lowest q.failing then { k with fault := some { r with failing := q.failing ||| r.failing } }
    else { k with fault := some { q with failing := q.failing ||| r.failing } }

/-- Perform an instance of a read group at a site whose bytes are these (11 R270, R273). -/
def performRead (s : State) (g : Group) (j : Subj) (data : LineData) (code : Nat) : State :=
  let wv := (lineSt s j.la).wv
  match siteCheck s j.g j.win j.la [j.t] .read with
  | some b => send (modSink s j.g j.win fun k => noteFault k j.t code b) .sinkResult
      { g := j.g, win := j.win, t := j.t, la := j.la, core := j.core, n := wv, cause := 2 }
  | none => match sinkOf s j.g j.win with
    | some (_, k) => answerInstance s j.g j.win j.t j.la j.core wv code (runInstance k g.w j.t data)
    | none => s

/-- Whether a slice other than the home's holds a copy of a line that a read under a slot may use (11 R271). -/
def copyServes (s : State) (d la slot : Nat) : Bool :=
  d != homeDie s la && (match find (lineSt s la).copies d with
    | some c => c.slot == slot
    | none => false)

/-- Whether the caches hold a line for an access under a slot, so that the stack need not be read (11 R271). -/
def lineValid (s : State) (la slot : Nat) : Bool :=
  let l := lineSt s la
  (l.home.isSome && l.slot = slot) || !l.copies.isEmpty || !(exclCores s la).isEmpty

/-- `SINK_INSTANCE` (07 R190, 11 R270 to R273): a thread's run at the first site that lets it execute. -/
def execSinkInstance (s : State) : Host.Outcome State Fault Refusal :=
  let j := s.subj
  let la := j.la
  match sinkOf s j.g j.win with
  | none => notNow "SINK_INSTANCE"
  | some (g, k) =>
    if lowerInstance s j.g j.win j.t la then notNow "SINK_INSTANCE"
    else if k.store then .next (performStoreInstance s g k j)
    else
      let d := localDie s j.core la
      if granting s d la || wbInFlight s j.core la then notNow "SINK_INSTANCE"
      else if copyServes s d la j.slot then
        let s := recallDie (demandAt s (localSlice s d la) la j.slot (groupLaunch s g).tenant false) d la
        .next (performRead s g j (look (lineSt s la).copies d {}).data 1)
      else if !lineReady s la || !(lineSt s la).queue.isEmpty then notNow "SINK_INSTANCE"
      else
        let slices := lineValid s la j.slot || k.lim = 1
        if !slices && pressPaused s (channelOf la) then notNow "SINK_INSTANCE"
        else
        let s := demandAt s (homeSlice s la) la j.slot (groupLaunch s g).tenant slices
        if slices then
          let (data, s) := readAtHome s la j.slot
          .next (performRead s g j data (if homeDie s la = dieOf j.core then 1 else 2))
        else .next (performRead s g j (homeData s la j.slot) 3)

/-- Take the result of an instance of group `k` (11 R271, R274): the access is done, the group's `%rv` rises, and the thread's
code or its return is kept. -/
def takeResult (s : State) (k : SinkSt) (j : Subj) : State :=
  let s := match k.outs.find? fun x => x.1 = j.t with
    | some (_, id) => ackOut s j.g id
    | none => s
  let bit := maskOf [j.t]
  let s := modCtx (observe s j.core j.n) j.g fun x => { x with rv := max x.rv j.n }
  modSink s j.g j.win fun k =>
    { k with away := k.away &&& ~~~bit, outs := k.outs.filter fun x => x.1 != j.t
             lines := k.lines.filter fun l => l.1 != j.t, rv := max k.rv j.n
             returned := if j.cause = 1 then k.returned ||| bit else k.returned
             codes := if j.cause = 0 then k.codes ++ [(j.t, j.site)] else k.codes }

/-- `SINK_RESULT` (11 R271, R274): the thread's instance no longer counts; once none is away the group faults, completes, or
waits for its returned threads. -/
def execSinkResult (s : State) : Host.Outcome State Fault Refusal :=
  let j := s.subj
  match sinkOf s j.g j.win with
  | none => notNow "SINK_RESULT"
  | some (_, k) =>
    let s := takeResult s k j
    match sinkOf s j.g j.win with
    | none => .next s
    | some (_, k) =>
      if k.away ≠ 0 then .next s
      else match k.fault with
        | some r => .next (raiseSunk s j.g j.win r)
        | none => .next (sinkGo sinkFuel s j.g j.win)

/-- `SINK_CORE_REEXECUTION` (11 R275, 07 R412): the words of a sink group go on in the core. -/
def execSinkCoreReexecution (s : State) : Host.Outcome State Fault Refusal :=
  let h := s.subj.g
  let wid := s.subj.win
  match sinkOf s h wid with
  | none => notNow "SINK_CORE_REEXECUTION"
  | some (g, k) =>
    if !sinkWaits g.ctx wid k then notNow "SINK_CORE_REEXECUTION"
    else
      let s := if k.core ≠ 0 then s else
        modSink s h wid fun k => { k with core := k.returned, returned := 0, idx := 1, redo := false }
      .next (sinkGo sinkFuel s h wid)

end Sys2Proof.Machine
end

