-- ==== Sys2Proof/Machine/Engines.lean ====
section
/-! DEFINITION. The engine instructions, the waits on their counters, and the events of commands, of the dependency table
and of engine leases (08 R200 to R226, 07 R181, 10 R253, R259, R260, 19 R342). -/

namespace Sys2Proof.Machine

/-! ### Issue -/

/-- The uniform registers an engine word reads. -/
def ioUni (rs : List Nat) : Io := { ur := rs }

/-- The scratch lines that a command still writes once its progress is `p` (08 R203). -/
def linesFrom (c : Cmd) (p : Nat) : List Nat :=
  let range (a : Word) (n : Nat) : List Nat :=
    if inScratch a && n ≠ 0 then (List.range (ceilDiv (scratchPart a % 128 + n) 128)).map (scratchPart a / 128 + ·) else []
  match c.kind with
  | .copy | .fill => range (plus (c.reg 0) p) (bits (c.reg 2).toNat 39 0 - p)
  | .lnest =>
    let out := c.lnLevels false
    if inScratch (c.lnBase 2) then
      (((List.range (c.lnCount out - p)).map fun n =>
        let (a, m) := c.lnPlace 2 (c.lnIndex 2 out (p + n))
        range a m).flatten).eraseDups
    else []
  | .tstore =>
    let z := c.shape
    let len := z.n / 16 * groupBytes c.slotP
    let scales (i : Nat) : List Nat := if isSb (efmtOf c.slotP) && splitOf c.slotP then
        ((List.range (z.n / 16)).map fun j => range (scaleAddr c i j) 2).flatten
      else []
    (((List.range (z.m - p)).map fun i => range (rowAddr c (p + i)) len ++ scales (p + i)).flatten).eraseDups
  | _ => []

/-- The scratch lines a command writes. -/
def destLines (c : Cmd) : List Nat := linesFrom c 0

/-- Whether a command goes through the dependency table (08 R209). -/
def CmdKind.tile : CmdKind → Bool
  | .tmma | .tstore | .tzero => true
  | _ => false

/-- The command of a word: what it captures at issue (08 R202). -/
def newCmd (s : State) (g : Group) (f : FOps) (kind : CmdKind) (regs : List Nat) (ws : List Word) (mod : Nat) (eff : Word) :
    Cmd :=
  let l := launchIdOf s g
  { kind := kind, g := 0, core := g.core, team := g.team, launch := l, tenant := (launchOf s l).tenant, ec := f.form
    rv := g.ctx.rv, iaddr := g.ctx.pc, task := g.ctx.taskid.getD (lowest eff) 0, regs := regs.map (readS g.ctx), ws := ws
    mod := mod, fmts := (launchOf s l).rc.fmts }

/-- Count a command in its counter, record the scratch lines it is to write as absent, and put a tile command into the
dependency table with the group's list (08 R202, R203, R208, R209). -/
def enterCmd (s : State) (h : Nat) (g : Group) (c : Cmd) : State :=
  let (id, s) := newId s
  let lines := destLines c
  let c := { c with g := h, seq := id, toScratch := !lines.isEmpty
                    waits := if c.kind == .tzero then [] else g.out
                    deps := if c.kind.tile then g.ctx.tdep else [] }
  let s := { s with cmds := put s.cmds id c }
  let s := modCore s g.core fun k =>
    { k with ec := setPad 0 k.ec c.ec (k.ec.getD c.ec 0 + 1), dep := if c.kind.tile then k.dep ++ [id] else k.dep }
  let s := modTeam s g.team fun tm => { tm with absent := tm.absent ++ lines.map fun l => (l, id) }
  if c.kind.tile then modCtx s h fun x => { x with tdep := [] } else s

/-- Issue an engine word (08 R200, R202): checked, parked while its counter or the dependency table is full, and otherwise
counted; the group goes on. -/
def issueEngine (s : State) (f : FOps) (len : Nat) (io : Io) (mk : State → Group → Word → Except Bad Cmd) :
    Host.Outcome State Fault Refusal :=
  match current s with
  | none => .fault .noGroup
  | some (h, g) =>
    let eff := effSet g.ctx g.w f.k f.kn
    if blocked g.ctx io then .next s
    else if eff = 0 then .next (retire s h g {} len 1 {})
    else match mk s g eff with
      | .error b => .next (raise s h (badRec g.ctx eff b))
      | .ok c =>
        let s := fallBack (forbid s h eff) h
        if 65535 ≤ (coreOf s g.core).ec.getD c.ec 0 then .next (modGroup s h fun g => { g with run := .parked (.counterFull c.ec) })
        else if c.kind.tile && Config.depEntries ≤ (coreOf s g.core).dep.length then
          .next (modGroup s h fun g => { g with run := .parked .depTable })
        else
          let s := enterCmd s h g c
          match groupOf s h with
          | none => .next s
          | some g => .next (retire s h g {} len 1 {})

/-- The format fault of a slot that does not hold, or holds the wrong, format (04 R81). -/
def fmtBad (ok : Bool) : Option Bad := if ok then none else some { code := 0x0A }
/-- The engine-descriptor fault. -/
def descBad (ok : Bool) : Option Bad := if ok then none else some { code := 0x20 }

/-- A command, unless one of its checks fails; the first of the list is reported, the descriptor's before the formats' before the
ranges' (log entry 20). -/
def checked (c : Cmd) (bads : List (Option Bad)) : Except Bad Cmd :=
  match firstBad bads with
  | some b => .error b
  | none => .ok c

/-- The registers of a `COPY`. -/
def copyRegs (f : FOps) : List Nat := [f.d.toNat, f.a.toNat, f.b.toNat]

/-- The command of a `COPY`, or its fault (08 R223). -/
def copyCmd (f : FOps) (s : State) (g : Group) (eff : Word) : Except Bad Cmd :=
  let fill := f.mod == 1
  let c := newCmd s g f (if fill then .fill else .copy) (copyRegs f) [] 0 eff
  let n := bits (c.reg 2).toNat 39 0
  checked c [descBad (bits (c.reg 2).toNat 63 40 = 0), addrBad s g (c.reg 0) n, if fill then none else addrBad s g (c.reg 1) n]

/-- `COPY` (08 R223). -/
def execCopy (f : FOps) (s : State) : Host.Outcome State Fault Refusal := issueEngine s f 1 (ioUni (copyRegs f)) (copyCmd f)

/-- The command of a `COLL`, or its fault (08 R224). -/
def collCmd (f : FOps) (s : State) (g : Group) (eff : Word) : Except Bad Cmd :=
  let c := newCmd s g f .coll [f.a.toNat] [] 0 eff
  let a := (c.reg 0).toNat
  checked c [descBad (bits a 63 56 = 0), if a % 64 = 0 then none else some { code := 0x10, va := a }]

/-- `COLL` (08 R224). -/
def execColl (f : FOps) (s : State) : Host.Outcome State Fault Refusal := issueEngine s f 1 (ioUni [f.a.toNat]) (collCmd f)

/-- The streams that a `PRESS` program reads. -/
def pressIns (w1 w2 w3 : Word) : List Nat := ((pressProgram w1 w2 w3).filter fun o => decide (o < 4)).eraseDups

/-- The command of a `PRESS`, or its fault (08 R219 to R222): only the streams that the program reads are checked. -/
def pressCmd (f : FOps) (w1 w2 w3 : Word) (s : State) (g : Group) (eff : Word) : Except Bad Cmd :=
  let c := newCmd s g f .press (run f.a.toNat 5 ++ [f.b.toNat, f.b.toNat + 1, f.c.toNat]) [w1, w2, w3] 0 eff
  let used := pressIns w1 w2 w3 ++ [4]
  let slotOk (i : Nat) : Bool := decide (4 ≤ efmtOf (c.prSlot i)) && decide (efmtOf (c.prSlot i) ≤ 7)
  let addrOk (i : Nat) : Bool := bits (c.reg i).toNat 63 56 = 0 && (c.reg i).toNat % elemBytes (efmtOf (c.prSlot i)) = 0
  checked c ([descBad (bits (c.reg 7).toNat 63 40 = 0)] ++ used.map (fun i => fmtBad (slotOk i))
    ++ used.map fun i => descBad (addrOk i))

/-- The registers that a `PRESS` reads. -/
def pressRegs (f : FOps) (w1 w2 w3 : Word) : List Nat :=
  (pressIns w1 w2 w3).map (f.a.toNat + ·) ++ [f.a.toNat + 4, f.b.toNat, f.b.toNat + 1, f.c.toNat]

/-- `PRESS` (08 R219 to R222). -/
def execPress (f : FOps) (w1 w2 w3 : Word) (s : State) : Host.Outcome State Fault Refusal :=
  issueEngine s f 4 (ioUni (pressRegs f w1 w2 w3)) (pressCmd f w1 w2 w3)

/-- Whether an SB result's strides keep whole blocks (08 R218). -/
def lnSbOk (c : Cmd) : Bool :=
  c.lnStride 2 0 == 1 && c.lnExt 0 % 16 = 0 && (List.range 5).all fun l => l = 0 || c.lnStride 2 l % 16 = 0

/-- The bytes an operand of a loop nest spans, before and after its base. -/
def lnSpan (c : Cmd) (o : Nat) : Int × Int :=
  let f := efmtOf (c.lnSlot o)
  let (lo, hi) := c.lnRange o
  if isSb f then (lo / 16 * sbPacked f, (hi / 16 + 1) * sbPacked f) else (lo * elemBytes f, (hi + 1) * elemBytes f)

/-- The registers that an `LNEST` reads. -/
def lnestRegs (f : FOps) (w2 : Word) : List Nat :=
  [f.d.toNat, f.a.toNat] ++ (if lnestReadsY (bits w2.toNat 4 0) then [f.b.toNat] else []) ++ run f.c.toNat 5

/-- The command of an `LNEST`, or its fault (08 R216 to R218). -/
def lnestCmd (f : FOps) (w1 w2 w3 : Word) (s : State) (g : Group) (eff : Word) : Except Bad Cmd :=
  let c := newCmd s g f .lnest ([f.d.toNat, f.a.toNat, f.b.toNat] ++ run f.c.toNat 5) [w1, w2, w3] 0 eff
  let ops := if lnestReadsY (bits w2.toNat 4 0) then [2, 0, 1] else [2, 0]
  let fs := ops.map fun o => efmtOf (c.lnSlot o)
  let slotOk (o : Nat) : Bool := let e := efmtOf (c.lnSlot o); e != 0 && !(isSb e && splitOf (c.lnSlot o))
  checked c ((List.range 5).map (fun l => descBad (!(c.reg (3 + l)).getLsbD 63))
    ++ (List.range 5).map (fun l => descBad (!(c.lnReduces && c.lnRed l && c.lnStride 2 l != 0)))
    ++ ops.map (fun o => fmtBad (slotOk o))
    ++ [fmtBad (fs.all (· == 8) || fs.all (· != 8)), fmtBad (!isSb (efmtOf (c.lnSlot 2)) || lnSbOk c)]
    ++ ops.map fun o => spanBad s g (c.lnBase o) (lnSpan c o).1 (lnSpan c o).2)

/-- `LNEST` (08 R216 to R218). -/
def execLnest (f : FOps) (w1 w2 w3 : Word) (s : State) : Host.Outcome State Fault Refusal :=
  issueEngine s f 4 (ioUni (lnestRegs f w2)) (lnestCmd f w1 w2 w3)

/-- Whether a scale base is given where one is read, and only there (08 R210). -/
def scaleOk (slot : Nat) (a : Word) : Bool := (a != 0) == (isSb (efmtOf slot) && splitOf slot)

/-- The checks of a row-walking operand over K elements in M rows (04 R81, R84, 08 R210): its slot, its rows' range and its
scales' range. A row's last block counts whole (log entry 20). -/
def rowBads (s : State) (g : Group) (slot : Nat) (base scale : Word) (m k : Nat) : List (Option Bad) :=
  let e := efmtOf slot
  let gb := groupBytes slot
  let sb := isSb e
  let last := scaleIndex slot k (m - 1) (ceilDiv k 16 - 1)
  [fmtBad (rowblkOf slot != 0 && decide (k ≤ 16 * rowblkOf slot)),
   fmtBad (!sb || spolOf slot = 1 || decide (ceilDiv k 16 ≤ scountOf slot)), fmtBad (scaleOk slot scale),
   addrBad s g base ((m - 1) * rowblkOf slot * gb + (if sb then ceilDiv k 16 * gb else k * elemBytes e)),
   if sb && splitOf slot then addrBad s g scale (last * sstrideOf slot + 2) else none]

/-- Whether a group's team holds the tile accumulator store (08 R206). -/
def holdsTas (s : State) (g : Group) : Bool := (teamOf s g.team).tas

/-- The command of a `TMMA`, or its fault (08 R210). -/
def tmmaCmd (f : FOps) (s : State) (g : Group) (eff : Word) : Except Bad Cmd :=
  let c := newCmd s g f .tmma (run f.a.toNat 5) [] (f.mod.toNat % 2 + 8 * (f.b.toNat / 8) + 64 * (f.b.toNat % 8)) eff
  let e := efmtOf c.slotP
  let z := c.shape
  checked c ([descBad (holdsTas s g), descBad (shapeOk (c.reg 4) (teamOf s g.team).pair true),
      fmtBad (e == efmtOf c.slotQ && decide (1 ≤ e) && decide (e ≤ 6))]
    ++ rowBads s g c.slotP (c.reg 0) (c.reg 2) z.m z.k ++ rowBads s g c.slotQ (c.reg 1) (c.reg 3) z.n z.k)

/-- `TMMA` (08 R210). -/
def execTmma (f : FOps) (s : State) : Host.Outcome State Fault Refusal := issueEngine s f 1 (ioUni (run f.a.toNat 5)) (tmmaCmd f)

/-- The command of a `TSTORE`, or its fault (08 R213). -/
def tstoreCmd (f : FOps) (s : State) (g : Group) (eff : Word) : Except Bad Cmd :=
  let c := newCmd s g f .tstore (run f.a.toNat 4) [] (f.mod.toNat % 2 + f.b.toNat / 8 * 8) eff
  let e := efmtOf c.slotP
  let z := c.shape
  let sb := isSb e
  checked c ([descBad (holdsTas s g), descBad (shapeOk (c.reg 3) (teamOf s g.team).pair false),
      descBad (bits (c.reg 2).toNat 63 56 = 0 && (c.reg 2).toNat % 4 = 0),
      fmtBad ((sb || e == 5 || e == 6 || e == 7) && !(sb && spolOf c.slotP = 2)
        && !(sb && spolOf c.slotP = 0 && scountOf c.slotP != z.n / 16))]
    ++ rowBads s g c.slotP (c.reg 0) (c.reg 1) z.m z.n)

/-- `TSTORE` (08 R213). -/
def execTstore (f : FOps) (s : State) : Host.Outcome State Fault Refusal := issueEngine s f 1 (ioUni (run f.a.toNat 4)) (tstoreCmd f)

/-- The command of a `TZERO`, or its fault (08 R215). -/
def tzeroCmd (f : FOps) (s : State) (g : Group) (eff : Word) : Except Bad Cmd :=
  let c := newCmd s g f .tzero [f.a.toNat] [] 0 eff
  checked c [descBad (holdsTas s g), descBad (shapeOk (c.reg 0) (teamOf s g.team).pair false)]

/-- `TZERO` (08 R215). -/
def execTzero (f : FOps) (s : State) : Host.Outcome State Fault Refusal := issueEngine s f 1 (ioUni [f.a.toNat]) (tzeroCmd f)

/-- Issue an engine word that sends no command: `TDEP` and `ECANCEL`. -/
def issueEngineNow (s : State) (f : FOps) (io : Io) (body : State → Nat → Group → Except Bad State) :
    Host.Outcome State Fault Refusal :=
  match current s with
  | none => .fault .noGroup
  | some (h, g) =>
    let eff := effSet g.ctx g.w f.k f.kn
    if blocked g.ctx io then .next s
    else if eff = 0 then .next (retire s h g {} 1 1 {})
    else match body s h g with
      | .error b => .next (raise s h (badRec g.ctx eff b))
      | .ok s =>
        let s := fallBack (forbid s h eff) h
        match groupOf s h with
        | none => .next s
        | some g => .next (retire s h g {} 1 1 {})

/-- The scratch range of a dependency (08 R208): its start and length. -/
def depRange (w : Word) : Nat × Nat := (bits w.toNat 20 0, bits w.toNat 52 32)

/-- `TDEP` (08 R208). -/
def execTdep (f : FOps) (s : State) : Host.Outcome State Fault Refusal :=
  issueEngineNow s f (ioUni [f.a.toNat]) fun s h g =>
    let w := readS g.ctx f.a.toNat
    let (a, n) := depRange w
    match firstBad [descBad (bits w.toNat 31 21 = 0 && bits w.toNat 63 53 = 0 && a % 128 = 0 && n % 128 = 0 && n != 0),
        descBad (decide (g.ctx.tdep.length < 4)), if rangeOk s g a n then none else some { code := 0x11, va := a }] with
    | some b => .error b
    | none => .ok (modCtx s h fun x => { x with tdep := x.tdep ++ [w] })

/-- `ECANCEL` (08 R226): the issuing team's commands counted on the core's counter. -/
def execEcancel (f : FOps) (s : State) : Host.Outcome State Fault Refusal :=
  issueEngineNow s f {} fun s _ g =>
    .ok (each (s.cmds.filter fun c => c.2.team = g.team && c.2.core = g.core && c.2.ec = f.form) s fun s c => cancelCmd s c.1)

/-- The oldest engine fault posted to a team on a core's counter (08 R205). -/
def postedFault (tm : Team) (c ec : Nat) : Option (Nat × Nat × Nat × Word) := tm.posted.find? fun p => p.1 = c && p.2.1 = ec

/-- `WAITE` (07 R181, 08 R205). -/
def execWaite (f : FOps) (s : State) : Host.Outcome State Fault Refusal :=
  match current s with
  | none => .fault .noGroup
  | some (h, g) =>
    let g := { g with ctx := endWins g.ctx }
    let s := setGroup s h g
    let ec := f.d.toNat
    let v := f.imm12.toNat
    let k := coreOf s g.core
    if v < k.ec.getD ec 0 then .next (park s h (.engine ec v) 4)
    else
      let x := { g.ctx with rv := max g.ctx.rv (k.ecRv.getD ec 0) }
      match postedFault (teamOf s g.team) g.core ec with
      | some p =>
        if !settled g.ctx then .next s
        else
          let s := modTeam (setGroup s h { g with ctx := x }) g.team fun tm => { tm with posted := tm.posted.erase p }
          .next (raise s h { code := 0x21, cause := p.2.2.1, iaddr := p.2.2.2, pc := x.pc + 8, failing := x.active, eff := x.active })
      | none => .next (retire s h { g with ctx := x } {} 1 1 {})

/-! ### The dependency table -/

/-- Whether a command's ranges are all present (08 R209). -/
def depsPresent (s : State) (c : Cmd) : Bool :=
  let tm := teamOf s c.team
  c.deps.all fun w =>
    let (a, n) := depRange w
    (List.range (n / 128)).all fun i => !lineAbsent tm (a / 128 + i)

/-- Whether an earlier tile command of the core, not yet completed, has a rectangle that overlaps (08 R209). -/
def earlierOverlap (s : State) (c : Cmd) : Bool :=
  s.cmds.any fun (_, d) => d.kind.tile && d.core = c.core && decide (d.seq < c.seq) && d.st != .over && d.shape.meets c.shape

/-- Whether a command may leave the dependency table. -/
def mayLeave (s : State) (c : Cmd) : Bool :=
  c.kind.tile && c.st == .waiting && c.waits.isEmpty && depsPresent s c && !earlierOverlap s c

/-- `DEPENDENCY_ENTRY_LEAVE` (08 R209): of entries that are ready, the one that issued first leaves. -/
def execDependencyEntryLeave (s : State) : Host.Outcome State Fault Refusal :=
  let cid := s.subj.cmd
  let c := cmdOf s cid
  let first := s.cmds.all fun (_, d) => !(d.core = c.core && decide (d.seq < c.seq) && mayLeave s d)
  if mayLeave s c && first then
    .next (modCore (modCmd s cid fun c => { c with st := .running }) c.core fun k => { k with dep := k.dep.erase cid })
  else notNow "DEPENDENCY_ENTRY_LEAVE"

/-! ### Engine leases -/

/-- The pool engines that run a kind of command (19 R342): first and how many; none for commands that need no pool engine. -/
def poolOf (k : CmdKind) : Option (Nat × Nat) :=
  match k with
  | .copy | .fill | .lnest => some (0, 32)
  | .coll => some (40, 8)
  | _ => none

/-- Whether a pool engine runs a kind of command. -/
def runs (e : Nat) (k : CmdKind) : Bool :=
  match poolOf k with
  | some (lo, n) => decide (lo ≤ e) && decide (e < lo + n)
  | none => false

/-- The partition of a command. -/
def cmdPart (s : State) (c : Cmd) : Nat := (launchOf s c.launch).part

/-- The commands queued at an engine. -/
def queuedAt (s : State) (e : Nat) : Nat := (s.cmds.filter fun c => c.2.engine == some e && c.2.st != .over).length

/-- The leases of a command's tenant of the kind it needs. -/
def leasesOf (s : State) (c : Cmd) : List Nat :=
  (s.engines.filter fun e => runs e.1 c.kind && e.2.part = cmdPart s c && e.2.tenant = c.tenant).map (·.1)

/-- A free engine of a command's partition's set. -/
def freeEngine (s : State) (c : Cmd) : Option Nat :=
  (partOf s (cmdPart s c)).engines.find? fun e => runs e c.kind && (find s.engines e).isNone

/-- The engine to bind for a command (19 R342): where its tenant has no lease, or each has four commands queued. -/
def wantsBind (s : State) (c : Cmd) : Option Nat :=
  if (leasesOf s c).all fun e => decide (4 ≤ queuedAt s e) then freeEngine s c else none

/-- Bind an engine to a tenant (19 R342, 22 R385). -/
def bindEngine (s : State) (e part tenant : Nat) : State :=
  post { s with engines := put s.engines e { part := part, tenant := tenant, left := 65536 } } 0x150 3 e tenant (.ofNat 32 part)

/-- Whether a command waits for a pool engine. -/
def wantsEngine (c : Cmd) : Bool := c.st == .waiting && c.waits.isEmpty && !c.kind.tile && c.engine.isNone

/-- `ENGINE_LEASE_BIND` (19 R342): an engine that is free is bound to the tenant of a command that waits for one. -/
def execEngineLeaseBind (s : State) : Host.Outcome State Fault Refusal :=
  let e := s.subj.engine
  if (partOf s s.subj.part).engines.contains e && (find s.engines e).isNone
      && (s.cmds.any fun (_, c) => wantsEngine c && runs e c.kind && cmdPart s c = s.subj.part && c.tenant = s.subj.tenant
        && (wantsBind s c).isSome) then
    .next (bindEngine s e s.subj.part s.subj.tenant)
  else notNow "ENGINE_LEASE_BIND"

/-- The lease with the fewest commands queued. -/
def bestLease (s : State) (c : Cmd) : Option Nat :=
  match leasesOf s c with
  | [] => none
  | e :: es => some (es.foldl (fun b x => if queuedAt s x < queuedAt s b then x else b) e)

/-- Whether a command may go to its engine now. -/
def mayDispatch (s : State) (c : Cmd) : Bool :=
  wantsEngine c && ((poolOf c.kind).isNone || (bestLease s c).isSome || (wantsBind s c).isSome)

/-- `ENGINE_DISPATCH` (08 R202, 19 R342): a command that waits for nothing of its group goes to its engine, a free one being
bound where its tenant needs it. -/
def execEngineDispatch (s : State) : Host.Outcome State Fault Refusal :=
  let cid := s.subj.cmd
  let c := cmdOf s cid
  if !mayDispatch s c then notNow "ENGINE_DISPATCH"
  else if (poolOf c.kind).isNone then .next (modCmd s cid fun c => { c with st := .running })
  else
    let s := match wantsBind s c with
      | some e => bindEngine s e (cmdPart s c) c.tenant
      | none => s
    match bestLease s c with
    | some e => .next (modCmd s cid fun c => { c with st := .running, engine := some e })
    | none => notNow "ENGINE_DISPATCH"

/-- The oldest command of another tenant of an engine's partition that waits for its kind (19 R342). -/
def nextLessee (s : State) (e : Nat) (x : Engine) : Option Cmd :=
  (s.cmds.find? fun (_, c) => wantsEngine c && runs e c.kind && cmdPart s c = x.part && c.tenant != x.tenant).map (·.2)

/-- `ENGINE_LEASE_EXPIRY` (19 R342, R348): a lease that has run its operations passes to the oldest request of another
tenant, or is renewed; an engine its partition no longer has becomes free. Its commands go on at another lease. -/
def execEngineLeaseExpiry (s : State) : Host.Outcome State Fault Refusal :=
  let e := s.subj.engine
  match find s.engines e with
  | none => notNow "ENGINE_LEASE_EXPIRY"
  | some x =>
    if x.left ≠ 0 then notNow "ENGINE_LEASE_EXPIRY"
    else
      let leave (s : State) : State := { s with cmds := s.cmds.map fun (i, c) =>
        (i, if c.engine == some e then { c with engine := none, st := if c.st == .running then .waiting else c.st } else c) }
      if !(partOf s x.part).engines.contains e then .next (leave { s with engines := del s.engines e })
      else match nextLessee s e x with
        | some c => .next (bindEngine (leave s) e x.part c.tenant)
        | none => .next { s with engines := put s.engines e { x with left := 65536 } }

/-! ### Commands in progress -/

/-- Whether a running command's engine has operations of its lease left. -/
def leaseLeft (s : State) (c : Cmd) : Bool :=
  match c.engine with
  | some e => decide (0 < (look s.engines e {}).left)
  | none => true

/-- Charge line operations to a command's lease (19 R342). -/
def chargeLease (s : State) (c : Cmd) (n : Nat) : State :=
  match c.engine with
  | some e => { s with engines := put s.engines e { (look s.engines e {}) with left := (look s.engines e {}).left - n } }
  | none => s

/-- Perform a running command's next operation, where there is one and it is of the kinds given. -/
def operate (s : State) (name : String) (kinds : CmdKind → Bool) : Host.Outcome State Fault Refusal :=
  let cid := s.subj.cmd
  let c := cmdOf s cid
  if c.st != .running || !kinds c.kind || !leaseLeft s c then notNow name
  else match nextOp s cid c with
    | .op n s => .next (chargeLease s c n)
    | _ => notNow name

/-- `ENGINE_OPERATION` (19 R342): the next lines of a copy, a loop nest, a tile store or a `TZERO`. -/
def execEngineOperation (s : State) : Host.Outcome State Fault Refusal :=
  operate s "ENGINE_OPERATION" fun k => k != .tmma && k != .press && k != .coll
/-- `TMMA_KBLOCK` (08 R211). -/
def execTmmaKblock (s : State) : Host.Outcome State Fault Refusal := operate s "TMMA_KBLOCK" fun k => k == .tmma
/-- `PRESS_SHARE` (08 R222): the share of the result line that stands next. -/
def execPressShare (s : State) : Host.Outcome State Fault Refusal :=
  if shareLine s (cmdOf s s.subj.cmd) == some s.subj.la && !pressPaused s (channelOf s.subj.la) then operate s "PRESS_SHARE" fun k => k == .press
  else notNow "PRESS_SHARE"

/-- Set every scratch line present that a command had still to write (10 R253). -/
def landAll (s : State) (cid : Nat) (c : Cmd) : State :=
  retryScratch (modTeam s c.team fun tm => { tm with absent := tm.absent.filter fun a => a.2 != cid }) c.team

/-- A command is over (08 R202, 10 R259): its counter falls, its vintage counts for the waits on the counter, and what
waited for it may go on. -/
def endCmd (s : State) (cid : Nat) (c : Cmd) : State :=
  let s := landAll s cid c
  let s := modCore (ecDown s c.core c.ec) c.core fun k =>
    { k with ecRv := setPad 0 k.ecRv c.ec (max (k.ecRv.getD c.ec 0) c.wv), dep := k.dep.erase cid }
  let s := { s with cmds := del s.cmds cid }
  let s := send s .granuleRelease { team := c.team }
  send s .launchCompletion { launch := c.launch }

/-- Stop a command for good with a cause: the engine fault is posted to its team (08 R205). -/
def stopCmd (s : State) (cid : Nat) (c : Cmd) (cause : Nat) : State :=
  endCmd (modTeam s c.team fun tm => { tm with posted := tm.posted ++ [(c.core, c.ec, cause, c.iaddr)] }) cid c

/-- `ENGINE_COMMAND_COMPLETE` (08 R202, R226): every write of a command has been performed, or its cancellation takes
effect. -/
def execEngineCommandComplete (s : State) : Host.Outcome State Fault Refusal :=
  let cid := s.subj.cmd
  match find s.cmds cid with
  | none => notNow "ENGINE_COMMAND_COMPLETE"
  | some c =>
    if c.st == .cancelled then .next (endCmd s cid c)
    else if c.st != .running || !c.flight.isEmpty then notNow "ENGINE_COMMAND_COMPLETE"
    else match nextOp s cid c with
      | .done => .next (endCmd s cid c)
      | _ => notNow "ENGINE_COMMAND_COMPLETE"

/-- Whether a flight's bytes would land over those of an earlier one of its command: the later element stands (08 R218). -/
def flightWaits (c : Cmd) (x : Flight) : Bool :=
  c.flight.any fun y => decide (y.id < x.id) && y.line = x.line && decide (y.lo < x.lo + x.bytes.length)
    && decide (x.lo < y.lo + y.bytes.length)

/-- `ENGINE_SCRATCH_LINE_LAND` (10 R253, R260): bytes on their way reach scratch, unless their command is over or their
granule has been released since; with its last bytes a line becomes present. -/
def execEngineScratchLineLand (s : State) : Host.Outcome State Fault Refusal :=
  let cid := s.subj.cmd
  match find s.cmds cid with
  | none => .next s
  | some c =>
    match c.flight.find? fun x => x.id = s.subj.n with
    | none => .next s
    | some x =>
      if flightWaits c x then notNow "ENGINE_SCRATCH_LINE_LAND"
      else
      let s := modCmd s cid fun c => { c with flight := c.flight.filter fun y => y.id != x.id }
      if c.st == .cancelled || genAt s (teamOf s c.team) (128 * x.line) != x.gen then .next s
      else
        let s := modTeam s c.team fun tm => scratchWrite tm (128 * x.line + x.lo) x.bytes
        let c := cmdOf s cid
        if (c.flight.any fun y => y.line = x.line) || (linesFrom c c.prog).contains x.line then .next s
        else .next (retryScratch (modTeam s c.team fun tm =>
          { tm with absent := tm.absent.filter fun a => a != (x.line, cid) }) c.team)

/-- The cause of an engine fault (08 R205). -/
def engineCause (code k : Nat) : Nat :=
  match code with
  | 0x13 => 1
  | 0x14 => 2
  | 0x15 => 3
  | _ => k

/-- The fault a running command meets at its next operation: code, cause and address. A collective's descriptor and
buffers are checked as if every participant agreed. -/
def cmdFault (s : State) (cid : Nat) (c : Cmd) : Option (Nat × Nat × Nat) :=
  if c.st != .running then none
  else match (if c.kind == .coll then collStep s cid c true [] else nextOp s cid c) with
    | .stop (some x) => some x
    | _ => none

/-- `ENGINE_FAULT` (08 R205, 20 R361): the command stops at the access, and the driver is told by a record; a collective
that is refused stops for good. A tile command's fault kills its team instead. -/
def execEngineFault (s : State) : Host.Outcome State Fault Refusal :=
  let cid := s.subj.cmd
  let c := cmdOf s cid
  match cmdFault s cid c with
  | none => notNow "ENGINE_FAULT"
  | some (code, k, va) =>
    let cause := engineCause code k
    if cause ≠ s.subj.cause || c.kind.tile then notNow "ENGINE_FAULT"
    else if 4 ≤ cause then .next (stopCmd s cid c cause)
    else
      let s := modCmd s cid fun c => { c with st := .faulted cause, va := .ofNat 64 va }
      .next (ringWrite s (cmdPart s c) 4 (launchOf s c.launch).slot
        [(8, 1, cause), (12, 4, c.task), (16, 8, c.iaddr.toNat), (24, 8, va), (44, 2, c.core), (46, 1, c.engine.getD 0),
         (56, 4, c.tenant), (60, 4, cid)])

/-- `COLL_COMPLETE` (08 R225): the other participants' elements have arrived, or their parameters differ. -/
def execCollComplete (cmd : Nat) (agree : Bool) (ranks : List (List W32)) (s : State) : Host.Outcome State Fault Refusal :=
  let c := cmdOf s cmd
  if c.st != .running || c.kind != .coll || c.prog ≠ 0 then notNow "COLL_COMPLETE"
  else match collStep s cmd c agree ranks with
    | .op n s => .next (chargeLease s c n)
    | .stop (some (0x21, k, _)) => .next (stopCmd s cmd c k)
    | _ => notNow "COLL_COMPLETE"

/-- The team that a tile command's fault kills, and why (08 R212). -/
def tileFault (s : State) : Option (Nat × KillWhy) :=
  s.cmds.findSome? fun (cid, c) =>
    if c.kind.tile then (cmdFault s cid c).map fun (code, k, va) =>
      (c.team, { code := code, cause := k, addr := c.iaddr, va := .ofNat 64 va, relaunch := (launchOf s c.launch).rc.tile })
    else none

/-- What a command does next, where something does not hold it. -/
def cmdNext (s : State) (cid : Nat) (c : Cmd) : Option Due :=
  match c.st with
  | .waiting =>
    if mayLeave s c then some ⟨.dependencyEntryLeave, { cmd := cid }⟩
    else if mayDispatch s c then some ⟨.engineDispatch, { cmd := cid }⟩
    else none
  | .running =>
    if !leaseLeft s c then c.engine.map fun e => ⟨.engineLeaseExpiry, { engine := e }⟩
    else if c.kind == .coll && c.prog = 0 then
      (cmdFault s cid c).map fun x => ⟨.engineFault, { cmd := cid, cause := engineCause x.1 x.2.1 }⟩
    else match nextOp s cid c with
      | .done => if c.flight.isEmpty then some ⟨.engineCommandComplete, { cmd := cid }⟩ else none
      | .op _ _ => match c.kind with
        | .tmma => some ⟨.tmmaKblock, { cmd := cid }⟩
        | .press => (shareLine s c).map fun la => ⟨.pressShare, { cmd := cid, la := la }⟩
        | _ => some ⟨.engineOperation, { cmd := cid }⟩
      | .stop (some (code, k, va)) =>
        if c.kind.tile then some ⟨.teamKill c.team { code := code, cause := k, addr := c.iaddr, va := .ofNat 64 va,
                                                     relaunch := (launchOf s c.launch).rc.tile }, {}⟩
        else some ⟨.engineFault, { cmd := cid, cause := engineCause code k }⟩
      | .stop none => none
  | .cancelled => some ⟨.engineCommandComplete, { cmd := cid }⟩
  | _ => none

/-- The engine event that happens where no choice is made. -/
def chooseEngine (s : State) : Option Due := s.cmds.findSome? fun (cid, c) => cmdNext s cid c

end Sys2Proof.Machine
end

