-- ==== Sys2Proof/Machine/Tasks.lean ====
section
/-! DEFINITION. Futures, casks, adoption and the task instructions, with the events of casks, of steals and of adopted work
(02 R50, 09 R227 to R238, R413, 13 R303 to R311). -/

namespace Sys2Proof.Machine

/-! ### Releases and acquires made at once -/

/-- The dirty lines of a core. -/
def dirtyLines (s : State) (c : Nat) : List Nat := ((coreOf s c).near.filter fun n => n.2.isDirty).map (·.1)

/-- Whether a core's dirty lines can be written back at once: nothing of it is on its way, and their homes are ready. -/
def canDrain (s : State) (c : Nat) : Bool := coreQuiet s c && (dirtyLines s c).all fun la => lineReady s la

/-- Write back some dirty lines of a core at once (12 R290): the largest vintage taken, which the core has then observed. -/
def drainLines (s : State) (c : Nat) (ls : List Nat) : Nat × State :=
  let (v, s) := ls.foldl (fun (v, s) la => match nearLine s c la with
    | none => (v, s)
    | some n =>
      let s := performWriteback s c la n.slot n.data n.mask (coreOf s c).obsv n.poison
      let s := modNear s c la fun n => { n with st := if n.st == .exclusive then .exclusive else .leased, mask := 0 }
      (max v (lineSt s la).wv, s)) (0, s)
  (v, observe s c v)

/-- Write back every dirty line of a core at once (12 R290). -/
def drainNow (s : State) (c : Nat) : Nat × State := drainLines s c (dirtyLines s c)

/-- The message that an acquire of a line at `.dev` by a core would be. -/
def acqOf (c g la slot : Nat) : AcqMsg := { core := c, g := g, win := 0, scope := .dev, la := la, slot := slot }

/-- The cores that an acquire at `.dev` drains (12 R290). -/
def acquireCores (s : State) (c la : Nat) : List Nat :=
  (((lineSt s la).recs.filter (drains s (acqOf c 0 la 0))).map (·.core)).eraseDups

/-- An acquire at `.dev` of a line, made at once at its home (12 R290): the vintage it returns. -/
def acquireNow (s : State) (c la : Nat) : Nat × State :=
  let (v, s) := (acquireCores s c la).foldl (fun (v, s) k =>
    let (x, s) := drainNow s k
    (max v (max x (coreOf s k).obsv), s)) (0, s)
  let s := modLine s la fun l =>
    { l with wv := max l.wv v, le := max l.le (max l.wv v), recs := l.recs.filter fun r => !drains s (acqOf c 0 la 0) r }
  ((lineSt s la).wv, observe s c (lineSt s la).wv)

/-- Whether a release at the home of a line can be made at once: a fifth record first drains the core of the oldest
(12 R289). -/
def canRelease (s : State) (la : Nat) : Bool :=
  match (lineSt s la).recs with
  | r :: rest => decide (rest.length < 3) || canDrain s r.core
  | [] => true

/-- Make room for a release record and add it (12 R289). -/
def addRecord (s : State) (c la : Nat) : State :=
  let s := match (lineSt s la).recs with
    | r :: rest => if rest.length < 3 then s
      else
        let s := (drainNow s r.core).2
        let v := (coreOf s r.core).obsv
        modLine s la fun l => { l with wv := max l.wv v, le := max l.le (max l.wv v), recs := l.recs.drop 1 }
    | [] => s
  modLine s la fun l => { l with recs := l.recs ++ [{ core := c, scope := .dev }] }

/-- Whether every access of a group is done, its stores written back or on their own: what a task instruction that passes
work on waits for. A first try writes the core's dirty lines back. -/
def passReady (s : State) (h : Nat) (g : Group) : Bool × State :=
  if sinkRuns g.ctx then (false, s) else releasePart s h g true

/-! ### Future words that a group acts on -/

/-- The future word of one part. -/
def partWord (s : State) (p : Part) : Word := .ofNat 64 (leNat (lineBytes (readAtHome s p.la p.slot).1 p.lo 8))

/-- The address of one part. -/
def partPa (p : Part) : Nat := 128 * p.la + p.lo

/-- Write the future word of one part for a group (12 R288): its `%rv` and its core's observed vintage rise, and the core
keeps no read copy from before. -/
def partPut (s : State) (h c : Nat) (p : Part) (w : Word) : State :=
  let rv := match groupOf s h with
    | some g => g.ctx.rv
    | none => 0
  let s := futPut s (partPa p) p.slot w rv
  let v := (lineSt s p.la).wv
  observe (modCtx (dropNear s c p.la) h fun x => { x with rv := max x.rv v }) c v

/-- Whether the lines of parts can be acted on at their homes now, a core's own copies having been put away. -/
def partsReady (s : State) (c : Nat) (ps : List Part) : Bool := ps.all fun p => lineReady s p.la && !wbInFlight s c p.la

/-- A task's list of owned futures gains a word. -/
def ownAdd (s : State) (p id pa : Nat) : State :=
  modTask s p id fun t => { t with owned := if t.owned.contains pa then t.owned else t.owned ++ [pa] }

/-- A task's list of owned futures loses a word. -/
def ownDel (s : State) (p id pa : Nat) : State := modTask s p id fun t => { t with owned := t.owned.filter (· != pa) }

/-- The task that acts at a thread's site; under U that of the lowest thread of E. -/
def siteTask (x : Ctx) (uni : Bool) (eff : Word) (t : Nat) : Nat := x.taskid.getD (if uni then lowest eff else t) 0

/-- The parts of checked accesses by thread. -/
def sitesOf (rs : List (Acc × Except Bad (List Part))) : List (Nat × Part) := (partsOf rs).map fun p => (p.t, p)

/-- What acting on future words comes to: a fault, a wait, or the words' parts by thread. -/
inductive FutTry where
  | bad (b : Bad) (s : State)
  | wait (s : State)
  | go (ps : List (Nat × Part)) (s : State)
  deriving DecidableEq, Repr

/-- Check the future words of several threads (07 R158, 09 R229): every access first, then, with the lines at their homes, the
words, of which `why` names the cause of the future fault. -/
def futTry (s : State) (h : Nat) (uni : Bool) (accs : List Acc)
    (why : State → Group → List (Nat × Part) → Nat → Part → Option Nat) : FutTry :=
  match groupOf s h with
  | none => .wait s
  | some g =>
    let (rs, s) := checkAll s g true 8 .both accs
    match failOf uni (badsOf rs) with
    | some b => .bad b s
    | none =>
      let ps := sitesOf rs
      let s := putAway s g.core ((ps.map (·.2.la)).eraseDups)
      if earlierHolds s h g.ctx s.nextId uni (ps.map (·.2)) || !partsReady s g.core (ps.map (·.2)) then .wait s
      else match failOf uni (ps.filterMap fun (t, p) => (why s g ps t p).map fun k =>
          (t, ({ code := 0x28, cause := k, va := (accs.find? fun a => a.t = t).elim 0 (·.ea.toNat) } : Bad))) with
        | some b => .bad b s
        | none => .go ps s

/-- Whether a future's state is invalid (09 R227). -/
def badState (w : Word) : Bool := decide (4 ≤ futState w) && decide (futState w ≤ 6)
/-- Whether a future is resolved or faulted. -/
def endedState (w : Word) : Bool := decide (7 ≤ futState w)

/-- A future word in a state with an owner. -/
def ownedWord (st id : Nat) : Word := .ofNat 64 (st * 2 ^ 60 + id % 2 ^ 28 * 2 ^ 32)

/-! ### `FUTNEW` and `RESOLVE` -/

/-- The cause for which `FUTNEW` refuses a word (09 R229). -/
def futnewWhy (uni : Bool) (eff : Word) (s : State) (g : Group) (ps : List (Nat × Part)) (t : Nat) (p : Part) : Option Nat :=
  let w := partWord s p
  let id := siteTask g.ctx uni eff t
  let mine := (taskOf s (groupPart s g) id).owned
  let all := (mine ++ (ps.filter fun q => siteTask g.ctx uni eff q.1 = id).map fun q => partPa q.2).eraseDups
  if 1 ≤ futState w && futState w ≤ 3 then some 2
  else if id = 0 then some 3
  else if 64 < all.length then some 4
  else if badState w then some 5
  else none

/-- Issue a word that acts on future words and writes no register: `acts` when every check passes. -/
def issueFut (s : State) (f : FOps) (io : Io) (ready : State → Nat → Group → Bool × State)
    (why : Word → State → Group → List (Nat × Part) → Nat → Part → Option Nat)
    (acts : Word → State → Nat → Group → List (Nat × Part) → Option State) : Host.Outcome State Fault Refusal :=
  match current s with
  | none => .fault .noGroup
  | some (h, g) =>
    let g := { g with ctx := endWins g.ctx }
    let s := setGroup s h g
    let eff := effSet g.ctx g.w f.k f.kn
    if blocked g.ctx (io.under eff) then .next s
    else
      let accs := accsOf g.ctx g.w f false none eff (fun _ => 0) fun _ => 0
      let cyc := if f.u then 1 else laneCycles g.w eff
      let done (s : State) : Host.Outcome State Fault Refusal :=
        match groupOf s h with
        | none => .next s
        | some g => .next (retire s h g io 1 cyc {})
      if eff = 0 then done s
      else match futTry s h f.u accs (why eff) with
        | .bad b s => .next (raise s h (badRec g.ctx eff b))
        | .wait s => .next s
        | .go ps s =>
          let s := fallBack (forbid s h eff) h
          match groupOf s h with
          | none => .next s
          | some g =>
            let (ok, s) := ready s h g
            if !ok then .next s
            else match acts eff s h g ps with
              | none => .next s
              | some s => done s

/-- `FUTNEW` (09 R229). -/
def execFutnew (f : FOps) (s : State) : Host.Outcome State Fault Refusal :=
  issueFut s f (ioAddr f false) (fun s _ _ => (true, s)) (futnewWhy f.u) fun eff s h g ps =>
    let part := groupPart s g
    some (each ps s fun s (t, p) =>
      let id := siteTask g.ctx f.u eff t
      ownAdd (partPut s h g.core p (ownedWord 1 id)) part id (partPa p))

/-- The cause for which `RESOLVE`, or a `SPAWN` that hands a future over, refuses a word (09 R230). -/
def ownWhy (uni : Bool) (eff : Word) (s : State) (g : Group) (_ : List (Nat × Part)) (t : Nat) (p : Part) : Option Nat :=
  let w := partWord s p
  if badState w then some 5
  else if futState w = 1 && futOwner w = siteTask g.ctx uni eff t then none
  else some 1

/-- The word `RESOLVE` stores (09 R230). -/
def resolvedWord (st data : Nat) : Word := .ofNat 64 ((8 + st % 8) * 2 ^ 60 + data % 2 ^ 60)

/-- `RESOLVE` (09 R230): a release at `.dev` of each word in turn. -/
def execResolve (f : FOps) (s : State) : Host.Outcome State Fault Refusal :=
  let io := (ioAddr f false).join (ioSrc f.u f.c.toNat (if f.u then 1 else 2) f.lrC)
  issueFut s f io (fun s _ g => (settled g.ctx && g.out.isEmpty, s)) (ownWhy f.u) fun eff s h g ps =>
    let part := groupPart s g
    if !ps.all fun q => canRelease s q.2.la then none
    else some (each ps s fun s (t, p) =>
      let data := if f.u then (readS g.ctx f.c.toNat).toNat else readRun g.ctx f.c.toNat 2 t
      let s := partPut (addRecord s g.core p.la) h g.core p (resolvedWord f.mod.toNat data)
      ownDel s part (siteTask g.ctx f.u eff t) (partPa p))

/-! ### Casks -/

/-- Put records at the tail of a cask. -/
def caskPut (s : State) (c i : Nat) (v : Cask) (recs : List SpawnRec) : State :=
  if recs.isEmpty then s else modCore s c fun k => { k with casks := put k.casks i { v with recs := v.recs ++ recs } }

/-- Leave records in a cask after a take: the age count begins anew where the oldest has left, and an emptied cask is free
(13 R303, R305, R306). -/
def caskLeave (s : State) (c i : Nat) (v : Cask) (rest : List SpawnRec) : State :=
  modCore s c fun k =>
    if rest.isEmpty then { k with casks := del k.casks i }
    else { k with casks := put k.casks i { v with recs := rest, since := if rest.head? = v.recs.head? then v.since else k.cycles
                                                  stolen := v.stolen - (v.recs.length - rest.length) } }

/-- The 128-byte record of an overflow area (13 R307). -/
def spawnBytes (s : State) (r : SpawnRec) : List Byte :=
  record 128 ([(0, 8, r.entry.toNat), (8, 4, r.task), (12, 1, r.args.length), (13, 1, if r.fut.isSome then 1 else 0),
    (14, 2, (launchOf s r.launch).slot), (16, 8, r.rv)] ++ (List.range r.args.length).map fun i => (32 + 4 * i, 4, (r.args.getD i 0).toNat))

/-- The first place of a die's overflow area, from `n` on, that none of its records lies at. Fuel bounds the places passed. -/
def freePlace (fuel : Nat) (rs : List SpawnRec) (size n : Nat) : Nat :=
  match fuel with
  | 0 => n
  | fuel + 1 => if rs.any fun r => r.place = n then freePlace fuel rs size ((n + 1) % size) else n

/-- Put a record at the tail of a die's overflow area (13 R304, R307, log entry 33). -/
def ringPut (s : State) (p d : Nat) (r : SpawnRec) : State :=
  let v := partOf s p
  let rs := look v.ov d []
  let n := freePlace (rs.length + 1) rs (2 ^ v.ovLog) (v.ovHead.getD d 0 % 2 ^ v.ovLog)
  let s := physWrite s (v.ovBase.getD d 0 + 128 * n) (spawnBytes s r) 0 0
  modPart s p fun v => { v with ov := put v.ov d (rs ++ [{ r with place := n }]), ovHead := setPad 0 v.ovHead d (n + 1) }

/-- Place one new record (13 R304), unless the area is full. -/
def placeRecord (s : State) (p c : Nat) (r : SpawnRec) : Option State :=
  match caskRoom (coreOf s c) r.launch r.entry with
  | some (i, v) => some (caskPut s c i v [r])
  | none => if ringRoom s p (dieOf c) then some (ringPut s p (dieOf c) r) else none

/-! ### Adoption -/

/-- Where the record of an unstarted task lies: a cask of a core, or a die's overflow area. -/
inductive Lies where
  | cask (c i : Nat)
  | ring (d : Nat)
  deriving DecidableEq, Repr

/-- Find the record of an unstarted task of a partition. -/
def findRecord (s : State) (p id : Nat) : Option (Lies × SpawnRec) :=
  let casks := s.cores.findSome? fun (c, k) => k.casks.findSome? fun (i, v) =>
    (v.recs.find? fun r => r.task = id && (launchOf s r.launch).part = p).map fun r => (Lies.cask c i, r)
  match casks with
  | some x => some x
  | none => (partOf s p).ov.findSome? fun (d, rs) => (rs.find? fun r => r.task = id).map fun r => (Lies.ring d, r)

/-- Take a record and the oldest others beside it that share its key, up to `w` in all (09 R235): the records, and the
state without them. -/
def takeRecords (s : State) (p w : Nat) (l : Lies) (r : SpawnRec) : List SpawnRec × State :=
  match l with
  | .cask c i =>
    let v := look (coreOf s c).casks i {}
    let took := r :: (v.recs.filter fun x => x != r).take (w - 1)
    (took, caskLeave s c i v (v.recs.filter fun x => !took.contains x))
  | .ring d =>
    let rs := look (partOf s p).ov d []
    let took := r :: (rs.filter fun x => x != r && x.launch = r.launch && x.entry = r.entry).take (w - 1)
    (took, modPart s p fun v => { v with ov := put v.ov d (rs.filter fun x => !took.contains x) })

/-- The group parked by `PARK` that holds a task; one whose adoption is still to end is no owner to adopt yet. -/
def parkedOwner (s : State) (p id : Nat) : Option (Nat × Group) :=
  s.groups.find? fun (_, g) => groupPart s g = p && holdsTask g id && g.outer.isNone && (match g.run with
    | .out _ => true
    | _ => false)

/-- Whether a core is one of those a group's team runs on, on the group's side of a pair (02 R26). -/
def teamHome (s : State) (g : Group) (c : Nat) : Bool :=
  let tm := teamOf s g.team
  c = tm.core + (if tm.pair then g.gid % 2 else 0)

/-- Whether the future a parked group named, if any, is resolved or faulted (09 R236). -/
def wakeReady (s : State) (g : Group) : Bool :=
  match g.run with
  | .out (some pa) => endedState (futWord s pa)
  | _ => true

/-- Give a saved context physical registers of a core (20 R353): each mapped register, its values kept. -/
def loadCtx (s : State) (c w : Nat) (x : Ctx) : Ctx × State :=
  x.v.foldl (fun (x, s) (r, v) =>
    let k := coreOf s c
    let pid := freePid k
    ({ x with v := put x.v r { v with pid := pid } },
     setCore s c { k with pregs := put k.pregs pid { rows := rowsOf w } })) (x, s)

/-- Seat a saved group: its contexts are loaded, and it counts as having last issued just before (02 R51). -/
def seat (s : State) (h : Nat) (g : Group) (c slot0 : Nat) (run : Run) : State :=
  let (x, s) := loadCtx (wakeIsland s c) c g.w g.ctx
  let (sh, s) := match g.shadow with
    | some y =>
      let (y, s) := loadCtx s c g.w y
      (some y, s)
    | none => (none, s)
  let n := (coreOf s c).opp.getD (slot0 / 256) 0
  setGroup (noteRan s (launchIdOf s g) c) h { g with ctx := x, shadow := sh, core := c, slot0 := slot0, run := run, lastIssue := (n + 2 ^ 32 - 1) % 2 ^ 32 }

/-- The helper's context leaves for its frame (09 R235, 22 R385). -/
def beginAdoption (s : State) (h inner task : Nat) : State :=
  match groupOf s h with
  | none => s
  | some g => postGroup (setGroup s h { g with run := .outer inner }) g 0x102
      (.ofNat 32 ((g.depth + 1) + 16 * (task % 2 ^ 28)))

/-- Adopt an unstarted task (09 R235). -/
def adoptRecord (s : State) (h : Nat) (g : Group) (p : Nat) (l : Lies) (r : SpawnRec) : State :=
  let (recs, s) := takeRecords s p (launchOf s r.launch).rc.w l r
  let (inner, s) := formRecords s g.core g.slot0 r.launch recs (some h) (g.depth + 1)
  beginAdoption s h inner r.task

/-- Adopt a task whose group is parked (09 R235, R228). -/
def adoptParked (s : State) (h : Nat) (g : Group) (p inner : Nat) (o : Group) (task : Nat) : State :=
  let s := seat s inner { o with outer := some h, depth := g.depth + 1 } g.core g.slot0 .ready
  let s := each (tasksOf o.ctx o.ctx.live) s fun s id => futShift s p id [2, 3] 1
  beginAdoption s h inner task

/-- What an `AWAIT` can do for an owner that does not run (09 R234). -/
inductive Help where
  | record (l : Lies) (r : SpawnRec)
  | group (o : Nat) (g : Group)
  | regs (n : Nat)
  | boost
  deriving DecidableEq, Repr

/-- Whether a group may adopt work of a launch that maps `n` registers, and has the room (09 R234, log entry 32). -/
def mayAdopt (s : State) (g : Group) (launch n : Nat) (h : Help) : Help :=
  if launch ≠ launchIdOf s g || 4 ≤ g.depth || g.ctx.allot < n then .boost
  else if !rowsFree s g.core (n * rowsOf g.w) then .regs n
  else h

/-- What an `AWAIT` does about an owner in state 2 or 3. -/
def helpFor (s : State) (g : Group) (p : Nat) (w : Word) : Help :=
  let id := futOwner w
  if futState w = 3 then match findRecord s p id with
    | some (l, r) => mayAdopt s g r.launch r.args.length (.record l r)
    | none => .boost
  else match parkedOwner s p id with
    | some (o, og) => if wakeReady s og then mayAdopt s g (launchIdOf s og) og.ctx.v.length (.group o og) else .boost
    | none => .boost

/-! ### `AWAIT` -/

/-- Park on a future (09 R234). -/
def parkOn (s : State) (h : Nat) (pa : Nat) (w : Word) : State := park s h (.await pa w) 0

/-- Act on the word an `AWAIT` found (09 R234). -/
def awaitWord (s : State) (f : FOps) (h : Nat) (g : Group) (p : Part) : State :=
  let w := partWord s p
  let pa := partPa p
  let part := groupPart s g
  if endedState w then
    if !(acquireCores s g.core p.la).all (canDrain s) then s
    else
      let (v, s) := acquireNow s g.core p.la
      let w := partWord s p
      let s := modCtx s h fun x => { x with rv := max x.rv v }
      match groupOf s h with
      | none => s
      | some g => if !endedState w then s
        else retire s h g (ioDst true f.d.toNat 1) 1 1 { wr := wrDst true f.d.toNat 1 0 w.toNat }
  else if futState w = 2 || futState w = 3 then
    let claim (s : State) : State := partPut s h g.core p (.ofNat 64 (2 ^ 60 + w.toNat % 2 ^ 60))
    match helpFor s g part w with
    | .record l r => adoptRecord (claim s) h g part l r
    | .group o og => adoptParked (claim s) h g part o og (futOwner w)
    | .regs n => parkRegs s h g n
    | .boost =>
      let b : Boost := { part := part, task := futOwner w, pa := pa, word := w, cls := classOf s g }
      let s := parkOn s h pa w
      send { s with boosts := if s.boosts.contains b then s.boosts else s.boosts ++ [b] } .teamPlacement { part := part }
  else parkOn s h pa w

/-- `AWAIT` (09 R234). -/
def execAwait (f : FOps) (s : State) : Host.Outcome State Fault Refusal :=
  match current s with
  | none => .fault .noGroup
  | some (h, g) =>
    let g := { g with ctx := endWins g.ctx }
    let s := setGroup s h g
    let eff := effSet g.ctx g.w f.k f.kn
    let io : Io := { ur := [f.a.toNat], uw := [f.d.toNat] }
    if blocked g.ctx (io.under eff) then .next s
    else if eff = 0 then .next (retire s h g io 1 1 {})
    else
      match futTry s h true (accsOf g.ctx g.w f false none eff (fun _ => 0) fun _ => 0)
          (fun s _ _ _ p => if badState (partWord s p) then some 5 else none) with
      | .bad b s => .next (raise s h (badRec g.ctx eff b))
      | .wait s => .next s
      | .go ps s =>
        let s := fallBack (forbid s h eff) h
        match groupOf s h, ps with
        | some g, (_, p) :: _ => .next (awaitWord s f h g p)
        | _, _ => .next s

/-! ### `SPAWN` -/

/-- The threads whose records are still to be placed (13 R307). -/
def spawnLeft (x : Ctx) (eff : Word) : Word := if x.spawnRem = 0 then eff else x.spawnRem

/-- One thread's argument words. -/
def spawnArgs (x : Ctx) (f : FOps) (t : Nat) : List W32 := (List.range f.c.toNat).map fun i => readV x (f.b.toNat + i) t

/-- Hand a future to a new task (09 R232 step 2). -/
def handOver (s : State) (h : Nat) (g : Group) (t id : Nat) (p : Part) : State :=
  let part := groupPart s g
  let s := partPut s h g.core p (ownedWord 3 id)
  ownAdd (ownDel s part (g.ctx.taskid.getD t 0) (partPa p)) part id (partPa p)

/-- Spawn for the threads left, lowest first (09 R232): the ids given, and the threads whose records found no room. -/
def spawnAll (s : State) (h : Nat) (g : Group) (f : FOps) (ps : List (Nat × Part)) :
    List Nat → List (Nat × Nat) → List (Nat × Nat) × List Nat × State
  | [], ids => (ids, [], s)
  | t :: ts, ids =>
    let part := groupPart s g
    let entry := readS g.ctx f.a.toNat
    let launch := launchIdOf s g
    if !((caskRoom (coreOf s g.core) launch entry).isSome || ringRoom s part (dieOf g.core)) then (ids, t :: ts, s)
    else
      let (id, s) := takeTask (taskFuel s part) s part
      let fut := (ps.find? fun q => q.1 = t).map (·.2)
      let s := match fut with
        | some p => handOver s h g t id p
        | none => s
      let r : SpawnRec := { entry := entry, task := id, fut := fut.map partPa, launch := launch, rv := g.ctx.rv
                            seen := (coreOf s g.core).obsv, args := spawnArgs g.ctx f t }
      match placeRecord s part g.core r with
      | some s => spawnAll s h g f ps ts (ids ++ [(t, id)])
      | none => (ids, t :: ts, s)

/-- Finish a `SPAWN`, or wait, without parking, for room in the overflow area, adopting from it meanwhile the oldest record
there with those that share its key (09 R232, 13 R307). -/
def spawnEnd (s : State) (h : Nat) (f : FOps) (io : Io) (eff : Word) (ids : List (Nat × Nat)) (left : List Nat) : State :=
  match groupOf s h with
  | none => s
  | some g =>
    let wr := (ids.map fun (t, id) => wrDst false f.d.toNat 1 t id).flatten
    if left.isEmpty then
      let old := ((threadsOf g.w eff).filter fun t => !ids.any fun q => q.1 = t).map fun t =>
        wrDst false f.d.toNat 1 t (readV g.ctx f.d.toNat t).toNat
      retire s h { g with ctx := { g.ctx with spawnRem := 0 } } io 1 (laneCycles g.w eff) { wr := old.flatten ++ wr }
    else
      let (s, g) := writeRegs s g wr
      let s := setGroup s h { g with ctx := { g.ctx with spawnRem := maskOf left } }
      match look (partOf s (groupPart s g)).ov (dieOf g.core) [], groupOf s h with
      | r :: _, some g =>
        if ringAdopts s g then adoptRecord s h g (groupPart s g) (.ring (dieOf g.core)) r
        else modGroup s h fun g => { g with run := .parked (.spawnRoom (readS g.ctx f.a.toNat)) }
      | _, _ => modGroup s h fun g => { g with run := .parked (.spawnRoom (readS g.ctx f.a.toNat)) }

/-- A `SPAWN` of the threads of E at a well-formed entry, from room for its destination on. -/
def spawnFrom (s : State) (h : Nat) (g : Group) (f : FOps) (io : Io) (eff : Word) : Host.Outcome State Fault Refusal :=
  let (mapped, n) := allocNeed g.ctx io io.vw
  match allocCheck s h g mapped n with
  | .trap => .next (raise s h (badRec g.ctx eff { code := 0x07 }))
  | .park => .next (parkRegs s h g n)
  | .ok =>
    let left := threadsOf g.w (spawnLeft g.ctx eff)
    let accs := if f.mod = 1 then left.map fun t => { t := t, ea := .ofNat 64 (readRun g.ctx f.b.toNat 2 t) } else []
    match futTry s h false accs (ownWhy false eff) with
    | .bad b s => .next (raise s h (badRec g.ctx eff b))
    | .wait s => .next s
    | .go ps s =>
      let s := fallBack (forbid s h eff) h
      match groupOf s h with
      | none => .next s
      | some g =>
        let (ok, s) := passReady s h g
        if !ok then .next s
        else
          let (ids, rest, s) := spawnAll s h g f ps left []
          .next (spawnEnd s h f io eff ids rest)

/-- `SPAWN` (09 R231, R232): earlier accesses of the group are done and its core's writes are home before a record is
placed, so that they come before every access of the spawned thread. -/
def execSpawn (f : FOps) (s : State) : Host.Outcome State Fault Refusal :=
  match current s with
  | none => .fault .noGroup
  | some (h, g) =>
    let g := { g with ctx := endWins g.ctx }
    let s := setGroup s h g
    let eff := effSet g.ctx g.w f.k f.kn
    let io : Io := { ur := [f.a.toNat], vr := run f.b.toNat f.c.toNat, vw := [f.d.toNat]
                     lr := if f.lrB then run f.b.toNat f.c.toNat else [] }
    if blocked g.ctx (io.under eff) then .next s
    else if eff = 0 then .next (retire s h g io 1 (laneCycles g.w eff) {})
    else if !goodPc (readS g.ctx f.a.toNat) then .next (raise s h (badRec g.ctx eff { code := 0x29, cause := 1 }))
    else spawnFrom s h g f io eff

/-! ### `PARK`, `STEAL` and `ROLE` -/

/-- Give up a group's slot (09 R236): its registers are freed, its tasks' futures pass to parked, and it waits, not resident,
at the next word. -/
def leaveSlot (s : State) (h : Nat) (g : Group) (wake : Option Nat) : State :=
  let p := groupPart s g
  let x := { passWins g.ctx 1 with pc := g.ctx.pc + 8, phase := 0, rv := max g.ctx.rv (coreOf s g.core).obsv }
  let s := spend (postPark s g 5) h 1
  let s := unseat (modGroup s h fun g => { g with run := .out wake, ctx := x }) h
  let s := each (tasksOf x x.live) s fun s id => futShift s p id [1] 2
  let s := if g.outer.isSome then send s .adoptionReturn { g := h } else s
  send s .teamPlacement { part := p }

/-- A `PARK` with threads in E. -/
def parkFrom (s : State) (h : Nat) (g : Group) (f : FOps) (eff : Word) : Host.Outcome State Fault Refusal :=
  let accs := if f.mod = 1 then accsOf g.ctx g.w f false none eff (fun _ => 0) (fun _ => 0) else []
  match futTry s h true accs (fun s _ _ _ p => if badState (partWord s p) then some 5 else none) with
  | .bad b s => .next (raise s h (badRec g.ctx eff b))
  | .wait s => .next s
  | .go ps s =>
    let s := fallBack (forbid s h eff) h
    match groupOf s h with
    | none => .next s
    | some g =>
      let (ok, s) := passReady s h g
      if !ok || !g.out.isEmpty then .next s
      else match groupOf s h with
        | none => .next s
        | some g => .next (leaveSlot s h g (ps.head?.map fun q => partPa q.2))

/-- `PARK` (09 R236): once nothing of the group is outstanding and its core's writes are home, as a full save leaves them. -/
def execPark (f : FOps) (s : State) : Host.Outcome State Fault Refusal :=
  match current s with
  | none => .fault .noGroup
  | some (h, g) =>
    let g := { g with ctx := endWins g.ctx }
    let s := setGroup s h g
    let eff := effSet g.ctx g.w f.k f.kn
    let io : Io := if f.mod = 1 then { ur := [f.a.toNat] } else {}
    if blocked g.ctx (io.under eff) then .next s
    else if eff = 0 then .next (retire s h g io 1 1 {})
    else parkFrom s h g f eff

/-- The core of a die whose cask of a key holds the most records, the lowest-numbered on a tie (09 R237). -/
def fullest (s : State) (d launch : Nat) (entry : Word) : Option Nat :=
  ((List.range 64).map (64 * d + ·)).foldl (fun b c =>
    let n (c : Nat) : Nat := ((caskFor (coreOf s c) launch entry).map fun x => x.2.recs.length).getD 0
    if n c = 0 then b else match b with
      | some x => if n x < n c then some c else b
      | none => some c) none

/-- Move the older records of one core's cask to another's (09 R237, 13 R306): how many moved. -/
def stealFrom (s : State) (p dst src launch : Nat) (entry : Word) : Nat × State :=
  if src = dst || dieOf src ≠ dieOf dst || !(partOf s p).cores.contains src then (0, s)
  else match caskFor (coreOf s src) launch entry, caskRoom (coreOf s dst) launch entry with
    | some (i, v), some (j, u) =>
      let n := min (ceilDiv v.recs.length 2) (64 - u.recs.length)
      (n, caskPut (caskLeave s src i v (v.recs.drop n)) dst j u (v.recs.take n))
    | _, _ => (0, s)

/-- What a `STEAL` of a group does: how many records moved. -/
def stealBy (s : State) (g : Group) (f : FOps) : Nat × State :=
  let launch := launchIdOf s g
  let entry := readS g.ctx f.a.toNat
  match if f.x0 then fullest s (dieOf g.core) launch entry else some (readS g.ctx f.b.toNat).toNat with
  | some c => stealFrom s (groupPart s g) g.core c launch entry
  | none => (0, s)

/-- `STEAL` (09 R237). -/
def execSteal (f : FOps) (s : State) : Host.Outcome State Fault Refusal :=
  match current s with
  | none => .fault .noGroup
  | some (h, g) =>
    let g := { g with ctx := endWins g.ctx }
    let s := setGroup s h g
    let eff := effSet g.ctx g.w f.k f.kn
    let io : Io := { ur := [f.a.toNat] ++ (if f.x0 then [] else [f.b.toNat]), uw := [f.d.toNat] }
    if blocked g.ctx (io.under eff) then .next s
    else if eff = 0 then .next (retire s h g io 1 1 {})
    else
      let s := fallBack (forbid s h eff) h
      match groupOf s h with
      | none => .next s
      | some g =>
        let (n, s) := stealBy s g f
        .next (retire s h g io 1 1 { wr := wrDst true f.d.toNat 1 0 n })

/-- Whether the fields of a role record are in range (09 R238). -/
def roleOk (a b : Word) : Bool :=
  bits a.toNat 63 56 = 0 && bits a.toNat 2 0 = 0 && bits b.toNat 63 10 = 0 && !b.getLsbD 7
    && decide (1 ≤ bits b.toNat 6 0) && decide (bits b.toNat 6 0 ≤ 64)

/-- `ROLE` (02 R50, 09 R238). -/
def execRole (f : FOps) (s : State) : Host.Outcome State Fault Refusal :=
  match current s with
  | none => .fault .noGroup
  | some (h, g) =>
    let g := { g with ctx := endWins g.ctx }
    let s := setGroup s h g
    let r := f.a.toNat
    let eff := effSet g.ctx g.w f.k f.kn
    let io : Io := { ur := [r, r + 1], uw := [r, r + 1] }
    if blocked g.ctx (io.under eff) then .next s
    else if eff = 0 then .next (retire s h g io 1 1 {})
    else
      let x := g.ctx
      let a := readS x r
      let b := readS x (r + 1)
      if !roleOk a b then .next (raise s h (badRec x eff { code := 0x29, cause := 2 }))
      else if bits b.toNat 6 0 < x.v.length then .next (raise s h (badRec x eff { code := 0x07 }))
      else
        let s := fallBack s h
        match groupOf s h with
        | none => .next s
        | some g =>
          let y := { g.ctx with allot := bits b.toNat 6 0, cls := max (bits b.toNat 9 8) (groupLaunch s g).rc.cls, entry := a }
          .next (retire s h { g with ctx := y } io 1 1
            { wr := wrDst true r 1 0 x.entry.toNat ++ wrDst true (r + 1) 1 0 (256 * x.cls + x.allot) })

/-! ### Events of casks -/

/-- Whether a task has a boost (13 R310). -/
def boosted (s : State) (p id : Nat) : Bool := s.boosts.any fun b => b.part = p && b.task = id

/-- The core cycles for which a cask's oldest record has been its oldest. -/
def caskAge (k : Core) (v : Cask) : Nat := k.cycles - v.since

/-- Whether a cask is to launch a group (13 R305). -/
def caskDue (s : State) (k : Core) (v : Cask) : Bool :=
  let l := launchOf s v.launch
  decide (l.rc.w ≤ v.recs.length) || decide (l.rc.age ≤ caskAge k v) || decide (0 < v.stolen) || v.recs.any fun r => boosted s l.part r.task

/-- The place among a partition's boosts of the first that names one of some tasks (13 R310). -/
def boostPlace (s : State) (p : Nat) (names : Nat → Bool) : Option Nat :=
  (List.range s.boosts.length).find? fun i => match s.boosts[i]? with
    | some b => b.part = p && names b.task
    | none => false

/-- The first boost that names a task of a group, in the order in which boosts were made (13 R310). -/
def boostRank (s : State) (g : Group) : Option Nat := boostPlace s (groupPart s g) (holdsTask g)

/-- The first boost that names a task of a cask's records. -/
def caskBoost (s : State) (v : Cask) : Option Nat := boostPlace s (launchOf s v.launch).part fun id => v.recs.any fun r => r.task = id

/-- Whether an owner boosted before boost `n` of a partition could be served now: a cask that its core can launch, or a group
parked by `PARK` that may be placed (13 R310). -/
def boostBefore (s : State) (p n : Nat) : Bool :=
  let early (r : Option Nat) : Bool := match r with
    | some i => decide (i < n)
    | none => false
  (s.cores.any fun (c, k) => k.casks.any fun (_, v) =>
      (launchOf s v.launch).part = p && early (caskBoost s v) && !coreShut s p c && (groupFits s c (launchOf s v.launch).rc).isSome)
    || s.groups.any fun (_, g) => groupPart s g = p && g.outer.isNone && early (boostRank s g) && wakeReady s g && (match g.run with
      | .out _ => (partOf s p).cores.any fun c => !coreShut s p c && ((teamOf s g.team).cask || teamHome s g c)
          && (groupFits s c (groupLaunch s g).rc).isSome
      | _ => false)

/-- Whether a cask that only its boost makes due waits for an owner boosted earlier (13 R310). -/
def boostWaits (s : State) (k : Core) (v : Cask) : Bool :=
  let l := launchOf s v.launch
  if decide (l.rc.w ≤ v.recs.length) || decide (l.rc.age ≤ caskAge k v) || decide (0 < v.stolen) then false
  else match caskBoost s v with
    | some n => boostBefore s l.part n
    | none => false

/-- Launch a group from the oldest records of a cask (13 R305, R306), if the core can take one. -/
def launchCask (s : State) (c i : Nat) (v : Cask) : Option State :=
  let l := launchOf s v.launch
  if coreShut s l.part c then none
  else match groupFits s c l.rc with
  | none => none
  | some x =>
    let took := v.recs.take l.rc.w
    some (formRecords (caskLeave s c i v (v.recs.drop l.rc.w)) c x v.launch took none 0).2

/-- `CASK_LAUNCH` (13 R305). -/
def execCaskLaunch (s : State) : Host.Outcome State Fault Refusal :=
  let c := s.subj.core
  match find (coreOf s c).casks s.subj.cask with
  | none => notNow "CASK_LAUNCH"
  | some v => if !caskDue s (coreOf s c) v || boostWaits s (coreOf s c) v then notNow "CASK_LAUNCH"
    else match launchCask s c s.subj.cask v with
      | some s => .next s
      | none => notNow "CASK_LAUNCH"

/-- `CASK_AGE_EXPIRY` (13 R305): the cask is to launch, whatever it holds. -/
def execCaskAgeExpiry (s : State) : Host.Outcome State Fault Refusal :=
  let c := s.subj.core
  match find (coreOf s c).casks s.subj.cask with
  | none => notNow "CASK_AGE_EXPIRY"
  | some v => if (launchOf s v.launch).rc.age ≤ caskAge (coreOf s c) v then
      .next (send s .caskLaunch { core := c, cask := s.subj.cask })
    else notNow "CASK_AGE_EXPIRY"

/-- The lowest-numbered core of a partition's die that can take a record from the overflow area (13 R304). -/
def ringTaker (s : State) (p d : Nat) (r : SpawnRec) : Option (Nat × Nat × Cask) :=
  ((List.range 64).map (64 * d + ·)).findSome? fun c =>
    if (partOf s p).cores.contains c then (caskRoom (coreOf s c) r.launch r.entry).map fun x => (c, x) else none

/-- The oldest record of an overflow area that some cask can take. -/
def ringMove (s : State) (p d : Nat) : Option (SpawnRec × Nat × Nat × Cask) :=
  (look (partOf s p).ov d []).findSome? fun r => (ringTaker s p d r).map fun x => (r, x)

/-- `OVERFLOW_MOVE` (13 R304). -/
def execOverflowMove (s : State) : Host.Outcome State Fault Refusal :=
  let p := s.subj.part
  let d := s.subj.die
  match ringMove s p d with
  | none => notNow "OVERFLOW_MOVE"
  | some (r, c, i, v) =>
    .next (caskPut (modPart s p fun x => { x with ov := put x.ov d ((look x.ov d []).filter fun y => y != r) }) c i v [r])

/-- The cask with the most records on any core of a partition's die, the lowest core and then the lowest cask on a tie
(13 R308). -/
def mostFull (s : State) (p d : Nat) : Option (Nat × Nat × Cask) :=
  (((List.range 64).map (64 * d + ·)).filter (partOf s p).cores.contains).foldl (fun b c =>
    (coreOf s c).casks.foldl (fun b (i, v) => match b with
      | some (_, _, u) => if u.recs.length < v.recs.length then some (c, i, v) else b
      | none => some (c, i, v)) b) none

/-- Whether a core steals (13 R308). -/
def stealsNow (s : State) (c : Nat) : Bool :=
  let k := coreOf s c
  decide (256 ≤ k.idle) && k.casks.isEmpty && !coreBusy s c

/-- `IDLE_STEAL` (13 R308): the stolen records enter a free cask of the core, which launches them as soon as the core can take a
group. -/
def execIdleSteal (s : State) : Host.Outcome State Fault Refusal :=
  let c := s.subj.core
  let p := partOfCore s c
  if !stealsNow s c then notNow "IDLE_STEAL"
  else match mostFull s p (dieOf c) with
    | none => notNow "IDLE_STEAL"
    | some (src, i, v) =>
      let n := ceilDiv v.recs.length 2
      let u : Cask := { launch := v.launch, entry := v.entry, since := (coreOf s c).cycles, stolen := n }
      .next (send (caskPut (caskLeave s src i v (v.recs.drop n)) c 0 u (v.recs.take n)) .caskLaunch { core := c, cask := 0 })

/-! ### Events of waits and of adopted work -/

/-- `ADOPTION_RETURN` (09 R235): an adopted group has retired, or has left its slot. -/
def execAdoptionReturn (s : State) : Host.Outcome State Fault Refusal :=
  match groupOf s s.subj.g with
  | none => notNow "ADOPTION_RETURN"
  | some g =>
    let gone := g.outer.isSome && (match g.run with
      | .retired | .out _ => true
      | _ => false)
    if gone then .next (returnHelper (setGroup s s.subj.g { g with outer := none, depth := 0 }) g) else notNow "ADOPTION_RETURN"

/-- The groups parked on a future whose word has changed. -/
def wakers (s : State) (pa : Nat) : List Nat :=
  (s.groups.filter fun g => match g.2.run with
    | .parked (.await a w) => a = pa && futWord s pa != w
    | _ => false).map (·.1)

/-- `FUTURE_WAKE` (09 R230, R234): the groups parked on a word that has changed execute `AWAIT` again; a group that named it as
its wake future may be placed (09 R236). -/
def execFutureWake (s : State) : Host.Outcome State Fault Refusal :=
  let pa := s.subj.pa
  let named := s.groups.filter fun g => g.2.run == .out (some pa)
  let ws := wakers s pa
  if ws.isEmpty && named.isEmpty then notNow "FUTURE_WAKE"
  else
    let s := each ws s unpark
    let s := { s with boosts := s.boosts.filter fun b => b.pa != pa || futWord s pa = b.word }
    .next (each named s fun s g => send s .teamPlacement { part := groupPart s g.2 })

/-- `SPAWN_OVERFLOW_RETRY` (13 R307): a `SPAWN` that waits for room in the overflow area goes on. -/
def execSpawnOverflowRetry (s : State) : Host.Outcome State Fault Refusal :=
  wakeEvent s "SPAWN_OVERFLOW_RETRY" fun w => match w with
    | .spawnRoom _ => true
    | _ => false

/-- The task event that happens where no choice is made. -/
def chooseTask (s : State) : Option Due :=
  let wake := s.groups.findSome? fun (_, g) => match g.run with
    | .parked (.await pa w) => if futWord s pa != w then some (⟨.futureWake, { pa := pa }⟩ : Due) else none
    | _ => none
  let launch := s.cores.findSome? fun (c, k) => k.casks.findSome? fun (i, v) =>
    if caskDue s k v && !boostWaits s k v && (groupFits s c (launchOf s v.launch).rc).isSome then some (⟨.caskLaunch, { core := c, cask := i }⟩ : Due) else none
  let move := s.parts.findSome? fun (p, v) => v.ov.findSome? fun (d, _) =>
    if (ringMove s p d).isSome then some (⟨.overflowMove, { part := p, die := d }⟩ : Due) else none
  match wake, launch, move with
  | some d, _, _ => some d
  | none, some d, _ => some d
  | none, none, some d => some d
  | none, none, none => none

end Sys2Proof.Machine
end

