-- ==== Sys2Proof/Machine/Launch.lean ====
section
/-! DEFINITION. Launch records and queues: how the command processor reads and writes a function's memory, the checks of a
record, doorbells, the taking of records, and the completion of a launch (19 R329 to R334, 17 R325). -/

namespace Sys2Proof.Machine

/-! ### Accesses of the command processor -/

/-- One line's bytes of an access of the command processor: line, key slot, first byte, length. -/
abbrev Span := Nat × Nat × Nat × Nat

/-- Check and translate an access of the command processor in a function's address space (19 R334): its pieces by line, or
none where a check fails. -/
def cpSpans (s : State) (vf part va n : Nat) (need : Need) : Option (List Span) :=
  let f := look s.vfs vf {}
  (lineCuts va n).foldl (fun acc (a, m) => match acc, f.root with
    | some l, some root => match walk s root f.asid a with
      | .error _ => none
      | .ok leaf =>
        let pa := leafPa leaf a
        let la := pa / 128
        if (permCause s (partOf s part) vf leaf need la).isSome || lineBad s la then none
        else some (l ++ [(la, leaf.slot, pa % 128, m)])
    | _, _ => none) (some [])

/-- Whether the homes of an access's lines are ready. -/
def spansReady (s : State) (l : List Span) : Bool := l.all fun x => lineReady s x.1

/-- The bytes of an access. -/
def spansRead (s : State) : List Span → List Byte × State
  | [] => ([], s)
  | (la, slot, lo, n) :: l =>
    let (d, s) := readAtHome s la slot
    let (bs, s) := spansRead s l
    (lineBytes d lo n ++ bs, s)

/-- Write the bytes of an access, with the vintage of the host link (12 R301). -/
def spansWrite (s : State) (l : List Span) (bs : List Byte) : State :=
  (l.foldl (fun (bs, s) (la, slot, lo, n) =>
    let data := placeBytes lo (bs.take n)
    let mask := maskBytes lo n
    (bs.drop n, writeAtHome s la slot data mask 0)) (bs, s)).2

/-- The number in bytes `lo` to `lo + n - 1` of a record. -/
def field (bs : List Byte) (lo n : Nat) : Nat := leNat ((bs.drop lo).take n)

/-- Bytes `lo` to `lo + n - 1` of the management request being performed (21 R374). -/
def req (s : State) (lo n : Nat) : Nat := field s.mgmt.cur lo n

/-! ### The launch record -/

/-- The fields of a launch record (19 R329). -/
def parseRec (bs : List Byte) : Rec :=
  let team := field bs 35 1
  let flags := field bs 39 1
  { entry := .ofNat 64 (field bs 0 8), arg := .ofNat 64 (field bs 8 8), compl := .ofNat 64 (field bs 16 8)
    grid := field bs 24 4 + 1, scratch := field bs 28 4, pocket := field bs 32 2
    w := 16 * 2 ^ (field bs 34 1 % 4), team := team % 32, pair := team.testBit 7, regs := field bs 36 1
    cls := field bs 37 1 % 4, blocks := field bs 38 1, region := flags.testBit 0, tas := flags.testBit 1
    tile := flags.testBit 2, ordered := flags.testBit 3, coop := field bs 40 2, age := field bs 44 4
    fmts := (List.range 8).map fun i => field bs (128 + 16 * i) 16 }

/-- Whether a format slot is one the command processor accepts (04 R79, R80). -/
def slotLegal (v : Nat) : Bool :=
  let e := efmtOf v
  let sb := e == 1 || e == 2 || e == 3
  bits v 127 80 = 0 && bits v 63 50 = 0 && bits v 31 24 = 0 && bits v 7 5 = 0 && decide (e ≤ 8) && spolOf v != 3
    && (if splitOf v then sb && decide (2 ≤ sstrideOf v) else sstrideOf v = 0) && (e != 0 || v = 0)

/-- The offsets that the failing checks of a launch record name (19 R330). -/
def recBad (bs : List Byte) : List Nat :=
  let r := parseRec bs
  let bad (off : Nat) (b : Bool) : List Nat := if b then [off] else []
  let zeros (lo n : Nat) : List Nat := (List.range n).filterMap fun i => if bs.getD (lo + i) 0 = 0 then none else some (lo + i)
  let team := field bs 35 1
  bad 0 (bits r.entry.toNat 63 56 != 0 || r.entry.toNat % 8 != 0)
    ++ bad 16 (bits r.compl.toNat 63 56 != 0 || r.compl.toNat % 64 != 0)
    ++ bad 28 (r.scratch % 128 != 0 || decide (1048576 < r.scratch))
    ++ bad 32 (r.pocket % 16 != 0 || decide (4096 / (if field bs 34 1 ≤ 2 then r.w else 16) < r.pocket))
    ++ bad 34 (decide (2 < field bs 34 1))
    ++ bad 35 (r.team = 0 || decide (16 < r.team) || bits team 6 5 != 0)
    ++ bad 36 (r.regs = 0 || decide (64 < r.regs))
    ++ bad 37 (field bs 37 1 / 4 != 0)
    ++ bad 38 (decide (10 < r.blocks) || decide (r.blocks < ceilDiv (ceilDiv r.scratch 4096) 32))
    ++ bad 39 (field bs 39 1 / 16 != 0 || (r.tile && !r.tas))
    ++ bad 40 (decide (256 < r.coop) || decide (r.grid * (if r.pair then 2 else 1) < r.coop))
    ++ zeros 42 2
    ++ bad 44 (decide (r.age < 256) || decide (65536 < r.age))
    ++ zeros 48 80
    ++ ((List.range 8).map fun i => bad (128 + 16 * i) (!slotLegal (r.fmts.getD i 0))).flatten

/-- The least number of a list. -/
def least (l : List Nat) : Option Nat := match l with
  | [] => none
  | x :: xs => some (xs.foldl min x)

/-! ### Queues -/

/-- A queue of a function. -/
def queueOf (s : State) (vf q : Nat) : Option Queue := find (look s.vfs vf {}).queues q

/-- Change a queue. -/
def modQueue (s : State) (vf q : Nat) (f : Queue → Queue) : State :=
  match queueOf s vf q with
  | some v =>
    let x := look s.vfs vf {}
    { s with vfs := put s.vfs vf { x with queues := put x.queues q (f v) } }
  | none => s

/-- A queue's report word (19 R332). -/
def reportWord (v : Queue) : Nat :=
  v.head % 2 ^ 32 + v.rejects % 2 ^ 16 * 2 ^ 32 + v.unwritten % 2 ^ 15 * 2 ^ 48 + (if v.overrun then 2 ^ 63 else 0)

/-- Write a queue's report word; where the address does not serve, nothing is written (log entry 34). -/
def writeReport (s : State) (vf q : Nat) : State :=
  match queueOf s vf q with
  | none => s
  | some v => match cpSpans s vf v.part v.report 8 .write with
    | some l => spansWrite s l (leBytes 8 (reportWord v))
    | none => s

/-- `CREATE_QUEUE` (19 R332): a descriptor that breaks a limit changes nothing. -/
def execCreateQueue (vf q : Nat) (desc : List Byte) (s : State) : Host.Outcome State Fault Refusal :=
  let zero (lo n : Nat) : Bool := field desc lo n = 0
  let log := field desc 8 1
  let ok := decide (vf < 128) && decide (q < 16) && desc.length = 64 && field desc 0 8 % 256 = 0 && decide (4 ≤ log)
    && decide (log ≤ 16) && decide (field desc 9 1 < 64) && decide (field desc 10 1 < 128) && zero 11 5
    && field desc 16 8 % 8 = 0 && zero 24 40
  if !ok then .next s
  else
    let x := look s.vfs vf {}
    let v : Queue := { base := field desc 0 8, log := log, part := field desc 9 1, tenant := field desc 10 1
                       report := field desc 16 8 }
    .next { s with vfs := put s.vfs vf { x with queues := put x.queues q v } }

/-- `QUEUE_DOORBELL` (19 R332): the new tail, or, where it is too far ahead, bit 63 of the report word. A doorbell with no
queue behind it has no effect. Functions are exposed once boot is over (21 R377). -/
def execQueueDoorbell (vf q : Nat) (tail : Word) (s : State) : Host.Outcome State Fault Refusal :=
  if s.boot.stage ≠ 5 then notNow "QUEUE_DOORBELL"
  else match queueOf s vf q with
  | none => .next s
  | some v =>
    let t := tail.toNat % 2 ^ 32
    if 2 ^ v.log < (t + 2 ^ 32 - v.head) % 2 ^ 32 then .next (writeReport (modQueue s vf q fun v => { v with overrun := true }) vf q)
    else .next (send (modQueue s vf q fun v => { v with tail := t }) .launchRecordTake { vf := vf, q := q })

/-- The queues of a partition that hold records, by function and number. -/
def fullQueues (s : State) (p : Nat) : List (Nat × Nat) :=
  (s.vfs.map fun (vf, f) => (f.queues.filter fun (_, v) => v.part = p && v.head != v.tail).map fun (q, _) => (vf, q)).flatten

/-- The queue of a partition whose turn it is (19 R333): the next after the one served last. -/
def turnQueue (s : State) (p : Nat) : Option (Nat × Nat) :=
  let l := fullQueues s p
  match l.find? fun x => decide ((partOf s p).turn ≤ 16 * x.1 + x.2) with
  | some x => some x
  | none => l.head?

/-- The launches of a partition that have not completed. -/
def liveLaunches (s : State) (p : Nat) : List (Nat × Launch) := s.launches.filter fun l => l.2.part = p && !l.2.done

/-- The lowest launch slot of a partition that no launch holds (19 R331). -/
def freeSlot (s : State) (p : Nat) : Option Nat :=
  (List.range 1024).find? fun i => !(liveLaunches s p).any fun l => l.2.slot = i

/-- Write a 64-byte completion record; where it cannot be written, the queue's count of such records rises (19 R334). -/
def writeCompletion (s : State) (vf q part : Nat) (addr : Word) (bs : List Byte) : State :=
  if addr = 0 then s
  else match cpSpans s vf part addr.toNat 64 .write with
    | some l => spansWrite s l bs
    | none => writeReport (modQueue s vf q fun v => { v with unwritten := (v.unwritten + 1) % 2 ^ 15 }) vf q

/-- The completion record of a rejected record (19 R330, R334). -/
def rejectBytes (off : Nat) : List Byte := record 64 [(0, 2, 1), (2, 2, off)]

/-- Drop a partition's constant copies, which no later launch may read (07 R164). -/
def dropConstants (s : State) (p : Nat) : State :=
  each (partOf s p).cores s fun s c => modCore s c fun k => if k.near.any fun n => n.2.st == .constant then
    { k with near := k.near.filter fun n => n.2.st != .constant } else k

/-- `LAUNCH_RECORD_TAKE` (19 R330, R331, R333): while a launch slot is free, the record at a queue's head is copied and
checked; it is rejected, or becomes a launch in the lowest free slot. A launch reads no constant copy from before its
acceptance (07 R164). -/
def execLaunchRecordTake (s : State) : Host.Outcome State Fault Refusal :=
  let vf := s.subj.vf
  let q := s.subj.q
  match queueOf s vf q with
  | none => notNow "LAUNCH_RECORD_TAKE"
  | some v =>
    match freeSlot s v.part, find s.parts v.part, cpSpans s vf v.part (v.base + 256 * (v.head % 2 ^ v.log)) 256 .read with
    | some slot, some _, some l =>
      if turnQueue s v.part != some (vf, q) || !spansReady s l then notNow "LAUNCH_RECORD_TAKE"
      else
        let (bs, s) := spansRead s l
        let r := parseRec bs
        let bads := recBad bs
        let took (s : State) : State :=
          let s := modPart (modQueue s vf q fun v => { v with head := (v.head + 1) % 2 ^ 32 }) v.part fun p =>
            { p with turn := 16 * vf + q + 1 }
          let s := writeReport s vf q
          send s .launchRecordTake (match turnQueue s v.part with
            | some (a, b) => { vf := a, q := b }
            | none => { vf := vf, q := q })
        match least bads with
        | some off =>
          if bads.contains 16 || r.compl = 0 then
            .next (took (modQueue s vf q fun v => { v with rejects := (v.rejects + 1) % 2 ^ 16 }))
          else .next (took (writeCompletion s vf q v.part r.compl (rejectBytes off)))
        | none =>
          let (id, s) := newId (dropConstants s v.part)
          let x : Launch := { part := v.part, slot := slot, vf := vf, q := q, tenant := v.tenant, rc := r, accepted := s.accepted }
          let s := { s with launches := put s.launches id x, accepted := s.accepted + 1 }
          .next (send (took s) .teamPlacement { part := v.part })
    | _, _, _ => notNow "LAUNCH_RECORD_TAKE"

/-! ### Completion -/

/-- The teams of a launch. -/
def teamsOf (s : State) (l : Nat) : List (Nat × Team) := s.teams.filter fun t => t.2.launch = l

/-- Whether every part of a launch has ended (17 R325, 10 R259): its teams, the groups launched from its records, its records
and its commands. -/
def launchOver (s : State) (id : Nat) (l : Launch) : Bool :=
  (l.killed || decide (l.rc.grid ≤ l.next))
    && (teamsOf s id).all (fun t => (t.2.st == .retired || t.2.st == .killed) && t.2.granules.isEmpty && !t.2.tas)
    && s.groups.all (fun g => launchIdOf s g.2 != id || g.2.run == .retired)
    && !(recordsOf s l.part).any (fun r => r.launch = id)
    && s.cmds.all fun c => c.2.launch != id

/-- The reports of a launch's teams (19 R334): those killed, then those with an engine fault that no `WAITE` collected. -/
def launchReports (s : State) (id : Nat) (l : Launch) : List (Nat × Nat × Nat × Word) :=
  l.reports ++ (teamsOf s id).filterMap fun (_, t) => match t.posted with
    | (_, _, k, a) :: _ => if t.st == .killed then none else some (t.num, 0x21, k, a)
    | [] => none

/-- The completion record of a launch (19 R334). -/
def completionBytes (s : State) (id : Nat) (l : Launch) : List Byte :=
  let rs := launchReports s id l
  let status := if l.cancelled then 2 else if l.killed then 4 else if rs.isEmpty then 0 else 3
  let first := rs.headD (0, 0, 0, 0)
  record 64 [(0, 2, status), (2, 2, 0xFFFF), (4, 4, rs.length), (8, 4, first.1), (12, 1, first.2.1), (13, 1, first.2.2.1),
    (16, 8, first.2.2.2.toNat), (24, 8, l.tokens), (32, 2, l.slot)]

/-- The lines of a core that are dirty under lazy release. -/
def lazyLines (s : State) (c : Nat) : List Nat := ((coreOf s c).near.filter fun n => n.2.st == .dirty).map (·.1)

/-- Whether those lines can be written back at once. -/
def canClean (s : State) (c : Nat) : Bool := coreQuiet s c && (lazyLines s c).all fun la => lineReady s la

/-- Write back at once what some cores hold dirty under lazy release; exclusive lines stay as they are (18 R328). -/
def cleanCores (s : State) (cs : List Nat) : State := each cs s fun s c => (drainLines s c (lazyLines s c)).2

end Sys2Proof.Machine
end

