-- ==== Sys2Proof/Machine/Place.lean ====
section
/-! DEFINITION. Where teams and groups are placed: room on a core, the dispatch order, placements, designations, issue tokens
and the split of near SRAM (02 R26, R27, R45, 10 R249 to R260, 19 R335 to R342). -/

namespace Sys2Proof.Machine

/-! ### Room -/

/-- The granules of a core's scratch blocks that no team holds (10 R251, R252). -/
def freeGranules (s : State) (c : Nat) : List Nat :=
  let k := coreOf s c
  ((k.blocks.map fun b => (List.range 32).map (32 * b + ·)).flatten).filter fun g => (find k.granules g).isNone

/-- What a team asks of each core it is placed on: its launch, the groups that need a seat there by width and window, and
the granules. -/
structure Ask where
  launch : Nat
  groups : Nat
  granules : Nat
  tas : Bool
  deriving DecidableEq, Repr

/-- Whether a core is open to a team of a launch (19 R336, R337, R346). -/
def coreOpen (s : State) (p launch c : Nat) : Bool :=
  let v := partOf s p
  v.cores.contains c && !coreShut s p c && (match v.designated with
    | some (d, l, _) => l = launch || !(d = c || ((launchOf s l).rc.pair && d + 1 = c))
    | none => true)

/-- Try to seat `n` groups of a launch's shape on a core, one after another: their first slots (02 R27, R45, 10 R249). -/
def seatsFor (s : State) (c : Nat) (r : Rec) : Nat → Option (List Nat)
  | 0 => some []
  | n + 1 => match groupFits s c r with
    | none => none
    | some x =>
      let ghost : Group := { w := r.w, core := c, slot0 := x, win := r.pocket }
      let (id, s) := newId s
      let (t, s) := newId s
      let (l, s) := newId s
      let s := { s with launches := put s.launches l { rc := r } }
      let s := modTeam s t fun _ => { launch := l }
      (seatsFor (setGroup s id { ghost with team := t }) c r n).map (x :: ·)

/-- Whether a core has what a team asks of it: the seats it would take (19 R336). A team that needs more granules than the
core's target split provides is not placed there (10 R252). -/
def askFits (s : State) (p c : Nat) (a : Ask) : Option (List Nat) :=
  if !coreOpen s p a.launch c then none
  else if (freeGranules s c).length < a.granules || 32 * (coreOf s c).target < a.granules || (a.tas && (coreOf s c).tasBy.isSome) then none
  else seatsFor s c (launchOf s a.launch).rc a.groups

/-- What a team of a launch asks of a core when it seats that many groups there. -/
def askOf (r : Rec) (launch n : Nat) (cask : Bool) : Ask :=
  { launch := launch, groups := n, granules := if cask then 0 else ceilDiv r.scratch 4096, tas := r.tas && !cask }

/-- How many of a team's groups run on core `j` of its pair (02 R26). -/
def groupsAt (gids : List Nat) (pair : Bool) (j : Nat) : Nat := if pair then (gids.filter fun g => g % 2 = j).length else gids.length

/-- The seats a team would take on a core, or on a pair of cores, by group (02 R26, R27). -/
def teamFits (s : State) (p c launch : Nat) (gids : List Nat) (cask : Bool) : Option (List (Nat × Nat × Nat)) :=
  let r := (launchOf s launch).rc
  let pair := r.pair && !cask
  let on (j : Nat) : Option (List (Nat × Nat × Nat)) :=
    let mine := if pair then gids.filter fun g => g % 2 = j else gids
    (askFits s p (c + j) (askOf r launch (groupsAt gids pair j) cask)).map fun xs =>
      (List.range mine.length).map fun i => (mine.getD i 0, c + j, xs.getD i 0)
  if pair then
    if c % 2 ≠ 0 then none else match on 0, on 1 with
      | some a, some b => some (a ++ b)
      | _, _ => none
  else on 0

/-- The resident groups of a core, or of both cores of a pair (19 R336). -/
def crowd (s : State) (c : Nat) (pair : Bool) : Nat := (seats s c).length + (if pair then (seats s (c + 1)).length else 0)

/-- Put a core into a list in the order of choice: fewest resident groups first, then the lowest number. -/
def insertCore (s : State) (pair : Bool) (x : Nat × List (Nat × Nat × Nat)) :
    List (Nat × List (Nat × Nat × Nat)) → List (Nat × List (Nat × Nat × Nat))
  | [] => [x]
  | y :: ys => if crowd s x.1 pair < crowd s y.1 pair then x :: y :: ys else y :: insertCore s pair x ys

/-- The cores a team fits with its seats there, in the order in which one is chosen (19 R336). -/
def fitCores (s : State) (p launch : Nat) (gids : List Nat) (cask : Bool) : List (Nat × List (Nat × Nat × Nat)) :=
  let pair := (launchOf s launch).rc.pair && !cask
  (((List.range 256).filter (partOf s p).cores.contains).filterMap fun c => (teamFits s p c launch gids cask).map fun x => (c, x)).foldl
    (fun l x => insertCore s pair x l) []

/-- The core a team is placed on: of those it fits, the one with the fewest resident groups, then the lowest (19 R336). -/
def bestCore (s : State) (p launch : Nat) (gids : List Nat) (cask : Bool) : Option (Nat × List (Nat × Nat × Nat)) :=
  (fitCores s p launch gids cask).head?

/-! ### The dispatch order -/

/-- What waits for placement: the next team of a launch, a team that was saved or is to run again, a group that left its
slot, or the teams of a cooperative launch, all at once. -/
inductive Item where
  | fresh (launch : Nat)
  | team (t : Nat)
  | group (h : Nat)
  | coop (launch : Nat)
  deriving DecidableEq, Repr

/-- A number for each team or group that an item stands for. -/
def Item.key (s : State) : Item → Nat
  | .fresh l => 4 * (l * 2 ^ 64 + (launchOf s l).next)
  | .team t => 4 * t + 1
  | .group h => 4 * h + 2
  | .coop l => 4 * l + 3

/-- Whether a launch may place teams yet: one with the ordered flag waits for every earlier launch of its queue
(19 R333). -/
def launchOpen (s : State) (l : Launch) : Bool :=
  !l.rc.ordered || s.launches.all fun x => x.2.done || !(x.2.vf = l.vf && x.2.q = l.q && decide (x.2.accepted < l.accepted))

/-- Whether a group waits to be placed: one parked by `PARK` whose wake future, if any, has ended, and one held for a fault
for which its partition names a handler (09 R236, 13 R311). -/
def groupWaits (s : State) (g : Group) : Bool :=
  g.outer.isNone && (match g.run with
    | .out _ => wakeReady s g && ((teamOf s g.team).cask || (teamOf s g.team).st == .resident)
    | .faultHeld => (match g.ctx.pending with
      | some r => (handlerOf (partOf s (groupPart s g)) r.code).isSome
      | none => false)
    | _ => false)

/-- Whether a team was saved for a live update that is not over: it comes back to the order with the last step (23 R407 step 7). -/
def updating (s : State) (t : Nat) : Bool := s.mgmt.busy && req s 0 2 == 0x30 && s.mgmt.list.contains t

/-- The items of a partition that wait for placement. -/
def waiting (s : State) (p : Nat) : List Item :=
  let ls := liveLaunches s p
  let fresh := (ls.filter fun (_, l) => l.rc.coop = 0 && !l.killed && decide (l.next < l.rc.grid) && launchOpen s l).map fun x => Item.fresh x.1
  let coop := (ls.filter fun (id, l) => l.rc.coop != 0 && !l.killed && !l.cancelled && launchOpen s l
    && (l.next = 0 || s.teams.any fun t => t.2.launch = id && t.2.st == .saved && !updating s t.1)).map fun x => Item.coop x.1
  let teams := (s.teams.filter fun t => (launchOf s t.2.launch).part = p && (match t.2.st with
    | .waiting => t.2.granules.isEmpty && !t.2.tas
    | .saved => ((launchOf s t.2.launch).rc.coop = 0 || t.2.cask) && !updating s t.1
    | _ => false)).map fun x => Item.team x.1
  let groups := (s.groups.filter fun g => groupPart s g.2 = p && groupWaits s g.2).map fun x => Item.group x.1
  fresh ++ coop ++ teams ++ groups

/-- The place of an item in the order (19 R336, 13 R310): boosted owners first, then by class, the launch's acceptance, and the
team's number. -/
def rank (s : State) (i : Item) : Nat × Nat × Nat × Nat :=
  let last := s.boosts.length
  match i with
  | .fresh l => (last, (launchOf s l).rc.cls, (launchOf s l).accepted, (launchOf s l).next)
  | .coop l => (last, (launchOf s l).rc.cls, (launchOf s l).accepted, 0)
  | .team t =>
    let tm := teamOf s t
    (last, (launchOf s tm.launch).rc.cls, (launchOf s tm.launch).accepted, tm.num)
  | .group h => match groupOf s h with
    | none => (last, 4, 0, 0)
    | some g => ((match g.run with
        | .out _ => (boostRank s g).getD last
        | _ => last), classOf s g, (groupLaunch s g).accepted, (teamOf s g.team).num)

/-- Whether one place comes before another. -/
def before (a b : Nat × Nat × Nat × Nat) : Bool :=
  if a.1 ≠ b.1 then decide (a.1 < b.1) else if a.2.1 ≠ b.2.1 then decide (a.2.1 < b.2.1)
  else if a.2.2.1 ≠ b.2.2.1 then decide (a.2.2.1 < b.2.2.1) else decide (a.2.2.2 < b.2.2.2)

/-- Put an item into an ordered list. -/
def insertItem (s : State) (i : Item) : List Item → List Item
  | [] => [i]
  | j :: js => if before (rank s i) (rank s j) then i :: j :: js else j :: insertItem s i js

/-- A partition's dispatch order (19 R336). -/
def order (s : State) (p : Nat) : List Item := (waiting s p).foldl (fun l i => insertItem s i l) []

/-! ### Placing -/

/-- Give a team its granules on a core, zero-filled as every byte of a new team's scratch is, and the accumulators
(10 R251, 08 R206). -/
def giveCore (s : State) (t c : Nat) (a : Ask) : State :=
  let gs := (freeGranules s c).take a.granules
  let s := wakeIsland s c
  let s := modCore s c fun k =>
    { k with granules := each gs k.granules fun m g => put m g t
             target := (launchOf s a.launch).rc.blocks
             tasBy := if a.tas then some t else k.tasBy
             tas := if a.tas then [] else k.tas
             tasFlags := if a.tas then [] else k.tasFlags }
  modTeam s t fun tm => { tm with granules := tm.granules ++ gs.map fun g => (c, g) }

/-- Give a team what it asks on its core, or on both cores of its pair. -/
def giveCores (s : State) (t c launch : Nat) (cask : Bool) : State :=
  let r := (launchOf s launch).rc
  let a := askOf r launch 0 cask
  let s := giveCore (modTeam s t fun tm => { tm with core := c, granules := [] }) t c a
  let s := if r.pair && !cask then giveCore s t (c + 1) a else s
  if a.tas then modTeam s t fun tm => { tm with tas := true } else s

/-- A designation ends when its team is placed (19 R337). -/
def endDesignation (s : State) (p launch num : Nat) : State :=
  modPart s p fun v => { v with designated := match v.designated with
    | some (c, l, n) => if l = launch && n = num then none else some (c, l, n)
    | none => none }

/-- The groups of a new or relaunched team, at their entries (01 R20, 20 R362). -/
def enterGroups (s : State) (t launch : Nat) (xs : List (Nat × Nat × Nat)) (entry : Nat → Word) : State :=
  let r := (launchOf s launch).rc
  let task := (teamOf s t).task
  each xs s fun s (gid, c, x) =>
    let e := entry gid
    let s := noteRan s launch c
    let (h, s) := addGroup s { team := t, gid := gid, w := r.w, core := c, slot0 := x, win := r.pocket
                               ctx := entryCtx e (fullMask r.w) r.arg (List.replicate r.w task) 0 64 r.cls e }
    modTeam s t fun tm => { tm with groups := tm.groups ++ [h] }

/-- Place the next team of a launch for the first time (19 R331, R336, 01 R23). -/
def placeFresh (s : State) (p launch c : Nat) (xs : List (Nat × Nat × Nat)) : State :=
  let l := launchOf s launch
  let (task, s) := takeTask (taskFuel s p) s p
  let (t, s) := newId s
  let s := modTeam s t fun _ => { launch := launch, num := l.next, core := c, pair := l.rc.pair, st := .resident, task := task }
  let s := giveCores s t c launch false
  let s := modLaunch s launch fun l => { l with next := l.next + 1 }
  endDesignation (enterGroups s t launch xs fun _ => l.rc.entry) p launch l.next

/-- Place a relaunched team (20 R362): its groups begin at their entry vectors. -/
def placeAgain (s : State) (p t c : Nat) (xs : List (Nat × Nat × Nat)) : State :=
  let tm := teamOf s t
  let old := tm.groups.filterMap (groupOf s)
  let s := modTeam s t fun tm => { tm with st := .resident, groups := [] }
  let s := giveCores s t c tm.launch tm.cask
  endDesignation (enterGroups s t tm.launch xs fun gid =>
    ((old.find? fun g => g.gid = gid).map (·.ctx.entry)).getD (launchOf s tm.launch).rc.entry) p tm.launch tm.num

/-- The groups of an adoption chain inwards from its outermost group. Fuel bounds it. -/
def chainFrom (fuel : Nat) (s : State) (h : Nat) : List Nat :=
  match fuel, groupOf s h with
  | fuel + 1, some g => match g.run with
    | .outer i => h :: chainFrom fuel s i
    | _ => [h]
  | _, _ => []

/-- The groups of a saved chain inwards from its outermost group. -/
def savedChain (fuel : Nat) (s : State) (h : Nat) : List Nat :=
  match fuel, groupOf s h with
  | fuel + 1, some g => match g.after with
    | .outer i => h :: savedChain fuel s i
    | _ => [h]
  | _, _ => []

/-- Restore a saved chain of groups into one slot (20 R353, 17 R323); `%region` of a context saved as a region restart, a shadow
included, is set to zero before the group issues (20 R352). -/
def restoreChain (s : State) (h c x : Nat) : State :=
  each (savedChain 6 s h) s fun s j => match groupOf s j with
    | none => s
    | some g =>
      let shut (y : Ctx) : Ctx := if inRegion y then { y with region := 0 } else y
      let s := seat s j { g with ctx := shut g.ctx, shadow := g.shadow.map shut, after := .ready } c x g.after
      if g.redo then replayWins (modGroup s j fun g => { g with redo := false }) j else s

/-- Restore a saved team (20 R350, R351, R357): scratch, accumulators, commands and groups. -/
def restoreTeam (s : State) (p t c : Nat) (xs : List (Nat × Nat × Nat)) : State :=
  let tm := teamOf s t
  let shift (k : Nat) : Nat := if tm.pair then c + (k - tm.core) else c
  let s := giveCores (modTeam s t fun tm => { tm with st := .resident, pool := [], posted := tm.posted.map fun (k, r) => (shift k, r) }) t c tm.launch tm.cask
  let s := if tm.tas then each (List.range tm.savedTas.length) (modTeam s t fun tm => { tm with savedTas := [] }) fun s j =>
      let (a, fl) := tm.savedTas.getD j ([], [])
      modCore s (c + j) fun k => { k with tas := a, tasFlags := fl }
    else s
  let s := each (s.cmds.filter fun x => x.2.team = t) s fun s (id, x) =>
    let k := shift x.core
    let s := modCmd s id fun x => { x with core := k }
    modCore s k fun v => { v with ec := setPad 0 v.ec x.ec (v.ec.getD x.ec 0 + 1), dep := v.dep ++ [id] }
  let cores := if tm.pair then [c, c + 1] else [c]
  let s := each cores s fun s k => modCore s k fun v => { v with ecRv := (List.range 4).map fun e => max (v.ecRv.getD e 0) (tm.ecRv.getD e 0) }
  let s := each xs s fun s (gid, k, x) =>
    match tm.groups.find? fun h => match groupOf s h with
      | some g => g.gid = gid && g.run == .saved && g.outer.isNone
      | none => false with
    | some h => restoreChain s h k x
    | none => s
  endDesignation s p tm.launch tm.num

/-- The groups of a team that a restore seats, by number; one that was saved in another's adoption chain is restored with that
(17 R323). -/
def seatGids (s : State) (t : Nat) : List Nat :=
  let tm := teamOf s t
  let ids := tm.groups.filterMap fun h => match groupOf s h with
    | some g => if g.run == .saved && g.outer.isNone then some g.gid else none
    | none => none
  (List.range 16).filter ids.contains

/-- Place a group again at the word after its `PARK`, or to run the handler of its fault or perform its instruction again
(09 R236, R228, 13 R311, 20 R360). -/
def placeGroup (s : State) (h : Nat) (g : Group) (c x : Nat) : State :=
  let p := groupPart s g
  let s := modTeam (seat s h g c x .ready) g.team fun tm => if tm.cask then { tm with core := c } else tm
  match g.run, g.ctx.pending with
  | .faultHeld, some r => deliver (modCtx s h fun y => { y with pending := none }) h r
  | _, _ =>
    let s := if g.redo then replayWins (modGroup s h fun g => { g with redo := false }) h else s
    each (tasksOf g.ctx g.ctx.live) s fun s id => futShift s p id [2] 1

/-- The cores a single group may be placed on: its team's own, or any core for a team formed from records (02 R26). -/
def groupCore (s : State) (p : Nat) (g : Group) : Option (Nat × Nat) :=
  let tm := teamOf s g.team
  let r := (launchOf s tm.launch).rc
  if tm.cask then (bestCore s p tm.launch [g.gid] true).map fun (c, xs) => (c, (xs.headD (0, 0, 0)).2.2)
  else
    let c := tm.core + (if tm.pair then g.gid % 2 else 0)
    if (partOf s p).closed.contains (dieOf c) || s.copying.contains (0, c) then none
    else (groupFits s c r).map fun x => (c, x)

/-- The groups of one team of a cooperative launch that are to be seated: a new team's, or a saved one's. -/
def coopGids (s : State) (launch : Nat) (t : Option Nat) : List Nat :=
  match t with
  | none => List.range (launchOf s launch).rc.team
  | some t => seatGids s t

/-- Place every team of a cooperative launch, one after another, on at least `c` distinct cores: the state, if all fit (19
R338). A team goes to a core not yet used where only that still reaches `c`; teams of different sizes try each core in turn,
like ones the first choice alone. -/
def placeCoop (s : State) (p launch c : Nat) (used : List Nat) : List (Option Nat) → Option State
  | [] => if c ≤ used.length then some s else none
  | t :: ts =>
    let per := if (launchOf s launch).rc.pair then 2 else 1
    let all := fitCores s p launch (coopGids s launch t) false
    let open_ := if used.length + per * ts.length < c then all.filter fun x => !used.contains x.1 else all
    let alike := ts.all fun u => coopGids s launch u == coopGids s launch t
    (if alike then open_.take 1 else open_).findSome? fun (k, xs) =>
      let s := match t with
        | none => placeFresh s p launch k xs
        | some t => restoreTeam s p t k xs
      placeCoop s p launch c ((used ++ xs.map fun x => x.2.1).eraseDups) ts

/-- Try to place an item. -/
def placeItem (s : State) (p : Nat) (i : Item) : Option State :=
  match i with
  | .fresh l => (bestCore s p l (List.range (launchOf s l).rc.team) false).map fun (c, xs) => placeFresh s p l c xs
  | .team t =>
    let tm := teamOf s t
    if tm.st == .saved then (bestCore s p tm.launch (seatGids s t) tm.cask).map fun (c, xs) => restoreTeam s p t c xs
    else (bestCore s p tm.launch (List.range (if tm.cask then 1 else (launchOf s tm.launch).rc.team)) tm.cask).map fun (c, xs) =>
      placeAgain s p t c xs
  | .group h => (groupOf s h).bind fun g =>
    if (match boostRank s g with
      | some n => boostBefore s p n
      | none => false) then none
    else (groupCore s p g).map fun (c, x) => placeGroup s h g c x
  | .coop l =>
    let lc := launchOf s l
    let ts : List (Option Nat) := if lc.next = 0 then List.replicate lc.rc.grid none
      else (s.teams.filter fun t => t.2.launch = l && t.2.st == .saved).map fun t => some t.1
    placeCoop s p l lc.rc.coop [] ts

/-- The first item of the order that can be placed, and the state with it placed. -/
def placeFirst (s : State) (p : Nat) (l : List Item) : Option State := l.findSome? (placeItem s p)

/-- The launch and number of the team an item stands for, and whether a cask formed it. -/
def itemTeam (s : State) (i : Item) : Option (Nat × Nat × Bool) :=
  match i with
  | .fresh l => some (l, (launchOf s l).next, false)
  | .coop l => some (l, 0, false)
  | .team t => some ((teamOf s t).launch, (teamOf s t).num, (teamOf s t).cask)
  | .group _ => none

/-- A core with its target split at a launch's block count, and its blocks as they would then stand, those with granules in
use kept. -/
def withSplit (s : State) (c blocks : Nat) : State :=
  modCore s c fun k =>
    let kept := k.blocks.filter fun b => k.granules.any fun g => g.1 / 32 = b
    let more := (List.range 12).filter fun b => !kept.contains b
    { k with target := blocks, blocks := kept ++ more.take (blocks - kept.length) }

/-- Designate a core for the first team in a partition's order (19 R337): one that it would fit if the split stood at its
launch's block count; that whose scratch blocks hold the fewest granules in use. A pair team's core stands for its pair. -/
def designate (s : State) (p : Nat) (i : Item) : Option State :=
  match itemTeam s i with
  | none => none
  | some (launch, num, cask) =>
    let r := (launchOf s launch).rc
    let v := partOf s p
    let gids := match i with
      | .team t => if (teamOf s t).st == .saved then seatGids s t else List.range r.team
      | _ => List.range r.team
    let both (c : Nat) : List Nat := if r.pair then [c, c + 1] else [c]
    let would (c : Nat) : Bool := (teamFits (each (both c) s fun s c => withSplit s c r.blocks) p c launch gids false).isSome
    let used (c : Nat) : Nat := ((both c).map fun c => (coreOf s c).granules.length).sum
    if v.designated.isSome || cask then none
    else (((List.range 256).filter fun c => v.cores.contains c && would c).foldl (fun (b : Option Nat) c => match b with
        | none => some c
        | some d => if used c < used d then some c else b) none).map fun c =>
      let s := each (both c) s fun s c =>
        send (send (modCore s c fun k => { k with target := r.blocks }) .splitScratchToCache { core := c }) .splitCacheToScratch { core := c }
      modPart s p fun v => { v with designated := some (c, launch, num) }

/-- Note which item is first, and since when (19 R336). -/
def noteFirst (s : State) (p : Nat) (l : List Item) : State :=
  let k := l.head?.map (Item.key s)
  modPart s p fun v => if v.firstTeam = k then v else { v with firstTeam := k, firstSince := s.sched, hold := false }

/-- Whether the first item has been first so long that no other is placed (19 R336). -/
def held (s : State) (p : Nat) : Bool :=
  let v := partOf s p
  v.hold || (v.firstTeam.isSome && decide (2 ^ 20 ≤ s.sched - v.firstSince))

/-- Tell a partition's cores of a placement or of a new target (10 R257). -/
def moveSplits (s : State) (p : Nat) : State :=
  each (partOf s p).cores s fun s c =>
    let k := coreOf s c
    if k.target < k.blocks.length then send s .splitScratchToCache { core := c }
    else if k.blocks.length < k.target then send s .splitCacheToScratch { core := c } else s

/-- What the dispatcher does next for a partition (19 R336 to R338): it designates a core for the first item where that fits
nowhere; otherwise it places the first that fits, of all, or of the first alone once that has been first so long. -/
def dispatch (s : State) (p : Nat) : Option State :=
  let l := order s p
  match l with
  | [] => none
  | i :: _ => match placeItem s p i with
    | some s => some s
    | none => match designate s p i with
      | some s => some s
      | none => if held s p then none else placeFirst s p l

/-- `TEAM_PLACEMENT` (19 R336 to R338). -/
def execTeamPlacement (s : State) : Host.Outcome State Fault Refusal :=
  let p := s.subj.part
  let s' := noteFirst s p (order s p)
  match dispatch s' p with
  | some t =>
    let t := moveSplits t p
    .next (send (noteFirst t p (order t p)) .teamPlacement { part := p })
  | none => if s' = s then notNow "TEAM_PLACEMENT" else .next s'

/-- `PLACEMENT_HOLD_EXPIRY` (19 R336): a team has been first for 2^20 scheduler-clock cycles. -/
def execPlacementHoldExpiry (s : State) : Host.Outcome State Fault Refusal :=
  let p := s.subj.part
  let v := partOf s p
  if v.firstTeam.isSome && 2 ^ 20 ≤ s.sched - v.firstSince && !v.hold then .next (modPart s p fun v => { v with hold := true })
  else notNow "PLACEMENT_HOLD_EXPIRY"

/-- `COOPERATIVE_CANCEL` (19 R338): a cooperative launch at the head of the order for which its partition holds too few
cores. -/
def execCooperativeCancel (s : State) : Host.Outcome State Fault Refusal :=
  let id := s.subj.launch
  match find s.launches id with
  | none => notNow "COOPERATIVE_CANCEL"
  | some l =>
    if (order s l.part).head? = some (.coop id) && l.next = 0 && (partOf s l.part).cores.length < l.rc.coop then
      .next (send (modLaunch s id fun l => { l with cancelled := true }) .launchCompletion { launch := id })
    else notNow "COOPERATIVE_CANCEL"

/-! ### A team's scratch and accumulators -/

/-- Whether a command reads or writes its team's scratch or accumulators (10 R259). -/
def usesTeam (c : Cmd) : Bool :=
  c.kind.tile || c.toScratch || (match c.kind with
    | .copy => inScratch (c.reg 1)
    | .lnest => inScratch (c.lnBase 0) || inScratch (c.lnBase 1) || inScratch (c.lnBase 2)
    | _ => false)

/-- Release a team's granules, each with a new generation, and its accumulators (10 R259, R260). -/
def freeTeam (s : State) (t : Nat) : State :=
  let tm := teamOf s t
  let s := each tm.granules s fun s (c, g) => modCore s c fun k =>
    { k with granules := del k.granules g, gens := put k.gens g (look k.gens g 0 + 1) }
  let cores := if tm.pair then [tm.core, tm.core + 1] else [tm.core]
  each cores s fun s c => modCore s c fun k => if k.tasBy = some t then { k with tasBy := none, tas := [], tasFlags := [] } else k

/-- `GRANULE_RELEASE` (10 R259, R260). -/
def execGranuleRelease (s : State) : Host.Outcome State Fault Refusal :=
  let t := s.subj.team
  let tm := teamOf s t
  let gone := match tm.st with
    | .retired | .killed | .waiting => true
    | _ => false
  if !gone || (tm.granules.isEmpty && !tm.tas) || (s.cmds.any fun c => c.2.team = t && usesTeam c.2) then notNow "GRANULE_RELEASE"
  else
    let p := (launchOf s tm.launch).part
    let s := modTeam (freeTeam s t) t fun tm => { tm with granules := [], tas := false, scratch := [], absent := [] }
    let s := send s .launchCompletion { launch := tm.launch }
    .next (moveSplits (send s .teamPlacement { part := p }) p)

/-! ### Tokens -/

/-- Pay the pooled repayments to the creditors, largest credit first (19 R341): the tenants with the credit paid to each. -/
def payOut (fuel pool : Nat) (ts : Tbl Tenant) (paid : Tbl Nat) : Tbl Nat :=
  match fuel with
  | 0 => paid
  | fuel + 1 =>
    match (ts.filter fun t => (find paid t.1).isNone && decide (0 < t.2.credit)).foldl (fun (b : Option (Nat × Tenant)) t => match b with
        | none => some t
        | some c => if c.2.credit < t.2.credit then some t else b) none with
    | none => paid
    | some (id, t) =>
      let q := min t.credit pool
      payOut fuel (pool - q) ts (put paid id q)

/-- What a tenant repays at a period start (19 R341). -/
def repays (t : Tenant) : Nat := min t.debt (t.budget / 2)

/-- A period starts for a partition (19 R339, R341). -/
def startPeriod (s : State) (p : Nat) : State :=
  let v := partOf s p
  let pool := (v.tenants.map fun t => repays t.2).sum
  let paid := payOut (v.tenants.length + 1) pool v.tenants []
  let s := each v.cores s fun s c => modCore s c fun k => { k with tokens := [] }
  modPart s p fun v => { v with
    period := v.period + 1
    tenants := v.tenants.map fun (id, t) =>
      let q := look paid id 0
      (id, { t with balance := t.budget - repays t + q, debt := t.debt - repays t, credit := t.credit - q, idle := 0 }) }

/-- `TOKEN_PERIOD_START` (19 R339). -/
def execTokenPeriodStart (s : State) : Host.Outcome State Fault Refusal :=
  let p := s.subj.part
  match find s.parts p with
  | none => notNow "TOKEN_PERIOD_START"
  | some v => if v.period ≤ s.sched / 2 ^ 20 then .next (startPeriod s p) else notNow "TOKEN_PERIOD_START"

/-- `TOKEN_GRANT_DRAW` (19 R340): a core that holds no tokens for a tenant draws or borrows a grant. -/
def execTokenGrantDraw (s : State) : Host.Outcome State Fault Refusal :=
  let c := s.subj.core
  let t := s.subj.tenant
  let s' := drawGrant s c t
  if look (coreOf s c).tokens t 0 = 0 && look (coreOf s' c).tokens t 0 ≠ 0 then .next s' else notNow "TOKEN_GRANT_DRAW"

/-- `TENANT_IDLE` (19 R341): a tenant has become one that lends: cores whose groups are held may borrow. -/
def execTenantIdle (s : State) : Host.Outcome State Fault Refusal :=
  let p := s.subj.part
  let x := look (partOf s p).tenants s.subj.tenant {}
  if x.idle < 2 ^ 14 || x.balance = 0 then notNow "TENANT_IDLE"
  else
    let stuck := (s.groups.filter fun g => groupPart s g.2 = p && look (coreOf s g.2.core).tokens (groupLaunch s g.2).tenant 0 = 0).map fun g =>
      (g.2.core, (groupLaunch s g.2).tenant)
    .next (each stuck.eraseDups s fun s (c, t) => send s .tokenGrantDraw { core := c, tenant := t })

/-! ### The split of near SRAM -/

/-- `SPLIT_SCRATCH_TO_CACHE` (10 R257): the first scratch block that no team holds becomes a near-cache block. -/
def execSplitScratchToCache (s : State) : Host.Outcome State Fault Refusal :=
  let c := s.subj.core
  let k := coreOf s c
  if k.moving.isSome || k.blocks.length ≤ k.target then notNow "SPLIT_SCRATCH_TO_CACHE"
  else match ((List.range 12).filter k.blocks.contains).find? fun b => !k.granules.any fun g => g.1 / 32 = b with
    | none => notNow "SPLIT_SCRATCH_TO_CACHE"
    | some b => .next (send (modCore s c fun k => { k with blocks := k.blocks.erase b }) .splitScratchToCache { core := c })

/-- Empty a near-cache block (10 R257): its pending lines first become dirty or doom their threads. -/
def emptyBlock (s : State) (c b : Nat) : State :=
  let s := each ((coreOf s c).pend.filter fun p => p.blk = b) s fun s p => yieldPend s p
  each (((coreOf s c).near.filter fun n => n.2.blk = b).map (·.1)) s fun s la => maintain s c la none true

/-- `SPLIT_CACHE_TO_SCRATCH` (10 R257): the highest-numbered near-cache block is emptied, and becomes scratch once every
write-back is acknowledged. -/
def execSplitCacheToScratch (s : State) : Host.Outcome State Fault Refusal :=
  let c := s.subj.core
  let k := coreOf s c
  match k.moving with
  | some b =>
    if coreQuiet s c then
      let s := modCore s c fun k => { k with moving := none, blocks := k.blocks ++ [b] }
      let s := send s .splitCacheToScratch { core := c }
      .next (send s .teamPlacement { part := partOfCore s c })
    else notNow "SPLIT_CACHE_TO_SCRATCH"
  | none =>
    if k.target ≤ k.blocks.length then notNow "SPLIT_CACHE_TO_SCRATCH"
    else match (List.range 12).reverse.find? fun b => !k.blocks.contains b with
      | none => notNow "SPLIT_CACHE_TO_SCRATCH"
      | some b =>
        let s := emptyBlock (modCore s c fun k => { k with moving := some b }) c b
        .next (send s .splitCacheToScratch { core := c })

/-- The dispatcher's event that happens where no choice is made. -/
def chooseLaunch (s : State) : Option Due :=
  s.parts.findSome? fun (p, v) =>
    if v.period ≤ s.sched / 2 ^ 20 then some ⟨.tokenPeriodStart, { part := p }⟩
    else match turnQueue s p with
      | some (vf, q) => some ⟨.launchRecordTake, { vf := vf, q := q }⟩
      | none => if (order s p).isEmpty then none
        else match (order s p).head? with
          | some (.coop l) => if v.cores.length < (launchOf s l).rc.coop && (launchOf s l).next = 0 then some ⟨.cooperativeCancel, { launch := l }⟩
            else if (dispatch (noteFirst s p (order s p)) p).isSome then some ⟨.teamPlacement, { part := p }⟩ else none
          | _ => if (dispatch (noteFirst s p (order s p)) p).isSome then some ⟨.teamPlacement, { part := p }⟩ else none

end Sys2Proof.Machine
end

