-- ==== Sys2Proof/Machine/Requests.lean ====
section
/-! DEFINITION. Management requests: their record, what every request checks, and the reply (21 R372, R374, 00 R6). -/

namespace Sys2Proof.Machine

/-- The partition a request names. -/
def reqPart (s : State) : Nat := req s 2 2

/-- Whether the request being performed has a code. -/
def asks (s : State) (code : Nat) : Bool := s.mgmt.busy && req s 0 2 == code

/-- The first nonzero operand byte that a code does not use (21 R374). -/
def strayByte (s : State) (used : List (Nat × Nat)) : Option Nat :=
  ((List.range 56).map (· + 8)).find? fun i => !(used.any fun u => decide (u.1 ≤ i) && decide (i < u.1 + u.2)) && req s i 1 != 0

/-- A reply before its fields are set: zeros; but where a lost slice or channel is to be reported, which the spec says of the
reply without saying how, its results are free values (23 R404, log entry 28). -/
def replyBase (s : State) : List Byte :=
  List.replicate 8 0 ++ (if s.mgmt.loss then ((List.range 7).map fun i => leBytes 8 (Config.freeValue (s.fresh + i)).toNat).flatten
    else List.replicate 56 0)

/-- The reply to the request being performed: status, reject offset and results; then vector 0 is raised, and the next request
may be taken (21 R374). -/
def answer (s : State) (status off : Nat) (fs : List (Nat × Nat × Nat)) : State :=
  let m := s.mgmt
  { s with
    fresh := if m.loss then s.fresh + 7 else s.fresh
    mgmt := { m with busy := false, late := false, loss := false, phase := 0, list := [], saved := []
                     reply := withFields (replyBase s) ([(0, 1, status), (1, 1, if m.late then 1 else 0), (2, 2, off), (4, 4, req s 4 4)] ++ fs) }
    msix := s.msix ++ [(none, 0)] }

/-- The request is done. -/
def answerDone (s : State) : State := answer s 0 0xFFFF []

/-- The request is rejected for the operand at an offset. -/
def reject (s : State) (off : Nat) : State := answer s 1 off []

/-- Perform a request of a code that uses given operand bytes (21 R374, 00 R6): `body` answers what it comes to. -/
def perform (s : State) (name : String) (code : Nat) (used : List (Nat × Nat)) (body : State → Host.Outcome State Fault Refusal) :
    Host.Outcome State Fault Refusal :=
  if !asks s code then notNow name
  else match strayByte s used with
    | some off => .next (reject s off)
    | none => body s

/-- Perform a request about a partition that exists. -/
def performPart (s : State) (name : String) (code : Nat) (used : List (Nat × Nat))
    (body : State → Nat → Partition → Host.Outcome State Fault Refusal) : Host.Outcome State Fault Refusal :=
  perform s name code used fun s => match find s.parts (reqPart s) with
    | some v => body s (reqPart s) v
    | none => .next (reject s 2)

/-- The lines of an access of the firmware to memory of slot 0. -/
def fwSpans (pa n : Nat) : List Span := (lineCuts pa n).map fun (a, m) => (a / 128, 0, a % 128, m)

/-- Read memory of slot 0 at the lines' homes for a request, once they are ready. -/
def withBytes (s : State) (name : String) (pa n : Nat) (body : List Byte → State → Host.Outcome State Fault Refusal) :
    Host.Outcome State Fault Refusal :=
  let l := fwSpans pa n
  if spansReady s l then
    let (bs, s) := spansRead s l
    body bs s
  else notNow name

/-- The event of each request's code (21 R374). -/
def requestEvent (code : Nat) : Instr :=
  match code with
  | 0x01 => .createPartition
  | 0x02 => .destroyPartition
  | 0x03 => .resizeRequest
  | 0x04 => .preEmpt
  | 0x05 => .resumeRequest
  | 0x06 => .killRequest
  | 0x07 => .queryRequest
  | 0x08 => .installHandlerTable
  | 0x09 => .registerContextPool
  | 0x0A => .setCommunicator
  | 0x0B => .invalidateTranslations
  | 0x0C => .setAddressSpace
  | 0x10 => .keyCreate
  | 0x11 => .keyBind
  | 0x12 => .keyUnbind
  | 0x13 => .keyDestroy
  | 0x20 => .readAttestationLog
  | 0x21 => .quote_
  | 0x30 => .firmwareUpdate
  | _ => .managementUnknownCode

/-- `MANAGEMENT_UNKNOWN_CODE` (21 R374). -/
def execManagementUnknownCode (s : State) : Host.Outcome State Fault Refusal :=
  if s.mgmt.busy && requestEvent (req s 0 2) == .managementUnknownCode then .next (answer s 2 0xFFFF [])
  else notNow "MANAGEMENT_UNKNOWN_CODE"

/-- `DOORBELL_WRITE_IGNORED` (21 R374): a doorbell write while a request is in progress. -/
def execDoorbellWriteIgnored (s : State) : Host.Outcome State Fault Refusal :=
  if s.mgmt.busy then .next { s with mgmt := { s.mgmt with late := true } } else notNow "DOORBELL_WRITE_IGNORED"

end Sys2Proof.Machine
end

