-- ==== Sys2Proof/Machine/Context.lean ====
section
/-! DEFINITION. What a save writes: a group's context record, a team's barrier state and accumulators, and the runs of the context
pool that hold them (20 R349, R350, R354 to R357). -/

namespace Sys2Proof.Machine

/-! ### The context record -/

/-- A group width's code (19 R329). -/
def widthCode (w : Nat) : Nat := if w = 16 then 0 else if w = 32 then 1 else 2

/-- The bytes of a split-stack entry (03 R55). -/
def entryBytes (e : SplitEntry) : List Byte :=
  record 48 [(0, 8, e.rpc.toNat), (8, 8, e.dpc.toNat), (16, 8, e.dmask.toNat), (24, 8, e.jmask.toNat), (32, 8, e.rmask.toNat), (40, 2, e.depth)]

/-- Bytes padded with zeros to a multiple. -/
def padTo (m : Nat) (bs : List Byte) : List Byte := bs ++ List.replicate (alignUp bs.length m - bs.length) 0

/-- A plane of a register's values. -/
def planeBytes (vs : List W32) : List Byte := (vs.map fun v => leBytes 4 v.toNat).flatten

/-- The values a result leaves in a register: those it writes, and in the other threads those the register holds. -/
def resultPlane (x : Ctx) (w : Nat) (v : Win) (r : Nat) : List W32 :=
  (List.range w).map fun t => match v.vals.find? fun z => !z.uni && z.reg = r && z.t = t with
    | some z => z.val.setWidth 32
    | none => readV x r t

/-- The value a result leaves in a uniform register. -/
def resultUni (x : Ctx) (v : Win) (r : Nat) : Word :=
  match v.vals.find? fun z => z.uni && z.reg = r with
  | some z => z.val
  | none => readS x r

/-- A window's record (20 R356). -/
def windowBytes (x : Ctx) (w : Nat) (v : Win) : List Byte :=
  let bad := v.fault.isSome
  let vr := if v.discarded then [] else v.vdst
  let ur := if v.discarded then [] else v.udst
  let planes := if bad then v.srcs else vr.map (resultPlane x w v)
  let unis := if bad then v.usrcs else ur.map (resultUni x v)
  let dst := match v.vdst, v.udst with
    | r :: _, _ => r
    | [], r :: _ => 128 + r
    | [], [] => 0
  padTo 16 (record 16 [(0, 1, if bad then 2 else 1), (1, 1, v.left), (2, 1, planes.length), (3, 1, unis.length), (4, 1, dst), (8, 8, v.pc.toNat)]
    ++ (planes.map planeBytes).flatten ++ (unis.map fun u => leBytes 8 u.toNat).flatten)

/-- The progress of a sink group that a fault of a thread running it in the core interrupted (20 R355, 07 R412). -/
def sinkProgress (x : Ctx) : Word × Word × Nat :=
  match x.sinks.find? fun k => k.2.core ≠ 0 with
  | some (_, k) => (k.core, k.unsent, k.idx)
  | none => (0, 0, 0)

/-- The context record of a context of a group (20 R354, R355): kind 1, in full, or kind 2, a region restart. -/
def ctxRecord (g : Group) (win : Nat) (x : Ctx) (kind : Nat := 1) : List Byte :=
  let ws := x.wins.filter fun v => !v.sink
  let (core, unsent, idx) := sinkProgress x
  let head := record 128 [(0, 2, kind), (2, 1, widthCode g.w), (3, 1, g.depth), (4, 1, x.stack.length), (5, 1, x.depth), (6, 1, ws.length),
    (7, 1, (x.barWait.map (128 + ·)).getD 0), (8, 8, x.pc.toNat), (16, 8, x.active.toNat), (24, 8, x.live.toNat),
    (32, 8, (x.v.map fun r => 2 ^ r.1).sum), (40, 8, x.fpflags), (48, 8, x.rv), (56, 8, x.region.toNat), (64, 8, x.allot + 256 * x.cls),
    (72, 8, x.entry.toNat), (80, 8, (x.tdep.getD 0 0).toNat), (88, 8, (x.tdep.getD 1 0).toNat), (96, 8, (x.tdep.getD 2 0).toNat),
    (104, 8, (x.tdep.getD 3 0).toNat), (112, 8, x.sinkrec0.toNat), (120, 8, x.sinkrec1.toNat)]
  let words (l : List Word) : List Byte := (l.map fun v => leBytes 8 v.toNat).flatten
  padTo 128 (head ++ words x.s ++ words (x.k.drop 1) ++ leBytes 8 x.spawnRem.toNat
    ++ leBytes 8 core.toNat ++ leBytes 8 unsent.toNat ++ leBytes 8 idx
    ++ (x.taskid.map (leBytes 4)).flatten ++ (x.stack.reverse.map entryBytes).flatten
    ++ (ws.map (windowBytes x g.w)).flatten
    ++ ((List.range g.w).map fun t => pocketRead x t 0 win).flatten
    ++ (x.v.map fun r => planeBytes r.2.vals).flatten)

/-! ### A saved team -/

/-- The context records of a saved group: of its context, and of one in its shadow; one with a region to restart is of kind 2
(20 R352). -/
def groupImage (s : State) (h : Nat) : List Byte :=
  match groupOf s h with
  | none => []
  | some g =>
    let one (x : Ctx) : List Byte := ctxRecord g (groupLaunch s g).rc.pocket x (if inRegion x then 2 else 1)
    one g.ctx ++ (g.shadow.map one).getD []

/-- A barrier's entry (20 R357). -/
def barWord (b : Bar) : Nat := (b.arrived.eraseDups.map fun g => 2 ^ g).sum + b.expected * 2 ^ 16 + (if b.every then 2 ^ 21 else 0)

/-- A team's barrier state, barrier 0 first (20 R357). -/
def barBytes (tm : Team) : List Byte := ((List.range 16).map fun b => leBytes 8 (barWord (look tm.bars b {}))).flatten

/-- The accumulators of one core, row by row (08 R206). -/
def tasBytes (t : Tbl W32) : List Byte := ((List.range 65536).map fun i => leBytes 4 (look t i 0).toNat).flatten

/-- What a save keeps of a team beside its groups: its scratch, its barrier state, and its accumulators if it has any
(20 R350 step 6). -/
def teamImage (s : State) (t : Nat) : List Byte :=
  let tm := teamOf s t
  let n := (launchOf s tm.launch).rc.scratch
  let cores := List.range (if tm.pair then 2 else 1)
  if tm.cask then barBytes tm
  else (cores.map fun j => scratchRead tm (j * 2 ^ 20) n).flatten ++ barBytes tm
    ++ (if tm.tas then (cores.map fun j => tasBytes (coreOf s (tm.core + j)).tas).flatten else [])

/-! ### The pool -/

/-- Put a run into a list in rising order. -/
def insertRun (x : Nat × Nat) : List (Nat × Nat) → List (Nat × Nat)
  | [] => [x]
  | y :: ys => if x.1 < y.1 then x :: y :: ys else y :: insertRun x ys

/-- The runs of bytes from `a` to `top` that rising runs leave free. -/
def gapsFrom (a top : Nat) : List (Nat × Nat) → List (Nat × Nat)
  | [] => if a < top then [(a, top - a)] else []
  | (b, n) :: t => (if a < b then [(a, b - a)] else []) ++ gapsFrom (b + n) top t

/-- The first `n` bytes of a list of runs. -/
def takeRuns (n : Nat) : List (Nat × Nat) → List (Nat × Nat)
  | [] => []
  | (a, m) :: t => if n = 0 then [] else (a, min m n) :: takeRuns (n - min m n) t

/-- The runs of a partition's context pool that its saved teams take. -/
def poolRuns (s : State) (p : Nat) : List (Nat × Nat) :=
  ((s.teams.filter fun t => (launchOf s t.2.launch).part = p).map fun t => t.2.pool).flatten.foldl (fun l x => insertRun x l) []

/-- The free runs of a partition's context pool. -/
def poolFree (s : State) (p : Nat) : List (Nat × Nat) :=
  let v := partOf s p
  gapsFrom v.pool (v.pool + v.poolLen) (poolRuns s p)

/-- Write a saved team's bytes into the lowest free bytes of its partition's context pool, in memory of slot 0 (20 R349);
which bytes of the pool they take, and their order, are log entry 40's. -/
def poolWrite (s : State) (t : Nat) (bs : List Byte) : State :=
  let runs := takeRuns bs.length (poolFree s (launchOf s (teamOf s t).launch).part)
  let s := modTeam s t fun tm => { tm with pool := runs }
  (runs.foldl (fun (bs, s) (a, n) => (bs.drop n, physWrite s a (bs.take n) 0 0)) (bs, s)).2

end Sys2Proof.Machine
end

