-- ==== Sys2Proof/Machine/Save.lean ====
section
/-! DEFINITION. Saving a team, killing one, the eviction of a team for registers, and the requests that ask for these or answer a
halted group (02 R46, 20 R349 to R362, 17 R323). -/

namespace Sys2Proof.Machine

/-! ### The size of what is saved -/

/-- The bytes of a window's record (20 R356). -/
def winBytes (w : Nat) (x : Win) : Nat :=
  let (p, u) := if x.fault.isSome then (x.srcs.length, x.usrcs.length) else if x.discarded then (0, 0) else (x.vdst.length, x.udst.length)
  16 + alignUp (4 * w * p + 8 * u) 16

/-- The bytes of a context record (20 R354, R355). -/
def ctxBytes (w win : Nat) (x : Ctx) : Nat :=
  alignUp (128 + 344 + 4 * w + 48 * x.stack.length + ((x.wins.filter fun v => !v.sink).map (winBytes w)).sum + w * win + 4 * w * x.v.length) 128

/-- The largest context record a group of a launch can have (23 R407 step 1). -/
def ctxMax (w win : Nat) : Nat := alignUp (128 + 344 + 4 * w + 48 * 64 + 32 * (16 + alignUp (4 * w * 16 + 8 * 4) 16) + w * win + 4 * w * 64) 128

/-- The bytes of a team's scratch on each of its cores, of its barrier state, and of its accumulators if it has any
(20 R350, R357). -/
def teamBytes (s : State) (t : Nat) : Nat :=
  let tm := teamOf s t
  let r := (launchOf s tm.launch).rc
  let n := if tm.pair then 2 else 1
  if tm.cask then 128 else n * r.scratch + 128 + (if tm.tas then n * 262144 else 0)

/-- The bytes of a group's saved contexts, its shadow's included. -/
def groupBytesNow (s : State) (h : Nat) : Nat :=
  match groupOf s h with
  | none => 0
  | some g =>
    let win := (groupLaunch s g).rc.pocket
    ctxBytes g.w win g.ctx + (g.shadow.map (ctxBytes g.w win)).getD 0

/-- The bytes of a partition's context pool that saved teams take (20 R349). -/
def poolUsed (s : State) (p : Nat) : Nat := ((poolRuns s p).map (·.2)).sum

/-- The most bytes a team's save can take (23 R407 step 1). -/
def teamMax (s : State) (t : Nat) : Nat :=
  teamBytes s t + (((teamOf s t).groups.filterMap (groupOf s)).map fun g =>
    (if g.shadow.isSome then 2 else 1) * ctxMax g.w (groupLaunch s g).rc.pocket).sum

/-- The bytes of a partition's pool that a live update in progress has reserved for teams it is still to save (23 R407). -/
def poolKept (s : State) (p : Nat) : Nat :=
  if s.mgmt.busy && req s 0 2 = 0x30 then
    ((s.mgmt.list.filter fun t => (teamOf s t).saving.isSome && (launchOf s (teamOf s t).launch).part = p).map (teamMax s)).sum
  else 0

/-! ### Saving -/

/-- Whether a group holds a slot, or runs in one. -/
def inSlot (g : Group) : Bool :=
  match g.run with
  | .ready | .parked _ | .outer _ | .halted => true
  | _ => false

/-- The groups a save of a team takes: each that holds a slot, and inwards of it what it adopted (20 R350, 17 R323). -/
def saveGroups (s : State) (t : Nat) : List Nat :=
  (((teamOf s t).groups.filter fun h => match groupOf s h with
    | some g => g.outer.isNone && inSlot g
    | none => false).map (chainFrom 6 s)).flatten

/-- Whether nothing of a group is outstanding: its long-latency operations, its sink groups, what it waits to have
acknowledged (20 R350 step 2), and the return of a group it adopted. -/
def groupQuiet (s : State) (h : Nat) : Bool :=
  match groupOf s h with
  | none => true
  | some g => settled g.ctx && !sinkRuns g.ctx && g.out.isEmpty && !siteInFlight s h && (match g.run with
    | .outer i => match groupOf s i with
      | some x => inSlot x
      | none => true
    | _ => true)

/-- Whether a team's commands let it be saved: each waits in the dependency table, or is a product that can stop at its next
block (20 R351). -/
def cmdsQuiet (s : State) (t : Nat) : Bool :=
  s.cmds.all fun (_, c) => c.team != t || (c.kind.tile && c.st == .waiting) || (c.kind == .tmma && c.st == .running)

/-- The address of the `REGION` word of an open region (02 R39). -/
def regionPc (x : Ctx) : Word := .ofNat 64 (bits x.region.toNat 55 3 * 8)

/-- A context as a region restart saves it (20 R352). -/
def restartCtx (x : Ctx) : Ctx :=
  if inRegion x then match x.ckpt with
    | some c => { x with v := c.v, s := c.s, k := c.k, fpflags := c.fpflags, active := c.active, depth := c.depth, stack := []
                         wins := [], sinks := [], pending := none, spawnRem := 0, pc := regionPc x }
    | none => x
  else x

/-- The physical registers that a region restart gives up: those mapped since `REGION` (02 R42, 09 R240, 20 R352). -/
def restartGone (x : Ctx) : List Nat :=
  let kept := (restartCtx x).v.map fun r => r.2.pid
  (x.v.map fun r => r.2.pid).filter fun p => !kept.contains p

/-- Restart the open regions of a group: the registers taken since `REGION` are freed, and no write of a dropped window is in flight
to one any more (02 R42, R43, 20 R352). -/
def restartGroup (s : State) (h : Nat) : State :=
  match groupOf s h with
  | none => s
  | some g =>
    let xs := g.ctx :: g.shadow.toList
    let s := landWins s g.core ((xs.filter inRegion).map (·.wins)).flatten
    freeRegs (setGroup s h { g with ctx := restartCtx g.ctx, shadow := g.shadow.map restartCtx }) g.core
      (xs.map restartGone).flatten

/-- Doom the open transactions of a group that is saved, and make its region ready to be saved: an eviction makes it fall back,
any other save restarts it, its pending lines dropped (20 R350 steps 3 and 4). -/
def settleRegion (s : State) (h : Nat) (evict : Bool) : State :=
  match groupOf s h with
  | none => s
  | some g =>
    let s := dropTxLines (modCtx s h fun x => doomAll x 8) h g.core none
    if evict then fallDeep (fallBack s h) h
    else
      let live := inRegion g.ctx || (g.shadow.map inRegion).getD false
      restartGroup (if live then modCore s g.core fun k => { k with pend := k.pend.filter fun p => p.g != h } else s) h

/-- The cores of a team. -/
def teamCores (tm : Team) : List Nat := if tm.pair then [tm.core, tm.core + 1] else [tm.core]

/-- Where a group stands once it is restored: a barrier's wait, a halt and an adoption go on; any other wait is taken up by
executing its word again. -/
def runAfter (r : Run) : Run :=
  match r with
  | .parked (.barrier b) => .parked (.barrier b)
  | .halted => .halted
  | .outer i => .outer i
  | _ => .ready

/-- Put a quiet team into the context pool (20 R350 steps 5 and 6, R351). -/
def putTeam (s : State) (t : Nat) : State :=
  let hs := saveGroups s t
  let cores := (teamCores (teamOf s t) ++ hs.filterMap fun h => (groupOf s h).map (·.core)).eraseDups
  let (v, s) := cores.foldl (fun (v, s) c =>
    let (x, s) := drainNow s c
    (max v x, s)) (0, s)
  let tm := teamOf s t
  let saved := if tm.tas then (teamCores tm).map fun c => ((coreOf s c).tas, (coreOf s c).tasFlags) else []
  let ecRv := (List.range 4).map fun e => ((teamCores tm).map fun c => (coreOf s c).ecRv.getD e 0).foldl max (tm.ecRv.getD e 0)
  let s := each (s.cmds.filter fun c => c.2.team = t) s fun s (id, c) =>
    let s := modCmd s id fun c => { c with st := .waiting }
    modCore (ecDown s c.core c.ec) c.core fun k => { k with dep := k.dep.erase id }
  let image := teamImage s t
  let s := freeTeam s t
  let s := modTeam s t fun tm => { tm with st := .saved, saving := none, savedTas := saved, ecRv := ecRv, granules := [] }
  let s := each hs s fun s h =>
    let s := unseat s h
    match groupOf s h with
    | none => s
    | some g =>
      let s := modCore s g.core fun k => { k with regQueue := k.regQueue.filter (· != h) }
      setGroup s h { g with run := .saved, after := runAfter g.run, ctx := { g.ctx with rv := max g.ctx.rv v, phase := 0 } }
  let s := poolWrite s t (image ++ (hs.map (groupImage s)).flatten)
  let s := if s.mgmt.list.contains t then { s with mgmt := { s.mgmt with saved := s.mgmt.saved ++ [t] } } else s
  send (moveSplits s (launchOf s tm.launch).part) .teamPlacement { part := (launchOf s tm.launch).part }

/-- Begin a save: the team's groups stop issuing (20 R350 step 1). -/
def beginSave (s : State) (t : Nat) (evict : Bool) : State :=
  send (modTeam s t fun tm => { tm with saving := some evict }) (.teamSave t evict)

/-! ### Killing -/

/-- Take a group out of its adoption chain: what it adopted keeps the slot, in the hands of the group that adopted it, if any. -/
def spliceChain (s : State) (h : Nat) : State :=
  match groupOf s h with
  | some g => match g.run with
    | .outer i =>
      let s := modGroup s i fun x => { x with outer := g.outer, depth := x.depth - 1 }
      let s := match g.outer with
        | some o => modGroup s o fun x => { x with run := .outer i }
        | none => s
      setGroup s h { g with run := .ready, outer := none, depth := 0 }
    | _ => s
  | none => s

/-- A group of a killed team retires (20 R362); one that holds no slot holds no registers either. -/
def killGroup (s : State) (h : Nat) : State :=
  let s := spliceChain s h
  match groupOf s h with
  | none => s
  | some g =>
    if g.run == .retired then s
    else if inSlot g then retireGroup (modCore s g.core fun k => { k with regQueue := k.regQueue.filter (· != h) }) h
    else retireGroup (setGroup s h { g with shadow := none, ctx := { g.ctx with v := [], ckpt := none, wins := [], sinks := [] } }) h

/-- The tasks of a team: its own and those its threads carry. -/
def teamTasks (s : State) (t : Nat) : List Nat :=
  let tm := teamOf s t
  ((tm.task :: (tm.groups.map fun h => match groupOf s h with
    | some g => tasksOf g.ctx g.ctx.live
    | none => []).flatten).filter (· != 0)).eraseDups

/-- The fault record of a kill and the handle under which it may be queried (20 R361): those of the team's group that the
handle names, or a record of the kill itself under a new handle. -/
def killRecord (s : State) (t : Nat) (why : KillWhy) (handle : Nat) : Nat × FaultRec × State :=
  match (groupOf s handle).bind fun g => if g.team = t then g.frec.orElse fun _ => g.ctx.pending else none with
  | some r => (handle, r, s)
  | none =>
    let (id, s) := newId s
    (id, { code := why.code, cause := why.cause, iaddr := why.addr, va := why.va, task := (teamOf s t).task }, s)

/-- Kill a team (20 R362): a kind 6 record with a handle, its groups retire, its commands are cancelled, its accumulators are
scrubbed, its futures fault; it is relaunched, or left killed with a report for its launch's completion record. -/
def killTeam (s : State) (t : Nat) (why : KillWhy) (handle : Nat) : State :=
  let tm := teamOf s t
  let l := launchOf s tm.launch
  let again := why.relaunch && l.rc.tile
  let (handle, r, s) := killRecord s t why handle
  let s := modPart s l.part fun v => { v with killed := put v.killed handle r }
  let s := ringWrite s l.part 6 l.slot
    [(8, 1, why.code), (9, 1, why.cause), (12, 4, tm.task), (16, 8, why.addr.toNat), (24, 8, why.va.toNat), (40, 4, tm.num),
     (47, 1, if again then 1 else 0), (56, 4, l.tenant), (60, 4, handle)]
  let s := each (teamTasks s t) s fun s id => futFault s l.part id 0x31
  let s := modTeam s t fun tm => { tm with st := .killed, saving := none, savedTas := [], bars := [], posted := [], pool := [] }
  let s := each (s.cmds.filter fun c => c.2.team = t) s fun s c => if tm.st == .saved then { s with cmds := del s.cmds c.1 } else cancelCmd s c.1
  let s := each tm.groups s killGroup
  let s := each (teamCores tm) s fun s c => modCore s c fun k => if k.tasBy = some t then { k with tas := [], tasFlags := [] } else k
  let s := if tm.groups.isEmpty then teamRetires s t else s
  if again then send (modTeam s t fun tm => { tm with st := .waiting }) .granuleRelease { team := t }
  else modLaunch s tm.launch fun l => { l with reports := l.reports ++ [(tm.num, why.code, why.cause, why.addr)] }

/-- Whether a team has not ended. -/
def teamLives (tm : Team) : Bool :=
  match tm.st with
  | .resident | .saved | .waiting => true
  | _ => false

/-- Cores being retired onto a spare (23 R403). -/
def coreRetiring (s : State) (c : Nat) : Bool := s.copying.contains (0, c)

/-- `TEAM_KILL` (20 R362): a tile command of the team has met a fault (08 R212), or the team cannot be read from a core that is
being retired (23 R403). -/
def execTeamKill (team : Nat) (why : KillWhy) (s : State) : Host.Outcome State Fault Refusal :=
  let tm := teamOf s team
  if tileFault s == some (team, why) && teamLives tm then .next (killTeam s team why 0)
  else if why == { code := 0x15, cause := 1, addr := 0, va := 0, relaunch := false } && tm.st == .resident && (teamCores tm).any (coreRetiring s) then
    .next (killTeam s team why 0)
  else notNow "TEAM_KILL"

/-! ### Eviction for registers -/

/-- The teams on a core that an eviction may take: those with a group that holds a physical register, but for one, and for the
teams of cooperative launches (02 R46, 19 R338). -/
def evictable (s : State) (c own : Nat) : List Nat :=
  ((seats s c).map (·.team)).eraseDups.filter fun t => t != own && (launchOf s (teamOf s t).launch).rc.coop = 0 && (teamOf s t).saving.isNone && (teamOf s t).st == .resident
    && (saveGroups s t).any fun h => match groupOf s h with
      | some g => !(groupRegs g).isEmpty
      | none => false

/-- Whether one team is younger than another (19 R336). -/
def younger (s : State) (a b : Nat) : Bool :=
  let x := launchOf s (teamOf s a).launch
  let y := launchOf s (teamOf s b).launch
  decide (y.accepted < x.accepted) || (x.accepted = y.accepted && decide ((teamOf s b).num < (teamOf s a).num))

/-- The youngest of a list of teams. -/
def youngest (s : State) : List Nat → Option Nat
  | [] => none
  | t :: ts => some (ts.foldl (fun b x => if younger s x b then x else b) t)

/-- The outermost group of a chain. Fuel bounds it. -/
def outermost (fuel : Nat) (s : State) (h : Nat) : Nat :=
  match fuel, groupOf s h with
  | fuel + 1, some g => match g.outer with
    | some o => outermost fuel s o
    | none => h
  | _, _ => h

/-- The groups of a core that have been parked for registers for 65,536 core cycles, in the order of the core's queue. -/
def longParked (s : State) (c : Nat) : List Nat :=
  (coreOf s c).regQueue.filter fun h => match groupOf s h with
    | some g => match g.run with
      | .parked (.regs _) => decide (65536 ≤ (coreOf s c).cycles - g.parkedAt) && decide (g.parkedAt ≤ (coreOf s c).cycles)
      | _ => false
    | none => false

/-- The team whose groups a parked group belongs with: that of the outermost group of its adoption chain, whose slot it runs in (log
entry 32). -/
def ownTeam (s : State) (h : Nat) : Nat := ((groupOf s (outermost 6 s h)).map (·.team)).getD 0

/-- The eviction due on a core: the first group parked so long for which there is a team to evict, and the youngest such team
(02 R46). -/
def evictionDue (s : State) (c : Nat) : Option (Nat × Nat) :=
  (longParked s c).findSome? fun h => (youngest s (evictable s c (ownTeam s h))).map fun t => (h, t)

/-- `REGISTER_PARK_EVICTION` (02 R46). -/
def execRegisterParkEviction (s : State) : Host.Outcome State Fault Refusal :=
  match evictionDue s s.subj.core with
  | none => notNow "REGISTER_PARK_EVICTION"
  | some (h, t) => .next (beginSave (modGroup s h fun g => { g with parkedAt := g.parkedAt + 65536 }) t true)

/-- The next-youngest team for an eviction that another team's context did not fit (20 R349). -/
def evictNext (s : State) (t : Nat) : State :=
  let c := (teamOf s t).core
  match (coreOf s c).regQueue.findSome? fun h => youngest s ((evictable s c (ownTeam s h)).filter fun x => younger s t x) with
  | some x => beginSave s x true
  | none => s

/-- `TEAM_SAVE` (20 R350): once everything of the team's groups and commands is done, the team goes to the context pool; where
the pool lacks the room, what follows depends on why the save was wanted (20 R349). -/
def execTeamSave (team : Nat) (evict : Bool) (s : State) : Host.Outcome State Fault Refusal :=
  let tm := teamOf s team
  let hs := saveGroups s team
  if tm.saving != some evict || tm.st != .resident || !hs.all (groupQuiet s) || !cmdsQuiet s team then notNow "TEAM_SAVE"
  else if hs.isEmpty then .next (modTeam s team fun tm => { tm with saving := none })
  else
    let s' := each hs s fun s h => settleRegion s h evict
    let cores := (teamCores tm ++ hs.filterMap fun h => (groupOf s h).map (·.core)).eraseDups
    let p := (launchOf s tm.launch).part
    let need := teamBytes s' team + (hs.map (groupBytesNow s')).sum
    let kept := if s.mgmt.list.contains team then 0 else poolKept s p
    if (partOf s p).poolLen < poolUsed s p + need + kept then
      if (teamCores tm).any (coreRetiring s) then .next (killTeam s team { code := 0x15, cause := 1, addr := 0, va := 0, relaunch := false } 0)
      else
        let s := modTeam s team fun tm => { tm with saving := none }
        .next (if evict then evictNext s team else s)
    else if !cores.all (canDrain s') then notNow "TEAM_SAVE"
    else
      let s := putTeam s' team
      .next (if evict then post s 0x107 0 tm.core (launchOf s tm.launch).vf (.ofNat 32 tm.num) else s)

/-! ### Requests -/

/-- The resident teams of a partition, or of one of its launches, that hold a slot. -/
def savable (s : State) (p : Nat) (slot : Nat) : List Nat :=
  (s.teams.filter fun (t, tm) =>
    let l := launchOf s tm.launch
    tm.st == .resident && l.part = p && (slot = 0xFFFF || (l.slot = slot && !l.done)) && !(saveGroups s t).isEmpty).map (·.1)

/-- `PRE_EMPT` (20 R349, 21 R374): the teams are saved, and the reply counts those saved and those that stay resident. -/
def execPreEmpt (s : State) : Host.Outcome State Fault Refusal :=
  performPart s "PRE_EMPT" 0x04 [(8, 2)] fun s p _ =>
    let slot := req s 8 2
    if s.mgmt.phase = 0 then
      if slot != 0xFFFF && !(s.launches.any fun l => l.2.part = p && l.2.slot = slot && !l.2.done) then .next (reject s 8)
      else
        let ts := savable s p slot
        let s := each ts s fun s t => if (teamOf s t).saving.isSome then s else beginSave s t false
        .next (send { s with mgmt := { s.mgmt with phase := 1, list := ts } } .preEmpt)
    else
      let ts := s.mgmt.list
      if ts.any fun t => (teamOf s t).saving.isSome then notNow "PRE_EMPT"
      else
        let saved := s.mgmt.saved.eraseDups.length
        let left := (ts.filter fun t => !s.mgmt.saved.contains t && (teamOf s t).st == .resident).length
        .next (answer s (if left = 0 then 0 else 3) 0xFFFF [(8, 4, saved), (12, 4, left)])

/-- The group or command a handle of an event record names, where it waits for the driver. -/
inductive Held where
  | group (h : Nat) (g : Group)
  | cmd (c : Nat) (x : Cmd) (cause : Nat)
  deriving DecidableEq, Repr

/-- What a handle names (20 R360, R361). -/
def heldBy (s : State) (h : Nat) : Option Held :=
  match groupOf s h with
  | some g =>
    if g.run == .halted || (g.run == .saved && g.after == .halted) || (g.run == .faultHeld) then some (.group h g) else none
  | none => match find s.cmds h with
    | some c => match c.st with
      | .faulted k => some (.cmd h c k)
      | _ => none
    | none => none

/-- A halted group goes on: the faulting instruction is performed again (20 R360, 05 R120): that of its handler where a second
fault halted it there, else, where the handler halted it, that of its interrupted context. A saved group does so when
it is restored; one that left its helper's slot is placed again. -/
def resumeGroup (s : State) (h : Nat) (g : Group) : State :=
  let again := (g.frec.bind (·.second)).isSome
  let frec := if again then g.frec.map fun r => { r with second := none } else none
  match g.run, g.shadow, again with
  | .halted, some _, false => replayWins (returnFault s h) h
  | .halted, _, _ => replayWins (setGroup s h { g with run := .ready, frec := frec }) h
  | .saved, some x, false => setGroup s h { g with ctx := { x with rv := max x.rv g.ctx.rv }, shadow := none, frec := none,
                                                   after := .ready, redo := true }
  | .saved, _, _ => setGroup s h { g with after := .ready, redo := true, frec := frec }
  | _, _, _ => send (setGroup s h { g with run := .out none, redo := true, frec := frec, ctx := { g.ctx with pending := none } })
      .teamPlacement { part := groupPart s g }

/-- `RESUME` (20 R360, R361, 08 R205). -/
def execResumeRequest (s : State) : Host.Outcome State Fault Refusal :=
  perform s "RESUME" 0x05 [(8, 4)] fun s => match heldBy s (req s 8 4) with
    | some (.group h g) => .next (answerDone (resumeGroup s h g))
    | some (.cmd c _ _) => .next (answerDone (modCmd s c fun c => { c with st := .running }))
    | none => .next (reject s 8)

/-- `KILL` (20 R360, R361): the group's team is killed, or the command stops for good. -/
def execKillRequest (s : State) : Host.Outcome State Fault Refusal :=
  perform s "KILL" 0x06 [(8, 4)] fun s => match heldBy s (req s 8 4) with
    | some (.group h g) =>
      let r := g.frec.getD (g.ctx.pending.getD {})
      .next (answerDone (killTeam s g.team { code := r.code, cause := r.cause, addr := r.iaddr, va := r.va, relaunch := false } h))
    | some (.cmd c x cause) => .next (answerDone (stopCmd s c x cause))
    | none => .next (reject s 8)

/-- The fault record of a group, or of a killed team, as the query request gives it (20 R359, R361, 21 R374). -/
def queryBytes (s : State) (h : Nat) : Option (List Byte) :=
  match heldBy s h with
  | some (.group _ g) => some ((faultBytes (g.frec.getD (g.ctx.pending.getD {}))).take 80)
  | some _ => none
  | none => (s.parts.findSome? fun p => find p.2.killed h).map fun r => (faultBytes r).take 80

/-- `QUERY` (21 R374): the fault record of the group a handle names is written to memory of slot 0. -/
def execQueryRequest (s : State) : Host.Outcome State Fault Refusal :=
  perform s "QUERY" 0x07 [(8, 4), (16, 8)] fun s =>
    let a := req s 16 8
    match queryBytes s (req s 8 4) with
    | none => .next (reject s 8)
    | some bs =>
      if a % 8 ≠ 0 then .next (reject s 16)
      else
        let l := fwSpans a 80
        if spansReady s l then .next (answerDone (spansWrite s l bs)) else notNow "QUERY"

/-- The save or kill that goes on where no choice is made. -/
def chooseSave (s : State) : Option Due :=
  match s.teams.findSome? fun (t, tm) => tm.saving.map fun e => (⟨.teamSave t e, {}⟩ : Due) with
  | some d => some d
  | none => s.cores.findSome? fun (c, _) => (evictionDue s c).map fun _ => (⟨.registerParkEviction, { core := c }⟩ : Due)

end Sys2Proof.Machine
end

