-- ==== Sys2Proof/Machine/System.lean ====
section
/-! DEFINITION. Regions, special registers, events, the clock and handler mode (02 R35 to R39, 09 R239 to R246, 20 R354 to R358,
R367). -/

namespace Sys2Proof.Machine

/-! ### Issuing a system word -/

/-- Issue a system word that reads uniform registers and acts on the machine: with E empty it does nothing. `act` answers the
state it leaves, a fault, or that the word must wait. -/
inductive Act where
  | done (s : State)
  | bad (b : Bad) (s : State)
  | wait (s : State)
  deriving DecidableEq, Repr

/-- Issue a system word (02 R28, R29, 05 R117, R119). -/
def issueSys (s : State) (code : Nat) (f : FOps) (io : Io) (act : State → Nat → Group → Word → Act) : Host.Outcome State Fault Refusal :=
  match current s with
  | none => .fault .noGroup
  | some (h, g) =>
    let g := if endsWindows code then { g with ctx := endWins g.ctx } else g
    let eff := effSet g.ctx g.w f.k f.kn
    let s := setGroup s h g
    let cycles := if f.u then 1 else laneCycles g.w eff
    if blocked g.ctx (io.under eff) then .next s
    else if eff = 0 then .next (retire s h g io 1 cycles {})
    else match act s h g eff with
      | .wait s => .next s
      | .bad b s => .next (raise s h (badRec g.ctx eff b))
      | .done s => match groupOf s h with
        | some g => if g.run == .retired then .next s else .next (retire s h g io 1 cycles {})
        | none => .next s

/-! ### Regions -/

/-- Issue `REGION` or `COMMIT` (09 R239): a `NOP` where the launch keeps no region discipline; forbidden in a transaction
(07 R184). -/
def issueRegion (s : State) (op : Op) (f : FOps) (cause : Group → Nat) (act : State → Nat → Group → Act) :
    Host.Outcome State Fault Refusal :=
  issueSys s op.code f {} fun s h g eff =>
    if !(groupLaunch s g).rc.region then .done s
    else
      let k := cause g
      if k ≠ 0 then .bad { code := 0x2A, cause := k } s else act (forbid s h eff) h g

/-- `REGION` (09 R240): the checkpoint reads every register, so the word waits for every result. -/
def execRegion (f : FOps) (s : State) : Host.Outcome State Fault Refusal :=
  issueRegion s .region f (fun g => if g.ctx.region.getLsbD 0 then 1 else if !g.ctx.stack.isEmpty then 3 else 0) fun s h g =>
    if !g.ctx.wins.isEmpty then .wait s
    else .done (modCtx s h fun x => { x with
      region := .ofNat 64 (bits x.pc.toNat 55 3 * 8 + 1)
      ckpt := some { v := x.v, s := x.s, k := x.k, fpflags := x.fpflags, active := x.active, depth := x.depth } })

/-- `COMMIT` (09 R240). -/
def execCommit (f : FOps) (s : State) : Host.Outcome State Fault Refusal :=
  issueRegion s .commit f (fun g => if !g.ctx.region.getLsbD 0 then 2 else if !g.ctx.stack.isEmpty then 3 else 0) fun s h _ =>
    .done (endRegion s h)

/-! ### Special registers -/

/-- The engine counters of a core as `%ec` holds them (02 R35). -/
def ecWord (k : Core) : Word :=
  .ofNat 64 (((List.range 4).map fun e => k.ec.getD e 0 % 65536 * 65536 ^ e).sum)

/-- The value of a special register of a group, for one thread where it has one per thread (02 R35). -/
def special (s : State) (g : Group) (sel t : Nat) : Word :=
  match sel with
  | 0 => .ofNat 64 t
  | 1 => .ofNat 64 g.gid
  | 2 => .ofNat 64 (teamOf s g.team).num
  | 3 => .ofNat 64 g.core
  | 4 => .ofNat 64 (dieOf g.core)
  | 5 => .ofNat 64 g.w
  | 6 => g.ctx.sinkrec0
  | 7 => g.ctx.sinkrec1
  | 8 => .ofNat 64 g.ctx.fpflags
  | 9 => .ofNat 64 g.ctx.rv
  | 10 => .ofNat 64 (g.ctx.taskid.getD t 0)
  | 11 => g.ctx.region
  | _ => ecWord (coreOf s g.core)

/-- `RDS` (09 R242): the run record is read once no sink group is in progress (07 R191). -/
def execRds (f : FOps) (s : State) : Host.Outcome State Fault Refusal :=
  match current s with
  | none => .fault .noGroup
  | some (h, g) =>
    let sel := f.a.toNat
    if (sel = 6 || sel = 7) && sinkRuns g.ctx then .next (modGroup s h fun g => { g with run := .parked .sinkDone })
    else issue s Op.rds.code 1 f.k f.kn f.u (ioDst f.u f.d.toNat 1) fun _ w eff =>
      .ok (perThread f.u w eff fun t => { wr := wrDst f.u f.d.toNat 1 t (special s g sel t).toNat })

/-- `WRS` (09 R242, 02 R37, R38): `%fpflags` takes bits 5:0, an open region first falling back (09 R241); `%rv` only rises. -/
def execWrs (f : FOps) (s : State) : Host.Outcome State Fault Refusal :=
  issueSys s Op.wrs.code f { ur := [f.a.toNat] } fun s h g _ =>
    let v := readS g.ctx f.a.toNat
    if f.d = 8 then .done (modCtx (fallBack s h) h fun x => { x with fpflags := v.toNat % 64 })
    else .done (modCtx s h fun x => { x with rv := max x.rv (bits v.toNat 47 0) })

/-- `EVENT` (09 R243, 22 R386): one event for each thread of E in temporal order, or one. -/
def execEvent (f : FOps) (s : State) : Host.Outcome State Fault Refusal :=
  issueSys s Op.event.code f (ioSrc f.u f.a.toNat 1 f.lrA) fun s _ g eff =>
    .done (each (sites f.u g.w eff) s fun s t => postGroup s g f.imm12.toNat (.ofNat 32 (srcA g.ctx g.w f .b32 t)))

/-- `CLOCKC` (09 R244). -/
def execClockc (f : FOps) (s : State) : Host.Outcome State Fault Refusal :=
  match current s with
  | none => .fault .noGroup
  | some (_, g) =>
    issue s Op.clockc.code 1 f.k f.kn true (ioDst true f.d.toNat 1) fun _ _ eff =>
      .ok (if eff = 0 then {} else { wr := wrDst true f.d.toNat 1 0 ((coreOf s g.core).cycles % 2 ^ 64) })

/-! ### Handler mode -/

/-- Issue a word that only handler mode executes (05 R109). -/
def issueHandler (s : State) (op : Op) (f : FOps) (io : Io) (act : State → Nat → Group → Ctx → Act) : Host.Outcome State Fault Refusal :=
  match current s with
  | none => .fault .noGroup
  | some (h, g) => match g.shadow with
    | none => .next (raise (setGroup s h { g with ctx := endWins g.ctx }) h (badRec g.ctx g.ctx.active { code := 0x02 }))
    | some x => issueSys s op.code f io fun s h g _ => act s h g x

/-- `TRET` (09 R245): once the handler's own results have landed, the group leaves handler mode, and the instructions that
faulted in its windows are performed again (05 R120). -/
def execTret (f : FOps) (s : State) : Host.Outcome State Fault Refusal :=
  match current s with
  | none => .fault .noGroup
  | some (h, g) => match g.shadow with
    | none => .next (raise (setGroup s h { g with ctx := endWins g.ctx }) h (badRec g.ctx g.ctx.active { code := 0x02 }))
    | some _ =>
      if !g.ctx.wins.isEmpty then .next (setGroup s h { g with ctx := endWins g.ctx })
      else .next (replayWins (returnFault (spend s h (if f.u then 1 else laneCycles g.w g.ctx.active)) h) h)

/-- `HALT` (09 R245). -/
def execHalt (f : FOps) (s : State) : Host.Outcome State Fault Refusal :=
  match current s with
  | none => .fault .noGroup
  | some (h, g) => match g.shadow with
    | none => .next (raise (setGroup s h { g with ctx := endWins g.ctx }) h (badRec g.ctx g.ctx.active { code := 0x02 }))
    | some _ =>
      if !settled g.ctx then .next (setGroup s h { g with ctx := endWins g.ctx })
      else .next (haltGroup (spend s h (if f.u then 1 else laneCycles g.w g.ctx.active)) h (g.frec.getD {}))

/-- The team of a partition that owns a task (09 R245). -/
def teamOfTask (s : State) (p id : Nat) : Option Nat :=
  if id = 0 then none
  else match s.teams.find? fun t => (launchOf s t.2.launch).part = p && teamLives t.2 && t.2.task = id with
    | some t => some t.1
    | none => (s.groups.find? fun g => groupPart s g.2 = p && g.2.run != .retired && holdsTask g.2 id).map fun g => g.2.team

/-- `KILLT` (09 R245, 20 R362). -/
def execKillt (f : FOps) (s : State) : Host.Outcome State Fault Refusal :=
  issueHandler s .killt f { ur := if f.mod = 0 then [] else [f.a.toNat] } fun s h g _ =>
    let why : KillWhy := { code := 0x31, cause := 0, addr := g.ctx.pc, va := 0, relaunch := f.x.getLsbD 1 }
    let t := if f.mod = 0 then some g.team else teamOfTask s (groupPart s g) (bits (readS g.ctx f.a.toNat).toNat 27 0)
    match t with
    | some t => .done (killTeam s t why h)
    | none => .done s

/-! ### Invalidating translations -/

/-- The address spaces of a partition: those of the functions whose queues or launches it serves. -/
def partAsids (s : State) (p : Nat) : List Nat :=
  ((s.vfs.filter fun v => v.2.queues.any (fun q => q.2.part = p) || s.launches.any fun l => l.2.part = p && l.2.vf = v.1 && !l.2.done).map
    fun v => v.2.asid).eraseDups

/-- Whether a cached leaf is among those an invalidation removes. -/
def leafMeets (s : State) (i : InvalidateScope) (l : Leaf) : Bool :=
  match i with
  | .all p => (partAsids s p).contains l.asid
  | .asid a => l.asid = a
  | .page a va => l.asid = a && l.vpage = va / 2 ^ l.bits

/-- Remove cached leaves from the near TLBs of cores and from every translation service (20 R367): for a partition's handler,
those of its own address spaces. -/
def dropLeaves (s : State) (cores : List Nat) (own : Option Nat) (i : InvalidateScope) : State :=
  let gone (l : Leaf) : Bool := leafMeets s i l && (match own with
    | some p => (partAsids s p).contains l.asid
    | none => true)
  let s' := each cores s fun s c => modCore s c fun k => { k with tlb := k.tlb.filter fun l => !gone l }
  { s' with service := s.service.map fun (d, ls) => (d, ls.filter fun l => !gone l) }

/-- The accesses that groups have begun and that are still to be performed. -/
def begun (s : State) : List (Nat × Nat) :=
  (s.groups.map fun (h, g) =>
    (((g.ctx.wins.filter fun w => !w.done && w.fault.isNone).map (·.id)) ++ g.out).map fun n => (h, n)).flatten

/-- Whether an access has been performed, or has ended. -/
def accessDone (s : State) (a : Nat × Nat) : Bool :=
  match groupOf s a.1 with
  | none => true
  | some g => !g.out.contains a.2 && g.ctx.wins.all fun w => w.id != a.2 || w.done || w.fault.isSome

/-- Begin an invalidation: nothing that translates from now on uses what it removes. -/
def beginInval (s : State) (who : Option Nat) (cores : List Nat) (own : Option Nat) (i : InvalidateScope) : State :=
  let s := dropLeaves s cores own i
  send { s with invals := s.invals ++ [{ who := who, scope := i, left := begun s }] } (.translationInvalidateComplete i)

/-- `TRANSLATION_INVALIDATE_COMPLETE` (20 R367): every access that passed its checks under an old translation has been
performed. A request is then answered. -/
def execTranslationInvalidateComplete (i : InvalidateScope) (s : State) : Host.Outcome State Fault Refusal :=
  match s.invals.find? fun v => v.scope == i && v.left.all (accessDone s) with
  | none => notNow "TRANSLATION_INVALIDATE_COMPLETE"
  | some v =>
    let s := { s with invals := s.invals.erase v }
    .next (if v.who.isNone then answerDone s else s)

/-- What `TLBI` removes (09 R245). -/
def tlbiScope (s : State) (g : Group) (mod : Nat) (a : Word) : InvalidateScope :=
  match mod with
  | 0 => .all (groupPart s g)
  | 1 => .asid (bits a.toNat 11 0)
  | _ => .page (look s.vfs (vfOf s g) {}).asid a.toNat

/-- `TLBI` (09 R245, 20 R367): it waits until the invalidation is complete on every core of the partition. -/
def execTlbi (f : FOps) (s : State) : Host.Outcome State Fault Refusal :=
  issueHandler s .tlbi f { ur := if f.mod = 0 then [] else [f.a.toNat] } fun s h g _ =>
    if g.ctx.phase = 0 then
      let s := beginInval s (some h) (partOf s (groupPart s g)).cores (some (groupPart s g)) (tlbiScope s g f.mod.toNat (readS g.ctx f.a.toNat))
      .wait (modCtx s h fun x => { x with phase := 1 })
    else if s.invals.any fun v => v.who = some h then .wait s
    else .done s

/-- `TRANSLATION_WALK` (20 R364 to R367): a walk for a core completes: a valid leaf is cached; one that fails caches nothing, and
its fault is that of the access that needs it. -/
def execTranslationWalk (s : State) : Host.Outcome State Fault Refusal :=
  match s.vfs.find? fun v => v.2.asid = s.subj.asid && v.2.root.isSome with
  | none => notNow "TRANSLATION_WALK"
  | some (_, v) => match v.root with
    | none => notNow "TRANSLATION_WALK"
    | some root => match walk s root v.asid s.subj.va with
      | .ok l => .next (if (cachedLeaf (coreOf s s.subj.core).tlb v.asid s.subj.va).isSome then s else cacheLeaf s s.subj.core l)
      | .error _ => .next s

/-! ### Writing a context record -/

/-- The lines of a record, each as an access of the group. -/
def lineAccs (a : Word) (bs : List Byte) : List Acc :=
  (List.range (bs.length / 128)).map fun i => { t := 0, ea := a + .ofNat 64 (128 * i), data := leNat ((bs.drop (128 * i)).take 128) }

/-- `CTXSV` (20 R358): the shadow context is stored as a kind 1 record. -/
def execCtxsv (f : FOps) (s : State) : Host.Outcome State Fault Refusal :=
  issueHandler s .ctxsv f { ur := [f.a.toNat] } fun s h g x =>
    let a := readS g.ctx f.a.toNat
    if a.toNat % 128 ≠ 0 then .bad { code := 0x10, va := a.toNat } s
    else match tryStore s h g true 128 (lineAccs a (ctxRecord g (groupLaunch s g).rc.pocket x)) s.nextId with
      | .bad b s => .bad b s
      | .wait s => .wait s
      | .done s => .done s

/-! ### Reading a context record -/

/-- A window's record as read: kind, words left, planes, uniform values, first destination, address, and the bytes it takes. -/
structure WinRec where
  kind : Nat
  left : Nat
  planes : List (List W32)
  unis : List Word
  dst : Nat
  pc : Word
  size : Nat
  ok : Bool
  deriving DecidableEq, Repr

/-- A plane of a register's values, from its bytes. -/
def planeOf (bs : List Byte) (w : Nat) : List W32 := (List.range w).map fun t => .ofNat 32 (field bs (4 * t) 4)

/-- Read a window's record (20 R356). -/
def readWin (bs : List Byte) (w : Nat) : WinRec :=
  let p := field bs 2 1
  let u := field bs 3 1
  let n := alignUp (4 * w * p + 8 * u) 16
  let dst := field bs 4 1
  let body := (bs.drop 16).take n
  let kind := field bs 0 1
  let regs := if kind = 1 then (if dst.testBit 7 then decide (dst % 128 + u ≤ 32) else decide (dst + p ≤ 64)) else true
  { kind := kind, left := field bs 1 1, planes := (List.range p).map fun i => planeOf (body.drop (4 * w * i)) w
    unis := (List.range u).map fun i => .ofNat 64 (field body (4 * w * p + 8 * i) 8)
    dst := dst, pc := .ofNat 64 (field bs 8 8), size := 16 + n
    ok := (kind == 1 || kind == 2) && decide (p ≤ 16) && decide (u ≤ 4) && field bs 5 3 == 0 && regs && decide (dst % 128 < 64)
      && (!dst.testBit 7 || decide (dst % 128 < 32)) && dst.testBit 6 == false && decide (field bs 1 1 ≤ 15)
      && goodPc (.ofNat 64 (field bs 8 8)) && (body.drop (4 * w * p + 8 * u)).all (· == 0) }

/-- Read `n` window records, oldest first, and the bytes after them. -/
def readWins (w : Nat) : Nat → List Byte → List WinRec × List Byte
  | 0, bs => ([], bs)
  | n + 1, bs =>
    let r := readWin bs w
    let (rs, rest) := readWins w n (bs.drop r.size)
    (r :: rs, rest)

/-- The bytes of a record before its windows. -/
def fixedBytes (w entries : Nat) : Nat := 128 + 344 + 4 * w + 48 * entries

/-- A split-stack entry from its bytes (03 R55). -/
def readEntry (bs : List Byte) : SplitEntry :=
  { rpc := .ofNat 64 (field bs 0 8), dpc := .ofNat 64 (field bs 8 8), dmask := .ofNat 64 (field bs 16 8)
    jmask := .ofNat 64 (field bs 24 8), rmask := .ofNat 64 (field bs 32 8), depth := field bs 40 2 }

/-- Whether a mask names only threads of a group. -/
def maskFits (w m : Nat) : Bool := decide (m < 2 ^ w)

/-- Whether a value of the dependency list is one that `TDEP` leaves there (08 R208), or absent. -/
def depOk (v : Nat) : Bool :=
  v = 0 || (bits v 63 53 = 0 && bits v 31 21 = 0 && bits v 20 0 % 128 = 0 && bits v 52 32 % 128 = 0 && decide (128 ≤ bits v 52 32))

/-- Whether a record's header is one that `CTXLD` accepts for a group (20 R358). -/
def headerOk (g : Group) (bs : List Byte) : Bool :=
  let kind := field bs 0 2
  let v (lo : Nat) : Nat := field bs lo 8
  let role := v 64
  (kind = 1 || kind = 2) && field bs 2 1 = widthCode g.w && field bs 3 1 = g.depth && decide (field bs 4 1 ≤ 64) && decide (field bs 5 1 ≤ 32)
    && decide (field bs 6 1 ≤ 32) && (kind = 1 || field bs 6 1 = 0)
    && (if (field bs 7 1).testBit 7 then bits (field bs 7 1) 6 4 = 0 else field bs 7 1 = 0)
    && goodPc (.ofNat 64 (v 8)) && maskFits g.w (v 16) && maskFits g.w (v 24) && decide (v 40 < 64) && decide (v 48 < 2 ^ 48)
    && bits (v 56) 63 56 = 0 && bits (v 56) 2 2 = 0 && bits role 63 10 = 0 && bits role 7 7 = 0 && decide (1 ≤ bits role 6 0)
    && decide (bits role 6 0 ≤ 64) && decide (popCount 64 (v 32) ≤ bits role 6 0) && goodPc (.ofNat 64 (v 72))
    && (List.range 4).all fun i => depOk (v (80 + 8 * i))

/-- Whether the rest of a record, before its windows, is one that `CTXLD` accepts (20 R358, 03 R55). -/
def bodyOk (g : Group) (bs : List Byte) : Bool :=
  let entries := (List.range (field bs 4 1)).map fun i => (bs.drop (128 + 344 + 4 * g.w + 48 * i)).take 48
  (List.range 7).all (fun i => maskFits g.w (field bs (384 + 8 * i) 8)) && (List.range 3).all (fun i => maskFits g.w (field bs (440 + 8 * i) 8))
    && field bs 465 7 = 0 && decide (field bs 464 1 ≤ 8)
    && (List.range g.w).all (fun t => decide (field bs (472 + 4 * t) 4 < 2 ^ 28))
    && entries.all fun e => field e 42 6 = 0 && maskFits g.w (field e 16 8) && maskFits g.w (field e 24 8) && maskFits g.w (field e 32 8)
        && goodPc (.ofNat 64 (field e 0 8))

/-- The sources a long-latency word captures, in their order, put back into a context. -/
def captured (x : Ctx) (io : Io) (planes : List (List W32)) (unis : List Word) : Ctx :=
  let v := each (List.range io.vr.length) x.v fun v i => put v (io.vr.getD i 0) { vals := planes.getD i [] }
  let s := each (List.range io.ur.length) x.s fun s i => setPad 0 s (io.ur.getD i 0) (unis.getD i 0)
  { x with v := v, s := s }

/-- The registers a captured memory instruction reads and writes, and the access it captures from a context, by
instruction. -/
def captureOf (i : Instr) : Option (Io × (Ctx → Nat → Word → MemReq)) :=
  let mk (f : FOps) (d : Option Word) (space : Bool) (kind : MemKind) (op : AtomOp) (n regs : Nat) (io2 : Io) (data new : Ctx → Nat → Nat) :
      Io × (Ctx → Nat → Word → MemReq) :=
    ((ioAddr f space).join (io2.join (ioDst f.u f.d.toNat regs)), fun x w eff =>
      { kind := kind, ty := f.ty, size := n, uni := f.u, dst := f.d.toNat, scope := f.scope.getD .grp, op := op, eff := eff
        accs := accsOf x w f space d eff (data x) (new x) })
  let none_ (_ : Ctx) (_ : Nat) : Nat := 0
  let load (f : FOps) (d : Word) (space : Bool) (kind : MemKind) : Option (Io × (Ctx → Nat → Word → MemReq)) :=
    some (mk f (some d) space kind .add (sizeOfTy f.ty) f.ty.regs {} none_ none_)
  match i with
  | .ld f d => load f d false .ld
  | .ldc f d => load f d false .ldc
  | .lda f d => load f d false .lda
  | .ldx f d => load f d false .ldx
  | .lds f d => load f d true .lds
  | .ldp f d => load f d true .ldp
  | .atom f => some (mk f none false .atom (atomOf f.mod.toNat) (sizeOfTy f.ty) f.ty.regs (ioSrc f.u f.c.toNat f.ty.regs f.lrC) (atomData f) none_)
  | .acas f =>
    let io : Io := if f.u then { ur := [f.c.toNat, f.c.toNat + 1] } else ioSrc false f.c.toNat (2 * f.ty.regs) f.lrC
    some (mk f none false .acas .cas (sizeOfTy f.ty) f.ty.regs io (atomData f) (acasNew f))
  | .atoms f => some (mk f none true .atoms (atomOf f.mod.toNat) (sizeOfTy f.ty) f.ty.regs (ioSrc f.u f.c.toNat f.ty.regs f.lrC) (atomData f) none_)
  | .mlds f => some (mk f none true .mlds .add (16 * (f.mod.toNat + 1)) (4 * (f.mod.toNat + 1)) {} none_ none_)
  | _ => none

/-- The mask operand of a captured memory instruction. -/
def maskOfInstr (i : Instr) : BitVec 3 × Bool :=
  match i.parts with
  | some (_, f, _) => (f.k, f.kn)
  | none => (0, false)

/-- Whether a window is as a record holds it. -/
def sameWin (x : Ctx) (w : Nat) (v : Win) (r : WinRec) : Bool :=
  v.pc = r.pc && !v.sink && v.left = r.left
    && (if r.kind = 2 then v.fault.isSome && v.srcs == r.planes && v.usrcs == r.unis
      else v.fault.isNone && v.done && !v.discarded && v.vdst.map (resultPlane x w v) == r.planes && v.udst.map (resultUni x v) == r.unis)

/-- A result's window made from its record (20 R356): it stands ready. -/
def resultWin (id w : Nat) (r : WinRec) : Win :=
  let uni := r.dst.testBit 7
  let vs : List RegWr := ((List.range r.planes.length).map fun i => (List.range w).map fun t =>
    ({ reg := r.dst + i, uni := false, t := t, val := ((r.planes.getD i []).getD t 0).setWidth 64 } : RegWr)).flatten
  let us : List RegWr := (List.range r.unis.length).map fun i => { reg := r.dst % 128 + i, uni := true, t := 0, val := r.unis.getD i 0 }
  { id := id, pc := r.pc, left := r.left, vdst := if uni then [] else run r.dst r.planes.length
    udst := if uni then run (r.dst % 128) r.unis.length else [], vals := vs ++ us, done := true }

/-- A faulted sink group made from its window's record and the recorded progress (20 R355, R356, 07 R412). -/
def sinkOfRec (s : State) (g : Group) (new : Ctx) (f : FOps) (r : WinRec) (eff : Word) (core unsent : Word) (idx : Nat) :
    Option (Win × Option SinkSt) × State :=
  let (fetched, s) := fetchWords s g (r.pc.toNat + 8) (f.mod.toNat + 1)
  match fetched with
  | .error _ => (none, s)
  | .ok raw => match sinkWords raw with
    | none => (none, s)
    | some ws =>
      let q := sinkRegs ws
      if !sinkLegal ws || q.vr.length ≠ r.planes.length || q.ur.length ≠ r.unis.length then (none, s)
      else
        let (id, s) := newId s
        let x := captured new { vr := q.vr, ur := q.ur } r.planes r.unis
        let cap := sinkCapture x g.w q
        let fr := g.frec.getD {}
        let k : SinkSt := { pc := r.pc, words := ws, eff := eff, lim := f.form, scap := x.s, vcap := cap, loc := cap, store := ws.any fun w => sinkStores w.1
                            core := core, unsent := unsent, idx := if core = 0 then 1 else idx }
        let w : Win := { id := id, pc := r.pc, left := r.left, vdst := q.vw.eraseDups, srcs := r.planes, usrcs := r.unis
                         frees := if new.stack.isEmpty then q.last else []
                         fault := some { fr with iaddr := r.pc, code := if core = 0 then 0x16 else fr.code } }
        (some (w, some k), s)

/-- A window made from its record (20 R356), with its sink group if it is one: the window that the shadow context already holds,
if it is as recorded, else one made anew. A faulted instruction is read at its address and captures the recorded
sources. None where no long-latency memory instruction stands there. -/
def winOfRec (s : State) (g : Group) (old new : Ctx) (r : WinRec) (core unsent : Word) (idx : Nat) : Option (Win × Option SinkSt) × State :=
  match old.wins.find? fun v => sameWin old g.w v r with
  | some v => (some (v, find old.sinks v.id), s)
  | none =>
    if r.kind = 1 then
      let (id, s) := newId s
      (some (resultWin id g.w r, none), s)
    else
      match fetchInstr s { g with ctx := { g.ctx with pc := r.pc } } with
      | (.error _, s) => (none, s)
      | (.ok ws, s) =>
        let i := decodeOr ws
        let (k, kn) := maskOfInstr i
        let eff := effSet new g.w k kn
        match i, captureOf i with
        | .sink f, _ => sinkOfRec s g new f r eff core unsent idx
        | _, none => (none, s)
        | _, some (io, mk) =>
          if io.vr.length ≠ r.planes.length || io.ur.length ≠ r.unis.length then (none, s)
          else
            let (id, s) := newId s
            let fr := g.frec.getD {}
            let w : Win := { id := id, pc := r.pc, left := r.left, vdst := io.vw.eraseDups, udst := io.uw, srcs := r.planes, usrcs := r.unis
                             req := some (mk (captured new io r.planes r.unis) g.w eff), fault := some { fr with iaddr := r.pc } }
            (some (w, none), s)

/-- The windows made from their records, and the sink groups among them, or none where one cannot be made. -/
def winsOfRecs (s : State) (g : Group) (old new : Ctx) (rs : List WinRec) (core unsent : Word) (idx : Nat) :
    Option (List Win × Tbl SinkSt) × State :=
  rs.foldl (fun (acc, s) r => match acc with
    | none => (none, s)
    | some (l, ks) => match winOfRec s g old new r core unsent idx with
      | (some (w, some k), s) => (some (l ++ [w], put ks w.id k), s)
      | (some (w, none), s) => (some (l ++ [w], ks), s)
      | (none, s) => (none, s)) (some ([], []), s)

/-- The context that the bytes of a record hold, before its windows are made (20 R354, R355). A region restart resumes as
20 R352 gives. -/
def readCtx (g : Group) (win : Nat) (old : Ctx) (bs tail : List Byte) : Ctx :=
  let w := g.w
  let v (lo : Nat) : Word := .ofNat 64 (field bs lo 8)
  let map := field bs 32 8
  let regs := (List.range 64).filter map.testBit
  let planes := tail.drop (w * win)
  let kind2 : Bool := field bs 0 2 = 2
  let pocket := each (List.range (w * win)) ([] : Tbl Byte) fun p i =>
    if tail.getD i 0 = 0 then p else put p (pocketKey (i / win) (i % win)) (tail.getD i 0)
  { pc := v 8, active := v 16, live := v 24, depth := field bs 5 1
    stack := ((List.range (field bs 4 1)).map fun i => readEntry (bs.drop (472 + 4 * w + 48 * i))).reverse
    s := (List.range 32).map fun i => v (128 + 8 * i), k := 0 :: (List.range 7).map fun i => v (384 + 8 * i)
    v := (List.range regs.length).map fun i => (regs.getD i 0, { vals := planeOf (planes.drop (4 * w * i)) w })
    taskid := (List.range w).map fun t => field bs (472 + 4 * t) 4
    fpflags := field bs 40 8, rv := field bs 48 8, region := if kind2 then 0 else v 56, sinkrec0 := v 112, sinkrec1 := v 120
    allot := field bs 64 8 % 128, cls := bits (field bs 64 8) 9 8, entry := v 72
    tdep := ((List.range 4).map fun i => v (80 + 8 * i)).filter (· != 0)
    tx := old.tx, spawnRem := v 440, pocket := pocket
    barWait := if (field bs 7 1).testBit 7 then some (field bs 7 1 % 16) else none
    ckpt := if !kind2 && v 56 = old.region then old.ckpt else none }

/-- Read consecutive lines of a group's address space through its near cache: their bytes, a fault, or a wait. -/
def readLines (s : State) (h : Nat) (g : Group) (accs : List Acc) : (Bad ⊕ Option (List Byte)) × State :=
  let (rs, s) := checkAll s g false 128 .read accs
  match failOf true (badsOf rs) with
  | some b => (.inl b, s)
  | none =>
    let ps := partsOf rs
    let s := each ps s fun s p => dropOther s g.core p.la p.slot
    if ps.any fun p => !storeReady s g.core p.la p.slot g.ctx.rv then (.inr none, s)
    else
      let (bs, s) := ps.foldl (fun (bs, s) p =>
        let (d, wv, _, s) := baseCopy s g.core p.la p.slot g.ctx.rv (groupLaunch s g).tenant
        (bs ++ lineBytes d p.lo p.n, modCtx s h fun x => { x with rv := max x.rv wv })) (([] : List Byte), s)
      (.inr (some bs), s)

/-- The accesses of the lines of `n` bytes from an address. -/
def readAccs (a : Word) (n : Nat) : List Acc := (List.range (ceilDiv n 128)).map fun i => { t := 0, ea := a + .ofNat 64 (128 * i) }

/-- Replace a group's shadow context by the one a record holds; its registers are allocated anew, those of a checkpoint that
stands being kept. -/
def takeShadow (s : State) (h : Nat) (g : Group) (old new : Ctx) : Act :=
  let kept := match new.ckpt with
    | some c => c.v.map fun (r : Nat × VReg) => r.2.pid
    | none => []
  let mine := (heldRegs old).eraseDups.filter fun p => !kept.contains p
  let freed := freeRegs (modCore s g.core fun k => each ((old.wins.map (·.pids)).flatten.map (·.1)) k landFlight) g.core mine
  if !rowsFree (setGroup freed h { g with shadow := none }) g.core (new.v.length * rowsOf g.w) then .wait s
  else
    let (x, s) := loadCtx freed g.core g.w new
    .done (setGroup s h { g with shadow := some { x with wins := x.wins.map fun v => { v with pids := [] } } })

/-- Read a record's windows one after another, so that no line past them is read: the offset after them, and the bytes. -/
def readRest (n : Nat) (s : State) (h : Nat) (g : Group) (a : Word) (pos : Nat) (bs : List Byte) : Nat × (Bad ⊕ Option (List Byte)) × State :=
  match n with
  | 0 => (pos, .inr (some bs), s)
  | n + 1 =>
    let p := field bs (pos + 2) 1
    let u := field bs (pos + 3) 1
    if 16 < p || 4 < u then (pos, .inr (some bs), s)
    else
      let pos := pos + 16 + alignUp (4 * g.w * p + 8 * u) 16
      match readLines s h g (readAccs a (pos + 16)) with
      | (.inr (some bs), s) => readRest n s h g a pos bs
      | (r, s) => (pos, r, s)

/-- Read the context record at an address (20 R354 to R358): the context it holds, or the fault or wait that it comes to first.
A record that fails a check changes nothing. -/
def recordOf (s : State) (h : Nat) (g : Group) (old : Ctx) (a : Word) : Act ⊕ (Ctx × State) :=
  let bad (s : State) : Act ⊕ (Ctx × State) := .inl (.bad { code := 0x29, cause := 3 } s)
  let win := (groupLaunch s g).rc.pocket
  match readLines s h g (readAccs a 128) with
  | (.inl b, s) => .inl (.bad b s)
  | (.inr none, s) => .inl (.wait s)
  | (.inr (some head), s) =>
    if !headerOk g head then bad s
    else
      let fixed := fixedBytes g.w (field head 4 1)
      let rest := win * g.w + 4 * g.w * popCount 64 (field head 32 8)
      match readLines s h g (readAccs a (fixed + 16)) with
      | (.inl b, s) => .inl (.bad b s)
      | (.inr none, s) => .inl (.wait s)
      | (.inr (some first), s) =>
        if !bodyOk g first then bad s
        else
          match readRest (field head 6 1) s h g a fixed first with
          | (_, .inl b, s) => .inl (.bad b s)
          | (_, .inr none, s) => .inl (.wait s)
          | (_, .inr (some bs), s) =>
            let (rs, _) := readWins g.w (field head 6 1) (bs.drop fixed)
            if !rs.all (·.ok) then bad s
            else
              let n := fixed + (rs.map (·.size)).sum
              match readLines s h g (readAccs a (n + rest)) with
              | (.inl b, s) => .inl (.bad b s)
              | (.inr none, s) => .inl (.wait s)
              | (.inr (some bs), s) =>
                if (bs.drop (n + rest)).any (· != 0) then bad s
                else
                  let new := readCtx g win old bs (bs.drop n)
                  match winsOfRecs s g old new rs (.ofNat 64 (field bs 448 8)) (.ofNat 64 (field bs 456 8)) (field bs 464 1) with
                  | (none, s) => bad s
                  | (some (ws, ks), s) => .inr ({ new with wins := ws, sinks := ks }, s)

/-- `CTXLD` (20 R358): the shadow context is replaced by the one a record holds. -/
def execCtxld (f : FOps) (s : State) : Host.Outcome State Fault Refusal :=
  issueHandler s .ctxld f { ur := [f.a.toNat] } fun s h g old =>
    let a := readS g.ctx f.a.toNat
    if a.toNat % 128 ≠ 0 then .bad { code := 0x10, va := a.toNat } s
    else match recordOf s h g old a with
      | .inl r => r
      | .inr (new, s) => match groupOf s h with
        | some g => takeShadow s h g old new
        | none => .wait s

end Sys2Proof.Machine
end

