-- ==== Sys2Proof/Machine/Partition.lean ====
section
/-! DEFINITION. Partitions: their descriptor, resizes, changes of slices and channels, the completion of launches, address
spaces, handler tables, context pools, communicators and key slots (19 R343 to R348, R334, 20 R359, R363, R367, 21 R376,
R379, R380, 10 R267). -/

namespace Sys2Proof.Machine

/-! ### The descriptor -/

/-- The set bits of a field. -/
def bitsOf (n x : Nat) : List Nat := (List.range n).filter x.testBit

/-- A partition as its descriptor gives it (19 R343), without what is read from the tables it names. -/
def parseDesc (bs : List Byte) : Partition :=
  { step := field bs 4 2, cores := bitsOf 256 (field bs 8 32), slices := bitsOf 256 (field bs 40 32), channels := bitsOf 384 (field bs 72 48)
    engines := bitsOf 48 (field bs 120 6), ovBase := (List.range 4).map fun d => field bs (136 + 8 * d) 8, ovLog := field bs 168 1
    ring := field bs 184 8, ringLog := field bs 192 1 }

/-- The first reserved byte of a descriptor that is not zero (19 R343, 00 R6). -/
def descStray (bs : List Byte) : Option Nat :=
  ((List.range 3).map (· + 1) ++ [6, 7, 126, 127] ++ (List.range 7).map (· + 169) ++ (List.range 63).map (· + 193)).find? fun i => bs.getD i 0 != 0

/-- Whether a home table entry is valid for a set of slices (19 R344). -/
def homeOk (slices : List Nat) (e : Nat) : Bool :=
  let h := bits e 7 0
  let on (d : Nat) : Nat := bits e (6 * d + 13) (6 * d + 8)
  bits e 63 32 = 0 && slices.contains h && on (h / 64) = h % 64
    && (List.range 4).all fun d => if slices.any fun x => x / 64 = d then slices.contains (64 * d + on d) else on d = 0

/-- Numbers of `k` bytes one after another. -/
def numbers (k : Nat) : Nat → List Byte → List Nat
  | 0, _ => []
  | n + 1, bs => leNat (bs.take k) :: numbers k n (bs.drop k)

/-- A home table's entries. -/
def homeEntries (bs : List Byte) : List Nat := numbers 8 1024 bs

/-- A tenant table's members (19 R343): the entries' reserved bits must be zero. -/
def tenantsOf (bs : List Byte) : Tbl Tenant :=
  ((List.range 128).zip (numbers 16 128 bs)).filterMap fun (i, e) =>
    if e.testBit 64 then some (i, { budget := bits e 39 0, balance := bits e 39 0 }) else none

/-- Whether a tenant table's reserved bits are zero. -/
def tenantsOk (bs : List Byte) : Bool := (numbers 16 128 bs).all fun e => bits e 63 40 = 0 && bits e 127 65 = 0

/-- The offsets that the failing checks of a descriptor name (19 R343, R344, 00 R6): `but` is the partition whose own resources
do not count as taken. -/
def descBad_ (s : State) (bs home tenants : List Byte) (but : Option Nat) : List Nat :=
  let v := parseDesc bs
  let bad (off : Nat) (b : Bool) : List Nat := if b then [off] else []
  let taken (get : Partition → List Nat) : Bool := s.parts.any fun p => but != some p.1 && (get p.2).any (get v).contains
  (descStray bs).toList
    ++ bad 0 (decide (63 < field bs 0 1) || (but.isNone && (find s.parts (field bs 0 1)).isSome))
    ++ bad 4 (v.step = 0) ++ bad 8 (taken (·.cores)) ++ bad 40 (taken (·.slices) || (!v.cores.isEmpty && v.slices.isEmpty))
    ++ bad 72 (taken (·.channels) || (!v.cores.isEmpty && v.channels.isEmpty)) ++ bad 120 (taken (·.engines))
    ++ bad 128 ((homeEntries home).any fun e => decide (2 ^ 32 ≤ e) || (!v.slices.isEmpty && !homeOk v.slices e))
    ++ bad 168 (decide (v.ovLog < 12) || decide (24 < v.ovLog)) ++ bad 176 (!tenantsOk tenants)
    ++ bad 192 (decide (v.ringLog < 4) || decide (12 < v.ringLog))

/-- Clear the prefetch counters of slices and channels that are given to a partition (10 R263). -/
def clearCounters (s : State) (slices channels : List Nat) : State :=
  { s with prefS := each slices s.prefS del, prefP := each channels s.prefP del }

/-- Read a descriptor and the tables it names. -/
def withDesc (s : State) (name : String) (a : Nat) (body : List Byte → List Byte → List Byte → State → Host.Outcome State Fault Refusal) :
    Host.Outcome State Fault Refusal :=
  withBytes s name a 256 fun bs s => withBytes s name (field bs 128 8) 8192 fun home s =>
    withBytes s name (field bs 176 8) 2048 fun tenants s => body bs home tenants s

/-- The lines of a partition have their write vintages and lease ends at zero (12 R285). -/
def zeroLines (s : State) (p : Nat) : State := { s with lines := s.lines.map fun x => (x.1, rebaseLine s p x.1 x.2) }

/-- `CREATE_PARTITION` (19 R343). -/
def execCreatePartition (s : State) : Host.Outcome State Fault Refusal :=
  perform s "CREATE_PARTITION" 0x01 [(8, 8)] fun s => withDesc s "CREATE_PARTITION" (req s 8 8) fun bs home tenants s =>
    match least (descBad_ s bs home tenants none) with
    | some off => .next (reject s off)
    | none =>
      let p := field bs 0 1
      let v := { parseDesc bs with home := homeEntries home, tenants := tenantsOf tenants, period := s.sched / 2 ^ 20
                                   ctr := some (Config.counterPage p) }
      let s := clearCounters s v.slices v.channels
      .next (answerDone (zeroLines { s with parts := put s.parts p v } p))

/-! ### Quiescing -/

/-- Write back every dirty line of a core and drop every read copy, vintages being kept (12 R302 step 2, 19 R348). -/
def quietCore (s : State) (c : Nat) : State :=
  let s := (drainNow s c).2
  modCore s c fun k => { k with near := k.near.filter fun n => n.2.st == .exclusive }

/-- Bring every line of a partition home, and drop the other dies' copies and the directory's entries for them. -/
def gatherLines (s : State) (p : Nat) : State :=
  let s := each ((s.lines.map (·.1)).filter fun la => partOfLine s la = p) s fun s la => gather s la false
  { s with dir := s.dir.filter fun e => !(partOf s p).slices.contains e.slice }

/-- Write every line of a partition back to the stacks, and forget its copies; the vintages stay. -/
def emptyLines (s : State) (p : Nat) : State :=
  each ((s.lines.map (·.1)).filter fun la => partOfLine s la = p) s fun s la =>
    let l := lineSt s la
    let s := match l.home with
      | some d => if l.homeDirty then memBack s la l.slot d else s
      | none => s
    modLine s la fun l => { l with home := none, homeDirty := false, pf := none }

/-- Whether a partition is quiet and the homes of its cores' dirty lines are ready. -/
def quiesced (s : State) (p : Nat) : Bool := partQuiet s p && (partOf s p).cores.all (canDrain s)

/-- Quiesce a partition (19 R348). -/
def quiesce (s : State) (p : Nat) : State := gatherLines (each (partOf s p).cores s quietCore) p

/-- `DESTROY_PARTITION` (21 R374): a partition that holds no launch. -/
def execDestroyPartition (s : State) : Host.Outcome State Fault Refusal :=
  performPart s "DESTROY_PARTITION" 0x02 [] fun s p _ =>
    if !(liveLaunches s p).isEmpty then .next (reject s 2)
    else if !quiesced s p then notNow "DESTROY_PARTITION"
    else
      let s := emptyLines (quiesce s p) p
      let cs := (partOf s p).cores
      let s := each cs s fun s c => modCore s c fun k => { k with near := [], tlb := [], casks := [], tokens := [], target := 0, blocks := [] }
      .next (answerDone { s with parts := del s.parts p, engines := s.engines.filter fun e => e.2.part != p
                                 tasks := s.tasks.filter fun t => t.1 / 2 ^ 28 != p, boosts := s.boosts.filter fun b => b.part != p })

/-- `SLICE_CHANNEL_HOME_TABLE_CHANGE` (19 R348): a quiesced partition takes new slices, channels, home table and engines from a
descriptor of its own. -/
def execSliceChannelHomeTableChange (s : State) : Host.Outcome State Fault Refusal :=
  let name := "SLICE_CHANNEL_HOME_TABLE_CHANGE"
  let p := s.subj.part
  match find s.parts p with
  | none => notNow name
  | some _ => withDesc s name s.subj.desc fun bs home tenants s =>
    if field bs 0 1 ≠ p || !(descBad_ s bs home tenants (some p)).isEmpty || !quiesced s p then notNow name
    else
      let s := emptyLines (quiesce s p) p
      let v := parseDesc bs
      let old := partOf s p
      let s := clearCounters s (v.slices.filter fun x => !old.slices.contains x) (v.channels.filter fun x => !old.channels.contains x)
      .next (modPart s p fun o => { o with slices := v.slices, channels := v.channels, engines := v.engines, home := homeEntries home })

/-! ### Resizes -/

/-- The bitmap of a list of numbers. -/
def bitmap (l : List Nat) : Nat := (l.eraseDups.map fun i => 2 ^ i).sum

/-- A running cooperative launch that a set of cores would be too few for (19 R347). -/
def tooFew (s : State) (p : Nat) (cores : List Nat) : Option Nat :=
  ((liveLaunches s p).find? fun l => l.2.rc.coop != 0 && l.2.next != 0 && !l.2.cancelled && !l.2.killed && decide (cores.length < l.2.rc.coop)).map (·.1)

/-- The launches with a team resident on a core. -/
def launchesOn (s : State) (c : Nat) : List Nat :=
  ((s.teams.filter fun t => t.2.st == .resident && !t.2.cask && (teamCores t.2).contains c && !(liveGroups s t.1).isEmpty).map fun t => t.2.launch).eraseDups

/-- Once every removed core has left, the resize record is written (19 R346). -/
def endResize (s : State) (p : Nat) : State :=
  let v := partOf s p
  if v.removing.isEmpty && v.newCores.isSome && v.pendingCoop.isNone then
    let s := ringWrite s p 1 0 [(32, 32, bitmap v.cores)]
    send (modPart s p fun v => { v with newCores := none, blockers := [] }) .teamPlacement { part := p }
  else s

/-- Begin a resize (19 R346): added cores are open at once; a removed core receives no new team. -/
def beginResize (s : State) (p : Nat) (cores : List Nat) : State :=
  let v := partOf s p
  let gone := v.cores.filter fun c => !cores.contains c
  let s := modPart s p fun v => { v with
    cores := v.cores ++ cores.filter (fun c => !v.cores.contains c), removing := gone, newCores := some cores, pendingCoop := none
    blockers := (gone.map fun c => (launchesOn s c).map fun l => (c, l)).flatten }
  endResize (each gone s fun s c => send s .coreLeave { part := p, core := c }) p

/-- Resize a partition's cores (19 R346, R347): it waits for a cooperative launch that would have too few, or with force kills
it first. -/
def resize (s : State) (p : Nat) (cores : List Nat) (force : Bool) : State :=
  match tooFew s p cores with
  | none => beginResize s p cores
  | some l =>
    if force then
      let why : KillWhy := { code := 0x31, cause := 0, addr := 0, va := 0, relaunch := false }
      let kill (s : State) (l : Nat) : State :=
        let s := modLaunch s l fun l => { l with killed := true }
        send (each ((teamsOf s l).filter fun t => teamLives t.2) s fun s t => killTeam s t.1 why 0) .launchCompletion { launch := l }
      let all := (liveLaunches s p).filter fun x => x.2.rc.coop != 0 && x.2.next != 0 && !x.2.cancelled && !x.2.killed && decide (cores.length < x.2.rc.coop)
      beginResize (each all s fun s x => kill s x.1) p cores
    else
      let s := ringWrite s p 2 (launchOf s l).slot []
      modPart s p fun v => { v with newCores := some cores, pendingCoop := some l }

/-- A pending resize goes on once the launch it waits for has completed (19 R347). -/
def resumeResize (s : State) (p : Nat) : State :=
  let v := partOf s p
  match v.pendingCoop, v.newCores with
  | some l, some cores => if (launchOf s l).done then resize (modPart s p fun v => { v with pendingCoop := none }) p cores false else s
  | _, _ => s

/-- `RESIZE` (19 R346, R347): the core bitmap's cores must not be another partition's. -/
def execResizeRequest (s : State) : Host.Outcome State Fault Refusal :=
  performPart s "RESIZE" 0x03 [(8, 8), (16, 1)] fun s p v => withBytes s "RESIZE" (req s 8 8) 32 fun bs s =>
    let cores := bitsOf 256 (leNat bs)
    if s.parts.any fun x => x.1 != p && x.2.cores.any cores.contains then .next (reject s 8)
    else if !cores.isEmpty && (v.slices.isEmpty || v.channels.isEmpty) then .next (reject s 8)
    else if 1 < req s 16 1 then .next (reject s 16)
    else .next (answerDone (resize s p cores (req s 16 1 = 1)))

/-- `CORE_LEAVE` (19 R346): a removed core leaves once every launch that had a team on it has completed, or it holds no team;
its records move to its die's overflow area, and its lines go home. -/
def execCoreLeave (s : State) : Host.Outcome State Fault Refusal :=
  let p := s.subj.part
  let c := s.subj.core
  let v := partOf s p
  let recs := ((coreOf s c).casks.map fun k => k.2.recs).flatten
  let free := (seats s c).isEmpty && !(s.teams.any fun t => t.2.granules.any fun g => g.1 = c)
  let ended := (v.blockers.filter fun b => b.1 = c).all fun b => (launchOf s b.2).done
  if !v.removing.contains c || !(free || (ended && (seats s c).isEmpty)) || !canDrain s c
      || 2 ^ v.ovLog < (look v.ov (dieOf c) []).length + recs.length then notNow "CORE_LEAVE"
  else
    let s := each recs (quietCore s c) fun s r => ringPut s p (dieOf c) r
    let s := modCore s c fun k => { k with near := [], tlb := [], casks := [], tokens := [], target := 0, blocks := [] }
    .next (endResize (modPart s p fun v => { v with cores := v.cores.filter (· != c), removing := v.removing.filter (· != c)
                                                    designated := match v.designated with
                                                      | some (d, l, n) => if d = c then none else some (d, l, n)
                                                      | none => none }) p)

/-! ### Launch completion -/

/-- `LAUNCH_COMPLETION` (19 R334, 17 R325, 18 R328): the record is written after the lines that the cores it ran on held dirty
under lazy release are at their homes, and the launch's slot is free. -/
def execLaunchCompletion (s : State) : Host.Outcome State Fault Refusal :=
  let id := s.subj.launch
  match find s.launches id with
  | none => notNow "LAUNCH_COMPLETION"
  | some l =>
    let cores := (partOf s l.part).cores.filter l.ran.contains
    if l.done || !(l.cancelled || launchOver s id l) || !cores.all (canClean s) then notNow "LAUNCH_COMPLETION"
    else
      let s := dropConstants (cleanCores s cores) l.part
      let s := writeCompletion s l.vf l.q l.part l.rc.compl (completionBytes s id l)
      let s := modLaunch s id fun l => { l with done := true }
      let s := match turnQueue s l.part with
        | some (vf, q) => send s .launchRecordTake { vf := vf, q := q }
        | none => s
      let s := resumeResize s l.part
      let s := each (partOf s l.part).removing s fun s c => send s .coreLeave { part := l.part, core := c }
      .next (send s .teamPlacement { part := l.part })

/-! ### Tables that the driver installs -/

/-- `INSTALL_HANDLER_TABLE` (20 R359). -/
def execInstallHandlerTable (s : State) : Host.Outcome State Fault Refusal :=
  performPart s "INSTALL_HANDLER_TABLE" 0x08 [(8, 8)] fun s p _ => withBytes s "INSTALL_HANDLER_TABLE" (req s 8 8) 512 fun bs s =>
    let es := (List.range 64).map fun i => field bs (8 * i) 8
    let ok := es.getD 0 0 % 256 = 0 && (es.drop 1).all fun e => bits e 63 56 = 0 && bits e 2 1 = 0
    if ok then .next (answerDone (modPart s p fun v => { v with handlers := es.map (.ofNat 64) })) else .next (reject s 8)

/-- `REGISTER_CONTEXT_POOL` (20 R349). -/
def execRegisterContextPool (s : State) : Host.Outcome State Fault Refusal :=
  performPart s "REGISTER_CONTEXT_POOL" 0x09 [(8, 16)] fun s p _ =>
    .next (answerDone (modPart s p fun v => { v with pool := req s 8 8, poolLen := req s 16 8 }))

/-- The communicator of a collective that has been sent and has not completed (08 R225). -/
def sentOn (s : State) (c : Cmd) : Option Nat :=
  if c.kind != .coll || c.st != .running || c.prog ≠ 0 then none
  else match virtRead s c (c.reg 0).toNat 64 with
    | .ok (bs, s) => some (collOf s bs).comm
    | .error _ => none

/-- `SET_COMMUNICATOR` (21 R376): rejected while a collective is in progress on it. -/
def execSetCommunicator (s : State) : Host.Outcome State Fault Refusal :=
  perform s "SET_COMMUNICATOR" 0x0A [(8, 16)] fun s =>
    let i := req s 8 8
    withBytes s "SET_COMMUNICATOR" (req s 16 8) 64 fun bs s =>
      let m : Comm := { count := field bs 0 2, rank := field bs 2 2, path := field bs 4 1, mask := field bs 5 1, table := field bs 8 8 }
      if 4095 < i then .next (reject s 8)
      else if s.cmds.any fun c => sentOn s c.2 = some i then .next (reject s 8)
      else if m.count < 2 || 4096 < m.count || m.count ≤ m.rank || 1 < m.path || field bs 6 2 ≠ 0 || field bs 16 48 ≠ 0 then .next (reject s 16)
      else .next (answerDone { s with comms := put s.comms i m })

/-! ### Address spaces -/

/-- `SET_ADDRESS_SPACE` (20 R363): an address-space id is unique in the device. -/
def execSetAddressSpace (s : State) : Host.Outcome State Fault Refusal :=
  perform s "SET_ADDRESS_SPACE" 0x0C [(8, 24)] fun s =>
    let vf := req s 8 8
    let a := req s 16 8
    let root := req s 24 8
    if 127 < vf then .next (reject s 8)
    else if 4095 < a || s.vfs.any fun v => v.1 != vf && v.2.root.isSome && v.2.asid = a then .next (reject s 16)
    else if root % 4096 ≠ 0 || 2 ^ 52 ≤ root then .next (reject s 24)
    else .next (answerDone { s with vfs := put s.vfs vf { look s.vfs vf {} with asid := a, root := some root } })

/-- `INVALIDATE_TRANSLATIONS` (20 R367): the reply follows the invalidation's completion. -/
def execInvalidateTranslations (s : State) : Host.Outcome State Fault Refusal :=
  perform s "INVALIDATE_TRANSLATIONS" 0x0B [(8, 16)] fun s =>
    let a := req s 8 8
    let va := req s 16 8
    if s.mgmt.phase ≠ 0 then notNow "INVALIDATE_TRANSLATIONS"
    else if 4095 < a then .next (reject s 8)
    else if 2 ^ 56 ≤ va && va ≠ 2 ^ 64 - 1 then .next (reject s 16)
    else .next (beginInval { s with mgmt := { s.mgmt with phase := 1 } } none (s.cores.map (·.1)) none
      (if va = 2 ^ 64 - 1 then .asid a else .page a va))

/-! ### Key slots -/

/-- The slot a key request names: 1 to 1,023 (21 R379). -/
def keySlot (s : State) : Option Nat := if req s 8 8 = 0 || 1023 < req s 8 8 then none else some (req s 8 8)

/-- `KEY_CREATE` (21 R379): the slot's key pair is the bytes the message holds. -/
def execKeyCreate (s : State) : Host.Outcome State Fault Refusal :=
  perform s "KEY_CREATE" 0x10 [(8, 16)] fun s => match keySlot s with
    | none => .next (reject s 8)
    | some k =>
      if (look s.keys k {}).live then .next (reject s 8)
      else withBytes s "KEY_CREATE" (req s 16 8) 384 fun bs s => match Config.oaepOpen bs with
        | none => .next (reject s 16)
        | some key => .next (answerDone { s with keys := put s.keys k { live := true, key := leNat key + 1 } })

/-- `KEY_BIND` (21 R379). -/
def execKeyBind (s : State) : Host.Outcome State Fault Refusal :=
  perform s "KEY_BIND" 0x11 [(8, 16)] fun s => match keySlot s with
    | none => .next (reject s 8)
    | some k =>
      let x := look s.keys k {}
      let vf := req s 16 8
      if !x.live then .next (reject s 8)
      else if 127 < vf then .next (reject s 16)
      else .next (answerDone { s with keys := put s.keys k { x with bound := if x.bound.contains vf then x.bound else x.bound ++ [vf] } })

/-- `KEY_UNBIND` (21 R379, R380). -/
def execKeyUnbind (s : State) : Host.Outcome State Fault Refusal :=
  perform s "KEY_UNBIND" 0x12 [(8, 16)] fun s => match keySlot s with
    | none => .next (reject s 8)
    | some k =>
      let x := look s.keys k {}
      if !x.bound.contains (req s 16 8) then .next (reject s 16)
      else .next (answerDone { s with keys := put s.keys k { x with bound := x.bound.filter (· != req s 16 8) } })

/-- Drop every near-cache copy, dirty and pending lines included, that a slot tags (10 R267). -/
def dropTagged (s : State) (k : Nat) : State :=
  { s with cores := s.cores.map fun (c, v) => (c, { v with near := v.near.filter fun n => n.2.slot != k
                                                           pend := v.pend.filter fun p => p.slot != k }) }

/-- Drop every slice's copy of lines that a slot tags, of those that nothing is moving (10 R267). -/
def dropSliced (s : State) (k : Nat) : State :=
  each (s.lines.map (·.1)) s fun s la =>
    let l := lineSt s la
    if (l.slot != k && l.copies.all (fun c => c.2.slot != k)) || !lineReady s la then s
    else
      let s := unused (modLine s la fun l => { l with copies := l.copies.filter fun c => c.2.slot != k }) la
      let s := if l.slot = k then modLine s la fun l => { l with home := none, homeDirty := false } else s
      dirSync s la

/-- Drop what the Presses' buffers hold under a slot: it leaves unused (10 R263, R267). -/
def dropBuffered (s : State) (k : Nat) : State :=
  each (s.prefP.map (·.1)) s fun s c =>
    each ((look s.prefP c {}).buffer.filter fun x => slotOfLine s x.1 = k) s fun s x =>
      postPref (modPrefP s c fun p => { p with evicted := p.evicted + 1, buffer := p.buffer.erase x }) true c 0x113 x.1 x.2

/-- Drop every copy that a slot tags. -/
def dropSlot (s : State) (k : Nat) : State := dropBuffered (dropSliced (dropTagged s k) k) k

/-- Whether a message carries a line under a slot. -/
def carries (s : State) (k : Nat) (d : Due) : Bool :=
  match d.ev with
  | .nearCacheMiss r | .nearCacheFill r _ _ _ | .homeRead _ r | .homeReadExclusive _ r | .homeUpgrade _ r | .exclusiveGrant _ r => r.slot == k
  | .nearCacheWriteback m | .writebackAck m _ => m.slot == k
  | .homeRelease m => m.slot == k
  | .homeAcquire m => m.slot == k
  | .homeAtomic m => m.slot == k
  | .forwardReply _ la _ _ | .sliceWriteback _ la _ _ => (lineSt s la).slot == k
  | .sinkProbe | .sinkHoldGrant | .sinkInstance | .sinkResult | .slicePrefetch => d.subj.slot == k
  | .pressPrefetch => slotOfLine s d.subj.la == k
  | _ => false

/-- Whether a sink group holds a line under a slot (11 R278). -/
def slotHeld (s : State) (k : Nat) : Bool :=
  s.groups.any fun g => g.2.ctx.sinks.any fun x => x.2.lines.any fun l => l.2.2 = k && (lineSt s l.2.1).hold == some x.1

/-- The ranges of virtual memory that a command reads and writes, as addresses and lengths; a collective's buffers are those its
descriptor names. -/
def Cmd.ranges (s : State) (c : Cmd) : List (Word × Nat) :=
  let rows (slot : Nat) (base scale : Word) (m k : Nat) : List (Word × Nat) :=
    [(base, ((m - 1) * rowblkOf slot + ceilDiv k 16) * groupBytes slot),
     (scale, scaleIndex slot k (m - 1) (ceilDiv k 16) * sstrideOf slot + 2)]
  match c.kind with
  | .copy => [(c.reg 0, bits (c.reg 2).toNat 39 0), (c.reg 1, bits (c.reg 2).toNat 39 0)]
  | .fill => [(c.reg 0, bits (c.reg 2).toNat 39 0)]
  | .press => (((c.prProg.filter fun o => decide (o < 4)).eraseDups) ++ [4]).map fun i => (c.reg i, c.prCount * elemBytes (efmtOf (c.prSlot i)))
  | .lnest => (if c.lnY then [0, 1, 2] else [0, 2]).map fun o =>
      (plus (c.lnBase o) (lnSpan c o).1, ((lnSpan c o).2 - (lnSpan c o).1).toNat)
  | .tmma => rows c.slotP (c.reg 0) (c.reg 2) c.shape.m c.shape.k ++ rows c.slotQ (c.reg 1) (c.reg 3) c.shape.n c.shape.k
  | .tstore => rows c.slotP (c.reg 0) (c.reg 1) c.shape.m c.shape.n ++ [(c.reg 2, 4)]
  | .tzero => []
  | .coll => (c.reg 0, 64) :: (match virtRead s c (c.reg 0).toNat 64 with
    | .error _ => []
    | .ok (bs, _) =>
      let d := collOf s bs
      [(.ofNat 64 d.send, d.count * elemBytes d.fmt), (.ofNat 64 d.recv, d.count * elemBytes d.fmt)])

/-- Whether a command accesses memory under a slot. -/
def cmdUnder (s : State) (k : Nat) (c : Cmd) : Bool :=
  (c.ranges s).any fun (a, n) => !inScratch a && n != 0 && (List.range ((a.toNat % 65536 + n + 65535) / 65536)).any fun i =>
    match engLeaf s c.core (launchOf s c.launch).vf (a.toNat / 65536 * 65536 + 65536 * i) with
    | .ok l => l.slot == k
    | .error _ => false

/-- Whether an access under a slot is still outstanding anywhere: a message, a hold or transient state, a window, or a command that
has not stopped (10 R267). -/
def slotBusy (s : State) (k : Nat) : Bool :=
  s.due.any (carries s k) || slotHeld s k
    || s.lines.any (fun l => l.2.slot = k && (!(l.2.busy == .idle) || l.2.hold.isSome || !l.2.queue.isEmpty))
    || s.groups.any (fun g => g.2.ctx.wins.any fun w => !w.done && w.fault.isNone && w.parts.any fun p => p.slot = k && p.got.isNone)
    || s.cmds.any fun c => c.2.st == .running && cmdUnder s k c.2

/-- `KEY_DESTROY` (21 R379, 10 R267, 11 R278): once no sink group holds a line under the slot, no access under it passes any
more and every copy it tags is dropped; once what was on its way has ended, and every command under it has stopped, the reply
follows. -/
def execKeyDestroy (s : State) : Host.Outcome State Fault Refusal :=
  perform s "KEY_DESTROY" 0x13 [(8, 8)] fun s => match keySlot s with
    | none => .next (reject s 8)
    | some k =>
      if s.mgmt.phase = 0 then
        if !(look s.keys k {}).live then .next (reject s 8)
        else if slotHeld s k then notNow "KEY_DESTROY"
        else
          let s := dropSlot { s with keys := put s.keys k {} } k
          .next (send { s with mgmt := { s.mgmt with phase := 1 } } .keyDestroy)
      else if slotBusy s k then notNow "KEY_DESTROY"
      else .next (answerDone (dropSlot s k))

end Sys2Proof.Machine
end

