-- ==== Sys2Proof/Machine/Sha.lean ====
section
/-! DEFINITION. SHA-256, by which images are measured (21 R377, R378; log entry 12). -/

namespace Sys2Proof.Machine

/-- The largest number whose `k`-th power is at most `n`, where it takes at most `bits` bits. -/
def rootOf (k n bits : Nat) : Nat :=
  (List.range bits).foldr (fun i r => if (r + 2 ^ i) ^ k ≤ n then r + 2 ^ i else r) 0

/-- The primes below 312: the first 64. -/
def firstPrimes : List Nat := (List.range 312).filter fun n => decide (2 ≤ n) && (List.range n).all fun d => decide (d < 2) || n % d != 0

/-- SHA-256's word of a prime: the first 32 fraction bits of its `k`-th root. -/
def rootWord (k p : Nat) : W32 := .ofNat 32 (rootOf k (p * 2 ^ (32 * k)) 37)

/-- The round constants: from the cube roots of the first 64 primes. -/
def shaK : List W32 := firstPrimes.map (rootWord 3)

/-- The words SHA-256 begins with, from the square roots of the first eight primes, as two runs of four. -/
def shaStart : List W32 × List W32 :=
  let ws := (firstPrimes.take 8).map (rootWord 2)
  (ws.take 4, ws.drop 4)

/-- The number a list of bytes holds, first byte highest. -/
def beNat (bs : List Byte) : Nat := leNat bs.reverse

/-- Three rotations of a word, summed bitwise. -/
def spin (x : W32) (i j k : Nat) : W32 := x.rotateRight i ^^^ x.rotateRight j ^^^ x.rotateRight k

/-- Two rotations and a shift of a word, summed bitwise. -/
def slide (x : W32) (i j k : Nat) : W32 := x.rotateRight i ^^^ x.rotateRight j ^^^ x >>> k

/-- The words of a block's message schedule, the last first. -/
def shaWords (block : List Byte) : List W32 :=
  let first := (List.range 16).map fun i => (.ofNat 32 (beNat ((block.drop (4 * i)).take 4)) : W32)
  (List.range 48).foldl (fun ws _ =>
    let back (n : Nat) : W32 := ws.getD (n - 1) 0
    (back 16 + slide (back 15) 7 18 3 + back 7 + slide (back 2) 17 19 10) :: ws) first.reverse

/-- One round, from the sum of its constant and its schedule's word. The working words are the last four of each of two
sequences, whose newest stand first. -/
def shaStep (v : List W32 × List W32) (kw : W32) : List W32 × List W32 :=
  let a (i : Nat) : W32 := v.1.getD i 0
  let e (i : Nat) : W32 := v.2.getD i 0
  let into := e 3 + kw + spin (e 0) 6 11 25 + (e 0 &&& (e 1 ^^^ e 2) ^^^ e 2)
  let more := spin (a 0) 2 13 22 + (a 0 &&& a 1 ||| (a 0 ||| a 1) &&& a 2)
  ((into + more) :: v.1, (a 3 + into) :: v.2)

/-- The chaining value after one block. -/
def shaBlock (v : List W32 × List W32) (block : List Byte) : List W32 × List W32 :=
  let r := (List.zipWith (· + ·) shaK (shaWords block).reverse).foldl shaStep v
  (List.zipWith (· + ·) v.1 r.1, List.zipWith (· + ·) v.2 r.2)

/-- A message with its closing bit, zeros and length: a whole number of blocks. -/
def shaPad (bs : List Byte) : List Byte :=
  bs ++ (0x80 : Byte) :: List.replicate ((119 - bs.length % 64) % 64) 0 ++ (leBytes 8 (8 * bs.length)).reverse

/-- The 32-byte SHA-256 digest of a message. -/
def sha256 (bs : List Byte) : List Byte :=
  let msg := shaPad bs
  let v := (List.range (msg.length / 64)).foldl (fun v i => shaBlock v ((msg.drop (64 * i)).take 64)) shaStart
  ((v.1 ++ v.2).map fun w => (leBytes 4 w.toNat).reverse).flatten

end Sys2Proof.Machine
end

