-- ==== Sys2Proof/Machine/Boot.lean ====
section
/-! DEFINITION. Boot, attestation and live update (21 R377, R378, 23 R406, R407). -/

namespace Sys2Proof.Machine

/-! ### Boot and the attestation log -/

/-- Append an image's digest to the attestation log (21 R378): stage, component, version. -/
def logImage (s : State) (stage component version : Nat) (bytes : List Byte) : State :=
  { s with boot := { s.boot with log := s.boot.log ++ [(stage + component % 2 ^ 16 * 2 ^ 16, version, sha256 bytes)] } }

/-- Boot stops at a stage, for a cause (21 R377). -/
def bootFails (s : State) (stage cause : Nat) : State := { s with boot := { s.boot with failed := stage, cause := cause } }

/-- `BOOT_STAGE` (21 R377): the stages go in order; stage 4 has several images; those of stages 2 to 4 are read, verified and
measured before they run. -/
def execBootStage (stage : Nat) (img : BootImage) (s : State) : Host.Outcome State Fault Refusal :=
  let b := s.boot
  if b.failed ≠ 0 || 5 < stage || !(stage = b.stage + 1 || (stage = 4 && b.stage = 4)) then notNow "BOOT_STAGE"
  else if stage = 1 || stage = 5 then .next { s with boot := { b with stage := stage } }
  else if !img.readOk then .next (bootFails s stage 3)
  else if !Config.signatureOk img.bytes then .next (bootFails s stage 1)
  else if img.version < Config.rollback then .next (bootFails s stage 2)
  else
    let s := logImage s stage img.component img.version img.bytes
    .next { s with boot := { s.boot with stage := stage } }

/-- The boot status register (21 R377). -/
def bootStatus (s : State) : Nat :=
  s.boot.failed % 256 + s.boot.cause % 256 * 256 + (if s.boot.stage = 5 then 2 ^ 63 else 0)

/-- One entry of the attestation log as bytes (21 R378). -/
def logBytes (i : Nat) (e : Nat × Nat × List Byte) : List Byte :=
  (leBytes 4 i ++ leBytes 4 e.1 ++ leBytes 8 e.2.1 ++ e.2.2 ++ List.replicate 16 0).take 64

/-- The chained value of a log (21 R378). -/
def chainValue (log : List (Nat × Nat × List Byte)) : List Byte :=
  log.foldl (fun h e => sha256 (h ++ e.2.2)) (List.replicate 32 0)

/-- `READ_ATTESTATION_LOG` (21 R378): entries from an index on are copied to a host address. -/
def execReadAttestationLog (s : State) : Host.Outcome State Fault Refusal :=
  perform s "READ_ATTESTATION_LOG" 0x20 [(8, 16)] fun s =>
    let i := req s 8 8
    let log := s.boot.log
    if log.length < i then .next (reject s 8)
    else
      let bs := ((List.range (log.length - i)).map fun j => logBytes (i + j) (log.getD (i + j) (0, 0, []))).flatten
      let l := fwSpans (Config.hostBase + req s 16 8) bs.length
      if spansReady s l then .next (answerDone (spansWrite s l bs)) else notNow "READ_ATTESTATION_LOG"

/-- `QUOTE` (21 R378): a signature over the nonce, the chained value and its length, and the key-transport key. -/
def execQuote (s : State) : Host.Outcome State Fault Refusal :=
  perform s "QUOTE" 0x21 [(8, 32)] fun s =>
    let nonce := (s.mgmt.cur.drop 8).take 32
    let log := s.boot.log
    let d := sha256 (nonce ++ chainValue log ++ leBytes 4 log.length)
    .next (answerDone { s with returned := Config.quoteSign d ++ Config.transportKey })

/-! ### Live update -/

/-- The teams of every partition with a group resident on a die (23 R407). -/
def teamsOnDie (s : State) (d : Nat) : List Nat :=
  (s.teams.filter fun (t, tm) => tm.st == .resident && (saveGroups s t).any fun h => match groupOf s h with
    | some g => dieOf g.core = d
    | none => false).map (·.1)

/-- Close a die's cores to placement in every partition. -/
def closeDie (s : State) (d : Nat) : State :=
  { s with parts := s.parts.map fun (p, v) => (p, { v with closed := d :: v.closed.filter (· != d) }) }

/-- Open a die's cores to placement again, and let every partition place. -/
def openDie (s : State) (d : Nat) : State :=
  let s := { s with parts := s.parts.map fun (p, v) => (p, { v with closed := v.closed.filter (· != d) }) }
  each s.parts s fun s p => send s .teamPlacement { part := p.1 }

/-- Stop a die's Taster, or let it go on. -/
def stopTaster (s : State) (d : Nat) (b : Bool) : State :=
  { s with tasters := put s.tasters d { look s.tasters d {} with stopped := b } }

/-- Whether every partition's pool has room for the teams a die's update is to save (23 R407 step 1). -/
def poolsFit (s : State) (ts : List Nat) : Bool :=
  s.parts.all fun (p, v) =>
    let mine := ts.filter fun t => (launchOf s (teamOf s t).launch).part = p
    decide (poolUsed s p + (mine.map (teamMax s)).sum ≤ v.poolLen)

/-- The first step of an update (23 R407 steps 1 and 2): the image is verified; for a die, its cores close, the pools' space is
reserved, and the saves of step 3 begin. New control firmware takes over after the reply. -/
def beginUpdate (s : State) (die : Nat) (bytes : List Byte) : State :=
  let log (s : State) : State := logImage s (if die = 4 then 3 else 4) (Config.imageComponent bytes) (Config.imageVersion bytes) bytes
  if !Config.signatureOk bytes || Config.imageVersion bytes < Config.rollback then reject s 8
  else if die = 4 then answerDone (log s)
  else
    let ts := teamsOnDie s die
    if !poolsFit s ts then answer s 3 0xFFFF []
    else
      let s := log (closeDie s die)
      let s := each ts s fun s t => if (teamOf s t).saving.isSome then s else beginSave s t false
      send { s with mgmt := { s.mgmt with phase := 1, list := ts, starts := Config.imageStarts die bytes } } .firmwareUpdate

/-- `FIRMWARE_UPDATE` (23 R406, R407). Once the die's teams are saved, its Taster takes no event and its Presses pause while
the images are loaded (steps 4 and 5); then the new image starts, or the old one resumes, and the die goes on (steps 6
and 7). -/
def execFirmwareUpdate (s : State) : Host.Outcome State Fault Refusal :=
  perform s "FIRMWARE_UPDATE" 0x30 [(8, 17)] fun s =>
    let a := req s 8 8
    let n := req s 16 8
    let d := req s 24 1
    if s.mgmt.phase = 0 then
      if n = 0 || 2 ^ 26 < n then .next (reject s 16)
      else if 4 < d then .next (reject s 24)
      else withBytes s "FIRMWARE_UPDATE" a n fun bs s => .next (beginUpdate s d bs)
    else if s.mgmt.phase = 1 then
      if !(teamsOnDie s d).isEmpty then notNow "FIRMWARE_UPDATE"
      else .next (send { stopTaster s d true with mgmt := { s.mgmt with phase := 2 } } .firmwareUpdate)
    else
      let ok := s.mgmt.starts
      let s := openDie (stopTaster { s with mgmt := { s.mgmt with list := [] } } d false) d
      .next (if ok then answerDone s else reject s 24)

end Sys2Proof.Machine
end

