-- ==== Sys2Proof/Machine/Cross.lean ====
section
/-! DEFINITION. The cross-thread and mask instructions (06 R148 to R155). -/

namespace Sys2Proof.Machine

/-- One thread's value of a vector operand of a type. -/
def readTy (x : Ctx) (ty : Ty) (r t : Nat) : Nat := readRun x r ty.regs t

/-- Keep a result where E is not empty (06 R148). -/
def ifAny (eff : Word) (r : Res) : Res := if eff = 0 then {} else r

/-- The threads of E whose value is not zero. -/
def voters (x : Ctx) (w : Nat) (eff : Word) (a : Nat) : List Nat := (threadsOf w eff).filter fun t => readV x a t != 0

/-- The value `VOTE` writes (06 R149). -/
def voteValue (x : Ctx) (w : Nat) (eff : Word) (mod a : Nat) : Word :=
  let v := voters x w eff a
  match mod with
  | 0 => if v.isEmpty then 0 else 1
  | 1 => if v.length = (threadsOf w eff).length then 1 else 0
  | 2 => maskOf v
  | _ => .ofNat 64 v.length

/-- `VOTE` (06 R149). -/
def execVote (f : FOps) (s : State) : Host.Outcome State Fault Refusal :=
  let io := (ioSrc false f.a.toNat 1 f.lrA).join { uw := [f.d.toNat] }
  issue s Op.vote.code 1 f.k f.kn false io fun x w eff =>
    .ok (ifAny eff { wr := [{ reg := f.d.toNat, uni := true, t := 0,
                              val := voteValue x w eff f.mod.toNat f.a.toNat }] })

/-- The thread `SHFL` reads for thread `t` (06 R150). -/
def shflSrc (w mod t b : Nat) : Nat :=
  match mod with
  | 0 => b % w
  | 1 => if b ≤ t then t - b else t
  | 2 => if t + b < w then t + b else t
  | _ => t ^^^ b % w

/-- `SHFL` (06 R150): b is one register, or the immediate read as an unsigned 32-bit number. -/
def execShfl (f : FOps) (s : State) : Host.Outcome State Fault Refusal :=
  let io := (ioSrc false f.a.toNat f.ty.regs f.lrA).join
    ((if f.x0 then {} else ioSrc false f.b.toNat 1 f.lrB).join (ioDst false f.d.toNat f.ty.regs))
  issue s Op.shfl.code 1 f.k f.kn false io fun x w eff =>
    .ok (perThread false w eff fun t =>
      let b := if f.x0 then wrapInt 32 f.imm else (readV x f.b.toNat t).toNat
      { wr := wrDst false f.d.toNat f.ty.regs t (readTy x f.ty f.a.toNat (shflSrc w f.mod.toNat t b)) })

/-- The identity of a scan (06 R151). -/
def scanId (mod : Nat) (ty : Ty) : Nat :=
  match mod with
  | 0 => if ty == .f32 then 2 ^ 31 else 0
  | 1 => if ty == .f32 then f32.inf else if ty.signed then 2 ^ (ty.width - 1) - 1 else 2 ^ ty.width - 1
  | 2 => if ty == .f32 then f32.sign true + f32.inf else if ty.signed then 2 ^ (ty.width - 1) else 0
  | 3 => 2 ^ ty.width - 1
  | _ => 0

/-- One step of a scan: the combined bits and the flags (06 R151). -/
def scanOp (mod : Nat) (ty : Ty) (sat : Bool) (a b : Nat) : Nat × Nat :=
  match mod with
  | 0 => if ty == .f32 then addV f32 .rn (unpackFloat f32 a) (unpackFloat f32 b)
    else (fitInt ty sat (intVal ty a + intVal ty b), 0)
  | 1 => if ty == .f32 then minmaxV f32 false a b else (fitInt ty false (min (intVal ty a) (intVal ty b)), 0)
  | 2 => if ty == .f32 then minmaxV f32 true a b else (fitInt ty false (max (intVal ty a) (intVal ty b)), 0)
  | 3 => (a &&& b, 0)
  | 4 => (a ||| b, 0)
  | _ => (a ^^^ b, 0)

/-- The running combination over the threads of E in temporal order: for each thread the value before and the value after
it, and the flags of all steps. -/
def scanAll (mod : Nat) (ty : Ty) (sat : Bool) (val : Nat → Nat) (ts : List Nat) :
    List (Nat × Nat × Nat) × Nat × Nat :=
  ts.foldl (fun (out, acc, fl) t =>
    let (v, f2) := scanOp mod ty sat acc (val t % 2 ^ ty.width)
    (out ++ [(t, acc, v)], v, fl ||| f2)) ([], scanId mod ty, 0)

/-- `GSCAN` (06 R151): x[1] makes the scan exclusive. Its result is long-latency (05 R110). -/
def execGscan (f : FOps) (s : State) : Host.Outcome State Fault Refusal :=
  let io := (ioSrc false f.a.toNat f.ty.regs f.lrA).join (ioDst false f.d.toNat f.ty.regs)
  issueLong s f io fun x w eff =>
    let (out, _, fl) := scanAll f.mod.toNat f.ty f.sat (readTy x f.ty f.a.toNat) (threadsOf w eff)
    .ok { wr := (out.map fun (t, pre, post) =>
            wrDst false f.d.toNat f.ty.regs t (extendTo f.ty false (if f.x.getLsbD 1 then pre else post))).flatten
          flags := fl }

/-- `GRED` (06 R151): x[1] makes d a uniform register. -/
def execGred (f : FOps) (s : State) : Host.Outcome State Fault Refusal :=
  let uni := f.x.getLsbD 1
  let io := (ioSrc false f.a.toNat f.ty.regs f.lrA).join (ioDst uni f.d.toNat f.ty.regs)
  issueLong s f io fun x w eff =>
    let (_, v, fl) := scanAll f.mod.toNat f.ty f.sat (readTy x f.ty f.a.toNat) (threadsOf w eff)
    let v := extendTo f.ty uni v
    .ok (ifAny eff { wr := if uni then wrDst true f.d.toNat 1 0 v
                           else ((threadsOf w eff).map fun t => wrDst false f.d.toNat f.ty.regs t v).flatten
                     flags := fl })

/-- The registers `BCAST` reads and writes, by form (06 R152). -/
def bcastIo (f : FOps) : Io :=
  match f.mod.toNat with
  | 0 => Io.join ({ ur := [f.a.toNat] } : Io) (ioDst false f.d.toNat f.ty.regs)
  | 1 => (ioSrc false f.a.toNat f.ty.regs f.lrA).join
      ((if f.x0 then ({} : Io) else { ur := [f.b.toNat] }).join (ioDst false f.d.toNat f.ty.regs))
  | _ => (ioSrc false f.a.toNat f.ty.regs f.lrA).join ({ uw := [f.d.toNat] } : Io)

/-- `BCAST` (06 R152). -/
def execBcast (f : FOps) (s : State) : Host.Outcome State Fault Refusal :=
  issue s Op.bcast.code 1 f.k f.kn false (bcastIo f) fun x w eff =>
    let all (v : Nat) : Res := perThread false w eff fun t => { wr := wrDst false f.d.toNat f.ty.regs t v }
    .ok (match f.mod.toNat with
      | 0 => all ((readS x f.a.toNat).toNat % 2 ^ f.ty.width)
      | 1 =>
        let b := if f.x0 then wrapInt 64 f.imm else (readS x f.b.toNat).toNat
        all (readTy x f.ty f.a.toNat (b % w))
      | _ => ifAny eff { wr := wrDst true f.d.toNat 1 0 (extendTo f.ty true (readTy x f.ty f.a.toNat (lowest eff))) })

/-- `MATCH` (06 R153): the mask of the threads of E that hold the same value, in a pair. -/
def execMatch (f : FOps) (s : State) : Host.Outcome State Fault Refusal :=
  let io := (ioSrc false f.a.toNat f.ty.regs f.lrA).join (ioDst false f.d.toNat 2)
  issue s Op.match_.code 1 f.k f.kn false io fun x w eff =>
    let v (t : Nat) : Nat := readTy x f.ty f.a.toNat t
    .ok (perThread false w eff fun t =>
      { wr := wrDst false f.d.toNat 2 t (maskOf ((threadsOf w eff).filter fun u => v u = v t)).toNat })

/-- The mask `KOP` computes (06 R154). -/
def kopValue (mod : Nat) (a b : Word) : Word :=
  match mod with
  | 0 => a &&& b
  | 1 => a ||| b
  | 2 => a ^^^ b
  | 3 => a &&& ~~~b
  | _ => ~~~a

/-- `KOP` (06 R154). -/
def execKop (f : FOps) (s : State) : Host.Outcome State Fault Refusal :=
  issue s Op.kop.code 1 f.k f.kn true {} fun x _ eff =>
    .ok (ifAny eff { masks := [(f.d.toNat, kopValue f.mod.toNat (maskReg x f.a.toNat) (maskReg x f.b.toNat))] })

/-- The registers `KMOV` reads and writes, by form (06 R155). -/
def kmovIo (f : FOps) : Io :=
  match f.mod.toNat with
  | 0 => { uw := [f.d.toNat] }
  | 1 => { ur := [f.a.toNat] }
  | 2 => { vw := [f.d.toNat] }
  | _ => ioSrc false f.a.toNat 1 f.lrA

/-- `KMOV` (06 R155). -/
def execKmov (f : FOps) (s : State) : Host.Outcome State Fault Refusal :=
  issue s Op.kmov.code 1 f.k f.kn f.u (kmovIo f) fun x w eff =>
    .ok (match f.mod.toNat with
      | 0 => ifAny eff { wr := wrDst true f.d.toNat 1 0 (maskReg x f.a.toNat).toNat }
      | 1 => ifAny eff { masks := [(f.d.toNat, readS x f.a.toNat)] }
      | 2 => perThread false w eff fun t =>
          { wr := wrDst false f.d.toNat 1 t (if (maskReg x f.a.toNat).getLsbD t then 1 else 0) }
      | _ => maskResult x false w f.d.toNat eff fun t => (readV x f.a.toNat t != 0, 0))

end Sys2Proof.Machine
end

