-- ==== Sys2Proof/Machine/Taster.lean ====
section
/-! DEFINITION. The Tasters: events, slots, budgets, the start and end of filter runs, and the host's register windows
(21 R372, 22 R381 to R400). -/

namespace Sys2Proof.Machine

/-! ### Slots -/

/-- A Taster. -/
def tasterOf (s : State) (d : Nat) : Taster := look s.tasters d {}
/-- Change a Taster. -/
def modTaster (s : State) (d : Nat) (f : Taster → Taster) : State := { s with tasters := put s.tasters d (f (tasterOf s d)) }
/-- A slot, by its number among the 64 (22 R381). -/
def slotOf (s : State) (i : Nat) : TSlot := look s.slots i {}
/-- Change a slot. -/
def modSlot (s : State) (i : Nat) (f : TSlot → TSlot) : State := { s with slots := put s.slots i (f (slotOf s i)) }

/-- Whether the event's numbers name a slot of a die. -/
def slotAt (die slot : Nat) : Bool := decide (die < 4) && decide (slot < 64) && slot / 16 = die

/-- The budget entry a slot is charged to (22 R392). -/
def entryOf (v : TSlot) : Nat := if v.owner = 0xFF then 128 else v.owner

/-- A 64-bit count one higher. -/
def more (n : Nat) : Nat := (n + 1) % 2 ^ 64

/-- Whether a slot accepts an event (22 R384, R392). -/
def accepts (v : TSlot) (e : TEvent) : Bool :=
  v.run && v.bound && (v.owner = 0xFF || v.owner = e.tenant) && v.kinds.testBit (e.source / 4096) && decide (v.low ≤ e.code) && decide (e.code ≤ v.high)

/-- Offer an event to a slot (22 R392). -/
def offer (s : State) (i : Nat) (e : TEvent) : State :=
  let v := slotOf s i
  if !accepts v e then s
  else if 64 ≤ v.queue.length then modSlot s i fun v => { v with qdrops := more v.qdrops }
  else send (modSlot s i fun v => { v with queue := v.queue ++ [e], accepted := more v.accepted }) .filterRunStart { die := i / 16, slot := i }

/-- `TASTER_EVENT_ARRIVAL` (22 R386, R392): a gap in the source's sequence counts as lost, and every slot is offered a copy. A
Taster that is being updated takes no event, which is lost (23 R407 step 4). -/
def execTasterEventArrival (die : Nat) (ev : TEvent) (s : State) : Host.Outcome State Fault Refusal :=
  let t := tasterOf s die
  if 4 ≤ die then notNow "TASTER_EVENT_ARRIVAL"
  else if t.stopped then .next s
  else
    let gap := (ev.seq + 256 - look t.expect ev.source 0 % 256) % 256
    let s := modTaster s die fun t => { t with expect := put t.expect ev.source ((ev.seq + 1) % 256), lost := (t.lost + gap) % 2 ^ 64 }
    .next (each (List.range 16) s fun s i => offer s (16 * die + i) ev)

/-! ### Runs -/

/-- `FILTER_RUN_START` (22 R392, R394): the head event is taken: discarded where the balance is below the worst cost, else that
cost is deducted and the run begins. -/
def execFilterRunStart (s : State) : Host.Outcome State Fault Refusal :=
  let die := s.subj.die
  let i := s.subj.slot
  let v := slotOf s i
  match v.queue with
  | [] => notNow "FILTER_RUN_START"
  | e :: rest =>
    if !slotAt die i || v.cur.isSome || v.copying.isSome || v.nextOwner.isSome then notNow "FILTER_RUN_START"
    else
      let t := tasterOf s die
      let b := look t.balance (entryOf v) 0
      if b < v.worst then
        let s := modTaster s die fun t => { t with drops := put t.drops (entryOf v) (more (look t.drops (entryOf v) 0)) }
        let s := modSlot s i fun v => { v with queue := rest, bdrops := more v.bdrops }
        .next (if rest.isEmpty then s else send s .filterRunStart { die := die, slot := i })
      else
        let s := modTaster s die fun t => { t with balance := put t.balance (entryOf v) (b - v.worst) }
        let code := (List.range v.len).map fun k => look v.prog k 0
        .next (modSlot s i fun v => { v with queue := rest, cur := some { code := code, ev := e, held := v.worst, window := t.windows } })

/-- A slot with a new owner: everything it held is zero (22 R391). -/
def freshSlot (v : Nat) : TSlot := { owner := v % 256, bound := v.testBit 8 }

/-- Whether a run is over (22 R394). A word that is no instruction ends it too: validation lets none through. -/
def runOver (r : FlRun) : Bool :=
  r.ended || decide (r.code.length ≤ r.pc) || (decodeFilter (r.code.getD r.pc 0)).toOption.isNone

/-- `FILTER_RUN_END` (22 R391, R392, R394, R399): what was deducted and not spent is refunded unless a window has started since;
a snapshot begins where the run asked for one; a new owner that waited is installed. -/
def execFilterRunEnd (s : State) : Host.Outcome State Fault Refusal :=
  let die := s.subj.die
  let i := s.subj.slot
  let v := slotOf s i
  match v.cur with
  | none => notNow "FILTER_RUN_END"
  | some r =>
    if !slotAt die i || !runOver r then notNow "FILTER_RUN_END"
    else
      let e := entryOf v
      let s := modTaster s die fun t =>
        if t.windows = r.window then { t with balance := put t.balance e (look t.balance e 0 + (r.held - r.cost)) } else t
      match v.nextOwner with
      | some o => .next { s with slots := put s.slots i (freshSlot o) }
      | none =>
        let now := (tasterOf s die).cycles
        let s := modSlot s i fun v =>
          let v := { v with cur := none, runs := more v.runs }
          if r.snap then { v with snapSeq := more v.snapSeq, copying := some r.zero, copyFrom := now, copied := 0 } else v
        .next (if v.queue.isEmpty then s else send s .filterRunStart { die := die, slot := i })

/-- `TASTER_BUDGET_WINDOW` (22 R392): every 2^20 Taster cycles, from the first, every balance becomes its budget. -/
def execTasterBudgetWindow (s : State) : Host.Outcome State Fault Refusal :=
  let die := s.subj.die
  let t := tasterOf s die
  if 4 ≤ die || t.cycles < t.windows * 2 ^ 20 then notNow "TASTER_BUDGET_WINDOW"
  else .next (modTaster s die fun t => { t with windows := t.windows + 1, balance := t.budget })

/-- A slot whose snapshot has taken the first `n` words of the state RAM, as they stand (22 R399). -/
def copyUpTo (v : TSlot) (n : Nat) : TSlot :=
  { v with snap := each (List.range (n - v.copied)) v.snap fun m i => put m (v.copied + i) (look v.state (v.copied + i) 0)
           copied := max v.copied n }

/-- The words a copy in progress has taken by now, one in each Taster cycle. -/
def copyDone (s : State) (i : Nat) : Nat := min 2048 ((tasterOf s (i / 16)).cycles - (slotOf s i).copyFrom)

/-- `SNAPSHOT_COPY_COMPLETE` (22 R399): the state RAM has been copied, over 2,048 Taster cycles. -/
def execSnapshotCopyComplete (s : State) : Host.Outcome State Fault Refusal :=
  let die := s.subj.die
  let i := s.subj.slot
  let v := slotOf s i
  match v.copying with
  | none => notNow "SNAPSHOT_COPY_COMPLETE"
  | some zero =>
    if !slotAt die i || (tasterOf s die).cycles < v.copyFrom + 2048 then notNow "SNAPSHOT_COPY_COMPLETE"
    else
      let s := modSlot s i fun v =>
        { copyUpTo v 2048 with state := if zero then [] else v.state, snapSeq := more v.snapSeq, copying := none }
      .next (if v.queue.isEmpty then s else send s .filterRunStart { die := die, slot := i })

/-- The budget window or snapshot copy whose time has come. -/
def chooseTaster (s : State) : Option Due :=
  match s.tasters.findSome? fun (d, t) =>
      if d < 4 && t.windows * 2 ^ 20 ≤ t.cycles then some (⟨.tasterBudgetWindow, { die := d }⟩ : Due) else none with
  | some d => some d
  | none => s.slots.findSome? fun (i, v) =>
      if v.copying.isSome && v.copyFrom + 2048 ≤ (tasterOf s (i / 16)).cycles then
        some (⟨.snapshotCopyComplete, { die := i / 16, slot := i }⟩ : Due) else none

/-! ### Starting, stopping and rebinding a slot -/

/-- A branch's offset. -/
def branchOff (i : Instr) : Option Nat :=
  match i with
  | .filterBz f | .filterBnz f | .filterJmp f => some f.imm.toNat
  | _ => none

/-- Whether an instruction's immediate is in its range (22 R395); other immediates take any value of their field, or must be
zero, which the decoder checks. -/
def immInRange (i : Instr) : Bool :=
  match i with
  | .filterLdf f => decide (f.imm.toNat ≤ 3)
  | .filterShli f | .filterShri f => decide (f.imm.toNat ≤ 31)
  | .filterBz f | .filterBnz f | .filterJmp f => decide (1 ≤ f.imm.toNat) && decide (f.imm.toNat ≤ 47)
  | .filterLdw f | .filterStw f | .filterHinc f | .filterCms f | .filterHll f => decide (f.imm.toNat ≤ 2047)
  | .filterTrig f => decide (f.imm.toNat ≤ 255)
  | .filterSnap f => decide (f.imm.toNat ≤ 1)
  | _ => true

/-- The start status that one program word gives (22 R390); 0 where it is accepted. -/
def wordStatus (len i : Nat) (w : W32) : Nat :=
  match decodeFilter w with
  | .error (.unassignedFilterOp _) => 2
  | .error _ => 3
  | .ok f => if !immInRange f then 3 else match branchOff f with
    | some o => if len < i + o then 4 else 0
    | none => 0

/-- The first failing word of a program and its status (22 R390). -/
def firstFail (len : Nat) (code : List W32) : Option (Nat × Nat) :=
  ((List.range code.length).map fun i => (i, wordStatus len i (code.getD i 0))).find? fun x => x.2 ≠ 0

/-- The cost of one instruction (22 R395). -/
def costOf (i : Instr) : Nat :=
  match i with
  | .filterCms _ => 4
  | _ => 1

/-- The worst costs from each word of a program to its end, first word first (22 R395). -/
def worstFrom : List W32 → List Nat
  | [] => []
  | w :: ws =>
    let rest := worstFrom ws
    let cost := match decodeFilter w with
      | .error _ => 1
      | .ok i => costOf i + (match i with
        | .filterEnd _ => 0
        | .filterBz f | .filterBnz f => max (rest.getD 0 0) (rest.getD (f.imm.toNat - 1) 0)
        | .filterJmp f => rest.getD (f.imm.toNat - 1) 0
        | _ => rest.getD 0 0)
    cost :: rest

/-- The worst cost W_s of a program (22 R395). -/
def worstCost (code : List W32) : Nat := (worstFrom code).headD 0

/-- The fields of SCTL (22 R389). -/
def sctlFields (v : TSlot) (x : Nat) : TSlot :=
  { v with kinds := bits x 63 48, high := bits x 40 32, low := bits x 24 16, len := bits x 13 8, irq := x.testBit 1, run := x.testBit 0 }

/-- A write to SCTL that sets run from 0 to 1 (22 R390). -/
def startSlot (v : TSlot) (x : Nat) : TSlot :=
  let len := bits x 13 8
  let code := (List.range len).map fun k => look v.prog k 0
  if len = 0 || 48 < len then { v with status := 1, failWord := 0 }
  else match firstFail len code with
    | some (i, st) => { v with status := st, failWord := i }
    | none =>
      let v := sctlFields v x
      { v with status := 0, failWord := 0, worst := worstCost code, accepted := 0, qdrops := 0, bdrops := 0, runs := 0, triggers := 0
               head := 0, ring := [], snapSeq := 0 }

/-- A write to SCTL that clears run (22 R390). -/
def stopSlot (v : TSlot) : TSlot := { v with run := false, queue := [] }

/-- `SCTL_START` (22 R390). -/
def execSctlStart (die slot : Nat) (v : Word) (s : State) : Host.Outcome State Fault Refusal :=
  if !slotAt die slot || !v.getLsbD 0 || (slotOf s slot).run then notNow "SCTL_START"
  else .next (modSlot s slot fun x => startSlot x v.toNat)

/-- `SCTL_STOP` (22 R390). -/
def execSctlStop (die slot : Nat) (v : Word) (s : State) : Host.Outcome State Fault Refusal :=
  if !slotAt die slot || v.getLsbD 0 then notNow "SCTL_STOP" else .next (modSlot s slot stopSlot)

/-- `SOWN_WRITE` (22 R391): the slot stops; once its run is over everything in it is zeroed and the new owner installed. -/
def execSownWrite (die slot : Nat) (v : Word) (s : State) : Host.Outcome State Fault Refusal :=
  if !slotAt die slot then notNow "SOWN_WRITE"
  else .next (modSlot s slot fun x =>
    let x := stopSlot x
    if x.cur.isSome then { x with nextOwner := some v.toNat } else freshSlot v.toNat)

/-! ### The host's register windows -/

/-- Write one or two words of a slot's state RAM or program (22 R388, R400). -/
def putWords (m : Tbl W32) (i : Nat) (w : RegWrite) : Tbl W32 :=
  let m := put m i (w.value.setWidth 32)
  if w.size = 8 then put m (i + 1) (w.value.extractLsb' 32 32) else m

/-- Whether a function's window shows a slot (22 R388). -/
def shows (fn : Option Nat) (v : TSlot) : Bool :=
  match fn with
  | none => true
  | some f => v.bound && v.owner = f

/-- Whether a function's Taster window answers: not where boot stopped, and a virtual function's only once it is exposed (21
R377). -/
def tasterShown (s : State) (fn : Option Nat) : Bool := s.boot.failed = 0 && (fn.isNone || s.boot.stage = 5)

/-- A write within a slot's window (22 R388 to R391, R400). -/
def writeSlot (w : RegWrite) (i off : Nat) (s : State) : Host.Outcome State Fault Refusal :=
  let v := slotOf s i
  if !shows w.fn v || off % w.size ≠ 0 then .next s
  else if off < 0x20C0 then
    if v.run || (w.size != 4 && w.size != 8) then .next s
    else if off < 0x2000 then .next (modSlot s i fun v =>
      { (if v.copying.isSome then copyUpTo v (copyDone s i) else v) with state := putWords v.state (off / 4) w })
    else .next (modSlot s i fun v => { v with prog := putWords v.prog ((off - 0x2000) / 4) w })
  else if w.size ≠ 8 then .next s
  else if off = 0x2100 then
    if !w.value.getLsbD 0 then execSctlStop (i / 16) i w.value s
    else if v.run then .next s
    else execSctlStart (i / 16) i w.value s
  else if off = 0x2180 && w.fn.isNone then execSownWrite (i / 16) i w.value s
  else .next s

/-- A write to the physical function's BAR0 (21 R372, R374): the request's bytes, or the doorbell, which submits them. Where boot
stopped, only the boot status answers (21 R377). -/
def writeControl (w : RegWrite) (s : State) : State :=
  if w.size ≠ 8 || w.off % 8 ≠ 0 || s.boot.failed ≠ 0 then s
  else if w.off < 0x40 then
    let bs := s.mgmt.req
    { s with mgmt := { s.mgmt with req := bs.take w.off ++ leBytes 8 w.value.toNat ++ bs.drop (w.off + 8) } }
  else if w.off = 0x80 && 3 ≤ s.boot.stage then
    if s.mgmt.busy then { s with mgmt := { s.mgmt with late := true } }
    else
      let s := { s with mgmt := { s.mgmt with cur := s.mgmt.req, busy := true, late := false, phase := 0, list := [] } }
      send s (requestEvent (req s 0 2))
  else s

/-- `REGISTER_WRITE` (21 R372, 22 R388, R393). -/
def execRegisterWrite (w : RegWrite) (s : State) : Host.Outcome State Fault Refusal :=
  match w.fn, w.bar with
  | none, 0 => .next (writeControl w s)
  | some vf, 0 =>
    if 128 ≤ vf || s.boot.stage ≠ 5 || w.size ≠ 8 || w.off % 8 ≠ 0 || 128 ≤ w.off then .next s else execQueueDoorbell vf (w.off / 8) w.value s
  | fn, 2 =>
    if !tasterShown s fn then .next s
    else if w.off < 0x200000 then writeSlot w (w.off / 0x8000) (w.off % 0x8000) s
    else
      let d := (w.off - 0x200000) / 0x2000
      let o := (w.off - 0x200000) % 0x2000
      if fn.isSome || 4 ≤ d || w.size ≠ 8 || o % 8 ≠ 0 || 128 < o / 8 then .next s
      else .next (modTaster s d fun t => { t with budget := put t.budget (o / 8) (w.value.toNat % 2 ^ 32) })
  | _, _ => .next s

/-- Word `i` of a slot's snapshot: a copy in progress copies a word in each Taster cycle (22 R399). -/
def snapWord (s : State) (n i : Nat) : W32 :=
  let v := slotOf s n
  if v.copying.isSome && decide (v.copied ≤ i) && decide (i < copyDone s n) then look v.state i 0 else look v.snap i 0

/-- A 64-bit register of a slot's window (22 R388, R389). -/
def readSlot (s : State) (n off : Nat) : Nat :=
  let v := slotOf s n
  let two (m : Tbl W32) (i : Nat) : Nat := (look m i 0).toNat + 2 ^ 32 * (look m (i + 1) 0).toNat
  if off < 0x2000 then two v.state (off / 4)
  else if off < 0x20C0 then two v.prog ((off - 0x2000) / 4)
  else if off = 0x2100 then
    v.kinds % 2 ^ 16 * 2 ^ 48 + v.high % 2 ^ 9 * 2 ^ 32 + v.low % 2 ^ 9 * 2 ^ 16 + v.len % 2 ^ 6 * 2 ^ 8 + (if v.irq then 2 else 0) + (if v.run then 1 else 0)
  else if off = 0x2108 then (if v.cur.isSome then 1 else 0) + v.status % 8 * 2 + v.failWord % 64 * 2 ^ 16 + v.worst % 2 ^ 16 * 2 ^ 32
  else if off = 0x2110 then v.accepted
  else if off = 0x2118 then v.qdrops
  else if off = 0x2120 then v.bdrops
  else if off = 0x2128 then v.runs
  else if off = 0x2130 then v.triggers
  else if off = 0x2138 then v.head
  else if off = 0x2140 then v.snapSeq
  else if off = 0x2180 then v.owner % 256 + (if v.bound then 256 else 0)
  else if 0x2200 ≤ off && off < 0x2600 then leNat (((look v.ring ((off - 0x2200) / 16) (List.replicate 16 0)).drop (off % 16)).take 8)
  else if 0x4000 ≤ off && off < 0x6000 then
    let i := (off - 0x4000) / 4
    (snapWord s n i).toNat + 2 ^ 32 * (snapWord s n (i + 1)).toNat
  else 0

/-- What a read of 8 aligned bytes of a register window returns (21 R372, R377, 22 R388, R393, R400): any other offset reads
zero. -/
def readWindow (s : State) (fn : Option Nat) (bar off : Nat) : Nat :=
  match fn, bar with
  | none, 0 =>
    if off = 0x88 then bootStatus s
    else if s.boot.failed ≠ 0 then 0
    else if off < 0x40 then leNat ((s.mgmt.req.drop off).take 8)
    else if off < 0x80 then leNat ((s.mgmt.reply.drop (off - 0x40)).take 8)
    else 0
  | fn, 2 =>
    if !tasterShown s fn then 0
    else if off < 0x200000 then if shows fn (slotOf s (off / 0x8000)) then readSlot s (off / 0x8000) (off % 0x8000) else 0
    else
      let t := tasterOf s ((off - 0x200000) / 0x2000)
      let o := (off - 0x200000) % 0x2000
      if fn.isSome || 4 ≤ (off - 0x200000) / 0x2000 then 0
      else if o / 8 ≤ 128 then look t.budget (o / 8) 0
      else if 0x800 ≤ o && o ≤ 0xC00 then look t.drops ((o - 0x800) / 8) 0
      else if o = 0x1000 then t.lost
      else 0
  | _, _ => 0

end Sys2Proof.Machine
end

