-- ==== Sys2Proof/Machine/Filter.lean ====
section
/-! DEFINITION. The filter instructions of the Tasters (22 R394 to R399). Each acts for the slot run `curSlot`. -/

namespace Sys2Proof.Machine

/-- A register of a run. -/
def FlRun.reg (r : FlRun) (i : BitVec 4) : W32 := r.regs.getD i.toNat 0

/-- A run with a register written. -/
def FlRun.set (r : FlRun) (i : BitVec 4) (v : W32) : FlRun := { r with regs := setPad 0 r.regs i.toNat v }

/-- Execute one filter instruction (22 R394): it pays its cost, `body` gives the slot, the run and what else changes, and the
run goes on at the next word or, with an offset, that many words ahead. -/
def filterStep (s : State) (cost : Nat) (body : State → TSlot → FlRun → State × TSlot × FlRun × Nat) : Host.Outcome State Fault Refusal :=
  let v := slotOf s s.curSlot
  match v.cur with
  | none => .fault .noFilterRun
  | some r =>
    if r.ended then .fault .noFilterRun
    else
      let (s, v, r, off) := body s v { r with cost := r.cost + cost }
      .next { s with slots := put s.slots s.curSlot { v with cur := some { r with pc := r.pc + off } } }

/-- An instruction that writes one register from the run's. -/
def filterAlu (s : State) (f : FlF) (val : FlRun → W32) : Host.Outcome State Fault Refusal :=
  filterStep s 1 fun s v r => (s, v, r.set f.d (val r), 1)

/-- An instruction that branches where a condition holds. -/
def filterBranch (s : State) (f : FlF) (cond : FlRun → Bool) : Host.Outcome State Fault Refusal :=
  filterStep s 1 fun s v r => (s, v, r, if cond r then f.imm.toNat else 1)

/-- The index of a state word: addresses are taken modulo 2,048 (22 R394). -/
def stateAt (n : Nat) : Nat := n % 2048

/-- The sum of an immediate and a register, as a state index. -/
def stateIdx (f : FlF) (w : W32) : Nat := stateAt (f.imm.toNat + w.toNat)

/-- A count one higher, saturating (22 R397). -/
def satUp (w : W32) : W32 := if w = 0xFFFFFFFF then w else w + 1

/-- The hash H(x, s) (22 R396). -/
def tasterHash (x sd : W32) : W32 :=
  let x := x ^^^ (sd * 0x9E3779B9)
  let x := (x ^^^ (x >>> 16)) * 0x85EBCA6B
  let x := (x ^^^ (x >>> 13)) * 0xC2B2AE35
  x ^^^ (x >>> 16)

/-- `END` (22 R395). -/
def execFilterEnd (_ : FlF) (s : State) : Host.Outcome State Fault Refusal :=
  filterStep s 1 fun s v r => (s, v, { r with ended := true }, 0)

/-- `LDF` (22 R382, R395). -/
def execFilterLdf (f : FlF) (s : State) : Host.Outcome State Fault Refusal :=
  filterAlu s f fun r => match f.imm.toNat with
    | 0 => r.ev.payload
    | 1 => .ofNat 32 (r.ev.code % 2 ^ 9)
    | 2 => .ofNat 32 (r.ev.source % 2 ^ 16)
    | _ => .ofNat 32 (r.ev.tenant % 2 ^ 8)

/-- `SETI` (22 R395). -/
def execFilterSeti (f : FlF) (s : State) : Host.Outcome State Fault Refusal := filterAlu s f fun _ => f.imm.setWidth 32
/-- `ADD` (22 R395). -/
def execFilterAdd (f : FlF) (s : State) : Host.Outcome State Fault Refusal := filterAlu s f fun r => r.reg f.a + r.reg f.b
/-- `ADDI` (22 R395). -/
def execFilterAddi (f : FlF) (s : State) : Host.Outcome State Fault Refusal := filterAlu s f fun r => r.reg f.a + f.imm.signExtend 32
/-- `SUB` (22 R395). -/
def execFilterSub (f : FlF) (s : State) : Host.Outcome State Fault Refusal := filterAlu s f fun r => r.reg f.a - r.reg f.b
/-- `AND` (22 R395). -/
def execFilterAnd (f : FlF) (s : State) : Host.Outcome State Fault Refusal := filterAlu s f fun r => r.reg f.a &&& r.reg f.b
/-- `ANDI` (22 R395). -/
def execFilterAndi (f : FlF) (s : State) : Host.Outcome State Fault Refusal := filterAlu s f fun r => r.reg f.a &&& f.imm.setWidth 32
/-- `OR` (22 R395). -/
def execFilterOr (f : FlF) (s : State) : Host.Outcome State Fault Refusal := filterAlu s f fun r => r.reg f.a ||| r.reg f.b
/-- `XOR` (22 R395). -/
def execFilterXor (f : FlF) (s : State) : Host.Outcome State Fault Refusal := filterAlu s f fun r => r.reg f.a ^^^ r.reg f.b
/-- `SHLI` (22 R395). -/
def execFilterShli (f : FlF) (s : State) : Host.Outcome State Fault Refusal := filterAlu s f fun r => r.reg f.a <<< f.imm.toNat
/-- `SHRI` (22 R395). -/
def execFilterShri (f : FlF) (s : State) : Host.Outcome State Fault Refusal := filterAlu s f fun r => r.reg f.a >>> f.imm.toNat
/-- `SLTU` (22 R395). -/
def execFilterSltu (f : FlF) (s : State) : Host.Outcome State Fault Refusal :=
  filterAlu s f fun r => if r.reg f.a < r.reg f.b then 1 else 0
/-- `CEQI` (22 R395). -/
def execFilterCeqi (f : FlF) (s : State) : Host.Outcome State Fault Refusal :=
  filterAlu s f fun r => if r.reg f.a = f.imm.setWidth 32 then 1 else 0
/-- `BZ` (22 R395). -/
def execFilterBz (f : FlF) (s : State) : Host.Outcome State Fault Refusal := filterBranch s f fun r => r.reg f.a = 0
/-- `BNZ` (22 R395). -/
def execFilterBnz (f : FlF) (s : State) : Host.Outcome State Fault Refusal := filterBranch s f fun r => r.reg f.a ≠ 0
/-- `JMP` (22 R395). -/
def execFilterJmp (f : FlF) (s : State) : Host.Outcome State Fault Refusal := filterBranch s f fun _ => true

/-- `LDW` (22 R395). -/
def execFilterLdw (f : FlF) (s : State) : Host.Outcome State Fault Refusal :=
  filterStep s 1 fun s v r => (s, v, r.set f.d (look v.state (stateIdx f (r.reg f.a)) 0), 1)

/-- `STW` (22 R395). -/
def execFilterStw (f : FlF) (s : State) : Host.Outcome State Fault Refusal :=
  filterStep s 1 fun s v r => (s, { v with state := put v.state (stateIdx f (r.reg f.a)) (r.reg f.d) }, r, 1)

/-- `HASH` (22 R396). -/
def execFilterHash (f : FlF) (s : State) : Host.Outcome State Fault Refusal := filterAlu s f fun r => tasterHash (r.reg f.a) (f.imm.setWidth 32)

/-- `HINC` (22 R397). -/
def execFilterHinc (f : FlF) (s : State) : Host.Outcome State Fault Refusal :=
  filterStep s 1 fun s v r =>
    let i := stateAt (f.imm.toNat + min (r.reg f.a).toNat (r.reg f.b).toNat)
    let x := satUp (look v.state i 0)
    (s, { v with state := put v.state i x }, r.set f.d x, 1)

/-- One row of `CMS`: the state, and the least count so far (22 R397). -/
def cmsRow (f : FlF) (a : W32) (x : Tbl W32 × W32) (j : Nat) : Tbl W32 × W32 :=
  let i := stateAt (f.imm.toNat + 256 * j + (tasterHash a (.ofNat 32 j)).toNat % 256)
  let c := satUp (look x.1 i 0)
  (put x.1 i c, if c < x.2 then c else x.2)

/-- `CMS` (22 R397). -/
def execFilterCms (f : FlF) (s : State) : Host.Outcome State Fault Refusal :=
  filterStep s 4 fun s v r =>
    let x := (List.range 4).foldl (cmsRow f (r.reg f.a)) (v.state, 0xFFFFFFFF)
    (s, { v with state := x.1 }, r.set f.d x.2, 1)

/-- The number of leading zeros of a 24-bit value. -/
def leading24 (n : Nat) : Nat := ((List.range 24).find? fun i => n.testBit (23 - i)).getD 24

/-- `HLL` (22 R397). -/
def execFilterHll (f : FlF) (s : State) : Host.Outcome State Fault Refusal :=
  filterStep s 1 fun s v r =>
    let h := (tasterHash (r.reg f.a) 0).toNat
    let j := h % 256
    let z := 1 + leading24 (h / 256)
    let i := stateAt (f.imm.toNat + j / 4)
    let w := (look v.state i 0).toNat
    let old := w / 256 ^ (j % 4) % 256
    (s, { v with state := put v.state i (.ofNat 32 (w - old * 256 ^ (j % 4) + max old z * 256 ^ (j % 4))) }, r, 1)

/-- The record of a trigger (22 R398). -/
def trigBytes (v : TSlot) (r : FlRun) (f : FlF) : List Byte :=
  record 16 [(0, 4, v.head), (4, 2, f.imm.toNat), (6, 2, r.ev.code), (8, 4, (r.reg f.a).toNat), (12, 2, r.ev.source), (14, 1, r.ev.tenant)]

/-- `TRIG` (22 R398). -/
def execFilterTrig (f : FlF) (s : State) : Host.Outcome State Fault Refusal :=
  filterStep s 1 fun s v r =>
    let s := if v.irq then { s with msix := s.msix ++ [(if v.owner = 0xFF then none else some v.owner, 1)] } else s
    (s, { v with ring := put v.ring (v.head % 64) (trigBytes v r f), head := more v.head, triggers := more v.triggers }, r, 1)

/-- `SNAP` (22 R399): it takes effect when the run ends. -/
def execFilterSnap (f : FlF) (s : State) : Host.Outcome State Fault Refusal :=
  filterStep s 1 fun s v r => (s, v, { r with snap := true, zero := r.zero || f.imm = 1 }, 1)

end Sys2Proof.Machine
end

