-- ==== Sys2Proof/Machine/Fleet.lean ====
section
/-! DEFINITION. The host link's accesses, the links' retries, errors in storage, spares, islands, scrubbing and reset
(21 R371 to R375, 23 R402 to R410, 20 R369, R370, 22 R385, 00 R2). -/

namespace Sys2Proof.Machine

/-! ### The host link -/

/-- Whether a write of the host to a span is performed: a poisoned line takes a write of all its bytes only (20 R369, log
entry 35). -/
def hostTakes (s : State) (x : Span) : Bool := !lineBad s x.1 || (decide (x.2.2.2 = 128) && !deadLine s x.1)

/-- Perform a write of the host, of one line of it after another (12 R301). -/
def hostWrite (s : State) (l : List Span) (bs : List Byte) : State :=
  (l.foldl (fun (bs, s) x =>
    (bs.drop x.2.2.2, if hostTakes s x then spansWrite s [x] (bs.take x.2.2.2) else s)) (bs, s)).2

/-- `HOST_MEMORY_ACCESS` (21 R373, 12 R301): an access of the host within one line, to device memory through CXL.mem under
slot 0, or to its own memory, with whose caches the device is coherent. A read first recalls any owner. A poisoned line gives
no bytes, and takes a write of all its bytes only (20 R369). -/
def execHostMemoryAccess (pa : Nat) (acc : HostAccess) (s : State) : Host.Outcome State Fault Refusal :=
  let n := match acc with
    | .read n => n
    | .write bs => bs.length
  let l := fwSpans pa n
  if s.boot.stage ≠ 5 || n = 0 || 128 < pa % 128 + n || 2 ^ 52 ≤ pa || !spansReady s l then notNow "HOST_MEMORY_ACCESS"
  else match acc with
    | .read _ =>
      if lineBad s (pa / 128) then .next { s with returned := [] }
      else
        let (bs, s) := spansRead s l
        .next { s with returned := bs }
    | .write bs => .next (hostWrite s l bs)

/-- `HOST_TRANSFER` (21 R373): a compression engine compresses or expands bytes from one physical address to another, under
slot 0, for a management request, which is answered when the transfer is done (21 R374, log entry 35). -/
def execHostTransfer (compress : Bool) (src dst len : Nat) (s : State) : Host.Outcome State Fault Refusal :=
  let a := fwSpans src len
  if s.boot.stage ≠ 5 || s.mgmt.busy || !spansReady s a || a.any (fun x => lineBad s x.1) then notNow "HOST_TRANSFER"
  else
    let (bs, s) := spansRead s a
    let bytes := if compress then Config.deflate bs else Config.inflate bs
    let b := fwSpans dst bytes.length
    if spansReady s b then .next (answerDone { hostWrite s b bytes with mgmt := { s.mgmt with cur := s.mgmt.req } })
    else notNow "HOST_TRANSFER"

/-- `FLIT_RETRY` (21 R375, 22 R385): a peer link sends a flit again. -/
def execFlitRetry (s : State) : Host.Outcome State Fault Refusal :=
  if 8 ≤ s.subj.port then notNow "FLIT_RETRY" else .next (post s 0x140 4 s.subj.port 0xFF 0)

/-- `ROCE_RETRANSMISSION` (22 R385): an Ethernet port sends again for a queue pair, for a command's tenant or for none. -/
def execRoceRetransmission (s : State) : Host.Outcome State Fault Refusal :=
  let t := s.subj.tenant
  if 2 ≤ s.subj.port || (128 ≤ t && t != 0xFF) then notNow "ROCE_RETRANSMISSION"
  else .next (post s 0x141 5 s.subj.port t (.ofNat 32 (s.subj.qp % 2 ^ 24)))

/-! ### Errors in storage -/

/-- The number of a kind of part. -/
def kindNo (k : PartKind) : Nat :=
  match k with
  | .core => 0
  | .slice => 1
  | .channel => 2

/-- Whether a part of a kind exists (00 R1). -/
def partExists (k : PartKind) (n : Nat) : Bool :=
  match k with
  | .core | .slice => decide (n < 256)
  | .channel => decide (n < 384)

/-- The poison notices of a line (20 R370): one for each tenant bound to a shared slot, in its partition's ring. -/
def notices (s : State) (la slot : Nat) : State :=
  let fs := (look s.keys slot {}).bound
  if fs.length < 2 then s
  else each fs s fun s f => each (s.parts.filter fun p => (find p.2.tenants f).isSome) s fun s p =>
    ringWrite s p.1 5 0 [(8, 8, 128 * la), (16, 2, slot), (56, 4, f)]

/-- The firmware is to retire a part (23 R403). -/
def mustRetire (s : State) (k : PartKind) (n : Nat) : State :=
  if s.failing.contains (kindNo k, n) || s.dead.contains (kindNo k, n) then s
  else send { s with failing := s.failing ++ [(kindNo k, n)] } (.partRetire k n)

/-- Poison a line: every read copy of it in a near cache goes, so that the refreshed bytes are what is read next (20 R369, R370). -/
def poisonLine (s : State) (la : Nat) : State :=
  let s := modLine s la fun l => { l with poison := true }
  { s with cores := s.cores.map fun (c, k) =>
      (c, { k with near := k.near.filter fun n => n.1 % 2 ^ 45 != la || n.2.st == .dirty || n.2.st == .exclusive }) }

/-- `ECC_UNCORRECTABLE` (20 R369, R370, 23 R409): the line is poisoned, or the part is retired. What a near cache
itself wrote to it stays there, and leaves poisoned. -/
def execEccUncorrectable (site : EccSite) (s : State) : Host.Outcome State Fault Refusal :=
  match site with
  | .line la =>
    if Config.hostBase ≤ 128 * la then notNow "ECC_UNCORRECTABLE"
    else .next (notices (poisonLine s la) la (slotOfLine s la))
  | .nearLine c key => match nearLine s c key with
    | none => notNow "ECC_UNCORRECTABLE"
    | some n =>
      let la := key % 2 ^ 45
      let s := if n.st == .dirty || n.st == .exclusive then modNear s c key fun n => { n with poison := true } else s
      .next (notices (poisonLine s la) la n.slot)
  | .part k n => if partExists k n then .next (mustRetire s k n) else notNow "ECC_UNCORRECTABLE"

/-- `CORRECTED_ERROR` (23 R403, R409): it is counted against its part. -/
def execCorrectedError (kind : PartKind) (n : Nat) (s : State) : Host.Outcome State Fault Refusal :=
  if !partExists kind n then notNow "CORRECTED_ERROR"
  else
    let key := kindNo kind * 512 + n
    let count := look s.corrected key 0 + 1
    let s := { s with corrected := put s.corrected key count }
    .next (if Config.retireThreshold < count then mustRetire s kind n else s)

/-! ### Spares -/

/-- Where a part's spares lie: its die, or its stack (23 R402). -/
def spareKey (k : PartKind) (n : Nat) : Nat :=
  match k with
  | .core => n / 64
  | .slice => 64 + n / 64
  | .channel => 128 + n / 32

/-- Whether a spare remains for a part. -/
def spareLeft (s : State) (k : PartKind) (n : Nat) : Bool :=
  decide (look s.spares (spareKey k n) 0 < (if k = .channel then 1 else 2))

/-- A spare takes a part's number: the part no longer fails (23 R403). -/
def spareTakes (s : State) (k : PartKind) (n : Nat) : State :=
  let key := spareKey k n
  { s with spares := put s.spares key (look s.spares key 0 + 1), failing := s.failing.erase (kindNo k, n)
           copying := s.copying.erase (kindNo k, n), corrected := del s.corrected (kindNo k * 512 + n) }

/-- A part fails for good (23 R404). -/
def partDies (s : State) (k : PartKind) (n : Nat) : State :=
  { s with dead := s.dead ++ [(kindNo k, n)], failing := s.failing.erase (kindNo k, n) }

/-- The spare core takes over an empty core's number: the near cache is written back, and the spare's own cycle count, which
the spec does not give, goes on from there (log entry 4). -/
def coreMoves (s : State) (c : Nat) : State :=
  let (w, s) := freeWord (drainNow s c).2
  spareTakes (modCore s c fun k => { k with near := [], pend := [], tlb := [], cycles := w.toNat }) .core c

/-- The teams with a group seated on a core. -/
def teamsOnCore (s : State) (c : Nat) : List Nat := ((seats s c).map (·.team)).eraseDups

/-- A core is retired (23 R403, R404): its teams are saved and a spare takes its number, or without one it leaves its partition
as a forced resize. -/
def retireCore (s : State) (c : Nat) : Option State :=
  if s.copying.contains (0, c) then
    if (seats s c).isEmpty && canDrain s c then
      let s := coreMoves s c
      some (send s .teamPlacement { part := partOfCore s c })
    else none
  else if spareLeft s .core c then
    let s := { s with copying := s.copying ++ [(0, c)] }
    let s := each (teamsOnCore s c) s fun s t => if (teamOf s t).saving.isSome then s else beginSave s t false
    some (send s (.partRetire .core c))
  else
    let s := partDies s .core c
    some (match s.parts.find? fun p => p.2.cores.contains c with
      | some (p, v) => resize s p (v.cores.filter (· != c)) true
      | none => s)

/-- A slice is retired (23 R403, R404): its partition is quiesced, and everything of its lines passes to a spare. -/
def retireSlice (s : State) (n : Nat) : Option State :=
  if !spareLeft s .slice n then some { partDies s .slice n with mgmt := { s.mgmt with loss := true } }
  else match s.parts.find? fun p => p.2.slices.contains n with
    | none => some (spareTakes s .slice n)
    | some (p, _) => if quiesced s p then some (spareTakes (each (partOf s p).cores s quietCore) .slice n) else none

/-- A channel is retired (23 R403, R404): its lines are copied to the spare, which then serves alone. -/
def retireChannel (s : State) (n : Nat) : Option State :=
  if s.copying.contains (2, n) then none
  else if spareLeft s .channel n then some (send { s with copying := s.copying ++ [(2, n)] } .channelCopyComplete { channel := n })
  else some { partDies s .channel n with mgmt := { s.mgmt with loss := true } }

/-- `PART_RETIRE` (23 R403, R404). -/
def execPartRetire (kind : PartKind) (n : Nat) (s : State) : Host.Outcome State Fault Refusal :=
  if !s.failing.contains (kindNo kind, n) then notNow "PART_RETIRE"
  else
    let r := match kind with
      | .core => retireCore s n
      | .slice => retireSlice s n
      | .channel => retireChannel s n
    match r with
    | some s => .next s
    | none => notNow "PART_RETIRE"

/-- `CHANNEL_COPY_COMPLETE` (23 R403): the spare channel serves alone. -/
def execChannelCopyComplete (s : State) : Host.Outcome State Fault Refusal :=
  if s.copying.contains (2, s.subj.channel) then .next (spareTakes s .channel s.subj.channel) else notNow "CHANNEL_COPY_COMPLETE"

/-! ### Islands, scrubbing and reset -/

/-- Whether an island may take a state (23 R405): the scheduling unit's is never slowed, and a core's is gated only while the
core holds no resident group and no command counted on it. -/
def islandMay (s : State) (i : Nat) (st : IslandState) : Bool :=
  decide (i < 320) && (i != Config.schedIsland || st == .nominal)
    && (st != .gated || decide (256 ≤ i) || ((residents s i).isEmpty && (coreOf s i).ec.all (· == 0)))

/-- `ISLAND_STATE_CHANGE` (23 R405): rates change, values do not. -/
def execIslandStateChange (island : Nat) (st : IslandState) (s : State) : Host.Outcome State Fault Refusal :=
  if islandMay s island st then .next { s with islands := put s.islands island st } else notNow "ISLAND_STATE_CHANGE"

/-- Whether a fill or a command's share is queued on a channel (23 R410). -/
def channelBusy (s : State) (c : Nat) : Bool :=
  s.due.any (fun d => d.ev == .fillFromMemory && channelOf d.subj.la = c)
    || s.cmds.any fun x => x.2.kind == .press && x.2.st == .running && (match shareLine s x.2 with
      | some la => channelOf la = c
      | none => false)

/-- `PRESS_SCRUB` (23 R410): a line is read, corrected and rewritten, which changes no value, key slot or vintage. -/
def execPressScrub (s : State) : Host.Outcome State Fault Refusal :=
  let c := s.subj.channel
  let n := look s.scrub c 0
  if 384 ≤ c || look s.pressCycles (c / 32) 0 < 1024 * (n + 1) || channelBusy s c || pressPaused s c then notNow "PRESS_SCRUB"
  else .next { s with scrub := put s.scrub c (n + 1) }

/-- `DEVICE_RESET` (00 R2, 02 R51, 09 R244, 10 R263, 21 R377, R380, 22 R392): the machine right after reset. What the memory
holds stays, as do the keys its sectors were written under, poison in it, the parts used up, and the numbers by which the
model tells things apart. -/
def execDeviceReset (s : State) : Host.Outcome State Fault Refusal :=
  .next { State.reset with
    mem := s.mem, tags := s.tags, spares := s.spares, dead := s.dead
    lines := (s.lines.filter fun l => l.2.poison).map fun l => (l.1, ({ poison := true } : LineSt))
    nextId := s.nextId, fresh := s.fresh, tape := s.tape }

end Sys2Proof.Machine
end

