-- ==== Sys2Proof/Machine/Pair.lean ====
section
/-! DEFINITION. The pair words (05 R112 to R116): two slots that read together and then write together. -/

namespace Sys2Proof.Machine

/-- The type a pair operation computes in (05 R113). -/
def pairTy (o : PairOp) : Ty :=
  match o with
  | .iaddI32 | .isubI32 | .iminI32 | .imaxI32 | .iaddI32Imm => .i32
  | .iminN32 | .imaxN32 => .n32
  | .faddF32 | .fmulF32 | .fminF32 | .fmaxF32 => .f32
  | .faddBf16x2 | .fmulBf16x2 | .fminBf16x2 | .fmaxBf16x2 => .bf16x2
  | .iaddI64 | .isubI64 | .iaddI64Imm => .i64
  | _ => .b32

/-- Whether a slot's immediate is a shift count, read unsigned (05 R114). -/
def shiftImm (o : PairOp) : Bool := o == .shlImm || o == .shrImm || o == .sarImm

/-- Whether a slot names the register or immediate `s` at all. -/
def pairHasS (o : PairOp) : Bool := o != .nop && !o.isImm

/-- A slot's registers as a vector or uniform run. -/
def slotRegs (p : PairSlot) : Nat := (pairTy p.op).regs

/-- The registers a slot reads, writes and marks as last read (05 R112 to R114). -/
def slotIo (p : PairSlot) : Io :=
  if p.op = .nop then {}
  else
    let d := ioDst p.f.u p.f.d.toNat (slotRegs p)
    let rd : Io := if p.op.readsD then ioSrc p.f.u p.f.d.toNat (slotRegs p) p.f.lrd else {}
    let sr : Io := if pairHasS p.op then ioSrc p.f.u p.f.s.toNat (slotRegs p) p.f.lrs else {}
    (rd.join sr).join d

/-- A slot's second source for one thread: its register, or its immediate (05 R113, R114). -/
def slotSrc (p : PairSlot) (x : Ctx) (w t : Nat) : Nat :=
  let ty := pairTy p.op
  if p.op.isImm then (if shiftImm p.op then p.f.s.toNat else wrapInt ty.width (sx p.f.s.toNat 6))
  else (if p.f.u then (readS x p.f.s.toNat).toNat else readNbr x w p.f.s.toNat (slotRegs p) t p.f.ns .zero) % 2 ^ ty.width

/-- A slot's first source for one thread. -/
def slotOld (p : PairSlot) (x : Ctx) (t : Nat) : Nat :=
  (if p.f.u then (readS x p.f.d.toNat).toNat else readRun x p.f.d.toNat (slotRegs p) t) % 2 ^ (pairTy p.op).width

/-- The result of a pair operation from its sources: bits and flags (05 R113). -/
def pairResult (o : PairOp) (d v : Nat) : Nat × Nat :=
  let ty := pairTy o
  let int (z : Int) : Nat × Nat := (fitInt ty false z, 0)
  let fp (op : Fmt → FV → FV → Nat × Nat) : Nat × Nat :=
    onElems ty (fun m a b _ => op m (unpackFloat m a) (unpackFloat m b)) d v 0
  let mm (mx : Bool) : Nat × Nat := onElems ty (fun m a b _ => minmaxV m mx a b) d v 0
  match o with
  | .nop => (0, 0)
  | .mov | .movImm => (v, 0)
  | .iaddI32 | .iaddI32Imm | .iaddI64 | .iaddI64Imm => int (intVal ty d + intVal ty v)
  | .isubI32 | .isubI64 => int (intVal ty d - intVal ty v)
  | .iminI32 | .iminN32 => int (min (intVal ty d) (intVal ty v))
  | .imaxI32 | .imaxN32 => int (max (intVal ty d) (intVal ty v))
  | .and32 | .andImm => (d &&& v, 0)
  | .or32 | .orImm => (d ||| v, 0)
  | .xor32 | .xorImm => (d ^^^ v, 0)
  | .andn32 => (d &&& (2 ^ 32 - 1 - v), 0)
  | .shl32 | .shlImm => (d * 2 ^ (v % 32), 0)
  | .shr32 | .shrImm => (d / 2 ^ (v % 32), 0)
  | .sar32 | .sarImm => (wrapInt 32 (Int.fdiv (sx d 32) (2 ^ (v % 32))), 0)
  | .faddF32 | .faddBf16x2 => fp fun m a b => addV m .rn a b
  | .fmulF32 | .fmulBf16x2 => fp fun m a b => mulV m .rn a b
  | .fminF32 | .fminBf16x2 => mm false
  | .fmaxF32 | .fmaxBf16x2 => mm true

/-- What one slot does to registers, from the context before the word. -/
def slotRes (p : PairSlot) (x : Ctx) (w : Nat) : Res :=
  if p.op = .nop then {}
  else perThread p.f.u w (effSet x w p.f.k p.f.kn) fun t =>
    let (v, fl) := pairResult p.op (slotOld p x t) (slotSrc p x w t)
    { wr := wrDst p.f.u p.f.d.toNat (slotRegs p) t (extendTo (pairTy p.op) p.f.u v), flags := fl }

/-- The vector registers a slot names (05 R115). -/
def slotNamed (p : PairSlot) : List Nat :=
  if p.op = .nop || p.f.u then []
  else run p.f.d.toNat (slotRegs p) ++ (if pairHasS p.op then run p.f.s.toNat (slotRegs p) else [])

/-- The uniform registers a slot names. -/
def slotNamedU (p : PairSlot) : List Nat :=
  if p.op = .nop || !p.f.u then []
  else p.f.d.toNat :: (if pairHasS p.op then [p.f.s.toNat] else [])

/-- Whether two slots share a bank group, or slot B names what slot A writes (05 R115). -/
def pairClash (a b : PairSlot) : Bool :=
  meets ((slotNamed a).map (· % 4)) ((slotNamed b).map (· % 4))
  || (a.op != .nop && !a.f.u && meets (run a.f.d.toNat (slotRegs a)) (slotNamed b))
  || (a.op != .nop && a.f.u && (slotNamedU b).contains a.f.d.toNat)

/-- A pair word (05 R112 to R116): the illegal-pairing trap where the slots share what they may not; otherwise both read,
and both write. The lane is occupied by the union of the two effective active sets. -/
def issuePair (s : State) (a b : PairSlot) : Host.Outcome State Fault Refusal :=
  match current s with
  | none => .fault .noGroup
  | some (h, g) =>
    let x := g.ctx
    if pairClash a b then .next (raise s h (badRec x x.active { code := 0x03 }))
    else
      let ea := effSet x g.w a.f.k a.f.kn
      let eb := effSet x g.w b.f.k b.f.kn
      let io := (slotIo a).join (slotIo b)
      if blocked x (((slotIo a).under ea).join ((slotIo b).under eb)) then .next s
      else
        let ra := slotRes a x g.w
        let rb := slotRes b x g.w
        let r : Res := { wr := ra.wr ++ rb.wr, flags := ra.flags ||| rb.flags }
        let (mapped, n) := allocNeed x io (vRegs r.wr)
        match allocCheck s h g mapped n with
        | .trap => .next (raise s h (badRec x (ea ||| eb) { code := 0x07 }))
        | .park => .next (parkRegs s h g n)
        | .ok => .next (retire s h g io 1 (laneCycles g.w (ea ||| eb)) r)

/-- A pair word whose slot A is `nop` (05 R113). -/
def execPairNop (a : PSlot) (b : PairSlot) (s : State) : Host.Outcome State Fault Refusal := issuePair s ⟨.nop, a⟩ b
/-- A pair word whose slot A is `mov` (05 R113). -/
def execPairMov (a : PSlot) (b : PairSlot) (s : State) : Host.Outcome State Fault Refusal := issuePair s ⟨.mov, a⟩ b
/-- A pair word whose slot A is `iaddI32` (05 R113). -/
def execPairIaddI32 (a : PSlot) (b : PairSlot) (s : State) : Host.Outcome State Fault Refusal := issuePair s ⟨.iaddI32, a⟩ b
/-- A pair word whose slot A is `isubI32` (05 R113). -/
def execPairIsubI32 (a : PSlot) (b : PairSlot) (s : State) : Host.Outcome State Fault Refusal := issuePair s ⟨.isubI32, a⟩ b
/-- A pair word whose slot A is `iminI32` (05 R113). -/
def execPairIminI32 (a : PSlot) (b : PairSlot) (s : State) : Host.Outcome State Fault Refusal := issuePair s ⟨.iminI32, a⟩ b
/-- A pair word whose slot A is `imaxI32` (05 R113). -/
def execPairImaxI32 (a : PSlot) (b : PairSlot) (s : State) : Host.Outcome State Fault Refusal := issuePair s ⟨.imaxI32, a⟩ b
/-- A pair word whose slot A is `iminN32` (05 R113). -/
def execPairIminN32 (a : PSlot) (b : PairSlot) (s : State) : Host.Outcome State Fault Refusal := issuePair s ⟨.iminN32, a⟩ b
/-- A pair word whose slot A is `imaxN32` (05 R113). -/
def execPairImaxN32 (a : PSlot) (b : PairSlot) (s : State) : Host.Outcome State Fault Refusal := issuePair s ⟨.imaxN32, a⟩ b
/-- A pair word whose slot A is `and32` (05 R113). -/
def execPairAnd (a : PSlot) (b : PairSlot) (s : State) : Host.Outcome State Fault Refusal := issuePair s ⟨.and32, a⟩ b
/-- A pair word whose slot A is `or32` (05 R113). -/
def execPairOr (a : PSlot) (b : PairSlot) (s : State) : Host.Outcome State Fault Refusal := issuePair s ⟨.or32, a⟩ b
/-- A pair word whose slot A is `xor32` (05 R113). -/
def execPairXor (a : PSlot) (b : PairSlot) (s : State) : Host.Outcome State Fault Refusal := issuePair s ⟨.xor32, a⟩ b
/-- A pair word whose slot A is `andn32` (05 R113). -/
def execPairAndn (a : PSlot) (b : PairSlot) (s : State) : Host.Outcome State Fault Refusal := issuePair s ⟨.andn32, a⟩ b
/-- A pair word whose slot A is `shl32` (05 R113). -/
def execPairShl (a : PSlot) (b : PairSlot) (s : State) : Host.Outcome State Fault Refusal := issuePair s ⟨.shl32, a⟩ b
/-- A pair word whose slot A is `shr32` (05 R113). -/
def execPairShr (a : PSlot) (b : PairSlot) (s : State) : Host.Outcome State Fault Refusal := issuePair s ⟨.shr32, a⟩ b
/-- A pair word whose slot A is `sar32` (05 R113). -/
def execPairSar (a : PSlot) (b : PairSlot) (s : State) : Host.Outcome State Fault Refusal := issuePair s ⟨.sar32, a⟩ b
/-- A pair word whose slot A is `faddF32` (05 R113). -/
def execPairFaddF32 (a : PSlot) (b : PairSlot) (s : State) : Host.Outcome State Fault Refusal := issuePair s ⟨.faddF32, a⟩ b
/-- A pair word whose slot A is `fmulF32` (05 R113). -/
def execPairFmulF32 (a : PSlot) (b : PairSlot) (s : State) : Host.Outcome State Fault Refusal := issuePair s ⟨.fmulF32, a⟩ b
/-- A pair word whose slot A is `fminF32` (05 R113). -/
def execPairFminF32 (a : PSlot) (b : PairSlot) (s : State) : Host.Outcome State Fault Refusal := issuePair s ⟨.fminF32, a⟩ b
/-- A pair word whose slot A is `fmaxF32` (05 R113). -/
def execPairFmaxF32 (a : PSlot) (b : PairSlot) (s : State) : Host.Outcome State Fault Refusal := issuePair s ⟨.fmaxF32, a⟩ b
/-- A pair word whose slot A is `faddBf16x2` (05 R113). -/
def execPairFaddBf16x2 (a : PSlot) (b : PairSlot) (s : State) : Host.Outcome State Fault Refusal := issuePair s ⟨.faddBf16x2, a⟩ b
/-- A pair word whose slot A is `fmulBf16x2` (05 R113). -/
def execPairFmulBf16x2 (a : PSlot) (b : PairSlot) (s : State) : Host.Outcome State Fault Refusal := issuePair s ⟨.fmulBf16x2, a⟩ b
/-- A pair word whose slot A is `fminBf16x2` (05 R113). -/
def execPairFminBf16x2 (a : PSlot) (b : PairSlot) (s : State) : Host.Outcome State Fault Refusal := issuePair s ⟨.fminBf16x2, a⟩ b
/-- A pair word whose slot A is `fmaxBf16x2` (05 R113). -/
def execPairFmaxBf16x2 (a : PSlot) (b : PairSlot) (s : State) : Host.Outcome State Fault Refusal := issuePair s ⟨.fmaxBf16x2, a⟩ b
/-- A pair word whose slot A is `iaddI64` (05 R113). -/
def execPairIaddI64 (a : PSlot) (b : PairSlot) (s : State) : Host.Outcome State Fault Refusal := issuePair s ⟨.iaddI64, a⟩ b
/-- A pair word whose slot A is `isubI64` (05 R113). -/
def execPairIsubI64 (a : PSlot) (b : PairSlot) (s : State) : Host.Outcome State Fault Refusal := issuePair s ⟨.isubI64, a⟩ b
/-- A pair word whose slot A is `movImm` (05 R113). -/
def execPairMovImm (a : PSlot) (b : PairSlot) (s : State) : Host.Outcome State Fault Refusal := issuePair s ⟨.movImm, a⟩ b
/-- A pair word whose slot A is `iaddI32Imm` (05 R113). -/
def execPairIaddI32Imm (a : PSlot) (b : PairSlot) (s : State) : Host.Outcome State Fault Refusal := issuePair s ⟨.iaddI32Imm, a⟩ b
/-- A pair word whose slot A is `andImm` (05 R113). -/
def execPairAndImm (a : PSlot) (b : PairSlot) (s : State) : Host.Outcome State Fault Refusal := issuePair s ⟨.andImm, a⟩ b
/-- A pair word whose slot A is `orImm` (05 R113). -/
def execPairOrImm (a : PSlot) (b : PairSlot) (s : State) : Host.Outcome State Fault Refusal := issuePair s ⟨.orImm, a⟩ b
/-- A pair word whose slot A is `xorImm` (05 R113). -/
def execPairXorImm (a : PSlot) (b : PairSlot) (s : State) : Host.Outcome State Fault Refusal := issuePair s ⟨.xorImm, a⟩ b
/-- A pair word whose slot A is `shlImm` (05 R113). -/
def execPairShlImm (a : PSlot) (b : PairSlot) (s : State) : Host.Outcome State Fault Refusal := issuePair s ⟨.shlImm, a⟩ b
/-- A pair word whose slot A is `shrImm` (05 R113). -/
def execPairShrImm (a : PSlot) (b : PairSlot) (s : State) : Host.Outcome State Fault Refusal := issuePair s ⟨.shrImm, a⟩ b
/-- A pair word whose slot A is `sarImm` (05 R113). -/
def execPairSarImm (a : PSlot) (b : PairSlot) (s : State) : Host.Outcome State Fault Refusal := issuePair s ⟨.sarImm, a⟩ b
/-- A pair word whose slot A is `iaddI64Imm` (05 R113). -/
def execPairIaddI64Imm (a : PSlot) (b : PairSlot) (s : State) : Host.Outcome State Fault Refusal := issuePair s ⟨.iaddI64Imm, a⟩ b

end Sys2Proof.Machine
end

