-- ==== Sys2Proof/Machine/Dispatch.lean ====
section
/-! DEFINITION. One arm per instruction and device event: each calls its meaning. -/

namespace Sys2Proof.Machine

/-- What an instruction or a device event does to the machine. -/
def exec (i : Instr) (s : State) : Host.Outcome State Fault Refusal :=
  match i with
  | .nop f => Sys2Proof.Machine.execNop f s
  | .br f w => Sys2Proof.Machine.execBr f w s
  | .join f => Sys2Proof.Machine.execJoin f s
  | .call f w => Sys2Proof.Machine.execCall f w s
  | .ret f => Sys2Proof.Machine.execRet f s
  | .btab f ws => Sys2Proof.Machine.execBtab f ws s
  | .loopu f w => Sys2Proof.Machine.execLoopu f w s
  | .exit f => Sys2Proof.Machine.execExit f s
  | .sink f => Sys2Proof.Machine.execSink f s
  | .region f => Sys2Proof.Machine.execRegion f s
  | .commit f => Sys2Proof.Machine.execCommit f s
  | .yield_ f => Sys2Proof.Machine.execYield f s
  | .bpt f => Sys2Proof.Machine.execBpt f s
  | .trap f => Sys2Proof.Machine.execTrap f s
  | .iadd f => Sys2Proof.Machine.execIadd f s
  | .isub f => Sys2Proof.Machine.execIsub f s
  | .imul f => Sys2Proof.Machine.execImul f s
  | .imulh f => Sys2Proof.Machine.execImulh f s
  | .imad f => Sys2Proof.Machine.execImad f s
  | .iaddc f => Sys2Proof.Machine.execIaddc f s
  | .imin f => Sys2Proof.Machine.execImin f s
  | .imax f => Sys2Proof.Machine.execImax f s
  | .iabs f => Sys2Proof.Machine.execIabs f s
  | .ineg f => Sys2Proof.Machine.execIneg f s
  | .idiv f => Sys2Proof.Machine.execIdiv f s
  | .irem f => Sys2Proof.Machine.execIrem f s
  | .icmp f => Sys2Proof.Machine.execIcmp f s
  | .lea f => Sys2Proof.Machine.execLea f s
  | .sel f => Sys2Proof.Machine.execSel f s
  | .mov f => Sys2Proof.Machine.execMov f s
  | .and_ f => Sys2Proof.Machine.execAnd f s
  | .or_ f => Sys2Proof.Machine.execOr f s
  | .xor_ f => Sys2Proof.Machine.execXor f s
  | .not_ f => Sys2Proof.Machine.execNot f s
  | .andn f => Sys2Proof.Machine.execAndn f s
  | .shl f => Sys2Proof.Machine.execShl f s
  | .shr f => Sys2Proof.Machine.execShr f s
  | .sar f => Sys2Proof.Machine.execSar f s
  | .rol f => Sys2Proof.Machine.execRol f s
  | .popc f => Sys2Proof.Machine.execPopc f s
  | .clz f => Sys2Proof.Machine.execClz f s
  | .brev f => Sys2Proof.Machine.execBrev f s
  | .bfx f => Sys2Proof.Machine.execBfx f s
  | .bfi f => Sys2Proof.Machine.execBfi f s
  | .perm f => Sys2Proof.Machine.execPerm f s
  | .movi f w => Sys2Proof.Machine.execMovi f w s
  | .fadd f => Sys2Proof.Machine.execFadd f s
  | .fsub f => Sys2Proof.Machine.execFsub f s
  | .fmul f => Sys2Proof.Machine.execFmul f s
  | .ffma f => Sys2Proof.Machine.execFfma f s
  | .fmin f => Sys2Proof.Machine.execFmin f s
  | .fmax f => Sys2Proof.Machine.execFmax f s
  | .fabs f => Sys2Proof.Machine.execFabs f s
  | .fneg f => Sys2Proof.Machine.execFneg f s
  | .fcmp f => Sys2Proof.Machine.execFcmp f s
  | .fclass f => Sys2Proof.Machine.execFclass f s
  | .frcp f => Sys2Proof.Machine.execFrcp f s
  | .frsq f => Sys2Proof.Machine.execFrsq f s
  | .fsqrt f => Sys2Proof.Machine.execFsqrt f s
  | .fex2 f => Sys2Proof.Machine.execFex2 f s
  | .flg2 f => Sys2Proof.Machine.execFlg2 f s
  | .ftrig f => Sys2Proof.Machine.execFtrig f s
  | .dadd f => Sys2Proof.Machine.execDadd f s
  | .dsub f => Sys2Proof.Machine.execDsub f s
  | .dmul f => Sys2Proof.Machine.execDmul f s
  | .dfma f => Sys2Proof.Machine.execDfma f s
  | .dmin f => Sys2Proof.Machine.execDmin f s
  | .dmax f => Sys2Proof.Machine.execDmax f s
  | .dcmp f => Sys2Proof.Machine.execDcmp f s
  | .drcp f => Sys2Proof.Machine.execDrcp f s
  | .dsqrt f => Sys2Proof.Machine.execDsqrt f s
  | .cvt f => Sys2Proof.Machine.execCvt f s
  | .cvtb f => Sys2Proof.Machine.execCvtb f s
  | .frnd f => Sys2Proof.Machine.execFrnd f s
  | .fscl f => Sys2Proof.Machine.execFscl f s
  | .vote f => Sys2Proof.Machine.execVote f s
  | .shfl f => Sys2Proof.Machine.execShfl f s
  | .gscan f => Sys2Proof.Machine.execGscan f s
  | .gred f => Sys2Proof.Machine.execGred f s
  | .bcast f => Sys2Proof.Machine.execBcast f s
  | .match_ f => Sys2Proof.Machine.execMatch f s
  | .kop f => Sys2Proof.Machine.execKop f s
  | .kmov f => Sys2Proof.Machine.execKmov f s
  | .ld f w => Sys2Proof.Machine.execLd f w s
  | .lds f w => Sys2Proof.Machine.execLds f w s
  | .ldp f w => Sys2Proof.Machine.execLdp f w s
  | .ldc f w => Sys2Proof.Machine.execLdc f w s
  | .lda f w => Sys2Proof.Machine.execLda f w s
  | .ldx f w => Sys2Proof.Machine.execLdx f w s
  | .pref f => Sys2Proof.Machine.execPref f s
  | .st f w => Sys2Proof.Machine.execSt f w s
  | .sts f w => Sys2Proof.Machine.execSts f w s
  | .stp f w => Sys2Proof.Machine.execStp f w s
  | .strl f w => Sys2Proof.Machine.execStrl f w s
  | .clean f => Sys2Proof.Machine.execClean f s
  | .inval f => Sys2Proof.Machine.execInval f s
  | .flushn f => Sys2Proof.Machine.execFlushn f s
  | .atom f => Sys2Proof.Machine.execAtom f s
  | .acas f => Sys2Proof.Machine.execAcas f s
  | .aredn f => Sys2Proof.Machine.execAredn f s
  | .atoms f => Sys2Proof.Machine.execAtoms f s
  | .fence f => Sys2Proof.Machine.execFence f s
  | .barw f => Sys2Proof.Machine.execBarw f s
  | .bara f => Sys2Proof.Machine.execBara f s
  | .drain f => Sys2Proof.Machine.execDrain f s
  | .txb f => Sys2Proof.Machine.execTxb f s
  | .txe f => Sys2Proof.Machine.execTxe f s
  | .txa f => Sys2Proof.Machine.execTxa f s
  | .txq f => Sys2Proof.Machine.execTxq f s
  | .waite f => Sys2Proof.Machine.execWaite f s
  | .spawn f => Sys2Proof.Machine.execSpawn f s
  | .await_ f => Sys2Proof.Machine.execAwait f s
  | .resolve f => Sys2Proof.Machine.execResolve f s
  | .park f => Sys2Proof.Machine.execPark f s
  | .steal f => Sys2Proof.Machine.execSteal f s
  | .role f => Sys2Proof.Machine.execRole f s
  | .futnew f => Sys2Proof.Machine.execFutnew f s
  | .mma f => Sys2Proof.Machine.execMma f s
  | .mmaz f => Sys2Proof.Machine.execMmaz f s
  | .mlds f => Sys2Proof.Machine.execMlds f s
  | .msts f => Sys2Proof.Machine.execMsts f s
  | .mtrn f => Sys2Proof.Machine.execMtrn f s
  | .tmma f => Sys2Proof.Machine.execTmma f s
  | .copy f => Sys2Proof.Machine.execCopy f s
  | .coll f => Sys2Proof.Machine.execColl f s
  | .press f w1 w2 w3 => Sys2Proof.Machine.execPress f w1 w2 w3 s
  | .lnest f w1 w2 w3 => Sys2Proof.Machine.execLnest f w1 w2 w3 s
  | .tdep f => Sys2Proof.Machine.execTdep f s
  | .tstore f => Sys2Proof.Machine.execTstore f s
  | .tzero f => Sys2Proof.Machine.execTzero f s
  | .ecancel f => Sys2Proof.Machine.execEcancel f s
  | .rds f => Sys2Proof.Machine.execRds f s
  | .wrs f => Sys2Proof.Machine.execWrs f s
  | .event f => Sys2Proof.Machine.execEvent f s
  | .clockc f => Sys2Proof.Machine.execClockc f s
  | .tret f => Sys2Proof.Machine.execTret f s
  | .tlbi f => Sys2Proof.Machine.execTlbi f s
  | .ctxsv f => Sys2Proof.Machine.execCtxsv f s
  | .ctxld f => Sys2Proof.Machine.execCtxld f s
  | .killt f => Sys2Proof.Machine.execKillt f s
  | .halt f => Sys2Proof.Machine.execHalt f s
  | .pairNop a b => Sys2Proof.Machine.execPairNop a b s
  | .pairMov a b => Sys2Proof.Machine.execPairMov a b s
  | .pairIaddI32 a b => Sys2Proof.Machine.execPairIaddI32 a b s
  | .pairIsubI32 a b => Sys2Proof.Machine.execPairIsubI32 a b s
  | .pairIminI32 a b => Sys2Proof.Machine.execPairIminI32 a b s
  | .pairImaxI32 a b => Sys2Proof.Machine.execPairImaxI32 a b s
  | .pairIminN32 a b => Sys2Proof.Machine.execPairIminN32 a b s
  | .pairImaxN32 a b => Sys2Proof.Machine.execPairImaxN32 a b s
  | .pairAnd a b => Sys2Proof.Machine.execPairAnd a b s
  | .pairOr a b => Sys2Proof.Machine.execPairOr a b s
  | .pairXor a b => Sys2Proof.Machine.execPairXor a b s
  | .pairAndn a b => Sys2Proof.Machine.execPairAndn a b s
  | .pairShl a b => Sys2Proof.Machine.execPairShl a b s
  | .pairShr a b => Sys2Proof.Machine.execPairShr a b s
  | .pairSar a b => Sys2Proof.Machine.execPairSar a b s
  | .pairFaddF32 a b => Sys2Proof.Machine.execPairFaddF32 a b s
  | .pairFmulF32 a b => Sys2Proof.Machine.execPairFmulF32 a b s
  | .pairFminF32 a b => Sys2Proof.Machine.execPairFminF32 a b s
  | .pairFmaxF32 a b => Sys2Proof.Machine.execPairFmaxF32 a b s
  | .pairFaddBf16x2 a b => Sys2Proof.Machine.execPairFaddBf16x2 a b s
  | .pairFmulBf16x2 a b => Sys2Proof.Machine.execPairFmulBf16x2 a b s
  | .pairFminBf16x2 a b => Sys2Proof.Machine.execPairFminBf16x2 a b s
  | .pairFmaxBf16x2 a b => Sys2Proof.Machine.execPairFmaxBf16x2 a b s
  | .pairIaddI64 a b => Sys2Proof.Machine.execPairIaddI64 a b s
  | .pairIsubI64 a b => Sys2Proof.Machine.execPairIsubI64 a b s
  | .pairMovImm a b => Sys2Proof.Machine.execPairMovImm a b s
  | .pairIaddI32Imm a b => Sys2Proof.Machine.execPairIaddI32Imm a b s
  | .pairAndImm a b => Sys2Proof.Machine.execPairAndImm a b s
  | .pairOrImm a b => Sys2Proof.Machine.execPairOrImm a b s
  | .pairXorImm a b => Sys2Proof.Machine.execPairXorImm a b s
  | .pairShlImm a b => Sys2Proof.Machine.execPairShlImm a b s
  | .pairShrImm a b => Sys2Proof.Machine.execPairShrImm a b s
  | .pairSarImm a b => Sys2Proof.Machine.execPairSarImm a b s
  | .pairIaddI64Imm a b => Sys2Proof.Machine.execPairIaddI64Imm a b s
  | .longLatencyResult => Sys2Proof.Machine.execLongLatencyResult s
  | .faultDelivery => Sys2Proof.Machine.execFaultDelivery s
  | .yieldExpiry => Sys2Proof.Machine.execYieldExpiry s
  | .registerParkEviction => Sys2Proof.Machine.execRegisterParkEviction s
  | .registerGrant => Sys2Proof.Machine.execRegisterGrant s
  | .parkedScratchAccess => Sys2Proof.Machine.execParkedScratchAccess s
  | .sinkProbe => Sys2Proof.Machine.execSinkProbe s
  | .sinkHoldGrant => Sys2Proof.Machine.execSinkHoldGrant s
  | .sinkInstance => Sys2Proof.Machine.execSinkInstance s
  | .sinkResult => Sys2Proof.Machine.execSinkResult s
  | .sinkCoreReexecution => Sys2Proof.Machine.execSinkCoreReexecution s
  | .engineDispatch => Sys2Proof.Machine.execEngineDispatch s
  | .dependencyEntryLeave => Sys2Proof.Machine.execDependencyEntryLeave s
  | .engineScratchLineLand => Sys2Proof.Machine.execEngineScratchLineLand s
  | .engineCommandComplete => Sys2Proof.Machine.execEngineCommandComplete s
  | .engineFault => Sys2Proof.Machine.execEngineFault s
  | .engineLeaseExpiry => Sys2Proof.Machine.execEngineLeaseExpiry s
  | .engineLeaseBind => Sys2Proof.Machine.execEngineLeaseBind s
  | .collComplete cmd agree ranks => Sys2Proof.Machine.execCollComplete cmd agree ranks s
  | .pressShare => Sys2Proof.Machine.execPressShare s
  | .tmmaKblock => Sys2Proof.Machine.execTmmaKblock s
  | .nearCacheMiss r => Sys2Proof.Machine.execNearCacheMiss r s
  | .nearCacheFill r data wv le => Sys2Proof.Machine.execNearCacheFill r data wv le s
  | .nearCacheWriteback m => Sys2Proof.Machine.execNearCacheWriteback m s
  | .writebackAck m wv => Sys2Proof.Machine.execWritebackAck m wv s
  | .storeAck => Sys2Proof.Machine.execStoreAck s
  | .nearCacheRecall => Sys2Proof.Machine.execNearCacheRecall s
  | .homeRead die r => Sys2Proof.Machine.execHomeRead die r s
  | .homeReadExclusive die r => Sys2Proof.Machine.execHomeReadExclusive die r s
  | .homeUpgrade die r => Sys2Proof.Machine.execHomeUpgrade die r s
  | .forwardShared => Sys2Proof.Machine.execForwardShared s
  | .forwardExclusive => Sys2Proof.Machine.execForwardExclusive s
  | .forwardReply die la data modified => Sys2Proof.Machine.execForwardReply die la data modified s
  | .noDataReply => Sys2Proof.Machine.execNoDataReply s
  | .invalidation => Sys2Proof.Machine.execInvalidation s
  | .invalidationAck => Sys2Proof.Machine.execInvalidationAck s
  | .sliceWriteback die la data st => Sys2Proof.Machine.execSliceWriteback die la data st s
  | .sliceEviction => Sys2Proof.Machine.execSliceEviction s
  | .directoryCensus => Sys2Proof.Machine.execDirectoryCensus s
  | .directoryMerge => Sys2Proof.Machine.execDirectoryMerge s
  | .exclusiveGrant die r => Sys2Proof.Machine.execExclusiveGrant die r s
  | .homeRelease m => Sys2Proof.Machine.execHomeRelease m s
  | .homeAcquire m => Sys2Proof.Machine.execHomeAcquire m s
  | .coreDrain => Sys2Proof.Machine.execCoreDrain s
  | .drainComplete => Sys2Proof.Machine.execDrainComplete s
  | .homeAtomic m => Sys2Proof.Machine.execHomeAtomic m s
  | .transactionDoom => Sys2Proof.Machine.execTransactionDoom s
  | .slicePrefetch => Sys2Proof.Machine.execSlicePrefetch s
  | .pressPrefetch => Sys2Proof.Machine.execPressPrefetch s
  | .pressScrub => Sys2Proof.Machine.execPressScrub s
  | .vintageRebase => Sys2Proof.Machine.execVintageRebase s
  | .splitScratchToCache => Sys2Proof.Machine.execSplitScratchToCache s
  | .splitCacheToScratch => Sys2Proof.Machine.execSplitCacheToScratch s
  | .granuleRelease => Sys2Proof.Machine.execGranuleRelease s
  | .caskLaunch => Sys2Proof.Machine.execCaskLaunch s
  | .caskAgeExpiry => Sys2Proof.Machine.execCaskAgeExpiry s
  | .overflowMove => Sys2Proof.Machine.execOverflowMove s
  | .idleSteal => Sys2Proof.Machine.execIdleSteal s
  | .adoptionReturn => Sys2Proof.Machine.execAdoptionReturn s
  | .futureWake => Sys2Proof.Machine.execFutureWake s
  | .spawnOverflowRetry => Sys2Proof.Machine.execSpawnOverflowRetry s
  | .launchRecordTake => Sys2Proof.Machine.execLaunchRecordTake s
  | .queueDoorbell vf q tail => Sys2Proof.Machine.execQueueDoorbell vf q tail s
  | .teamPlacement => Sys2Proof.Machine.execTeamPlacement s
  | .placementHoldExpiry => Sys2Proof.Machine.execPlacementHoldExpiry s
  | .cooperativeCancel => Sys2Proof.Machine.execCooperativeCancel s
  | .launchCompletion => Sys2Proof.Machine.execLaunchCompletion s
  | .tokenPeriodStart => Sys2Proof.Machine.execTokenPeriodStart s
  | .tokenGrantDraw => Sys2Proof.Machine.execTokenGrantDraw s
  | .tenantIdle => Sys2Proof.Machine.execTenantIdle s
  | .coreLeave => Sys2Proof.Machine.execCoreLeave s
  | .teamSave team evict => Sys2Proof.Machine.execTeamSave team evict s
  | .teamKill team why => Sys2Proof.Machine.execTeamKill team why s
  | .translationWalk => Sys2Proof.Machine.execTranslationWalk s
  | .translationInvalidateComplete sc => Sys2Proof.Machine.execTranslationInvalidateComplete sc s
  | .eccUncorrectable site => Sys2Proof.Machine.execEccUncorrectable site s
  | .partRetire kind n => Sys2Proof.Machine.execPartRetire kind n s
  | .channelCopyComplete => Sys2Proof.Machine.execChannelCopyComplete s
  | .islandStateChange island st => Sys2Proof.Machine.execIslandStateChange island st s
  | .deviceReset => Sys2Proof.Machine.execDeviceReset s
  | .bootStage stage img => Sys2Proof.Machine.execBootStage stage img s
  | .hostMemoryAccess pa acc => Sys2Proof.Machine.execHostMemoryAccess pa acc s
  | .flitRetry => Sys2Proof.Machine.execFlitRetry s
  | .roceRetransmission => Sys2Proof.Machine.execRoceRetransmission s
  | .createPartition => Sys2Proof.Machine.execCreatePartition s
  | .destroyPartition => Sys2Proof.Machine.execDestroyPartition s
  | .resizeRequest => Sys2Proof.Machine.execResizeRequest s
  | .preEmpt => Sys2Proof.Machine.execPreEmpt s
  | .resumeRequest => Sys2Proof.Machine.execResumeRequest s
  | .killRequest => Sys2Proof.Machine.execKillRequest s
  | .queryRequest => Sys2Proof.Machine.execQueryRequest s
  | .installHandlerTable => Sys2Proof.Machine.execInstallHandlerTable s
  | .registerContextPool => Sys2Proof.Machine.execRegisterContextPool s
  | .setCommunicator => Sys2Proof.Machine.execSetCommunicator s
  | .invalidateTranslations => Sys2Proof.Machine.execInvalidateTranslations s
  | .setAddressSpace => Sys2Proof.Machine.execSetAddressSpace s
  | .keyCreate => Sys2Proof.Machine.execKeyCreate s
  | .keyBind => Sys2Proof.Machine.execKeyBind s
  | .keyUnbind => Sys2Proof.Machine.execKeyUnbind s
  | .keyDestroy => Sys2Proof.Machine.execKeyDestroy s
  | .readAttestationLog => Sys2Proof.Machine.execReadAttestationLog s
  | .quote_ => Sys2Proof.Machine.execQuote s
  | .firmwareUpdate => Sys2Proof.Machine.execFirmwareUpdate s
  | .managementUnknownCode => Sys2Proof.Machine.execManagementUnknownCode s
  | .tasterEventArrival die ev => Sys2Proof.Machine.execTasterEventArrival die ev s
  | .filterRunStart => Sys2Proof.Machine.execFilterRunStart s
  | .filterRunEnd => Sys2Proof.Machine.execFilterRunEnd s
  | .tasterBudgetWindow => Sys2Proof.Machine.execTasterBudgetWindow s
  | .snapshotCopyComplete => Sys2Proof.Machine.execSnapshotCopyComplete s
  | .sctlStart die slot v => Sys2Proof.Machine.execSctlStart die slot v s
  | .sctlStop die slot v => Sys2Proof.Machine.execSctlStop die slot v s
  | .sownWrite die slot v => Sys2Proof.Machine.execSownWrite die slot v s
  | .registerWrite w => Sys2Proof.Machine.execRegisterWrite w s
  | .filterEnd f => Sys2Proof.Machine.execFilterEnd f s
  | .filterLdf f => Sys2Proof.Machine.execFilterLdf f s
  | .filterSeti f => Sys2Proof.Machine.execFilterSeti f s
  | .filterAdd f => Sys2Proof.Machine.execFilterAdd f s
  | .filterAddi f => Sys2Proof.Machine.execFilterAddi f s
  | .filterSub f => Sys2Proof.Machine.execFilterSub f s
  | .filterAnd f => Sys2Proof.Machine.execFilterAnd f s
  | .filterAndi f => Sys2Proof.Machine.execFilterAndi f s
  | .filterOr f => Sys2Proof.Machine.execFilterOr f s
  | .filterXor f => Sys2Proof.Machine.execFilterXor f s
  | .filterShli f => Sys2Proof.Machine.execFilterShli f s
  | .filterShri f => Sys2Proof.Machine.execFilterShri f s
  | .filterSltu f => Sys2Proof.Machine.execFilterSltu f s
  | .filterCeqi f => Sys2Proof.Machine.execFilterCeqi f s
  | .filterBz f => Sys2Proof.Machine.execFilterBz f s
  | .filterBnz f => Sys2Proof.Machine.execFilterBnz f s
  | .filterJmp f => Sys2Proof.Machine.execFilterJmp f s
  | .filterLdw f => Sys2Proof.Machine.execFilterLdw f s
  | .filterStw f => Sys2Proof.Machine.execFilterStw f s
  | .filterHash f => Sys2Proof.Machine.execFilterHash f s
  | .filterHinc f => Sys2Proof.Machine.execFilterHinc f s
  | .filterCms f => Sys2Proof.Machine.execFilterCms f s
  | .filterHll f => Sys2Proof.Machine.execFilterHll f s
  | .filterTrig f => Sys2Proof.Machine.execFilterTrig f s
  | .filterSnap f => Sys2Proof.Machine.execFilterSnap f s
  | .illegalInstruction w => Sys2Proof.Machine.execIllegalInstruction w s
  | .engineOperation => Sys2Proof.Machine.execEngineOperation s
  | .fillFromMemory => Sys2Proof.Machine.execFillFromMemory s
  | .censusReply part la die lower upper => Sys2Proof.Machine.execCensusReply part la die lower upper s
  | .sliceRecall => Sys2Proof.Machine.execSliceRecall s
  | .correctedError kind n => Sys2Proof.Machine.execCorrectedError kind n s
  | .createQueue vf q desc => Sys2Proof.Machine.execCreateQueue vf q desc s
  | .hostTransfer compress src dst len => Sys2Proof.Machine.execHostTransfer compress src dst len s
  | .doorbellWriteIgnored => Sys2Proof.Machine.execDoorbellWriteIgnored s
  | .sliceChannelHomeTableChange => Sys2Proof.Machine.execSliceChannelHomeTableChange s

end Sys2Proof.Machine
end

