-- ==== Sys2Proof/Machine/Run.lean ====
section
/-! DEFINITION. One choice of the tape, and what is done where the tape makes none (00 R2, 02 R51). -/

namespace Sys2Proof.Machine

/-- Perform a device event where its conditions hold; it is no longer in flight. -/
def tryEvent (s : State) (d : Due) : Option (Host.Outcome State Fault Refusal) :=
  match exec d.ev { s with subj := d.subj, due := s.due.erase d } with
  | .fault (.notEnabled _) => none
  | .next t => some (.next (freshen t))
  | r => some r

/-- Whether a Taster event on the sideband has an earlier one of its source before it (22 R386). -/
def overtakes (s : State) (d : Due) : Bool :=
  match d.ev with
  | .tasterEventArrival _ e => s.due.find? (fun x => match x.ev with
      | .tasterEventArrival _ f => f.source = e.source
      | _ => false) != some d
  | _ => false

/-- Perform a device event. One whose conditions do not hold, or a message that is not in flight, has no effect. -/
def performEvent (s : State) (d : Due) : Host.Outcome State Fault Refusal :=
  if isMessage d.ev && (!s.due.contains d || overtakes s d) then .next s else (tryEvent s d).getD (.next s)

/-- The windows that a word with this opcode ends before it, where one of them has met a fault: the fault is delivered first
(05 R117, R120). -/
def endsFault (x : Ctx) (w : Word) : Bool := endsWindows (opcodeOf w) && faultWaits (endWins x)

/-- What a step adds to a word's effect for group `h`, which was `g` before it: a word that left the group where it was is
noted as waiting; any other may have brought what another group's word waits for. -/
def afterWord (s : State) (h : Nat) (g : Group) (r : Host.Outcome State Fault Refusal) : Host.Outcome State Fault Refusal :=
  match r with
  | .next t => .next (if stayed s t h g then modGroup t h fun g => { g with stall := true } else freshen t)
  | r => r

/-- Execute a fetched word for a group. -/
def runWord (s : State) (h : Nat) (g : Group) (ws : List Word) : Host.Outcome State Fault Refusal :=
  if endsFault g.ctx (ws.headD 0) then .next (setGroup s h { g with ctx := endWins g.ctx })
  else afterWord s h g (exec (decodeOr ws) s)

/-- Fetch, decode and execute the word at a group's program counter (05 R91 to R94, R111). -/
def runGroup (s : State) (h : Nat) : Host.Outcome State Fault Refusal :=
  let s := { unpark s h with cur := h }
  match groupOf s h with
  | none => .next s
  | some g =>
    match fetchInstr s g with
    | (.error (code, cause), s) => .next (raise s h (badRec g.ctx g.ctx.active { code := code, cause := cause }))
    | (.ok ws, s) => runWord s h g ws

/-- Execute the instruction at a Taster slot run's program counter (22 R394). -/
def runFilter (s : State) (die slot : Nat) : Host.Outcome State Fault Refusal :=
  let sl := look s.slots slot {}
  match sl.cur with
  | none => .next s
  | some r =>
    let s := { s with curSlot := slot }
    if r.ended || r.code.length ≤ r.pc then performEvent s ⟨.filterRunEnd, { die := die, slot := slot }⟩
    else match decodeFilter (r.code.getD r.pc 0) with
      | .ok i => exec i s
      | .error _ => performEvent s ⟨.filterRunEnd, { die := die, slot := slot }⟩

/-- The slot whose run goes on where no choice is made. -/
def chooseFilter (s : State) : Option Nat :=
  (s.slots.find? fun x => x.2.cur.isSome).map (·.1)

/-- A grant of exclusive ownership that a slice has made: the core takes it before anything else happens, so that no forward,
recall or eviction of the line comes between (18 R326). -/
def grantDue (s : State) : Option Due :=
  s.due.find? fun d => match d.ev with
    | .exclusiveGrant _ _ => true
    | _ => false

/-- The device events that may be the next thing to happen, those in flight first, a grant before all. -/
def candidates (s : State) : List Due :=
  (grantDue s).toList
    ++ s.due
    ++ ((chooseFault s).map fun h => (⟨.faultDelivery, { g := h }⟩ : Due)).toList
    ++ ((chooseResult s).map fun x => (⟨.longLatencyResult, { g := x.1, win := x.2 }⟩ : Due)).toList
    ++ ((chooseSink s).map fun x => (⟨.sinkCoreReexecution, { g := x.1, win := x.2 }⟩ : Due)).toList
    ++ (chooseEngine s).toList ++ (chooseRebase s).toList ++ (chooseTask s).toList ++ (chooseLaunch s).toList ++ (chooseSave s).toList ++ (chooseTaster s).toList

/-- What is done where the tape makes no choice: the first device event whose conditions hold, else a group's word, else a
Taster slot's instruction, else nothing. -/
def defaultStep (s : State) : Host.Outcome State Fault Refusal :=
  match (candidates s).findSome? (tryEvent s) with
  | some r => r
  | none => match chooseGroup s with
    | some h => runGroup s h
    | none => match chooseFilter s with
      | some x => runFilter s (x / 16) x
      | none => .next s

/-- Do what one choice of the tape says. A group that its cluster's next opportunity does not go to (02 R51), or a slot with no
run, lets the choice pass. -/
def follow (s : State) (c : Choice) : Host.Outcome State Fault Refusal :=
  match c with
  | .event d => performEvent s d
  | .issue h =>
    match groupOf s h with
    | some g => if chooseIn s g.core (g.slot0 / 256) = some h then runGroup s h else .next s
    | none => .next s
  | .filter die slot => runFilter s die slot
  | .elapse c n => .next (freshen (elapse s c n))
  | .loseEvent d => match d.ev with
    | .tasterEventArrival _ _ => .next { s with due := s.due.erase d }
    | _ => .next s
  | .split | .defer => .next s

/-- One choice of the tape; a grant that is due goes first, and the choice stays. -/
def choose (s : State) (c : Choice) : Host.Outcome State Fault Refusal :=
  match grantDue s with
  | some d => performEvent { s with tape := c :: s.tape } d
  | none => follow s c

end Sys2Proof.Machine
end

