-- ==== Sys2Proof/Machine/Step.lean ====
section
/-! DEFINITION. One step of the machine: the next choice of the tape; where the tape is empty, the oldest device event in
flight, else a fault or result that is due, else a group's word, else a Taster slot's instruction, else nothing. -/

namespace Sys2Proof.Machine

/-- One step. -/
def step (s : State) : Host.Outcome State Fault Refusal :=
  match s.tape with
  | c :: rest => choose { s with tape := rest } c
  | [] => defaultStep s

/-- The virtual address at which `withFetchWord` places code in a group it makes. -/
def fetchVa : Nat := 0x4000010000

/-- The state with a group ready at `fetchVa`, on core 0 of a partition that owns channel 0, its page mapped in the near
TLB under a live key slot: what the fetch of a word needs where no group is current (log entry 10). -/
def withGroup (s : State) : State :=
  let leaf : Leaf := { asid := 1, vpage := fetchVa / 65536, bits := 16, ppage := 1, slot := 1,
                       r := true, w := true, x := true, cow := false }
  let s := { s with
    parts := put s.parts 0 { cores := [0], slices := [0], channels := [0], home := List.replicate 1024 0,
                             tenants := [(0, { budget := 1048576, balance := 1048576 })] }
    vfs := put s.vfs 0 { asid := 1, root := some 0 }
    keys := put s.keys 1 { live := true, bound := [0], key := 1 }
    launches := put s.launches 1 { rc := { regs := 64, team := 1, region := true, tas := true, pocket := 64 } }
    teams := put s.teams 1 { launch := 1, groups := [1], st := .resident, task := 1, tas := true }
    groups := put s.groups 1
      { team := 1, win := 64, ctx := entryCtx (.ofNat 64 fetchVa) (fullMask 16) 0 (List.replicate 16 1) 0 64 0
                                              (.ofNat 64 fetchVa) }
    nextId := max s.nextId 2 }
  { modCore s 0 fun k => { k with tlb := leaf :: k.tlb, tasBy := some 1 } with cur := 1 }

/-- The group whose word the next opportunity of the current group's cluster issues. -/
def nextInCluster (s : State) : Option Nat :=
  match current s with
  | some (_, g) => chooseIn s g.core (g.slot0 / 256)
  | none => none

/-- The state whose next step fetches and runs the instruction of the bits `w` of a row of the opcode table: a filter
instruction stands at word 0 of a slot's program with a run about to execute it, an Afren instruction at the program
counter of the group that the next opportunity of the current group's cluster goes to, one being made where there is none. -/
def State.withFetchWord (s : State) (nbits w : Nat) : State :=
  let x := w % 2 ^ nbits
  if nbits ≤ 32 then
    let sl := look s.slots 0 {}
    { s with
      slots := put s.slots 0 { sl with prog := put sl.prog 0 (.ofNat 32 x), run := true, bound := true, owner := 255
                                       len := max sl.len 1, cur := some { code := [.ofNat 32 x] } }
      tape := .filter 0 0 :: s.tape }
  else
    let s := if (nextInCluster s).isSome then s else withGroup s
    match (nextInCluster s).bind fun h => (groupOf s h).map fun g => (h, g) with
    | none => s
    | some (h, g) =>
      match translate s g.core (vfOf s g) g.ctx.pc.toNat with
      | (.ok l, s) =>
        { s with mem := pokes s.mem (leafPa l g.ctx.pc.toNat) (leBytes (8 * maxWords) x), tape := .issue h :: s.tape }
      | (.error _, s) => s

end Sys2Proof.Machine
end

