-- ==== Sys2Proof/Safety.lean ====
section
/-! DEFINITION. What counts as a safe run, and the terms in which claims say what an instruction does and what it leaves
as it was. -/

namespace Sys2Proof.Machine

/-- The step at a state answers a next state. -/
def goesOn (s : State) : Prop := ∃ t, step s = .next t

/-- A run of `n` steps never stops. -/
def safeRun (n : Nat) (s : State) : Prop := ∃ t, Sys2Proof.core.run n s = .next t

/-! ### What a list of writes leaves -/

/-- One thread's value of a vector register that held `old`, after register writes: the last of them that names it. -/
def lastV (wr : List RegWr) (old : W32) (r t : Nat) : W32 :=
  wr.foldl (fun o w => if w.uni = false ∧ w.reg = r ∧ w.t = t then w.val.setWidth 32 else o) old

/-- A uniform register that held `old`, after register writes. -/
def lastS (wr : List RegWr) (old : Word) (n : Nat) : Word :=
  wr.foldl (fun o w => if w.uni = true ∧ w.reg = n then w.val else o) old

/-- A mask register other than `k0` that held `old`, after mask writes by a group of width `w`. -/
def lastK (ms : List (Nat × Word)) (w : Nat) (old : Word) (n : Nat) : Word :=
  ms.foldl (fun o m => if m.1 = n then m.2 &&& fullMask w else o) old

/-! ### What stays as it was -/

/-- Nothing changes but one group, the places of register files, clocks, tokens and issue order that a word's issue
accounts in, and the number of the next handle: memory, its lines and tags, every cached copy, every other group and
every other record stay. -/
def Elsewhere (s : State) (h next : Nat) (t : State) : Prop :=
  (∀ j, j ≠ h → groupOf t j = groupOf s j)
  ∧ (∀ c, coreOf t c = { coreOf s c with
      cycles := (coreOf t c).cycles, pregs := (coreOf t c).pregs, pgens := (coreOf t c).pgens
      idle := (coreOf t c).idle, opp := (coreOf t c).opp, tokens := (coreOf t c).tokens })
  ∧ (∀ l, launchOf t l = { launchOf s l with tokens := (launchOf t l).tokens })
  ∧ (∀ p, partOf t p = { partOf s p with tenants := (partOf t p).tenants })
  ∧ (t.due = s.due ∨ ∃ c, t.due = s.due ++ [⟨.registerGrant, { core := c }⟩])
  ∧ t = { s with cores := t.cores, groups := t.groups, launches := t.launches, parts := t.parts, due := t.due
                 nextId := next }

/-- What a word's issue costs: its lane cycles pass on its core, and its cluster's opportunity is the group's last. -/
def Accounted (s : State) (g : Group) (cyc : Nat) (t : State) (g' : Group) : Prop :=
  (coreOf t g.core).cycles = (coreOf s g.core).cycles + cyc
  ∧ g'.lastIssue = (coreOf s g.core).opp.getD (g.slot0 / 256) 0
  ∧ ∀ c, (coreOf t g.core).opp.getD c 0 = if c = g.slot0 / 256 then ((coreOf s g.core).opp.getD c 0 + 1) % 2 ^ 32
      else (coreOf s g.core).opp.getD c 0

/-- The windows of a context after `len` words pass and registers are written: each loses the words, and one still open
whose destination is written loses its result (05 R117, R118). -/
def winsAfter (x : Ctx) (vw uw : List Nat) (len : Nat) : List Win :=
  x.wins.map fun w => { w with
    left := w.left - len
    discarded := w.discarded || (decide (0 < w.left) && (meets w.vdst vw || meets w.udst uw)) }

/-- A group after one of its words has completed: the program counter stands `len` words on; each vector register of each
thread holds what the word wrote last, else zero where a last-read bit freed it, else what it held; uniform registers,
masks and flags likewise; registers granted to it are taken (02 R44); nothing else of the group changes but its place in
the issue order. -/
def Completed (g : Group) (io : Io) (len : Nat) (r : Res) (g' : Group) : Prop :=
  (∀ n t, readV g'.ctx n t = lastV r.wr (if n ∈ lrTakes g.ctx io then 0 else readV g.ctx n t) n t)
  ∧ (∀ n, readS g'.ctx n = lastS r.wr (readS g.ctx n) n)
  ∧ (∀ n, n ≠ 0 → maskReg g'.ctx n = lastK r.masks g.w (maskReg g.ctx n) n)
  ∧ g' = { g with lastIssue := g'.lastIssue, grant := 0, ctx := { g.ctx with
      pc := g.ctx.pc + .ofNat 64 (8 * len), v := g'.ctx.v, s := g'.ctx.s, k := g'.ctx.k
      fpflags := (g.ctx.fpflags ||| r.flags) % 64, phase := 0, wins := winsAfter g.ctx (vRegs r.wr) (uRegs r.wr) len } }

/-- A word of group `h` completed: the group as `Completed` says, all else as it was. -/
def Retired (s : State) (h : Nat) (g : Group) (io : Io) (len cyc : Nat) (r : Res) (t : State) : Prop :=
  (∃ g', groupOf t h = some g' ∧ Completed g io len r g' ∧ Accounted s g cyc t g') ∧ Elsewhere s h s.nextId t

/-- A word may complete at once: it waits for no result, and the registers it newly needs can be had (05 R119, 02 R44). -/
def MayRetire (s : State) (h : Nat) (g : Group) (io : Io) (eff : Word) (wr : List RegWr) : Prop :=
  blocked g.ctx (io.under eff) = false
  ∧ allocCheck s h g (allocNeed g.ctx io (vRegs wr)).1 (allocNeed g.ctx io (vRegs wr)).2 = .ok

/-- A group after one of its words has opened a lookahead window: the program counter stands `len` words on; last-read
registers that the result does not write are freed; no register is written yet; the new window stands behind the others
with the destination, the sources as read and what `win` gives it. -/
def Opened (s : State) (g : Group) (io : Io) (len la : Nat) (win : Win) (g' : Group) : Prop :=
  (∀ n t, readV g'.ctx n t = if n ∈ lrTakes g.ctx io ∧ n ∉ io.vw then 0 else readV g.ctx n t)
  ∧ ∃ pids, g' = { g with lastIssue := g'.lastIssue, ctx := { g.ctx with
      pc := g.ctx.pc + .ofNat 64 (8 * len), v := g'.ctx.v, phase := 0
      wins := winsAfter g.ctx io.vw io.uw len
        ++ [{ win with id := s.nextId, pc := g.ctx.pc, left := la, vdst := io.vw.eraseDups, udst := io.uw
                       srcs := io.vr.map fun r => (List.range g.w).map fun t => readV g.ctx r t
                       usrcs := io.ur.map (readS g.ctx), pids := pids
                       frees := win.frees ++ (lrTakes g.ctx io).filter io.vw.contains }] } }

/-- A long-latency word of group `h` issued: its window is open, all else is as it was. -/
def Begun (s : State) (h : Nat) (g : Group) (io : Io) (len cyc la : Nat) (win : Win) (t : State) : Prop :=
  (∃ g', groupOf t h = some g' ∧ Opened s g io len la win g' ∧ Accounted s g cyc t g') ∧ Elsewhere s h (s.nextId + 1) t

/-- A group whose windows have ended (05 R117). -/
def ended (g : Group) : Group := { g with ctx := endWins g.ctx }

/-- A control word of group `h` has been performed: the group goes on from the context `x`, its last-read registers freed,
and all else is as it was. -/
def Moved (s : State) (h : Nat) (g : Group) (io : Io) (cyc : Nat) (x : Ctx) (t : State) : Prop :=
  (∃ g', groupOf t h = some g'
    ∧ g' = { g with lastIssue := g'.lastIssue, ctx := { x with v := g'.ctx.v, phase := 0 } }
    ∧ (∀ n th, readV g'.ctx n th = if n ∈ lrTakes g.ctx io then 0 else readV x n th)
    ∧ Accounted s g cyc t g')
  ∧ Elsewhere s h s.nextId t

end Sys2Proof.Machine
end

