-- ==== Sys2Proof/Certificates/Slice0/Obligations.lean ====
section
/-! DEFINITION. What is claimed of the model: its encoding, its step, each instruction's effect and frame, the taking of
faults, memory, and each event of the device. -/

namespace Sys2Proof.Claims

open Sys2Proof.Machine

/-! ### Terms of the claims -/

/-- A word of the current group completes: it answers a next state in which the group's registers, masks and flags are as
the result says, its program counter stands `len` words on, and nothing else has changed but the accounting of issue. -/
def completes (i : Instr) (s : State) (h : Nat) (g : Group) (io : Io) (len cyc : Nat) (r : Res) : Prop :=
  ∃ t, exec i s = .next t ∧ Retired s h g io len cyc r t

/-- A long-latency word of the current group issues: its window is open, with what it holds. -/
def begins (i : Instr) (s : State) (h : Nat) (g : Group) (io : Io) (len cyc la : Nat) (win : Win) : Prop :=
  ∃ t, exec i s = .next t ∧ Begun s h g io len cyc la win t

/-- The lane cycles of a word (02 R28). -/
def cyclesOf (uni : Bool) (w : Nat) (eff : Word) : Nat := if uni then 1 else laneCycles w eff

/-- One result of a type for each thread, from the bits of its sources a, b and c (06 R123). -/
def aluRes (f : FOps) (x : Ctx) (w : Nat) (eff : Word) (comp : Nat → Nat → Nat → Nat × Nat) : Res :=
  perThread f.u w eff fun t =>
    let y := comp (srcA x w f f.ty t) (srcB x w f f.ty t) (srcC x f f.ty t)
    { wr := wrDst f.u f.d.toNat f.ty.regs t (extendTo f.ty f.u y.1), flags := y.2 }

/-- The integer words and their exact results (06 R129). -/
def intTable (f : FOps) : List (Instr × Op × (Int → Int → Int → Int)) :=
  [(.iadd f, .iadd, fun a b _ => a + b), (.isub f, .isub, fun a b _ => a - b), (.imul f, .imul, fun a b _ => a * b),
   (.imulh f, .imulh, fun a b _ => Int.fdiv (a * b) (2 ^ f.ty.width)), (.imad f, .imad, fun a b c => a * b + c),
   (.imin f, .imin, fun a b _ => min a b), (.imax f, .imax, fun a b _ => max a b),
   (.iabs f, .iabs, fun a _ _ => (a.natAbs : Int)), (.ineg f, .ineg, fun a _ _ => -a)]

/-- The logic, shift and permutation words and their results' bits (06 R133, R135); `n` is the type's width. -/
def bitTable (f : FOps) (n : Nat) : List (Instr × Op × (Nat → Nat → Nat → Nat)) :=
  [(.and_ f, .and_, fun a b _ => a &&& b), (.or_ f, .or_, fun a b _ => a ||| b), (.xor_ f, .xor_, fun a b _ => a ^^^ b),
   (.not_ f, .not_, fun a _ _ => 2 ^ n - 1 - a), (.andn f, .andn, fun a b _ => a &&& (2 ^ n - 1 - b)),
   (.shl f, .shl, fun a b _ => a * 2 ^ (b % n)), (.shr f, .shr, fun a b _ => a / 2 ^ (b % n)),
   (.sar f, .sar, fun a b _ => wrapInt n (Int.fdiv (sx a n) (2 ^ (b % n)))), (.rol f, .rol, fun a b _ => rotl n a b),
   (.popc f, .popc, fun a _ _ => popCount n a), (.clz f, .clz, fun a _ _ => n - bitLen a),
   (.brev f, .brev, fun a _ _ => revBits n a), (.perm f, .perm, perm)]

/-- A floating word's result on the elements of its type, rounded by rm and saturated under sat (04 R63, R68). -/
def onFloats (f : FOps) (comp : Fmt → FV → FV → FV → Nat × Nat) : Nat → Nat → Nat → Nat × Nat :=
  onElems f.ty fun m a b c => satF m f.sat (comp m (unpackFloat m a) (unpackFloat m b) (unpackFloat m c))

/-- The floating words of one rounding and the words on a float's bits (06 R136, R137, R142, R144). -/
def floatTable (f : FOps) : List (Instr × Op × (Nat → Nat → Nat → Nat × Nat)) :=
  [(.fadd f, .fadd, onFloats f fun m a b _ => addV m f.rm a b), (.fsub f, .fsub, onFloats f fun m a b _ => addV m f.rm a b.negate),
   (.fmul f, .fmul, onFloats f fun m a b _ => mulV m f.rm a b), (.ffma f, .ffma, onFloats f fun m a b c => fmaV m f.rm a b c),
   (.dadd f, .dadd, onFloats f fun m a b _ => addV m f.rm a b), (.dsub f, .dsub, onFloats f fun m a b _ => addV m f.rm a b.negate),
   (.dmul f, .dmul, onFloats f fun m a b _ => mulV m f.rm a b), (.dfma f, .dfma, onFloats f fun m a b c => fmaV m f.rm a b c),
   (.fmin f, .fmin, onElems f.ty fun m a b _ => minmaxV m false a b), (.fmax f, .fmax, onElems f.ty fun m a b _ => minmaxV m true a b),
   (.dmin f, .dmin, onElems f.ty fun m a b _ => minmaxV m false a b), (.dmax f, .dmax, onElems f.ty fun m a b _ => minmaxV m true a b),
   (.fabs f, .fabs, onElems f.ty fun m a _ _ => (a % 2 ^ (m.width - 1), 0)),
   (.fneg f, .fneg, onElems f.ty fun m a _ _ => (a ^^^ 2 ^ (m.width - 1), 0)),
   (.frnd f, .frnd, onElems f.ty fun m a _ _ => frnd m f.rm a)]

/-- The long-latency words of the plain kind (04 R72, 06 R140 to R142). -/
def longTable (f : FOps) : List (Instr × Op × (Nat → Nat → Nat → Nat × Nat)) :=
  let fp (comp : Fmt → Nat → Nat × Nat) : Nat → Nat → Nat → Nat × Nat := fun a _ _ => satF (fmtOf f.ty) f.sat (comp (fmtOf f.ty) a)
  [(.idiv f, .idiv, fun a b _ => ((divRem f.ty f.sat a b).1, (divRem f.ty f.sat a b).2.2)),
   (.irem f, .irem, fun a b _ => ((divRem f.ty f.sat a b).2.1, (divRem f.ty f.sat a b).2.2)),
   (.frcp f, .frcp, fp fun m a => rcpV m .rn (unpackFloat m a)), (.frsq f, .frsq, fp fun m a => rsqV m .rn (unpackFloat m a)),
   (.fsqrt f, .fsqrt, fp fun m a => sqrtV m .rn (unpackFloat m a)), (.fex2 f, .fex2, fp fun _ a => exp2F a),
   (.flg2 f, .flg2, fp fun _ a => log2F a), (.ftrig f, .ftrig, fp fun _ a => trigF (f.mod = 1) a),
   (.drcp f, .drcp, fp fun m a => rcpV m .rn (unpackFloat m a)), (.dsqrt f, .dsqrt, fp fun m a => sqrtV m .rn (unpackFloat m a))]

/-- What is claimed of a word of the current group with its result `r`: nothing holding it back, it completes. `uni` says
that it costs one lane cycle. -/
def wordClaim (s : State) (h : Nat) (g : Group) (f : FOps) (i : Instr) (io : Io) (len : Nat) (uni : Bool) (r : Res) : Prop :=
  let eff := effSet g.ctx g.w f.k f.kn
  MayRetire s h g io eff r.wr → completes i s h g io len (cyclesOf uni g.w eff) r

/-- What is claimed of a long-latency word of the current group with its result `r`. -/
def lateClaim (s : State) (h : Nat) (g : Group) (f : FOps) (i : Instr) (io : Io) (r : Res) : Prop :=
  let eff := effSet g.ctx g.w f.k f.kn
  blocked g.ctx (io.under eff) = false →
  allocCheck s h g (allocNeed g.ctx io (vRegs r.wr)).1 (allocNeed g.ctx io (vRegs r.wr)).2 ≠ .trap →
  begins i s h g { io with vw := vRegs r.wr, uw := uRegs r.wr } 1 (cyclesOf f.u g.w eff) f.la.toNat
    { id := 0, pc := 0, left := 0, vals := r.wr, flags := r.flags, done := true }

/-- A word of one result for each thread of E from its sources (06 R123): it completes with it. -/
def aluClaim (s : State) (h : Nat) (g : Group) (f : FOps) (i : Instr) (op : Op) (comp : Nat → Nat → Nat → Nat × Nat) : Prop :=
  wordClaim s h g f i (ioOf op.entry f f.ty) 1 f.u (aluRes f g.ctx g.w (effSet g.ctx g.w f.k f.kn) comp)

/-- A comparison: the mask it names takes the results of the threads of E and keeps its other bits (06 R124). -/
def compareClaim (s : State) (h : Nat) (g : Group) (f : FOps) (i : Instr) (op : Op) (p : Nat → Bool × Nat) : Prop :=
  let eff := effSet g.ctx g.w f.k f.kn
  let io := ioOf op.entry f f.ty
  let old := maskReg g.ctx f.d.toNat
  let fl := if f.u then (if eff = 0 then 0 else (p 0).2) else orFlags ((threadsOf g.w eff).map fun t => (p t).2)
  let m : Word := if f.u then (if (p 0).1 then eff else 0) else maskOf ((threadsOf g.w eff).filter fun t => (p t).1)
  MayRetire s h g io eff [] →
    completes i s h g io 1 (cyclesOf f.u g.w eff)
      { masks := if eff = 0 then [] else [(f.d.toNat, (old &&& ~~~eff) ||| m)], flags := fl }

end Sys2Proof.Claims

open Sys2Proof Sys2Proof.Machine Sys2Proof.Claims

/-- Each integer word (06 R129) completes: every thread of E gets its exact result wrapped, or clamped under sat. -/
def Obligations.IntegerResults : Prop :=
  ∀ (s : State) (h : Nat) (g : Group) (f : FOps), current s = some (h, g) → ∀ e ∈ intTable f,
    aluClaim s h g f e.1 e.2.1 fun a b c => (fitInt f.ty f.sat (e.2.2 (intVal f.ty a) (intVal f.ty b) (intVal f.ty c)), 0)

/-- Each logic, shift and permutation word (06 R133, R135) completes with its result. -/
def Obligations.LogicResults : Prop :=
  ∀ (s : State) (h : Nat) (g : Group) (f : FOps), current s = some (h, g) → ∀ e ∈ bitTable f f.ty.width,
    aluClaim s h g f e.1 e.2.1 fun a b c => (e.2.2 a b c, 0)

/-- Each floating word of one rounding, and each word on a float's bits (06 R136, R137, R142, R144), completes with its
result and raises its flags. -/
def Obligations.FloatResults : Prop :=
  ∀ (s : State) (h : Nat) (g : Group) (f : FOps), current s = some (h, g) → ∀ e ∈ floatTable f,
    aluClaim s h g f e.1 e.2.1 e.2.2

namespace Sys2Proof.Claims

/-- The moves, conversions and classes (06 R132, R139, R143, R145), the matrix transpose (08 R199) and the
moves between threads (06 R150, R153): the word, the registers it uses, whether it may be uniform, its result for a
thread. -/
def moveTable (f : FOps) (x : Ctx) (w : Nat) (eff : Word) : List (Instr × Io × Bool × (Nat → Res)) :=
  let put (ty : Ty) (n t v : Nat) : Res := { wr := wrDst f.u f.d.toNat n t (extendTo ty f.u v) }
  let raw (n t v : Nat) : Res := { wr := wrDst f.u f.d.toNat n t v }
  [(.mov f, ioOf (if f.x0 then { Op.mov.entry with a := .none } else Op.mov.entry) f f.ty, f.u,
      fun t => raw f.ty.regs t (if f.x0 then srcB x w f f.ty t else srcA x w f f.ty t)),
   (.sel f, ioOf Op.sel.entry f f.ty, f.u, fun t =>
      raw f.ty.regs t (if f.c = 0 ∨ (maskReg x f.c.toNat).getLsbD (if f.u then 0 else t) then srcA x w f f.ty t else srcB x w f f.ty t)),
   (.lea f, ioOf Op.lea.entry f .b64, f.u, fun t =>
      raw 2 t (wrapInt 64 ((srcA x w f .b64 t : Int) + sx (srcB x w f .b32 t) 32 * 2 ^ f.mod.toNat))),
   (.fclass f, ioOf Op.fclass.entry f f.ty, f.u, fun t => raw 1 t (2 ^ fclass (fmtOf f.ty) (srcA x w f f.ty t))),
   (.cvt f, (ioSrc f.u f.a.toNat (cvtSrc f).regs f.lrA).join (ioDst f.u f.d.toNat f.ty.regs), f.u, fun t =>
      let y := cvt (cvtSrc f) f.ty f.rm f.sat (f.mod.getLsbD 0) (srcA x w f (cvtSrc f) t) (oldDst x f t)
      { put f.ty f.ty.regs t y.1 with flags := y.2 }),
   (.fscl f, ioOf Op.fscl.entry f f.ty, f.u, fun t =>
      let y := satF (fmtOf f.ty) f.sat (fscl (fmtOf f.ty) f.rm (srcA x w f f.ty t) (sx (srcB x w f .b32 t) 32))
      { raw f.ty.regs t y.1 with flags := y.2 }),
   (.mtrn f, (ioSrc false f.a.toNat (mtrnRegs f.ty) f.lrA).join (ioDst false f.d.toNat (mtrnRegs f.ty)), false, fun t =>
      { wr := wrRun f.d.toNat (mtrnRegs f.ty) t (transposed x f t) }),
   (.shfl f, (ioSrc false f.a.toNat f.ty.regs f.lrA).join
        ((if f.x0 then {} else ioSrc false f.b.toNat 1 f.lrB).join (ioDst false f.d.toNat f.ty.regs)), false, fun t =>
      let b := if f.x0 then wrapInt 32 f.imm else (readV x f.b.toNat t).toNat
      { wr := wrRun f.d.toNat f.ty.regs t (readTy x f.ty f.a.toNat (shflSrc w f.mod.toNat t b)) }),
   (.match_ f, (ioSrc false f.a.toNat f.ty.regs f.lrA).join (ioDst false f.d.toNat 2), false, fun t =>
      { wr := wrRun f.d.toNat 2 t
          (maskOf ((threadsOf w eff).filter fun u => readTy x f.ty f.a.toNat u = readTy x f.ty f.a.toNat t)).toNat })]

/-- The bit-field words (06 R134). -/
def fieldTable (f : FOps) : List (Instr × Op × (Nat → Nat → Nat → Nat)) :=
  [(.bfx f, .bfx, fun a b _ => bfx (f.ty == .i32) a b), (.bfi f, .bfi, bfi)]

/-- What the words between threads that act once for the group write (06 R149, R152, R154, R155): the word, its
registers, whether it is uniform, its result. -/
def groupTable (f : FOps) (x : Ctx) (w : Nat) (eff : Word) : List (Instr × Io × Bool × Res) :=
  let any (r : Res) : Res := if eff = 0 then {} else r
  [(.vote f, (ioSrc false f.a.toNat 1 f.lrA).join { uw := [f.d.toNat] }, false,
      any { wr := [{ reg := f.d.toNat, uni := true, t := 0, val := voteValue x w eff f.mod.toNat f.a.toNat }] }),
   (.bcast f, bcastIo f, false,
      if f.mod.toNat = 0 then
        perThread false w eff fun t => { wr := wrRun f.d.toNat f.ty.regs t ((readS x f.a.toNat).toNat % 2 ^ f.ty.width) }
      else if f.mod.toNat = 1 then
        let b := if f.x0 then wrapInt 64 f.imm else (readS x f.b.toNat).toNat
        perThread false w eff fun t => { wr := wrRun f.d.toNat f.ty.regs t (readTy x f.ty f.a.toNat (b % w)) }
      else any { wr := wrDst true f.d.toNat 1 0 (extendTo f.ty true (readTy x f.ty f.a.toNat (lowest eff))) }),
   (.kop f, {}, true, any { masks := [(f.d.toNat, kopValue f.mod.toNat (maskReg x f.a.toNat) (maskReg x f.b.toNat))] }),
   (.kmov f, kmovIo f, f.u,
      if f.mod.toNat = 0 then any { wr := wrDst true f.d.toNat 1 0 (maskReg x f.a.toNat).toNat }
      else if f.mod.toNat = 1 then any { masks := [(f.d.toNat, readS x f.a.toNat)] }
      else if f.mod.toNat = 2 then
        perThread false w eff fun t => { wr := wrRun f.d.toNat 1 t (if (maskReg x f.a.toNat).getLsbD t then 1 else 0) }
      else any { masks := [(f.d.toNat, (maskReg x f.d.toNat &&& ~~~eff)
        ||| maskOf ((threadsOf w eff).filter fun t => readV x f.a.toNat t != 0))] })]

end Sys2Proof.Claims

/-- The moves, conversions, classes and lane moves complete with their results (06 R132, R139, R143, R145, R150, R153, 08 R199);
`TXQ`, which ends every window (05 R117), completes with each thread's transaction status (07 R182). -/
def Obligations.MoveResults : Prop :=
  ∀ (s : State) (h : Nat) (g : Group) (f : FOps), current s = some (h, g) →
    let eff := effSet g.ctx g.w f.k f.kn
    (∀ e ∈ moveTable f g.ctx g.w eff, wordClaim s h g f e.1 e.2.1 1 e.2.2.1 (perThread e.2.2.1 g.w eff e.2.2.2))
    ∧ (∀ w : Word, wordClaim s h g f (.movi f w) (ioOf Op.movi.entry f f.ty) 2 f.u
        (perThread f.u g.w eff fun t => { wr := wrDst f.u f.d.toNat f.ty.regs t (w.toNat % 2 ^ f.ty.width) }))
    ∧ wordClaim s h (ended g) f (.txq f) (ioDst false f.d.toNat 1) 1 false
        (perThread false g.w eff fun t => { wr := wrRun f.d.toNat 1 t (match find g.ctx.tx t with
          | some y => txStatus y.doom y.user true
          | none => 0) })

/-- `IADDC` completes with the sum and its carry-out (06 R130); `BFX` and `BFI` complete where no thread of E gives a length
above 32, and raise illegal-instruction where one does (06 R134). -/
def Obligations.CarryAndFieldResults : Prop :=
  ∀ (s : State) (h : Nat) (g : Group) (f : FOps), current s = some (h, g) →
    let x := g.ctx
    let eff := effSet x g.w f.k f.kn
    let sum (t : Nat) : Nat := srcA x g.w f f.ty t + srcB x g.w f f.ty t + carryIn x f.u eff f.c.toNat t
    let out (t : Nat) : Bool := decide (2 ^ f.ty.width ≤ sum t)
    let m : Word := if f.u then (if out 0 then eff else 0) else maskOf ((threadsOf g.w eff).filter out)
    wordClaim s h g f (.iaddc f) (ioOf Op.iaddc.entry f f.ty) 1 f.u
      { perThread f.u g.w eff (fun t => { wr := wrDst f.u f.d.toNat f.ty.regs t (extendTo f.ty f.u (sum t)) }) with
        masks := if eff = 0 then [] else [(f.c.toNat, (maskReg x f.c.toNat &&& ~~~eff) ||| m)] }
    ∧ (∀ e ∈ fieldTable f,
        (badField x g.w f eff = false → wordClaim s h g f e.1 (ioOf e.2.1.entry f f.ty) 1 f.u
          (perThread f.u g.w eff fun t => { wr := wrDst f.u f.d.toNat 1 t (extendTo f.ty f.u
            (e.2.2 (srcA x g.w f f.ty t) (srcB x g.w f f.ty t) (srcC x f f.ty t))) }))
        ∧ (badField x g.w f eff = true → blocked x ((ioOf e.2.1.entry f f.ty).under eff) = false →
            exec e.1 s = .next (raise (setGroup s h g) h (badRec x eff { code := 0x01 }))))

/-- `ICMP`, `FCMP` and `DCMP` complete: the mask takes the comparison's results for the threads of E, keeps its other bits,
and the flags of 06 R138 are raised (06 R124, R131, R138, R142). -/
def Obligations.ComparisonResults : Prop :=
  ∀ (s : State) (h : Nat) (g : Group) (f : FOps), current s = some (h, g) →
    let a := srcA g.ctx g.w f f.ty
    let b := srcB g.ctx g.w f f.ty
    let fp (t : Nat) : Bool × Nat := fpCond f.mod.toNat (unpackFloat (fmtOf f.ty) (a t)) (unpackFloat (fmtOf f.ty) (b t))
    compareClaim s h g f (.icmp f) .icmp (fun t => (intCond f.mod.toNat (intVal f.ty (a t)) (intVal f.ty (b t)), 0))
    ∧ compareClaim s h g f (.fcmp f) .fcmp fp ∧ compareClaim s h g f (.dcmp f) .dcmp fp

/-- `VOTE`, `BCAST`, `KOP` and `KMOV` complete with their results (06 R149, R152, R154, R155). -/
def Obligations.CrossThreadResults : Prop :=
  ∀ (s : State) (h : Nat) (g : Group) (f : FOps), current s = some (h, g) →
    ∀ e ∈ groupTable f g.ctx g.w (effSet g.ctx g.w f.k f.kn), wordClaim s h g f e.1 e.2.1 1 e.2.2.1 e.2.2.2

/-- Each division, remainder, reciprocal, root and elementary function (04 R72, 06 R140 to R142) opens its window with its
result.

`GSCAN` and `GRED` (06 R151), `MMA` and `MMAZ` (08 R196, R197) open their windows with their results; a product whose format slot or
register groups are not accepted raises the format fault. -/
def Obligations.LongResultsOpenWindows : Prop :=
  (∀ (s : State) (h : Nat) (g : Group) (f : FOps), current s = some (h, g) → ∀ e ∈ longTable f,
    lateClaim s h g f e.1 (ioOf e.2.1.entry f f.ty) (aluRes f g.ctx g.w (effSet g.ctx g.w f.k f.kn) e.2.2))
  ∧ (∀ (s : State) (h : Nat) (g : Group) (f : FOps), current s = some (h, g) →
    let x := g.ctx
    let eff := effSet x g.w f.k f.kn
    let uni := f.x.getLsbD 1
    let scan := scanAll f.mod.toNat f.ty f.sat (readTy x f.ty f.a.toNat) (threadsOf g.w eff)
    let v := extendTo f.ty uni scan.2.1
    let efmt := (groupLaunch s g).rc.fmts.getD f.mod.toNat 0 % 16
    lateClaim s h g f (.gscan f) ((ioSrc false f.a.toNat f.ty.regs f.lrA).join (ioDst false f.d.toNat f.ty.regs))
      { wr := (scan.1.map fun (t, pre, post) =>
          wrRun f.d.toNat f.ty.regs t (extendTo f.ty false (if uni then pre else post))).flatten, flags := scan.2.2 }
    ∧ lateClaim s h g f (.gred f) ((ioSrc false f.a.toNat f.ty.regs f.lrA).join (ioDst uni f.d.toNat f.ty.regs))
      (if eff = 0 then {} else
        { wr := if uni then wrDst true f.d.toNat 1 0 v else ((threadsOf g.w eff).map fun t => wrRun f.d.toNat f.ty.regs t v).flatten
          flags := scan.2.2 })
    ∧ ∀ z : Bool,
      let i : Instr := if z then .mmaz f else .mma f
      (∀ r, mmaBody f efmt z x g.w eff = .ok r → lateClaim s h g f i (mmaIo f g.w efmt z) r)
      ∧ (mmaOk f g.w efmt = true → ∃ r, mmaBody f efmt z x g.w eff = .ok r)
      ∧ (mmaOk f g.w efmt = false → blocked x ((mmaIo f g.w efmt z).under eff) = false →
          exec i s = .next (raise s h (badRec x eff { code := 0x0A }))))

/-- `CVTB` completes where its format slot holds an SB format and raises the format fault where it does not (06 R146, R147);
`RDS` completes with the special register's value for each thread once no sink group it must wait for runs (09 R242);
`CLOCKC` completes with the core's cycle count (09 R244). -/
def Obligations.SlotAndSpecialResults : Prop :=
  ∀ (s : State) (h : Nat) (g : Group) (f : FOps), current s = some (h, g) →
    let x := g.ctx
    let eff := effSet x g.w f.k f.kn
    let efmt := bits ((groupLaunch s g).rc.fmts.getD (f.c.toNat % 8) 0) 3 0
    let a (t : Nat) : Nat := (readV x f.a.toNat t).toNat
    ((1 ≤ efmt ∧ efmt ≤ 3) → wordClaim s h g f (.cvtb f) (ioOf Op.cvtb.entry f f.ty) 1 false
      (perThread false g.w eff fun t =>
        if f.mod = 0 then
          let q := cvtbBlock efmt f.rm eff a (t / 16)
          { wr := wrRun f.d.toNat 1 t (elemWord efmt q.1 (t % 16)), flags := q.2 }
        else { wr := wrRun f.d.toNat 1 t (cvtbValue efmt (a t)) }))
    ∧ (¬(1 ≤ efmt ∧ efmt ≤ 3) → blocked x ((ioOf Op.cvtb.entry f f.ty).under eff) = false →
        exec (.cvtb f) s = .next (raise (setGroup s h g) h (badRec x eff { code := 0x0A })))
    ∧ (((f.a.toNat ≠ 6 ∧ f.a.toNat ≠ 7) ∨ sinkRuns x = false) → wordClaim s h g f (.rds f) (ioDst f.u f.d.toNat 1) 1 f.u
        (perThread f.u g.w eff fun t => { wr := wrDst f.u f.d.toNat 1 t (special s g f.a.toNat t).toNat }))
    ∧ wordClaim s h g f (.clockc f) (ioDst true f.d.toNat 1) 1 true
        (if eff = 0 then {} else { wr := wrDst true f.d.toNat 1 0 ((coreOf s g.core).cycles % 2 ^ 64) })

namespace Sys2Proof.Claims

/-- The current group's control word goes on from the context `x`. -/
def moves (i : Instr) (s : State) (h : Nat) (g : Group) (f : FOps) (io : Io) (uni : Bool) (x : Ctx) : Prop :=
  ∃ t, exec i s = .next t ∧ Moved s h (ended g) io (cyclesOf uni g.w (effSet g.ctx g.w f.k f.kn)) x t

/-- The current group's control word raises a fault, the control state being as it was (03 R60). -/
def faults (i : Instr) (s : State) (h : Nat) (g : Group) (f : FOps) (code cause : Nat) : Prop :=
  exec i s = .next (raise (setGroup s h (ended g)) h
    (badRec (ended g).ctx (effSet g.ctx g.w f.k f.kn) { code := code, cause := cause }))

/-- The split entry a divergence pushes: the path that waits, and where the paths meet (03 R55, R59). -/
def waitingPath (x : Ctx) (recon pc mask : Word) : SplitEntry := { rpc := recon, dpc := pc, dmask := mask, depth := x.depth }

/-- The pair instructions with their operations: slot A's operation is the constructor's (05 R113). -/
def pairTable (a : PSlot) (b : PairSlot) : List (Instr × PairOp) :=
  [(.pairNop a b, .nop), (.pairMov a b, .mov), (.pairIaddI32 a b, .iaddI32), (.pairIsubI32 a b, .isubI32),
   (.pairIminI32 a b, .iminI32), (.pairImaxI32 a b, .imaxI32), (.pairIminN32 a b, .iminN32), (.pairImaxN32 a b, .imaxN32),
   (.pairAnd a b, .and32), (.pairOr a b, .or32), (.pairXor a b, .xor32), (.pairAndn a b, .andn32), (.pairShl a b, .shl32),
   (.pairShr a b, .shr32), (.pairSar a b, .sar32), (.pairFaddF32 a b, .faddF32), (.pairFmulF32 a b, .fmulF32),
   (.pairFminF32 a b, .fminF32), (.pairFmaxF32 a b, .fmaxF32), (.pairFaddBf16x2 a b, .faddBf16x2),
   (.pairFmulBf16x2 a b, .fmulBf16x2), (.pairFminBf16x2 a b, .fminBf16x2), (.pairFmaxBf16x2 a b, .fmaxBf16x2),
   (.pairIaddI64 a b, .iaddI64), (.pairIsubI64 a b, .isubI64), (.pairMovImm a b, .movImm), (.pairIaddI32Imm a b, .iaddI32Imm),
   (.pairAndImm a b, .andImm), (.pairOrImm a b, .orImm), (.pairXorImm a b, .xorImm), (.pairShlImm a b, .shlImm),
   (.pairShrImm a b, .shrImm), (.pairSarImm a b, .sarImm), (.pairIaddI64Imm a b, .iaddI64Imm)]

end Sys2Proof.Claims

/-- A pair word whose slots share no bank group and no register they may not share reads both slots, then writes both; its
lane is taken by the threads of either effective set (05 R112 to R116). One whose slots clash takes the illegal-pairing
trap.

What a pair operation computes from its destination's old value and its second source (05 R113). -/
def Obligations.PairResults : Prop :=
  (∀ (s : State) (h : Nat) (g : Group) (a : PSlot) (b : PairSlot), current s = some (h, g) → ∀ e ∈ pairTable a b,
    let o := e.2
    let x := g.ctx
    let A : PairSlot := ⟨o, a⟩
    let ea := effSet x g.w a.k a.kn
    let eb := effSet x g.w b.f.k b.f.kn
    let io := (slotIo A).join (slotIo b)
    let ra := slotRes A x g.w
    let rb := slotRes b x g.w
    let r : Res := { wr := ra.wr ++ rb.wr, flags := ra.flags ||| rb.flags }
    (pairClash A b = true → exec e.1 s = .next (raise s h (badRec x x.active { code := 0x03 })))
    ∧ (pairClash A b = false → blocked x (((slotIo A).under ea).join ((slotIo b).under eb)) = false →
        allocCheck s h g (allocNeed x io (vRegs r.wr)).1 (allocNeed x io (vRegs r.wr)).2 = .ok →
        completes e.1 s h g io 1 (laneCycles g.w (ea ||| eb)) r))
  ∧ (∀ d v : Nat,
    (∀ o ∈ [PairOp.mov, .movImm], pairResult o d v = (v, 0))
    ∧ (∀ o ∈ [PairOp.iaddI32, .iaddI32Imm, .iaddI64, .iaddI64Imm],
        pairResult o d v = (wrapInt (pairTy o).width (sx d (pairTy o).width + sx v (pairTy o).width), 0))
    ∧ (∀ o ∈ [PairOp.isubI32, .isubI64],
        pairResult o d v = (wrapInt (pairTy o).width (sx d (pairTy o).width - sx v (pairTy o).width), 0))
    ∧ pairResult .iminI32 d v = (wrapInt 32 (min (sx d 32) (sx v 32)), 0)
    ∧ pairResult .imaxI32 d v = (wrapInt 32 (max (sx d 32) (sx v 32)), 0)
    ∧ (d < 2 ^ 32 → v < 2 ^ 32 → pairResult .iminN32 d v = (min d v, 0) ∧ pairResult .imaxN32 d v = (max d v, 0))
    ∧ (∀ o ∈ [PairOp.and32, .andImm], pairResult o d v = (d &&& v, 0))
    ∧ (∀ o ∈ [PairOp.or32, .orImm], pairResult o d v = (d ||| v, 0))
    ∧ (∀ o ∈ [PairOp.xor32, .xorImm], pairResult o d v = (d ^^^ v, 0))
    ∧ pairResult .andn32 d v = (d &&& (2 ^ 32 - 1 - v), 0)
    ∧ (∀ o ∈ [PairOp.shl32, .shlImm], pairResult o d v = (d * 2 ^ (v % 32), 0))
    ∧ (∀ o ∈ [PairOp.shr32, .shrImm], pairResult o d v = (d / 2 ^ (v % 32), 0))
    ∧ (∀ o ∈ [PairOp.sar32, .sarImm], pairResult o d v = (wrapInt 32 (Int.fdiv (sx d 32) (2 ^ (v % 32))), 0))
    ∧ pairResult .faddF32 d v = addV f32 .rn (unpackFloat f32 d) (unpackFloat f32 v)
    ∧ pairResult .fmulF32 d v = mulV f32 .rn (unpackFloat f32 d) (unpackFloat f32 v)
    ∧ pairResult .fminF32 d v = minmaxV f32 false d v ∧ pairResult .fmaxF32 d v = minmaxV f32 true d v
    ∧ ∀ e ∈ ([(.faddBf16x2, fun a b => addV bf16 .rn (unpackFloat bf16 a) (unpackFloat bf16 b)),
              (.fmulBf16x2, fun a b => mulV bf16 .rn (unpackFloat bf16 a) (unpackFloat bf16 b)),
              (.fminBf16x2, minmaxV bf16 false), (.fmaxBf16x2, minmaxV bf16 true)] : List (PairOp × (Nat → Nat → Nat × Nat))),
        let lo := e.2 (d % 2 ^ 16) (v % 2 ^ 16)
        let hi := e.2 (d / 2 ^ 16 % 2 ^ 16) (v / 2 ^ 16 % 2 ^ 16)
        pairResult e.1 d v = (lo.1 + 2 ^ 16 * hi.1, lo.2 ||| hi.2))

/-- `NOP` only advances the program counter (06 R126); `YIELD` with a count of 0 is `NOP`, and with another the group then
waits for that many opportunities of its cluster (06 R127); `BPT` and `TRAP` raise their traps where E is not empty, and
do nothing where it is (06 R128). -/
def Obligations.NopYieldAndTraps : Prop :=
  ∀ (s : State) (h : Nat) (g : Group) (f : FOps), current s = some (h, g) →
    let eff := effSet g.ctx g.w f.k f.kn
    completes (.nop f) s h g {} 1 1 {}
    ∧ (f.imm = 0 → completes (.yield_ f) s h (ended g) {} 1 1 {})
    ∧ (f.imm ≠ 0 → ∃ t, Retired s h (ended g) {} 1 1 {} t ∧ exec (.yield_ f) s = .next (modGroup t h fun q =>
        { q with run := .parked (.yielding ((coreOf t q.core).opp.getD (q.slot0 / 256) 0) f.imm12.toNat) }))
    ∧ ∀ e ∈ [(Instr.bpt f, 0x08), (.trap f, 0x09)],
        (eff = 0 → completes e.1 s h (ended g) {} 1 (laneCycles g.w eff) {})
        ∧ (eff ≠ 0 → exec e.1 s = .next (raise (setGroup s h (ended g)) h
            (badRec (ended g).ctx eff { code := e.2, tcode := f.imm12.toNat })))

/-- `BR` (03 R59): all active threads go to the target, or all to the next word, or the group splits, the larger path waiting
in a new entry; a bad address is a fetch fault, and a 65th entry a control-stack fault. -/
def Obligations.BranchSplits : Prop :=
  ∀ (s : State) (h : Nat) (g : Group) (f : FOps) (w : Word), current s = some (h, g) →
    let x := (ended g).ctx
    let T := effSet g.ctx g.w f.k f.kn
    let N := x.active &&& ~~~T
    let target := x.pc + .ofInt 64 (8 * sx w.toNat 32)
    let recon := x.pc + .ofInt 64 (8 * sx (w.toNat / 2 ^ 32) 32)
    let next := x.pc + 16
    ((goodPc target = false ∨ goodPc recon = false) → faults (.br f w) s h g f 0x04 1)
    ∧ (goodPc target = true → goodPc recon = true →
        (N = 0 → moves (.br f w) s h g f {} false { x with pc := target })
        ∧ (N ≠ 0 → goodPc next = false → faults (.br f w) s h g f 0x04 1)
        ∧ (N ≠ 0 → goodPc next = true →
            (T = 0 → moves (.br f w) s h g f {} false { x with pc := next })
            ∧ (T ≠ 0 → 64 ≤ x.stack.length → faults (.br f w) s h g f 0x05 0)
            ∧ (T ≠ 0 → x.stack.length < 64 → popCount g.w T.toNat ≤ popCount g.w N.toNat →
                moves (.br f w) s h g f {} false
                  { x with active := T, pc := target, stack := waitingPath x recon next N :: x.stack })
            ∧ (T ≠ 0 → x.stack.length < 64 → popCount g.w N.toNat < popCount g.w T.toNat →
                moves (.br f w) s h g f {} false
                  { x with active := N, pc := next, stack := waitingPath x recon target T :: x.stack })))

/-- `JOIN` (03 R59): where the top entry does not meet here the group goes on at the target; where it does, its waiting path
runs next, or, when none waits, all its threads go on together from its meeting point. -/
def Obligations.JoinMeets : Prop :=
  ∀ (s : State) (h : Nat) (g : Group) (f : FOps), current s = some (h, g) →
    let x := (ended g).ctx
    let j := x.pc + .ofInt 64 (8 * f.imm)
    (goodPc j = false → faults (.join f) s h g f 0x04 1)
    ∧ (goodPc j = true →
        (x.stack = [] → moves (.join f) s h g f {} false { x with pc := j })
        ∧ ∀ e es, x.stack = e :: es →
          ((e.rpc ≠ j ∨ e.depth ≠ x.depth) → moves (.join f) s h g f {} false { x with pc := j })
          ∧ (e.rpc = j → e.depth = x.depth → e.dmask ≠ 0 → moves (.join f) s h g f {} false
              { x with active := e.dmask, pc := e.dpc, stack := { e with dmask := 0, jmask := e.jmask ||| x.active } :: es })
          ∧ (e.rpc = j → e.depth = x.depth → e.dmask = 0 → e.jmask ||| x.active ≠ 0 → e.rmask = 0 →
              (∀ e' ∈ es.head?, ¬(e'.rpc = j ∧ e'.depth = x.depth)) →
              moves (.join f) s h g f {} false { x with active := e.jmask ||| x.active, pc := j, stack := es }))

/-- `CALL` (03 R59) writes the return address at the top of every active thread's pocket window and goes one level deeper;
`RET` goes back to the address every active thread's window names, or, inside a split of its own level, lets the
waiting path run, or those that met, or returns with the others where every thread of the split has; `LOOPU` counts a uniform register down. -/
def Obligations.CallReturnAndLoop : Prop :=
  ∀ (s : State) (h : Nat) (g : Group) (f : FOps) (w : Word), current s = some (h, g) →
    let x := (ended g).ctx
    let win := (groupLaunch (setGroup s h (ended g)) (ended g)).rc.pocket
    let target := x.pc + .ofInt 64 (8 * sx w.toNat 32)
    let next := x.pc + 16
    let a := win - 8 * (x.depth + 1)
    let ret (t : Nat) : Nat := leNat (pocketRead x t (win - 8 * x.depth) 8)
    let r : Word := .ofNat 64 (ret (lowest x.active))
    let n := readS x f.d.toNat - 1
    (goodPc target = true → 8 * (x.depth + 1) ≤ win → moves (.call f w) s h g f {} false
        { each (threadsOf g.w x.active) x (fun y t => pocketWrite y t a (leBytes 8 next.toNat)) with depth := x.depth + 1, pc := target })
    ∧ (goodPc target = true → win < 8 * (x.depth + 1) → faults (.call f w) s h g f 0x05 0)
    ∧ (goodPc target = false → faults (.call f w) s h g f 0x04 1)
    ∧ (x.depth = 0 → faults (.ret f) s h g f 0x05 0)
    ∧ (x.depth ≠ 0 → (∀ e ∈ x.stack.head?, e.depth ≠ x.depth) →
        ((∀ t ∈ threadsOf g.w x.active, ret t = r.toNat) → goodPc r = true →
          moves (.ret f) s h g f {} false { x with pc := r, depth := x.depth - 1 })
        ∧ ((∃ t ∈ threadsOf g.w x.active, ret t ≠ r.toNat) → faults (.ret f) s h g f 0x05 0))
    ∧ (x.depth ≠ 0 → ∀ e es, x.stack = e :: es → e.depth = x.depth → e.dmask ≠ 0 → moves (.ret f) s h g f {} false
        { x with active := e.dmask, pc := e.dpc, stack := { e with dmask := 0, rmask := e.rmask ||| x.active } :: es })
    ∧ (x.depth ≠ 0 → ∀ e es, x.stack = e :: es → e.depth = x.depth → e.dmask = 0 → e.rmask ||| x.active ≠ 0 →
        let m := e.rmask ||| x.active
        let r : Word := .ofNat 64 (ret (lowest m))
        (e.jmask ≠ 0 → moves (.ret f) s h g f {} false
          { x with active := e.jmask, pc := e.rpc, stack := { e with jmask := 0, rmask := m } :: es })
        ∧ (e.jmask = 0 → (∀ e' ∈ es.head?, e'.depth ≠ x.depth) → (∀ t ∈ threadsOf g.w m, ret t = r.toNat) → goodPc r = true →
          moves (.ret f) s h g f {} false { x with active := m, pc := r, depth := x.depth - 1, stack := es }))
    ∧ (blocked x (Io.under { ur := [f.d.toNat], uw := [f.d.toNat] } (effSet g.ctx g.w f.k f.kn)) = false →
        goodPc target = true →
        (n ≠ 0 → moves (.loopu f w) s h g f { ur := [f.d.toNat], uw := [f.d.toNat] } true
          { x with s := setPad 0 x.s f.d.toNat n, pc := target })
        ∧ (n = 0 → goodPc next = true → moves (.loopu f w) s h g f { ur := [f.d.toNat], uw := [f.d.toNat] } true
          { x with s := setPad 0 x.s f.d.toNat n, pc := next }))

/-- `BTAB` (03 R59): the threads of the lowest index go first, an entry waiting for each other index that occurs; a target
that is taken and is no address is a fetch fault, and then an index past the table a branch-index fault. -/
def Obligations.BranchTable : Prop :=
  ∀ (s : State) (h : Nat) (g : Group) (f : FOps) (ws : List Word), current s = some (h, g) →
    let x := (ended g).ctx
    let io := ioSrc f.u f.a.toNat 1 f.lrA
    let recon := x.pc + .ofInt 64 (8 * f.imm)
    let ts := threadsOf g.w x.active
    let idx (t : Nat) : Nat :=
      if f.u then (readS x f.a.toNat).toNat % 2 ^ 32 else readNbr x g.w f.a.toNat 1 t f.na f.edge
    let tgt (i : Nat) : Word := x.pc + .ofInt 64 (8 * tableOffset ws i)
    let mask (i : Nat) : Word := maskOf (ts.filter fun t => idx t = i)
    let picked := (List.range (f.d.toNat + 1)).filter fun k => (ts.map idx).contains k
    blocked x (io.under (effSet g.ctx g.w f.k f.kn)) = false →
      ((goodPc recon = false ∨ ∃ k ∈ picked, goodPc (tgt k) = false) → faults (.btab f ws) s h g f 0x04 1)
      ∧ (goodPc recon = true → (∀ k ∈ picked, goodPc (tgt k) = true) →
        ((∃ t ∈ ts, f.d.toNat + 1 ≤ idx t) → faults (.btab f ws) s h g f 0x06 0)
        ∧ ∀ i rest, (∀ t ∈ ts, idx t < f.d.toNat + 1) →
          picked = i :: rest → x.stack.length + rest.length ≤ 64 →
          moves (.btab f ws) s h g f io f.u { x with
            active := mask i, pc := tgt i, stack := rest.map (fun k => waitingPath x recon (tgt k) (mask k)) ++ x.stack })

/-- `EXIT` (03 R59): where E is empty nothing happens but the next word; where some active threads stay, those of E are live
and active no more; where none stays and the top entry holds a waiting path, that path runs next; where none stays and no
entry is left, the group has retired, holding no register. -/
def Obligations.ExitEndsThreads : Prop :=
  ∀ (s : State) (h : Nat) (g : Group) (f : FOps), current s = some (h, g) →
    let x := g.ctx
    let eff := effSet x g.w f.k f.kn
    (x.active &&& ~~~eff ≠ 0 → ∃ t g', exec (.exit f) s = .next t ∧ groupOf t h = some g'
        ∧ g'.ctx.pc = x.pc + 8 ∧ g'.ctx.active = x.active &&& ~~~eff ∧ g'.ctx.live = x.live &&& ~~~eff
        ∧ g'.ctx.stack = x.stack ∧ g'.run = g.run ∧ (eff ≠ 0 → g'.ctx.tdep = [] ∧ g'.ctx.region.getLsbD 0 = false))
    ∧ (x.active &&& ~~~eff = 0 → ∀ e es, x.stack = e :: es → e.dmask ≠ 0 → ∃ t g', exec (.exit f) s = .next t
        ∧ groupOf t h = some g' ∧ g'.ctx.pc = e.dpc ∧ g'.ctx.active = e.dmask ∧ g'.ctx.depth = e.depth
        ∧ g'.ctx.live = x.live &&& ~~~eff ∧ g'.ctx.stack = { e with dmask := 0 } :: es ∧ g'.run = g.run)
    ∧ (x.active &&& ~~~eff = 0 → x.stack = [] → ∃ t g', exec (.exit f) s = .next t ∧ groupOf t h = some g'
        ∧ g'.run = .retired ∧ g'.ctx.live = 0 ∧ g'.ctx.active = 0 ∧ g'.ctx.v = [] ∧ g'.shadow = none)


/-! ### Encoding -/

/-- Every legal instruction is decoded from its own words, whatever words follow (05 R91 to R114, 22 R395): no bit of an
encoding is dropped. A device event is no legal word. -/
def Obligations.DecodeEncode : Prop :=
  ∀ i : Instr, i.wf = true →
    (i.flParts = none → ∀ rest, decode (encode i ++ rest) = .ok i)
    ∧ (i.flParts ≠ none → ∃ w : W32, encode i = [w.setWidth 64] ∧ decodeFilter w = .ok i)

/-- Every word sequence that decodes is the words of what it decodes to: two sequences that differ in a bit of the instruction
decode to different instructions, and reserved bits are refused (05 R91, R95, R96, R112).

What decodes is legal, and what has no legal reading is refused (05 R96, R108, R112 to R114, 22 R395). -/
def Obligations.EncodeDecode : Prop :=
  ((∀ (w : Word) (rest : List Word) (i : Instr), decode (w :: rest) = .ok i →
    encode i = (w :: rest).take (instrLen w) ∧ instrLen w ≤ rest.length + 1)
  ∧ ∀ (w : W32) (i : Instr), decodeFilter w = .ok i → encode i = [w.setWidth 64])
  ∧ ((∀ ws i, decode ws = .ok i → i.wf = true) ∧ (∀ w i, decodeFilter w = .ok i → i.wf = true))


/-! ### Steps -/

/-- A step that issues the group its cluster's opportunity goes to runs the instruction its words decode to (02 R51, 05 R91,
R92): its words are fetched at the program counter, as many as the first asks for; where they decode to `i` the step is `exec
i`; where they decode to nothing, it is the illegal-instruction event's; where they cannot be fetched it is a fetch fault, or
the poison fault. A word that would end a window whose fault is known does not execute: the windows end and the fault goes
first (05 R117, R120). What the step adds to `exec` is that groups are noted as waiting, or no longer, and nothing else. Which
group issues is the tape's choice (log entry 1). -/
def Obligations.StepRunsDecoded : Prop :=
  (∀ (s : State) (h : Nat) (rest : List Choice) (g : Group), s.tape = .issue h :: rest → grantDue s = none →
    groupOf s h = some g → chooseIn { s with tape := rest } g.core (g.slot0 / 256) = some h →
    let s0 : State := { unpark { s with tape := rest } h with cur := h }
    ∃ g0, groupOf s0 h = some g0 ∧ g0.ctx = g.ctx
      ∧ (∀ ws s1, fetchInstr s0 g0 = (.ok ws, s1) →
          (endsFault g0.ctx (ws.headD 0) = true → step s = .next (setGroup s1 h { g0 with ctx := endWins g0.ctx }))
          ∧ (endsFault g0.ctx (ws.headD 0) = false →
            (∀ i, decode ws = .ok i → step s = afterWord s1 h g0 (exec i s1))
            ∧ (∀ e, decode ws = .error e → step s = afterWord s1 h g0 (exec (.illegalInstruction (ws.headD 0)) s1))))
      ∧ ∀ code cause s1, fetchInstr s0 g0 = (.error (code, cause), s1) →
          step s = .next (raise s1 h (badRec g0.ctx g0.ctx.active { code := code, cause := cause })))
  ∧ ∀ (s t : State) (h : Nat) (g : Group), ∃ t', afterWord s h g (.next t) = .next t' ∧ t' = { t with groups := t'.groups }
      ∧ ∀ j p, groupOf t j = some p → ∃ b, groupOf t' j = some { p with stall := b }

/-- What is fetched (05 R91, R92): a word is the eight bytes at its physical address, the lowest first, where the page
translates, may be executed, its key slot serves the group, its channel belongs to the partition and its line is neither
poisoned nor on a part that has failed; an instruction is its first word and as many words behind it as that one asks for.
That a fetch reads at the home is the model's choice (log entry 39). -/
def Obligations.FetchReadsBytes : Prop :=
  ∀ (s s1 : State) (g : Group) (va : Nat) (l : Leaf), translate s g.core (vfOf s g) va = (.ok l, s1) →
    let pa := leafPa l va
    l.x = true → slotOk s1 (vfOf s1 g) l.slot = true → ownsLine (partOf s1 (groupPart s1 g)) (pa / 128) = true →
    lineBad s1 (pa / 128) = false →
    let w : Word := .ofNat 64 (leNat (lineBytes (readAtHome s1 (pa / 128) l.slot).1 (pa % 128) 8))
    fetchWord s g va = (.ok w, s1)
    ∧ (va = g.ctx.pc.toNat → instrLen w = 1 → fetchInstr s g = (.ok [w], s1))
    ∧ (va = g.ctx.pc.toNat → ∀ ws s2, fetchWords s1 g (va + 8) (instrLen w - 1) = (.ok ws, s2) →
        fetchInstr s g = (.ok (w :: ws), s2))

/-- A step that performs a device event, or a Taster slot's instruction, runs that event or instruction; an event whose
conditions do not hold has no effect (00 R2, 22 R394). A grant that is due goes first (18 R326). What a step adds to an event
is that groups are no longer noted as waiting. Which event happens is the tape's choice (log entry 1). -/
def Obligations.StepRunsEventsAndFilters : Prop :=
  ∀ (s : State) (rest : List Choice), grantDue s = none →
    (∀ d, s.tape = .event d :: rest → isMessage d.ev = false →
      let s0 : State := { s with tape := rest, subj := d.subj, due := s.due.erase d }
      (∀ t, exec d.ev s0 = .next t → step s = .next (freshen t))
      ∧ (∀ n, exec d.ev s0 = .fault (.notEnabled n) → step s = .next { s with tape := rest })
      ∧ ∀ r, exec d.ev s0 = .refused r → step s = .refused r)
    ∧ ∀ die slot r i, s.tape = .filter die slot :: rest → (look s.slots slot {}).cur = some r → r.ended = false →
        r.pc < r.code.length → decodeFilter (r.code.getD r.pc 0) = .ok i →
        step s = exec i { s with tape := rest, curSlot := slot }

/-- After reset no group, team, launch, partition, virtual function, command or mapping exists, no event is in flight, no line
is cached, memory and every counter are zero, and key slot 0 alone is live, bound to nothing (10 R266, 21 R380, 22 R392). That
memory is zero, and every register without a value of its own, is the model's choice (log entries 2 and 3). -/
def Obligations.ResetState : Prop :=
  let s := State.reset
  s.groups = [] ∧ s.teams = [] ∧ s.launches = [] ∧ s.parts = [] ∧ s.vfs = [] ∧ s.cmds = [] ∧ s.tasks = [] ∧ s.due = []
    ∧ s.lines = [] ∧ s.dir = [] ∧ s.mem = [] ∧ s.dead = []
    ∧ (∀ c, coreOf s c = {}) ∧ (∀ k, (look s.keys k {}).live = decide (k = 0) ∧ (look s.keys k {}).bound = [])
    ∧ (∀ a, peek s.mem a = 0) ∧ (∀ la slot, memLine s la slot = 0) ∧ ∀ h, groupOf s h = none

/-! ### Memory and lines -/

/-- Memory after reset is in its canonical form. The form is the model's (log entry 2). -/
def Obligations.ResetMemoryCanonical : Prop := Memory.wf State.reset.mem = true

/-- Every step keeps memory in its canonical form: addresses rise, and no byte equal to what an unlisted address reads as is
listed. The form is the model's (log entry 2). -/
def Obligations.StepKeepsMemoryCanonical : Prop :=
  ∀ s t : State, Memory.wf s.mem = true → step s = .next t → Memory.wf t.mem = true

/-- A line of the stacks read after a write under the same slot holds the bytes written where the mask names them and what it
held elsewhere; every other line reads as before, under every slot (10 R265). -/
def Obligations.MemoryReadsBack : Prop :=
  ∀ (s : State) (la slot : Nat) (d : LineData) (k : ByteMask),
    memLine (memWrite s la slot d k) la slot = mergeLine (memLine s la slot) d k
    ∧ (∀ la' slot', la' ≠ la → memLine (memWrite s la slot d k) la' slot' = memLine s la' slot')
    ∧ ∀ a, (a < 128 * la ∨ 128 * la + 128 ≤ a) → peek (memWrite s la slot d k).mem a = peek s.mem a

/-- A store into a line that a core holds dirty, or exclusively with bytes of its own, under the same slot, as every pending
line of it lies, merges its bytes there, adds them to the line's mask and changes nothing else of memory, of the line's home,
of other lines or of other cores (07 R168, 10 R255); a later load of the core is served those bytes (12 R281). How near caches
keep lines is the model's (log entry 16). -/
def Obligations.NearWriteHit : Prop :=
  ∀ (s : State) (h c la slot rv : Nat) (d : LineData) (k : ByteMask) (n : NcLine),
    nearLine s c la = some n → n.slot = slot → n.st = .dirty ∨ (n.st = .exclusive ∧ n.mask ≠ 0) →
    (∀ p ∈ (coreOf s c).pend, p.la = la → p.slot = slot) →
    let t := nearWrite s h c la slot rv d k
    (∃ m, nearLine t c la = some m ∧ m.data = mergeLine n.data d k ∧ m.mask = n.mask ||| k ∧ m.st = n.st ∧ m.slot = slot
      ∧ m.dirtied = n.dirtied)
    ∧ (∀ la', la' ≠ la → nearLine t c la' = nearLine s c la')
    ∧ (∀ c', c' ≠ c → coreOf t c' = coreOf s c')
    ∧ t = { s with cores := t.cores }
    ∧ ∀ g req, g.core = c → req.kind = .ld → pendOf (coreOf s c) h la slot none = none →
        lineServe t g h req la slot = some (mergeLine n.data d k, 0)

/-- `LONG_LATENCY_RESULT` (05 R118): a complete result whose window has ended takes effect: the registers it frees read as
zero, then its writes land; the flags rise; `%rv` does not fall; the window is gone. One its window discarded writes no
register and raises no flag, but `%rv`. One of a retired group only leaves. How landing is timed is the model's choice (log
entry 1). -/
def Obligations.ResultLands : Prop :=
  ∀ (s : State) (g : Group) (w : Win), groupOf s s.subj.g = some g →
    g.ctx.wins.find? (fun v => v.id = s.subj.win) = some w → w.done = true → w.sink = false → w.fault = none →
    (g.run = .retired → exec .longLatencyResult s = .next (closeWin s s.subj.g w))
    ∧ (g.run ≠ .retired → w.left = 0 →
        let x := if w.discarded then g.ctx else (unmap g.ctx w.frees).1
        let news := if w.discarded then [] else needNew x [] (vRegs w.vals)
        let wr := if w.discarded then [] else w.vals
        allocCheck s s.subj.g g (x.v.length + (news.filter fun r => (find x.v r).isNone).length) news.length = .ok →
        ∃ t g', exec .longLatencyResult s = .next t ∧ groupOf t s.subj.g = some g'
          ∧ (∀ n th, readV g'.ctx n th = lastV wr (if w.discarded = false ∧ n ∈ w.frees then 0 else readV g.ctx n th) n th)
          ∧ (∀ n, readS g'.ctx n = lastS wr (readS g.ctx n) n)
          ∧ g' = { g with grant := g'.grant, ctx := { g.ctx with
              v := g'.ctx.v, s := g'.ctx.s, rv := max g.ctx.rv w.rv, wins := g.ctx.wins.filter fun v => v.id != w.id
              fpflags := if w.discarded then g.ctx.fpflags else (g.ctx.fpflags ||| w.flags) % 64 } }
          ∧ (∀ j, j ≠ s.subj.g → groupOf t j = groupOf s j) ∧ t.mem = s.mem ∧ t.lines = s.lines)


/-! ### Faults -/

/-- Taking a fault whose code the partition's table names a handler for (09 R245, 20 R359): the context moves to the shadow
with the saved program counter; the group goes on at the handler's address with every live thread active, no split, `s0`
holding the record's address, every other register zero, and its task ids, `%rv` and allotment kept. That `%rv`, the task ids
and the allotment stay is the model's reading (log entry 25). -/
def Obligations.FaultEntersHandler : Prop :=
  ∀ (s : State) (h : Nat) (g : Group) (r : FaultRec) (pc : Word), groupOf s h = some g → g.shadow = none → g.outer = none →
    handlerOf (partOf s (groupPart s g)) r.code = some pc →
    let a := recordAddr ((partOf s (groupPart s g)).handlers.getD 0 0).toNat g.core g.slot0
    ∃ g', groupOf (takeFault s h r) h = some g'
      ∧ g' = { g with ctx := g'.ctx, shadow := some (faultCtx g.ctx r), frec := some (filedFault s g r), run := .ready }
      ∧ g'.ctx = { pc := pc, active := g.ctx.live, live := g.ctx.live, s := .ofNat 64 a :: List.replicate 31 0
                   taskid := g.ctx.taskid, rv := g.ctx.rv, allot := g.ctx.allot, cls := g.ctx.cls, entry := g.ctx.entry }

/-- Taking a fault with no handler halts the group for the driver with its context kept (20 R360); a second fault in handler
mode halts it with both named, the shadow kept (09 R246); a fault of adopted work leaves the helper's slot and waits for the
driver outside its chain (13 R311). What becomes of the adopted work's slot is the model's reading (log entry 25). -/
def Obligations.FaultHaltsOrLeaves : Prop :=
  ∀ (s : State) (h : Nat) (g : Group) (r : FaultRec), groupOf s h = some g →
    (g.shadow = none → g.outer = none → handlerOf (partOf s (groupPart s g)) r.code = none →
      groupOf (takeFault s h r) h
        = some { g with ctx := faultCtx g.ctx r, run := .halted, frec := some (filedFault s g r) })
    ∧ (∀ x, g.shadow = some x → g.outer = none → groupOf (takeFault s h r) h
        = some { g with ctx := faultCtx g.ctx r, run := .halted
                        frec := some { (g.frec.getD {}) with second := some (r.code, r.cause, r.iaddr) } })
    ∧ (∀ o, g.outer = some o → o ≠ h → ∃ g', groupOf (takeFault s h r) h = some g'
        ∧ g'.run = .faultHeld ∧ g'.outer = none ∧ g'.depth = 0 ∧ g'.ctx.pc = r.pc ∧ g'.ctx.ckpt = none
        ∧ (g.shadow = none → g'.ctx.pending = some (filedFault s g r) ∧ g'.frec = g.frec)
        ∧ (∀ x, g.shadow = some x → g'.ctx.pending = none
          ∧ g'.frec = some { (g.frec.getD {}) with second := some (r.code, r.cause, r.iaddr) }))

/-- A fault of a word is taken at once where every outstanding result is complete or faulted; else it waits, and nothing
else changes (05 R121). Taken at once or delivered later, the oldest window's fault goes first, at the boundary, before that of
the word. -/
def Obligations.FaultsAreDeferred : Prop :=
  ∀ (s : State) (h : Nat) (g : Group) (r : FaultRec), groupOf s h = some g →
    (settled g.ctx = true →
        (∀ ws w more q, g.ctx.wins = ws ++ w :: more → (∀ v ∈ ws, v.left ≠ 0 ∨ v.sink = true ∨ v.fault = none) →
          w.left = 0 → w.sink = false → w.fault = some q → raise s h r = takeFault s h { q with pc := g.ctx.pc })
        ∧ ((∀ v ∈ g.ctx.wins, v.left ≠ 0 ∨ v.sink = true ∨ v.fault = none) → raise s h r = takeFault s h r))
    ∧ (settled g.ctx = false → raise s h r = setGroup s h { g with ctx := { g.ctx with pending := some r } })
    ∧ (h = s.subj.g → (g.run = .ready ∨ ∃ y, g.run = .parked y) → settled g.ctx = true →
        (∀ ws w more q, g.ctx.wins = ws ++ w :: more → (∀ v ∈ ws, v.left ≠ 0 ∨ v.sink = true ∨ v.fault = none) →
          w.left = 0 → w.sink = false → w.fault = some q →
          exec .faultDelivery s = .next (takeFault s h { q with pc := g.ctx.pc }))
        ∧ ((∀ v ∈ g.ctx.wins, v.left ≠ 0 ∨ v.sink = true ∨ v.fault = none) → ∀ q, g.ctx.pending = some q →
          exec .faultDelivery s = .next (takeFault s h q)))

/-- Outside handler mode each privileged word raises the privilege fault and does nothing else (05 R109), whatever its mask
operand; a fetched word that is no instruction raises illegal-instruction (05 R108), the windows ending before it where its
opcode is one that ends them (05 R117). -/
def Obligations.PrivilegedAndIllegalWords : Prop :=
  ∀ (s : State) (h : Nat) (g : Group) (f : FOps), current s = some (h, g) →
    (g.shadow = none → ∀ i ∈ [Instr.tret f, .halt f, .killt f, .tlbi f, .ctxsv f, .ctxld f],
      exec i s = .next (raise (setGroup s h (ended g)) h (badRec (ended g).ctx g.ctx.active { code := 0x02 })))
    ∧ ∀ w, let q := if endsWindows (opcodeOf w) then ended g else g
      exec (.illegalInstruction w) s = .next (raise (setGroup s h q) h (badRec q.ctx g.ctx.active { code := 0x01 }))

/-- `TRET` (09 R245), once the handler's own results have landed: the shadow context is the group's again, at its saved
program counter, or at the barrier where it waits (20 R357), `%rv` no lower than the handler's (12 R302), its record is gone,
and the instructions that faulted in its windows are performed again (05 R120); while results of the handler are outstanding
it only waits.

`HALT` (09 R245), once nothing of the handler is outstanding: the group halts for the driver with its record and its shadow
kept; until then it waits. That both wait for the handler's results is the model's reading (log entry 25). -/
def Obligations.HandlerReturnsAndHalts : Prop :=
  (∀ (s : State) (h : Nat) (g : Group) (f : FOps) (x : Ctx), current s = some (h, g) → g.shadow = some x →
    (g.ctx.wins ≠ [] → exec (.tret f) s = .next (setGroup s h (ended g)))
    ∧ (g.ctx.wins = [] → ∃ t g', exec (.tret f) s = .next (replayWins t h) ∧ groupOf t h = some g'
        ∧ g' = { g with ctx := { x with rv := max x.rv g.ctx.rv }, shadow := none, frec := none
                        run := (match x.barWait with
                          | some b => .parked (.barrier b)
                          | none => .ready)
                        lastIssue := g'.lastIssue }
        ∧ (∀ j, j ≠ h → groupOf t j = groupOf s j) ∧ t.mem = s.mem ∧ t.lines = s.lines
        ∧ ((∀ w ∈ x.wins, w.fault = none) → replayWins t h = t)))
  ∧ (∀ (s : State) (h : Nat) (g : Group) (f : FOps) (x : Ctx), current s = some (h, g) → g.shadow = some x →
    (settled g.ctx = false → exec (.halt f) s = .next (setGroup s h (ended g)))
    ∧ (settled g.ctx = true → ∃ t g', exec (.halt f) s = .next t ∧ groupOf t h = some g'
        ∧ g' = { g with run := .halted, frec := some (g.frec.getD {}), lastIssue := g'.lastIssue }
        ∧ ∀ j, j ≠ h → groupOf t j = groupOf s j))


/-! ### Memory words -/

namespace Sys2Proof.Claims

/-- After the effects that leave `s'`, the word completes: a next state in which its group stands at the next word and
nothing has changed from `s'` but the accounting of issue. -/
def performs (i : Instr) (s s' : State) (h : Nat) (io : Io) (len : Nat) (uni : Bool) (eff : Word) : Prop :=
  ∀ g', groupOf s' h = some g' → ∃ t, exec i s = .next t ∧ Retired s' h g' io len (cyclesOf uni g'.w eff) {} t

/-- How one of the loads and atomics of virtual memory differs from the others: the word, its displacement word, its kind, its
operation, its scope, its data registers and their values, whether a transaction forbids it and whether a region falls
back for it. -/
structure VirtWord where
  i : Instr
  d : Option Word
  kind : MemKind
  op : AtomOp := .add
  scope : Scope := .grp
  io : Io := {}
  data : Nat → Nat := fun _ => 0
  new : Nat → Nat := fun _ => 0
  tx : Bool := false
  fall : Bool := false

/-- The loads and atomics of virtual memory (07 R163 to R166, R175, R176). -/
def virtTable (f : FOps) (d : Word) (x : Ctx) : List VirtWord :=
  [{ i := .ld f d, d := some d, kind := .ld }, { i := .ldc f d, d := some d, kind := .ldc },
   { i := .lda f d, d := some d, kind := .lda, scope := f.scope.getD .grp, tx := true },
   { i := .ldx f d, d := some d, kind := .ldx, tx := true },
   { i := .atom f, d := none, kind := .atom, op := atomOf f.mod.toNat, scope := f.scope.getD .grp
     io := ioSrc f.u f.c.toNat f.ty.regs f.lrC, data := atomData f x, tx := true, fall := true },
   { i := .acas f, d := none, kind := .acas, op := .cas, scope := f.scope.getD .grp
     io := if f.u then { ur := [f.c.toNat, f.c.toNat + 1] } else ioSrc false f.c.toNat (2 * f.ty.regs) f.lrC
     data := atomData f x, new := acasNew f x, tx := true, fall := true }]

end Sys2Proof.Claims

/-- `LD`, `LDC`, `LDA`, `LDX`, `ATOM` and `ACAS` issue (07 R156 to R166, R175, R176, 05 R120): with its accesses checked, and
where no earlier access or sunk run of its threads to the same bytes and no moving line of a transaction holds it back, the
word's window opens with each thread's address and data as captured, the group goes on, and the accesses are performed or
asked for. Before that, a word a transaction forbids dooms its threads' transactions, and an atomic makes an open region fall
back. What holds a word back is the model's reading (log entries 16 and 19). -/
def Obligations.LoadsAndAtomicsBegin : Prop :=
  ∀ (s : State) (h : Nat) (g : Group) (f : FOps) (d : Word), current s = some (h, g) → ∀ e ∈ virtTable f d g.ctx,
    let eff := effSet g.ctx g.w f.k f.kn
    let io := (ioAddr f false).join (e.io.join (ioDst f.u f.d.toNat f.ty.regs))
    let accs : List Acc := (sites f.u g.w eff).map fun t =>
      { t := t, ea := eaOf g.ctx f false (dispOf f e.d) t, data := e.data t, new := e.new t }
    let req : MemReq := { kind := e.kind, ty := f.ty, size := f.ty.width / 8, uni := f.u, dst := f.d.toNat
                          scope := e.scope, op := e.op, eff := eff, accs := accs }
    blocked g.ctx (io.under eff) = false →
    (eff ≠ 0 → allocCheck s h g (allocNeed g.ctx io io.vw).1 (allocNeed g.ctx io io.vw).2 ≠ .trap) →
    ∀ rs s1, checkAll s g e.kind.natural req.size (memNeed e.kind) (accs.filter fun a => f.u || !txDoomed g.ctx a.t) = (rs, s1) →
      earlierHolds s1 h g.ctx s1.nextId f.u (partsOf rs) = false →
      (∀ p ∈ partsOf rs, f.u = true ∨ txLive g.ctx p.t = false ∨ lineReady s1 p.la = true) →
      let s2 := if e.tx then forbid s1 h eff else s1
      let s3 := if e.fall && eff ≠ 0 && (badsOf rs).isEmpty then fallBack s2 h else s2
      ∀ g', groupOf s3 h = some g' →
        ∃ u, Begun s3 h g' (io.under eff) (if e.d.isSome && f.isL then 2 else 1) (cyclesOf f.u g'.w eff) f.la.toNat
            { id := 0, pc := 0, left := 0, req := some req } u
          ∧ exec e.i s = .next (startWin u h s3.nextId)

/-- `LDS`, `LDP`, `MLDS` and `ATOMS` issue (07 R160, R161, R163, R177, 08 R198): the window opens with each thread's address and
data as captured, and the access is performed; before an `ATOMS` that will be, an open region falls back. One that touches an
absent line, and that no fault stops, parks the group at the word instead. -/
def Obligations.ScratchAndPocketLoadsBegin : Prop :=
  ∀ (s : State) (h : Nat) (g : Group) (f : FOps) (d : Word), current s = some (h, g) →
    ∀ e ∈ [(Instr.lds f d, some d, MemKind.lds, f.ty.width / 8, f.ty.regs), (.ldp f d, some d, .ldp, f.ty.width / 8, f.ty.regs),
        (.mlds f, none, .mlds, 16 * (f.mod.toNat + 1), 4 * (f.mod.toNat + 1)), (.atoms f, none, .atoms, f.ty.width / 8, f.ty.regs)],
    let eff := effSet g.ctx g.w f.k f.kn
    let kind := e.2.2.1
    let n := e.2.2.2.1
    let io := (ioAddr f true).join ((if kind == .atoms then ioSrc f.u f.c.toNat f.ty.regs f.lrC else {}).join (ioDst f.u f.d.toNat e.2.2.2.2))
    let accs : List Acc := (sites f.u g.w eff).map fun t =>
      { t := t, ea := eaOf g.ctx f true (dispOf f e.2.1) t, data := if kind == .atoms then atomData f g.ctx t else 0 }
    let req : MemReq := { kind := kind, ty := f.ty, size := n, uni := f.u, dst := f.d.toNat
                          op := if kind == .atoms then atomOf f.mod.toNat else .add, eff := eff, accs := accs }
    let bad := spaceFail s g (kind == .ldp) f.u n accs
    let gone := if kind == .ldp then [] else absentLines s g n accs
    blocked g.ctx (io.under eff) = false →
    (eff ≠ 0 → allocCheck s h g (allocNeed g.ctx io io.vw).1 (allocNeed g.ctx io io.vw).2 ≠ .trap) →
    (bad = none → gone ≠ [] → exec e.1 s = .next (park s h (.scratch gone) 1))
    ∧ ((bad = none → gone = []) →
        let s' := if kind == .atoms && eff ≠ 0 && bad.isNone then fallBack s h else s
        ∀ g', groupOf s' h = some g' →
          ∃ u, Begun s' h g' (io.under eff) (if e.2.1.isSome && f.isL then 2 else 1) (cyclesOf f.u g'.w eff) f.la.toNat
              { id := 0, pc := 0, left := 0, req := some req } u
            ∧ exec e.1 s = .next (startWin u h s'.nextId))

/-- What a captured access of scratch or of pockets comes to when it is performed (07 R160, R161, R163, R177): the fault of its
lowest failing thread, kept in the window; or a wait for the absent lines it touches; or the bytes of each thread, an
atomic's old values, the operations having been performed in temporal order.

A part of a captured load that the core can serve (07 R163 to R166, 10 R255, 12 R287): the window takes its bytes, and the
vintage they carry raises the window's; when every part is served the window is complete, its registers' values the
bytes in order, extended as the type says (02 R34). -/
def Obligations.CapturedAccessesPerformed : Prop :=
  (∀ (s : State) (h wid : Nat) (g : Group) (w : Win) (r : MemReq), groupOf s h = some g → winOf g.ctx wid = some w → w.req = some r →
    r.kind = .lds ∨ r.kind = .ldp ∨ r.kind = .mlds ∨ r.kind = .atoms →
    let gone := if r.kind = .ldp then [] else absentLines s g r.size r.accs
    let bad := spaceFail s g (r.kind == .ldp) r.uni r.size r.accs
    let gives (u : State) (vals : List RegWr) : State := modWin u h wid fun w => { w with fault := none, waitLines := [], vals := vals, done := true }
    (∀ b, bad = some b → startWin s h wid = winFault s h wid b)
    ∧ (bad = none → gone ≠ [] → startWin s h wid = modWin s h wid fun w => { w with fault := none, waitLines := gone })
    ∧ (bad = none → gone = [] → r.kind ≠ .atoms → startWin s h wid = gives s (spaceLoad s g r))
    ∧ (bad = none → gone = [] → r.kind = .atoms → startWin s h wid = gives (spaceAtoms s g r).2 (spaceAtoms s g r).1))
  ∧ (∀ (s : State) (h wid i : Nat) (g : Group) (w : Win) (r : MemReq) (p : Part), groupOf s h = some g → winOf g.ctx wid = some w →
    (∀ v ∈ g.ctx.wins, v.id = wid → v = w) → w.req = some r → w.parts[i]? = some p → p.got = none →
    r.kind ≠ .atom → r.kind ≠ .acas → (r.uni = true ∨ txLive g.ctx p.t = false) →
    (partServe s g h r p = none → servePart s h wid i = s)
    ∧ (∀ bs v own, partServe s g h r p = some (bs, v, own) → ∃ g' w', groupOf (servePart s h wid i) h = some g'
        ∧ winOf g'.ctx wid = some w' ∧ w' = { w with parts := setAt w.parts i { p with got := some bs }, rv := max w.rv v }
        ∧ g' = { g with ctx := { g.ctx with wins := g'.ctx.wins } } ∧ (servePart s h wid i).mem = s.mem)
    ∧ ((∀ q ∈ w.parts, q.got ≠ none) → r.kind ≠ .lda → ∃ g' w', groupOf (finishWin s h wid) h = some g'
        ∧ winOf g'.ctx wid = some w' ∧ w' = { w with done := true, waitLines := [], vals := winVals w r }))

/-- `ST` (07 R158, R159, R168): a store that can be made is made, each part lowest thread first, and the word completes; one
whose check fails raises its fault; one that needs a line that cannot be had now, or must follow an earlier access of its
thread, waits. That a store that needs a line waits for it is the model's (log entry 16). -/
def Obligations.StoresComplete : Prop :=
  ∀ (s : State) (h : Nat) (g : Group) (f : FOps) (d : Word), current s = some (h, g) → blocked g.ctx (ioStore f false) = false →
    let eff := effSet g.ctx g.w f.k f.kn
    let accs : List Acc := (sites f.u g.w eff).map fun t =>
      { t := t, ea := eaOf g.ctx f false (dispOf f (some d)) t, data := storeData g.ctx f t }
    (∀ s', tryStore s h g f.u (f.ty.width / 8) accs s.nextId = .done s' →
      performs (.st f d) s s' h (ioStore f false) (if f.isL then 2 else 1) f.u eff)
    ∧ (∀ s', tryStore s h g f.u (f.ty.width / 8) accs s.nextId = .wait s' → exec (.st f d) s = .next s')
    ∧ ∀ b s', tryStore s h g f.u (f.ty.width / 8) accs s.nextId = .bad b s' → exec (.st f d) s = .next (raise s' h (badRec g.ctx eff b))

/-- A store outside regions, transactions and sunk runs to lines that the core holds dirty under their slots, every access
passing its checks and none having to follow an earlier one of its thread (07 R168, 12 R281): it is made there. No byte of
memory changes, no line at its home, no other core and no line it does not touch; of a touched line every byte outside the
stored ones stays, and where one part is all the store has, the line holds its bytes. How near caches keep lines is the
model's (log entry 16). -/
def Obligations.StoreFrame : Prop :=
  ∀ (s : State) (h : Nat) (g : Group) (f : FOps) (d : Word), current s = some (h, g) → blocked g.ctx (ioStore f false) = false →
    inRegion g.ctx = false → g.ctx.tx = [] → g.ctx.sinks = [] →
    let eff := effSet g.ctx g.w f.k f.kn
    let n := f.ty.width / 8
    let accs : List Acc := (sites f.u g.w eff).map fun t =>
      { t := t, ea := eaOf g.ctx f false (dispOf f (some d)) t, data := storeData g.ctx f t }
    ∀ rs s1, checkAll s g false n .write accs = (rs, s1) → badsOf rs = [] →
      (∀ p ∈ partsOf rs, ∃ m, nearLine s1 g.core p.la = some m ∧ m.st = .dirty ∧ m.slot = p.slot) →
      (∀ p ∈ partsOf rs, ∀ q ∈ (coreOf s1 g.core).pend, q.la = p.la → q.slot = p.slot) →
      earlierHolds s1 h g.ctx s.nextId f.u (partsOf rs) = false →
      ∃ t, exec (.st f d) s = .next t ∧ t.mem = s1.mem ∧ t.lines = s1.lines
        ∧ (∀ c, c ≠ g.core → (coreOf t c).near = (coreOf s1 c).near)
        ∧ (∀ la, (∀ p ∈ partsOf rs, p.la ≠ la) → nearLine t g.core la = nearLine s1 g.core la)
        ∧ (∀ la m, nearLine s1 g.core la = some m → (∃ p ∈ partsOf rs, p.la = la) →
            ∃ m', nearLine t g.core la = some m' ∧ m'.st = .dirty
              ∧ ∀ j, (∀ p ∈ partsOf rs, p.la = la → ¬(maskBytes p.lo p.n).getLsbD j) → lineByte m'.data j = lineByte m.data j)
        ∧ ∀ a p, accs = [a] → partsOf rs = [p] → ∃ m m', nearLine s1 g.core p.la = some m ∧ nearLine t g.core p.la = some m'
            ∧ m'.data = mergeLine m.data (partData a n p) (maskBytes p.lo p.n) ∧ m'.mask = m.mask ||| maskBytes p.lo p.n

/-- `STS`, `STP` and `MSTS` (07 R160, R161, R168, 08 R198), where every access keeps within its space and no region is open:
the bytes are stored, lowest thread first, and the word completes; no memory changes, and no scratch or pocket byte but
the stored ones; the last access's bytes stand. A store of an absent line parks the group. -/
def Obligations.ScratchAndPocketStores : Prop :=
  ∀ (s : State) (h : Nat) (g : Group) (f : FOps) (d : Word), current s = some (h, g) → inRegion g.ctx = false →
    (groupLaunch s g).rc.pocket ≤ 65536 →
    ∀ e ∈ [(Instr.sts f d, some d, false, f.ty.width / 8, ioStore f true, storeData g.ctx f),
        (.stp f d, some d, true, f.ty.width / 8, ioStore f true, storeData g.ctx f),
        (.msts f, none, false, 16 * (f.mod.toNat + 1), (ioAddr f true).join (ioSrc false f.d.toNat (4 * (f.mod.toNat + 1)) f.lrC),
          fun t => readRun g.ctx f.d.toNat (4 * (f.mod.toNat + 1)) t)],
    let eff := effSet g.ctx g.w f.k f.kn
    let pocket := e.2.2.1
    let n := e.2.2.2.1
    let accs : List Acc := (sites f.u g.w eff).map fun t => { t := t, ea := eaOf g.ctx f true (dispOf f e.2.1) t, data := e.2.2.2.2.2 t }
    let gone := if pocket then [] else absentLines s g n accs
    blocked g.ctx e.2.2.2.2.1 = false →
    (∀ b, spaceFail s g pocket f.u n accs = some b → exec e.1 s = .next (raise s h (badRec g.ctx eff b)))
    ∧ (spaceFail s g pocket f.u n accs = none → gone ≠ [] → exec e.1 s = .next (park s h (.scratch gone) 1))
    ∧ (spaceFail s g pocket f.u n accs = none → gone = [] → ∃ s', performs e.1 s s' h e.2.2.2.2.1
          (if e.2.1.isSome && f.isL then 2 else 1) f.u eff
        ∧ s' = { s with groups := s'.groups, teams := s'.teams }
        ∧ (∃ g', groupOf s' h = some g' ∧ g' = { g with ctx := { g.ctx with pocket := g'.ctx.pocket } }
          ∧ (∀ th b, b < 65536 → (pocket = false ∨ ∀ a ∈ accs, a.t ≠ th ∨ b < a.ea.toNat ∨ a.ea.toNat + n ≤ b) →
              look g'.ctx.pocket (pocketKey th b) 0 = look g.ctx.pocket (pocketKey th b) 0)
          ∧ ∀ pre a, pocket = true → accs = pre ++ [a] → pocketRead g'.ctx a.t a.ea.toNat n = leBytes n a.data)
        ∧ (∀ b, (pocket = true ∨ ∀ a ∈ accs, b < a.ea.toNat ∨ a.ea.toNat + n ≤ b) →
            look (teamOf s' g.team).scratch b 0 = look (teamOf s g.team).scratch b 0)
        ∧ ∀ pre a, pocket = false → accs = pre ++ [a] → scratchRead (teamOf s' g.team) a.ea.toNat n = leBytes n a.data)


/-! ### Near-cache maintenance, ordering and barriers -/

namespace Sys2Proof.Claims

/-- The lines that checked accesses touch, each once with its key slot. -/
def lineSlots (rs : List (Acc × Except Bad (List Part))) : List (Nat × Nat) := ((partsOf rs).map fun p => (p.la, p.slot)).eraseDups

/-- The accesses of a word's threads at their addresses, with their data. -/
def siteAccs (f : FOps) (g : Group) (eff : Word) (d : Option Word) (data : Nat → Nat) : List Acc :=
  (sites f.u g.w eff).map fun t => { t := t, ea := eaOf g.ctx f false (dispOf f d) t, data := data t }

/-- The accesses that passed their checks, with their parts. -/
def goodsOf (rs : List (Acc × Except Bad (List Part))) : List (Acc × List Part) :=
  rs.filterMap fun r => match r.2 with
    | .ok ps => some (r.1, ps)
    | .error _ => none

/-- Every part of a release store sent to its home, with what it must record there (07 R169, 12 R289). -/
def sendReleases (s : State) (h : Nat) (g : Group) (n : Nat) (scope : Scope) (good : List (Acc × List Part)) : State :=
  each good s fun s a => each a.2 s fun s p =>
    send (addOut s h).2 (.homeRelease { id := (addOut s h).1, core := g.core, g := h, scope := scope, la := p.la, slot := p.slot
                                        data := partData a.1 n p, mask := maskBytes p.lo p.n, vw := g.ctx.rv })

/-- Whether a core holds a line exclusively under its slot. -/
def holdsExclusive (s : State) (c : Nat) (p : Part) : Bool :=
  match nearLine s c p.la with
  | some x => x.st == .exclusive && x.slot == p.slot
  | none => false

end Sys2Proof.Claims

/-- `PREF` (07 R167) skips the threads whose check fails and brings the others' lines closer; `CLEAN` and `INVAL` (07 R170) write
back, or write back and drop, the lines of the threads of E, or raise their fault; `FLUSHN` (07 R171) does so with every line
of the core's near cache. Each completes and writes no register. -/
def Obligations.MaintenanceWordsComplete : Prop :=
  ∀ (s : State) (h : Nat) (g : Group) (f : FOps), current s = some (h, g) →
    let eff := effSet g.ctx g.w f.k f.kn
    let accs := siteAccs f g eff none fun _ => 0
    let io := ioAddr f false
    (blocked g.ctx io = false →
      (∀ rs s1, checkAll s g false 1 .read (accs.filter fun a => f.u || !txDoomed g.ctx a.t) = (rs, s1) →
        performs (.pref f) s (each (lineSlots rs) s1 fun u l =>
          prefetchLine u h g f.mod.toNat { t := 0, pos := 0, la := l.1, slot := l.2, lo := 0, n := 1 }) h io 1 f.u eff)
      ∧ ∀ (drop : Bool) rs s1, checkAll (forbid s h eff) g false 1 .any accs = (rs, s1) →
        let i : Instr := if drop then .inval f else .clean f
        let bad := failOf f.u ((badsOf rs).filter fun b => f.u || !inTx g.ctx b.1)
        (∀ b, bad = some b → exec i s = .next (raise (forbid s h eff) h (badRec g.ctx eff b)))
        ∧ (bad = none → performs i s (each ((partsOf rs).map (·.la)).eraseDups (if eff = 0 then s1 else fallBack s1 h) fun u la =>
            if drop then dropNear (maintain u g.core la (some h) true) g.core (constKey la) else maintain u g.core la (some h) false)
            h io 1 f.u eff))
    ∧ (eff = 0 → performs (.flushn f) s (forbid s h eff) h {} 1 true eff)
    ∧ (eff ≠ 0 → ∀ g1, groupOf (fallBack (forbid s h eff) h) h = some g1 →
        performs (.flushn f) s (each ((coreOf (fallBack (forbid s h eff) h) g1.core).near.map (·.1)) (fallBack (forbid s h eff) h)
          fun u la => maintain u g1.core la (some h) (f.mod == 1)) h {} 1 true eff)

/-- `STRL` (07 R169) and `AREDN` (07 R177). Once its accesses are checked, and every earlier access of the group is done, a release
store is performed at the homes, which record the release, or, at a scope within the core, in the near cache; a reduction is
performed in the near cache where the core holds the line exclusively, and otherwise at the home. Each then completes and writes
no register; before that it waits, for as long as its lines' write-backs are under way, or an earlier access of its thread to its bytes is; and
a release store at `.sys` waits until the core's writes to the host's memory are acknowledged (12 R301). -/
def Obligations.ReleaseStoresAndReductions : Prop :=
  ∀ (s : State) (h : Nat) (g : Group) (f : FOps) (d : Word), current s = some (h, g) →
    let eff := effSet g.ctx g.w f.k f.kn
    let n := f.ty.width / 8
    let seen (a : Acc) : Bool := f.u || !inTx g.ctx a.t
    (blocked g.ctx (ioStore f false) = false → ∀ rs s1,
      checkAll (forbid s h eff) g true n .write ((siteAccs f g eff (some d) (storeData g.ctx f)).filter seen) = (rs, s1) →
      let done (u : State) : Prop := performs (.strl f d) s u h (ioStore f false) (if f.isL then 2 else 1) f.u eff
      let s2 := fallBack s1 h
      let scope := f.scope.getD .grp
      let s3 :=
        let u := putAway s2 g.core ((lineSlots rs).map (·.1))
        if scope = .sys then sendHost u g.core h else u
      let waits : Prop := (∃ l ∈ lineSlots rs, wbInFlight s3 g.core l.1 = true) ∨ (scope = .sys ∧ hostQuiet s3 g.core = false)
      let s4 := each (lineSlots rs) s2 fun u l => dropOther u g.core l.1 l.2
      (∀ b, failOf f.u (badsOf rs) = some b → exec (.strl f d) s = .next (raise s1 h (badRec g.ctx eff b)))
      ∧ (failOf f.u (badsOf rs) = none → eff = 0 → done s1)
      ∧ (failOf f.u (badsOf rs) = none → eff ≠ 0 →
          ((settled g.ctx = false ∨ g.out ≠ [] ∨ sinkHolds g.ctx s1.nextId f.u (partsOf rs) = true) → exec (.strl f d) s = .next s1)
          ∧ (settled g.ctx = true → g.out = [] → sinkHolds g.ctx s1.nextId f.u (partsOf rs) = false →
            (wideScope s2 g scope = true →
              (waits → exec (.strl f d) s = .next s3)
              ∧ (¬waits →
                done (sendReleases s3 h g n (if scope = .team ∧ (teamOf s3 g.team).pair = true then .die else scope) (goodsOf rs))))
            ∧ (wideScope s2 g scope = false →
              ((∃ l ∈ lineSlots rs, storeReady s4 g.core l.1 l.2 g.ctx.rv = false) → exec (.strl f d) s = .next s4)
              ∧ ((∀ l ∈ lineSlots rs, storeReady s4 g.core l.1 l.2 g.ctx.rv = true) →
                done (performStore s4 h f.u n (goodsOf rs)))))))
    ∧ (blocked g.ctx ((ioAddr f false).join (ioSrc f.u f.c.toNat f.ty.regs f.lrC)) = false → ∀ rs s1,
      checkAll (forbid s h eff) g true n .both ((siteAccs f g eff none (atomData f g.ctx)).filter seen) = (rs, s1) →
      let away := (((partsOf rs).filter fun p => !holdsExclusive s1 g.core p).map (·.la)).eraseDups
      let s3 := putAway (if eff = 0 then s1 else fallBack s1 h) g.core away
      let behind := sinkHolds g.ctx s1.nextId f.u (partsOf rs) || winHolds g.ctx s1.nextId f.u (partsOf rs)
      (∀ b, failOf f.u (badsOf rs) = some b → exec (.aredn f) s = .next (raise s1 h (badRec g.ctx eff b)))
      ∧ (failOf f.u (badsOf rs) = none →
          (behind = true → exec (.aredn f) s = .next s1)
          ∧ (behind = false →
            ((∃ la ∈ away, wbInFlight s3 g.core la = true) → exec (.aredn f) s = .next s3)
            ∧ ((∀ la ∈ away, wbInFlight s3 g.core la = false) →
              performs (.aredn f) s (each (goodsOf rs) s3 fun u a => each a.2 u fun u p => arednPart u h g f n a.1 p) h
                ((ioAddr f false).join (ioSrc f.u f.c.toNat f.ty.regs f.lrC)) 1 f.u eff))))

/-- `FENCE` (07 R178): its release part waits for the group's earlier accesses and, at a wide scope, writes every dirty line
of the core back and waits for the acknowledgements; its acquire part waits for the group's earlier loads and raises `%rv` to
the largest vintage the core has observed, or, at a narrow scope, drops copies no longer current. `WAITE` (07 R181, 08 R205)
completes once its counter is low enough, taking the counter's vintage, or raises the engine fault posted there; until then it
parks the group. Which copies a narrow acquire drops is the model's reading (log entry 13). -/
def Obligations.FenceAndEngineWaitComplete : Prop :=
  ∀ (s : State) (h : Nat) (g : Group) (f : FOps), current s = some (h, g) →
    let eff := effSet g.ctx g.w f.k f.kn
    let s0 := setGroup s h (ended g)
    let s1 := fallBack (forbid s0 h eff) h
    (eff = 0 → performs (.fence f) s s0 h {} 1 true eff)
    ∧ (eff ≠ 0 → ∀ g1, groupOf s1 h = some g1 →
      let wide := wideScope s1 g1 (f.scope.getD .grp)
      let waits := settled g1.ctx = false ∨ siteInFlight s1 h = true
      let rv := if wide = true ∧ f.mod ≠ 1 then max g1.ctx.rv (coreOf s1 g1.core).obsv else g1.ctx.rv
      let passes : Prop := ∃ t, exec (.fence f) s = .next t
        ∧ Retired (if wide = true ∨ f.mod = 1 then s1 else dropStale s1 g1.core) h { g1 with ctx := { g1.ctx with rv := rv } } {} 1 1 {} t
      (f.mod = 2 → (settled g1.ctx = true → passes) ∧ (settled g1.ctx = false → exec (.fence f) s = .next s1))
      ∧ (f.mod ≠ 2 → waits → exec (.fence f) s = .next s1)
      ∧ (f.mod ≠ 2 → ¬waits → wide = false → passes)
      ∧ (f.mod ≠ 2 → ¬waits → wide = true → g1.ctx.phase = 0 →
          exec (.fence f) s = .next (modCtx (drainCore s1 g1.core (some h) none) h fun x => { x with phase := 1 }))
      ∧ (f.mod ≠ 2 → ¬waits → wide = true → g1.ctx.phase ≠ 0 →
          (coreQuiet s1 g1.core = true → passes) ∧ (coreQuiet s1 g1.core = false → exec (.fence f) s = .next s1)))
    ∧ (let q := ended g
      let v := f.imm12.toNat
      let k := coreOf s0 g.core
      let x : Ctx := { q.ctx with rv := max q.ctx.rv (k.ecRv.getD f.d.toNat 0) }
      let posted := postedFault (teamOf s0 g.team) g.core f.d.toNat
      (v < k.ec.getD f.d.toNat 0 → exec (.waite f) s = .next (park s0 h (.engine f.d.toNat v) 4))
      ∧ (k.ec.getD f.d.toNat 0 ≤ v → posted = none →
          ∃ t, exec (.waite f) s = .next t ∧ Retired s0 h { q with ctx := x } {} 1 1 {} t)
      ∧ (k.ec.getD f.d.toNat 0 ≤ v → ∀ p, posted = some p → settled q.ctx = true → ∃ u,
          u = modTeam (setGroup s0 h { q with ctx := x }) g.team (fun tm => { tm with posted := tm.posted.erase p })
          ∧ exec (.waite f) s = .next (raise u h
              { code := 0x21, cause := p.2.2.1, iaddr := p.2.2.2, pc := x.pc + 8, failing := x.active, eff := x.active })))

/-- `BARW`, `BARA` and `DRAIN` (07 R179, R180): outside a split, with the barrier's count agreed and the release part done,
the group arrives. Where arrivals are missing, `BARA` goes on at the next word and the others wait at the barrier; the last
arrival empties the barrier and every group waiting at it goes on. `DRAIN` first waits for all that is outstanding, and a
misuse is the barrier fault. What counts at a barrier where the spec is short is the model's reading (log entry 18). -/
def Obligations.BarriersArriveAndRelease : Prop :=
  ∀ (s : State) (h : Nat) (g : Group) (f : FOps), current s = some (h, g) →
    ∀ e ∈ [(Instr.barw f, true, false), (.bara f, false, false), (.drain f, true, true)],
    let q := ended g
    let s1 := fallBack (setGroup s h q) h
    let b := f.d.toNat
    let tm := teamOf s1 g.team
    let bar := look tm.bars b {}
    let n := if f.x0 then f.imm12.toNat else (liveGroups s1 g.team).length
    let misuse := q.ctx.stack ≠ [] ∨ (bar.expected ≠ 0 ∧ (bar.every = f.x0 ∨ (f.x0 = true ∧ bar.expected ≠ n)))
      ∨ g.gid ∈ bar.arrived
    let want := if bar.expected = 0 then n else bar.expected
    let arr := bar.arrived ++ [g.gid]
    (e.2.2 = true → g.out ≠ [] → exec e.1 s = .next (modGroup s1 h fun g => { g with run := .parked .outstanding }))
    ∧ ((e.2.2 = false ∨ g.out = []) →
      (misuse → exec e.1 s = .next (raise s1 h (badRec q.ctx q.ctx.active { code := 0x18 })))
      ∧ (¬misuse → ∀ s2, releasePart s1 h q tm.pair = (false, s2) → exec e.1 s = .next s2)
      ∧ (¬misuse → releasePart s1 h q tm.pair = (true, s1) → ∀ g1, groupOf s1 h = some g1 → ∃ t g', exec e.1 s = .next t
        ∧ groupOf t h = some g'
        ∧ (arr.length < want → (look (teamOf t g.team).bars b {}) = { every := !f.x0, expected := want, arrived := arr }
          ∧ (∀ j, j ≠ h → groupOf t j = groupOf s1 j)
          ∧ (e.2.1 = true → g'.run = .parked (.barrier b) ∧ g'.ctx = { g1.ctx with barWait := some b })
          ∧ (e.2.1 = false → g'.run = g1.run ∧ g'.ctx = { passWins g1.ctx 1 with pc := g1.ctx.pc + 8, phase := 0 }))
        ∧ (want ≠ 0 → want ≤ arr.length → h ∈ tm.groups → g1.run = .ready → g1.core = g.core →
          look (teamOf t g.team).bars b {} = {} ∧ g'.run = .ready ∧ g'.ctx.pc = g1.ctx.pc + 8
          ∧ ∀ j ∈ tm.groups, j ≠ h → ∀ p, groupOf s1 j = some p → p.run = .parked (.barrier b) →
            ∃ p', groupOf t j = some p' ∧ p'.run = .ready ∧ p'.ctx.barWait = none ∧ p'.ctx.pc = p.ctx.pc + 8)))


/-! ### Transactions, regions and the system words -/

/-- `TXB`, `TXA` and `TXE` (07 R182 to R185) and `TRANSACTION_DOOM` (07 R184). Where none is open, `TXB` opens a transaction for each
thread of E; `TXA` dooms those of E with cause 6 and its code. Dooming keeps the first cause and drops the transaction's lines. `TXE`,
once its threads' loads are served, closes each thread's transaction: its status is 9 where none is open, the cause and code of one doomed, 0 where every byte
read still holds the value read, and 2 otherwise; a thread's pending lines reach memory only in the third case. -/
def Obligations.TransactionWordsComplete : Prop :=
  ∀ (s : State) (h : Nat) (g : Group) (f : FOps), current s = some (h, g) →
    let q := ended g
    let eff := effSet g.ctx g.w f.k f.kn
    let io := ioDst false f.d.toNat 1
    let dst (th v : Nat) : List RegWr := wrDst false f.d.toNat 1 th v
    (∃ t0, Retired s h q {} 1 (cyclesOf false g.w eff) {} t0
      ∧ exec (.txb f) s = .next (each (threadsOf g.w eff) (if eff = 0 then t0 else fallBack t0 h) fun u th => openTx u h th)
      ∧ exec (.txa f) s = .next (doomThreads t0 h eff 6 f.imm12.toNat)
      ∧ (g.ctx.tx = [] → inRegion g.ctx = false → ∃ t g', exec (.txb f) s = .next t ∧ groupOf t h = some g'
          ∧ g'.ctx.pc = g.ctx.pc + 8 ∧ ∀ th, find g'.ctx.tx th = if th ∈ threadsOf g.w eff then some {} else none))
    ∧ (∀ (u : State) (th cause user : Nat) (g1 : Group) (y : Tx), groupOf u h = some g1 → find g1.ctx.tx th = some y →
        (y.doom ≠ 0 → doomThread u h th cause user = u)
        ∧ (y.doom = 0 → ∃ g2, groupOf (doomThread u h th cause user) h = some g2
          ∧ (let z : Tx := { y with doom := cause, user := user, wlines := [], rlines := [], rbytes := [] }
            g2 = { g1 with ctx := { g1.ctx with tx := put g1.ctx.tx th z } })
          ∧ (doomThread u h th cause user).mem = u.mem ∧ (doomThread u h th cause user).lines = u.lines
          ∧ ∀ p ∈ (coreOf (doomThread u h th cause user) g1.core).pend, ¬(p.g = h ∧ p.t = some th)))
    ∧ (∀ (u : State) (g1 : Group), groupOf u u.subj.g = some g1 → txLive g1.ctx u.subj.t = true →
        exec .transactionDoom u = .next (doomThread u u.subj.g u.subj.t u.subj.cause 0))
    ∧ (blocked q.ctx (io.under eff) = false → 
        (eff ≠ 0 → allocCheck (setGroup s h q) h q (allocNeed q.ctx io io.vw).1 (allocNeed q.ctx io io.vw).2 = .ok) →
        (∀ la ∈ txLines q.ctx g.w eff, lineReady (setGroup s h q) la = true) → txLoads q.ctx eff = false →
        let r := (threadsOf g.w eff).foldl (fun (a : List RegWr × State) th =>
          (a.1 ++ dst th (closeTx a.2 h th).1, (closeTx a.2 h th).2)) ([], setGroup s h q)
        ∀ g', groupOf r.2 h = some g' →
          ∃ t, exec (.txe f) s = .next t ∧ Retired r.2 h g' io 1 (cyclesOf false g'.w eff) { wr := r.1 } t)
    ∧ (∀ (u : State) (th : Nat) (g1 : Group), groupOf u h = some g1 →
        (find g1.ctx.tx th = none → closeTx u h th = (txStatus 9 0 false, u))
        ∧ ∀ y, find g1.ctx.tx th = some y →
          let u1 := each (y.rlines ++ y.wlines).eraseDups u fun v la => flushDirty v none la
          (y.doom ≠ 0 → (closeTx u h th).1 = txStatus y.doom y.user false ∧ (closeTx u h th).2.mem = u.mem
            ∧ (closeTx u h th).2.lines = u.lines)
          ∧ (y.doom = 0 → txValid u1 y = false → (closeTx u h th).1 = txStatus 2 0 false ∧ (closeTx u h th).2.mem = u1.mem)
          ∧ (y.doom = 0 → txValid u1 y = true → (closeTx u h th).1 = txStatus 0 0 false
            ∧ (closeTx u h th).2.mem = (txWrite u1 h g1.core th g1.ctx.rv).2.mem))

/-- The system words. `REGION` and `COMMIT` (09 R239, R240) do nothing where the launch keeps no region discipline, raise the
region fault where a region is open, not open, or the stack is not empty, and otherwise open a region with a checkpoint of the
registers, or end it; ending one changes no memory where the core's lines lie under one key slot. `WRS` (09 R242) writes
`%fpflags` or raises `%rv`; `EVENT` (09 R243) posts one event for each thread of E. In handler mode `CTXSV` (20 R358) stores
the shadow context's record, `CTXLD` replaces the shadow context by the one a record holds, `KILLT` (09 R245, 20 R362) kills a
team, and `TLBI` (09 R245, 20 R367) removes translations and completes once the invalidation is. How contexts are laid out
where the spec is short, and when an invalidation is over, is the model's reading (log entries 26 and 27). -/
def Obligations.SystemWordsComplete : Prop :=
  ∀ (s : State) (h : Nat) (g : Group) (f : FOps), current s = some (h, g) →
    let q := ended g
    let eff := effSet g.ctx g.w f.k f.kn
    let s0 := setGroup s h q
    let cyc := if f.u then 1 else laneCycles g.w eff
    let a := readS g.ctx f.a.toNat
    let fin (i : Instr) (io : Io) (u : State) : Prop :=
      (∀ g', groupOf u h = some g' → g'.run ≠ .retired → ∃ t, exec i s = .next t ∧ Retired u h g' io 1 cyc {} t)
      ∧ ∀ g', groupOf u h = some g' → g'.run = .retired → exec i s = .next u
    let live : Prop := (groupLaunch s g).rc.region = true ∧ eff ≠ 0
    -- regions
    ((eff = 0 → fin (.region f) {} s0 ∧ fin (.commit f) {} s0)
      ∧ ((groupLaunch s g).rc.region = false → fin (.region f) {} s0 ∧ fin (.commit f) {} s0)
      ∧ (live → ∀ k, k = (if g.ctx.region.getLsbD 0 then 1 else if g.ctx.stack ≠ [] then 3 else 0) →
          (k ≠ 0 → exec (.region f) s = .next (raise s0 h (badRec q.ctx eff { code := 0x2A, cause := k })))
          ∧ (k = 0 → g.ctx.wins = [] → g.ctx.tx = [] → ∃ t g', exec (.region f) s = .next t ∧ groupOf t h = some g'
              ∧ g'.ctx.pc = g.ctx.pc + 8 ∧ g'.ctx.region = .ofNat 64 (bits g.ctx.pc.toNat 55 3 * 8 + 1)
              ∧ g'.ctx.ckpt = some { v := g.ctx.v, s := g.ctx.s, k := g.ctx.k, fpflags := g.ctx.fpflags, active := g.ctx.active
                                     depth := g.ctx.depth }
              ∧ (∀ n th, readV g'.ctx n th = readV g.ctx n th) ∧ t.mem = s.mem))
      ∧ (live → ∀ k, k = (if g.ctx.region.getLsbD 0 = false then 2 else if g.ctx.stack ≠ [] then 3 else 0) →
          (k ≠ 0 → exec (.commit f) s = .next (raise s0 h (badRec q.ctx eff { code := 0x2A, cause := k })))
          ∧ (k = 0 → fin (.commit f) {} (endRegion (forbid s0 h eff) h)))
      ∧ ∀ u g1 sl, groupOf u h = some g1 → g1.ctx.region.getLsbD 0 = true →
        (∀ n ∈ (coreOf u g1.core).near, n.2.slot = sl) → (∀ p ∈ (coreOf u g1.core).pend, p.slot = sl) →
        (endRegion u h).mem = u.mem
        ∧ groupOf (endRegion u h) h = some { g1 with ctx := { g1.ctx with region := 0, ckpt := none } })
    -- special registers and events
    ∧ (blocked q.ctx (({ ur := [f.a.toNat] } : Io).under eff) = false → eff ≠ 0 →
        (f.d = 8 → fin (.wrs f) { ur := [f.a.toNat] } (modCtx (fallBack s0 h) h fun x => { x with fpflags := a.toNat % 64 }))
        ∧ (f.d ≠ 8 → fin (.wrs f) { ur := [f.a.toNat] } (modCtx s0 h fun x => { x with rv := max x.rv (bits a.toNat 47 0) })))
    ∧ (let p := if endsWindows Op.event.code then q else g
      blocked p.ctx ((ioSrc f.u f.a.toNat 1 f.lrA).under eff) = false → eff ≠ 0 →
        fin (.event f) (ioSrc f.u f.a.toNat 1 f.lrA) (each (sites f.u g.w eff) (setGroup s h p) fun u th =>
          postGroup u p f.imm12.toNat (.ofNat 32 (srcA p.ctx g.w f .b32 th))))
    -- handler mode
    ∧ ∀ x, g.shadow = some x → eff ≠ 0 →
      let io (b : Bool) : Io := { ur := if b then [f.a.toNat] else [] }
      (blocked q.ctx ((io true).under eff) = false →
        (a.toNat % 128 ≠ 0 → ∀ i ∈ [Instr.ctxsv f, .ctxld f],
          exec i s = .next (raise s0 h (badRec q.ctx eff { code := 0x10, va := a.toNat })))
        ∧ (a.toNat % 128 = 0 → ∀ u, tryStore s0 h q true 128 (lineAccs a (ctxRecord q (groupLaunch s0 q).rc.pocket x)) s0.nextId = .done u →
            fin (.ctxsv f) (io true) u)
        ∧ (a.toNat % 128 = 0 → ∀ y u g1 v, recordOf s0 h q x a = .inr (y, u) → groupOf u h = some g1 → takeShadow u h g1 x y = .done v →
            fin (.ctxld f) (io true) v
            ∧ ∃ g' y', groupOf v h = some g' ∧ g' = { g1 with shadow := some y' } ∧ y' = { y with v := y'.v, wins := y'.wins }))
      ∧ (blocked q.ctx ((io (f.mod ≠ 0)).under eff) = false →
        let tm := if f.mod = 0 then some g.team else teamOfTask s0 (groupPart s0 q) (bits a.toNat 27 0)
        (tm = none → fin (.killt f) (io (f.mod ≠ 0)) s0)
        ∧ (∀ t, tm = some t → fin (.killt f) (io (f.mod ≠ 0))
            (killTeam s0 t { code := 0x31, cause := 0, addr := g.ctx.pc, va := 0, relaunch := f.x.getLsbD 1 } h))
        ∧ (g.ctx.phase = 0 → ∃ t, exec (.tlbi f) s = .next t
            ∧ (∀ c ∈ (partOf s (groupPart s g)).cores, ∀ l ∈ (coreOf t c).tlb,
                ¬(leafMeets s (tlbiScope s g f.mod.toNat a) l = true ∧ (partAsids s (groupPart s g)).contains l.asid = true))
            ∧ (∀ c, c ∉ (partOf s (groupPart s g)).cores → (coreOf t c).tlb = (coreOf s c).tlb)
            ∧ ∃ g', groupOf t h = some g' ∧ g'.ctx = { q.ctx with phase := 1 })
        ∧ (g.ctx.phase ≠ 0 → (∃ v ∈ s.invals, v.who = some h) → exec (.tlbi f) s = .next s0)
        ∧ (g.ctx.phase ≠ 0 → (∀ v ∈ s.invals, v.who ≠ some h) → fin (.tlbi f) (io (f.mod ≠ 0)) s0))

/-- `TRANSLATION_WALK` (20 R364 to R367): a walk whose leaf is valid leaves it in the core's near TLB; one that fails changes
nothing. `TRANSLATION_INVALIDATE_COMPLETE` (20 R367): once every access begun before is done, the invalidation is over. When a
walk happens, and when an invalidation is over, is the model's choice (log entry 27). -/
def Obligations.TranslationEventsComplete : Prop :=
  ∀ s : State,
    (∀ v vf root, s.vfs.find? (fun v => v.2.asid = s.subj.asid && v.2.root.isSome) = some (vf, v) → v.root = some root →
      (∀ e, walk s root v.asid s.subj.va = .error e → exec .translationWalk s = .next s)
      ∧ ∀ l, walk s root v.asid s.subj.va = .ok l →
        ((cachedLeaf (coreOf s s.subj.core).tlb v.asid s.subj.va).isSome = true → exec .translationWalk s = .next s)
        ∧ (cachedLeaf (coreOf s s.subj.core).tlb v.asid s.subj.va = none →
            exec .translationWalk s = .next (cacheLeaf s s.subj.core l)))
    ∧ ∀ i v, s.invals.find? (fun v => v.scope == i && v.left.all (accessDone s)) = some v →
        (∀ h, v.who = some h → exec (.translationInvalidateComplete i) s = .next { s with invals := s.invals.erase v })
        ∧ (v.who = none → exec (.translationInvalidateComplete i) s = .next (answerDone { s with invals := s.invals.erase v }))


/-! ### Engines -/

namespace Sys2Proof.Claims

/-- The words that send a command: how many words they take, the registers they read, and the command or fault that they come
to (08 R200 to R224). -/
def engineTable (f : FOps) (w1 w2 w3 : Word) : List (Instr × Nat × List Nat × (State → Group → Word → Except Bad Cmd)) :=
  [(.copy f, 1, copyRegs f, copyCmd f), (.coll f, 1, [f.a.toNat], collCmd f),
   (.press f w1 w2 w3, 4, pressRegs f w1 w2 w3, pressCmd f w1 w2 w3), (.lnest f w1 w2 w3, 4, lnestRegs f w2, lnestCmd f w1 w2 w3),
   (.tmma f, 1, run f.a.toNat 5, tmmaCmd f), (.tstore f, 1, run f.a.toNat 4, tstoreCmd f), (.tzero f, 1, [f.a.toNat], tzeroCmd f)]

/-- A word whose effects leave `u` completes there in one cycle, reading its registers as it goes. -/
def completesAt (i : Instr) (s u : State) (h len : Nat) : Prop :=
  ∀ g', groupOf u h = some g' → ∃ t, exec i s = .next t ∧ Retired u h g' {} len 1 {} t

end Sys2Proof.Claims

/-- The words of the engines (08 R200 to R226). With E empty each does nothing. One whose check fails raises its fault.
Otherwise a word that sends a command parks its group while the counter, or for a tile command the dependency table, is full,
and else counts the command, which holds the registers' values as they are at issue, and completes at once, whatever the
engine does later. `TDEP` adds a range to the group's list; `ECANCEL` cancels the team's commands on the counter. Where the
spec is short the model's choices are in log entry 20. -/
def Obligations.EngineWordsComplete : Prop :=
  ∀ (s : State) (h : Nat) (g : Group) (f : FOps) (w1 w2 w3 : Word), current s = some (h, g) →
    let eff := effSet g.ctx g.w f.k f.kn
    let s1 := fallBack (forbid s h eff) h
    let r (n : BitVec 6) : Word := readS g.ctx n.toNat
    (∀ e ∈ engineTable f w1 w2 w3, blocked g.ctx { ur := e.2.2.1 } = false →
      (eff = 0 → completes e.1 s h g {} e.2.1 1 {})
      ∧ (eff ≠ 0 → ∀ b, e.2.2.2 s g eff = .error b → exec e.1 s = .next (raise s h (badRec g.ctx eff b)))
      ∧ (eff ≠ 0 → ∀ c, e.2.2.2 s g eff = .ok c →
          c.ec = f.form ∧ c.st = .waiting ∧ c.core = g.core ∧ c.team = g.team ∧ c.rv = g.ctx.rv ∧ c.iaddr = g.ctx.pc ∧ c.prog = 0
          ∧ (65535 ≤ (coreOf s1 g.core).ec.getD c.ec 0 →
              exec e.1 s = .next (modGroup s1 h fun q => { q with run := .parked (.counterFull c.ec) }))
          ∧ ((coreOf s1 g.core).ec.getD c.ec 0 < 65535 → c.kind.tile = true → Config.depEntries ≤ (coreOf s1 g.core).dep.length →
              exec e.1 s = .next (modGroup s1 h fun q => { q with run := .parked .depTable }))
          ∧ ((coreOf s1 g.core).ec.getD c.ec 0 < 65535 →
              (c.kind.tile = true → (coreOf s1 g.core).dep.length < Config.depEntries) → completesAt e.1 s (enterCmd s1 h g c) h e.2.1)))
    ∧ (∀ (u : State) (c : Cmd) (q : Group), groupOf u h = some q → ∃ v q' d, v = enterCmd u h g c ∧ groupOf v h = some q'
        ∧ q' = { q with ctx := { q.ctx with tdep := if c.kind.tile then [] else q.ctx.tdep } } ∧ v.mem = u.mem ∧ v.lines = u.lines
        ∧ find v.cmds u.nextId = some d
        ∧ d = { c with g := h, seq := u.nextId, toScratch := d.toScratch, waits := if c.kind = .tzero then [] else g.out
                       deps := if c.kind.tile then g.ctx.tdep else [] }
        ∧ (coreOf v g.core).ec.getD c.ec 0 = (coreOf u g.core).ec.getD c.ec 0 + 1)
    -- the words' own checks
    ∧ (let n := bits (r f.b).toNat 39 0
      (bits (r f.b).toNat 63 40 ≠ 0 → copyCmd f s g eff = .error { code := 0x20 })
      ∧ (bits (r f.b).toNat 63 40 = 0 → addrBad s g (r f.d) n = none → (f.mod ≠ 1 → addrBad s g (r f.a) n = none) →
          ∃ c, copyCmd f s g eff = .ok c ∧ c.kind = (if f.mod = 1 then .fill else .copy) ∧ c.regs = [r f.d, r f.a, r f.b]))
    ∧ ((bits (r f.a).toNat 63 56 ≠ 0 → collCmd f s g eff = .error { code := 0x20 })
      ∧ (bits (r f.a).toNat 63 56 = 0 → (r f.a).toNat % 64 ≠ 0 → collCmd f s g eff = .error { code := 0x10, va := (r f.a).toNat })
      ∧ (bits (r f.a).toNat 63 56 = 0 → (r f.a).toNat % 64 = 0 → ∃ c, collCmd f s g eff = .ok c ∧ c.kind = .coll ∧ c.regs = [r f.a]))
    ∧ ((holdsTas s g = false ∨ shapeOk (r f.a) (teamOf s g.team).pair false = false → tzeroCmd f s g eff = .error { code := 0x20 })
      ∧ (holdsTas s g = true → shapeOk (r f.a) (teamOf s g.team).pair false = true →
          ∃ c, tzeroCmd f s g eff = .ok c ∧ c.kind = .tzero ∧ c.regs = [r f.a]))
    -- words that send nothing
    ∧ (blocked g.ctx { ur := [f.a.toNat] } = false → eff = 0 → completes (.tdep f) s h g {} 1 1 {})
    ∧ (blocked g.ctx { ur := [f.a.toNat] } = false → eff ≠ 0 →
        let w := (r f.a).toNat
        let legal := bits w 31 21 = 0 ∧ bits w 63 53 = 0 ∧ bits w 20 0 % 128 = 0 ∧ bits w 52 32 % 128 = 0 ∧ bits w 52 32 ≠ 0
          ∧ g.ctx.tdep.length < 4
        (¬legal → exec (.tdep f) s = .next (raise s h (badRec g.ctx eff { code := 0x20 })))
        ∧ (legal → rangeOk s g (bits w 20 0) (bits w 52 32) = false →
            exec (.tdep f) s = .next (raise s h (badRec g.ctx eff { code := 0x11, va := bits w 20 0 })))
        ∧ (legal → rangeOk s g (bits w 20 0) (bits w 52 32) = true →
            completesAt (.tdep f) s
              (fallBack (forbid (modCtx s h fun x => { x with tdep := x.tdep ++ [r f.a] }) h eff) h) h 1))
    ∧ (eff = 0 → completes (.ecancel f) s h g {} 1 1 {})
    ∧ (eff ≠ 0 → completesAt (.ecancel f) s (fallBack (forbid (each (s.cmds.filter fun c =>
        c.2.team = g.team && c.2.core = g.core && c.2.ec = f.form) s
          fun u c => cancelCmd u c.1) h eff) h) h 1)

/-- The events of engines (08 R202 to R226, 10 R253, R260, 19 R342): a command whose inputs are ready and that issued first
leaves the dependency table; one that waits for nothing goes to its engine, a free one being bound where its tenant needs it;
a running one performs its next operation, which counts against its engine's lease; its last write done, or cancelled, it is
over, and its counter falls; a fault stops it, with a record or for good; a lease that has run its operations passes on, is
renewed or ends; bytes on their way reach scratch. Where the spec is short the model's choices are in log entry 20. -/
def Obligations.EngineEventsHappen : Prop :=
  ∀ s : State,
    let cid := s.subj.cmd
    let c := cmdOf s cid
    let ran (u : State) (n : Nat) : Host.Outcome State Fault Refusal := .next (chargeLease u c n)
    (mayLeave s c = true → (∀ d ∈ s.cmds, d.2.core = c.core → d.2.seq < c.seq → mayLeave s d.2 = false) →
      exec .dependencyEntryLeave s
        = .next (modCore (modCmd s cid fun c => { c with st := .running }) c.core fun k => { k with dep := k.dep.erase cid }))
    ∧ (wantsEngine c = true → poolOf c.kind = none → exec .engineDispatch s = .next (modCmd s cid fun c => { c with st := .running }))
    ∧ (wantsEngine c = true → poolOf c.kind ≠ none → wantsBind s c = none → ∀ e, bestLease s c = some e →
        exec .engineDispatch s = .next (modCmd s cid fun c => { c with st := .running, engine := some e }))
    ∧ (wantsEngine c = true → poolOf c.kind ≠ none → ∀ e e', wantsBind s c = some e →
        bestLease (bindEngine s e (cmdPart s c) c.tenant) c = some e' →
        exec .engineDispatch s
          = .next (modCmd (bindEngine s e (cmdPart s c) c.tenant) cid fun c => { c with st := .running, engine := some e' }))
    ∧ (c.st = .running → leaseLeft s c = true → ∀ n u, nextOp s cid c = .op n u →
        ((c.kind ≠ .tmma → c.kind ≠ .press → c.kind ≠ .coll → exec .engineOperation s = ran u n)
        ∧ (c.kind = .tmma → exec .tmmaKblock s = ran u n)
        ∧ (c.kind = .press → shareLine s c = some s.subj.la → pressPaused s (channelOf s.subj.la) = false →
            exec .pressShare s = ran u n)))
    ∧ (∀ d, find s.cmds cid = some d →
        (d.st = .cancelled → exec .engineCommandComplete s = .next (endCmd s cid d))
        ∧ (d.st = .running → d.flight = [] → nextOp s cid d = .done → exec .engineCommandComplete s = .next (endCmd s cid d)))
    ∧ (∀ (u : State) (d : Cmd), (find (endCmd u cid d).cmds cid = none)
        ∧ ∃ k, coreOf (endCmd u cid d) d.core = k ∧ k.ec.getD d.ec 0 = (coreOf u d.core).ec.getD d.ec 0 - 1
          ∧ k.ecRv.getD d.ec 0 = max ((coreOf u d.core).ecRv.getD d.ec 0) d.wv)
    ∧ (∀ code k va, cmdFault s cid c = some (code, k, va) → engineCause code k = s.subj.cause → c.kind.tile = false →
        (4 ≤ s.subj.cause → exec .engineFault s = .next (stopCmd s cid c s.subj.cause))
        ∧ (s.subj.cause < 4 → ∃ t, exec .engineFault s = .next t
            ∧ find t.cmds cid = (find s.cmds cid).map fun d => { d with st := .faulted s.subj.cause, va := .ofNat 64 va }))
    ∧ (∀ agree ranks, c.st = .running → c.kind = .coll → c.prog = 0 →
        (∀ n u, collStep s cid c agree ranks = .op n u → exec (.collComplete cid agree ranks) s = ran u n)
        ∧ ∀ k va, collStep s cid c agree ranks = .stop (some (0x21, k, va)) →
            exec (.collComplete cid agree ranks) s = .next (stopCmd s cid c k))
    ∧ (let e := s.subj.engine
      ((partOf s s.subj.part).engines.contains e = true → find s.engines e = none →
        (∃ d ∈ s.cmds, wantsEngine d.2 = true ∧ runs e d.2.kind = true ∧ cmdPart s d.2 = s.subj.part ∧ d.2.tenant = s.subj.tenant
          ∧ (wantsBind s d.2).isSome = true) → exec .engineLeaseBind s = .next (bindEngine s e s.subj.part s.subj.tenant))
      ∧ ∀ x, find s.engines e = some x → x.left = 0 →
        ((partOf s x.part).engines.contains e = true → nextLessee s e x = none →
          exec .engineLeaseExpiry s = .next { s with engines := put s.engines e { x with left := 65536 } })
        ∧ ((partOf s x.part).engines.contains e = false → ∃ t, exec .engineLeaseExpiry s = .next t ∧ find t.engines e = none
            ∧ ∀ d ∈ t.cmds, d.2.engine ≠ some e)
        ∧ ((partOf s x.part).engines.contains e = true → ∀ d, nextLessee s e x = some d → ∃ t, exec .engineLeaseExpiry s = .next t
            ∧ find t.engines e = some { part := x.part, tenant := d.tenant, left := 65536 }
            ∧ ∀ d ∈ t.cmds, d.2.engine ≠ some e))
    ∧ ((find s.cmds cid = none → exec .engineScratchLineLand s = .next s)
      ∧ ∀ d, find s.cmds cid = some d →
        ((d.flight.find? fun x => x.id = s.subj.n) = none → exec .engineScratchLineLand s = .next s)
        ∧ ∀ x, (d.flight.find? fun x => x.id = s.subj.n) = some x → flightWaits d x = false → ∃ t, exec .engineScratchLineLand s = .next t
          ∧ (d.st = .cancelled → (teamOf t d.team).scratch = (teamOf s d.team).scratch)
          ∧ (∃ d', find t.cmds cid = some d' ∧ d'.flight = d.flight.filter fun y => y.id != x.id) ∧ t.mem = s.mem)


/-! ### Sunk execution -/

/-- `SINK` (07 R187 to R189): its marked words are fetched and checked before anything changes; with E empty the group passes
them and its run record reads zero; else a window opens for them, of their destinations, and the anchor decides where each
thread's run is performed. A run whose leaving threads must follow an earlier access of theirs waits (12 R281). A word that
cannot be fetched, or is not allowed in a run, raises its fault. Where the spec is short the model's choices are in log entry
19. -/
def Obligations.SinkBegins : Prop :=
  ∀ (s : State) (h : Nat) (g : Group) (f : FOps), current s = some (h, g) →
    let q := ended g
    let eff := effSet g.ctx g.w f.k f.kn
    let n := f.mod.toNat + 1
    ∀ fetched s1, fetchWords (setGroup s h q) q (g.ctx.pc.toNat + 8) n = (fetched, s1) →
      (∀ e, fetched = .error e → exec (.sink f) s = .next (raise s1 h (badRec q.ctx eff { code := e.1, cause := e.2 })))
      ∧ ∀ raw, fetched = .ok raw →
        ((∀ ws, sinkWords raw = some ws → sinkLegal ws = false) →
          exec (.sink f) s = .next (raise s1 h (badRec q.ctx eff { code := 0x01 })))
        ∧ ∀ ws, sinkWords raw = some ws → sinkLegal ws = true →
          let r := sinkRegs ws
          let io : Io := { vr := r.vr, ur := r.ur, vw := r.vw, uw := [], lr := r.lr }
          let k : SinkSt := { pc := g.ctx.pc, words := ws, eff := eff, lim := f.form, scap := g.ctx.s, vcap := sinkCapture q.ctx g.w r
                              store := ws.any fun w => sinkStores w.1 }
          let opened (u : State) : State := modCtx u h fun x => { x with sinks := put x.sinks s1.nextId k }
          let part (l : Nat × Nat × Nat × Leaf) : Part := { t := l.1, pos := 0, la := l.2.1, slot := l.2.2.1, lo := 0, n := 128 }
          let behind (u : State) (a : List (Nat × Nat × Nat × Leaf)) : Bool := earlierHolds u h q.ctx s1.nextId false (a.map part)
          (blocked q.ctx (io.under eff) = true → exec (.sink f) s = .next s1)
          ∧ (blocked q.ctx (io.under eff) = false → eff = 0 → ∀ g1,
              groupOf (modCtx s1 h fun x => { x with sinkrec0 := 0, sinkrec1 := 0 }) h = some g1 → ∃ t, exec (.sink f) s = .next t
              ∧ Retired (modCtx s1 h fun x => { x with sinkrec0 := 0, sinkrec1 := 0 }) h g1 (io.under eff) (n + 1) (laneCycles g.w eff) {} t)
          ∧ (blocked q.ctx (io.under eff) = false → eff ≠ 0 →
              allocCheck s1 h q (allocNeed q.ctx io io.vw).1 (allocNeed q.ctx io io.vw).2 ≠ .trap →
              (∀ c a u, sinkDecide (opened s1) h s1.nextId eff = (.ok (c, a), u) → behind u a = true → exec (.sink f) s = .next s1)
              ∧ ((∀ c a u, sinkDecide (opened s1) h s1.nextId eff = (.ok (c, a), u) → behind u a = false) →
              ∃ u, Begun s1 h q io (n + 1) (laneCycles g.w eff) f.la.toNat
                  { id := 0, pc := 0, left := 0, frees := if g.ctx.stack = [] then r.last else [] } u
                ∧ exec (.sink f) s = .next (sinkBegin (opened u) h s1.nextId)))

/-- The events of sunk execution (07 R190, R412, 11 R270 to R275): a probe whose core's own write-back of the line has gone
arrives at the home; a granted hold releases the next probe, and the last one the instances, unless the page's check fails; an
instance is performed at the first site that lets it, once every lower thread's of its line has been; a result no longer
counts, raises `%rv` at once, and with the last one the group faults, completes or goes on in the core; there its words go on.
Where the spec is short the model's choices are in log entry 19. -/
def Obligations.SinkEventsHappen : Prop :=
  ∀ s : State,
    let j := s.subj
    (wbInFlight s j.core j.la = false → exec .sinkProbe s = .next (arrive s j.la ⟨.sinkProbe, j⟩))
    ∧ ∀ g k, sinkOf s j.g j.win = some (g, k) →
      -- holds
      (k.probes.head? = some j.la → ∀ bad u,
        u = modSink s j.g j.win (fun k => { k with held := k.held ++ [(j.la, j.site)], probes := k.probes.drop 1 }) →
        siteCheck u j.g j.win j.la ((k.lines.filter fun l => l.2.1 = j.la).map (·.1)) .both = bad →
        (∀ b, bad = some b → exec .sinkHoldGrant s
          = .next (raiseSunk u j.g j.win (sunkRec k b (if homeDie u j.la = dieOf g.core then 1 else 2))))
        ∧ (bad = none → k.probes.length = 1 →
            exec .sinkHoldGrant s = .next (each k.lines u fun u l => sendInstance u j.g j.win g.core l))
        ∧ (bad = none → k.probes.length ≠ 1 → exec .sinkHoldGrant s = .next (sendProbe u j.g j.win)))
      -- instances
      ∧ (lowerInstance s j.g j.win j.t j.la = false → k.store = true → exec .sinkInstance s = .next (performStoreInstance s g k j))
      ∧ (lowerInstance s j.g j.win j.t j.la = false → k.store = false →
          granting s (localDie s j.core j.la) j.la = false → wbInFlight s j.core j.la = false →
          (copyServes s (localDie s j.core j.la) j.la j.slot = true → ∀ u,
              u = recallDie (demandAt s (localSlice s (localDie s j.core j.la) j.la) j.la j.slot (groupLaunch s g).tenant false)
                (localDie s j.core j.la) j.la →
              exec .sinkInstance s = .next (performRead u g j (look (lineSt u j.la).copies (localDie s j.core j.la) {}).data 1))
          ∧ (copyServes s (localDie s j.core j.la) j.la j.slot = false → lineReady s j.la = true → (lineSt s j.la).queue = [] →
            let met (b : Bool) : State := demandAt s (homeSlice s j.la) j.la j.slot (groupLaunch s g).tenant b
            ((lineValid s j.la j.slot = true ∨ k.lim = 1) → ∀ u, u = (readAtHome (met true) j.la j.slot).2 → exec .sinkInstance s
              = .next (performRead u g j (readAtHome (met true) j.la j.slot).1 (if homeDie u j.la = dieOf j.core then 1 else 2)))
            ∧ (lineValid s j.la j.slot = false → k.lim ≠ 1 → pressPaused s (channelOf j.la) = false →
              exec .sinkInstance s = .next (performRead (met false) g j (homeData (met false) j.la j.slot) 3))))
      -- results
      ∧ (∀ g0 k0, sinkOf (takeResult s k j) j.g j.win = some (g0, k0) → g0.ctx.rv = max g.ctx.rv j.n ∧ k0.away = k.away &&& ~~~(maskOf [j.t]) ∧ k0.rv = max k.rv j.n
          ∧ k0.returned = (if j.cause = 1 then k.returned ||| maskOf [j.t] else k.returned)
          ∧ k0.codes = if j.cause = 0 then k.codes ++ [(j.t, j.site)] else k.codes)
      ∧ (let s1 := takeResult s k j
        ∀ g1 k1, sinkOf s1 j.g j.win = some (g1, k1) →
          (k1.away ≠ 0 → exec .sinkResult s = .next s1)
          ∧ (k1.away = 0 → ∀ r, k1.fault = some r → exec .sinkResult s = .next (raiseSunk s1 j.g j.win r))
          ∧ (k1.away = 0 → k1.fault = none → exec .sinkResult s = .next (sinkGo sinkFuel s1 j.g j.win)))
      -- words in the core
      ∧ (sinkWaits g.ctx j.win k = true →
          (k.core ≠ 0 → exec .sinkCoreReexecution s = .next (sinkGo sinkFuel s j.g j.win))
          ∧ (k.core = 0 → exec .sinkCoreReexecution s = .next (sinkGo sinkFuel
              (modSink s j.g j.win fun k => { k with core := k.returned, returned := 0, idx := 1, redo := false }) j.g j.win)))


/-! ### Tasks -/

/-- The task words (09 R229 to R238). With E empty each only goes on. `FUTNEW` makes each word unresolved under the task at
its site, which then owns it; `RESOLVE` stores its state and data, for an owned word alone, and records a release; each raises
the future fault with the cause of the lowest failing site. `AWAIT` returns a resolved or faulted word after an acquire,
adopts the work of an owner that does not run where it may, and otherwise parks. `SPAWN` gives a task id to each thread whose
record was placed; `PARK` leaves the slot at the next word; `STEAL` returns how many records came; `ROLE` swaps the role, and
raises its fault for a field out of range or an allotment below the registers mapped. Where the spec is short the model's
choices are in log entry 21. -/
def Obligations.TaskWordsComplete : Prop :=
  ∀ (s : State) (h : Nat) (g : Group) (f : FOps), current s = some (h, g) →
    let q := ended g
    let eff := effSet g.ctx g.w f.k f.kn
    let s0 := setGroup s h q
    let lanes := laneCycles g.w eff
    let cyc := if f.u then 1 else lanes
    let accs := accsOf q.ctx g.w f false none eff (fun _ => 0) fun _ => 0
    let clean (u : State) : State := fallBack (forbid u h eff) h
    let free (io : Io) : Prop := blocked q.ctx (io.under eff) = false
    let fin (i : Instr) (io : Io) (n : Nat) (r : Res) (u : State) : Prop :=
      ∀ g', groupOf u h = some g' → ∃ t, exec i s = .next t ∧ Retired u h g' io 1 n r t
    let badBy (i : Instr) (try_ : FutTry) : Prop := ∀ b u, try_ = .bad b u → exec i s = .next (raise u h (badRec q.ctx eff b))
    let ioR := (ioAddr f false).join (ioSrc f.u f.c.toNat (if f.u then 1 else 2) f.lrC)
    let ioA : Io := { ur := [f.a.toNat], uw := [f.d.toNat] }
    let args := run f.b.toNat f.c.toNat
    let ioS : Io := { ur := [f.a.toNat], vr := args, vw := [f.d.toNat], lr := if f.lrB then args else [] }
    let ioP : Io := if f.mod = 1 then { ur := [f.a.toNat] } else {}
    let ioT : Io := { ur := [f.a.toNat] ++ (if f.x0 then [] else [f.b.toNat]), uw := [f.d.toNat] }
    let ioL : Io := { ur := [f.a.toNat, f.a.toNat + 1], uw := [f.a.toNat, f.a.toNat + 1] }
    let entry := readS q.ctx f.a.toNat
    -- E empty
    (eff = 0 → ∀ e ∈ [(Instr.futnew f, ioAddr f false, cyc), (.resolve f, ioR, cyc), (.await_ f, ioA, 1), (.spawn f, ioS, lanes),
        (.park f, ioP, 1), (.steal f, ioT, 1), (.role f, ioL, 1)], free e.2.1 → fin e.1 e.2.1 e.2.2 {} s0)
    ∧ (eff ≠ 0 →
      -- making and resolving futures
      (free (ioAddr f false) → let try_ := futTry s0 h f.u accs (futnewWhy f.u eff)
        badBy (.futnew f) try_
        ∧ ∀ ps u gc, try_ = .go ps u → groupOf (clean u) h = some gc →
          fin (.futnew f) (ioAddr f false) cyc {} (each ps (clean u) fun v e =>
            let id := siteTask gc.ctx f.u eff e.1
            ownAdd (partPut v h gc.core e.2 (.ofNat 64 (1 * 2 ^ 60 + id % 2 ^ 28 * 2 ^ 32))) (groupPart (clean u) gc) id (partPa e.2)))
      ∧ (free ioR → let try_ := futTry s0 h f.u accs (ownWhy f.u eff)
        badBy (.resolve f) try_
        ∧ ∀ ps u gc, try_ = .go ps u → groupOf (clean u) h = some gc → settled gc.ctx = true → gc.out = [] →
          (∀ e ∈ ps, canRelease (clean u) e.2.la = true) →
          fin (.resolve f) ioR cyc {} (each ps (clean u) fun v e =>
            let data := if f.u then (readS gc.ctx f.c.toNat).toNat else readRun gc.ctx f.c.toNat 2 e.1
            let word : Word := .ofNat 64 ((8 + f.mod.toNat % 8) * 2 ^ 60 + data % 2 ^ 60)
            ownDel (partPut (addRecord v gc.core e.2.la) h gc.core e.2 word) (groupPart (clean u) gc) (siteTask gc.ctx f.u eff e.1)
              (partPa e.2)))
      -- waiting for one
      ∧ (free ioA → let try_ := futTry s0 h true accs (fun s _ _ _ p => if badState (partWord s p) then some 5 else none)
        badBy (.await_ f) try_
        ∧ ∀ e ps u gc, try_ = .go (e :: ps) u → groupOf (clean u) h = some gc →
          let c := clean u
          let w := partWord c e.2
          let claimed := partPut c h gc.core e.2 (.ofNat 64 (2 ^ 60 + w.toNat % 2 ^ 60))
          (7 ≤ futState w → (∀ k ∈ acquireCores c gc.core e.2.la, canDrain c k = true) → ∀ a, a = acquireNow c gc.core e.2.la →
            7 ≤ futState (partWord a.2 e.2) → fin (.await_ f) (ioDst true f.d.toNat 1) 1
              { wr := wrDst true f.d.toNat 1 0 (partWord a.2 e.2).toNat } (modCtx a.2 h fun x => { x with rv := max x.rv a.1 }))
          ∧ (futState w < 2 → exec (.await_ f) s = .next (park c h (.await (partPa e.2) w) 0))
          ∧ (futState w = 2 ∨ futState w = 3 →
            (∀ l r, helpFor c gc (groupPart c gc) w = .record l r →
              exec (.await_ f) s = .next (adoptRecord claimed h gc (groupPart c gc) l r))
            ∧ (∀ o og, helpFor c gc (groupPart c gc) w = .group o og →
              exec (.await_ f) s = .next (adoptParked claimed h gc (groupPart c gc) o og (futOwner w)))
            ∧ (∀ n, helpFor c gc (groupPart c gc) w = .regs n → exec (.await_ f) s = .next (parkRegs c h gc n))))
      -- spawning
      ∧ (free ioS →
        (goodPc entry = false → exec (.spawn f) s = .next (raise s0 h (badRec q.ctx eff { code := 0x29, cause := 1 })))
        ∧ (goodPc entry = true → allocCheck s0 h q (allocNeed q.ctx ioS ioS.vw).1 (allocNeed q.ctx ioS ioS.vw).2 = .ok →
          let left := threadsOf g.w (spawnLeft q.ctx eff)
          let on := if f.mod = 1 then left.map fun t => { t := t, ea := .ofNat 64 (readRun q.ctx f.b.toNat 2 t) } else []
          let try_ := futTry s0 h false on (ownWhy false eff)
          badBy (.spawn f) try_
          ∧ ∀ ps u gc v ids rest z, try_ = .go ps u → groupOf (clean u) h = some gc → passReady (clean u) h gc = (true, v) →
            spawnAll v h gc f ps left [] = (ids, rest, z) →
            (rest ≠ [] → exec (.spawn f) s = .next (spawnEnd z h f ioS eff ids rest))
            ∧ (rest = [] → ∀ g', groupOf z h = some g' →
              let old := ((threadsOf g'.w eff).filter fun t => !ids.any fun e => e.1 = t).map fun t =>
                wrDst false f.d.toNat 1 t (readV g'.ctx f.d.toNat t).toNat
              ∃ t, exec (.spawn f) s = .next t ∧ Retired z h { g' with ctx := { g'.ctx with spawnRem := 0 } } ioS 1 (laneCycles g'.w eff)
                { wr := old.flatten ++ (ids.map fun e => wrDst false f.d.toNat 1 e.1 e.2).flatten } t)))
      -- leaving the slot, stealing and roles
      ∧ (free ioP →
          let try_ := futTry s0 h true (if f.mod = 1 then accs else []) (fun s _ _ _ p => if badState (partWord s p) then some 5 else none)
          badBy (.park f) try_
          ∧ ∀ ps u gc v g', try_ = .go ps u → groupOf (clean u) h = some gc → passReady (clean u) h gc = (true, v) → gc.out = [] →
          groupOf v h = some g' → exec (.park f) s = .next (leaveSlot v h g' (ps.head?.map fun e => partPa e.2)))
      ∧ (free ioT → ∀ gc, groupOf (clean s0) h = some gc →
          let launch := launchIdOf (clean s0) gc
          let src := if f.x0 then fullest (clean s0) (dieOf gc.core) launch (readS gc.ctx f.a.toNat)
            else some (readS gc.ctx f.b.toNat).toNat
          let done (r : Nat × State) : Prop := groupOf r.2 h = some gc → ∃ t, exec (.steal f) s = .next t
            ∧ Retired r.2 h gc ioT 1 1 { wr := wrDst true f.d.toNat 1 0 r.1 } t
          (src = none → done (0, clean s0))
          ∧ ∀ c, src = some c → done (stealFrom (clean s0) (groupPart (clean s0) gc) gc.core c launch (readS gc.ctx f.a.toNat)))
      ∧ (free ioL →
          let b := readS q.ctx (f.a.toNat + 1)
          (roleOk entry b = false → exec (.role f) s = .next (raise s0 h (badRec q.ctx eff { code := 0x29, cause := 2 })))
          ∧ (roleOk entry b = true → bits b.toNat 6 0 < q.ctx.v.length →
              exec (.role f) s = .next (raise s0 h (badRec q.ctx eff { code := 0x07 })))
          ∧ (roleOk entry b = true → q.ctx.v.length ≤ bits b.toNat 6 0 → ∀ gc, groupOf (fallBack s0 h) h = some gc →
            let x : Ctx := { gc.ctx with
              allot := bits b.toNat 6 0, entry := entry, cls := max (bits b.toNat 9 8) (groupLaunch (fallBack s0 h) gc).rc.cls }
            ∃ t, exec (.role f) s = .next t ∧ Retired (fallBack s0 h) h { gc with ctx := x } ioL 1 1
              { wr := wrDst true f.a.toNat 1 0 q.ctx.entry.toNat
                  ++ wrDst true (f.a.toNat + 1) 1 0 (256 * q.ctx.cls + q.ctx.allot) } t)))

/-- The events of tasks. `CASK_LAUNCH` (13 R305, R306) forms one group of the oldest records of a cask that holds enough, is
old enough, was stolen, or is the one boosted first; `CASK_AGE_EXPIRY` makes it due; `OVERFLOW_MOVE` (13 R304) moves the
oldest record that some cask has room for; `IDLE_STEAL` (13 R308) takes the older half of the fullest cask into one of its
own, which is to launch at once; `ADOPTION_RETURN` (09 R235) gives the helper back its slot; `FUTURE_WAKE` (09 R234) and
`SPAWN_OVERFLOW_RETRY` (13 R307) let the groups that wait try again. Where the spec is short the model's choices are in log
entry 21. -/
def Obligations.TaskEventsHappen : Prop :=
  ∀ s : State,
    let c := s.subj.core
    let i := s.subj.cask
    let p := s.subj.part
    let d := s.subj.die
    (∀ v x, find (coreOf s c).casks i = some v →
      (launchOf s v.launch).rc.w ≤ v.recs.length ∨ (launchOf s v.launch).rc.age ≤ (coreOf s c).cycles - v.since
        ∨ 0 < v.stolen ∨ ((∃ r ∈ v.recs, ∃ b ∈ s.boosts, b.part = (launchOf s v.launch).part ∧ b.task = r.task)
          ∧ boostWaits s (coreOf s c) v = false) →
      coreShut s (launchOf s v.launch).part c = false → groupFits s c (launchOf s v.launch).rc = some x →
      exec .caskLaunch s = .next (formRecords (caskLeave s c i v (v.recs.drop (launchOf s v.launch).rc.w)) c x v.launch
        (v.recs.take (launchOf s v.launch).rc.w) none 0).2)
    ∧ (∀ v, find (coreOf s c).casks i = some v → (launchOf s v.launch).rc.age ≤ (coreOf s c).cycles - v.since →
        exec .caskAgeExpiry s = .next (send s .caskLaunch { core := c, cask := i }))
    ∧ (∀ r k j v, ringMove s p d = some (r, k, j, v) → exec .overflowMove s = .next (caskPut
        (modPart s p fun x => { x with ov := put x.ov d ((look x.ov d []).filter fun y => y != r) }) k j v [r]))
    ∧ (256 ≤ (coreOf s c).idle → (coreOf s c).casks = [] → coreBusy s c = false → ∀ k j v, mostFull s (partOfCore s c) (dieOf c) = some (k, j, v) →
        let n := ceilDiv v.recs.length 2
        let w : Cask := { launch := v.launch, entry := v.entry, since := (coreOf s c).cycles, stolen := n }
        let u := caskPut (caskLeave s k j v (v.recs.drop n)) c 0 w (v.recs.take n)
        exec .idleSteal s = .next (send u .caskLaunch { core := c, cask := 0 }))
    ∧ (∀ g, groupOf s s.subj.g = some g → g.outer.isSome = true → (g.run = .retired ∨ ∃ k, g.run = .out k) →
        exec .adoptionReturn s = .next (returnHelper (setGroup s s.subj.g { g with outer := none, depth := 0 }) g))
    ∧ (let named := s.groups.filter fun g => g.2.run == .out (some s.subj.pa)
      wakers s s.subj.pa ≠ [] ∨ named ≠ [] →
        let u := each (wakers s s.subj.pa) s unpark
        exec .futureWake s = .next (each named
          { u with boosts := u.boosts.filter (fun b => b.pa != s.subj.pa || futWord u s.subj.pa = b.word) } fun v g =>
            send v .teamPlacement { part := groupPart v g.2 }))
    ∧ (∀ g e, groupOf s s.subj.g = some g → g.run = .parked (.spawnRoom e) → wakes s g (.spawnRoom e) = true →
        exec .spawnOverflowRetry s = .next (unpark s s.subj.g))


/-! ### The Tasters -/

namespace Sys2Proof.Claims
open Sys2Proof.Machine

/-- The filter instructions that write one register, and its value (22 R395, R396). -/
def filterTable (f : FlF) (r : FlRun) : List (Instr × W32) :=
  let a := r.reg f.a
  let b := r.reg f.b
  let n := f.imm.toNat
  [(.filterSeti f, .ofNat 32 n), (.filterAdd f, .ofNat 32 (a.toNat + b.toNat)), (.filterAddi f, a + .ofInt 32 f.imm.toInt),
   (.filterSub f, .ofInt 32 ((a.toNat : Int) - b.toNat)), (.filterAnd f, a &&& b), (.filterAndi f, a &&& .ofNat 32 n), (.filterOr f, a ||| b),
   (.filterXor f, a ^^^ b), (.filterShli f, .ofNat 32 (a.toNat * 2 ^ n)), (.filterShri f, .ofNat 32 (a.toNat / 2 ^ n)),
   (.filterSltu f, if a.toNat < b.toNat then 1 else 0), (.filterCeqi f, if a.toNat = n then 1 else 0),
   (.filterLdf f, if n = 0 then r.ev.payload else if n = 1 then .ofNat 32 (r.ev.code % 2 ^ 9) else if n = 2 then .ofNat 32 (r.ev.source % 2 ^ 16)
      else .ofNat 32 (r.ev.tenant % 2 ^ 8)),
   (.filterHash f, let x := a ^^^ .ofNat 32 (n * 0x9E3779B9)
      let y := (x ^^^ .ofNat 32 (x.toNat / 2 ^ 16)) * 0x85EBCA6B
      let z := (y ^^^ .ofNat 32 (y.toNat / 2 ^ 13)) * 0xC2B2AE35
      z ^^^ .ofNat 32 (z.toNat / 2 ^ 16))]

/-- A filter instruction completes: the run has paid its cost and is at its next word, its slot holds `v`, and the rest of the machine is
as in `s`. -/
def filters (i : Instr) (s : State) (v : TSlot) (r : FlRun) (cost off : Nat) : Prop :=
  exec i s = .next { s with slots := put s.slots s.curSlot { v with cur := some { r with pc := r.pc + off, cost := r.cost + cost } } }

end Sys2Proof.Claims

/-- Each filter instruction (22 R394 to R399) does what the table of 22 R395 says and costs what it says. `END` ends the run. A branch
moves by its offset where it is taken. State indexes are taken modulo 2,048. `HINC` counts one bin, `CMS` one counter of each of four
rows, of which it returns the least, and `HLL` raises one byte; counts saturate. `TRIG` writes a record at the head of its ring,
and `SNAP` asks for a snapshot at the end of the run. -/
def Obligations.FilterResults : Prop :=
  ∀ (s : State) (v : TSlot) (r : FlRun) (f : FlF), slotOf s s.curSlot = v → v.cur = some r → r.ended = false →
    let a := r.reg f.a
    let n := f.imm.toNat
    let at_ (k : Nat) : Nat := k % 2048
    (∀ e ∈ filterTable f r, filters e.1 s v (r.set f.d e.2) 1 1)
    ∧ filters (.filterEnd f) s v { r with ended := true } 1 0
    ∧ (a = 0 → filters (.filterBz f) s v r 1 n ∧ filters (.filterBnz f) s v r 1 1)
    ∧ (a ≠ 0 → filters (.filterBz f) s v r 1 1 ∧ filters (.filterBnz f) s v r 1 n)
    ∧ filters (.filterJmp f) s v r 1 n
    ∧ filters (.filterLdw f) s v (r.set f.d (look v.state (at_ (n + a.toNat)) 0)) 1 1
    ∧ filters (.filterStw f) s { v with state := put v.state (at_ (n + a.toNat)) (r.reg f.d) } r 1 1
    ∧ (let i := at_ (n + min a.toNat (r.reg f.b).toNat)
      let c : W32 := .ofNat 32 (min ((look v.state i 0).toNat + 1) (2 ^ 32 - 1))
      filters (.filterHinc f) s { v with state := put v.state i c } (r.set f.d c) 1 1)
    ∧ (let i (j : Nat) : Nat := at_ (n + 256 * j + (tasterHash a (.ofNat 32 j)).toNat % 256)
      let c (j : Nat) : Nat := min ((look v.state (i j) 0).toNat + 1) (2 ^ 32 - 1)
      ∃ st, filters (.filterCms f) s { v with state := st } (r.set f.d (.ofNat 32 (min (c 0) (min (c 1) (min (c 2) (c 3)))))) 4 1
        ∧ (∀ j < 4, (look st (i j) 0).toNat = c j)
        ∧ ∀ k, (∀ j < 4, k ≠ i j) → look st k 0 = look v.state k 0)
    ∧ (let h := (tasterHash a 0).toNat
      let i := at_ (n + h % 256 / 4)
      let old (w : W32) (k : Nat) : Nat := w.toNat / 256 ^ k % 256
      ∃ w, filters (.filterHll f) s { v with state := put v.state i w } r 1 1
        ∧ ∀ k < 4, old w k = if k = h % 256 % 4 then max (old (look v.state i 0) k) (1 + leading24 (h / 256)) else old (look v.state i 0) k)
    ∧ (let u := if v.irq then { s with msix := s.msix ++ [(if v.owner = 0xFF then none else some v.owner, 1)] } else s
      exec (.filterTrig f) s = .next { u with slots := put s.slots s.curSlot { v with
        ring := put v.ring (v.head % 64) (trigBytes v r f), head := (v.head + 1) % 2 ^ 64, triggers := (v.triggers + 1) % 2 ^ 64
        cur := some { r with pc := r.pc + 1, cost := r.cost + 1 } } })
    ∧ filters (.filterSnap f) s v { r with snap := true, zero := r.zero || f.imm = 1 } 1 1


/-- The events of the Tasters (22 R386 to R399). An event that arrives counts the gap in its source's sequence as lost and is
offered to the die's 16 slots, each of which queues it where it accepts it, to a depth of 64. A run starts where its budget
holds its worst cost, which is deducted, and otherwise drops the event; its end refunds what it did not spend unless a window
began since, and begins the snapshot it asked for. A budget window sets every balance to its budget; a snapshot copy takes
2,048 cycles, one word in each.

A write of the host to a register window (21 R372, 22 R388 to R393). `SCTL` starts a slot whose program is accepted and leaves
the status of the first word that is not; it stops one, dropping its queue; `SOWN` zeroes a slot and binds it anew, at once or
after its run. The physical function writes budgets and its request, and a virtual function's doorbell rings its queue; state
and program take writes only while the slot is stopped. Where the spec is short the model's choices are in log entry 29. -/
def Obligations.TasterEventsHappen : Prop :=
  (∀ s : State,
    let d := s.subj.die
    let i := s.subj.slot
    let v := slotOf s i
    let t := tasterOf s d
    -- arrival
    (∀ (die : Nat) (e : TEvent), die < 4 → (tasterOf s die).stopped = false →
      let gap := (e.seq + 256 - look (tasterOf s die).expect e.source 0 % 256) % 256
      exec (.tasterEventArrival die e) s = .next (each (List.range 16) (modTaster s die fun t => { t with
        expect := put t.expect e.source ((e.seq + 1) % 256), lost := (t.lost + gap) % 2 ^ 64 }) fun u k => offer u (16 * die + k) e))
    ∧ (∀ (u : State) (k : Nat) (e : TEvent),
        let x := slotOf u k
        (accepts x e = true ↔ x.run = true ∧ x.bound = true ∧ (x.owner = 0xFF ∨ x.owner = e.tenant) ∧ x.kinds.testBit (e.source / 4096) = true
          ∧ x.low ≤ e.code ∧ e.code ≤ x.high)
        ∧ (accepts x e = false → offer u k e = u)
        ∧ (accepts x e = true → slotOf (offer u k e) k = if 64 ≤ x.queue.length then { x with qdrops := (x.qdrops + 1) % 2 ^ 64 }
            else { x with queue := x.queue ++ [e], accepted := (x.accepted + 1) % 2 ^ 64 }))
    -- runs
    ∧ (slotAt d i = true → ∀ e rest, v.queue = e :: rest → v.cur = none → v.copying = none → v.nextOwner = none →
        let k := if v.owner = 0xFF then 128 else v.owner
        let b := look t.balance k 0
        (v.worst ≤ b → ∃ u, exec .filterRunStart s = .next u ∧ look (tasterOf u d).balance k 0 = b - v.worst
          ∧ slotOf u i = { v with queue := rest, cur := some { code := (List.range v.len).map fun n => look v.prog n 0
                                                               ev := e, held := v.worst, window := t.windows } })
        ∧ (b < v.worst → ∃ u, exec .filterRunStart s = .next u ∧ slotOf u i = { v with queue := rest, bdrops := (v.bdrops + 1) % 2 ^ 64 }
          ∧ look (tasterOf u d).drops k 0 = (look t.drops k 0 + 1) % 2 ^ 64 ∧ look (tasterOf u d).balance k 0 = b))
    ∧ (slotAt d i = true → ∀ r, v.cur = some r → (r.ended = true ∨ r.code.length ≤ r.pc) →
        let k := if v.owner = 0xFF then 128 else v.owner
        ∃ u, exec .filterRunEnd s = .next u
          ∧ look (tasterOf u d).balance k 0 = (if t.windows = r.window then look t.balance k 0 + (r.held - r.cost) else look t.balance k 0)
          ∧ (∀ o, v.nextOwner = some o → slotOf u i = { owner := o % 256, bound := o.testBit 8 })
          ∧ (v.nextOwner = none →
            let x : TSlot := { v with cur := none, runs := (v.runs + 1) % 2 ^ 64 }
            slotOf u i = if r.snap then { x with snapSeq := (v.snapSeq + 1) % 2 ^ 64, copying := some r.zero, copyFrom := t.cycles, copied := 0 } else x))
    ∧ (d < 4 → t.windows * 2 ^ 20 ≤ t.cycles → ∃ u, exec .tasterBudgetWindow s = .next u
        ∧ tasterOf u d = { t with windows := t.windows + 1, balance := t.budget })
    ∧ (slotAt d i = true → ∀ z, v.copying = some z → v.copyFrom + 2048 ≤ t.cycles → ∃ u, exec .snapshotCopyComplete s = .next u
        ∧ (∃ m, slotOf u i = { v with snap := m, copied := max v.copied 2048, state := if z then [] else v.state
                                      snapSeq := (v.snapSeq + 1) % 2 ^ 64, copying := none })
        ∧ ∀ k < 2048, look (slotOf u i).snap k 0 = if k < v.copied then look v.snap k 0 else look v.state k 0))
  ∧ (∀ (s : State) (die i : Nat) (w : Word),
    let v := slotOf s i
    let len := bits w.toNat 13 8
    let code := (List.range len).map fun k => look v.prog k 0
    (slotAt die i = true → v.run = false → w.getLsbD 0 = true →
      (len = 0 ∨ 48 < len → exec (.sctlStart die i w) s = .next (modSlot s i fun v => { v with status := 1, failWord := 0 }))
      ∧ (1 ≤ len → len ≤ 48 →
        (∀ n k, firstFail len code = some (n, k) →
          exec (.sctlStart die i w) s = .next (modSlot s i fun v => { v with status := k, failWord := n }))
        ∧ (firstFail len code = none → ∃ u, exec (.sctlStart die i w) s = .next u
          ∧ slotOf u i = { v with
            kinds := bits w.toNat 63 48, high := bits w.toNat 40 32, low := bits w.toNat 24 16, len := len, irq := w.getLsbD 1, run := true
            status := 0, failWord := 0, worst := worstCost code, accepted := 0, qdrops := 0, bdrops := 0, runs := 0, triggers := 0
            head := 0, ring := [], snapSeq := 0 })))
    ∧ (slotAt die i = true → w.getLsbD 0 = false → ∃ u, exec (.sctlStop die i w) s = .next u ∧ slotOf u i = { v with run := false, queue := [] })
    ∧ (slotAt die i = true → ∃ u, exec (.sownWrite die i w) s = .next u ∧ slotOf u i =
        if v.cur = none then { owner := w.toNat % 256, bound := w.getLsbD 8 }
        else { v with run := false, queue := [], nextOwner := some w.toNat })
    ∧ ∀ r : RegWrite,
        (r.fn = none → r.bar = 0 → exec (.registerWrite r) s = .next (writeControl r s))
        ∧ (∀ vf, r.fn = some vf → r.bar = 0 → vf < 128 → s.boot.stage = 5 → r.size = 8 → r.off % 8 = 0 → r.off < 128 →
            exec (.registerWrite r) s = execQueueDoorbell vf (r.off / 8) r.value s)
        ∧ (r.bar = 2 → tasterShown s r.fn = true → r.off < 0x200000 →
            let n := r.off / 0x8000
            let o := r.off % 0x8000
            let x := slotOf s n
            (r.fn = none ∨ (x.bound = true ∧ r.fn = some x.owner)) →
              (x.run = false → (r.size = 4 ∨ r.size = 8) → o % r.size = 0 → o < 0x20C0 → ∃ u, exec (.registerWrite r) s = .next u
                ∧ (o < 0x2000 → ∀ j < r.size / 4, look (slotOf u n).state (o / 4 + j) 0 = r.value.extractLsb' (32 * j) 32)
                ∧ (0x2000 ≤ o → ∀ j < r.size / 4, look (slotOf u n).prog ((o - 0x2000) / 4 + j) 0 = r.value.extractLsb' (32 * j) 32))
              ∧ (r.size = 8 → o = 0x2100 → exec (.registerWrite r) s = if r.value.getLsbD 0 = false then exec (.sctlStop (n / 16) n r.value) s
                  else if x.run = true then .next s else exec (.sctlStart (n / 16) n r.value) s)
              ∧ (r.size = 8 → o = 0x2180 → r.fn = none → exec (.registerWrite r) s = exec (.sownWrite (n / 16) n r.value) s))
        ∧ (r.fn = none → r.bar = 2 → s.boot.failed = 0 → 0x200000 ≤ r.off → r.off < 0x208000 → r.size = 8 → (r.off - 0x200000) % 0x2000 ≤ 0x400 → r.off % 8 = 0 →
            exec (.registerWrite r) s = .next (modTaster s ((r.off - 0x200000) / 0x2000) fun t => { t with
              budget := put t.budget ((r.off - 0x200000) % 0x2000 / 8) (r.value.toNat % 2 ^ 32) })))


/-! ### Coherence -/

/-- The messages of near caches (10 R255, R261, 12 R285 to R288, 15 R317, 16 R320, 18 R326, R327). A miss is served by the
die's slice as its state allows, and otherwise asks the home; a fill is installed before it serves any window, unless the
core's own bytes or a later write stand in its way, and serves without being kept where the core holds the line pending; a
grant puts the line into the core exclusively, keeping its dirty bytes; a recall takes it back; a write-back is taken, whole
or one sector first, once no earlier one of its line is on its way and the line is between no two states, and its
acknowledgement raises the core's observed vintage, as that of an operation at a home raises `%rv` too; so do prefetches bring
lines in and name them. Where the spec is short the model's choices are in log entries 14 and 16. -/
def Obligations.NearCacheEventsHappen : Prop :=
  ∀ s : State,
    let c := s.subj.core
    let la := s.subj.la
    let p := look s.prefP s.subj.channel {}
    (∀ r : LineReq, wbInFlight s r.core r.la = false → granting s (localDie s r.core r.la) r.la = false →
      let d := localDie s r.core r.la
      let u := demandAt s (localSlice s (dieOf r.core) r.la) r.la r.slot r.tenant false
      let ask : Instr := if r.kind = .exclusive then .homeReadExclusive d r else .homeRead d r
      (d = homeDie u r.la → exec (.nearCacheMiss r) s = .next (send u ask))
      ∧ (d ≠ homeDie u r.la →
        (find (lineSt u r.la).copies d = none → exec (.nearCacheMiss r) s = .next (send u ask))
        ∧ ∀ k, find (lineSt u r.la).copies d = some k →
          (k.slot ≠ r.slot → exec (.nearCacheMiss r) s = .next (send u ask))
          ∧ (k.slot = r.slot → r.kind = .exclusive → (k.st = .m ∨ k.st = .e) → exec (.nearCacheMiss r) s = .next (send
              (dirSync (modLine u r.la fun l => { l with copies := put l.copies d { k with st := .m } }) r.la) (.exclusiveGrant d r)))
          ∧ (k.slot = r.slot → r.kind = .exclusive → (k.st = .o ∨ k.st = .s) →
              exec (.nearCacheMiss r) s = .next (send u (.homeUpgrade d r)))
          ∧ (k.slot = r.slot → r.kind ≠ .exclusive → (k.st = .m ∨ k.st = .e) →
              let v := modLine (recallDie u d r.la) r.la fun l => grantLease (recallDie u d r.la) l r.la r.rv
              exec (.nearCacheMiss r) s = .next (reply v r (look (lineSt v r.la).copies d {}).data (lineSt v r.la).wv (lineSt v r.la).le))
          ∧ (k.slot = r.slot → r.kind ≠ .exclusive → (k.st = .o ∨ k.st = .s) →
              exec (.nearCacheMiss r) s = .next (if r.rv ≤ k.le then reply u r k.data k.wv k.le else send u ask))))
    ∧ (∀ r data wv le, let u := observe s r.core wv
      (r.kind = .constant → exec (.nearCacheFill r data wv le) s = .next (serveCore
        (install u r.core (constKey r.la) { st := .constant, data := data, slot := r.slot, wv := wv, le := le }) r.core r.la .constant 0))
      ∧ (r.kind ≠ .constant →
        let own := ∃ n, nearLine u r.core r.la = some n ∧ n.slot = r.slot ∧ (n.st = .dirty ∨ n.st = .exclusive)
        ((own ∨ wv ≠ (lineSt u r.la).wv ∨ wbInFlight u r.core r.la = true) →
          exec (.nearCacheFill r data wv le) s = .next (serveCore u r.core r.la .leased 0))
        ∧ (¬own → wv = (lineSt u r.la).wv → wbInFlight u r.core r.la = false →
          let v := dropOther u r.core r.la r.slot
          ((∃ q ∈ (coreOf v r.core).pend, q.la = r.la) → exec (.nearCacheFill r data wv le) s
            = .next (serveCore v r.core r.la .leased 0 (some (r.la, r.slot, data, wv))))
          ∧ ((∀ q ∈ (coreOf v r.core).pend, q.la ≠ r.la) → exec (.nearCacheFill r data wv le) s = .next (serveCore
            (install v r.core r.la { st := .leased, data := data, slot := r.slot, wv := wv, le := le }) r.core r.la .leased 0)))))
    ∧ (∀ die (r : LineReq),
      let u := dropOther (each ((exclCores s r.la).filter fun c => c != r.core) s fun s c => recallNear s r.la c) r.core r.la r.slot
      let v := fillHome (landFlights u (some r.core) r.la) r.la r.slot
      let l := lineSt v r.la
      let base := if die = homeDie v r.la then homeData v r.la r.slot else (look l.copies die {}).data
      let goes (n : NcLine) : Prop := exec (.exclusiveGrant die r) s = .next (serveLine
        (serveCore (observe (install v r.core r.la n) r.core l.wv) r.core r.la .exclusive l.wv) r.la)
      (nearLine v r.core r.la = none → goes { st := .exclusive, data := base, slot := r.slot, wv := l.wv, le := l.le })
      ∧ ∀ o, nearLine v r.core r.la = some o →
        (o.isDirty = true → goes { o with st := .exclusive, data := mergeLine base o.data o.mask, wv := l.wv, le := l.le })
        ∧ (o.isDirty = false → goes { o with
            st := .exclusive, data := if o.st = .exclusive then o.data else base, mask := 0, wv := l.wv, le := l.le }))
    ∧ (c ∈ exclCores s la → exec .nearCacheRecall s = .next (recallNear s la c))
    ∧ (∀ m : WbMsg, wbWaits s m = false → ∀ cut u, takeSplit s = (cut, u) →
        let now := if cut then firstSector m.mask else m.mask
        let r := performMsg u { m with mask := now }
        (now = m.mask → exec (.nearCacheWriteback m) s = .next (send r.2 (.writebackAck m r.1)))
        ∧ (now ≠ m.mask → exec (.nearCacheWriteback m) s = .next (send r.2 (.nearCacheWriteback { m with mask := m.mask &&& ~~~now }))))
    ∧ (∀ m wv,
        let a := observe s m.core wv
        let u := match m.grp with
          | some h => ackOut a h m.id
          | none => a
        (coreOf u m.core).moving = none → exec (.writebackAck m wv) s = .next (drained { u with lines := u.lines.map fun x => (x.1,
          match x.2.busy with
          | .acquire d cores v => if cores.contains m.core then { x.2 with busy := .acquire d cores (max v wv) } else x.2
          | _ => x.2) } m.core))
    ∧ (let u := ackOut s s.subj.g s.subj.n
      let v := s.subj.va
      (v = 0 → exec .storeAck s = .next u)
      ∧ (v ≠ 0 → exec .storeAck s = .next (observe (modCtx u s.subj.g fun x => { x with rv := max x.rv v }) c v)))
    ∧ exec .coreDrain s = .next (drained (drainCore s c none (some la)) c)
    ∧ (channelOf la = s.subj.channel → (lineSt s la).poison = false → find p.buffer la = none →
        p.used + p.late + p.evicted + p.buffer.length < p.issued →
        (p.buffer.length < 64 → exec .pressPrefetch s = .next (modPrefP s s.subj.channel fun p => { p with buffer := p.buffer ++ [(la, s.subj.tenant)] }))
        ∧ ∀ old rest, p.buffer = old :: rest → 64 ≤ p.buffer.length → ∃ u, exec .pressPrefetch s = .next u
          ∧ look u.prefP s.subj.channel {} = { p with evicted := p.evicted + 1, buffer := rest ++ [(la, s.subj.tenant)] })

/-- The home's part (10 R266, 12 R289 to R302, 18 R327): every request is queued at its line and served in turn while the line
is in no transient state, a release or reduction after its group's earlier ones, an acquire after its core's own write-back.
Forwards and invalidations take the copies of other dies; their answers, a write-back that crosses them, and a fill end the
transient state they belong to; so do the census of a wide entry's dies and the drains of an acquire or release. Sibling
entries merge, a slice gives up lines, and, once nothing is outstanding, a rebase sets every vintage of a partition to zero.
Where the spec is short the model's choices are in log entries 11, 14 and 16. -/
def Obligations.HomeEventsHappen : Prop :=
  ∀ s : State,
    let die := s.subj.die
    let la := s.subj.la
    let l := lineSt s la
    let drop (u : State) : State := modLine u la fun l => { l with copies := del l.copies die }
    -- arrivals
    (∀ d r, exec (.homeRead d r) s = .next (arrive s r.la ⟨.homeRead d r, s.subj⟩)
      ∧ exec (.homeReadExclusive d r) s = .next (arrive s r.la ⟨.homeReadExclusive d r, s.subj⟩)
      ∧ exec (.homeUpgrade d r) s = .next (arrive s r.la ⟨.homeUpgrade d r, s.subj⟩))
    ∧ (∀ m, olderAtHome s m.g m.la m.id = false → exec (.homeRelease m) s = .next (arrive s m.la ⟨.homeRelease m, s.subj⟩))
    ∧ (∀ m, olderAtHome s m.g m.la m.id = false → exec (.homeAtomic m) s = .next (arrive s m.la ⟨.homeAtomic m, s.subj⟩))
    ∧ (∀ m, wbInFlight s m.core m.la = false → exec (.homeAcquire m) s = .next (arrive s m.la ⟨.homeAcquire m, s.subj⟩))
    ∧ (∀ n d, lineReady s n = true → (lineSt s n).queue = [] →
        arrive s n d = pump 1 (homeStart (modLine (modLine s n fun l => { l with queue := l.queue ++ [d] }) n fun l => { l with queue := [] }) d) n)
    ∧ (∀ n d, lineReady s n = false → arrive s n d = modLine s n fun l => { l with queue := l.queue ++ [d] })
    -- forwards and invalidations
    ∧ (granting s die la = false →
      let u := recallDie s die la
      (find (lineSt u la).copies die = none → exec .forwardShared s = .next (send u .noDataReply { die := die, la := la })
        ∧ exec .forwardExclusive s = .next (send u .noDataReply { die := die, la := la }))
      ∧ (∀ k, find (lineSt u la).copies die = some k →
        exec .forwardShared s = .next (send (modLine u la fun l => { l with
            copies := put l.copies die { k with st := if k.st == .e then .s else .o, wv := l.wv, le := l.le } })
          (.forwardReply die la k.data (k.st == .m || k.st == .o)))
        ∧ exec .forwardExclusive s = .next (send (drop (unused u la)) (.forwardReply die la k.data (k.st == .m || k.st == .o))))
      ∧ exec .invalidation s = .next (send (drop (if (find l.copies die).isSome then unused s la else s))
          .invalidationAck { die := die, la := la }))
    ∧ (∀ n o data dirty,
        let u := dirSync (absorb s n data dirty) n
        (∀ d, (lineSt s n).busy = .fw d o → exec (.forwardReply o n data dirty) s = .next (resumeReq u d [] none n))
        ∧ ∀ d acks, (lineSt s n).busy = .rx d acks (some o) → exec (.forwardReply o n data dirty) s = .next (resumeReq u d acks none n))
    ∧ (sliceWbInFlight s die la = false →
        (∀ d acks, l.busy = .wb d die acks → exec .noDataReply s = .next (resumeReq s d acks none la))
        ∧ (∀ d, l.busy = .fw d die → exec .noDataReply s = .next (resumeReq (fillHome (dirSync s la) la (lineSt s la).slot) d [] none la))
        ∧ ∀ d acks, l.busy = .rx d acks (some die) → exec .noDataReply s = .next (resumeReq (dirSync s la) d acks none la))
    ∧ (∀ d acks,
        (∀ x r, d.ev = .homeUpgrade x r → l.busy = .up d acks → exec .invalidationAck s = .next
          (if acks.erase die = [] then endBusy s la fun s => answerExcl s x r else setBusy s la (.up d (acks.erase die))))
        ∧ (∀ fwd, l.busy = .rx d acks fwd → exec .invalidationAck s = .next (resumeReq s d (acks.erase die) fwd la))
        ∧ ∀ o, l.busy = .wb d o acks → exec .invalidationAck s = .next (setBusy s la (.wb d o (acks.erase die))))
    -- write-backs of slices, fills, recalls
    ∧ (∀ x n data st,
        let a := if st == .m || st == .o then absorb s n data true else s
        let u := dirEvent (dirSync a n) n
        let enters (d : Due) (acks : List Nat) : Prop :=
          exec (.sliceWriteback x n data st) s = .next (post (setBusy u n (.wb d x acks)) 0x122 1 (homeSlice u n) 0xFF (.ofNat 32 x))
        (∀ d, (lineSt u n).busy = .fw d x → enters d [])
        ∧ (∀ d acks, (lineSt u n).busy = .rx d acks (some x) → enters d acks)
        ∧ ((lineSt u n).busy = .idle → exec (.sliceWriteback x n data st) s = .next (serveLine u n)))
    ∧ (granting s die la = false → sliceAsked s die la = false →
        (die = homeDie s la → lineReady s la = true → l.home ≠ none → exclCores s la = [] →
          exec .sliceEviction s = .next (dropSliceLine s die la))
        ∧ (die ≠ homeDie s la → ∀ k, find l.copies die = some k →
          exec .sliceEviction s = .next (dropSliceLine (if k.st = .m ∨ k.st = .e then recallDie s die la else s) die la))
        ∧ (∀ u : State, die ≠ homeDie (unused u la) la → ∀ k, find (lineSt (unused u la) la).copies die = some k →
          dropSliceLine u die la = if k.st = .s then drop (unused u la) else send (drop (unused u la)) (.sliceWriteback die la k.data k.st))
        ∧ (lineReady s la = true → ∀ k, find l.copies die = some k →
          let u := recallDie s die la
          let k' := look (lineSt u la).copies die {}
          let v := fillHome u la k'.slot
          let w := if k'.st == .m || k'.st == .o then absorb v la k'.data true else v
          exec .sliceRecall s = .next (dirEvent (dirSync (drop (unused w la)) la) la)))
    ∧ ((∀ d, l.busy = .fill d → exec .fillFromMemory s = .next (endBusy (fillHome s la s.subj.slot) la fun s => homeStart s d))
      ∧ (l.busy = .idle → exec .fillFromMemory s = .next (fillHome s la s.subj.slot)))
    ∧ (∀ x, l.pf = some (x, s.subj.slice, false) → l.poison = false →
        let u := modLine s la fun l => { l with pf := some (x, s.subj.slice, true) }
        lineReady s la = true → s.subj.slice / 64 = homeDie u la → exec .slicePrefetch s = .next (fillHome u la s.subj.slot))
    -- directory entries
    ∧ (dirAt s la = none → exec .directoryCensus s = .next (send s (.censusReply s.subj.part la die false false)))
    ∧ (∀ n d x dies lo up low high, (lineSt s n).busy = .census d dies lo up → x ∈ dies →
        let lo' := if low then lo ++ [x] else lo
        let up' := if high then up ++ [x] else up
        (dies.erase x ≠ [] → exec (.censusReply (partOfLine s n) n x low high) s = .next (setBusy s n (.census d (dies.erase x) lo' up')))
        ∧ (dies.erase x = [] → ∀ e, dirAt s n = some e → exec (.censusReply (partOfLine s n) n x low high) s = .next (endBusy
            (post (let u := entryRoom s e.slice e.base
              { u with dir := (u.dir.filter fun x => !(x.slice = e.slice && x.base = e.base && x.span = e.span))
                  ++ [halfEntry e false lo', halfEntry e true up'] }) 0x120 1 e.slice 0xFF (.ofNat 32 (e.span - 1))) n fun s => homeStart s d)))
    ∧ (∀ e x, dirAt s la = some e →
        let base := e.base / 2 ^ (e.span + 1) * 2 ^ (e.span + 1)
        let sib := if e.base = base then e.base + 2 ^ e.span else base
        (s.dir.find? fun x => x.slice = e.slice && x.base = sib && x.span = e.span) = some x →
        s.subj.part = partOfLine s la → e.span < 9 → 65536 ≤ e.events + x.events → e.owner = x.owner → e.sharers = x.sharers →
        spanIdle s e = true → spanIdle s x = true →
          let m : DirEnt := { e with base := base, span := e.span + 1, events := 0, use := max e.use x.use }
          exec .directoryMerge s = .next (post { s with dir := (s.dir.filter fun y => y != e && y != x) ++ [m] }
            0x121 1 e.slice 0xFF (.ofNat 32 m.span)))
    -- drains and the rebase
    ∧ (∀ d m v, l.busy = .acquire d [] v → d.ev = .homeAcquire m → exec .drainComplete s = .next (endBusy s la fun s => finishAcquire s m v))
    ∧ (∀ d m k, l.busy = .release d k → d.ev = .homeRelease m → exec .drainComplete s
        = .next (endBusy (modLine s la fun l => { l with
            wv := max l.wv (coreOf s k).obsv, le := max l.le (max l.wv (coreOf s k).obsv), recs := l.recs.drop 1 }) la
              fun s => performRelease s m))
    ∧ (rebaseDue s s.subj.part = true → partQuiet s s.subj.part = true → ∃ u, exec .vintageRebase s = .next u
        ∧ (∀ h g, groupOf u h = some g → groupPart s g = s.subj.part → g.ctx.rv = 0)
        ∧ ∀ n, partOfLine s n = s.subj.part → (lineSt u n).wv = 0 ∧ (lineSt u n).le = 0)


/-! ### Launches and placement -/

/-- The dispatcher's events (10 R257 to R260, 19 R330 to R342, 19 R346, 02 R44, R46, 20 R350, R362). A descriptor that breaks
a limit makes no queue, and a doorbell too far ahead only marks the report. The record at a queue's head is rejected with the
least failing offset, or becomes a launch in the lowest free slot. The first item of the order is placed, or a core is
designated for it, or, until it has been first too long, the next item that fits is placed. A launch that is over completes
with its record, once what its cores hold dirty under lazy release is home. Tokens begin a period, are drawn and lent; a
removed core leaves; near SRAM is split anew block by block. A wait that is over ends, and a team that is quiet is saved, or
killed for its fault. Where the spec is short the model's choices are in log entries 22 to 24. -/
def Obligations.LaunchEventsHappen : Prop :=
  ∀ s : State,
    let c := s.subj.core
    let p := s.subj.part
    let k := coreOf s c
    -- queues
    (∀ vf q desc, desc.length = 64 → vf < 128 → q < 16 →
      let x := look s.vfs vf {}
      let log := field desc 8 1
      let ok := field desc 0 8 % 256 = 0 ∧ 4 ≤ log ∧ log ≤ 16 ∧ field desc 9 1 < 64 ∧ field desc 10 1 < 128 ∧ field desc 11 5 = 0
        ∧ field desc 16 8 % 8 = 0 ∧ field desc 24 40 = 0
      let v : Queue := { base := field desc 0 8, log := log, part := field desc 9 1, tenant := field desc 10 1, report := field desc 16 8 }
      (ok → exec (.createQueue vf q desc) s = .next { s with vfs := put s.vfs vf { x with queues := put x.queues q v } })
      ∧ (¬ok → exec (.createQueue vf q desc) s = .next s))
    ∧ (s.boot.stage = 5 → ∀ vf q (tail : Word),
        let t := tail.toNat % 2 ^ 32
        (queueOf s vf q = none → exec (.queueDoorbell vf q tail) s = .next s)
        ∧ ∀ v, queueOf s vf q = some v →
          (2 ^ v.log < (t + 2 ^ 32 - v.head) % 2 ^ 32 →
            exec (.queueDoorbell vf q tail) s = .next (writeReport (modQueue s vf q fun v => { v with overrun := true }) vf q))
          ∧ ((t + 2 ^ 32 - v.head) % 2 ^ 32 ≤ 2 ^ v.log → ∃ u, exec (.queueDoorbell vf q tail) s = .next u
            ∧ queueOf u vf q = some { v with tail := t }))
    ∧ (∀ v l bs u, queueOf s s.subj.vf s.subj.q = some v → (find s.parts v.part).isSome = true →
        cpSpans s s.subj.vf v.part (v.base + 256 * (v.head % 2 ^ v.log)) 256 .read = some l →
        turnQueue s v.part = some (s.subj.vf, s.subj.q) → spansReady s l = true → spansRead s l = (bs, u) →
        ∀ slot, freeSlot s v.part = some slot →
        (∀ off, least (recBad bs) = some off → ∃ t, exec .launchRecordTake s = .next t ∧ t.launches = u.launches)
        ∧ (recBad bs = [] → ∃ t, exec .launchRecordTake s = .next t
          ∧ t.launches = put u.launches u.nextId { part := v.part, slot := slot, vf := s.subj.vf, q := s.subj.q, tenant := v.tenant, rc := parseRec bs, accepted := u.accepted }
          ∧ t.accepted = u.accepted + 1))
    -- placement and completion
    ∧ (∀ u, dispatch (noteFirst s p (order s p)) p = some u → exec .teamPlacement s
        = .next (send (noteFirst (moveSplits u p) p (order (moveSplits u p) p)) .teamPlacement { part := p }))
    ∧ (∀ (a : State) (i : Item) (l : List Item), order a p = i :: l →
        (∀ u, placeItem a p i = some u → dispatch a p = some u)
        ∧ (placeItem a p i = none → ∀ u, designate a p i = some u → dispatch a p = some u)
        ∧ (placeItem a p i = none → designate a p i = none →
            dispatch a p = if held a p then none else l.findSome? fun j => placeItem a p j))
    ∧ ((partOf s p).firstTeam.isSome = true → (partOf s p).hold = false → 2 ^ 20 ≤ s.sched - (partOf s p).firstSince →
        exec .placementHoldExpiry s = .next (modPart s p fun v => { v with hold := true }))
    ∧ (∀ l, find s.launches s.subj.launch = some l →
        ((order s l.part).head? = some (.coop s.subj.launch) → l.next = 0 → (partOf s l.part).cores.length < l.rc.coop →
          exec .cooperativeCancel s = .next (send (modLaunch s s.subj.launch fun l => { l with cancelled := true })
            .launchCompletion { launch := s.subj.launch }))
        ∧ (l.done = false → (l.cancelled = true ∨ launchOver s s.subj.launch l = true) →
            let ran := (partOf s l.part).cores.filter l.ran.contains
            (∀ j ∈ ran, canClean s j = true) →
            let a := dropConstants (cleanCores s ran) l.part
            let b := writeCompletion a l.vf l.q l.part l.rc.compl (completionBytes a s.subj.launch l)
            let d := modLaunch b s.subj.launch fun l => { l with done := true }
            let e := match turnQueue d l.part with
              | some (vf, q) => send d .launchRecordTake { vf := vf, q := q }
              | none => d
            exec .launchCompletion s = .next (send (each (partOf (resumeResize e l.part) l.part).removing (resumeResize e l.part) fun s c =>
              send s .coreLeave { part := l.part, core := c }) .teamPlacement { part := l.part })))
    ∧ (let tm := teamOf s s.subj.team
      (tm.st = .retired ∨ tm.st = .killed ∨ tm.st = .waiting) → (tm.granules ≠ [] ∨ tm.tas = true) →
      (∀ x ∈ s.cmds, x.2.team = s.subj.team → usesTeam x.2 = false) → exec .granuleRelease s = .next (moveSplits (send (send
          (modTeam (freeTeam s s.subj.team) s.subj.team fun tm => { tm with granules := [], tas := false, scratch := [], absent := [] })
          .launchCompletion { launch := tm.launch }) .teamPlacement { part := (launchOf s tm.launch).part }) (launchOf s tm.launch).part))
    -- tokens
    ∧ (∀ v, find s.parts p = some v → v.period ≤ s.sched / 2 ^ 20 → exec .tokenPeriodStart s = .next (startPeriod s p))
    ∧ (look k.tokens s.subj.tenant 0 = 0 → look (coreOf (drawGrant s c s.subj.tenant) c).tokens s.subj.tenant 0 ≠ 0 →
        exec .tokenGrantDraw s = .next (drawGrant s c s.subj.tenant))
    ∧ (let x := look (partOf s p).tenants s.subj.tenant {}
      2 ^ 14 ≤ x.idle → x.balance ≠ 0 → ∃ u, exec .tenantIdle s = .next u ∧ u = { s with due := u.due })
    -- cores
    ∧ (let v := partOf s p
      let recs := (k.casks.map fun k => k.2.recs).flatten
      c ∈ v.removing → seats s c = [] → (∀ t ∈ s.teams, ∀ g ∈ t.2.granules, g.1 ≠ c) → canDrain s c = true →
      (look v.ov (dieOf c) []).length + recs.length ≤ 2 ^ v.ovLog → ∃ u, exec .coreLeave s = .next (endResize (modPart u p fun v => { v with
          cores := v.cores.filter (· != c), removing := v.removing.filter (· != c)
          designated := match v.designated with
            | some (d, l, n) => if d = c then none else some (d, l, n)
            | none => none }) p)
        ∧ coreOf u c = { coreOf u c with near := [], tlb := [], casks := [], tokens := [], target := 0, blocks := [] })
    ∧ (k.moving = none → k.target < k.blocks.length → ∀ b, ((List.range 12).filter k.blocks.contains).find? (fun b => !k.granules.any fun g => g.1 / 32 = b) = some b →
        ∃ u, exec .splitScratchToCache s = .next u ∧ coreOf u c = { k with blocks := k.blocks.erase b })
    ∧ (k.moving = none → k.blocks.length < k.target → ∀ b, (List.range 12).reverse.find? (fun b => !k.blocks.contains b) = some b →
        exec .splitCacheToScratch s = .next (send (emptyBlock (modCore s c fun k => { k with moving := some b }) c b) .splitCacheToScratch { core := c }))
    ∧ (∀ b, k.moving = some b → coreQuiet s c = true → ∃ u, exec .splitCacheToScratch s = .next u
        ∧ coreOf u c = { k with moving := none, blocks := k.blocks ++ [b] })
    -- waits
    ∧ (∀ g, groupOf s s.subj.g = some g →
        (∀ n m, g.run = .parked (.yielding n m) → wakes s g (.yielding n m) = true → exec .yieldExpiry s = .next (unpark s s.subj.g))
        ∧ (∀ l, g.run = .parked (.scratch l) → wakes s g (.scratch l) = true → exec .parkedScratchAccess s = .next (unpark s s.subj.g)))
    ∧ (∀ h rest g n, k.regQueue = h :: rest → groupOf s h = some g → g.run = .parked (.regs n) → rowsServe s h g n = true →
        ∃ u m, exec .registerGrant s = .next u ∧ (coreOf u c).regQueue = rest ∧ groupOf u h = some { g with run := .ready, grant := m }
          ∧ m = n - ownShare s g)
    ∧ (∀ h t, evictionDue s c = some (h, t) →
        exec .registerParkEviction s = .next (beginSave (modGroup s h fun g => { g with parkedAt := g.parkedAt + 65536 }) t true))
    -- saves and kills
    ∧ (∀ t evict,
        let tm := teamOf s t
        let hs := saveGroups s t
        let u := each hs s fun s h => settleRegion s h evict
        let part := (launchOf s tm.launch).part
        tm.saving = some evict → tm.st = .resident → (∀ h ∈ hs, groupQuiet s h = true) → cmdsQuiet s t = true → hs ≠ [] →
        poolUsed s part + (teamBytes u t + (hs.map (groupBytesNow u)).sum) + (if s.mgmt.list.contains t then 0 else poolKept s part)
          ≤ (partOf s part).poolLen →
        (∀ j ∈ (teamCores tm ++ hs.filterMap fun h => (groupOf s h).map (·.core)).eraseDups, canDrain u j = true) →
        exec (.teamSave t evict) s = .next (if evict then post (putTeam u t) 0x107 0 tm.core (launchOf (putTeam u t) tm.launch).vf (.ofNat 32 tm.num)
          else putTeam u t))
    ∧ (∀ t why, tileFault s = some (t, why) → teamLives (teamOf s t) = true → exec (.teamKill t why) s = .next (killTeam s t why 0))


/-! ### Management requests -/

namespace Sys2Proof.Claims
open Sys2Proof.Machine

/-- A request of a code is being performed, and every operand byte it does not use is zero (21 R374). -/
def asked (s : State) (code : Nat) (used : List (Nat × Nat)) : Prop := s.mgmt.busy = true ∧ req s 0 2 = code ∧ strayByte s used = none

/-- The firmware reads bytes of slot 0 (21 R374). -/
def reads (s : State) (pa n : Nat) (bs : List Byte) (u : State) : Prop :=
  spansReady s (fwSpans pa n) = true ∧ spansRead s (fwSpans pa n) = (bs, u)

end Sys2Proof.Claims

/-- The management requests (21 R374, R376 to R379, 19 R343 to R348, 20 R349, R359 to R367, 10 R267, 23 R407). Each writes a
reply of status, offset and tag, raises vector 0, and lets the next request be taken; a stray operand byte, or a bad operand,
rejects it and changes nothing else. Partitions are made, destroyed and resized, teams are pre-empted, halted groups and
commands go on or are killed and can be read, tables and key slots are installed, the log is read and quoted, and firmware is
updated. Where the spec is short, the widths of operands among it, the model's choices are in log entries 28 and 30. -/
def Obligations.ManagementRequestsHappen : Prop :=
  ∀ s : State,
    let op (lo n : Nat) : Nat := req s lo n
    let p := op 2 2
    let held := heldBy s (op 8 4)
    -- the reply
    (∀ st off fs, let u := answer s st off fs
      u = { s with mgmt := u.mgmt, msix := s.msix ++ [(none, 0)], fresh := u.fresh } ∧ u.mgmt.busy = false ∧ u.mgmt.phase = 0 ∧ u.mgmt.late = false
        ∧ (fs = [] → field u.mgmt.reply 0 1 = st % 256 ∧ field u.mgmt.reply 2 2 = off % 2 ^ 16 ∧ field u.mgmt.reply 4 4 = op 4 4))
    ∧ (∀ e ∈ [(Instr.createPartition, 1, [(8, 8)]), (.resumeRequest, 5, [(8, 4)]), (.killRequest, 6, [(8, 4)]), (.queryRequest, 7, [(8, 4), (16, 8)]),
          (.setCommunicator, 0x0A, [(8, 16)]), (.invalidateTranslations, 0x0B, [(8, 16)]), (.setAddressSpace, 0x0C, [(8, 24)]),
          (.keyCreate, 0x10, [(8, 16)]), (.keyBind, 0x11, [(8, 16)]), (.keyUnbind, 0x12, [(8, 16)]), (.keyDestroy, 0x13, [(8, 8)]),
          (.readAttestationLog, 0x20, [(8, 16)]), (.quote_, 0x21, [(8, 32)]), (.firmwareUpdate, 0x30, [(8, 17)]), (.destroyPartition, 2, []),
          (.resizeRequest, 3, [(8, 8), (16, 1)]), (.preEmpt, 4, [(8, 2)]), (.installHandlerTable, 8, [(8, 8)]), (.registerContextPool, 9, [(8, 16)])],
        s.mgmt.busy = true → op 0 2 = e.2.1 → ∀ off, strayByte s e.2.2 = some off → exec e.1 s = .next (answer s 1 off []))
    ∧ (s.mgmt.busy = true → requestEvent (op 0 2) = .managementUnknownCode → exec .managementUnknownCode s = .next (answer s 2 0xFFFF []))
    ∧ (s.mgmt.busy = true → exec .doorbellWriteIgnored s = .next { s with mgmt := { s.mgmt with late := true } })
    -- partitions
    ∧ (asked s 1 [(8, 8)] → ∀ bs home tn a b c, reads s (op 8 8) 256 bs a → reads a (field bs 128 8) 8192 home b → reads b (field bs 176 8) 2048 tn c →
        (∀ off, least (descBad_ c bs home tn none) = some off → exec .createPartition s = .next (reject c off))
        ∧ (descBad_ c bs home tn none = [] → ∃ t, exec .createPartition s = .next t ∧ find t.parts (field bs 0 1) = some { parseDesc bs with
          home := homeEntries home, tenants := tenantsOf tn, period := c.sched / 2 ^ 20, ctr := some (Config.counterPage (field bs 0 1)) }))
    ∧ (∀ v, find s.parts p = some v →
        (asked s 2 [] → (liveLaunches s p ≠ [] → exec .destroyPartition s = .next (reject s 2))
          ∧ (liveLaunches s p = [] → quiesced s p = true → ∃ t, exec .destroyPartition s = .next t ∧ find t.parts p = none))
        ∧ (asked s 3 [(8, 8), (16, 1)] → ∀ bs u, reads s (op 8 8) 32 bs u →
          let cores := bitsOf 256 (leNat bs)
          (∀ x ∈ u.parts, x.1 ≠ p → ∀ c ∈ x.2.cores, c ∉ cores) → (cores = [] ∨ (v.slices ≠ [] ∧ v.channels ≠ [])) → req u 16 1 ≤ 1 →
            exec .resizeRequest s = .next (answerDone (resize u p cores (req u 16 1 = 1))))
        ∧ (asked s 4 [(8, 2)] → s.mgmt.phase = 0 → op 8 2 = 0xFFFF →
          exec .preEmpt s = .next (let ts := savable s p 0xFFFF
            let u := each ts s fun s t => if (teamOf s t).saving.isSome then s else beginSave s t false
            send { u with mgmt := { u.mgmt with phase := 1, list := ts } } .preEmpt))
        ∧ (asked s 4 [(8, 2)] → s.mgmt.phase ≠ 0 → (∀ t ∈ s.mgmt.list, (teamOf s t).saving = none) →
          let saved := s.mgmt.saved.eraseDups.length
          let left := (s.mgmt.list.filter fun t => !s.mgmt.saved.contains t && (teamOf s t).st == .resident).length
          exec .preEmpt s = .next (answer s (if left = 0 then 0 else 3) 0xFFFF [(8, 4, saved), (12, 4, left)]))
        ∧ (asked s 8 [(8, 8)] → ∀ bs u, reads s (op 8 8) 512 bs u →
          let es := (List.range 64).map fun i => field bs (8 * i) 8
          es.getD 0 0 % 256 = 0 → (∀ e ∈ es.drop 1, bits e 63 56 = 0 ∧ bits e 2 1 = 0) →
            exec .installHandlerTable s = .next (answerDone (modPart u p fun v => { v with handlers := es.map (.ofNat 64) })))
        ∧ (asked s 9 [(8, 16)] → exec .registerContextPool s = .next (answerDone (modPart s p fun v => { v with pool := op 8 8, poolLen := op 16 8 }))))
    ∧ (∀ v bs home tn a b c, find s.parts s.subj.part = some v → reads s s.subj.desc 256 bs a → reads a (field bs 128 8) 8192 home b →
        reads b (field bs 176 8) 2048 tn c → field bs 0 1 = s.subj.part → descBad_ c bs home tn (some s.subj.part) = [] → quiesced c s.subj.part = true →
          ∃ u, exec .sliceChannelHomeTableChange s = .next (modPart u s.subj.part fun o => { o with
            slices := (parseDesc bs).slices, channels := (parseDesc bs).channels, engines := (parseDesc bs).engines, home := homeEntries home }))
    -- groups and commands that wait
    ∧ (asked s 5 [(8, 4)] → (∀ h g, held = some (.group h g) → exec .resumeRequest s = .next (answerDone (resumeGroup s h g)))
        ∧ (∀ c x k, held = some (.cmd c x k) → exec .resumeRequest s = .next (answerDone (modCmd s c fun c => { c with st := .running })))
        ∧ (held = none → exec .resumeRequest s = .next (reject s 8)))
    ∧ (asked s 6 [(8, 4)] → (∀ h g, held = some (.group h g) → let r := g.frec.getD (g.ctx.pending.getD {})
          exec .killRequest s = .next (answerDone (killTeam s g.team { code := r.code, cause := r.cause, addr := r.iaddr, va := r.va, relaunch := false } h)))
        ∧ (∀ c x k, held = some (.cmd c x k) → exec .killRequest s = .next (answerDone (stopCmd s c x k)))
        ∧ (held = none → exec .killRequest s = .next (reject s 8)))
    ∧ (asked s 7 [(8, 4), (16, 8)] → ∀ bs, queryBytes s (op 8 4) = some bs →
        (op 16 8 % 8 ≠ 0 → exec .queryRequest s = .next (reject s 16))
        ∧ (op 16 8 % 8 = 0 → spansReady s (fwSpans (op 16 8) 80) = true →
          exec .queryRequest s = .next (answerDone (spansWrite s (fwSpans (op 16 8) 80) bs))))
    -- communicators, address spaces and keys
    ∧ (asked s 0x0A [(8, 16)] → ∀ bs u, reads s (op 16 8) 64 bs u → op 8 8 ≤ 4095 → (∀ c ∈ u.cmds, sentOn u c.2 ≠ some (op 8 8)) →
        2 ≤ field bs 0 2 → field bs 0 2 ≤ 4096 → field bs 2 2 < field bs 0 2 → field bs 4 1 ≤ 1 → field bs 6 2 = 0 → field bs 16 48 = 0 →
          ∃ t, exec .setCommunicator s = .next t ∧ find t.comms (op 8 8)
            = some { count := field bs 0 2, rank := field bs 2 2, path := field bs 4 1, mask := field bs 5 1, table := field bs 8 8 })
    ∧ (asked s 0x0B [(8, 16)] → s.mgmt.phase = 0 → op 8 8 ≤ 4095 → (op 16 8 < 2 ^ 56 ∨ op 16 8 = 2 ^ 64 - 1) → exec .invalidateTranslations s
        = .next (beginInval { s with mgmt := { s.mgmt with phase := 1 } } none (s.cores.map (·.1)) none
          (if op 16 8 = 2 ^ 64 - 1 then .asid (op 8 8) else .page (op 8 8) (op 16 8))))
    ∧ (asked s 0x0C [(8, 24)] → op 8 8 ≤ 127 → op 16 8 ≤ 4095 → (∀ v ∈ s.vfs, v.1 ≠ op 8 8 → v.2.root.isSome = true → v.2.asid ≠ op 16 8) →
        op 24 8 % 4096 = 0 → op 24 8 < 2 ^ 52 → exec .setAddressSpace s = .next (answerDone { s with
          vfs := put s.vfs (op 8 8) { look s.vfs (op 8 8) {} with asid := op 16 8, root := some (op 24 8) } }))
    ∧ (1 ≤ op 8 8 → op 8 8 ≤ 1023 →
        let k := look s.keys (op 8 8) {}
        (asked s 0x10 [(8, 16)] → k.live = false → ∀ bs u, reads s (op 16 8) 384 bs u →
          (∀ key, Config.oaepOpen bs = some key →
            exec .keyCreate s = .next (answerDone { u with keys := put u.keys (op 8 8) { live := true, key := leNat key + 1 } }))
          ∧ (Config.oaepOpen bs = none → exec .keyCreate s = .next (reject u 16)))
        ∧ (asked s 0x11 [(8, 16)] → k.live = true → op 16 8 ≤ 127 → exec .keyBind s = .next (answerDone { s with keys := put s.keys (op 8 8) { k with
            bound := if k.bound.contains (op 16 8) then k.bound else k.bound ++ [op 16 8] } }))
        ∧ (asked s 0x12 [(8, 16)] → op 16 8 ∈ k.bound → exec .keyUnbind s
          = .next (answerDone { s with keys := put s.keys (op 8 8) { k with bound := k.bound.filter (· != op 16 8) } }))
        ∧ (asked s 0x13 [(8, 8)] → (s.mgmt.phase = 0 → k.live = true → slotHeld s (op 8 8) = false → ∃ t, exec .keyDestroy s = .next t ∧ look t.keys (op 8 8) {} = {}
              ∧ ∀ c n, n ∈ (coreOf t c).near → n.2.slot ≠ op 8 8)
          ∧ (s.mgmt.phase ≠ 0 → slotBusy s (op 8 8) = false → exec .keyDestroy s = .next (answerDone (dropSlot s (op 8 8))))))
    -- the log and firmware
    ∧ (asked s 0x20 [(8, 16)] → op 8 8 ≤ s.boot.log.length →
        let bs := ((List.range (s.boot.log.length - op 8 8)).map fun j => logBytes (op 8 8 + j) (s.boot.log.getD (op 8 8 + j) (0, 0, []))).flatten
        let l := fwSpans (Config.hostBase + op 16 8) bs.length
        spansReady s l = true → exec .readAttestationLog s = .next (answerDone (spansWrite s l bs)))
    ∧ (asked s 0x21 [(8, 32)] → exec .quote_ s = .next (answerDone { s with returned := Config.quoteSign (sha256
        ((s.mgmt.cur.drop 8).take 32 ++ chainValue s.boot.log ++ leBytes 4 s.boot.log.length)) ++ Config.transportKey }))
    ∧ (asked s 0x30 [(8, 17)] →
        (s.mgmt.phase = 0 → 0 < op 16 8 → op 16 8 ≤ 2 ^ 26 → op 24 1 ≤ 4 → ∀ bs u, reads s (op 8 8) (op 16 8) bs u →
          exec .firmwareUpdate s = .next (beginUpdate u (op 24 1) bs))
        ∧ (s.mgmt.phase = 1 → teamsOnDie s (op 24 1) = [] → exec .firmwareUpdate s
          = .next (send { stopTaster s (op 24 1) true with mgmt := { s.mgmt with phase := 2 } } .firmwareUpdate))
        ∧ (2 ≤ s.mgmt.phase →
          let v := openDie (stopTaster { s with mgmt := { s.mgmt with list := [] } } (op 24 1) false) (op 24 1)
          exec .firmwareUpdate s = .next (if s.mgmt.starts then answerDone v else reject v 24)))


/-! ### The device -/

/-- The device's own events (20 R369, R370, 21 R373 to R378, 22 R385, 23 R402 to R410, 00 R2). Boot goes stage by stage, an
image that does not verify stopping it for its cause; the host reads and writes memory within a line, and has bytes
compressed; a link's retries are only posted; an uncorrectable error poisons a line, of which only what a near cache itself
wrote to it stays, or retires its part, as do too many corrected ones; a spare takes a part's number, or the part is lost; an
island changes its rate only; a scrub changes no value; and a reset leaves what State.reset does but for memory and what it
was written under, poison, and the parts used up. Where the spec is short the model's choices are in log entries 35 to 37. -/
def Obligations.DeviceEventsHappen : Prop :=
  ∀ s : State,
    let c := s.subj.channel
    -- boot
    (∀ stage img, s.boot.failed = 0 → stage ≤ 5 → (stage = s.boot.stage + 1 ∨ (stage = 4 ∧ s.boot.stage = 4)) →
      ((stage = 1 ∨ stage = 5) → exec (.bootStage stage img) s = .next { s with boot := { s.boot with stage := stage } })
      ∧ (stage ≠ 1 → stage ≠ 5 → ∀ k, k = (if img.readOk = false then 3 else if Config.signatureOk img.bytes = false then 1
            else if img.version < Config.rollback then 2 else 0) →
          (k ≠ 0 → exec (.bootStage stage img) s = .next { s with boot := { s.boot with failed := stage, cause := k } })
          ∧ (k = 0 → exec (.bootStage stage img) s = .next { s with boot := { s.boot with
              stage := stage, log := s.boot.log ++ [(stage + img.component % 2 ^ 16 * 2 ^ 16, img.version, sha256 img.bytes)] } })))
    -- the host link
    ∧ (s.boot.stage = 5 → ∀ pa, pa < 2 ^ 52 →
        (∀ n, 0 < n → pa % 128 + n ≤ 128 → spansReady s (fwSpans pa n) = true →
          (lineBad s (pa / 128) = true → exec (.hostMemoryAccess pa (.read n)) s = .next { s with returned := [] })
          ∧ (lineBad s (pa / 128) = false → ∀ bs u, spansRead s (fwSpans pa n) = (bs, u) →
              exec (.hostMemoryAccess pa (.read n)) s = .next { u with returned := bs }))
        ∧ (∀ bs : List Byte, 0 < bs.length → pa % 128 + bs.length ≤ 128 → spansReady s (fwSpans pa bs.length) = true →
          ((lineBad s (pa / 128) = false ∨ (bs.length = 128 ∧ deadLine s (pa / 128) = false)) →
              exec (.hostMemoryAccess pa (.write bs)) s = .next (spansWrite s (fwSpans pa bs.length) bs))
          ∧ (lineBad s (pa / 128) = true → (bs.length ≠ 128 ∨ deadLine s (pa / 128) = true) →
              exec (.hostMemoryAccess pa (.write bs)) s = .next s)))
    ∧ (s.boot.stage = 5 → s.mgmt.busy = false → ∀ comp src dst len bs u, spansReady s (fwSpans src len) = true →
        (∀ x ∈ fwSpans src len, lineBad s x.1 = false) → spansRead s (fwSpans src len) = (bs, u) →
        let out := if comp then Config.deflate bs else Config.inflate bs
        spansReady u (fwSpans dst out.length) = true → exec (.hostTransfer comp src dst len) s = .next (answerDone
          { hostWrite u (fwSpans dst out.length) out with mgmt := { u.mgmt with cur := u.mgmt.req } }))
    ∧ (s.subj.port < 8 → exec .flitRetry s = .next (post s 0x140 4 s.subj.port 0xFF 0))
    ∧ (s.subj.port < 2 → (s.subj.tenant < 128 ∨ s.subj.tenant = 0xFF) → exec .roceRetransmission s
        = .next (post s 0x141 5 s.subj.port s.subj.tenant (.ofNat 32 (s.subj.qp % 2 ^ 24))))
    -- errors in storage
    ∧ (∀ la, 128 * la < Config.hostBase →
        let u := poisonLine s la
        (lineSt u la).poison = true ∧ exec (.eccUncorrectable (.line la)) s = .next (notices u la (slotOfLine s la))
        ∧ ((look s.keys (slotOfLine s la) {}).bound.length < 2 → exec (.eccUncorrectable (.line la)) s = .next u))
    ∧ (∀ k key n, nearLine s k key = some n →
        let u := if n.st = .dirty ∨ n.st = .exclusive then modNear s k key fun n => { n with poison := true } else s
        exec (.eccUncorrectable (.nearLine k key)) s = .next (notices (poisonLine u (key % 2 ^ 45)) (key % 2 ^ 45) n.slot))
    ∧ (∀ k n, partExists k n = true →
        exec (.eccUncorrectable (.part k n)) s = .next (mustRetire s k n)
        ∧ (let count := look s.corrected (kindNo k * 512 + n) 0 + 1
          let u := { s with corrected := put s.corrected (kindNo k * 512 + n) count }
          exec (.correctedError k n) s = .next (if Config.retireThreshold < count then mustRetire u k n else u)))
    -- spares
    ∧ (∀ n, (0, n) ∈ s.failing →
        ((0, n) ∉ s.copying → spareLeft s .core n = true → exec (.partRetire .core n) s = .next (send
            (each (teamsOnCore s n) { s with copying := s.copying ++ [(0, n)] } fun s t => if (teamOf s t).saving.isSome then s else beginSave s t false)
            (.partRetire .core n)))
        ∧ ((0, n) ∈ s.copying → seats s n = [] → canDrain s n = true → ∃ u, exec (.partRetire .core n) s = .next u
            ∧ (coreOf u n).near = [] ∧ look u.spares (n / 64) 0 = look s.spares (n / 64) 0 + 1)
        ∧ ((0, n) ∉ s.copying → spareLeft s .core n = false → ∀ x, s.parts.find? (fun p => p.2.cores.contains n) = some x →
            exec (.partRetire .core n) s = .next (resize { s with
              dead := s.dead ++ [(0, n)], failing := s.failing.erase (0, n) } x.1 (x.2.cores.filter (· != n)) true)))
    ∧ (∀ n, (1, n) ∈ s.failing → spareLeft s .slice n = false → exec (.partRetire .slice n) s = .next { s with
        dead := s.dead ++ [(1, n)], failing := s.failing.erase (1, n), mgmt := { s.mgmt with loss := true } })
    ∧ (∀ n, (2, n) ∈ s.failing → (2, n) ∉ s.copying → spareLeft s .channel n = true → exec (.partRetire .channel n) s
        = .next (send { s with copying := s.copying ++ [(2, n)] } .channelCopyComplete { channel := n }))
    ∧ ((2, c) ∈ s.copying → ∃ u, exec .channelCopyComplete s = .next u ∧ look u.spares (128 + c / 32) 0 = look s.spares (128 + c / 32) 0 + 1
        ∧ u.mem = s.mem ∧ u.lines = s.lines)
    -- islands, scrubbing and reset
    ∧ (∀ i st, i < 320 → (i ≠ Config.schedIsland ∨ st = .nominal) →
        (st ≠ .gated ∨ 256 ≤ i ∨ (residents s i = [] ∧ ∀ e ∈ (coreOf s i).ec, e = 0)) →
          exec (.islandStateChange i st) s = .next { s with islands := put s.islands i st })
    ∧ (c < 384 → 1024 * (look s.scrub c 0 + 1) ≤ look s.pressCycles (c / 32) 0 → channelBusy s c = false → pressPaused s c = false →
        exec .pressScrub s = .next { s with scrub := put s.scrub c (look s.scrub c 0 + 1) })
    ∧ ∃ u, exec .deviceReset s = .next u ∧ u.mem = s.mem ∧ u.tags = s.tags ∧ u.groups = [] ∧ u.parts = [] ∧ u.keys = State.reset.keys
        ∧ u.boot = State.reset.boot ∧ (∀ la, (lineSt u la).home = none ∧ (lineSt u la).copies = [] ∧ ((lineSt u la).poison = true → ∃ l ∈ s.lines, l.2.poison = true))


/-! ### Words of the spec -/

namespace Sys2Proof.Claims

/-- The fields of a first word that has only its opcode. -/
def plain : FOps :=
  { k := 0, kn := false, la := 0, d := 0, a := 0, b := 0, c := 0, na := .self, nb := .self, edge := .zero, u := false, lrA := false
    lrB := false, lrC := false, ty := .b32, mod := 0, rm := .rn, sat := false, x := 0 }

/-- A pair slot of a destination and a source, nothing else set. -/
def plainSlot (d s : BitVec 6) : PSlot :=
  { d := d, s := s, ns := .self, lrd := false, lrs := false, k := 0, kn := false, u := false }

end Sys2Proof.Claims

/-- Words the manual writes out decode to the instructions it writes them for: `IADD.i32.sat v4, v3<, v3'` of 01,
`(k1) BR brk, done` (03 R58), `LD.i32 v3, [s2+v1]:la2` (05 R103), `IADD.i32 v6, v0 || SHL.b32 v9, 1` (05 R116), the `GSCAN` word of 06,
`ATOM.n32.incw.dev v3, [s2+0x0], v4'` of 07, `MMA.f32 v0, v16, v24, fs1` (08 R196), `SPAWN.fut v4, s5, v8, 4` (09 R230), the
`PRESS` word of 14, and the Taster's `HINC w4, w2, w3, 0` (22 R395). -/
def Obligations.SampleWords : Prop :=
  (∀ e ∈ ([
      ([0x0800081860204608], .iadd { plain with d := 4, a := 3, b := 3, na := .left, lrB := true, ty := .i32, sat := true }),
      ([0x0090000000000000, 0x0000000600000004], .br { plain with k := 1 } 0x0000000600000004),
      ([0x3001061020000604], .ld { plain with la := 2, d := 3, a := 2, b := 1, ty := .i32, x := 4 } 0),
      ([0x821800004A482000], .pairIaddI32 (plainSlot 6 0) ⟨.shlImm, plainSlot 9 1⟩),
      ([0x2910081800008602], .gscan { plain with k := 1, d := 4, a := 3, lrA := true, ty := .i32, x := 2 }),
      ([0x4010061002002FE2], .atom { plain with k := 1, d := 3, a := 2, c := 4, lrC := true, ty := .n32, mod := 7, rm := .ru, x := 2 }),
      ([0x5800008300001640], .mma { plain with a := 16, b := 24, ty := .f32, mod := 1 }),
      ([0x5000082902000040], .spawn { plain with d := 4, a := 5, b := 8, c := 4, mod := 1 }),
      ([0x6180008146010002, 0x2020, 0, 0x30000], .press { plain with a := 16, b := 10, c := 12, u := true, x := 2 } 0x2020 0 0x30000)]
        : List (List Word × Instr)), decode e.1 = .ok e.2)
  ∧ decodeFilter 0x5108C000 = .ok (.filterHinc { d := 4, a := 2, b := 3, imm := 0 })
end

