-- ==== Sys2Proof/Laws/Tables.lean ====
section
/-! SUPPORT. Reading a table after an entry is put or taken away, and lists after an entry is replaced. -/

namespace Sys2Proof.Machine

theorem find_put_self {α : Type} (t : Tbl α) (k : Nat) (v : α) : find (put t k v) k = some v := by
  induction t with
  | nil => simp [put, find]
  | cons e t ih =>
    obtain ⟨j, u⟩ := e
    unfold put
    split
    · simp [find]
    · split
      · simp [find]
      · rename_i h1 h2
        have : j ≠ k := fun h => h2 h.symm
        simp [find, this, ih]

theorem find_put_other {α : Type} (t : Tbl α) (k k' : Nat) (v : α) (h : k' ≠ k) : find (put t k v) k' = find t k' := by
  induction t with
  | nil => simp [put, find, h.symm]
  | cons e t ih =>
    obtain ⟨j, u⟩ := e
    unfold put
    split
    · simp [find, h.symm]
    · split
      · rename_i h1 h2
        subst h2
        simp [find, h.symm]
      · by_cases hj : j = k'
        · simp [find, hj]
        · simp [find, hj, ih]

theorem find_put {α : Type} (t : Tbl α) (k k' : Nat) (v : α) :
    find (put t k v) k' = if k' = k then some v else find t k' := by
  split
  · rename_i h; subst h; exact find_put_self t k' v
  · rename_i h; exact find_put_other t k k' v h

theorem find_del_self {α : Type} (t : Tbl α) (k : Nat) : find (del t k) k = none := by
  induction t with
  | nil => rfl
  | cons e t ih =>
    obtain ⟨j, u⟩ := e
    unfold del
    split
    · exact ih
    · rename_i h; simp [find, h, ih]

theorem find_del_other {α : Type} (t : Tbl α) (k k' : Nat) (h : k' ≠ k) : find (del t k) k' = find t k' := by
  induction t with
  | nil => rfl
  | cons e t ih =>
    obtain ⟨j, u⟩ := e
    unfold del
    split
    · rename_i hj; subst hj; simp [find, h.symm, ih]
    · by_cases hj : j = k'
      · simp [find, hj]
      · simp [find, hj, ih]

theorem find_del {α : Type} (t : Tbl α) (k k' : Nat) : find (del t k) k' = if k' = k then none else find t k' := by
  split
  · rename_i h; subst h; exact find_del_self t k'
  · rename_i h; exact find_del_other t k k' h

theorem look_put_self {α : Type} (t : Tbl α) (k : Nat) (v d : α) : look (put t k v) k d = v := by
  simp [look, find_put_self]

theorem look_put_other {α : Type} (t : Tbl α) (k k' : Nat) (v d : α) (h : k' ≠ k) :
    look (put t k v) k' d = look t k' d := by
  simp [look, find_put_other t k k' v h]

theorem look_put {α : Type} (t : Tbl α) (k k' : Nat) (v d : α) :
    look (put t k v) k' d = if k' = k then v else look t k' d := by
  split
  · rename_i h; subst h; exact look_put_self t k' v d
  · rename_i h; exact look_put_other t k k' v d h

/-- Taking several keys away. -/
theorem find_each_del {α : Type} (rs : List Nat) (t : Tbl α) (k : Nat) :
    find (each rs t del) k = if k ∈ rs then none else find t k := by
  induction rs generalizing t with
  | nil => simp [each]
  | cons r rs ih =>
    have : each (r :: rs) t del = each rs (del t r) del := rfl
    rw [this, ih, find_del]
    by_cases h1 : k ∈ rs <;> by_cases h2 : k = r <;> simp [h1, h2]

theorem getD_setPad {α : Type} (d : α) (l : List α) (n m : Nat) (v : α) :
    (setPad d l n v).getD m d = if m = n then v else l.getD m d := by
  induction n generalizing l m with
  | zero => cases l <;> cases m <;> simp [setPad]
  | succ n ih =>
    cases l with
    | nil =>
      cases m with
      | zero => simp [setPad]
      | succ m => have := ih [] m; simp only [setPad, List.getD_cons_succ, this]; simp
    | cons u t =>
      cases m with
      | zero => simp [setPad]
      | succ m => have := ih t m; simp only [setPad, List.getD_cons_succ, this]; simp

end Sys2Proof.Machine
end

