-- ==== Sys2Proof/Laws/Memory.lean ====
section
/-! SUPPORT. The canonical form of memory, which every write of memory keeps, and reading after a write. -/

namespace Sys2Proof.Machine

/-- The canonical form said with lists: addresses strictly rising, no listed byte that an unlisted address reads as. -/
theorem memory_wf_iff (m : List Host.Cell) :
    Memory.wf m = true ↔ m.Pairwise (fun x y => x.1 < y.1) ∧ ∀ c ∈ m, c.2 ≠ unlisted := by
  induction m with
  | nil => simp [Memory.wf]
  | cons c m ih =>
    obtain ⟨a, b⟩ := c
    cases m with
    | nil => simp [Memory.wf]
    | cons c' m =>
      obtain ⟨a', b'⟩ := c'
      simp only [Memory.wf, Bool.and_eq_true, decide_eq_true_eq, bne_iff_ne, ih]
      constructor
      · rintro ⟨⟨hlt, hb⟩, hp, hn⟩
        refine ⟨List.pairwise_cons.2 ⟨?_, hp⟩, ?_⟩
        · intro y hy
          rcases List.mem_cons.1 hy with rfl | hy
          · exact hlt
          · exact Nat.lt_trans hlt ((List.pairwise_cons.1 hp).1 y hy)
        · intro y hy
          rcases List.mem_cons.1 hy with rfl | hy
          · exact hb
          · exact hn y hy
      · rintro ⟨hp, hn⟩
        have hp' := List.pairwise_cons.1 hp
        exact ⟨⟨hp'.1 _ (List.mem_cons_self ..), hn _ (List.mem_cons_self ..)⟩, hp'.2,
          fun y hy => hn y (List.mem_cons_of_mem _ hy)⟩

theorem mem_put {α : Type} (t : Tbl α) (k : Nat) (v : α) (y : Nat × α) (h : y ∈ put t k v) : y = (k, v) ∨ y ∈ t := by
  induction t with
  | nil => simpa [put] using h
  | cons e t ih =>
    obtain ⟨j, u⟩ := e
    unfold put at h
    split at h
    · simpa using h
    · split at h
      · rcases List.mem_cons.1 h with h | h
        · exact .inl h
        · exact .inr (List.mem_cons_of_mem _ h)
      · rcases List.mem_cons.1 h with h | h
        · exact .inr (h ▸ List.mem_cons_self ..)
        · rcases ih h with h | h
          · exact .inl h
          · exact .inr (List.mem_cons_of_mem _ h)

theorem mem_del {α : Type} (t : Tbl α) (k : Nat) (y : Nat × α) (h : y ∈ del t k) : y ∈ t := by
  induction t with
  | nil => exact h
  | cons e t ih =>
    obtain ⟨j, u⟩ := e
    unfold del at h
    split at h
    · exact List.mem_cons_of_mem _ (ih h)
    · rcases List.mem_cons.1 h with h | h
      · exact h ▸ List.mem_cons_self ..
      · exact List.mem_cons_of_mem _ (ih h)

theorem sorted_put {α : Type} (t : Tbl α) (k : Nat) (v : α) (h : t.Pairwise (fun x y => x.1 < y.1)) :
    (put t k v).Pairwise (fun x y => x.1 < y.1) := by
  induction t with
  | nil => simp [put]
  | cons e t ih =>
    obtain ⟨j, u⟩ := e
    have h' := List.pairwise_cons.1 h
    unfold put
    split
    · rename_i hk
      refine List.pairwise_cons.2 ⟨?_, h⟩
      intro y hy
      rcases List.mem_cons.1 hy with rfl | hy
      · exact hk
      · exact Nat.lt_trans hk (h'.1 y hy)
    · split
      · rename_i hk
        subst hk
        exact List.pairwise_cons.2 ⟨fun y hy => h'.1 y hy, h'.2⟩
      · rename_i h1 h2
        refine List.pairwise_cons.2 ⟨?_, ih h'.2⟩
        intro y hy
        rcases mem_put t k v y hy with rfl | hy
        · exact Nat.lt_of_le_of_ne (Nat.le_of_not_lt h1) (fun e => h2 e.symm)
        · exact h'.1 y hy

theorem sorted_del {α : Type} (t : Tbl α) (k : Nat) (h : t.Pairwise (fun x y => x.1 < y.1)) :
    (del t k).Pairwise (fun x y => x.1 < y.1) := by
  induction t with
  | nil => exact h
  | cons e t ih =>
    obtain ⟨j, u⟩ := e
    have h' := List.pairwise_cons.1 h
    unfold del
    split
    · exact ih h'.2
    · exact List.pairwise_cons.2 ⟨fun y hy => h'.1 y (mem_del t k y hy), ih h'.2⟩

/-- A written byte keeps the canonical form. -/
theorem poke_wf (m : List Host.Cell) (a : Nat) (b : Byte) (h : Memory.wf m = true) : Memory.wf (poke m a b) = true := by
  rw [memory_wf_iff] at h ⊢
  unfold poke
  split
  · exact ⟨sorted_del m a h.1, fun c hc => h.2 c (mem_del m a c hc)⟩
  · rename_i hb
    refine ⟨sorted_put m a b h.1, fun c hc => ?_⟩
    rcases mem_put m a b c hc with rfl | hc
    · exact hb
    · exact h.2 c hc

/-- Written bytes keep the canonical form. -/
theorem pokes_wf (m : List Host.Cell) (a : Nat) (bs : List Byte) (h : Memory.wf m = true) :
    Memory.wf (pokes m a bs) = true := by
  induction bs generalizing m a with
  | nil => exact h
  | cons b bs ih => exact ih _ _ (poke_wf m a b h)

/-- Reading a byte after one byte is written. -/
theorem peek_poke (m : List Host.Cell) (a a' : Nat) (b : Byte) : peek (poke m a b) a' = if a' = a then b else peek m a' := by
  unfold peek poke look
  split
  · rename_i hb
    rw [find_del]
    split
    · exact hb.symm
    · rfl
  · rw [find_put]
    split <;> rfl

/-- Reading a byte after consecutive bytes are written. -/
theorem peek_pokes (m : List Host.Cell) (a a' : Nat) (bs : List Byte) :
    peek (pokes m a bs) a' = if a ≤ a' ∧ a' < a + bs.length then bs.getD (a' - a) 0 else peek m a' := by
  induction bs generalizing m a with
  | nil => simp only [pokes, List.length_nil, Nat.add_zero]; rw [if_neg (by omega)]
  | cons b bs ih =>
    simp only [pokes, ih, peek_poke, List.length_cons]
    by_cases h1 : a' = a
    · subst h1
      rw [if_neg (by omega), if_pos rfl, if_pos (by omega)]
      simp
    · by_cases h2 : a + 1 ≤ a' ∧ a' < a + 1 + bs.length
      · rw [if_pos h2, if_pos (by omega)]
        have : a' - a = (a' - (a + 1)) + 1 := by omega
        rw [this, List.getD_cons_succ]
      · rw [if_neg h2, if_neg h1, if_neg (by omega)]

/-- A write of one sector keeps the canonical form. -/
theorem writeSector_wf (s : State) (la i slot : Nat) (d : LineData) (k : ByteMask) (h : Memory.wf s.mem = true) :
    Memory.wf (writeSector s la i slot d k).mem = true := by
  unfold writeSector
  split
  · exact h
  · exact pokes_wf _ _ _ h

/-- A write of a line to the stacks keeps the canonical form. -/
theorem memWrite_wf (s : State) (la slot : Nat) (d : LineData) (k : ByteMask) (h : Memory.wf s.mem = true) :
    Memory.wf (memWrite s la slot d k).mem = true :=
  writeSector_wf _ _ _ _ _ _ (writeSector_wf _ _ _ _ _ _ (writeSector_wf _ _ _ _ _ _ (writeSector_wf _ _ _ _ _ _ h)))

/-- After reset memory is in canonical form. -/
theorem reset_memory_wf : Memory.wf State.reset.mem = true := rfl

end Sys2Proof.Machine
end

