-- ==== Sys2Proof/Laws/Registers.lean ====
section
/-! SUPPORT. What completing a word and opening a window do to registers and to everything else. -/

namespace Sys2Proof.Machine

/-! ### Cores, groups and launches after a change of one -/

theorem coreOf_setCore (s : State) (c d : Nat) (v : Core) : coreOf (setCore s c v) d = if d = c then v else coreOf s d := by
  simp [coreOf, setCore, look_put]

theorem coreOf_modCore (s : State) (c d : Nat) (f : Core → Core) :
    coreOf (modCore s c f) d = if d = c then f (coreOf s c) else coreOf s d := coreOf_setCore ..

theorem groupOf_setGroup (s : State) (h j : Nat) (g : Group) :
    groupOf (setGroup s h g) j = if j = h then some g else groupOf s j := by
  simp [groupOf, setGroup, find_put]

theorem launchOf_modLaunch (s : State) (l m : Nat) (f : Launch → Launch) :
    launchOf (modLaunch s l f) m = if m = l then f (launchOf s l) else launchOf s m := by
  simp [launchOf, modLaunch, look_put]

theorem partOf_modPart (s : State) (p q : Nat) (f : Partition → Partition) :
    partOf (modPart s p f) q = if q = p ∧ (find s.parts p).isSome then f (partOf s p) else partOf s q := by
  unfold modPart partOf look
  cases hp : find s.parts p with
  | none => simp
  | some v =>
    simp only [find_put, Option.isSome_some, and_true]
    split <;> simp

/-! ### Elsewhere -/

theorem Elsewhere.refl (s : State) (h : Nat) : Elsewhere s h s.nextId s :=
  ⟨fun _ _ => rfl, fun _ => rfl, fun _ => rfl, fun _ => rfl, .inl rfl, rfl⟩

/-- Two changes of the same kind, of which only the first puts an event in flight. -/
theorem Elsewhere.trans {s t u : State} {h n m : Nat} (a : Elsewhere s h n t) (b : Elsewhere t h m u)
    (hd : u.due = t.due) : Elsewhere s h m u := by
  obtain ⟨a1, a2, a3, a4, a5, a6⟩ := a
  obtain ⟨b1, b2, b3, b4, b5, b6⟩ := b
  refine ⟨fun j hj => (b1 j hj).trans (a1 j hj), ?_, ?_, ?_, hd ▸ a5, ?_⟩
  · intro c; rw [b2 c, a2 c]
  · intro l; rw [b3 l, a3 l]
  · intro p; rw [b4 p, a4 p]
  · rw [b6, a6]

/-- As `Elsewhere.trans`, where only the second puts an event in flight. -/
theorem Elsewhere.trans' {s t u : State} {h n m : Nat} (a : Elsewhere s h n t) (b : Elsewhere t h m u)
    (hd : t.due = s.due) : Elsewhere s h m u := by
  obtain ⟨a1, a2, a3, a4, a5, a6⟩ := a
  obtain ⟨b1, b2, b3, b4, b5, b6⟩ := b
  refine ⟨fun j hj => (b1 j hj).trans (a1 j hj), ?_, ?_, ?_, hd ▸ b5, ?_⟩
  · intro c; rw [b2 c, a2 c]
  · intro l; rw [b3 l, a3 l]
  · intro p; rw [b4 p, a4 p]
  · rw [b6, a6]

theorem elsewhere_setGroup (s : State) (h : Nat) (g : Group) : Elsewhere s h s.nextId (setGroup s h g) :=
  ⟨fun j hj => by simp [groupOf_setGroup, hj], fun _ => rfl, fun _ => rfl, fun _ => rfl, .inl rfl, rfl⟩

/-- A change of a core's clock, register file, idle count, opportunities and tokens. -/
theorem elsewhere_modCore (s : State) (h c : Nat) (f : Core → Core)
    (hf : ∀ k, f k = { k with
      cycles := (f k).cycles, pregs := (f k).pregs, pgens := (f k).pgens
      idle := (f k).idle, opp := (f k).opp, tokens := (f k).tokens }) :
    Elsewhere s h s.nextId (modCore s c f) := by
  refine ⟨fun _ _ => rfl, ?_, fun _ => rfl, fun _ => rfl, .inl rfl, rfl⟩
  intro d
  rw [coreOf_modCore]
  split
  · rename_i hd; subst hd; exact hf _
  · rfl

theorem elsewhere_modLaunch (s : State) (h l : Nat) (f : Launch → Launch) (hf : ∀ k, f k = { k with tokens := (f k).tokens }) :
    Elsewhere s h s.nextId (modLaunch s l f) := by
  refine ⟨fun _ _ => rfl, fun _ => rfl, ?_, fun _ => rfl, .inl rfl, rfl⟩
  intro m
  rw [launchOf_modLaunch]
  split
  · rename_i hm; subst hm; exact hf _
  · rfl

theorem elsewhere_modPart (s : State) (h p : Nat) (f : Partition → Partition)
    (hf : ∀ k, f k = { k with tenants := (f k).tenants }) : Elsewhere s h s.nextId (modPart s p f) := by
  refine ⟨?_, ?_, ?_, ?_, ?_, ?_⟩
  · intro j _; unfold modPart; split <;> rfl
  · intro c; unfold modPart; split <;> rfl
  · intro l; unfold modPart; split <;> rfl
  · intro q
    rw [partOf_modPart]
    split
    · rename_i hq; obtain ⟨rfl, _⟩ := hq; exact hf _
    · rfl
  · unfold modPart; split <;> exact .inl rfl
  · unfold modPart; split <;> rfl

theorem modPart_due (s : State) (p : Nat) (f : Partition → Partition) : (modPart s p f).due = s.due := by
  unfold modPart; split <;> rfl

/-! ### The cost of issue -/

theorem elsewhere_next {s t : State} {h n : Nat} (a : Elsewhere s h n t) : t.nextId = n := by
  obtain ⟨_, _, _, _, _, a⟩ := a; rw [a]

/-- Tokens given to a core from a partition's tenants. -/
theorem elsewhere_give (s : State) (h p c tn n : Nat) (f : Partition → Partition) (hf : ∀ k, f k = { k with tenants := (f k).tenants }) :
    Elsewhere s h s.nextId (modCore (modPart s p f) c fun k => { k with tokens := put k.tokens tn (look k.tokens tn 0 + n) }) := by
  have a := elsewhere_modPart s h p f hf
  have b := elsewhere_modCore (modPart s p f) h c (fun k => { k with tokens := put k.tokens tn (look k.tokens tn 0 + n) }) fun _ => rfl
  rw [elsewhere_next a] at b
  exact a.trans b rfl

theorem drawGrant_elsewhere (s : State) (h c tn : Nat) :
    Elsewhere s h s.nextId (drawGrant s c tn) ∧ (drawGrant s c tn).due = s.due := by
  unfold drawGrant
  simp only
  split
  · exact ⟨elsewhere_give s h _ c tn _ _ fun _ => rfl, modPart_due ..⟩
  · split
    · exact ⟨Elsewhere.refl s h, rfl⟩
    · split
      · exact ⟨Elsewhere.refl s h, rfl⟩
      · exact ⟨elsewhere_give s h _ c tn _ _ fun _ => rfl, modPart_due ..⟩

theorem charge_elsewhere (fuel : Nat) (s : State) (h c tn n : Nat) :
    Elsewhere s h s.nextId (charge fuel s c tn n) ∧ (charge fuel s c tn n).due = s.due := by
  induction fuel generalizing s n with
  | zero => exact ⟨elsewhere_modCore _ h c _ fun _ => rfl, rfl⟩
  | succ fuel ih =>
    unfold charge
    simp only
    have h1 : Elsewhere s h s.nextId (modCore s c fun k => { k with tokens := put k.tokens tn (look (coreOf s c).tokens tn 0 - n) }) :=
      elsewhere_modCore _ h c _ fun _ => rfl
    generalize hu : (modCore s c fun k => { k with tokens := put k.tokens tn (look (coreOf s c).tokens tn 0 - n) }) = u at h1 ⊢
    have hd : u.due = s.due := by subst hu; rfl
    split
    · exact ⟨h1, hd⟩
    · obtain ⟨d1, d2⟩ := drawGrant_elsewhere u h c tn
      split
      · exact ⟨h1, hd⟩
      · obtain ⟨e1, e2⟩ := ih (drawGrant u c tn) (n - look (coreOf s c).tokens tn 0)
        rw [elsewhere_next d1, elsewhere_next h1] at e1
        rw [elsewhere_next h1] at d1
        exact ⟨(h1.trans d1 d2).trans e1 e2, e2.trans (d2.trans hd)⟩

/-- `drawGrant` and `charge` leave every group as it is. -/
theorem charge_group (fuel : Nat) (s : State) (c tn n h : Nat) : groupOf (charge fuel s c tn n) h = groupOf s h :=
  (charge_elsewhere fuel s (h + 1) c tn n).1.1 h (by omega)

theorem spend_elsewhere (s : State) (h cyc : Nat) : Elsewhere s h s.nextId (spend s h cyc) ∧ (spend s h cyc).due = s.due := by
  unfold spend
  split
  · exact ⟨Elsewhere.refl s h, rfl⟩
  · rename_i g hg
    simp only
    generalize hk : (fun k : Core => { k with
      cycles := k.cycles + cyc, opp := setPad 0 k.opp (g.slot0 / 256) (((coreOf s g.core).opp.getD (g.slot0 / 256) 0 + 1) % 2 ^ 32)
      idle := 0 }) = fk
    have a : Elsewhere s h s.nextId (modCore s g.core fk) := elsewhere_modCore s h g.core fk fun k => by subst hk; rfl
    generalize hu : modCore s g.core fk = u at a
    have hud : u.due = s.due := by subst hu; rfl
    generalize ({ g with lastIssue := (coreOf s g.core).opp.getD (g.slot0 / 256) 0 } : Group) = g2
    have b := elsewhere_setGroup u h g2
    generalize launchIdOf (setGroup u h g2) g = l
    have c := elsewhere_modLaunch (setGroup u h g2) h l (fun l => { l with tokens := l.tokens + cyc }) fun _ => rfl
    obtain ⟨d, e⟩ := charge_elsewhere cyc (modLaunch (setGroup u h g2) l fun l => { l with tokens := l.tokens + cyc }) h g.core
      (launchOf (setGroup u h g2) l).tenant cyc
    have n : u.nextId = s.nextId := elsewhere_next a
    rw [elsewhere_next c] at d
    exact ⟨n ▸ ((a.trans b rfl).trans c rfl).trans d e, e.trans hud⟩

/-- Tokens are a matter of their own. -/
def sameClock (a b : Core) : Prop := b.cycles = a.cycles ∧ b.opp = a.opp

theorem drawGrant_clock (s : State) (c tn d : Nat) : sameClock (coreOf s d) (coreOf (drawGrant s c tn) d) := by
  have key : ∀ (u : State) (n : Nat), (∀ e, coreOf u e = coreOf s e) →
      sameClock (coreOf s d) (coreOf (modCore u c fun k => { k with tokens := put k.tokens tn (look k.tokens tn 0 + n) }) d) := by
    intro u n hu
    rw [coreOf_modCore, ← hu d]
    split
    · rename_i e; subst e; exact ⟨rfl, rfl⟩
    · exact ⟨rfl, rfl⟩
  have mp : ∀ (p : Nat) (f : Partition → Partition) (e : Nat), coreOf (modPart s p f) e = coreOf s e := by
    intro p f e; unfold modPart; split <;> rfl
  unfold drawGrant
  simp only
  split
  · exact key _ _ (mp _ _)
  · split
    · exact ⟨rfl, rfl⟩
    · split
      · exact ⟨rfl, rfl⟩
      · exact key _ _ (mp _ _)

theorem charge_clock (fuel : Nat) (s : State) (c tn n d : Nat) : sameClock (coreOf s d) (coreOf (charge fuel s c tn n) d) := by
  have key : ∀ (u : State) (m : Nat), sameClock (coreOf u d) (coreOf (modCore u c fun k => { k with tokens := put k.tokens tn m }) d) := by
    intro u m
    rw [coreOf_modCore]
    split
    · rename_i e; subst e; exact ⟨rfl, rfl⟩
    · exact ⟨rfl, rfl⟩
  induction fuel generalizing s n with
  | zero => exact key _ _
  | succ fuel ih =>
    unfold charge
    simp only
    have a := key s (look (coreOf s c).tokens tn 0 - n)
    generalize (modCore s c fun k => { k with tokens := put k.tokens tn (look (coreOf s c).tokens tn 0 - n) }) = u at a ⊢
    have b0 : sameClock (coreOf s d) (coreOf u d) := a
    split
    · exact b0
    · split
      · exact b0
      · have b := drawGrant_clock u c tn d
        have e := ih (drawGrant u c tn) (n - look (coreOf s c).tokens tn 0)
        exact ⟨(e.1.trans b.1).trans a.1, (e.2.trans b.2).trans a.2⟩

/-- A word's issue changes no more of its group than its place in the issue order, and accounts for its cycles. -/
theorem spend_group (s : State) (h cyc : Nat) (g : Group) (hg : groupOf s h = some g) :
    ∃ n, groupOf (spend s h cyc) h = some { g with lastIssue := n } ∧ Accounted s g cyc (spend s h cyc) { g with lastIssue := n } := by
  refine ⟨(coreOf s g.core).opp.getD (g.slot0 / 256) 0, ?_, ?_⟩
  · unfold spend
    simp only [hg, charge_group]
    show groupOf (setGroup _ h _) h = _
    rw [groupOf_setGroup, if_pos rfl]
  · unfold spend
    simp only [hg]
    generalize hk : (fun k : Core => { k with
      cycles := k.cycles + cyc, opp := setPad 0 k.opp (g.slot0 / 256) (((coreOf s g.core).opp.getD (g.slot0 / 256) 0 + 1) % 2 ^ 32)
      idle := 0 }) = fk
    generalize hm : modLaunch (setGroup (modCore s g.core fk) h { g with lastIssue := (coreOf s g.core).opp.getD (g.slot0 / 256) 0 }) _ _ = u
    have hu : coreOf u g.core = fk (coreOf s g.core) := by
      subst hm
      show coreOf (modCore s g.core fk) g.core = _
      rw [coreOf_modCore, if_pos rfl]
    obtain ⟨c1, c2⟩ := charge_clock cyc u g.core
      (launchOf (setGroup (modCore s g.core fk) h { g with lastIssue := (coreOf s g.core).opp.getD (g.slot0 / 256) 0 })
        (launchIdOf (setGroup (modCore s g.core fk) h { g with lastIssue := (coreOf s g.core).opp.getD (g.slot0 / 256) 0 }) g)).tenant
      cyc g.core
    refine ⟨?_, rfl, fun c => ?_⟩
    · rw [c1, hu]; subst hk; rfl
    · rw [c2, hu]; subst hk
      show (setPad 0 (coreOf s g.core).opp _ _).getD c 0 = _
      rw [getD_setPad]
      split
      · rename_i e; subst e; rfl
      · rfl

/-! ### Physical registers -/

theorem freeReg_core (k : Core) (p : Nat) :
    freeReg k p = { k with pregs := (freeReg k p).pregs, pgens := (freeReg k p).pgens } := by
  unfold freeReg; split
  · rfl
  · dsimp only; split <;> rfl

theorem each_freeReg_core (l : List Nat) (k : Core) :
    each l k freeReg = { k with pregs := (each l k freeReg).pregs, pgens := (each l k freeReg).pgens } := by
  induction l generalizing k with
  | nil => rfl
  | cons p l ih =>
    have e : each (p :: l) k freeReg = each l (freeReg k p) freeReg := rfl
    rw [e]
    refine (ih (freeReg k p)).trans ?_
    rw [freeReg_core k p]

theorem freeRegs_elsewhere (s : State) (h c : Nat) (ps : List Nat) : Elsewhere s h s.nextId (freeRegs s c ps) := by
  have h1 : Elsewhere s h s.nextId (modCore s c fun k => each ps k freeReg) :=
    elsewhere_modCore s h c _ fun k => by
      have := each_freeReg_core ps k
      generalize each ps k freeReg = y at this
      rw [this]
  unfold freeRegs
  simp only
  split
  · exact h1
  · unfold send
    split
    · exact h1
    · obtain ⟨a1, a2, a3, a4, a5, a6⟩ := h1
      exact ⟨a1, a2, a3, a4, .inr ⟨c, rfl⟩, by rw [a6]⟩

theorem freeRegs_clock (s : State) (c : Nat) (ps : List Nat) (d : Nat) : sameClock (coreOf s d) (coreOf (freeRegs s c ps) d) := by
  have key : sameClock (coreOf s d) (coreOf (modCore s c fun k => each ps k freeReg) d) := by
    rw [coreOf_modCore]
    split
    · rename_i e; subst e
      rw [each_freeReg_core]
      exact ⟨rfl, rfl⟩
    · exact ⟨rfl, rfl⟩
  unfold freeRegs
  simp only
  split
  · exact key
  · unfold send
    split <;> exact key

theorem freeRegs_group (s : State) (c : Nat) (ps : List Nat) (h : Nat) : groupOf (freeRegs s c ps) h = groupOf s h :=
  (freeRegs_elsewhere s (h + 1) c ps).1 h (by omega)

/-! ### Windows -/

theorem wins_after (x : Ctx) (vw uw : List Nat) (len : Nat) :
    ((discardWins x vw uw).wins.map fun w => { w with left := w.left - len }) = winsAfter x vw uw len := by
  unfold winsAfter discardWins
  simp only [List.map_map]
  refine List.map_congr_left fun w _ => ?_
  simp only [Function.comp]
  by_cases hc : 0 < w.left
  · cases hm : (meets w.vdst vw || meets w.udst uw) <;> simp [hc]
  · simp [hc]

/-! ### Writes -/

theorem getD_replicate_zero (n t : Nat) : (List.replicate n (0 : W32)).getD t 0 = 0 := by
  by_cases h : t < n <;> simp [List.getD, h]

theorem allocReg_readV (s : State) (g : Group) (r : Nat) (n t : Nat) :
    readV (allocReg s g r (find g.ctx.v r).isNone).2.ctx n t = readV g.ctx n t := by
  unfold allocReg readV
  simp only [find_put]
  by_cases h : n = r
  · subst h
    simp only [if_true]
    cases hf : find g.ctx.v n with
    | none => simp
    | some v => simp
  · simp [h]

theorem allocReg_shape (s : State) (g : Group) (r : Nat) (b : Bool) :
    (allocReg s g r b).2 = { g with ctx := { g.ctx with v := (allocReg s g r b).2.ctx.v } } := rfl

theorem allocReg_mapped (s : State) (g : Group) (r n : Nat) (b : Bool) :
    (find (allocReg s g r b).2.ctx.v n).isSome = (n = r || (find g.ctx.v n).isSome) := by
  unfold allocReg
  simp only [find_put]
  by_cases h : n = r <;> simp [h]

theorem allocReg_elsewhere (s : State) (g : Group) (r h : Nat) (b : Bool) :
    Elsewhere s h s.nextId (allocReg s g r b).1 ∧ (allocReg s g r b).1.due = s.due := by
  refine ⟨elsewhere_modCore s h g.core (fun k => { k with pregs := put k.pregs (freePid (coreOf s g.core)) { rows := rowsOf g.w } })
    (fun _ => rfl), rfl⟩

theorem sameClock.trans {a b c : Core} (x : sameClock a b) (y : sameClock b c) : sameClock a c :=
  ⟨y.1.trans x.1, y.2.trans x.2⟩

theorem alloc_clock (l : List Nat) (s : State) (g : Group) (d : Nat) :
    sameClock (coreOf s d) (coreOf (each l (s, g) fun y r => allocReg y.1 y.2 r (find y.2.ctx.v r).isNone).1 d) := by
  induction l generalizing s g with
  | nil => exact ⟨rfl, rfl⟩
  | cons r l ih =>
    have a : sameClock (coreOf s d) (coreOf (allocReg s g r (find g.ctx.v r).isNone).1 d) := by
      unfold allocReg
      simp only [coreOf_setCore]
      split
      · rename_i e; subst e; exact ⟨rfl, rfl⟩
      · exact ⟨rfl, rfl⟩
    exact a.trans (ih _ _)

theorem writeRegs_clock (s : State) (g : Group) (wr : List RegWr) (d : Nat) :
    sameClock (coreOf s d) (coreOf (writeRegs s g wr).1 d) := alloc_clock _ s g d

/-- Accounting from a state whose clocks are those of an earlier one. -/
theorem Accounted.of_clock {s u t : State} {g g' q : Group} {cyc : Nat} (a : Accounted u q cyc t g')
    (hc : q.core = g.core) (hs : q.slot0 = g.slot0) (h : sameClock (coreOf s g.core) (coreOf u g.core)) :
    Accounted s g cyc t g' := by
  obtain ⟨a1, a2, a3⟩ := a
  rw [hc] at a1 a2 a3
  rw [hs] at a2 a3
  rw [h.1] at a1
  rw [h.2] at a2 a3
  exact ⟨a1, a2, a3⟩

/-- Allocating what a list of registers needs. -/
theorem alloc_each (l : List Nat) (s : State) (g : Group) (h : Nat) :
    let y := each l (s, g) fun y r => allocReg y.1 y.2 r (find y.2.ctx.v r).isNone
    (∀ n t, readV y.2.ctx n t = readV g.ctx n t)
    ∧ (∀ n, (find y.2.ctx.v n).isSome = (decide (n ∈ l) || (find g.ctx.v n).isSome))
    ∧ y.2 = { g with ctx := { g.ctx with v := y.2.ctx.v } }
    ∧ Elsewhere s h s.nextId y.1 ∧ y.1.due = s.due := by
  induction l generalizing s g with
  | nil => exact ⟨fun _ _ => rfl, fun _ => by simp [each], rfl, Elsewhere.refl s h, rfl⟩
  | cons r l ih =>
    have e : (each (r :: l) (s, g) fun y r => allocReg y.1 y.2 r (find y.2.ctx.v r).isNone)
      = each l (allocReg s g r (find g.ctx.v r).isNone) fun y r => allocReg y.1 y.2 r (find y.2.ctx.v r).isNone := rfl
    simp only
    rw [e]
    obtain ⟨i1, i2, i3, i4, i5⟩ := ih (allocReg s g r (find g.ctx.v r).isNone).1 (allocReg s g r (find g.ctx.v r).isNone).2
    obtain ⟨a1, a2⟩ := allocReg_elsewhere s g r h (find g.ctx.v r).isNone
    rw [elsewhere_next a1] at i4
    refine ⟨fun n t => (i1 n t).trans (allocReg_readV s g r n t), fun n => ?_, ?_, a1.trans i4 i5, i5.trans a2⟩
    · refine (i2 n).trans ?_
      rw [allocReg_mapped]
      simp only [List.mem_cons]
      by_cases h1 : n ∈ l <;> by_cases h2 : n = r <;> simp [h1, h2]
    · exact i3

theorem applyWr_shape (x : Ctx) (w : RegWr) : applyWr x w = { x with s := (applyWr x w).s, v := (applyWr x w).v } := by
  unfold applyWr; split
  · rfl
  · split <;> rfl

theorem applyWr_readS (x : Ctx) (w : RegWr) (n : Nat) :
    readS (applyWr x w) n = if w.uni = true ∧ w.reg = n then w.val else readS x n := by
  unfold applyWr readS
  cases hu : w.uni with
  | true =>
    simp only [if_true, getD_setPad]
    by_cases h : n = w.reg
    · simp [h]
    · simp [h, Ne.symm h]
  | false =>
    simp only [Bool.false_eq_true, if_false, false_and]
    split <;> rfl

theorem applyWr_readV (x : Ctx) (w : RegWr) (n t : Nat) (hm : w.uni = false → (find x.v w.reg).isSome) :
    readV (applyWr x w) n t = if w.uni = false ∧ w.reg = n ∧ w.t = t then w.val.setWidth 32 else readV x n t := by
  unfold applyWr readV
  cases hu : w.uni with
  | true => simp
  | false =>
    have := hm hu
    cases hf : find x.v w.reg with
    | none => simp [hf] at this
    | some v =>
      simp only [Bool.false_eq_true, if_false, find_put, true_and]
      by_cases h1 : n = w.reg
      · subst h1
        simp only [if_true, hf, getD_setPad, true_and]
        by_cases h2 : t = w.t
        · simp [h2]
        · simp [h2, Ne.symm h2]
      · simp [h1, Ne.symm h1]

theorem applyWr_mapped (x : Ctx) (w : RegWr) (n : Nat) : (find (applyWr x w).v n).isSome = (find x.v n).isSome := by
  unfold applyWr
  split
  · rfl
  · split
    · rename_i v hf
      simp only [find_put]
      by_cases h : n = w.reg
      · subst h; simp [hf]
      · simp [h]
    · rfl

/-- Register writes to a context whose vector registers they name are mapped. -/
theorem applyWr_each (wr : List RegWr) (x : Ctx) (hm : ∀ w ∈ wr, w.uni = false → (find x.v w.reg).isSome) :
    (∀ n t, readV (each wr x applyWr) n t = lastV wr (readV x n t) n t)
    ∧ (∀ n, readS (each wr x applyWr) n = lastS wr (readS x n) n)
    ∧ each wr x applyWr = { x with s := (each wr x applyWr).s, v := (each wr x applyWr).v } := by
  induction wr generalizing x with
  | nil => exact ⟨fun _ _ => rfl, fun _ => rfl, rfl⟩
  | cons w wr ih =>
    have e : each (w :: wr) x applyWr = each wr (applyWr x w) applyWr := rfl
    rw [e]
    have hw := hm w (List.mem_cons_self ..)
    obtain ⟨i1, i2, i3⟩ := ih (applyWr x w) fun u hu hf => by
      rw [applyWr_mapped]; exact hm u (List.mem_cons_of_mem _ hu) hf
    refine ⟨fun n t => ?_, fun n => ?_, ?_⟩
    · rw [i1, applyWr_readV x w n t hw]; rfl
    · rw [i2, applyWr_readS]; rfl
    · rw [i3, applyWr_shape x w]

theorem mem_needNew {x : Ctx} {fr vw : List Nat} {r : Nat} (h1 : r ∈ vw) (h2 : find x.v r = none) : r ∈ needNew x fr vw := by
  simp [needNew, h1, h2]

theorem mem_vRegs {wr : List RegWr} {w : RegWr} (h : w ∈ wr) (hu : w.uni = false) : w.reg ∈ vRegs wr := by
  unfold vRegs
  rw [List.mem_eraseDups]
  exact List.mem_map_of_mem (List.mem_filter.2 ⟨h, by simp [hu]⟩)

/-- What writing registers does: allocation, then the writes. -/
theorem writeRegs_spec (s : State) (g : Group) (wr : List RegWr) (h : Nat) :
    (∀ n t, readV (writeRegs s g wr).2.ctx n t = lastV wr (readV g.ctx n t) n t)
    ∧ (∀ n, readS (writeRegs s g wr).2.ctx n = lastS wr (readS g.ctx n) n)
    ∧ (writeRegs s g wr).2 = { g with grant := (writeRegs s g wr).2.grant, ctx := { g.ctx with s := (writeRegs s g wr).2.ctx.s, v := (writeRegs s g wr).2.ctx.v } }
    ∧ Elsewhere s h s.nextId (writeRegs s g wr).1 ∧ (writeRegs s g wr).1.due = s.due := by
  obtain ⟨a1, a2, a3, a4, a5⟩ := alloc_each (needNew g.ctx [] (vRegs wr)) s g h
  unfold writeRegs
  simp only at a1 a2 a3 a4 a5 ⊢
  generalize each (needNew g.ctx [] (vRegs wr)) (s, g) (fun y r => allocReg y.1 y.2 r (find y.2.ctx.v r).isNone) = y at *
  have hm : ∀ w ∈ wr, w.uni = false → (find y.2.ctx.v w.reg).isSome := by
    intro w hw hu
    rw [a2]
    cases hf : find g.ctx.v w.reg with
    | some v => simp
    | none => simp [mem_needNew (fr := []) (mem_vRegs hw hu) hf]
  obtain ⟨b1, b2, b3⟩ := applyWr_each wr y.2.ctx hm
  refine ⟨fun n t => by rw [b1, a1], fun n => ?_, ?_, a4, a5⟩
  · rw [b2, a3]; rfl
  · rw [b3, a3]

/-! ### Masks -/

theorem writeMask_shape (x : Ctx) (w n : Nat) (m : Word) : writeMask x w n m = { x with k := (writeMask x w n m).k } := by
  unfold writeMask; split <;> rfl

theorem writeMask_reg (x : Ctx) (w n j : Nat) (m : Word) (hj : j ≠ 0) :
    maskReg (writeMask x w n m) j = if n = j then m &&& fullMask w else maskReg x j := by
  unfold writeMask
  split
  · rename_i h; subst h; rw [if_neg (fun e => hj e.symm)]
  · unfold maskReg
    rw [if_neg hj, if_neg hj, getD_setPad]
    by_cases h : n = j
    · subst h; simp
    · rw [if_neg h, if_neg (fun e => h e.symm)]

theorem writeMask_each (ms : List (Nat × Word)) (x : Ctx) (w : Nat) :
    (∀ j, j ≠ 0 → maskReg (each ms x fun x m => writeMask x w m.1 m.2) j = lastK ms w (maskReg x j) j)
    ∧ (each ms x fun x m => writeMask x w m.1 m.2) = { x with k := (each ms x fun x m => writeMask x w m.1 m.2).k } := by
  induction ms generalizing x with
  | nil => exact ⟨fun _ _ => rfl, rfl⟩
  | cons m ms ih =>
    have e : (each (m :: ms) x fun x m => writeMask x w m.1 m.2) = each ms (writeMask x w m.1 m.2) fun x m => writeMask x w m.1 m.2 := rfl
    rw [e]
    obtain ⟨i1, i2⟩ := ih (writeMask x w m.1 m.2)
    refine ⟨fun j hj => ?_, ?_⟩
    · rw [i1 j hj, writeMask_reg x w m.1 j m.2 hj]; rfl
    · rw [i2, writeMask_shape x w m.1 m.2]

theorem readV_unmap (x : Ctx) (rs : List Nat) (n t : Nat) :
    readV (unmap x rs).1 n t = if n ∈ rs then 0 else readV x n t := by
  unfold unmap readV
  simp only [find_each_del]
  by_cases h : n ∈ rs <;> simp [h]

/-! ### Completing a word and opening a window -/

/-- Setting the group, freeing registers and accounting, after the state has changed elsewhere only. -/
theorem finish_elsewhere {s t : State} {h n : Nat} (a : Elsewhere s h n t) (hd : t.due = s.due) (g : Group) (c : Nat)
    (ps : List Nat) (cyc : Nat) : Elsewhere s h n (spend (freeRegs (setGroup t h g) c ps) h cyc) := by
  have b := elsewhere_setGroup t h g
  have c1 := freeRegs_elsewhere (setGroup t h g) h c ps
  obtain ⟨d, e⟩ := spend_elsewhere (freeRegs (setGroup t h g) c ps) h cyc
  rw [elsewhere_next c1] at d
  exact elsewhere_next a ▸ (((a.trans b rfl).trans' c1 hd).trans d e)

/-- What `retire` does. -/
theorem retire_spec (s : State) (h : Nat) (g : Group) (io : Io) (len cyc : Nat) (r : Res) :
    Retired s h g io len cyc r (retire s h g io len cyc r) := by
  unfold retire
  simp only
  generalize hy : ({ g with ctx := (unmap (discardWins g.ctx (vRegs r.wr) (uRegs r.wr)) (lrTakes g.ctx io)).1 } : Group) = gy
  obtain ⟨w1, w2, w3, w4, w5⟩ := writeRegs_spec s gy r.wr h
  have wc := writeRegs_clock s gy r.wr g.core
  generalize writeRegs s gy r.wr = y at *
  obtain ⟨m1, m2⟩ := writeMask_each r.masks y.2.ctx g.w
  generalize (each r.masks y.2.ctx fun x m => writeMask x g.w m.1 m.2) = z at *
  generalize hq : ({ y.2 with ctx := passWins { setFlags z r.flags with
    pc := (setFlags z r.flags).pc + .ofNat 64 (8 * len), phase := 0 } len, grant := 0 } : Group) = q
  have hset : groupOf (freeRegs (setGroup y.1 h q) g.core (unmap (discardWins g.ctx (vRegs r.wr) (uRegs r.wr)) (lrTakes g.ctx io)).2) h
      = some q := by rw [freeRegs_group, groupOf_setGroup, if_pos rfl]
  refine ⟨?_, ?_⟩
  · obtain ⟨n, hn, hacc⟩ := spend_group _ h cyc q hset
    refine ⟨_, hn, ⟨?_, ?_, ?_, ?_⟩, ?_⟩
    · intro n t
      have e1 : readV q.ctx n t = readV z n t := by subst hq; rfl
      have e2 : readV z n t = readV y.2.ctx n t := by rw [m2]; rfl
      have e3 : readV gy.ctx n t = readV (unmap (discardWins g.ctx (vRegs r.wr) (uRegs r.wr)) (lrTakes g.ctx io)).1 n t := by
        subst hy; rfl
      show readV q.ctx n t = _
      rw [e1, e2, w1, e3, readV_unmap]
      rfl
    · intro n
      have e1 : readS q.ctx n = readS z n := by subst hq; rfl
      have e2 : readS z n = readS y.2.ctx n := by rw [m2]; rfl
      have e3 : readS gy.ctx n = readS g.ctx n := by subst hy; rfl
      show readS q.ctx n = _
      rw [e1, e2, w2, e3]
    · intro n hn
      have e1 : maskReg q.ctx n = maskReg z n := by subst hq; rfl
      have e3 : maskReg y.2.ctx n = maskReg g.ctx n := by rw [w3]; subst hy; rfl
      show maskReg q.ctx n = _
      rw [e1, m1 n hn, e3]
    · have hw := wins_after g.ctx (vRegs r.wr) (uRegs r.wr) len
      subst hq
      rw [← hw, m2, w3]
      subst hy
      rfl
    · have hc : q.core = g.core := by subst hq; rw [w3]; subst hy; rfl
      have hs : q.slot0 = g.slot0 := by subst hq; rw [w3]; subst hy; rfl
      exact hacc.of_clock hc hs (wc.trans (freeRegs_clock (setGroup y.1 h q) _ _ _))
  · exact finish_elsewhere w4 w5 _ _ _ _

theorem noteFlight_core (k : Core) (p : Nat) : noteFlight k p = { k with pregs := (noteFlight k p).pregs } := by
  unfold noteFlight; split <;> rfl

theorem each_noteFlight_core (l : List Nat) (k : Core) :
    each l k noteFlight = { k with pregs := (each l k noteFlight).pregs } := by
  induction l generalizing k with
  | nil => rfl
  | cons p l ih =>
    have e : each (p :: l) k noteFlight = each l (noteFlight k p) noteFlight := rfl
    rw [e]
    refine (ih (noteFlight k p)).trans ?_
    rw [noteFlight_core k p]

theorem elsewhere_newId (s : State) (h : Nat) : Elsewhere s h (s.nextId + 1) (newId s).2 :=
  ⟨fun _ _ => rfl, fun _ => rfl, fun _ => rfl, fun _ => rfl, .inl rfl, rfl⟩

/-- What `openWin` does. -/
theorem openWin_spec (s : State) (h : Nat) (g : Group) (io : Io) (len cyc la : Nat) (win : Win) :
    Begun s h g io len cyc la win (openWin s h g io len cyc la win) := by
  unfold openWin
  simp only [newId]
  generalize (List.filterMap (fun r => Option.map (fun v => (v.pid, look (coreOf _ g.core).pgens v.pid 0)) (find g.ctx.v r)) io.vw) = pids
  generalize hu : modCore { s with nextId := s.nextId + 1 } g.core (fun k => each (pids.map (·.1)) k noteFlight) = u
  have hud : u.due = s.due := by subst hu; rfl
  have a : Elsewhere s h (s.nextId + 1) u := by
    subst hu
    refine (elsewhere_newId s h).trans (elsewhere_modCore _ h _ _ fun k => ?_) rfl
    have := each_noteFlight_core (pids.map (·.1)) k
    generalize each (pids.map (·.1)) k noteFlight = y at this
    rw [this]
  generalize hx : unmap (discardWins g.ctx io.vw io.uw) ((lrTakes g.ctx io).filter fun r => !io.vw.contains r) = x
  have hw := wins_after g.ctx io.vw io.uw len
  refine ⟨?_, finish_elsewhere a hud _ _ _ _⟩
  have hg : groupOf (freeRegs (setGroup u h { g with ctx := { passWins x.1 len with
      pc := (passWins x.1 len).pc + .ofNat 64 (8 * len), phase := 0
      wins := (passWins x.1 len).wins ++ [{ win with srcs := io.vr.map fun r => (List.range g.w).map fun t => readV g.ctx r t
                                                     usrcs := io.ur.map (readS g.ctx)
                                                     id := s.nextId, pc := g.ctx.pc, left := la, vdst := io.vw.eraseDups, udst := io.uw
                                                     pids := pids, frees := win.frees ++ (lrTakes g.ctx io).filter io.vw.contains }] } }) g.core x.2) h
      = some { g with ctx := { passWins x.1 len with
      pc := (passWins x.1 len).pc + .ofNat 64 (8 * len), phase := 0
      wins := (passWins x.1 len).wins ++ [{ win with srcs := io.vr.map fun r => (List.range g.w).map fun t => readV g.ctx r t
                                                     usrcs := io.ur.map (readS g.ctx)
                                                     id := s.nextId, pc := g.ctx.pc, left := la, vdst := io.vw.eraseDups, udst := io.uw
                                                     pids := pids, frees := win.frees ++ (lrTakes g.ctx io).filter io.vw.contains }] } } := by
    rw [freeRegs_group, groupOf_setGroup, if_pos rfl]
  obtain ⟨n, hn, hacc⟩ := spend_group _ h cyc _ hg
  have hclk : sameClock (coreOf s g.core) (coreOf u g.core) := by
    subst hu
    rw [coreOf_modCore, if_pos rfl, each_noteFlight_core]
    exact ⟨rfl, rfl⟩
  refine ⟨_, hn, ⟨?_, pids, ?_⟩, hacc.of_clock rfl rfl (hclk.trans (freeRegs_clock (setGroup u h _) _ _ _))⟩
  · intro n t
    show readV (passWins x.1 len) n t = _
    have e1 : readV (passWins x.1 len) n t = readV x.1 n t := rfl
    rw [e1, ← hx, readV_unmap]
    have e2 : readV (discardWins g.ctx io.vw io.uw) n t = readV g.ctx n t := rfl
    rw [e2]
    simp [List.mem_filter]
  · subst hx
    rw [← hw]
    rfl

end Sys2Proof.Machine
end

