-- ==== Sys2Proof/Laws/Frames.lean ====
section
/-! SUPPORT. What the operations on lines, homes, records and futures leave as it was, and that they keep memory's canonical
form. -/

namespace Sys2Proof.Machine

/-- Two states that differ only in memory, its tags, what is kept of lines, directory entries, cores, prefetchers, events in
flight and their numbers, boosts, the lists of futures and the next handle; memory keeps its canonical form. -/
def Beyond (s t : State) : Prop :=
  t = { s with mem := t.mem, tags := t.tags, lines := t.lines, dir := t.dir, cores := t.cores, due := t.due
               boosts := t.boosts, tasks := t.tasks, prefS := t.prefS, prefP := t.prefP, srcSeq := t.srcSeq
               nextId := t.nextId }
  ∧ (Memory.wf s.mem = true → Memory.wf t.mem = true)

theorem Beyond.refl (s : State) : Beyond s s := ⟨rfl, id⟩

theorem Beyond.trans {s t u : State} (a : Beyond s t) (b : Beyond t u) : Beyond s u :=
  ⟨by rw [b.1, a.1], fun h => b.2 (a.2 h)⟩

/-- A fold of changes of this kind is one. -/
theorem beyond_each {α : Type} (l : List α) (s : State) (f : State → α → State) (hf : ∀ s a, Beyond s (f s a)) :
    Beyond s (each l s f) := by
  induction l generalizing s with
  | nil => exact Beyond.refl s
  | cons a l ih => exact (hf s a).trans (ih (f s a))

theorem beyond_modLine (s : State) (la : Nat) (f : LineSt → LineSt) : Beyond s (modLine s la f) := ⟨rfl, id⟩
theorem beyond_modCore (s : State) (c : Nat) (f : Core → Core) : Beyond s (modCore s c f) := ⟨rfl, id⟩
theorem beyond_setDir (s : State) (e e' : DirEnt) : Beyond s (setDir s e e') := ⟨rfl, id⟩
theorem beyond_dropNear (s : State) (c la : Nat) : Beyond s (dropNear s c la) := ⟨rfl, id⟩
theorem beyond_observe (s : State) (c v : Nat) : Beyond s (observe s c v) := ⟨rfl, id⟩

theorem beyond_send (s : State) (ev : Instr) (x : Subj) : Beyond s (send s ev x) := by
  unfold send; split
  · exact Beyond.refl s
  · exact ⟨rfl, id⟩

theorem beyond_dirSync (s : State) (la : Nat) : Beyond s (dirSync s la) := by
  unfold dirSync; split
  · exact Beyond.refl s
  · dsimp only; split <;> exact beyond_setDir ..

theorem beyond_writeSector (s : State) (la i slot : Nat) (d : LineData) (k : ByteMask) : Beyond s (writeSector s la i slot d k) := by
  refine ⟨?_, writeSector_wf s la i slot d k⟩
  unfold writeSector; split <;> rfl

theorem beyond_memWrite (s : State) (la slot : Nat) (d : LineData) (k : ByteMask) : Beyond s (memWrite s la slot d k) :=
  (((beyond_writeSector ..).trans (beyond_writeSector ..)).trans (beyond_writeSector ..)).trans (beyond_writeSector ..)

theorem beyond_post (s : State) (code kind idx tn : Nat) (w : W32) : Beyond s (post s code kind idx tn w) :=
  Beyond.trans (t := { s with srcSeq := _ }) ⟨rfl, id⟩ (beyond_send ..)

theorem beyond_modPrefS (s : State) (sl : Nat) (f : Pref → Pref) : Beyond s (modPrefS s sl f) := ⟨rfl, id⟩
theorem beyond_modPrefP (s : State) (c : Nat) (f : Pref → Pref) : Beyond s (modPrefP s c f) := ⟨rfl, id⟩
theorem beyond_newId (s : State) : Beyond s (newId s).2 := ⟨rfl, id⟩

theorem beyond_memBack (s : State) (la slot : Nat) (d : LineData) : Beyond s (memBack s la slot d) := by
  unfold memBack; split
  · exact beyond_memWrite ..
  · exact Beyond.refl s

theorem beyond_unused (s : State) (la : Nat) : Beyond s (unused s la) := by
  unfold unused; split
  · exact ((beyond_modLine ..).trans (beyond_modPrefS ..)).trans (beyond_post ..)
  · exact Beyond.refl s

theorem beyond_dropSliceLine (s : State) (die la : Nat) : Beyond s (dropSliceLine s die la) := by
  unfold dropSliceLine
  refine (beyond_unused s la).trans ?_
  generalize unused s la = u
  dsimp only
  split
  · refine Beyond.trans ?_ (beyond_modLine ..)
    split
    · split
      · exact beyond_memBack ..
      · exact Beyond.refl _
    · exact Beyond.refl _
  · split
    · exact Beyond.refl _
    · split
      · exact beyond_modLine ..
      · exact (beyond_modLine ..).trans (beyond_send ..)

theorem beyond_sliceRoom (s : State) (sl la : Nat) : Beyond s (sliceRoom s sl la) := by
  unfold sliceRoom
  dsimp only
  split
  · exact Beyond.refl s
  · split
    · exact beyond_dropSliceLine ..
    · exact Beyond.refl s

theorem beyond_fillHome (s : State) (la slot : Nat) : Beyond s (fillHome s la slot) := by
  unfold fillHome
  dsimp only
  split
  · split
    · exact Beyond.refl s
    · split
      · exact (beyond_memBack ..).trans (beyond_modLine ..)
      · exact beyond_modLine ..
  · exact (beyond_sliceRoom ..).trans (beyond_modLine ..)

theorem beyond_patchPassing (s : State) (la : Nat) (d : LineData) (k : ByteMask) : Beyond s (patchPassing s la d k) := ⟨rfl, id⟩

theorem beyond_mergeHome (s : State) (la slot : Nat) (d : LineData) (k : ByteMask) (vw : Option Nat) :
    Beyond s (mergeHome s la slot d k vw) := by
  unfold mergeHome
  exact ((beyond_fillHome s la slot).trans (beyond_patchPassing ..)).trans (beyond_modLine ..)

theorem beyond_dropCopies (s : State) (la : Nat) : Beyond s (dropCopies s la) := by
  unfold dropCopies
  dsimp only
  refine Beyond.trans ?_ (beyond_modLine ..)
  split
  · split
    · exact beyond_unused ..
    · exact Beyond.refl s
  · exact Beyond.refl s

theorem beyond_mergeAuthority (s : State) (c la slot : Nat) (d : LineData) (k : ByteMask) (vw : Nat) (p : Bool) :
    Beyond s (mergeAuthority s c la slot d k vw p) := by
  have owned : Beyond s (match ownerDie (lineSt s la) with
      | some o => if (look (lineSt s la).copies o {}).st == .e then s
        else mergeHome s la (look (lineSt s la).copies o {}).slot (look (lineSt s la).copies o {}).data allBytes none
      | none => s) := by
    split
    · split
      · exact Beyond.refl s
      · exact beyond_mergeHome ..
    · exact Beyond.refl s
  have last : ∀ u : State, Beyond u (dirSync (if p then modLine u la fun l => { l with poison := true } else u) la) := by
    intro u
    refine Beyond.trans ?_ (beyond_dirSync ..)
    split
    · exact beyond_modLine ..
    · exact Beyond.refl u
  have home := (owned.trans (beyond_dropCopies _ la)).trans (beyond_mergeHome _ la slot d k (some vw))
  unfold mergeAuthority
  dsimp only
  refine Beyond.trans ?_ (last _)
  split
  · split
    · exact beyond_modLine ..
    · exact home
  · exact home

theorem beyond_recallNear (s : State) (la c : Nat) : Beyond s (recallNear s la c) := by
  unfold recallNear; split
  · split
    · dsimp only; split
      · exact beyond_dropNear ..
      · exact (((beyond_dropNear ..).trans (beyond_mergeAuthority ..)).trans (beyond_newId _)).trans (beyond_send ..)
    · exact Beyond.refl s
  · exact Beyond.refl s

theorem beyond_performWriteback (s : State) (c la slot : Nat) (d : LineData) (k : ByteMask) (vw : Nat) (p : Bool) :
    Beyond s (performWriteback s c la slot d k vw p) :=
  (beyond_each _ _ _ fun _ _ => beyond_recallNear ..).trans (beyond_mergeAuthority ..)

theorem beyond_recallNears (s : State) (la : Nat) : Beyond s (recallNears s la) :=
  beyond_each _ _ _ fun _ _ => beyond_recallNear ..

theorem beyond_takePassing (s : State) (la : Nat) : Beyond s (takePassing s la) := by
  unfold takePassing; split
  · exact beyond_modLine ..
  · exact Beyond.refl s

theorem beyond_dirEvent (s : State) (la : Nat) : Beyond s (dirEvent s la) := by
  unfold dirEvent; split
  · exact Beyond.refl s
  · exact (beyond_newId s).trans (beyond_setDir ..)

theorem beyond_ownerHome (s : State) (la : Nat) : Beyond s (ownerHome s la) := by
  unfold ownerHome; split
  · exact (beyond_fillHome ..).trans (beyond_modLine ..)
  · exact Beyond.refl s

theorem beyond_bringHome (s : State) (la : Nat) (keep : Bool) : Beyond s (bringHome s la keep) := by
  unfold bringHome
  refine Beyond.trans (((beyond_recallNears s la).trans (beyond_takePassing _ la)).trans (beyond_ownerHome _ la)) ?_
  refine Beyond.trans ?_ (beyond_dirSync ..)
  split
  · exact Beyond.refl _
  · exact beyond_dropCopies ..

theorem beyond_evictEntry (s : State) (e : DirEnt) : Beyond s (evictEntry s e) :=
  (beyond_each _ _ _ fun _ _ => beyond_bringHome ..).trans ⟨rfl, id⟩

theorem beyond_entryRoom (s : State) (sl but : Nat) : Beyond s (entryRoom s sl but) := by
  unfold entryRoom
  dsimp only
  split
  · exact Beyond.refl s
  · split
    · exact beyond_evictEntry ..
    · exact Beyond.refl s

theorem beyond_narrow (fuel : Nat) (s : State) (la : Nat) (excl : Bool) : Beyond s (narrow fuel s la excl) := by
  induction fuel generalizing s with
  | zero => unfold narrow; exact Beyond.refl s
  | succ fuel ih =>
    unfold narrow
    split
    · rename_i e h1 h2
      cases h1
      dsimp only
      split
      · exact Beyond.refl s
      · refine Beyond.trans ?_ (ih _)
        refine Beyond.trans ?_ (beyond_dirEvent ..)
        refine Beyond.trans ?_ (beyond_post ..)
        exact (beyond_entryRoom ..).trans ⟨rfl, id⟩
    · exact Beyond.refl s

theorem beyond_gather (s : State) (la : Nat) (keep : Bool) : Beyond s (gather s la keep) :=
  (beyond_narrow ..).trans (beyond_bringHome ..)

theorem beyond_readAtHome (s : State) (la slot : Nat) : Beyond s (readAtHome s la slot).2 :=
  (beyond_gather ..).trans (beyond_fillHome ..)

theorem beyond_writeAtHome (s : State) (la slot : Nat) (d : LineData) (k : ByteMask) (vw : Nat) :
    Beyond s (writeAtHome s la slot d k vw) := by
  unfold writeAtHome
  dsimp only
  split
  · exact ((beyond_gather ..).trans (beyond_mergeHome ..)).trans (beyond_modLine ..)
  · exact (beyond_gather ..).trans (beyond_mergeHome ..)

theorem beyond_physWrite (s : State) (pa : Nat) (bs : List Byte) (slot vw : Nat) : Beyond s (physWrite s pa bs slot vw) :=
  beyond_each _ _ _ fun _ _ => beyond_writeAtHome ..

theorem beyond_boosts (s : State) (b : List Boost) : Beyond s { s with boosts := b } := ⟨rfl, id⟩
theorem beyond_tasks (s : State) (k : Tbl Task) : Beyond s { s with tasks := k } := ⟨rfl, id⟩

theorem beyond_futPut (s : State) (pa slot : Nat) (w : Word) (vw : Nat) : Beyond s (futPut s pa slot w vw) := by
  unfold futPut
  exact ((beyond_writeAtHome ..).trans (beyond_boosts ..)).trans (beyond_send ..)

theorem beyond_futWrite (s : State) (pa : Nat) (w : Word) (vw : Nat) : Beyond s (futWrite s pa w vw) := beyond_futPut ..

theorem beyond_futShift (s : State) (p id : Nat) (fs : List Nat) (n : Nat) : Beyond s (futShift s p id fs n) := by
  unfold futShift
  refine beyond_each _ _ _ fun s a => ?_
  dsimp only; split
  · exact beyond_futWrite ..
  · exact Beyond.refl s

theorem beyond_futFault (s : State) (p id code : Nat) : Beyond s (futFault s p id code) := by
  unfold futFault; split
  · exact Beyond.refl s
  · exact (beyond_each _ s (fun s pa => futWrite s pa _ 0) fun s a => beyond_futWrite ..).trans (beyond_tasks ..)

theorem beyond_dropTxLines (s : State) (h c : Nat) (t : Option Nat) : Beyond s (dropTxLines s h c t) := ⟨rfl, id⟩

theorem beyond_freeRegs (s : State) (c : Nat) (ps : List Nat) : Beyond s (freeRegs s c ps) := by
  unfold freeRegs
  dsimp only
  split
  · exact beyond_modCore ..
  · exact (beyond_modCore ..).trans (beyond_send ..)

theorem beyond_dropStale (s : State) (c : Nat) : Beyond s (dropStale s c) := ⟨rfl, id⟩

theorem beyond_writeBack (s : State) (c la : Nat) (drain : Option Nat) (drop : Bool) :
    Beyond s (writeBack s c la none drain drop) := by
  unfold writeBack
  split
  · exact Beyond.refl s
  · dsimp only
    have h := beyond_newId s
    generalize (newId s).2 = u at h ⊢
    refine h.trans ?_
    split
    · refine Beyond.trans ?_ (beyond_send ..)
      split
      · exact beyond_dropNear ..
      · exact beyond_modCore ..
    · refine Beyond.trans ?_ (beyond_send ..)
      have kept : Beyond u (if drop = true then dropNear u c la else modNear u c la fun n => { n with mask := 0 }) := by
        split
        · exact beyond_dropNear ..
        · exact beyond_modCore ..
      refine kept.trans ?_
      generalize (if drop = true then dropNear u c la else modNear u c la fun n => { n with mask := 0 }) = v
      split
      · exact Beyond.refl _
      · exact beyond_performWriteback ..
    · split
      · exact beyond_dropNear ..
      · exact Beyond.refl _

theorem beyond_maintain (s : State) (c la : Nat) (drop : Bool) : Beyond s (maintain s c la none drop) := by
  unfold maintain
  split
  · exact Beyond.refl s
  · split
    · exact beyond_writeBack ..
    · split
      · exact beyond_dropNear ..
      · exact Beyond.refl s

theorem beyond_pendToDirty (s : State) (c : Nat) (p : PendLine) : Beyond s (pendToDirty s c p) := by
  unfold pendToDirty
  dsimp only
  refine Beyond.trans ?_ (beyond_modCore ..)
  split
  · split
    · exact Beyond.refl s
    · exact beyond_maintain ..
  · exact Beyond.refl s

theorem beyond_settlePend (s : State) (h c : Nat) (deep : Bool) : Beyond s (settlePend s h c deep) :=
  beyond_each _ _ _ fun _ _ => beyond_pendToDirty ..

/-- Such a change leaves every group, team, launch, partition, function and command. -/
theorem Beyond.group {s t : State} (a : Beyond s t) (h : Nat) : groupOf t h = groupOf s h := by rw [a.1]; rfl
theorem Beyond.team {s t : State} (a : Beyond s t) (h : Nat) : teamOf t h = teamOf s h := by rw [a.1]; rfl
theorem Beyond.launch {s t : State} (a : Beyond s t) (h : Nat) : launchOf t h = launchOf s h := by rw [a.1]; rfl
theorem Beyond.part {s t : State} (a : Beyond s t) (h : Nat) : partOf t h = partOf s h := by rw [a.1]; rfl
theorem Beyond.groupPart {s t : State} (a : Beyond s t) (g : Group) : groupPart t g = groupPart s g := by rw [a.1]; rfl
theorem Beyond.groupLaunch {s t : State} (a : Beyond s t) (g : Group) : groupLaunch t g = groupLaunch s g := by rw [a.1]; rfl

/-! ### The device's records -/

theorem beyond_cacheLeaf_group (s : State) (c : Nat) (l : Leaf) (h : Nat) : groupOf (cacheLeaf s c l) h = groupOf s h := by
  unfold cacheLeaf; dsimp only; split <;> rfl

/-- A translation leaves every group as it is. -/
theorem translate_group (s : State) (c vf va h : Nat) : groupOf (translate s c vf va).2 h = groupOf s h := by
  unfold translate
  dsimp only
  split
  · rfl
  · split
    · rfl
    · split
      · exact beyond_cacheLeaf_group ..
      · split
        · rfl
        · split
          · exact beyond_cacheLeaf_group ..
          · rfl

/-- A record of the device leaves every group as it is. -/
theorem writeRecord_group (s : State) (g : Group) (va : Nat) (bs : List Byte) (h : Nat) :
    groupOf (writeRecord s g va bs) h = groupOf s h := by
  unfold writeRecord
  generalize pieces _ va bs = l
  induction l generalizing s with
  | nil => rfl
  | cons p l ih =>
    refine (ih _).trans ?_
    dsimp only
    have ht := translate_group s g.core (vfOf s g) (128 * p.1 + p.2.1) h
    split
    · rename_i l' s' e
      rw [e] at ht
      exact ((beyond_writeAtHome ..).group h).trans ht
    · rename_i e s' e'
      rw [e'] at ht
      exact ht

end Sys2Proof.Machine
end

