-- ==== Sys2Proof/Laws/Faults.lean ====
section
/-! SUPPORT. What the operations of a fault leave of groups. -/

namespace Sys2Proof.Machine

theorem ringWrite_group (s : State) (p kind l : Nat) (fs : List (Nat × Nat × Nat)) (h : Nat) : groupOf (ringWrite s p kind l fs) h = groupOf s h := by
  unfold ringWrite
  split
  · rfl
  · dsimp only
    rename_i v _
    refine Eq.trans ?_ ((beyond_physWrite s (v.ring + 64 * (v.seq % 2 ^ v.ringLog)) (record 64 ([(0, 2, kind), (2, 2, l), (4, 4, v.seq)] ++ fs)) 0 0).group h)
    unfold modPart
    split <;> rfl

theorem ringFault_group (s : State) (h : Nat) (g : Group) (r : FaultRec) (j : Nat) : groupOf (ringFault s h g r) j = groupOf s j :=
  ringWrite_group ..

/-- A halted group keeps everything but its state and its record. -/
theorem haltGroup_group (s : State) (h : Nat) (r : FaultRec) (g : Group) (hg : groupOf s h = some g) (j : Nat) :
    groupOf (haltGroup s h r) j = if j = h then some { g with run := .halted, frec := some r } else groupOf s j := by
  unfold haltGroup
  rw [hg]
  dsimp only
  rw [ringFault_group, groupOf_setGroup]

/-- The futures of several tasks end. -/
theorem beyond_futFaults (s : State) (p code : Nat) (l : List Nat) : Beyond s (each l s fun s id => futFault s p id code) :=
  beyond_each _ _ _ fun _ _ => beyond_futFault ..

theorem send_group (s : State) (ev : Instr) (x : Subj) (j : Nat) : groupOf (send s ev x) j = groupOf s j := (beyond_send ..).group j

theorem post_group (s : State) (code kind src tenant : Nat) (payload : W32) (j : Nat) :
    groupOf (post s code kind src tenant payload) j = groupOf s j := by
  unfold post
  dsimp only
  rw [send_group]
  rfl

/-- Posting an event touches no more than its source's sequence and the events in flight. -/
theorem post_frame (s : State) (code kind src tenant : Nat) (payload : W32) :
    post s code kind src tenant payload = { s with srcSeq := (post s code kind src tenant payload).srcSeq
                                                   due := (post s code kind src tenant payload).due } := by
  unfold post send
  dsimp only
  split <;> rfl

/-- A group whose region falls back is marked so; no other group changes. -/
theorem fallBack_group (s : State) (h j : Nat) (g : Group) (hg : groupOf s h = some g) :
    groupOf (fallBack s h) j = if j = h then some (if inRegion g.ctx then { g with ctx := { g.ctx with region := g.ctx.region ||| 2 } } else g)
      else groupOf s j := by
  unfold fallBack
  rw [hg]
  dsimp only
  split
  · rw [(beyond_settlePend ..).group, groupOf_setGroup]
    split
    · rfl
    · exact post_group ..
  · split
    · rename_i e; rw [e, hg]
    · rfl

/-- A region that is not open, or has fallen back, stays as it is. -/
theorem fallBack_none (s : State) (h : Nat) (g : Group) (hg : groupOf s h = some g) (hr : inRegion g.ctx = false) : fallBack s h = s := by
  unfold fallBack
  rw [hg]
  simp [hr]

/-- A context that has left its core: its windows have nothing in flight there, its checkpoint is gone. -/
def bareCtx (x : Ctx) : Ctx := { x with wins := x.wins.map (fun w => { w with pids := [] }), ckpt := none }

theorem unseat_group (s : State) (h j : Nat) (g : Group) (hg : groupOf s h = some g) :
    groupOf (unseat s h) j = if j = h then some { g with ctx := bareCtx g.ctx, shadow := g.shadow.map bareCtx } else groupOf s j := by
  unfold unseat
  rw [hg]
  dsimp only
  rw [(beyond_freeRegs ..).group, groupOf_setGroup]
  rfl

theorem modGroup_group (s : State) (h j : Nat) (f : Group → Group) :
    groupOf (modGroup s h f) j = if j = h then (groupOf s h).map f else groupOf s j := by
  unfold modGroup
  cases hg : groupOf s h with
  | none =>
    dsimp only
    split
    · rename_i e; rw [e, hg]; rfl
    · rfl
  | some g =>
    dsimp only
    rw [groupOf_setGroup]
    rfl

/-- A helper that returns to its slot is ready; no other group changes. -/
theorem returnHelper_group (s : State) (g : Group) (o j : Nat) (ho : g.outer = some o) (hj : j ≠ o) :
    groupOf (returnHelper s g) j = groupOf s j := by
  unfold returnHelper
  rw [ho]
  dsimp only
  split
  · unfold postGroup
    rw [post_group, modGroup_group, if_neg hj]
  · rw [modGroup_group, if_neg hj]

/-! ### Taking a fault -/

/-- What a fault ends lies beyond every group. -/
theorem beyond_faultEnds (s : State) (h : Nat) (g : Group) (r : FaultRec) : Beyond s (faultEnds s h g r) := by
  unfold faultEnds
  dsimp only
  split
  · exact beyond_dropTxLines ..
  · exact (beyond_dropTxLines ..).trans (beyond_each _ _ _ fun _ _ => beyond_futFault ..)

/-- Delivery to a handler. -/
theorem deliver_handler (s : State) (h : Nat) (r : FaultRec) (g : Group) (pc : Word) (hg : groupOf s h = some g)
    (hp : handlerOf (partOf s (groupPart s g)) r.code = some pc) :
    groupOf (deliver s h r) h = some { g with
      ctx := entryCtx pc g.ctx.live (.ofNat 64 (recordAddr ((partOf s (groupPart s g)).handlers.getD 0 0).toNat g.core g.slot0)) g.ctx.taskid
        g.ctx.rv g.ctx.allot g.ctx.cls g.ctx.entry
      shadow := some g.ctx, frec := some r, run := .ready } := by
  unfold deliver
  rw [hg]
  dsimp only
  rw [hp]
  dsimp only
  rw [groupOf_setGroup, if_pos rfl]

/-- A fault with no handler halts its group. -/
theorem deliver_halts (s : State) (h : Nat) (r : FaultRec) (g : Group) (hg : groupOf s h = some g)
    (hp : handlerOf (partOf s (groupPart s g)) r.code = none) : deliver s h r = haltGroup s h r := by
  unfold deliver
  rw [hg]
  dsimp only
  rw [hp]

/-- The records of an adopted group's fault leave every group. -/
theorem ringTasks_group (s : State) (h : Nat) (g : Group) (r : FaultRec) (j : Nat) : groupOf (ringTasks s h g r) j = groupOf s j := by
  unfold ringTasks
  generalize tasksOf g.ctx (charged g r) = l
  induction l generalizing s with
  | nil => rfl
  | cons id l ih => exact (ih _).trans (ringFault_group ..)

/-- The context an adopted group that faults keeps: its fault is pending, unless it was in handler mode. -/
def leftCtx (x : Ctx) (r : FaultRec) (again : Option FaultRec) : Ctx :=
  { x with pending := if again.isSome then none else some r, region := if inRegion x then x.region ||| 2 else x.region }

/-- An adopted group that faults, once off its helper's slot. -/
theorem faultLeaves_group (s : State) (h : Nat) (g : Group) (x : Ctx) (r : FaultRec) (again : Option FaultRec) (o : Nat)
    (ho : g.outer = some o) (hne : o ≠ h) :
    groupOf (faultLeaves s h g x r again) h = some { g with
      ctx := bareCtx (leftCtx x r again), frec := if again.isSome then again else g.frec
      shadow := g.shadow.map bareCtx, run := .faultHeld, outer := none, depth := 0 } := by
  unfold faultLeaves leftCtx
  generalize (if again.isSome = true then none else some r : Option FaultRec) = p
  generalize (if again.isSome = true then again else g.frec) = q
  have h1 : groupOf (setGroup s h { g with ctx := { x with pending := p }, frec := q }) h
      = some { g with ctx := { x with pending := p }, frec := q } := by
    rw [groupOf_setGroup, if_pos rfl]
  have h2 := fallBack_group _ h h _ h1
  rw [if_pos rfl] at h2
  have h3 := modGroup_group (fallBack (setGroup s h { g with ctx := { x with pending := p }, frec := q }) h) h h
    fun g => { g with run := .faultHeld, outer := none, depth := 0 }
  rw [if_pos rfl, h2] at h3
  have h4 := unseat_group _ h h _ h3
  rw [if_pos rfl] at h4
  rw [send_group, returnHelper_group _ _ o _ ho (Ne.symm hne), ringTasks_group, h4]
  have hr' : inRegion ({ x with pending := p } : Ctx) = inRegion x := rfl
  cases hr : inRegion x
  · rw [if_neg (by rw [hr', hr]; decide)]
    rfl
  · rw [if_pos (by rw [hr', hr])]
    rfl

/-- A second fault's record reaches memory; no group changes. -/
theorem secondFault_group (s : State) (g : Group) (r : FaultRec) (j : Nat) : groupOf (secondFault s g r).2 j = groupOf s j := by
  unfold secondFault
  dsimp only
  exact writeRecord_group ..

end Sys2Proof.Machine
end

