-- ==== Sys2Proof/Laws/Issue.lean ====
section
/-! SUPPORT. What issuing a word of each shape comes to when nothing holds it back. -/

namespace Sys2Proof.Machine

/-- A word of registers that nothing holds back completes. -/
theorem issue_retires {s : State} {h : Nat} {g : Group} (hc : current s = some (h, g)) (code len : Nat) (k : BitVec 3) (kn uni : Bool)
    (io : Io) (body : Ctx → Nat → Word → Except Bad Res) (r : Res)
    (q : Group) (hq : q = if endsWindows code then { g with ctx := endWins g.ctx } else g)
    (hb : body q.ctx q.w (effSet q.ctx q.w k kn) = .ok r) (hm : MayRetire s h q io (effSet q.ctx q.w k kn) r.wr) :
    issue s code len k kn uni io body
      = .next (retire s h q io len (if uni then 1 else laneCycles q.w (effSet q.ctx q.w k kn)) r) := by
  obtain ⟨m1, m2⟩ := hm
  unfold issue
  simp only [hc, ← hq, m1, hb, m2]
  rfl

/-- A long-latency word of registers that nothing holds back opens its window. -/
theorem issueLong_begins {s : State} {h : Nat} {g : Group} (hc : current s = some (h, g)) (f : FOps) (io : Io)
    (body : Ctx → Nat → Word → Except Bad Res) (r : Res) (hb : body g.ctx g.w (effSet g.ctx g.w f.k f.kn) = .ok r)
    (m1 : blocked g.ctx (io.under (effSet g.ctx g.w f.k f.kn)) = false)
    (m2 : allocCheck s h g (allocNeed g.ctx io (vRegs r.wr)).1 (allocNeed g.ctx io (vRegs r.wr)).2 ≠ .trap) :
    issueLong s f io body = .next (openWin s h g { io with vw := vRegs r.wr, uw := uRegs r.wr } 1
      (if f.u then 1 else laneCycles g.w (effSet g.ctx g.w f.k f.kn)) f.la.toNat
      { id := 0, pc := 0, left := 0, vals := r.wr, flags := r.flags, done := true }) := by
  unfold issueLong
  simp only [hc, m1, hb]
  cases ha : allocCheck s h g (allocNeed g.ctx io (vRegs r.wr)).1 (allocNeed g.ctx io (vRegs r.wr)).2 with
  | trap => exact absurd ha m2
  | ok => rfl
  | park => rfl

/-- A control word whose body answers a fault raises it with the control state as it was. -/
theorem issueCtl_faults {s : State} {h : Nat} {g : Group} (hc : current s = some (h, g)) (io : Io) (k : BitVec 3) (kn uni : Bool)
    (body : Ctx → Nat → Nat → Word → Flow) (code cause : Nat)
    (hn : blocked (ended g).ctx (io.under (effSet g.ctx g.w k kn)) = false)
    (hb : body (ended g).ctx g.w (groupLaunch (setGroup s h (ended g)) (ended g)).rc.pocket (effSet g.ctx g.w k kn) = .bad code cause) :
    issueCtl s io k kn uni body = .next (raise (setGroup s h (ended g)) h
      (badRec (ended g).ctx (effSet g.ctx g.w k kn) { code := code, cause := cause })) := by
  have hn' : blocked (endWins g.ctx) (io.under (effSet (endWins g.ctx) g.w k kn)) = false := hn
  have hb' : body (endWins g.ctx) g.w (groupLaunch (setGroup s h (ended g)) (ended g)).rc.pocket (effSet (endWins g.ctx) g.w k kn)
    = .bad code cause := hb
  unfold issueCtl
  simp only [hc, hn', Bool.false_eq_true, if_false]
  rw [show ({ g with ctx := endWins g.ctx } : Group) = ended g from rfl, hb']
  rfl

/-- A control word whose body goes on from a context leaves the group there. -/
theorem issueCtl_moves {s : State} {h : Nat} {g : Group} (hc : current s = some (h, g)) (io : Io) (k : BitVec 3) (kn uni : Bool)
    (body : Ctx → Nat → Nat → Word → Flow) (x : Ctx)
    (hn : blocked (ended g).ctx (io.under (effSet g.ctx g.w k kn)) = false)
    (hb : body (ended g).ctx g.w (groupLaunch (setGroup s h (ended g)) (ended g)).rc.pocket (effSet g.ctx g.w k kn) = .go x) :
    ∃ t, issueCtl s io k kn uni body = .next t
      ∧ Moved s h (ended g) io (if uni then 1 else laneCycles g.w (effSet g.ctx g.w k kn)) x t := by
  have hn' : blocked (endWins g.ctx) (io.under (effSet (endWins g.ctx) g.w k kn)) = false := hn
  have hb' : body (endWins g.ctx) g.w (groupLaunch (setGroup s h (ended g)) (ended g)).rc.pocket (effSet (endWins g.ctx) g.w k kn)
    = .go x := hb
  generalize hy : unmap x (lrTakes (ended g).ctx io) = y
  generalize hq : ({ ended g with ctx := { y.1 with phase := 0 } } : Group) = q
  generalize hcy : (if uni then 1 else laneCycles g.w (effSet g.ctx g.w k kn)) = cyc
  have hgo : issueCtl s io k kn uni body
      = .next (spend (freeRegs (setGroup (setGroup s h (ended g)) h q) (ended g).core y.2) h cyc) := by
    unfold issueCtl
    simp only [hc, hn', Bool.false_eq_true, if_false]
    rw [show ({ g with ctx := endWins g.ctx } : Group) = ended g from rfl, hb']
    simp only
    rw [show unmap x (lrTakes (endWins g.ctx) io) = y from hy]
    rw [← hq, ← hcy]
    rfl
  refine ⟨_, hgo, ?_, finish_elsewhere (elsewhere_setGroup s h (ended g)) rfl _ _ _ _⟩
  have hg : groupOf (freeRegs (setGroup (setGroup s h (ended g)) h q) (ended g).core y.2) h = some q := by
    rw [freeRegs_group, groupOf_setGroup, if_pos rfl]
  obtain ⟨n, hn, ha⟩ := spend_group _ h cyc _ hg
  refine ⟨_, hn, ?_, ?_, ?_⟩
  · subst hq; subst hy; rfl
  · intro n t
    subst hq; subst hy
    exact readV_unmap x _ n t
  · have : q.core = g.core ∧ q.slot0 = g.slot0 := by subst hq; exact ⟨rfl, rfl⟩
    exact ha.of_clock this.1 this.2 (freeRegs_clock (setGroup (setGroup s h (ended g)) h q) _ _ _)

/-- A word that uses no register can always complete. -/
theorem mayRetire_nil (s : State) (h : Nat) (g : Group) (eff : Word) : MayRetire s h g {} eff [] := by
  constructor
  · simp only [blocked, Io.under]
    split <;> simp [meets]
  · simp [allocNeed, allocCheck, vRegs, needNew]

/-- The group that issues is there, ready, with no fault waiting. -/
theorem current_group {s : State} {h : Nat} {g : Group} (hc : current s = some (h, g)) :
    groupOf s h = some g ∧ s.cur = h ∧ g.run = .ready ∧ g.ctx.pending = none := by
  unfold current at hc
  split at hc
  · split at hc
    · rename_i g1 hg1 hx
      injection hc with e
      injection e with e1 e2
      subst e1; subst e2
      simp only [Bool.and_eq_true, beq_iff_eq, Option.isNone_iff_eq_none] at hx
      exact ⟨hg1, rfl, hx.1, hx.2⟩
    · cases hc
  · cases hc

section
variable {s : State} {h : Nat} {g : Group} (hc : current s = some (h, g)) (code : Nat) (f : FOps) (io : Io)
  (act : State → Nat → Group → Word → Act) (q : Group) (hq : q = if endsWindows code then ended g else g)

include hc hq

/-- A system word with no thread in E completes and does nothing. -/
theorem issueSys_empty (he : effSet q.ctx q.w f.k f.kn = 0) (hb : blocked q.ctx (io.under (effSet q.ctx q.w f.k f.kn)) = false) :
    issueSys s code f io act = .next (retire (setGroup s h q) h q io 1 (if f.u then 1 else laneCycles q.w (effSet q.ctx q.w f.k f.kn)) {}) := by
  unfold issueSys
  simp only [hc]
  rw [show (if endsWindows code then ({ g with ctx := endWins g.ctx } : Group) else g) = q from hq.symm, if_neg (by simp [hb]), if_pos he]

/-- A system word whose action is done completes from the state it leaves. -/
theorem issueSys_done (he : effSet q.ctx q.w f.k f.kn ≠ 0) (hb : blocked q.ctx (io.under (effSet q.ctx q.w f.k f.kn)) = false) (u : State)
    (ha : act (setGroup s h q) h q (effSet q.ctx q.w f.k f.kn) = .done u) (g' : Group) (hg : groupOf u h = some g') :
    issueSys s code f io act = .next (if g'.run = .retired then u
      else retire u h g' io 1 (if f.u then 1 else laneCycles q.w (effSet q.ctx q.w f.k f.kn)) {}) := by
  unfold issueSys
  simp only [hc]
  rw [show (if endsWindows code then ({ g with ctx := endWins g.ctx } : Group) else g) = q from hq.symm, if_neg (by simp [hb]), if_neg he, ha]
  dsimp only
  rw [hg]
  dsimp only
  by_cases hr : g'.run = .retired
  · rw [if_pos (by simp [hr]), if_pos hr]
  · rw [if_neg (by simp [hr]), if_neg hr]

/-- A system word whose action is a fault raises it. -/
theorem issueSys_bad (he : effSet q.ctx q.w f.k f.kn ≠ 0) (hb : blocked q.ctx (io.under (effSet q.ctx q.w f.k f.kn)) = false) (b : Bad) (u : State)
    (ha : act (setGroup s h q) h q (effSet q.ctx q.w f.k f.kn) = .bad b u) :
    issueSys s code f io act = .next (raise u h (badRec q.ctx (effSet q.ctx q.w f.k f.kn) b)) := by
  unfold issueSys
  simp only [hc]
  rw [show (if endsWindows code then ({ g with ctx := endWins g.ctx } : Group) else g) = q from hq.symm, if_neg (by simp [hb]), if_neg he, ha]

/-- A system word whose action waits issues again. -/
theorem issueSys_wait (he : effSet q.ctx q.w f.k f.kn ≠ 0) (hb : blocked q.ctx (io.under (effSet q.ctx q.w f.k f.kn)) = false) (u : State)
    (ha : act (setGroup s h q) h q (effSet q.ctx q.w f.k f.kn) = .wait u) : issueSys s code f io act = .next u := by
  unfold issueSys
  simp only [hc]
  rw [show (if endsWindows code then ({ g with ctx := endWins g.ctx } : Group) else g) = q from hq.symm, if_neg (by simp [hb]), if_neg he, ha]

end

/-- In handler mode a privileged word is issued as a system word. -/
theorem issueHandler_eq {s : State} {h : Nat} {g : Group} (hc : current s = some (h, g)) (x : Ctx) (hx : g.shadow = some x) (op : Op) (f : FOps) (io : Io)
    (act : State → Nat → Group → Ctx → Act) :
    issueHandler s op f io act = issueSys s op.code f io fun s h g _ => act s h g x := by
  unfold issueHandler
  simp only [hc, hx]

end Sys2Proof.Machine
end

