-- ==== Sys2Proof/Laws/Lines.lean ====
section
/-! SUPPORT. The bits of bytes put together, of merged lines, and a sector read after a write. -/

namespace Sys2Proof.Machine

/-- A bit of a number put together from a lower part and a multiple of a power of two. -/
theorem testBit_join (a b i j : Nat) (h : b < 2 ^ i) : (b + 2 ^ i * a).testBit j = if j < i then b.testBit j else a.testBit (j - i) := by
  rw [Nat.add_comm, Nat.testBit_two_pow_mul_add a h j]

/-- A bit of little-endian bytes. -/
theorem leNat_testBit (bs : List Byte) (j : Nat) : (leNat bs).testBit j = (bs.getD (j / 8) 0).getLsbD (j % 8) := by
  induction bs generalizing j with
  | nil => simp [leNat]
  | cons b bs ih =>
    show (b.toNat + 2 ^ 8 * leNat bs).testBit j = _
    rw [testBit_join _ _ _ _ b.isLt]
    by_cases hj : j < 8
    · rw [if_pos hj, Nat.div_eq_of_lt hj, Nat.mod_eq_of_lt hj]
      rfl
    · rw [if_neg hj, ih, show j / 8 = (j - 8) / 8 + 1 by omega, show j % 8 = (j - 8) % 8 by omega]
      rfl

theorem spread_lt (n : Nat) (m : ByteMask) : spread n m < 2 ^ (8 * n) := by
  induction n with
  | zero => simp [spread]
  | succ n ih =>
    have e : 2 ^ (8 * (n + 1)) = 256 * 2 ^ (8 * n) := by rw [show 8 * (n + 1) = 8 + 8 * n by omega, Nat.pow_add]
    have e2 : (256 : Nat) ^ n = 2 ^ (8 * n) := by rw [Nat.pow_mul]
    show spread n m + (if m.getLsbD n then 255 * 256 ^ n else 0) < _
    rw [e, e2]
    split <;> omega

/-- A bit of a spread mask is its byte's. -/
theorem spread_testBit (n : Nat) (m : ByteMask) (j : Nat) : (spread n m).testBit j = (decide (j < 8 * n) && m.getLsbD (j / 8)) := by
  induction n with
  | zero => simp [spread]
  | succ n ih =>
    have e2 : (256 : Nat) ^ n = 2 ^ (8 * n) := by rw [Nat.pow_mul]
    have hs : spread (n + 1) m = spread n m + 2 ^ (8 * n) * (if m.getLsbD n then 255 else 0) := by
      show spread n m + (if m.getLsbD n then 255 * 256 ^ n else 0) = _
      rw [e2]
      split
      · rw [Nat.mul_comm]
      · rw [Nat.mul_zero]
    rw [hs, testBit_join _ _ _ _ (spread_lt n m)]
    by_cases hj : j < 8 * n
    · rw [if_pos hj, ih]
      simp [hj, show j < 8 * (n + 1) by omega]
    · rw [if_neg hj]
      by_cases hk : j < 8 * (n + 1)
      · have e : j / 8 = n := by omega
        rw [e]
        simp only [hk, decide_true, Bool.true_and]
        cases m.getLsbD n
        · simp
        · simp only [if_true]
          rw [show (255 : Nat) = 2 ^ 8 - 1 from rfl, Nat.testBit_two_pow_sub_one]
          simp only [decide_eq_true_eq]
          omega
      · simp only [hk, decide_false, Bool.false_and]
        split
        · rw [show (255 : Nat) = 2 ^ 8 - 1 from rfl, Nat.testBit_two_pow_sub_one]
          simp only [decide_eq_false_iff_not]
          omega
        · simp

/-- A bit of a merged line comes from the new line where its byte is masked, else from the old. -/
theorem mergeLine_bit (old new : LineData) (m : ByteMask) (j : Nat) :
    (mergeLine old new m).getLsbD j = if m.getLsbD (j / 8) then new.getLsbD j else old.getLsbD j := by
  by_cases hj : j < 1024
  · unfold mergeLine
    simp only [BitVec.getLsbD_or, BitVec.getLsbD_and, BitVec.getLsbD_not, BitVec.getLsbD_ofNat, spread_testBit, hj, decide_true,
      Bool.true_and]
    cases m.getLsbD (j / 8) <;> simp
  · have h1 : ∀ d : LineData, d.getLsbD j = false := fun d => BitVec.getLsbD_of_ge d j (by omega)
    rw [h1, h1, h1]
    split <;> rfl

theorem lineByte_bit (d : LineData) (i k : Nat) (hk : k < 8) : (lineByte d i).getLsbD k = d.getLsbD (8 * i + k) := by
  unfold lineByte
  rw [BitVec.getLsbD_extractLsb']
  simp [hk]

theorem peeks_getD (m : List Host.Cell) (a n i : Nat) (h : i < n) : (peeks m a n).getD i 0 = peek m (a + i) := by
  induction n generalizing a i with
  | zero => omega
  | succ n ih =>
    cases i with
    | zero => rfl
    | succ i =>
      show (peeks m (a + 1) n).getD i 0 = _
      rw [ih (a + 1) i (by omega), show a + 1 + i = a + (i + 1) by omega]

theorem peeks_length (m : List Host.Cell) (a n : Nat) : (peeks m a n).length = n := by
  induction n generalizing a with
  | zero => rfl
  | succ n ih => simp [peeks, ih]

theorem peeks_congr {m m' : List Host.Cell} {a n : Nat} (h : ∀ i, i < n → peek m' (a + i) = peek m (a + i)) : peeks m' a n = peeks m a n := by
  induction n generalizing a with
  | zero => rfl
  | succ n ih =>
    show peek m' a :: peeks m' (a + 1) n = _
    have h0 : peek m' a = peek m a := h 0 (by omega)
    rw [ih fun i hi => by have := h (i + 1) (by omega); rwa [show a + (i + 1) = a + 1 + i by omega] at this, h0]
    rfl

theorem lineBytes_getD (d : LineData) (lo n i : Nat) (h : i < n) : (lineBytes d lo n).getD i 0 = lineByte d (lo + i) := by
  unfold lineBytes
  simp [h]

theorem lineBytes_length (d : LineData) (lo n : Nat) : (lineBytes d lo n).length = n := by simp [lineBytes]

/-- The plain bytes of a sector after the bytes of a line are written there. -/
theorem plain_pokes (m : List Host.Cell) (a : Nat) (d : LineData) (i : Nat) :
    BitVec.ofNat 256 (leNat (peeks (pokes m a (lineBytes d (32 * i) 32)) a 32)) = d.extractLsb' (256 * i) 256 := by
  apply BitVec.eq_of_getLsbD_eq
  intro j hj
  rw [BitVec.getLsbD_ofNat, leNat_testBit, peeks_getD _ _ _ _ (by omega), peek_pokes, if_pos (by rw [lineBytes_length]; omega),
    show a + j / 8 - a = j / 8 by omega, lineBytes_getD _ _ _ _ (by omega), lineByte_bit _ _ _ (Nat.mod_lt _ (by omega)),
    BitVec.getLsbD_extractLsb', show 8 * (32 * i + j / 8) + j % 8 = 256 * i + j by omega]

/-- A sector of the stacks after a write of one sector: the written one holds the merged bytes under its slot; every other
reads as before. -/
theorem readSector_write (s : State) (la i slot : Nat) (d : LineData) (k : ByteMask) :
    readSector (writeSector s la i slot d k) (4 * la + i) slot
      = (mergeLine ((readSector s (4 * la + i) slot).setWidth 1024 <<< (256 * i)) d k).extractLsb' (256 * i) 256
      ∨ (k.extractLsb' (32 * i) 32 = 0 ∧ writeSector s la i slot d k = s) := by
  by_cases hk : k.extractLsb' (32 * i) 32 = 0
  · exact .inr ⟨hk, by unfold writeSector; rw [if_pos hk]⟩
  · left
    unfold writeSector
    rw [if_neg hk]
    dsimp only
    unfold readSector
    dsimp only
    by_cases hh : Config.hostBase ≤ 32 * (4 * la + i)
    · rw [if_pos hh, if_pos hh]
      exact plain_pokes ..
    · rw [if_neg hh, if_neg hh, find_put_self]
      dsimp only
      rw [if_neg hh]
      refine (if_pos ?_).trans (plain_pokes ..)
      rfl

/-- A sector other than the one written reads as before, under every slot. -/
theorem readSector_other (s : State) (la i slot : Nat) (d : LineData) (k : ByteMask) (sec slot' : Nat) (h : sec ≠ 4 * la + i) :
    readSector (writeSector s la i slot d k) sec slot' = readSector s sec slot' := by
  unfold writeSector
  split
  · rfl
  · dsimp only
    unfold readSector
    dsimp only
    rw [peeks_congr (m := s.mem) (m' := pokes s.mem (32 * (4 * la + i)) _)]
    · by_cases hh : Config.hostBase ≤ 32 * (4 * la + i)
      · rw [if_pos hh]; rfl
      · rw [if_neg hh, find_put_other _ _ _ _ h]; rfl
    · intro j hj
      rw [peek_pokes, if_neg]
      rw [lineBytes_length]
      omega

/-- The bits of a sector after a write under the same slot. -/
theorem readSector_bit (s : State) (la i slot : Nat) (d : LineData) (k : ByteMask) (hi : i < 4) (j : Nat) (hj : j < 256) :
    (readSector (writeSector s la i slot d k) (4 * la + i) slot).getLsbD j
      = if k.getLsbD ((256 * i + j) / 8) then d.getLsbD (256 * i + j) else (readSector s (4 * la + i) slot).getLsbD j := by
  rcases readSector_write s la i slot d k with e | ⟨e1, e2⟩
  · rw [e, BitVec.getLsbD_extractLsb', mergeLine_bit]
    simp only [hj, decide_true, Bool.true_and]
    split
    · rfl
    · rw [BitVec.getLsbD_shiftLeft, BitVec.getLsbD_setWidth, show 256 * i + j - 256 * i = j by omega]
      simp only [show 256 * i + j < 1024 by omega, decide_true, Bool.true_and, show ¬(256 * i + j < 256 * i) by omega, decide_false,
        Bool.not_false, show j < 1024 by omega]
  · rw [e2, if_neg]
    have := congrArg (fun x => x.getLsbD (j / 8)) e1
    rw [BitVec.getLsbD_extractLsb'] at this
    simp only [show j / 8 < 32 by omega, decide_true, Bool.true_and] at this
    rw [show (256 * i + j) / 8 = 32 * i + j / 8 by omega, this]
    simp

/-- A bit of a line of the stacks. -/
theorem memLine_bit (s : State) (la slot i j : Nat) (hi : i < 4) (hj : j < 256) :
    (memLine s la slot).getLsbD (256 * i + j) = (readSector s (4 * la + i) slot).getLsbD j := by
  unfold memLine
  rw [BitVec.getLsbD_append, BitVec.getLsbD_append, BitVec.getLsbD_append]
  match i, hi with
  | 0, _ => simp [hj]
  | 1, _ => simp [hj]
  | 2, _ => simp [hj, show ¬(512 + j < 256) by omega, show ¬(512 + j - 256 < 256) by omega, show 512 + j - 256 - 256 = j by omega]
  | 3, _ => simp [show ¬(768 + j < 256) by omega, show ¬(768 + j - 256 < 256) by omega, show ¬(768 + j - 256 - 256 < 256) by omega, show 768 + j - 256 - 256 - 256 = j by omega]

end Sys2Proof.Machine
end

