-- ==== Sys2Proof/Laws/NearLines.lean ====
section
/-! SUPPORT. Reading a core's near cache after it is changed. -/

namespace Sys2Proof.Machine

/-- A change of one core and of no more than its near lines and stamps: other cores, other parts of the state. -/
def OneCore (s : State) (c : Nat) (t : State) : Prop := t = { s with cores := t.cores } ∧ ∀ d, d ≠ c → coreOf t d = coreOf s d

theorem OneCore.refl (s : State) (c : Nat) : OneCore s c s := ⟨rfl, fun _ _ => rfl⟩

theorem OneCore.trans {s t u : State} {c : Nat} (a : OneCore s c t) (b : OneCore t c u) : OneCore s c u :=
  ⟨by rw [b.1, a.1], fun d hd => (b.2 d hd).trans (a.2 d hd)⟩

theorem OneCore.group {s t : State} {c : Nat} (a : OneCore s c t) (h : Nat) : groupOf t h = groupOf s h := by rw [a.1]; rfl

theorem oneCore_modCore (s : State) (c : Nat) (f : Core → Core) : OneCore s c (modCore s c f) :=
  ⟨rfl, fun d hd => by rw [coreOf_modCore, if_neg hd]⟩

theorem oneCore_modNear (s : State) (c la : Nat) (f : NcLine → NcLine) : OneCore s c (modNear s c la f) := oneCore_modCore ..

theorem oneCore_useLine (s : State) (c la : Nat) : OneCore s c (useLine s c la) :=
  (oneCore_modCore ..).trans (oneCore_modNear ..)

/-- A near line after one line is changed. -/
theorem nearLine_modNear (s : State) (c la : Nat) (f : NcLine → NcLine) (la' : Nat) :
    nearLine (modNear s c la f) c la' = if la' = la then (nearLine s c la).map f else nearLine s c la' := by
  unfold nearLine modNear
  rw [coreOf_modCore, if_pos rfl]
  cases hf : find (coreOf s c).near la with
  | none =>
    dsimp only
    split
    · rename_i h; subst h; rw [hf]; rfl
    · rfl
  | some n =>
    dsimp only
    rw [find_put]
    split <;> rfl

/-- A near line after a stamp is taken. -/
theorem nearLine_stampOf (s : State) (c la : Nat) : nearLine (stampOf s c).2 c la = nearLine s c la := by
  unfold nearLine stampOf
  dsimp only
  rw [coreOf_modCore, if_pos rfl]

/-- A near line after a line is marked as used. -/
theorem nearLine_useLine (s : State) (c la la' : Nat) :
    nearLine (useLine s c la) c la'
      = if la' = la then (nearLine s c la).map fun n => { n with use := (coreOf s c).stamp + 1 } else nearLine s c la' := by
  unfold useLine
  dsimp only
  rw [nearLine_modNear, nearLine_stampOf, nearLine_stampOf]
  rfl

/-- The pending lines of a core after a near line is changed, or used. -/
theorem pend_modNear (s : State) (c la : Nat) (f : NcLine → NcLine) : (coreOf (modNear s c la f) c).pend = (coreOf s c).pend := by
  unfold modNear
  rw [coreOf_modCore, if_pos rfl]
  split <;> rfl

theorem pend_useLine (s : State) (c la : Nat) : (coreOf (useLine s c la) c).pend = (coreOf s c).pend := by
  unfold useLine stampOf
  dsimp only
  rw [pend_modNear, coreOf_modCore, if_pos rfl]

/-- A store into a line that a core holds dirty, or exclusively with bytes of its own, under the same slot, where no pending
line of it lies under another. -/
theorem nearWrite_hit (s : State) (h c la slot rv : Nat) (d : LineData) (k : ByteMask) (n : NcLine) (hn : nearLine s c la = some n)
    (hs : n.slot = slot) (hst : n.st = .dirty ∨ (n.st = .exclusive ∧ n.mask ≠ 0))
    (hp : ((coreOf s c).pend.filter fun p => p.la = la && p.slot != slot) = []) :
    nearWrite s h c la slot rv d k = useLine (modNear (stampOf s c).2 c la fun n => { n with
      data := mergeLine n.data d k, mask := n.mask ||| k, dirtied := if n.isDirty then n.dirtied else (stampOf s c).1 }) c la := by
  have hdirty : n.isDirty = true := by
    unfold NcLine.isDirty
    rcases hst with e | ⟨e, f⟩
    · rw [e]; rfl
    · rw [e]; simpa using f
  have hb : (n.st == .dirty || n.st == .exclusive) = true := by
    rcases hst with e | ⟨e, f⟩ <;> rw [e] <;> rfl
  have hb' : (n.st == .exclusive || n.st == .dirty) = true := by rw [Bool.or_comm]; exact hb
  have h1 : dropOther s c la slot = s := by
    unfold dropOther
    rw [hp]
    show (match nearLine s c la with
      | some n => if n.slot = slot then s else maintain s c la none true
      | none => s) = s
    rw [hn]; dsimp only; rw [if_pos hs]
  have h2 : baseCopy s c la slot rv (tenantOf s h) = (n.data, n.wv, n.le, s) := by
    unfold baseCopy; rw [hn]; dsimp only; rw [if_pos]; rw [hb]; rfl
  have h3 : storeRoom s h c la = s := by
    unfold storeRoom
    simp only [hn, Option.isSome_some, if_true, hdirty]
  unfold nearWrite
  simp only [h1, h2, h3, hn, nearLine_stampOf, hb', if_true]

end Sys2Proof.Machine
end

