-- ==== Sys2Proof/Laws/Scratch.lean ====
section
/-! SUPPORT. Reading scratch and pockets after a write. -/

namespace Sys2Proof.Machine

/-- Bytes written one after another from a key on. -/
theorem look_each_set (set : Tbl Byte → Nat → Byte → Tbl Byte)
    (hs : ∀ p k v j, look (set p k v) j 0 = if j = k then v else look p j 0) (n : Nat) (p : Tbl Byte) (a : Nat) (v : Nat → Byte) (j : Nat) :
    look (each (List.range n) p fun p i => set p (a + i) (v i)) j 0 = if a ≤ j ∧ j < a + n then v (j - a) else look p j 0 := by
  induction n with
  | zero => rw [if_neg (by omega)]; rfl
  | succ n ih =>
    unfold each at ih ⊢
    rw [List.range_succ, List.foldl_append]
    show look (set _ (a + n) (v n)) j 0 = _
    rw [hs, ih]
    by_cases h : j = a + n
    · rw [if_pos h, if_pos (by omega), show j - a = n by omega]
    · rw [if_neg h]
      by_cases h2 : a ≤ j ∧ j < a + n
      · rw [if_pos h2, if_pos (by omega)]
      · rw [if_neg h2, if_neg (by omega)]

/-- A byte of scratch after a write. -/
theorem scratchWrite_look (tm : Team) (a : Nat) (bs : List Byte) (j : Nat) :
    look (scratchWrite tm a bs).scratch j 0 = if a ≤ j ∧ j < a + bs.length then bs.getD (j - a) 0 else look tm.scratch j 0 := by
  have hs : ∀ (p : Tbl Byte) (k : Nat) (v : Byte) (j : Nat),
      look (if v = 0 then del p k else put p k v) j 0 = if j = k then v else look p j 0 := by
    intro p k v j
    split
    · rename_i e
      unfold look
      rw [find_del]
      split
      · exact e.symm
      · rfl
    · rw [look_put]
  exact look_each_set (fun p k v => if v = 0 then del p k else put p k v) hs bs.length tm.scratch a (fun i => bs.getD i 0) j

theorem leBytes_length (n v : Nat) : (leBytes n v).length = n := by
  induction n generalizing v with
  | zero => rfl
  | succ n ih => simp [leBytes, ih]

/-- The bytes just written are read. -/
theorem scratchRead_write (tm : Team) (a : Nat) (bs : List Byte) : scratchRead (scratchWrite tm a bs) a bs.length = bs := by
  unfold scratchRead
  apply List.ext_getElem
  · simp
  · intro i h1 h2
    simp only [List.getElem_map, List.getElem_range]
    rw [scratchWrite_look, if_pos (by omega), show a + i - a = i by omega, List.getD_eq_getElem?_getD, List.getElem?_eq_getElem h2]
    rfl

/-- A byte of a pocket after a write within 64 KiB. -/
theorem pocketWrite_look (x : Ctx) (t a : Nat) (bs : List Byte) (th b : Nat) (hb : b < 65536) (ha : a + bs.length ≤ 65536) :
    look (pocketWrite x t a bs).pocket (pocketKey th b) 0
      = if th = t ∧ a ≤ b ∧ b < a + bs.length then bs.getD (b - a) 0 else look x.pocket (pocketKey th b) 0 := by
  have e : (each (List.range bs.length) x.pocket fun p i => put p (pocketKey t (a + i)) (bs.getD i 0))
      = each (List.range bs.length) x.pocket fun p i => put p (65536 * t + a + i) (bs.getD i 0) := by
    congr 1
    funext p i
    unfold pocketKey
    rw [Nat.add_assoc]
  show look (each (List.range bs.length) x.pocket fun p i => put p (pocketKey t (a + i)) (bs.getD i 0)) (pocketKey th b) 0 = _
  rw [e, look_each_set (fun p k v => put p k v) (fun p k v j => by rw [look_put])]
  unfold pocketKey
  by_cases h : th = t ∧ a ≤ b ∧ b < a + bs.length
  · obtain ⟨rfl, h1, h2⟩ := h
    rw [if_pos (by omega), if_pos ⟨rfl, h1, h2⟩, show 65536 * th + b - (65536 * th + a) = b - a by omega]
  · rw [if_neg h, if_neg]
    intro ⟨h1, h2⟩
    apply h
    have : th = t := by omega
    subst this
    exact ⟨rfl, by omega, by omega⟩

theorem pocketRead_write (x : Ctx) (t a : Nat) (bs : List Byte) (ha : a + bs.length ≤ 65536) :
    pocketRead (pocketWrite x t a bs) t a bs.length = bs := by
  unfold pocketRead
  apply List.ext_getElem
  · simp
  · intro i h1 h2
    simp only [List.getElem_map, List.getElem_range]
    rw [pocketWrite_look _ _ _ _ _ _ (by omega) ha, if_pos ⟨rfl, by omega, by omega⟩, show a + i - a = i by omega, List.getD_eq_getElem?_getD,
      List.getElem?_eq_getElem h2]
    rfl

end Sys2Proof.Machine
end

