-- ==== Sys2Proof/Laws/Accesses.lean ====
section
/-! SUPPORT. How loads, stores and atomics issue, and what a part does. -/

namespace Sys2Proof.Machine

/-- A load or an atomic of virtual memory opens its window. -/
theorem issueVirt_begins (s : State) (h : Nat) (g : Group) (f : FOps) (d : Option Word) (kind : MemKind) (op : AtomOp) (scope : Scope) (io2 : Io)
    (data new : Ctx → Nat → Nat) (tx fall : Bool) (hc : current s = some (h, g)) :
    let eff := effSet g.ctx g.w f.k f.kn
    let io := (ioAddr f false).join (io2.join (ioDst f.u f.d.toNat f.ty.regs))
    let accs := accsOf g.ctx g.w f false d eff (data g.ctx) (new g.ctx)
    let req : MemReq := { kind := kind, ty := f.ty, size := sizeOfTy f.ty, uni := f.u, dst := f.d.toNat
                          scope := scope, op := op, eff := eff, accs := accs }
    blocked g.ctx (io.under eff) = false →
    (eff ≠ 0 → allocCheck s h g (allocNeed g.ctx io io.vw).1 (allocNeed g.ctx io io.vw).2 ≠ .trap) →
    ∀ rs s1, checkAll s g kind.natural req.size (memNeed kind) (accs.filter fun a => f.u || !txDoomed g.ctx a.t) = (rs, s1) →
      earlierHolds s1 h g.ctx s1.nextId f.u (partsOf rs) = false →
      (∀ p ∈ partsOf rs, f.u = true ∨ txLive g.ctx p.t = false ∨ lineReady s1 p.la = true) →
      let s2 := if tx then forbid s1 h eff else s1
      let s3 := if fall && eff ≠ 0 && (badsOf rs).isEmpty then fallBack s2 h else s2
      ∀ g', groupOf s3 h = some g' →
      issueVirt s f d kind op scope io2 data new tx fall = .next (startWin (openWin s3 h g' (io.under eff) (lenOf f d) (if f.u then 1 else laneCycles g'.w eff) f.la.toNat { id := 0, pc := 0, left := 0, req := some req }) h s3.nextId) := by
  dsimp only
  intro hb ha rs s1 hk hs hl g' hg'
  unfold issueVirt
  simp only [hc, hb, Bool.false_eq_true, if_false]
  rw [if_neg]
  · rw [hk]
    dsimp only
    rw [if_neg]
    · rw [hg']
    · simp only [hs, Bool.false_or, Bool.and_eq_true, Bool.not_eq_true', List.any_eq_true, not_and, not_exists]
      intro hu p hp 
      rcases hl p hp with e | e | e
      · rw [hu] at e; cases e
      · simp [e]
      · simp [e]
  · simp only [Bool.and_eq_true, not_and]
    intro he
    have := ha (by simpa using he)
    simpa using this

/-- A load or an atomic of scratch or pockets opens its window, or parks its group. -/
theorem issueSpace_begins (s : State) (h : Nat) (g : Group) (f : FOps) (d : Option Word) (kind : MemKind) (n regs : Nat) (op : AtomOp) (io2 : Io)
    (data : Ctx → Nat → Nat) (fall : Bool) (hc : current s = some (h, g)) :
    let eff := effSet g.ctx g.w f.k f.kn
    let io := (ioAddr f true).join (io2.join (ioDst f.u f.d.toNat regs))
    let accs := accsOf g.ctx g.w f true d eff (data g.ctx) fun _ => 0
    let req : MemReq := { kind := kind, ty := f.ty, size := n, uni := f.u, dst := f.d.toNat
                          op := op, eff := eff, accs := accs }
    let bad := spaceFail s g (kind == .ldp) f.u n accs
    let gone := if kind == .ldp then [] else absentLines s g n accs
    blocked g.ctx (io.under eff) = false →
    (eff ≠ 0 → allocCheck s h g (allocNeed g.ctx io io.vw).1 (allocNeed g.ctx io io.vw).2 ≠ .trap) →
    (bad = none → gone ≠ [] → issueSpaceRun s f d kind n regs op io2 data fall = .next (park s h (.scratch gone) 1))
    ∧ ((bad = none → gone = []) →
        let s' := if fall && eff ≠ 0 && bad.isNone then fallBack s h else s
        ∀ g', groupOf s' h = some g' →
          issueSpaceRun s f d kind n regs op io2 data fall = .next (startWin (openWin s' h g' (io.under eff) (lenOf f d)
            (if f.u then 1 else laneCycles g'.w eff) f.la.toNat { id := 0, pc := 0, left := 0, req := some req }) h s'.nextId)) := by
  dsimp only
  intro hb ha
  have hal : ¬ ((decide (effSet g.ctx g.w f.k f.kn ≠ 0) && allocCheck s h g
      (allocNeed g.ctx ((ioAddr f true).join (io2.join (ioDst f.u f.d.toNat regs))) ((ioAddr f true).join (io2.join (ioDst f.u f.d.toNat regs))).vw).1
      (allocNeed g.ctx ((ioAddr f true).join (io2.join (ioDst f.u f.d.toNat regs))) ((ioAddr f true).join (io2.join (ioDst f.u f.d.toNat regs))).vw).2 == Alloc.trap) = true) := by
    simp only [Bool.and_eq_true, not_and]
    intro he
    have := ha (by simpa using he)
    simpa using this
  constructor
  · intro h1 h2
    unfold issueSpaceRun
    simp only [hc, hb, Bool.false_eq_true, if_false]
    rw [if_neg hal, h1]
    simp only [Option.isSome_none, Bool.or_false]
    rw [if_pos]
    simpa using h2
  · intro h1 g' hg'
    unfold issueSpaceRun
    simp only [hc, hb, Bool.false_eq_true, if_false]
    rw [if_neg hal, if_neg]
    · rw [hg']
    · cases hbad : spaceFail s g (kind == .ldp) f.u n (accsOf g.ctx g.w f true d (effSet g.ctx g.w f.k f.kn) (data g.ctx) fun _ => 0) with
      | some b => simp
      | none =>
        have := h1 hbad
        simp only [Option.isSome_none, Bool.or_false, this]
        decide

/-- A window that is changed. -/
theorem winOf_map (x : Ctx) (wid : Nat) (f : Win → Win) (w : Win) (hw : winOf x wid = some w) (hf : ∀ v, (f v).id = v.id) :
   winOf { x with wins := x.wins.map fun v => if v.id = wid then f v else v } wid = some (f w) := by
  unfold winOf at *
  rw [List.find?_map]
  have : ((fun w => decide (w.id = wid)) ∘ fun v => if v.id = wid then f v else v) = fun w => decide (w.id = wid) := by
    funext v
    simp only [Function.comp]
    split
    · rw [hf]
    · rfl
  rw [this, hw]
  have := List.find?_some hw
  simp only [decide_eq_true_eq] at this
  simp [this]

theorem modWin_at (s : State) (h wid : Nat) (f : Win → Win) (g : Group) (w : Win) (hg : groupOf s h = some g) (hw : winOf g.ctx wid = some w) (hf : ∀ v, (f v).id = v.id) :
   ∃ g', groupOf (modWin s h wid f) h = some g' ∧ winOf g'.ctx wid = some (f w) ∧ g' = { g with ctx := { g.ctx with wins := g'.ctx.wins } } := by
  refine ⟨_, by unfold modWin modCtx; rw [modGroup_group, if_pos rfl, hg]; rfl, winOf_map _ _ _ _ hw hf, rfl⟩

theorem modWin_same (s : State) (h wid : Nat) (f f' : Win → Win) (g : Group) (hg : groupOf s h = some g) (hh : ∀ v ∈ g.ctx.wins, v.id = wid → f v = f' v) :
  modWin s h wid f = modWin s h wid f' := by
  unfold modWin modCtx modGroup
  rw [hg]
  dsimp only
  congr 3
  apply List.map_congr_left
  intro v hv
  split
  · exact hh v hv (by assumption)
  · rfl

/-- No fault means no failing thread. -/
theorem failOf_none {uni : Bool} {l : List (Nat × Bad)} (h : failOf uni l = none) : l = [] := by
  unfold failOf at h
  split at h
  · rfl
  · cases h

/-- An access that passes its check keeps within its window. -/
theorem spaceFail_none {s : State} {g : Group} {pocket uni : Bool} {n : Nat} {accs : List Acc} (h : spaceFail s g pocket uni n accs = none) (a : Acc) (ha : a ∈ accs)
   (hp : pocket = true) : a.ea.toNat + n ≤ (groupLaunch s g).rc.pocket := by
  have := failOf_none h
  rw [List.filterMap_eq_nil_iff] at this
  have := this a ha
  subst hp
  unfold checkSpace at this
  dsimp only at this
  by_contra hn
  split at this
  · cases this
  · rename_i hx
    split at hx
    · cases hx
    · cases hx

/-- A store to scratch or pockets faults, parks or is made. -/
theorem issueSpaceStore_goes (s : State) (h : Nat) (g : Group) (f : FOps) (l : Option Word) (pocket fall : Bool) (n : Nat) (io : Io)
    (data : Ctx → Nat → Nat) (hc : current s = some (h, g)) (hr : inRegion g.ctx = false) (hp : (groupLaunch s g).rc.pocket ≤ 65536)  :
    let eff := effSet g.ctx g.w f.k f.kn
    let accs := accsOf g.ctx g.w f true l eff (data g.ctx) fun _ => 0
    let gone := if pocket then [] else absentLines s g n accs
    blocked g.ctx io = false →
    (∀ b, spaceFail s g pocket f.u n accs = some b → issueSpaceStoreRun s f l pocket fall n io data = .next (raise s h (badRec g.ctx eff b)))
    ∧ (spaceFail s g pocket f.u n accs = none → gone ≠ [] → issueSpaceStoreRun s f l pocket fall n io data = .next (park s h (.scratch gone) 1))
    ∧ (spaceFail s g pocket f.u n accs = none → gone = [] → ∀ g', groupOf (spaceStore s h g pocket n accs) h = some g' →
       issueSpaceStoreRun s f l pocket fall n io data = .next (retire (spaceStore s h g pocket n accs) h g' io (lenOf f l) (if f.u then 1 else laneCycles g'.w eff) {})) := by
  dsimp only
  intro hb
  have hg : groupOf s h = some g := by
    unfold current at hc; split at hc
    · split at hc
      · injection hc with e; injection e with e1 e2; subst e1; subst e2; assumption
      · cases hc
    · cases hc
  refine ⟨fun b h1 => ?_, fun h1 h2 => ?_, fun h1 h2 g' hg' => ?_⟩
  · unfold issueSpaceStoreRun
    simp only [hc, hb, Bool.false_eq_true, if_false, h1]
  · unfold issueSpaceStoreRun
    simp only [hc, hb, Bool.false_eq_true, if_false, h1]
    rw [if_pos (by simpa using h2)]
  · unfold issueSpaceStoreRun
    simp only [hc, hb, Bool.false_eq_true, if_false, h1]
    rw [if_neg (by rw [h2]; decide)]
    have : (if (decide (effSet g.ctx g.w f.k f.kn = 0) || !fall) = true then s else fallBack s h) = s := by
      split
      · rfl
      · exact fallBack_none s h g hg hr
    rw [this, hg']

/-- Stores to scratch. -/
theorem scratch_each (n : Nat) (accs : List Acc) (h : Nat) (g : Group) (s : State) :
    let s' := spaceStore s h g false n accs
    s' = { s with teams := s'.teams } ∧
    (∀ b, (∀ a ∈ accs, b < a.ea.toNat ∨ a.ea.toNat + n ≤ b) → look (teamOf s' g.team).scratch b 0 = look (teamOf s g.team).scratch b 0) := by
  induction accs generalizing s with
  | nil => exact ⟨rfl, fun _ _ => rfl⟩
  | cons a accs ih =>
    obtain ⟨i1, i2⟩ := ih (modTeam s g.team fun tm => scratchWrite tm a.ea.toNat (leBytes n a.data))
    have e : spaceStore s h g false n (a :: accs) = spaceStore (modTeam s g.team fun tm => scratchWrite tm a.ea.toNat (leBytes n a.data)) h g false n accs := rfl
    rw [e]
    refine ⟨i1, fun b hb => ?_⟩
    rw [i2 b (fun a' ha' => hb a' (List.mem_cons_of_mem _ ha'))]
    have : teamOf (modTeam s g.team fun tm => scratchWrite tm a.ea.toNat (leBytes n a.data)) g.team = scratchWrite (teamOf s g.team) a.ea.toNat (leBytes n a.data) := by
      unfold modTeam teamOf; exact look_put_self ..
    rw [this, scratchWrite_look, if_neg]
    rw [leBytes_length]
    have := hb a (List.mem_cons_self ..)
    omega

/-- Stores to pockets. -/
theorem pocket_each (n : Nat) (accs : List Acc) (h : Nat) (g0 : Group) (s : State) (g : Group) (hg : groupOf s h = some g) (hle : ∀ a ∈ accs, a.ea.toNat + n ≤ 65536) :
    let s' := spaceStore s h g0 true n accs
    s' = { s with groups := s'.groups } ∧ ∃ g', groupOf s' h = some g' ∧ g' = { g with ctx := { g.ctx with pocket := g'.ctx.pocket } } ∧
    (∀ th b, b < 65536 → (∀ a ∈ accs, a.t ≠ th ∨ b < a.ea.toNat ∨ a.ea.toNat + n ≤ b) → look g'.ctx.pocket (pocketKey th b) 0 = look g.ctx.pocket (pocketKey th b) 0) := by
  induction accs generalizing s g with
  | nil => exact ⟨rfl, g, hg, rfl, fun _ _ _ _ => rfl⟩
  | cons a accs ih =>
    have e : spaceStore s h g0 true n (a :: accs) = spaceStore (modCtx s h fun x => pocketWrite x a.t a.ea.toNat (leBytes n a.data)) h g0 true n accs := rfl
    have hg1 : groupOf (modCtx s h fun x => pocketWrite x a.t a.ea.toNat (leBytes n a.data)) h = some { g with ctx := pocketWrite g.ctx a.t a.ea.toNat (leBytes n a.data) } := by
      unfold modCtx; rw [modGroup_group, if_pos rfl, hg]; rfl
    obtain ⟨i1, g', i2, i3, i4⟩ := ih _ _ hg1 (fun a' ha' => hle a' (List.mem_cons_of_mem _ ha'))
    rw [e]
    refine ⟨?_, g', i2, i3, fun th b hb hx => ?_⟩
    · rw [i1]
      unfold modCtx modGroup
      rw [hg]
      rfl
    · rw [i4 th b hb (fun a' ha' => hx a' (List.mem_cons_of_mem _ ha'))]
      dsimp only
      rw [pocketWrite_look _ _ _ _ _ _ hb (by rw [leBytes_length]; exact hle a (List.mem_cons_self ..)), if_neg]
      rw [leBytes_length]
      have := hx a (List.mem_cons_self ..)
      omega

theorem spaceStore_append (s : State) (h : Nat) (g : Group) (p : Bool) (n : Nat) (pre : List Acc) (a : Acc) :
   spaceStore s h g p n (pre ++ [a]) = spaceStore (spaceStore s h g p n pre) h g p n [a] := by
  unfold spaceStore each; rw [List.foldl_append]

/-- What stores to scratch leave. -/
theorem scratchStores (s : State) (h : Nat) (g : Group) (n : Nat) (accs : List Acc) (hg : groupOf s h = some g) :
  let s' := spaceStore s h g false n accs
  s' = { s with groups := s'.groups, teams := s'.teams }
        ∧ (∃ g', groupOf s' h = some g' ∧ g' = { g with ctx := { g.ctx with pocket := g'.ctx.pocket } }
          ∧ (∀ th b, b < 65536 → (false = false ∨ ∀ a ∈ accs, a.t ≠ th ∨ b < a.ea.toNat ∨ a.ea.toNat + n ≤ b) →
              look g'.ctx.pocket (pocketKey th b) 0 = look g.ctx.pocket (pocketKey th b) 0)
          ∧ ∀ pre a, false = true → accs = pre ++ [a] → pocketRead g'.ctx a.t a.ea.toNat n = leBytes n a.data)
        ∧ (∀ b, (false = true ∨ ∀ a ∈ accs, b < a.ea.toNat ∨ a.ea.toNat + n ≤ b) →
            look (teamOf s' g.team).scratch b 0 = look (teamOf s g.team).scratch b 0)
        ∧ ∀ pre a, false = false → accs = pre ++ [a] → scratchRead (teamOf s' g.team) a.ea.toNat n = leBytes n a.data := by
  dsimp only
  obtain ⟨h1, h2⟩ := scratch_each n accs h g s
  refine ⟨by rw [h1], ⟨g, by rw [h1]; exact hg, rfl, fun _ _ _ _ => rfl, by simp⟩, fun b hb => h2 b (hb.resolve_left (by simp)), ?_⟩
  rintro pre a - rfl
  rw [spaceStore_append]
  have : teamOf (spaceStore (spaceStore s h g false n pre) h g false n [a]) g.team
      = scratchWrite (teamOf (spaceStore s h g false n pre) g.team) a.ea.toNat (leBytes n a.data) := by
    show teamOf (modTeam (spaceStore s h g false n pre) g.team fun tm => scratchWrite tm a.ea.toNat (leBytes n a.data)) g.team = _
    unfold modTeam teamOf; exact look_put_self ..
  rw [this]
  have := scratchRead_write (teamOf (spaceStore s h g false n pre) g.team) a.ea.toNat (leBytes n a.data)
  rwa [leBytes_length] at this

/-- What stores to pockets leave. -/
theorem pocketStores (s : State) (h : Nat) (g : Group) (n : Nat) (accs : List Acc) (hg : groupOf s h = some g) (hle : ∀ a ∈ accs, a.ea.toNat + n ≤ 65536) :
  let s' := spaceStore s h g true n accs
  s' = { s with groups := s'.groups, teams := s'.teams }
        ∧ (∃ g', groupOf s' h = some g' ∧ g' = { g with ctx := { g.ctx with pocket := g'.ctx.pocket } }
          ∧ (∀ th b, b < 65536 → (true = false ∨ ∀ a ∈ accs, a.t ≠ th ∨ b < a.ea.toNat ∨ a.ea.toNat + n ≤ b) →
              look g'.ctx.pocket (pocketKey th b) 0 = look g.ctx.pocket (pocketKey th b) 0)
          ∧ ∀ pre a, true = true → accs = pre ++ [a] → pocketRead g'.ctx a.t a.ea.toNat n = leBytes n a.data)
        ∧ (∀ b, (true = true ∨ ∀ a ∈ accs, b < a.ea.toNat ∨ a.ea.toNat + n ≤ b) →
            look (teamOf s' g.team).scratch b 0 = look (teamOf s g.team).scratch b 0)
        ∧ ∀ pre a, true = false → accs = pre ++ [a] → scratchRead (teamOf s' g.team) a.ea.toNat n = leBytes n a.data := by
  dsimp only
  obtain ⟨h1, g', h2, h3, h4⟩ := pocket_each n accs h g s g hg hle
  refine ⟨by rw [h1], ⟨g', h2, h3, fun th b hb hx => h4 th b hb (hx.resolve_left (by simp)), ?_⟩, fun b _ => ?_, by simp⟩
  · rintro pre a - rfl
    obtain ⟨p1, gp, p2, p3, p4⟩ := pocket_each n pre h g s g hg (fun a ha => hle a (List.mem_append_left _ ha))
    rw [spaceStore_append] at h2
    have : groupOf (spaceStore (spaceStore s h g true n pre) h g true n [a]) h = some { gp with ctx := pocketWrite gp.ctx a.t a.ea.toNat (leBytes n a.data) } := by
      show groupOf (modCtx (spaceStore s h g true n pre) h fun x => pocketWrite x a.t a.ea.toNat (leBytes n a.data)) h = _
      unfold modCtx; rw [modGroup_group, if_pos rfl, p2]; rfl
    rw [this] at h2
    injection h2 with h2
    subst h2
    have := pocketRead_write gp.ctx a.t a.ea.toNat (leBytes n a.data) (by rw [leBytes_length]; exact hle a (by simp))
    rwa [leBytes_length] at this
  · rw [h1]; rfl

/-- A part written into a line that its core holds dirty, with no pending line of it under another slot. -/
theorem nearWrite_part (s : State) (h c rv : Nat) (a : Acc) (n : Nat) (p : Part) (m : NcLine) (hn : nearLine s c p.la = some m)
    (hs : m.slot = p.slot) (hd : m.st = .dirty) (hq : (coreOf s c).pend = []) :
    let t := nearWrite s h c p.la p.slot rv (partData a n p) (maskBytes p.lo p.n)
    OneCore s c t ∧ (coreOf t c).pend = [] ∧ (∀ la, la ≠ p.la → nearLine t c la = nearLine s c la)
    ∧ ∃ m', nearLine t c p.la = some m' ∧ m'.st = .dirty ∧ m'.slot = m.slot ∧ m'.data = mergeLine m.data (partData a n p) (maskBytes p.lo p.n) ∧ m'.mask = m.mask ||| maskBytes p.lo p.n := by
  dsimp only
  rw [nearWrite_hit s h c p.la p.slot rv _ _ m hn hs (.inl hd) (by rw [hq]; rfl)]
  refine ⟨((oneCore_modCore s c fun k => { k with stamp := (coreOf s c).stamp + 1 }).trans (oneCore_modNear _ c p.la _)).trans (oneCore_useLine _ c p.la), ?_, fun la hl => ?_, ?_⟩
  · rw [pend_useLine, pend_modNear]
    unfold stampOf
    dsimp only
    rw [coreOf_modCore, if_pos rfl]
    exact hq
  · rw [nearLine_useLine, if_neg hl, nearLine_modNear, if_neg hl, nearLine_stampOf]
  · rw [nearLine_useLine, if_pos rfl, nearLine_modNear, if_pos rfl, nearLine_stampOf, hn]
    exact ⟨_, rfl, hd, rfl, rfl, rfl⟩

/-- A byte that is not merged stays. -/
theorem mergeLine_byte (old new : LineData) (k : ByteMask) (j : Nat) (hj : k.getLsbD j = false) : lineByte (mergeLine old new k) j = lineByte old j := by
  apply BitVec.eq_of_getLsbD_eq
  intro i hi
  rw [lineByte_bit _ _ _ hi, lineByte_bit _ _ _ hi, mergeLine_bit]
  rw [show (8 * j + i) / 8 = j by omega, hj]
  rfl

theorem each_cons {α σ : Type} (a : α) (l : List α) (s : σ) (f : σ → α → σ) : each (a :: l) s f = each l (f s a) f := rfl

/-- Several parts so written. -/
theorem nearWrite_parts (h c rv n : Nat) (l : List (Acc × Part)) (s : State)
   (hl : ∀ x ∈ l, ∃ m, nearLine s c x.2.la = some m ∧ m.st = .dirty ∧ m.slot = x.2.slot) (hq : (coreOf s c).pend = []) :
    let t := each l s fun s x => nearWrite s h c x.2.la x.2.slot rv (partData x.1 n x.2) (maskBytes x.2.lo x.2.n)
    OneCore s c t ∧ (coreOf t c).pend = [] ∧ (∀ la, (∀ x ∈ l, x.2.la ≠ la) → nearLine t c la = nearLine s c la)
    ∧ (∀ la m, nearLine s c la = some m → m.st = .dirty → ∃ m', nearLine t c la = some m' ∧ m'.st = .dirty ∧ m'.slot = m.slot
       ∧ ∀ j, (∀ x ∈ l, x.2.la = la → (maskBytes x.2.lo x.2.n).getLsbD j = false) → lineByte m'.data j = lineByte m.data j) := by
  induction l generalizing s with
  | nil => exact ⟨OneCore.refl s c, hq, fun _ _ => rfl, fun la m h1 h2 => ⟨m, h1, h2, rfl, fun _ _ => rfl⟩⟩
  | cons x l ih =>
    obtain ⟨m, h1, h2, h3⟩ := hl x (by simp)
    obtain ⟨a1, a0, a2, m1, a3, a4, a5, a6, a7⟩ := nearWrite_part s h c rv x.1 n x.2 m h1 h3.symm.symm h2 hq
    have hl' : ∀ y ∈ l, ∃ m, nearLine (nearWrite s h c x.2.la x.2.slot rv (partData x.1 n x.2) (maskBytes x.2.lo x.2.n)) c y.2.la = some m ∧ m.st = .dirty ∧ m.slot = y.2.slot := by
      intro y hy
      obtain ⟨q, q1, q2, q3⟩ := hl y (by simp [hy])
      by_cases e : y.2.la = x.2.la
      · rw [e] at q1 ⊢
        rw [h1] at q1; cases q1
        exact ⟨m1, a3, a4, a5.trans q3⟩
      · exact ⟨q, (a2 _ e).trans q1, q2, q3⟩
    rw [each_cons]
    generalize nearWrite s h c x.2.la x.2.slot rv (partData x.1 n x.2) (maskBytes x.2.lo x.2.n) = u at a1 a0 a2 a3 hl' ⊢
    obtain ⟨b1, b0, b2, b3⟩ := ih u hl' a0
    refine ⟨a1.trans b1, b0, fun la hla => ?_, fun la q q1 q2 => ?_⟩
    · exact (b2 la fun y hy => hla y (by simp [hy])).trans (a2 la (Ne.symm (hla x (by simp))))
    · by_cases e : la = x.2.la
      · subst e
        rw [h1] at q1; cases q1
        obtain ⟨m', c1, c2, c3, c4⟩ := b3 _ m1 a3 a4
        refine ⟨m', c1, c2, c3.trans a5, fun j hj => ?_⟩
        rw [c4 j fun y hy => hj y (by simp [hy]), a6]
        exact mergeLine_byte _ _ _ _ (hj x (by simp) rfl)
      · obtain ⟨m', c1, c2, c3, c4⟩ := b3 la q ((a2 la e).trans q1) q2
        exact ⟨m', c1, c2, c3, fun j hj => c4 j fun y hy => hj y (by simp [hy])⟩

/-- Checks leave every group. -/
theorem checkByte_group (s : State) (g : Group) (va : Nat) (need : Need) (h : Nat) : groupOf (checkByte s g va need).2 h = groupOf s h := by
  have ht := translate_group s g.core (vfOf s g) va h
  unfold checkByte
  split <;> rename_i e <;> rw [e] at ht
  · exact ht
  · dsimp only
    split
    · exact ht
    · split <;> exact ht

theorem checkAccess_group (s : State) (g : Group) (t ea n : Nat) (need : Need) (h : Nat) : groupOf (checkAccess s g t ea n need).2 h = groupOf s h := by
  unfold checkAccess
  generalize spans ea n = l
  generalize (Except.ok [] : Except (Nat × Nat) (List Part)) = acc
  induction l generalizing s acc with
  | nil => rfl
  | cons x l ih =>
    rw [List.foldl_cons]
    dsimp only
    split
    · exact ih s _
    · have hb := checkByte_group s g (x.2.1 % 2 ^ 64) need h
      split <;> rename_i e <;> rw [e] at hb
      · exact (ih _ _).trans hb
      · exact (ih _ _).trans hb

theorem checkVirt_group (s : State) (g : Group) (nat : Bool) (n : Nat) (need : Need) (a : Acc) (h : Nat) : groupOf (checkVirt s g nat n need a).2 h = groupOf s h := by
  unfold checkVirt
  dsimp only
  split
  · rfl
  · have := checkAccess_group s g a.t a.ea.toNat n need h
    split <;> rename_i e <;> rw [e] at this <;> exact this

theorem checkAll_group (s : State) (g : Group) (nat : Bool) (n : Nat) (need : Need) (accs : List Acc) (h : Nat) :
    groupOf (checkAll s g nat n need accs).2 h = groupOf s h := by
  have key : ∀ (accs : List Acc) (s : State) r, groupOf (accs.foldl (fun (rs, s) a =>
      let (r, s) := checkVirt s g nat n need a
      (rs ++ [(a, r)], s)) (r, s)).2 h = groupOf s h := by
    intro accs
    induction accs with
    | nil => intro s r; rfl
    | cons a l ih => intro s r; exact (ih _ _).trans (checkVirt_group s g nat n need a h)
  exact key accs s []

/-- A fold of changes of nothing. -/
theorem each_same {α : Type} (l : List α) (s : State) (f : State → α → State) (hf : ∀ a ∈ l, f s a = s) : each l s f = s := by
  induction l with
  | nil => rfl
  | cons a l ih =>
    show each l (f s a) f = s
    rw [hf a (by simp)]
    exact ih fun b hb => hf b (by simp [hb])

/-- The parts that are stored, with their accesses. -/
def okParts (rs : List (Acc × Except Bad (List Part))) : List (Acc × List Part) := rs.filterMap fun (a, r) => match r with
  | .ok ps => some (a, ps)
  | .error _ => none

/-- The parts, one by one. -/
def flatParts (l : List (Acc × List Part)) : List (Acc × Part) := (l.map fun x => x.2.map fun p => (x.1, p)).flatten

theorem parts_flat (rs : List (Acc × Except Bad (List Part))) : (flatParts (okParts rs)).map (·.2) = partsOf rs := by
  induction rs with
  | nil => rfl
  | cons x l ih =>
    obtain ⟨a, r⟩ := x
    unfold flatParts okParts partsOf at *
    cases r with
    | error b => simpa using ih
    | ok ps => simp [ih]

/-- A store outside regions and transactions whose lines the core holds. -/
theorem performStore_plain (s : State) (h n : Nat) (uni : Bool) (g : Group) (rs : List (Acc × List Part)) (hg : groupOf s h = some g)
   (hr : inRegion g.ctx = false) (htx : g.ctx.tx = [])
   (hl : ∀ x ∈ flatParts rs, ∃ m, nearLine s g.core x.2.la = some m ∧ m.st = .dirty ∧ m.slot = x.2.slot)
   (hq : (coreOf s g.core).pend = []) :
    let t := each (flatParts rs) s fun s x => nearWrite s h g.core x.2.la x.2.slot g.ctx.rv (partData x.1 n x.2) (maskBytes x.2.lo x.2.n)
    performStore s h uni n rs = if rs = [] then t else outSoon t h := by
  have hin : ∀ t, inTx g.ctx t = false := by intro t; unfold inTx; rw [htx]; rfl
  have hdo : ∀ t, txDoomed g.ctx t = false := by intro t; unfold txDoomed; rw [htx]; rfl
  have ht : (if uni = true then s else each rs s fun s (a, ps) => each ps s fun s p => txTouch s h a.t p.la p.slot true) = s := by
    split
    · rfl
    · apply each_same
      intro x _
      apply each_same
      intro p _
      unfold txTouch; rw [hg]; dsimp only; rw [htx]; rfl
  have flat : ∀ (l : List (Acc × List Part)) (u : State), groupOf u h = some g → (coreOf u g.core).pend = [] →
      (∀ x ∈ flatParts l, ∃ m, nearLine u g.core x.2.la = some m ∧ m.st = .dirty ∧ m.slot = x.2.slot) →
      (each l u fun s x => each x.2 s fun s p => match groupOf s h with
        | some g => if !uni && txDoomed g.ctx x.1.t then s else storePart s h g uni n x.1 p
        | none => s) = each (flatParts l) u fun s x => nearWrite s h g.core x.2.la x.2.slot g.ctx.rv (partData x.1 n x.2) (maskBytes x.2.lo x.2.n) := by
    have one : ∀ (a : Acc) (ps : List Part) (u : State), groupOf u h = some g → (coreOf u g.core).pend = [] → (∀ p ∈ ps, ∃ m, nearLine u g.core p.la = some m ∧ m.st = .dirty ∧ m.slot = p.slot) →
        (each ps u fun s p => match groupOf s h with
          | some g => if !uni && txDoomed g.ctx a.t then s else storePart s h g uni n a p
          | none => s) = each (ps.map fun p => (a, p)) u fun s x => nearWrite s h g.core x.2.la x.2.slot g.ctx.rv (partData x.1 n x.2) (maskBytes x.2.lo x.2.n) := by
      intro a ps
      induction ps with
      | nil => intro u _ _ _; rfl
      | cons p ps ih =>
        intro u hu hq hp
        obtain ⟨m, m1, m2, m3⟩ := hp p (by simp)
        obtain ⟨a1, a0, a2, m', a3, a4, a5, -⟩ := nearWrite_part u h g.core g.ctx.rv a n p m m1 m3 m2 hq
        have step1 : (match groupOf u h with
          | some g => if !uni && txDoomed g.ctx a.t then u else storePart u h g uni n a p
          | none => u) = storePart u h g uni n a p := by
          rw [hu]; dsimp only; rw [if_neg (by rw [hdo]; simp)]
        have : storePart u h g uni n a p = nearWrite u h g.core p.la p.slot g.ctx.rv (partData a n p) (maskBytes p.lo p.n) := by
          unfold storePart; dsimp only; rw [hin, if_neg (by simp), if_neg (by simp [hr])]
        have step2 := step1.trans this
        have a1' : groupOf (nearWrite u h g.core p.la p.slot g.ctx.rv (partData a n p) (maskBytes p.lo p.n)) h = some g :=
          (a1.group h).trans hu
        rw [each_cons, List.map_cons, each_cons, step2]
        clear step1 this step2 a1
        generalize nearWrite u h g.core p.la p.slot g.ctx.rv (partData a n p) (maskBytes p.lo p.n) = v at a1' a0 a2 a3 ⊢
        refine ih v a1' a0 fun q hq => ?_
        obtain ⟨k, k1, k2, k3⟩ := hp q (by simp [hq])
        by_cases e : q.la = p.la
        · rw [e] at k1 ⊢; rw [m1] at k1; cases k1; exact ⟨m', a3, a4, a5.trans k3⟩
        · exact ⟨k, (a2 _ e).trans k1, k2, k3⟩
    intro l
    induction l with
    | nil => intro u _ _ _; rfl
    | cons x l ih =>
      intro u hu hq hp
      have e : flatParts (x :: l) = (x.2.map fun p => (x.1, p)) ++ flatParts l := rfl
      rw [e] at hp ⊢
      have h1 := one x.1 x.2 u hu hq fun p hp' => hp (x.1, p) (by simp [hp'])
      obtain ⟨b1, b0, b2, b3⟩ := nearWrite_parts h g.core g.ctx.rv n (x.2.map fun p => (x.1, p)) u (fun y hy => hp y (by simp only [List.mem_append]; exact .inl hy)) hq
      show each l (each x.2 u _) _ = each _ u _
      rw [h1]
      unfold each
      rw [List.foldl_append]
      refine ih _ ((b1.group h).trans hu) b0 fun y hy => ?_
      obtain ⟨k, k1, k2, k3⟩ := hp y (by simp [hy])
      obtain ⟨m', c1, c2, c3, -⟩ := b3 _ k k1 k2
      exact ⟨m', c1, c2, c3.trans k3⟩
  dsimp only
  unfold performStore
  rw [hg]
  dsimp only
  rw [ht, hg]
  dsimp only
  have hf : (rs.filter fun r => uni || !txDoomed g.ctx r.1.t) = rs := by
    rw [List.filter_eq_self]; intro r _; rw [hdo]; simp
  rw [hf]
  refine (congrArg (fun z => if (!inRegion g.ctx && rs.any fun r => uni || !inTx g.ctx r.1.t) = true then outSoon z h else z) (flat rs s hg hq hl)).trans ?_
  rw [hr]
  cases rs with
  | nil => rfl
  | cons x l =>
    rw [if_pos, if_neg (by simp)]
    simp [hin]

end Sys2Proof.Machine
end

