-- ==== Sys2Proof/Laws/Barriers.lean ====
section
/-! SUPPORT. What a barrier's release does, and what fences do once their release part is done. -/

namespace Sys2Proof.Machine

/-- What letting pass makes of one group: where it is among those let pass and waits at the barrier it is ready past it;
otherwise it runs as it did, from the context it had. -/
def LetPast (b obs : Nat) (among : Prop) (p p' : Group) : Prop :=
  (among ∧ p.run = .parked (.barrier b) → p'.run = .ready ∧ p'.ctx = passBar p.ctx obs)
  ∧ (¬(among ∧ p.run = .parked (.barrier b)) → p'.run = p.run ∧ p'.ctx = p.ctx)

theorem letPass_frame (b obs : Nat) (s : State) (h : Nat) : letPass b obs s h = { s with groups := (letPass b obs s h).groups } := by
  unfold letPass; split
  · split
    · rfl
    · split
      · split <;> rfl
      · rfl
  · rfl

theorem letPass_group (b obs : Nat) (s : State) (h j : Nat) (p : Group) (hj : groupOf s j = some p) :
    ∃ p', groupOf (letPass b obs s h) j = some p' ∧ LetPast b obs (j = h) p p' := by
  by_cases e : j = h
  · subst e
    unfold letPass
    rw [hj]
    dsimp only
    by_cases hp : p.run = .parked (.barrier b)
    · rw [if_pos (by simp [hp]), groupOf_setGroup, if_pos rfl]
      exact ⟨_, rfl, fun _ => ⟨rfl, rfl⟩, fun n => absurd ⟨rfl, hp⟩ n⟩
    · rw [if_neg (by simp [hp])]
      have stays : ∀ q : Group, q.run = p.run → q.ctx = p.ctx → LetPast b obs (j = j) p q :=
        fun q h1 h2 => ⟨fun a => absurd a.2 hp, fun _ => ⟨h1, h2⟩⟩
      split
      · split
        · rw [groupOf_setGroup, if_pos rfl]; exact ⟨_, rfl, stays _ rfl rfl⟩
        · exact ⟨p, hj, stays _ rfl rfl⟩
      · exact ⟨p, hj, stays _ rfl rfl⟩
  · have hs : groupOf (letPass b obs s h) j = groupOf s j := by
      unfold letPass; split
      · split
        · rw [groupOf_setGroup, if_neg e]
        · split
          · split
            · rw [groupOf_setGroup, if_neg e]
            · rfl
          · rfl
      · rfl
    exact ⟨p, hs.trans hj, fun a => absurd a.1 e, fun _ => ⟨rfl, rfl⟩⟩

/-- Letting the groups of a list pass. -/
theorem letPass_each (b obs : Nat) (l : List Nat) (s : State) :
    each l s (letPass b obs) = { s with groups := (each l s (letPass b obs)).groups }
    ∧ ∀ (j : Nat) (p : Group), groupOf s j = some p →
        ∃ p', groupOf (each l s (letPass b obs)) j = some p' ∧ LetPast b obs (j ∈ l) p p' := by
  induction l generalizing s with
  | nil => exact ⟨rfl, fun j p h => ⟨p, h, fun a => absurd a.1 (by simp), fun _ => ⟨rfl, rfl⟩⟩⟩
  | cons a l ih =>
    obtain ⟨i1, i2⟩ := ih (letPass b obs s a)
    have e : each (a :: l) s (letPass b obs) = each l (letPass b obs s a) (letPass b obs) := rfl
    rw [e]
    refine ⟨by rw [i1, letPass_frame], fun j p hj => ?_⟩
    obtain ⟨p1, h1, h2⟩ := letPass_group b obs s a j p hj
    obtain ⟨p2, h3, h4⟩ := i2 j p1 h1
    refine ⟨p2, h3, ?_⟩
    by_cases ha : j = a ∧ p.run = .parked (.barrier b)
    · obtain ⟨r1, c1⟩ := h2.1 ha
      obtain ⟨r2, c2⟩ := h4.2 (fun n => by rw [r1] at n; exact absurd n.2 (by simp))
      exact ⟨fun _ => ⟨r2.trans r1, c2.trans c1⟩, fun n => absurd ⟨by simp [ha.1], ha.2⟩ n⟩
    · obtain ⟨r1, c1⟩ := h2.2 ha
      refine ⟨fun n => ?_, fun n => ?_⟩
      · have hl : j ∈ l := by
          rcases List.mem_cons.1 n.1 with e | e
          · exact absurd ⟨e, n.2⟩ ha
          · exact e
        have := h4.1 ⟨hl, r1.trans n.2⟩
        rw [c1] at this; exact this
      · obtain ⟨r2, c2⟩ := h4.2 fun m => n ⟨List.mem_cons_of_mem _ m.1, r1 ▸ m.2⟩
        exact ⟨r2.trans r1, c2.trans c1⟩

/-- A barrier whose arrivals are missing holds. -/
theorem barrierCheck_holds (s : State) (t b : Nat)
    (h : (look (teamOf s t).bars b {}).arrived.length < (look (teamOf s t).bars b {}).expected) : barrierCheck s t b = s := by
  unfold barrierCheck
  dsimp only
  rw [if_neg]
  simp; omega

/-- A barrier whose arrivals are complete empties, and lets its team's waiting groups pass. -/
theorem barrierCheck_passes (s : State) (t b : Nat) (h0 : (look (teamOf s t).bars b {}).expected ≠ 0)
    (h : (look (teamOf s t).bars b {}).expected ≤ (look (teamOf s t).bars b {}).arrived.length) :
    look (teamOf (barrierCheck s t b) t).bars b {} = {}
    ∧ ∃ obs, ∀ (j : Nat) (p : Group), groupOf s j = some p →
        ∃ p', groupOf (barrierCheck s t b) j = some p' ∧ LetPast b obs (j ∈ (teamOf s t).groups) p p' := by
  have e : barrierCheck s t b = each (teamOf s t).groups
      (if (teamOf s t).pair then modTeam s t fun tm => { tm with bars := put tm.bars b {} }
        else dropStale (modTeam s t fun tm => { tm with bars := put tm.bars b {} }) (teamOf s t).core)
      (letPass b (if (teamOf s t).pair then max (coreOf (modTeam s t fun tm => { tm with bars := put tm.bars b {} }) (teamOf s t).core).obsv
        (coreOf (modTeam s t fun tm => { tm with bars := put tm.bars b {} }) ((teamOf s t).core + 1)).obsv else 0)) := by
    unfold barrierCheck
    dsimp only
    rw [if_pos (by simp [h0, h])]
  have hu : ∀ u : State, u = (if (teamOf s t).pair then modTeam s t fun tm => { tm with bars := put tm.bars b {} }
        else dropStale (modTeam s t fun tm => { tm with bars := put tm.bars b {} }) (teamOf s t).core) →
      (∀ j, groupOf u j = groupOf s j) ∧ look (teamOf u t).bars b {} = {} := by
    intro u hu
    have hm : look (teamOf (modTeam s t fun tm => { tm with bars := put tm.bars b {} }) t).bars b {} = {} := by
      unfold teamOf modTeam
      rw [look_put_self, look_put_self]
    split at hu
    · subst hu; exact ⟨fun j => rfl, hm⟩
    · subst hu; exact ⟨fun j => rfl, hm⟩
  rw [e]
  generalize hv : (if (teamOf s t).pair then modTeam s t fun tm => { tm with bars := put tm.bars b {} }
        else dropStale (modTeam s t fun tm => { tm with bars := put tm.bars b {} }) (teamOf s t).core) = u
  obtain ⟨u1, u2⟩ := hu u hv.symm
  generalize (if (teamOf s t).pair then max (coreOf (modTeam s t fun tm => { tm with bars := put tm.bars b {} }) (teamOf s t).core).obsv
        (coreOf (modTeam s t fun tm => { tm with bars := put tm.bars b {} }) ((teamOf s t).core + 1)).obsv else 0) = obs
  obtain ⟨i1, i2⟩ := letPass_each b obs (teamOf s t).groups u
  refine ⟨by rw [i1]; exact u2, obs, fun j p hj => i2 j p (by rw [u1]; exact hj)⟩

/-- A fence whose release part is done, or that has none, completes with what it acquires. -/
theorem fenceFrom_passes (s : State) (h : Nat) (g : Group) (f : FOps) (hg : groupOf s h = some g)
    (hr : (f.mod = 2 ∧ settled g.ctx = true) ∨ (f.mod ≠ 2 ∧ releasePart s h g (wideScope s g (f.scope.getD .grp)) = (true, s))) :
    fenceFrom s h g f = .next (retire (if wideScope s g (f.scope.getD .grp) = true ∨ f.mod = 1 then s else dropStale s g.core) h
      { g with ctx := { g.ctx with
          rv := if wideScope s g (f.scope.getD .grp) = true ∧ f.mod ≠ 1 then max g.ctx.rv (coreOf s g.core).obsv else g.ctx.rv } } {} 1 1 {}) := by
  have e : (if f.mod == 2 then (settled g.ctx, s) else releasePart s h g (wideScope s g (f.scope.getD .grp))) = (true, s) := by
    rcases hr with ⟨e, e2⟩ | ⟨e, e2⟩
    · rw [e, e2]; rfl
    · rw [if_neg (by simpa using e), e2]
  unfold fenceFrom
  dsimp only
  rw [e]
  dsimp only
  rw [hg]
  simp only [Bool.not_true, Bool.false_eq_true, if_false, Bool.and_eq_true, Bool.or_eq_true, bne_iff_ne, beq_iff_eq, ne_eq]

end Sys2Proof.Machine
end

