-- ==== Sys2Proof/Laws/Messages.lean ====
section
/-! SUPPORT. What sending a message leaves as it is, and the frames of a few shared changes. -/

namespace Sys2Proof.Machine

/-- Sending a message changes only what is due. -/
theorem send_cores (s : State) (ev : Instr) (x : Subj) : (send s ev x).cores = s.cores := by unfold send; split <;> rfl

theorem send_launches (s : State) (ev : Instr) (x : Subj) : (send s ev x).launches = s.launches := by unfold send; split <;> rfl

theorem send_accepted (s : State) (ev : Instr) (x : Subj) : (send s ev x).accepted = s.accepted := by unfold send; split <;> rfl

theorem send_due (s : State) (ev : Instr) (x : Subj) : send s ev x = { s with due := (send s ev x).due } := by unfold send; split <;> rfl

theorem coreOf_send (s : State) (ev : Instr) (x : Subj) (c : Nat) : coreOf (send s ev x) c = coreOf s c := by unfold coreOf; rw [send_cores]

/-- A fold of changes of what is due is one. -/
theorem each_due {α : Type} (l : List α) (s : State) (F : State → α → State) (hF : ∀ s a, F s a = { s with due := (F s a).due }) :
   each l s F = { s with due := (each l s F).due } := by
  induction l generalizing s with
  | nil => rfl
  | cons a l ih =>
    show each l (F s a) F = { s with due := (each l (F s a) F).due }
    rw [ih (F s a)]
    rw [hF s a]

/-- Writing bytes by lines. -/
theorem beyond_spansWrite (l : List Span) (bs : List Byte) (s : State) : Beyond s (spansWrite s l bs) := by
  unfold spansWrite
  suffices h : ∀ (l : List Span) (x : List Byte × State), Beyond s x.2 → Beyond s (l.foldl (fun (bs, s) (la, slot, lo, n) =>
    let data := placeBytes lo (bs.take n)
    let mask := maskBytes lo n
    (bs.drop n, writeAtHome s la slot data mask 0)) x).2 from h l (bs, s) (Beyond.refl s)
  intro l
  induction l with
  | nil => intro x h; exact h
  | cons a l ih =>
    intro x h
    exact ih _ (h.trans (beyond_writeAtHome ..))

theorem Beyond.launches {s t : State} (a : Beyond s t) : t.launches = s.launches := by rw [a.1]

theorem Beyond.accepted {s t : State} (a : Beyond s t) : t.accepted = s.accepted := by rw [a.1]

/-- A change of a partition, or of a queue, keeps launches. -/
theorem modPart_launches (s : State) (p : Nat) (f : Partition → Partition) : (modPart s p f).launches = s.launches := by
  unfold modPart; first | rfl | (split <;> rfl)

theorem modPart_accepted (s : State) (p : Nat) (f : Partition → Partition) : (modPart s p f).accepted = s.accepted := by
  unfold modPart; first | rfl | (split <;> rfl)

theorem modQueue_launches (s : State) (vf q : Nat) (f : Queue → Queue) : (modQueue s vf q f).launches = s.launches := by
  unfold modQueue; split <;> rfl

theorem modQueue_accepted (s : State) (vf q : Nat) (f : Queue → Queue) : (modQueue s vf q f).accepted = s.accepted := by
  unfold modQueue; split <;> rfl

/-- The report word of a queue. -/
theorem beyond_writeReport (s : State) (vf q : Nat) : Beyond s (writeReport s vf q) := by
  unfold writeReport
  split
  · exact Beyond.refl s
  · split
    · exact beyond_spansWrite ..
    · exact Beyond.refl s

theorem writeCompletion_launches (s : State) (vf q p : Nat) (a : Word) (bs : List Byte) : (writeCompletion s vf q p a bs).launches = s.launches := by
  unfold writeCompletion
  split
  · rfl
  · split
    · exact Beyond.launches (beyond_spansWrite ..)
    · rw [Beyond.launches (beyond_writeReport ..), modQueue_launches]

/-- A table whose values are changed, read at a key. -/
theorem find_map_value {α β : Type} (t : Tbl α) (k : Nat) (F : Nat → α → β) : find (t.map fun x => (x.1, F x.1 x.2)) k = (find t k).map (F k) := by
  induction t with
  | nil => rfl
  | cons x t ih =>
    obtain ⟨j, v⟩ := x
    simp only [List.map, find]
    by_cases h : j = k
    · subst h; simp
    · simp [h, ih]

/-- A line after it is changed. -/
theorem lineSt_modLine_self (s : State) (n : Nat) (F : LineSt → LineSt) : lineSt (modLine s n F) n = F (lineSt s n) := by
  unfold lineSt modLine; exact look_put_self ..

/-- A request in a line's queue does not make it ready. -/
theorem lineReady_queue (s : State) (n : Nat) (d : Due) : lineReady (modLine s n fun l => { l with queue := l.queue ++ [d] }) n = lineReady s n := by
  unfold lineReady lineFree
  rw [lineSt_modLine_self]
  rfl

/-- A core gives back what it holds. -/
theorem beyond_settleCore (s : State) (c : Nat) : Beyond s (settleCore s c) := by
  unfold settleCore
  refine Beyond.trans (beyond_each (coreOf s c).near s (fun s (la, n) => if n.isDirty then performWriteback s c la n.slot n.data n.mask (coreOf s c).obsv n.poison else s) fun s x => ?_) (beyond_modCore ..)
  dsimp only; split
  · exact beyond_performWriteback ..
  · exact Beyond.refl _

/-- Two states that differ only in groups and teams. -/
def GroupsTeams (s t : State) : Prop := t = { s with groups := t.groups, teams := t.teams }

theorem GroupsTeams.refl (s : State) : GroupsTeams s s := rfl

theorem GroupsTeams.trans {s t u : State} (a : GroupsTeams s t) (b : GroupsTeams t u) : GroupsTeams s u := by
  unfold GroupsTeams at *; rw [b, a]

theorem groupsTeams_modGroup (s : State) (h : Nat) (F : Group → Group) : GroupsTeams s (modGroup s h F) := by
  unfold modGroup; split <;> rfl

theorem groupsTeams_modWin (s : State) (h w : Nat) (F : Win → Win) : GroupsTeams s (modWin s h w F) := groupsTeams_modGroup ..

theorem groupsTeams_modTeam (s : State) (h : Nat) (F : Team → Team) : GroupsTeams s (modTeam s h F) := rfl

theorem groupsTeams_each {α : Type} (l : List α) (s : State) (F : State → α → State) (hF : ∀ s a, GroupsTeams s (F s a)) : GroupsTeams s (each l s F) := by
  induction l generalizing s with
  | nil => exact GroupsTeams.refl s
  | cons a l ih => exact (hF s a).trans (ih (F s a))

theorem groupsTeams_core {s t : State} (a : GroupsTeams s t) (c : Nat) : coreOf t c = coreOf s c := by unfold coreOf; rw [a]

/-- A change of a partition. -/
theorem modPart_frame (s : State) (p : Nat) (F : Partition → Partition) : modPart s p F = { s with parts := (modPart s p F).parts } := by
  unfold modPart; split <;> rfl

/-- A new number. -/
theorem newId_eq (s : State) : newId s = (s.nextId, { s with nextId := s.nextId + 1 }) := rfl

/-- Bytes as a number are below its width. -/
theorem leNat_lt (l : List Byte) : leNat l < 256 ^ l.length := by
  induction l with
  | nil => simp [leNat]
  | cons b l ih =>
    show b.toNat + 256 * leNat l < 256 ^ (l.length + 1)
    have := b.isLt
    rw [Nat.pow_succ]; omega

theorem leNat_take4 (l : List Byte) : leNat (l.take 4) < 2 ^ 32 := by
  refine Nat.lt_of_lt_of_le (leNat_lt _) ?_
  refine Nat.le_trans (Nat.pow_le_pow_right (by decide) (List.length_take_le 4 l)) (by decide)

/-- A group that is set. -/
theorem groupOf_set_self (s : State) (h : Nat) (g : Group) : groupOf (setGroup s h g) h = some g := by rw [groupOf_setGroup, if_pos rfl]

/-- A barrier of a team that is set. -/
theorem modTeam_bars (s : State) (t b : Nat) (bar : Bar) :
    look (teamOf (modTeam s t fun tm => { tm with bars := put tm.bars b bar }) t).bars b {} = bar
    ∧ (teamOf (modTeam s t fun tm => { tm with bars := put tm.bars b bar }) t).groups = (teamOf s t).groups := by
  unfold teamOf modTeam
  rw [look_put_self]
  exact ⟨look_put_self .., rfl⟩

theorem spend_teams (s : State) (h n : Nat) (t : Nat) : teamOf (spend s h n) t = teamOf s t := by
  have := (spend_elsewhere s h n).1.2.2.2.2.2
  unfold teamOf; rw [this]

/-- A fold that keeps a group keeps it. -/
theorem each_group {α} (l : List α) (s : State) (f : State → α → State) (h : Nat) (hf : ∀ s a, groupOf (f s a) h = groupOf s h) :
    groupOf (each l s f) h = groupOf s h := by
  induction l generalizing s with
  | nil => rfl
  | cons a l ih => exact (ih (f s a)).trans (hf s a)

end Sys2Proof.Machine
end

