-- ==== Sys2Proof/Laws/Control.lean ====
section
/-! SUPPORT. What `EXIT` and the retirement of a group do. -/

namespace Sys2Proof.Machine

/-- The end of an open region, as its group sees it. -/
theorem endRegion_group (u : State) (h : Nat) (g1 : Group) (hg : groupOf u h = some g1) :
    groupOf (endRegion u h) h = some (if g1.ctx.region.getLsbD 0 then { g1 with ctx := { g1.ctx with region := 0, ckpt := none } } else g1) := by
  unfold endRegion
  rw [hg]
  dsimp only
  split
  · rw [(beyond_freeRegs ..).group]
    unfold modCtx
    rw [modGroup_group, if_pos rfl, (beyond_settlePend ..).group, hg]
    rfl
  · exact hg

/-- Threads that exit. -/
theorem endThreads_group (u : State) (h : Nat) (m : Word) (g1 : Group) (hg : groupOf u h = some g1) :
    groupOf (endThreads u h m) h = some { g1 with ctx := { g1.ctx with live := g1.ctx.live &&& ~~~m, tx := g1.ctx.tx.filter fun y => !m.getLsbD y.1 } } := by
  unfold endThreads
  rw [hg]
  dsimp only
  rw [(beyond_each _ _ _ fun s id => ?_).group]
  · rw [(beyond_modCore ..).group, groupOf_setGroup, if_pos rfl]
  · split
    · exact Beyond.refl _
    · exact beyond_futFault ..

/-- Letting a group pass leaves one that neither waits nor has a context that does. -/
theorem letPass_keeps (b obs : Nat) (s : State) (a h : Nat) (g : Group) (hg : groupOf s h = some g) (hr : g.run = .retired) (hs : g.shadow = none) :
    groupOf (letPass b obs s a) h = some g := by
  unfold letPass
  by_cases e : a = h
  · subst e
    rw [hg]
    dsimp only
    rw [hr, hs]
    exact hg
  · split
    · split
      · rw [groupOf_setGroup, if_neg (Ne.symm e)]; exact hg
      · split
        · split
          · rw [groupOf_setGroup, if_neg (Ne.symm e)]; exact hg
          · exact hg
        · exact hg
    · exact hg

/-- A barrier that passes leaves a retired group. -/
theorem barrierCheck_group (s : State) (t b h : Nat) (g : Group) (hg : groupOf s h = some g) (hr : g.run = .retired) (hs : g.shadow = none) :
    groupOf (barrierCheck s t b) h = some g := by
  unfold barrierCheck
  dsimp only
  split
  · have k : ∀ (l : List Nat) obs (u : State), groupOf u h = some g → groupOf (each l u (letPass b obs)) h = some g := by
      intro l obs
      induction l with
      | nil => intro u hu; exact hu
      | cons a l ih => intro u hu; exact ih _ (letPass_keeps b obs u a h g hu hr hs)
    apply k
    split
    · exact hg
    · exact hg
  · exact hg

/-- A cancelled command leaves every group. -/
theorem cancelCmd_group (s : State) (c h : Nat) : groupOf (cancelCmd s c) h = groupOf s h := by
  unfold cancelCmd; dsimp only
  split
  · rfl
  · split
    · rfl
    · rfl
    · rw [send_group]; unfold modCmd; split <;> rfl

/-- A team that retires leaves every group. -/
theorem teamRetires_group (s : State) (t h : Nat) : groupOf (teamRetires s t) h = groupOf s h := by
  unfold teamRetires; dsimp only
  rw [send_group, send_group, send_group, each_group _ _ _ _ fun s a => cancelCmd_group ..]; rfl

/-- A group that retires holds no register and no thread. -/
theorem retireGroup_group (s : State) (h : Nat) (g : Group) (hg : groupOf s h = some g) :
    ∃ g', groupOf (retireGroup s h) h = some g' ∧ g'.run = .retired ∧ g'.ctx.live = 0 ∧ g'.ctx.active = 0 ∧ g'.ctx.v = [] ∧ g'.shadow = none := by
  have key : ∀ (l : List Nat) (u : State) (g' : Group) tm, groupOf u h = some g' → g'.run = .retired → g'.shadow = none → groupOf (each l u fun s b =>
      let bar := look (teamOf s tm).bars b {}
      if bar.every && bar.expected ≠ 0 then
        let bar := { bar with expected := bar.expected - 1 }
        barrierCheck (modTeam s tm fun tm => { tm with bars := put tm.bars b bar }) tm b
      else s) h = some g' := by
    intro l
    induction l with
    | nil => intro u g' tm a _ _; exact a
    | cons b l ih =>
      intro u g' tm a r x
      refine ih _ g' tm ?_ r x
      dsimp only
      split
      · exact barrierCheck_group _ _ _ _ _ a r x
      · exact a
  have e0 : groupOf (dropTxLines (endRegion s h) h ((groupOf s h).getD {}).core none) h = groupOf (endRegion s h) h := (beyond_dropTxLines ..).group h
  rw [endRegion_group s h g hg] at e0
  unfold retireGroup
  dsimp only
  rw [e0]
  dsimp only
  generalize (if g.ctx.region.getLsbD 0 = true then ({ g with ctx := { g.ctx with region := 0, ckpt := none } } : Group) else g) = g1
  generalize dropTxLines (endRegion s h) h ((groupOf s h).getD {}).core none = u
  have last : ∀ (v : State) (g' : Group), groupOf v h = some g' → groupOf (
      if (liveGroups (if g1.outer.isSome then send v .adoptionReturn { g := h } else v) g1.team).isEmpty = true then teamRetires (if g1.outer.isSome then send v .adoptionReturn { g := h } else v) g1.team
      else (if g1.outer.isSome then send v .adoptionReturn { g := h } else v)) h = some g' := by
    intro v g' hv
    have : groupOf (if g1.outer.isSome then send v .adoptionReturn { g := h } else v) h = some g' := by
      split
      · rw [send_group]; exact hv
      · exact hv
    generalize (if g1.outer.isSome = true then send v .adoptionReturn { g := h } else v) = y at this ⊢
    split
    · rw [teamRetires_group]; exact this
    · exact this
  refine ⟨{ g1 with run := .retired, shadow := none, frec := none, grant := 0
                    ctx := { g1.ctx with v := [], wins := (g1.ctx.wins.filter fun w => w.fault.isNone).map fun w => { w with left := 0, discarded := true }, tx := [], live := 0, active := 0, pending := none
                                         sinks := g1.ctx.sinks.filter fun k => ((g1.ctx.wins.filter fun w => w.fault.isNone).map fun w => ({ w with left := 0, discarded := true } : Win)).any fun w => w.id = k.1 } },
    last _ _ (key _ _ _ _ ?_ rfl rfl), rfl, rfl, rfl, rfl, rfl⟩
  rw [(beyond_freeRegs ..).group, groupOf_setGroup, if_pos rfl]

/-- A word that names no register waits for no result. -/
theorem notBlocked_nil (g : Group) (eff) : blocked (ended g).ctx (Io.under {} eff) = false := (mayRetire_nil State.reset 0 (ended g) eff).1

/-- Without faulted windows nothing is replayed. -/
theorem replay_none (s : State) (h : Nat) (g : Group) (hg : groupOf s h = some g) (hw : ∀ w ∈ g.ctx.wins, w.fault = none) : replayWins s h = s := by
  unfold replayWins
  rw [hg]
  dsimp only
  have : ∀ l : List Win, (∀ w ∈ l, w.fault = none) → ∀ s, each l s (fun s w => replayWin s h w) = s := by
    intro l
    induction l with
    | nil => intro _ s; rfl
    | cons w l ih =>
      intro hl s
      show each l (replayWin s h w) _ = s
      have : replayWin s h w = s := by unfold replayWin; rw [hl w (List.mem_cons_self ..)]
      rw [this]
      exact ih (fun v hv => hl v (List.mem_cons_of_mem _ hv)) s
  exact this _ (fun w hw' => hw w (List.mem_filter.1 hw').1) s

end Sys2Proof.Machine
end

