-- ==== Sys2Proof/Laws/Encoding.lean ====
section
/-! SUPPORT. The parts of the decoder and the encoder undo each other: fields, codes, words, slots. -/

namespace Sys2Proof

/-- Fields cut from fields put side by side are those fields. -/
theorem unpack_pack (fs : List (Nat × Nat)) :
    unpackFields (fs.map (·.1)) (packFields fs) = fs.map fun f => f.2 % 2 ^ f.1 := by
  induction fs with
  | nil => rfl
  | cons p fs ih =>
    obtain ⟨w, v⟩ := p
    have hw : 0 < 2 ^ w := Nat.two_pow_pos w
    have hv : v % 2 ^ w < 2 ^ w := Nat.mod_lt _ hw
    simp only [List.map_cons, packFields, unpackFields]
    rw [Nat.add_mul_mod_self_left, Nat.mod_mod, Nat.add_mul_div_left _ _ hw, Nat.div_eq_of_lt hv, Nat.zero_add, ih]

/-- Fields put side by side fit in the sum of their widths. -/
theorem packFields_lt (fs : List (Nat × Nat)) : packFields fs < 2 ^ (fs.map (·.1)).sum := by
  induction fs with
  | nil => simp [packFields]
  | cons p fs ih =>
    obtain ⟨w, v⟩ := p
    simp only [List.map_cons, packFields, List.sum_cons]
    rw [Nat.pow_add]
    have hv : v % 2 ^ w < 2 ^ w := Nat.mod_lt _ (Nat.two_pow_pos w)
    calc v % 2 ^ w + 2 ^ w * packFields fs < 2 ^ w + 2 ^ w * packFields fs := by omega
      _ = 2 ^ w * (packFields fs + 1) := by rw [Nat.mul_add, Nat.mul_one, Nat.add_comm]
      _ ≤ 2 ^ w * 2 ^ (fs.map (·.1)).sum := Nat.mul_le_mul_left _ ih

/-- A number put together again from its fields. -/
theorem pack_unpack (ws : List Nat) (x : Nat) (h : x < 2 ^ ws.sum) : packFields (ws.zip (unpackFields ws x)) = x := by
  induction ws generalizing x with
  | nil => simp at h; subst h; rfl
  | cons w ws ih =>
    simp only [unpackFields, List.zip_cons_cons, packFields, Nat.mod_mod]
    rw [ih]
    · exact Nat.mod_add_div x (2 ^ w)
    · rw [List.sum_cons, Nat.pow_add, Nat.mul_comm] at h
      exact Nat.div_lt_of_lt_mul (by rw [Nat.mul_comm]; exact h)

theorem ty_ofCode_code (t : Ty) : Ty.ofCode t.code = some t := by cases t <;> rfl
theorem nbr_ofCode_code (n : Nbr) : Nbr.ofCode n.code = some n := by cases n <;> rfl
theorem edge_ofCode_code (e : Edge) : Edge.ofCode e.code = some e := by cases e <;> rfl
theorem rm_ofCode_code (r : Rm) : Rm.ofCode r.code = r := by cases r <;> rfl
theorem op_ofCode_code (o : Op) : Op.ofCode o.code = some o := by cases o <;> rfl
theorem pairOp_ofCode_code (o : PairOp) : PairOp.ofCode o.code = some o := by cases o <;> rfl
theorem flOp_ofCode_code (o : FlOp) : FlOp.ofCode o.code = some o := by cases o <;> rfl

theorem ty_code_lt (t : Ty) : t.code < 2 ^ 4 := by cases t <;> decide
theorem nbr_code_lt (n : Nbr) : n.code < 2 ^ 2 := by cases n <;> decide
theorem edge_code_lt (e : Edge) : e.code < 2 ^ 2 := by cases e <;> decide
theorem rm_code_lt (r : Rm) : r.code < 2 ^ 2 := by cases r <;> decide
theorem op_code_lt (o : Op) : o.code < 2 ^ 8 := by cases o <;> decide
theorem pairOp_code_lt (o : PairOp) : o.code < 2 ^ 7 := by cases o <;> decide
theorem flOp_code_lt (o : FlOp) : o.code < 2 ^ 6 := by cases o <;> decide
theorem bit_lt (b : Bool) : bit b < 2 ^ 1 := by cases b <;> decide
theorem bit_eq (b : Bool) : (bit b == 1) = b := by cases b <;> rfl

theorem ty_code_ofCode {c : Nat} {t : Ty} (h : Ty.ofCode c = some t) : t.code = c := by
  unfold Ty.ofCode at h
  split at h <;> first | (cases h; rfl) | cases h

theorem nbr_code_ofCode {c : Nat} {n : Nbr} (h : Nbr.ofCode c = some n) : n.code = c := by
  unfold Nbr.ofCode at h
  split at h <;> first | (cases h; rfl) | cases h

theorem edge_code_ofCode {c : Nat} {e : Edge} (h : Edge.ofCode c = some e) : e.code = c := by
  unfold Edge.ofCode at h
  split at h <;> first | (cases h; rfl) | cases h

theorem op_code_ofCode {c : Nat} {o : Op} (h : Op.ofCode c = some o) : o.code = c := by
  unfold Op.ofCode at h
  split at h <;> first | (cases h; rfl) | cases h

theorem pairOp_code_ofCode {c : Nat} {o : PairOp} (h : PairOp.ofCode c = some o) : o.code = c := by
  unfold PairOp.ofCode at h
  split at h <;> first | (cases h; rfl) | cases h

theorem flOp_code_ofCode {c : Nat} {o : FlOp} (h : FlOp.ofCode c = some o) : o.code = c := by
  unfold FlOp.ofCode at h
  split at h <;> first | (cases h; rfl) | cases h

theorem rm_code_ofCode {c : Nat} (h : c < 4) : (Rm.ofCode c).code = c := by
  interval_cases c <;> rfl

theorem bit_beq {c : Nat} (h : c < 2) : bit (c == 1) = c := by
  interval_cases c <;> rfl

/-- The fields of an F word, the lowest first. -/
def fFields (o : Op) (f : FOps) : List Nat :=
  [f.x.toNat, bit f.sat, f.rm.code, f.mod.toNat, f.ty.code, bit f.lrC, bit f.lrB, bit f.lrA, bit f.u, f.edge.code,
   f.nb.code, f.na.code, f.c.toNat, f.b.toNat, f.a.toNat, f.d.toNat, f.la.toNat, bit f.kn, f.k.toNat, o.code, 0]

theorem packF_toNat (o : Op) (f : FOps) : (packF o f).toNat = packFields (fWidths.zip (fFields o f)) := by
  have hlt := packFields_lt (fWidths.zip (fFields o f))
  have hs : ((fWidths.zip (fFields o f)).map (·.1)).sum = 64 := by simp [fWidths, fFields]
  rw [hs] at hlt
  have h : packF o f = .ofNat 64 (packFields (fWidths.zip (fFields o f))) := by unfold packF fFields; rfl
  rw [h, BitVec.toNat_ofNat]
  exact Nat.mod_eq_of_lt hlt

/-- The fields cut from a packed F word. -/
theorem unpackFields_packF (o : Op) (f : FOps) : unpackFields fWidths (packF o f).toNat = fFields o f := by
  rw [packF_toNat]
  refine (unpack_pack (fWidths.zip (fFields o f))).trans ?_
  have e (n v : Nat) (h : v < 2 ^ n) : v % 2 ^ n = v := Nat.mod_eq_of_lt h
  simp only [fWidths, fFields, List.zip_cons_cons, List.zip_nil_right, List.map_cons, List.map_nil]
  rw [e _ _ (bit_lt f.sat), e _ _ (bit_lt f.lrC), e _ _ (bit_lt f.lrB), e _ _ (bit_lt f.lrA), e _ _ (bit_lt f.u), e _ _ (bit_lt f.kn),
    e _ _ (rm_code_lt f.rm), e _ _ (ty_code_lt f.ty), e _ _ (edge_code_lt f.edge), e _ _ (nbr_code_lt f.nb), e _ _ (nbr_code_lt f.na),
    e _ _ (op_code_lt o), e _ _ f.x.isLt, e _ _ f.mod.isLt, e _ _ f.c.isLt, e _ _ f.b.isLt, e _ _ f.a.isLt, e _ _ f.d.isLt,
    e _ _ f.la.isLt, e _ _ f.k.isLt, Nat.zero_mod]

/-- The fields of a packed F word are those it was packed from. -/
theorem unpackF_packF (o : Op) (f : FOps) : unpackF (packF o f) = .ok (o, f) := by
  unfold unpackF
  rw [unpackFields_packF]
  simp only [fFields, op_ofCode_code, ty_ofCode_code, nbr_ofCode_code, edge_ofCode_code, rm_ofCode_code, bit_eq,
    BitVec.ofNat_toNat, BitVec.setWidth_eq]

/-- A packed F word has form bit zero. -/
theorem packF_form (o : Op) (f : FOps) : (packF o f).getLsbD 63 = false := by
  have hlt := packFields_lt ((fWidths.take 20).zip ((fFields o f).take 20))
  have he : packFields (fWidths.zip (fFields o f)) = packFields ((fWidths.take 20).zip ((fFields o f).take 20)) := by
    simp only [fWidths, fFields, List.take, List.zip_cons_cons, List.zip_nil_right, packFields, Nat.zero_mod, Nat.mul_zero, Nat.add_zero]
  have hs : (((fWidths.take 20).zip ((fFields o f).take 20)).map (·.1)).sum = 63 := by simp [fWidths, fFields]
  rw [hs] at hlt
  unfold BitVec.getLsbD
  rw [packF_toNat, he]
  exact Nat.testBit_lt_two_pow hlt

/-- The fields of a word of form 0, packed again, are the word. -/
theorem packF_unpackF {w : Word} {o : Op} {f : FOps} (h : unpackF w = .ok (o, f)) (h0 : w.getLsbD 63 = false) : packF o f = w := by
  have hp := pack_unpack fWidths w.toNat w.isLt
  have hz : w.toNat < 2 ^ 63 := by
    have := BitVec.msb_eq_false_iff_two_mul_lt (x := w)
    rw [BitVec.msb_eq_getLsbD_last] at this
    have := this.mp h0
    omega
  unfold unpackF at h
  generalize hu : unpackFields fWidths w.toNat = fs at h hp
  split at h
  · rename_i x sat rm mod ty lrc lrb lra u edge nb na c b a d la kn k op form
    simp only [fWidths, unpackFields, List.cons.injEq, and_true] at hu
    obtain ⟨e1, e2, e3, e4, e5, e6, e7, e8, e9, e10, e11, e12, e13, e14, e15, e16, e17, e18, e19, e20, e21⟩ := hu
    have b1 : sat < 2 := by rw [← e2]; exact Nat.mod_lt _ (by decide)
    have b2 : rm < 4 := by rw [← e3]; exact Nat.mod_lt _ (by decide)
    have b3 : lrc < 2 := by rw [← e6]; exact Nat.mod_lt _ (by decide)
    have b4 : lrb < 2 := by rw [← e7]; exact Nat.mod_lt _ (by decide)
    have b5 : lra < 2 := by rw [← e8]; exact Nat.mod_lt _ (by decide)
    have b6 : u < 2 := by rw [← e9]; exact Nat.mod_lt _ (by decide)
    have b7 : kn < 2 := by rw [← e18]; exact Nat.mod_lt _ (by decide)
    have c1 : x < 2 ^ 3 := by rw [← e1]; exact Nat.mod_lt _ (by decide)
    have c4 : mod < 2 ^ 3 := by rw [← e4]; exact Nat.mod_lt _ (by decide)
    have c13 : c < 2 ^ 6 := by rw [← e13]; exact Nat.mod_lt _ (by decide)
    have c14 : b < 2 ^ 6 := by rw [← e14]; exact Nat.mod_lt _ (by decide)
    have c15 : a < 2 ^ 6 := by rw [← e15]; exact Nat.mod_lt _ (by decide)
    have c16 : d < 2 ^ 6 := by rw [← e16]; exact Nat.mod_lt _ (by decide)
    have c17 : la < 2 ^ 4 := by rw [← e17]; exact Nat.mod_lt _ (by decide)
    have c19 : k < 2 ^ 3 := by rw [← e19]; exact Nat.mod_lt _ (by decide)
    have hform : form = 0 := by
      rw [← e21]
      simp only [Nat.div_div_eq_div_mul]
      rw [Nat.div_eq_of_lt (lt_of_lt_of_eq hz (by norm_num)), Nat.zero_mod]
    split at h
    · cases h
    · rename_i o' ho
      split at h
      · cases h
      · rename_i t ht
        split at h
        · rename_i na' nb' e' hna hnb hed
          simp only [Except.ok.injEq, Prod.mk.injEq] at h
          obtain ⟨rfl, rfl⟩ := h
          unfold packF
          simp only [BitVec.toNat_ofNat, Nat.mod_eq_of_lt c1, Nat.mod_eq_of_lt c4, Nat.mod_eq_of_lt c13, Nat.mod_eq_of_lt c14,
            Nat.mod_eq_of_lt c15, Nat.mod_eq_of_lt c16, Nat.mod_eq_of_lt c17, Nat.mod_eq_of_lt c19, bit_beq b1, bit_beq b3, bit_beq b4,
            bit_beq b5, bit_beq b6, bit_beq b7, rm_code_ofCode b2, op_code_ofCode ho, ty_code_ofCode ht, nbr_code_ofCode hna,
            nbr_code_ofCode hnb, edge_code_ofCode hed]
          rw [hform] at hp
          rw [hp]
          exact BitVec.ofNat_toNat .. |>.trans (BitVec.setWidth_eq _)
        · cases h
  · cases h

/-- Decoding begins with the form bit. -/
theorem decode_cons (w : Word) (rest : List Word) :
    decode (w :: rest) = if w.getLsbD 63 then decodePair w else decodeF w rest := rfl

/-- A built instruction is legal where its parts are. -/
theorem build_wf (o : Op) (f : FOps) (ws : List Word) (h : o.wf f ws = true) : (o.build f ws).wf = true := by
  cases o <;> (show Op.wf _ _ _ = true; exact h)

/-- A list of one word, from its length. -/
theorem one_word {ws : List Word} (h : ws.length = 1) : ws = [ws.getD 0 0] := by
  match ws, h with
  | [w], _ => rfl

/-- A list of three words, from its length. -/
theorem three_words {ws : List Word} (h : ws.length = 3) : ws = [ws.getD 0 0, ws.getD 1 0, ws.getD 2 0] := by
  match ws, h with
  | [w, x, y], _ => rfl

/-- The words of a built instruction. -/
theorem encode_build (o : Op) (f : FOps) (ws : List Word) (h : ws.length = o.words f - 1) : encode (o.build f ws) = packF o f :: ws := by
  have take1 (w : Word) (n : Nat) (e : n = 1) : [w].take n = [w] := by subst e; rfl
  cases o <;> simp only [Op.words, Op.length] at h
  all_goals first
    | (have h0 := List.eq_nil_of_length_eq_zero h; subst h0; rfl)
    | (have h1 := one_word h; generalize ws.getD 0 0 = w at h1; subst h1; rfl)
    | (have h3 := three_words h; generalize ws.getD 0 0 = w at h3; generalize ws.getD 1 0 = x at h3; generalize ws.getD 2 0 = y at h3
       subst h3; rfl)
    | (simp only [encode, Op.build, Instr.parts, Op.words, Op.length]; rw [List.take_of_length_le (by omega)])
    | (cases hl : f.mod.getLsbD 2
       · simp only [hl, Bool.false_eq_true, if_false, Nat.sub_self] at h
         have h0 := List.eq_nil_of_length_eq_zero h
         subst h0
         simp only [encode, Op.build, Instr.parts, Op.words, Op.length, hl, Bool.false_eq_true, if_false, Nat.sub_self, List.take_zero]
       · simp only [hl, if_true, Nat.add_one_sub_one] at h
         have h1 := one_word h; generalize ws.getD 0 0 = w at h1; subst h1
         simp only [encode, Op.build, Instr.parts, Op.words, Op.length, hl, if_true]
         rfl)

/-- A built pair of legal slots is legal, and its word is theirs. -/
theorem build_pair (a b : PairSlot) : (a.op.build a.f b).parts = none ∧ (a.op.build a.f b).pairParts = some (a, b) := by
  obtain ⟨o, f⟩ := a
  cases o <;> exact ⟨rfl, rfl⟩

/-- A built filter instruction and its parts. -/
theorem build_filter (o : FlOp) (f : FlF) :
    (o.build f).parts = none ∧ (o.build f).pairParts = none ∧ (o.build f).flParts = some (o, f) := by
  cases o <;> exact ⟨rfl, rfl, rfl⟩

/-! ### Slots and pairs -/

/-- The fields of a slot, the lowest first. -/
def slotFields (p : PairSlot) : List Nat :=
  [0, bit p.f.u, bit p.f.kn, p.f.k.toNat, bit p.f.lrs, bit p.f.lrd, p.f.ns.code, p.f.s.toNat, p.f.d.toNat, p.op.code]

theorem packSlot_lt (p : PairSlot) : packSlot p < 2 ^ 31 := by
  have hlt := packFields_lt (slotWidths.zip (slotFields p))
  have hs : ((slotWidths.zip (slotFields p)).map (·.1)).sum = 31 := by simp [slotWidths, slotFields]
  rw [hs] at hlt
  exact hlt

theorem unpackFields_packSlot (p : PairSlot) : unpackFields slotWidths (packSlot p) = slotFields p := by
  refine (unpack_pack (slotWidths.zip (slotFields p))).trans ?_
  have e (n v : Nat) (h : v < 2 ^ n) : v % 2 ^ n = v := Nat.mod_eq_of_lt h
  simp only [slotWidths, slotFields, List.zip_cons_cons, List.zip_nil_right, List.map_cons, List.map_nil]
  rw [e _ _ (bit_lt p.f.u), e _ _ (bit_lt p.f.kn), e _ _ (bit_lt p.f.lrs), e _ _ (bit_lt p.f.lrd), e _ _ (nbr_code_lt p.f.ns),
    e _ _ (pairOp_code_lt p.op), e _ _ p.f.k.isLt, e _ _ p.f.s.isLt, e _ _ p.f.d.isLt, Nat.zero_mod]

theorem unpackSlot_packSlot (p : PairSlot) : unpackSlot (packSlot p) = .ok p := by
  unfold unpackSlot
  rw [unpackFields_packSlot]
  simp only [slotFields, ne_eq, not_true_eq_false, if_false, pairOp_ofCode_code, nbr_ofCode_code, bit_eq, BitVec.ofNat_toNat,
    BitVec.setWidth_eq]

theorem packSlot_unpackSlot {x : Nat} {p : PairSlot} (hx : x < 2 ^ 31) (h : unpackSlot x = .ok p) : packSlot p = x := by
  have hp := pack_unpack slotWidths x hx
  unfold unpackSlot at h
  generalize hu : unpackFields slotWidths x = fs at h hp
  split at h
  · rename_i z u kn k lrs lrd ns s d op7
    simp only [slotWidths, unpackFields, List.cons.injEq, and_true] at hu
    obtain ⟨e1, e2, e3, e4, e5, e6, e7, e8, e9, e10⟩ := hu
    have b1 : u < 2 := by rw [← e2]; exact Nat.mod_lt _ (by decide)
    have b2 : kn < 2 := by rw [← e3]; exact Nat.mod_lt _ (by decide)
    have b3 : lrs < 2 := by rw [← e5]; exact Nat.mod_lt _ (by decide)
    have b4 : lrd < 2 := by rw [← e6]; exact Nat.mod_lt _ (by decide)
    have c1 : k < 2 ^ 3 := by rw [← e4]; exact Nat.mod_lt _ (by decide)
    have c2 : s < 2 ^ 6 := by rw [← e8]; exact Nat.mod_lt _ (by decide)
    have c3 : d < 2 ^ 6 := by rw [← e9]; exact Nat.mod_lt _ (by decide)
    split at h
    · cases h
    · rename_i hz
      split at h
      · rename_i o n ho hn
        simp only [Except.ok.injEq] at h
        subst h
        unfold packSlot
        simp only [BitVec.toNat_ofNat, Nat.mod_eq_of_lt c1, Nat.mod_eq_of_lt c2, Nat.mod_eq_of_lt c3, bit_beq b1, bit_beq b2,
          bit_beq b3, bit_beq b4, pairOp_code_ofCode ho, nbr_code_ofCode hn]
        rw [← hp, Decidable.not_not.mp hz]
      · cases h
      · cases h
  · cases h

theorem packPair_toNat (a b : PairSlot) :
    (packPair a b).toNat = packFields ([1, 31, 31, 1].zip [0, packSlot b, packSlot a, 1]) := by
  have hlt := packFields_lt ([1, 31, 31, 1].zip [0, packSlot b, packSlot a, 1])
  unfold packPair
  rw [BitVec.toNat_ofNat]
  exact Nat.mod_eq_of_lt (lt_of_lt_of_eq hlt (by simp))

theorem unpackFields_packPair (a b : PairSlot) :
    unpackFields [1, 31, 31, 1] (packPair a b).toNat = [0, packSlot b, packSlot a, 1] := by
  rw [packPair_toNat]
  refine (unpack_pack ([1, 31, 31, 1].zip [0, packSlot b, packSlot a, 1])).trans ?_
  simp only [List.zip_cons_cons, List.zip_nil_right, List.map_cons, List.map_nil]
  rw [Nat.mod_eq_of_lt (packSlot_lt a), Nat.mod_eq_of_lt (packSlot_lt b), Nat.zero_mod, show (1 : Nat) % 2 ^ 1 = 1 from rfl]

/-- A packed pair word has form bit one. -/
theorem packPair_form (a b : PairSlot) : (packPair a b).getLsbD 63 = true := by
  have h := unpackFields_packPair a b
  simp only [unpackFields, List.cons.injEq, and_true] at h
  unfold BitVec.getLsbD
  rw [Nat.testBit_eq_decide_div_mod_eq]
  have := h.2.2.2
  simp only [Nat.div_div_eq_div_mul] at this
  norm_num at this ⊢
  exact this

theorem decodePair_packPair (a b : PairSlot) (ha : a.wf = true) (hb : b.wf = true) :
    decodePair (packPair a b) = .ok (a.op.build a.f b) := by
  unfold decodePair
  rw [unpackFields_packPair]
  simp only [ne_eq, not_true_eq_false, if_false, unpackSlot_packSlot, ha, hb, Bool.and_self, if_true]

/-! ### Filter words -/

theorem decodeFilter_packFilter (o : FlOp) (f : FlF) (h : o.wf f = true) : decodeFilter (packFilter o f) = .ok (o.build f) := by
  have hlt := packFields_lt (flWidths.zip [f.imm.toNat, f.b.toNat, f.a.toNat, f.d.toNat, o.code])
  have hw : (packFilter o f).toNat = packFields (flWidths.zip [f.imm.toNat, f.b.toNat, f.a.toNat, f.d.toNat, o.code]) := by
    unfold packFilter
    rw [BitVec.toNat_ofNat]
    exact Nat.mod_eq_of_lt (lt_of_lt_of_eq hlt (by simp [flWidths]))
  have hu : unpackFields flWidths (packFilter o f).toNat = [f.imm.toNat, f.b.toNat, f.a.toNat, f.d.toNat, o.code] := by
    rw [hw]
    refine (unpack_pack (flWidths.zip [f.imm.toNat, f.b.toNat, f.a.toNat, f.d.toNat, o.code])).trans ?_
    have e (n v : Nat) (h : v < 2 ^ n) : v % 2 ^ n = v := Nat.mod_eq_of_lt h
    simp only [flWidths, List.zip_cons_cons, List.zip_nil_right, List.map_cons, List.map_nil]
    rw [e _ _ f.imm.isLt, e _ _ f.b.isLt, e _ _ f.a.isLt, e _ _ f.d.isLt, e _ _ (flOp_code_lt o)]
  unfold decodeFilter
  rw [hu]
  simp only [flOp_ofCode_code, BitVec.ofNat_toNat, BitVec.setWidth_eq, h, if_true]

end Sys2Proof
end

