-- ==== Sys2Proof/Laws/Engines.lean ====
section
/-! SUPPORT. How commands enter, and how they end. -/

namespace Sys2Proof.Machine

/-- A command that enters. -/
theorem enterCmd_spec (u : State) (h : Nat) (g : Group) (c : Cmd) (q : Group) (hq : groupOf u h = some q) :
   ∃ v q' d, v = enterCmd u h g c ∧ groupOf v h = some q'
        ∧ q' = { q with ctx := { q.ctx with tdep := if c.kind.tile then [] else q.ctx.tdep } } ∧ v.mem = u.mem ∧ v.lines = u.lines
        ∧ find v.cmds u.nextId = some d
        ∧ d = { c with g := h, seq := u.nextId, toScratch := d.toScratch, waits := if c.kind = .tzero then [] else g.out
                       deps := if c.kind.tile then g.ctx.tdep else [] }
        ∧ (coreOf v g.core).ec.getD c.ec 0 = (coreOf u g.core).ec.getD c.ec 0 + 1 := by
  have hw : (if c.kind == .tzero then ([] : List Nat) else g.out) = if c.kind = .tzero then [] else g.out := by
    by_cases e : c.kind = .tzero <;> simp [e]
  have hk : ∀ u : State, (coreOf (modCore u g.core fun k => { k with ec := setPad 0 k.ec c.ec (k.ec.getD c.ec 0 + 1), dep := if c.kind.tile then k.dep ++ [u.nextId] else k.dep }) g.core).ec.getD c.ec 0
     = (coreOf u g.core).ec.getD c.ec 0 + 1 := by
    intro u
    rw [coreOf_modCore, if_pos rfl]
    dsimp only
    rw [getD_setPad, if_pos rfl]
  have hf : ∀ (A : State) (F : Ctx → Ctx), modCtx A h F = { A with groups := (modCtx A h F).groups } := by
    intro A F; unfold modCtx modGroup; split <;> rfl
  let c' : Cmd := { c with g := h, seq := u.nextId, toScratch := !(destLines c).isEmpty
                           waits := if c.kind == .tzero then [] else g.out
                           deps := if c.kind.tile then g.ctx.tdep else [] }
  let s1 : State := { u with nextId := u.nextId + 1, cmds := put u.cmds u.nextId c' }
  let s2 := modCore s1 g.core fun k => { k with ec := setPad 0 k.ec c.ec (k.ec.getD c.ec 0 + 1), dep := if c.kind.tile then k.dep ++ [u.nextId] else k.dep }
  let A := modTeam s2 g.team fun tm => { tm with absent := tm.absent ++ (destLines c).map fun l => (l, u.nextId) }
  have base : enterCmd u h g c = if c.kind.tile then modCtx A h fun x => { x with tdep := [] } else A := rfl
  have fr : (if c.kind.tile then modCtx A h fun x => { x with tdep := [] } else A) = { A with groups := (if c.kind.tile then modCtx A h fun x => { x with tdep := [] } else A).groups } := by
    split
    · exact hf A _
    · rfl
  rw [← base] at fr
  refine ⟨_, { q with ctx := { q.ctx with tdep := if c.kind.tile then [] else q.ctx.tdep } }, c', rfl, ?_, rfl, ?_, ?_, ?_, ?_, ?_⟩
  · rw [base]
    split
    · unfold modCtx
      rw [modGroup_group, if_pos rfl]
      show Option.map _ (groupOf u h) = _
      rw [hq]; rfl
    · exact hq
  · rw [fr]; rfl
  · rw [fr]; rfl
  · rw [fr]; exact find_put_self ..
  · rw [← hw]
  · rw [fr]
    show (coreOf s2 g.core).ec.getD c.ec 0 = _
    show (coreOf (modCore s1 g.core _) g.core).ec.getD c.ec 0 = _
    rw [coreOf_modCore, if_pos rfl]
    dsimp only
    rw [getD_setPad, if_pos rfl]
    rfl

/-- An engine word with E not empty. -/
theorem issueEngine_goes (s : State) (h : Nat) (g : Group) (f : FOps) (len : Nat) (io : Io) (mk : State → Group → Word → Except Bad Cmd) (hc : current s = some (h, g))
    (hb : blocked g.ctx io = false) :
    let eff := effSet g.ctx g.w f.k f.kn
    let s1 := fallBack (forbid s h eff) h
    (eff = 0 → issueEngine s f len io mk = .next (retire s h g {} len 1 {}))
      ∧ (eff ≠ 0 → ∀ b, mk s g eff = .error b → issueEngine s f len io mk = .next (raise s h (badRec g.ctx eff b)))
      ∧ (eff ≠ 0 → ∀ c, mk s g eff = .ok c →
          (65535 ≤ (coreOf s1 g.core).ec.getD c.ec 0 →
              issueEngine s f len io mk = .next (modGroup s1 h fun q => { q with run := .parked (.counterFull c.ec) }))
          ∧ ((coreOf s1 g.core).ec.getD c.ec 0 < 65535 → c.kind.tile = true → Config.depEntries ≤ (coreOf s1 g.core).dep.length →
              issueEngine s f len io mk = .next (modGroup s1 h fun q => { q with run := .parked .depTable }))
          ∧ ((coreOf s1 g.core).ec.getD c.ec 0 < 65535 →
              (c.kind.tile = true → (coreOf s1 g.core).dep.length < Config.depEntries) → 
                ∀ g', groupOf (enterCmd s1 h g c) h = some g' → ∃ t, issueEngine s f len io mk = .next t ∧ Retired (enterCmd s1 h g c) h g' {} len 1 {} t)) := by
  dsimp only
  refine ⟨fun he => ?_, fun he b hm => ?_, fun he c hm => ⟨fun h1 => ?_, fun h1 h2 h3 => ?_, fun h1 h2 g' hg' => ⟨_, ?_, retire_spec ..⟩⟩⟩
  all_goals unfold issueEngine
  all_goals simp only [hc, hb, Bool.false_eq_true, if_false]
  · rw [if_pos he]
  · rw [if_neg he, hm]
  · rw [if_neg he, hm]; dsimp only; rw [if_pos h1]
  · rw [if_neg he, hm]; dsimp only; rw [if_neg (by omega), if_pos (by simp [h2, h3])]
  · rw [if_neg he, hm]; dsimp only; rw [if_neg (by omega), if_neg (by
      simp only [Bool.and_eq_true, decide_eq_true_eq, not_and]
      intro ht; have := h2 ht; omega), hg']

/-- A command that passes its checks. -/
theorem checked_ok (c d : Cmd) (l : List (Option Bad)) (h : checked c l = .ok d) : d = c := by
  unfold checked at h
  split at h
  · cases h
  · injection h with h; exact h.symm

/-- What a new command holds. -/
theorem newCmd_facts (s : State) (g : Group) (f : FOps) (kind : CmdKind) (regs : List Nat) (ws : List Word) (mod : Nat) (eff : Word) (l : List (Option Bad)) (c : Cmd) 
   (h : checked (newCmd s g f kind regs ws mod eff) l = .ok c) : c.ec = f.form ∧ c.st = .waiting ∧ c.core = g.core ∧ c.team = g.team ∧ c.rv = g.ctx.rv ∧ c.iaddr = g.ctx.pc ∧ c.prog = 0 := by
  rw [checked_ok _ _ _ h]
  exact ⟨rfl, rfl, rfl, rfl, rfl, rfl, rfl⟩

/-- A word of the engines that acts at once. -/
theorem engineNow_goes (s : State) (h : Nat) (g : Group) (f : FOps) (io : Io) (body : State → Nat → Group → Except Bad State) (hc : current s = some (h, g))
    (hb : blocked g.ctx io = false) :
    let eff := effSet g.ctx g.w f.k f.kn
    (eff = 0 → issueEngineNow s f io body = .next (retire s h g {} 1 1 {}))
      ∧ (eff ≠ 0 → ∀ b, body s h g = .error b → issueEngineNow s f io body = .next (raise s h (badRec g.ctx eff b)))
      ∧ (eff ≠ 0 → ∀ u, body s h g = .ok u → ∀ g', groupOf (fallBack (forbid u h eff) h) h = some g' → ∃ t, issueEngineNow s f io body = .next t ∧ Retired (fallBack (forbid u h eff) h) h g' {} 1 1 {} t) := by
  dsimp only
  refine ⟨fun he => ?_, fun he b hm => ?_, fun he c hm g' hg' => ⟨_, ?_, retire_spec ..⟩⟩
  all_goals unfold issueEngineNow
  all_goals simp only [hc, hb, Bool.false_eq_true, if_false]
  · rw [if_pos he]
  · rw [if_neg he, hm]
  · rw [if_neg he, hm]; dsimp only; rw [hg']

theorem groupsTeams_spaceAtoms (s : State) (g : Group) (r : MemReq) : GroupsTeams s (spaceAtoms s g r).2 := by
  have key : ∀ (l : List Acc) (a : List RegWr × State), GroupsTeams a.2 (l.foldl (fun (a : List RegWr × State) (x : Acc) =>
    let old := leNat (scratchRead (teamOf a.2 g.team) x.ea.toNat r.size)
    let new := atomNew r.op r.ty old x.data x.new
    (a.1 ++ wrDst r.uni r.dst r.ty.regs x.t (extendTo r.ty r.uni old),
     modTeam a.2 g.team fun tm => scratchWrite tm x.ea.toNat (leBytes r.size new))) a).2 := by
    intro l
    induction l with
    | nil => intro a; exact GroupsTeams.refl _
    | cons x l ih => intro a; exact GroupsTeams.trans (groupsTeams_modTeam a.2 g.team _) (ih _)
  exact key r.accs ([], s)

theorem groupsTeams_startSpace (s : State) (h w : Nat) : GroupsTeams s (startSpace s h w) := by
  unfold startSpace
  split
  · exact GroupsTeams.refl s
  · split
    · exact GroupsTeams.refl s
    · split
      · exact groupsTeams_modWin ..
      · dsimp only
        have key : ∀ (s : State) (g : Group) (r : MemReq), GroupsTeams s (if r.kind == .atoms then spaceAtoms s g r else (spaceLoad s g r, s)).2 := by
          intro s g r
          split
          · exact groupsTeams_spaceAtoms ..
          · exact GroupsTeams.refl s
        have key2 : ∀ (g : Group) (r : MemReq) (gone : List Nat), GroupsTeams s (if (!gone.isEmpty) = true then modWin s h w fun w => { w with fault := none, waitLines := gone }
            else modWin (if r.kind == .atoms then spaceAtoms s g r else (spaceLoad s g r, s)).2 h w fun w =>
              { w with fault := none, waitLines := [], vals := (if r.kind == .atoms then spaceAtoms s g r else (spaceLoad s g r, s)).1, done := true }) := by
          intro g r gone
          split
          · exact groupsTeams_modWin ..
          · exact (key s g r).trans (groupsTeams_modWin ..)
        exact key2 _ _ _

theorem groupsTeams_retryScratch (s : State) (t : Nat) : GroupsTeams s (retryScratch s t) :=
  groupsTeams_each _ _ _ fun _ _ => groupsTeams_each _ _ _ fun _ _ => groupsTeams_startSpace ..

theorem groupsTeams_landAll (s : State) (cid : Nat) (c : Cmd) : GroupsTeams s (landAll s cid c) := (groupsTeams_modTeam s c.team _).trans (groupsTeams_retryScratch ..)

/-- A command that ends. -/
theorem endCmd_spec (u : State) (cid : Nat) (d : Cmd) : (find (endCmd u cid d).cmds cid = none)
        ∧ ∃ k, coreOf (endCmd u cid d) d.core = k ∧ k.ec.getD d.ec 0 = (coreOf u d.core).ec.getD d.ec 0 - 1
          ∧ k.ecRv.getD d.ec 0 = max ((coreOf u d.core).ecRv.getD d.ec 0) d.wv := by
  have sc : ∀ (s : State) (e : Instr) (x : Subj) (c : Nat), coreOf (send s e x) c = coreOf s c := by
    intro s e x c; unfold send; split <;> rfl
  have sk : ∀ (s : State) (e : Instr) (x : Subj), (send s e x).cmds = s.cmds := by
    intro s e x; unfold send; split <;> rfl
  let L := landAll u cid d
  let D := ecDown L d.core d.ec
  let M := modCore D d.core fun k => { k with ecRv := setPad 0 k.ecRv d.ec (max (k.ecRv.getD d.ec 0) d.wv), dep := k.dep.erase cid }
  have base : endCmd u cid d = send (send { M with cmds := del M.cmds cid } .granuleRelease { team := d.team }) .launchCompletion { launch := d.launch } := rfl
  have cD : coreOf D d.core = { coreOf L d.core with ec := setPad 0 (coreOf L d.core).ec d.ec ((coreOf L d.core).ec.getD d.ec 0 - 1) } := by
    show coreOf (modCore L d.core _) d.core = _
    rw [coreOf_modCore, if_pos rfl]
  have cM : coreOf M d.core = { coreOf D d.core with ecRv := setPad 0 (coreOf D d.core).ecRv d.ec (max ((coreOf D d.core).ecRv.getD d.ec 0) d.wv), dep := (coreOf D d.core).dep.erase cid } := by
    show coreOf (modCore D d.core _) d.core = _
    rw [coreOf_modCore, if_pos rfl]
  have cL : coreOf L d.core = coreOf u d.core := groupsTeams_core (groupsTeams_landAll ..) _
  rw [base]
  refine ⟨?_, _, rfl, ?_, ?_⟩
  · rw [sk, sk]; exact find_del_self ..
  · rw [sc, sc]
    show (coreOf M d.core).ec.getD _ 0 = _
    rw [cM, cD, cL]
    dsimp only
    rw [getD_setPad, if_pos rfl]
  · rw [sc, sc]
    show (coreOf M d.core).ecRv.getD _ 0 = _
    rw [cM, cD, cL]
    dsimp only
    rw [getD_setPad, if_pos rfl]

theorem ringWrite_cmds (s : State) (p kind l : Nat) (fs : List (Nat × Nat × Nat)) : (ringWrite s p kind l fs).cmds = s.cmds := by
  unfold ringWrite
  split
  · rfl
  · dsimp only
    rw [modPart_frame]
    show (physWrite s _ _ 0 0).cmds = s.cmds
    rw [(beyond_physWrite ..).1]

/-- An engine that is bound. -/
theorem bindEngine_eq (s : State) (e p t : Nat) : bindEngine s e p t = { s with engines := put s.engines e { part := p, tenant := t, left := 65536 }, srcSeq := (bindEngine s e p t).srcSeq, due := (bindEngine s e p t).due } := by
  unfold bindEngine
  rw [post_frame]

end Sys2Proof.Machine
end

