-- ==== Sys2Proof/Laws/Filters.lean ====
section
/-! SUPPORT. Filter instructions and Taster slots. -/

namespace Sys2Proof.Machine

/-- A filter instruction of a run. -/
theorem filterStep_goes (s : State) (cost : Nat) (body) (v : TSlot) (r : FlRun) (hv : slotOf s s.curSlot = v) (hr : v.cur = some r) (he : r.ended = false) :
   filterStep s cost body = (let x := body s v { r with cost := r.cost + cost }
     .next { x.1 with slots := put x.1.slots x.1.curSlot { x.2.1 with cur := some { x.2.2.1 with pc := x.2.2.1.pc + x.2.2.2 } } }) := by
  unfold filterStep
  simp only [hv, hr, he]
  rfl

theorem filterAlu_goes (s : State) (f : FlF) (val : FlRun → W32) (v : TSlot) (r : FlRun) (hv : slotOf s s.curSlot = v) (hr : v.cur = some r) (he : r.ended = false)
   (x : W32) (hx : val { r with cost := r.cost + 1 } = x) :
   filterAlu s f val = .next { s with slots := put s.slots s.curSlot { v with cur := some { r.set f.d x with pc := (r.set f.d x).pc + 1, cost := (r.set f.d x).cost + 1 } } } := by
  unfold filterAlu
  rw [filterStep_goes s 1 _ v r hv hr he]
  subst hx
  rfl

theorem filterBranch_goes (s : State) (f : FlF) (cond : FlRun → Bool) (v : TSlot) (r : FlRun) (hv : slotOf s s.curSlot = v) (hr : v.cur = some r) (he : r.ended = false)
   (b : Bool) (hx : cond { r with cost := r.cost + 1 } = b) :
   filterBranch s f cond = .next { s with slots := put s.slots s.curSlot { v with cur := some { r with pc := r.pc + (if b then f.imm.toNat else 1), cost := r.cost + 1 } } } := by
  unfold filterBranch
  rw [filterStep_goes s 1 _ v r hv hr he]
  subst hx
  rfl

/-- The hash, step by step. -/
theorem tasterHash_eq (a : W32) (m : BitVec 14) (n : Nat) (hn : n = m.toNat) : tasterHash a (m.setWidth 32) = (let x := a ^^^ .ofNat 32 (n * 0x9E3779B9)
      let y := (x ^^^ .ofNat 32 (x.toNat / 2 ^ 16)) * 0x85EBCA6B
      let z := (y ^^^ .ofNat 32 (y.toNat / 2 ^ 13)) * 0xC2B2AE35
      z ^^^ .ofNat 32 (z.toNat / 2 ^ 16)) := by
      subst hn
      unfold tasterHash
      have e0 : ∀ c : Nat, m.setWidth 32 * BitVec.ofNat 32 c = BitVec.ofNat 32 (m.toNat * c) := by
        intro c; apply BitVec.eq_of_toNat_eq; simp
      have e1 : m.setWidth 32 * 0x9E3779B9 = BitVec.ofNat 32 (m.toNat * 0x9E3779B9) := e0 _
      have e2 : ∀ (x : W32) n, x >>> n = BitVec.ofNat 32 (x.toNat / 2 ^ n) := by
        intro x n
        apply BitVec.eq_of_toNat_eq
        rw [BitVec.toNat_ushiftRight, Nat.shiftRight_eq_div_pow, BitVec.toNat_ofNat, Nat.mod_eq_of_lt]
        exact Nat.lt_of_le_of_lt (Nat.div_le_self _ _) x.isLt
      simp only [e1, e2]

/-- A count that rises to its limit. -/
theorem satUp_eq (w : W32) : satUp w = .ofNat 32 (min (w.toNat + 1) (2 ^ 32 - 1)) := by
  unfold satUp
  apply BitVec.eq_of_toNat_eq
  split
  · rename_i h; subst h; decide
  · rename_i h
    have : w.toNat ≠ 0xFFFFFFFF := fun e => h (BitVec.eq_of_toNat_eq e)
    have := w.isLt
    simp [BitVec.toNat_add]
    omega

theorem satUp_toNat (w : W32) : (satUp w).toNat = min (w.toNat + 1) (2 ^ 32 - 1) := by
  rw [satUp_eq, BitVec.toNat_ofNat, Nat.mod_eq_of_lt]; omega

theorem min_word (a b : W32) : (if a < b then a else b).toNat = min a.toNat b.toNat := by
  split
  · rename_i h
    have : a.toNat < b.toNat := h
    omega
  · rename_i h
    have : ¬ a.toNat < b.toNat := h
    omega

/-- The count-min rows. -/
theorem cms_spec (f : FlF) (a : W32) (st : Tbl W32) :
   let i (j : Nat) : Nat := (f.imm.toNat + 256 * j + (tasterHash a (.ofNat 32 j)).toNat % 256) % 2048
   let c (j : Nat) : Nat := min ((look st (i j) 0).toNat + 1) (2 ^ 32 - 1)
   let x := (List.range 4).foldl (cmsRow f a) (st, 0xFFFFFFFF)
   x.2 = .ofNat 32 (min (c 0) (min (c 1) (min (c 2) (c 3)))) ∧ (∀ j < 4, (look x.1 (i j) 0).toNat = c j)
   ∧ ∀ k, (∀ j < 4, k ≠ i j) → look x.1 k 0 = look st k 0 := by
  intro i c x
  have d : ∀ p q, p < 4 → q < 4 → p ≠ q → i p ≠ i q := by
    intro p q hp hq hne
    show (f.imm.toNat + 256 * p + (tasterHash a (.ofNat 32 p)).toNat % 256) % 2048 ≠ (f.imm.toNat + 256 * q + (tasterHash a (.ofNat 32 q)).toNat % 256) % 2048
    have := Nat.mod_lt (tasterHash a (.ofNat 32 p)).toNat (show 256 > 0 by decide)
    have := Nat.mod_lt (tasterHash a (.ofNat 32 q)).toNat (show 256 > 0 by decide)
    omega
  have e : x = cmsRow f a (cmsRow f a (cmsRow f a (cmsRow f a (st, 0xFFFFFFFF) 0) 1) 2) 3 := rfl
  have step : ∀ (y : Tbl W32 × W32) j, cmsRow f a y j = (put y.1 (i j) (satUp (look y.1 (i j) 0)), if satUp (look y.1 (i j) 0) < y.2 then satUp (look y.1 (i j) 0) else y.2) := fun y j => rfl
  have l1 : x.1 = put (put (put (put st (i 0) (satUp (look st (i 0) 0))) (i 1) (satUp (look st (i 1) 0))) (i 2) (satUp (look st (i 2) 0))) (i 3) (satUp (look st (i 3) 0)) := by
    rw [e]
    simp only [step]
    have d10 := d 1 0 (by decide) (by decide) (by decide)
    have d20 := d 2 0 (by decide) (by decide) (by decide)
    have d21 := d 2 1 (by decide) (by decide) (by decide)
    have d30 := d 3 0 (by decide) (by decide) (by decide)
    have d31 := d 3 1 (by decide) (by decide) (by decide)
    have d32 := d 3 2 (by decide) (by decide) (by decide)
    simp only [look_put, d10, d20, d21, d30, d31, d32, if_false]
  have l2 : x.2.toNat = min (c 0) (min (c 1) (min (c 2) (c 3))) := by
    rw [e]
    simp only [step, min_word]
    have d10 := d 1 0 (by decide) (by decide) (by decide)
    have d20 := d 2 0 (by decide) (by decide) (by decide)
    have d21 := d 2 1 (by decide) (by decide) (by decide)
    have d30 := d 3 0 (by decide) (by decide) (by decide)
    have d31 := d 3 1 (by decide) (by decide) (by decide)
    have d32 := d 3 2 (by decide) (by decide) (by decide)
    simp only [look_put, d10, d20, d21, d30, d31, d32, if_false, satUp_toNat]
    show min (c 3) (min (c 2) (min (c 1) (min (c 0) 4294967295))) = _
    have : c 0 ≤ 4294967295 := Nat.min_le_right _ _
    omega
  have clt : ∀ j, c j < 2 ^ 32 := fun j => by
    have : c j ≤ 2 ^ 32 - 1 := Nat.min_le_right _ _
    omega
  refine ⟨?_, ?_, ?_⟩
  · apply BitVec.eq_of_toNat_eq
    rw [l2, BitVec.toNat_ofNat, Nat.mod_eq_of_lt]
    have := clt 0
    omega
  · intro j hj
    rw [l1]
    have dd : ∀ p, p < 4 → j ≠ p → i j ≠ i p := fun p hp hne => d j p hj hp hne
    have h3 := dd 3 (by decide)
    have h2 := dd 2 (by decide)
    have h1 := dd 1 (by decide)
    match j, hj with
    | 0, _ => rw [look_put, if_neg (h3 (by decide)), look_put, if_neg (h2 (by decide)), look_put, if_neg (h1 (by decide)), look_put, if_pos rfl, satUp_toNat]
    | 1, _ => rw [look_put, if_neg (h3 (by decide)), look_put, if_neg (h2 (by decide)), look_put, if_pos rfl, satUp_toNat]
    | 2, _ => rw [look_put, if_neg (h3 (by decide)), look_put, if_pos rfl, satUp_toNat]
    | 3, _ => rw [look_put, if_pos rfl, satUp_toNat]
  · intro k hk
    rw [l1]
    simp only [look_put, hk 0 (by decide), hk 1 (by decide), hk 2 (by decide), hk 3 (by decide), if_false]

theorem byte_set (w z m k : Nat) (hw : w < 2 ^ 32) (hz : z < 256) (hm : m < 4) (hk : k < 4) :
   (w - w / 256 ^ m % 256 * 256 ^ m + z * 256 ^ m) % 2 ^ 32 / 256 ^ k % 256 = if k = m then z else w / 256 ^ k % 256 := by
  match m, hm, k, hk with
  | 0, _, 0, _ | 0, _, 1, _ | 0, _, 2, _ | 0, _, 3, _ | 1, _, 0, _ | 1, _, 1, _ | 1, _, 2, _ | 1, _, 3, _
  | 2, _, 0, _ | 2, _, 1, _ | 2, _, 2, _ | 2, _, 3, _ | 3, _, 0, _ | 3, _, 1, _ | 3, _, 2, _ | 3, _, 3, _ => simp; omega

theorem leading24_le (n : Nat) : leading24 n ≤ 24 := by
  unfold leading24
  cases h : (List.range 24).find? fun i => n.testBit (23 - i) with
  | none => simp
  | some x =>
    have := List.mem_of_find?_eq_some h
    rw [List.mem_range] at this
    simp; omega

/-- A HyperLogLog register. -/
theorem hll_spec (w : W32) (h : Nat) (z : Nat) (hz : z < 256) (k : Nat) (hk : k < 4) :
   (BitVec.ofNat 32 (w.toNat - w.toNat / 256 ^ (h % 4) % 256 * 256 ^ (h % 4) + max (w.toNat / 256 ^ (h % 4) % 256) z * 256 ^ (h % 4))).toNat / 256 ^ k % 256
    = if k = h % 4 then max (w.toNat / 256 ^ k % 256) z else w.toNat / 256 ^ k % 256 := by
  rw [BitVec.toNat_ofNat, byte_set _ _ _ _ w.isLt (by have := Nat.mod_lt (w.toNat / 256 ^ (h % 4)) (show 256 > 0 by decide); omega) (Nat.mod_lt _ (by decide)) hk]
  split
  · rename_i e; rw [e]
  · rfl

/-- A slot that is changed. -/
theorem slotOf_modSlot (s : State) (i : Nat) (F : TSlot → TSlot) : slotOf (modSlot s i F) i = F (slotOf s i) := by
  unfold slotOf modSlot; exact look_put_self ..

theorem send_slots (s : State) (ev : Instr) (x : Subj) : (send s ev x).slots = s.slots := by
  unfold send; split <;> rfl

theorem send_tasters (s : State) (ev : Instr) (x : Subj) : (send s ev x).tasters = s.tasters := by
  unfold send; split <;> rfl

theorem slotOf_send (s : State) (ev : Instr) (x : Subj) (i : Nat) : slotOf (send s ev x) i = slotOf s i := by
  unfold slotOf; rw [send_slots]

theorem tasterOf_modTaster (s : State) (d : Nat) (F : Taster → Taster) : tasterOf (modTaster s d F) d = F (tasterOf s d) := by
  unfold tasterOf modTaster; exact look_put_self ..

theorem tasterOf_modSlot (s : State) (d i : Nat) (F : TSlot → TSlot) : tasterOf (modSlot s i F) d = tasterOf s d := rfl

theorem sctlStop_eq (die i : Nat) (w : Word) (s : State) (h0 : slotAt die i = true) (h1 : w.getLsbD 0 = false) : execSctlStop die i w s = .next (modSlot s i stopSlot) := by
  unfold execSctlStop
  rw [if_neg (by simp only [h0, h1]; decide)]

theorem sctlStart_eq (die i : Nat) (w : Word) (s : State) (h0 : slotAt die i = true) (h1 : w.getLsbD 0 = true) (h2 : (slotOf s i).run = false) :
    execSctlStart die i w s = .next (modSlot s i fun x => startSlot x w.toNat) := by
  unfold execSctlStart
  simp only [h0, h1, h2]
  rfl

theorem modSlot_congr (s : State) (i : Nat) (F G : TSlot → TSlot) (h : F (slotOf s i) = G (slotOf s i)) : modSlot s i F = modSlot s i G := by
  unfold modSlot; rw [h]

/-- A word of the snapshot once a copy has taken the first `n` words of the state RAM. -/
theorem copyUpTo_snap (v : TSlot) (n k : Nat) :
    look (copyUpTo v n).snap k 0 = if v.copied ≤ k ∧ k < n then look v.state k 0 else look v.snap k 0 := by
  have key : ∀ (c n : Nat) (m : Tbl W32), look (each (List.range n) m fun m i => put m (c + i) (look v.state (c + i) 0)) k 0
      = if c ≤ k ∧ k < c + n then look v.state k 0 else look m k 0 := by
    intro c n m
    induction n with
    | zero => rw [if_neg (by omega)]; rfl
    | succ n ih =>
      unfold each at ih ⊢
      rw [List.range_succ, List.foldl_append]
      simp only [List.foldl_cons, List.foldl_nil]
      rw [look_put]
      by_cases h : k = c + n
      · subst h; rw [if_pos rfl, if_pos (by omega)]
      · rw [if_neg h, ih]
        by_cases h2 : c ≤ k ∧ k < c + n
        · rw [if_pos h2, if_pos (by omega)]
        · rw [if_neg h2, if_neg (by omega)]
  refine (key v.copied (n - v.copied) v.snap).trans ?_
  by_cases h : v.copied ≤ k ∧ k < n
  · rw [if_pos h, if_pos (by omega)]
  · rw [if_neg h, if_neg (by omega)]

end Sys2Proof.Machine
end

