-- ==== Sys2Proof/Laws/Fleet.lean ====
section
/-! SUPPORT. A reset's lines, and a core that moves to a spare. -/

namespace Sys2Proof.Machine

/-- The lines a reset keeps. -/
theorem find_poison (l : Tbl LineSt) (la : Nat) (v : LineSt)
    (h : find ((l.filter fun l => l.2.poison).map fun l => (l.1, ({ poison := true } : LineSt))) la = some v) :
    v = { poison := true } ∧ ∃ x ∈ l, x.2.poison = true := by
  induction l with
  | nil => cases h
  | cons x l ih =>
    by_cases hx : x.2.poison = true
    · rw [List.filter_cons_of_pos (p := fun l : Nat × LineSt => l.2.poison) hx, List.map_cons] at h
      unfold find at h
      split at h
      · cases h; exact ⟨rfl, x, by simp, hx⟩
      · obtain ⟨a, y, hy, hp⟩ := ih h
        exact ⟨a, y, by simp [hy], hp⟩
    · rw [List.filter_cons_of_neg (p := fun l : Nat × LineSt => l.2.poison) hx] at h
      obtain ⟨a, y, hy, hp⟩ := ih h
      exact ⟨a, y, by simp [hy], hp⟩

/-- A core drained at once. -/
theorem drain_fold (c : Nat) (l : List Nat) (v : Nat) (s : State) : Beyond s (l.foldl (fun (v, s) la => match nearLine s c la with
    | none => (v, s)
    | some n =>
      let s := performWriteback s c la n.slot n.data n.mask (coreOf s c).obsv n.poison
      let s := modNear s c la fun n => { n with st := if n.st == .exclusive then .exclusive else .leased, mask := 0 }
      (max v (lineSt s la).wv, s)) (v, s)).2 := by
  induction l generalizing v s with
  | nil => exact Beyond.refl s
  | cons la l ih =>
    rw [List.foldl_cons]
    dsimp only
    split
    · exact ih v s
    · next n _ => exact (beyond_performWriteback s c la n.slot n.data n.mask (coreOf s c).obsv n.poison).trans (ih _ _)

/-- A core after the move. -/
theorem coreMoves_near (s : State) (n : Nat) : (coreOf (coreMoves s n) n).near = [] := by
  have key : ∀ (u : State) (w : Nat) k, (coreOf (spareTakes (modCore u n fun k => { k with near := [], pend := [], tlb := [], cycles := w }) k n) n).near = [] := by
    intro u w k
    show (coreOf (modCore u n fun k => { k with near := [], pend := [], tlb := [], cycles := w }) n).near = []
    rw [coreOf_modCore, if_pos rfl]
  exact key { (drainNow s n).2 with fresh := (drainNow s n).2.fresh + 1 } _ _

theorem coreMoves_spares (s : State) (n : Nat) : look (coreMoves s n).spares (n / 64) 0 = look s.spares (n / 64) 0 + 1 := by
  have hb : (drainNow s n).2.spares = s.spares := by
    have := (drain_fold n (dirtyLines s n) 0 s).1
    rw [show drainNow s n = _ from rfl]; exact (congrArg State.spares this).trans rfl
  show look (put (drainNow s n).2.spares (n / 64) (look (drainNow s n).2.spares (n / 64) 0 + 1)) (n / 64) 0 = _
  rw [look_put_self, hb]

end Sys2Proof.Machine
end

