-- ==== Sys2Proof/Laws/PerInstr.lean ====
section
/-! SUPPORT. The parts of an instruction build it again: one lemma for each constructor of `Instr`. -/

namespace Sys2Proof.Laws.Parts

/-- Whatever parts an instruction is read into, those parts build the instruction: the tables `parts` and `build` agree. -/
def Statement (i : Instr) : Prop :=
  (∀ o f ws, i.parts = some (o, f, ws) → o.build f ws = i) ∧ (∀ a b, i.pairParts = some (a, b) → a.op.build a.f b = i)
    ∧ (∀ o f, i.flParts = some (o, f) → o.build f = i)

theorem nop (f : FOps) : Statement (.nop f) :=
  ⟨fun _ _ _ h => (by cases h; rfl), fun _ _ h => (by cases h), fun _ _ h => (by cases h)⟩
theorem br (f : FOps) (w : Word) : Statement (.br f w) :=
  ⟨fun _ _ _ h => (by cases h; rfl), fun _ _ h => (by cases h), fun _ _ h => (by cases h)⟩
theorem join (f : FOps) : Statement (.join f) :=
  ⟨fun _ _ _ h => (by cases h; rfl), fun _ _ h => (by cases h), fun _ _ h => (by cases h)⟩
theorem call (f : FOps) (w : Word) : Statement (.call f w) :=
  ⟨fun _ _ _ h => (by cases h; rfl), fun _ _ h => (by cases h), fun _ _ h => (by cases h)⟩
theorem ret (f : FOps) : Statement (.ret f) :=
  ⟨fun _ _ _ h => (by cases h; rfl), fun _ _ h => (by cases h), fun _ _ h => (by cases h)⟩
theorem btab (f : FOps) (ws : List Word) : Statement (.btab f ws) :=
  ⟨fun _ _ _ h => (by cases h; rfl), fun _ _ h => (by cases h), fun _ _ h => (by cases h)⟩
theorem loopu (f : FOps) (w : Word) : Statement (.loopu f w) :=
  ⟨fun _ _ _ h => (by cases h; rfl), fun _ _ h => (by cases h), fun _ _ h => (by cases h)⟩
theorem exit (f : FOps) : Statement (.exit f) :=
  ⟨fun _ _ _ h => (by cases h; rfl), fun _ _ h => (by cases h), fun _ _ h => (by cases h)⟩
theorem sink (f : FOps) : Statement (.sink f) :=
  ⟨fun _ _ _ h => (by cases h; rfl), fun _ _ h => (by cases h), fun _ _ h => (by cases h)⟩
theorem region (f : FOps) : Statement (.region f) :=
  ⟨fun _ _ _ h => (by cases h; rfl), fun _ _ h => (by cases h), fun _ _ h => (by cases h)⟩
theorem commit (f : FOps) : Statement (.commit f) :=
  ⟨fun _ _ _ h => (by cases h; rfl), fun _ _ h => (by cases h), fun _ _ h => (by cases h)⟩
theorem yield_ (f : FOps) : Statement (.yield_ f) :=
  ⟨fun _ _ _ h => (by cases h; rfl), fun _ _ h => (by cases h), fun _ _ h => (by cases h)⟩
theorem bpt (f : FOps) : Statement (.bpt f) :=
  ⟨fun _ _ _ h => (by cases h; rfl), fun _ _ h => (by cases h), fun _ _ h => (by cases h)⟩
theorem trap (f : FOps) : Statement (.trap f) :=
  ⟨fun _ _ _ h => (by cases h; rfl), fun _ _ h => (by cases h), fun _ _ h => (by cases h)⟩
theorem iadd (f : FOps) : Statement (.iadd f) :=
  ⟨fun _ _ _ h => (by cases h; rfl), fun _ _ h => (by cases h), fun _ _ h => (by cases h)⟩
theorem isub (f : FOps) : Statement (.isub f) :=
  ⟨fun _ _ _ h => (by cases h; rfl), fun _ _ h => (by cases h), fun _ _ h => (by cases h)⟩
theorem imul (f : FOps) : Statement (.imul f) :=
  ⟨fun _ _ _ h => (by cases h; rfl), fun _ _ h => (by cases h), fun _ _ h => (by cases h)⟩
theorem imulh (f : FOps) : Statement (.imulh f) :=
  ⟨fun _ _ _ h => (by cases h; rfl), fun _ _ h => (by cases h), fun _ _ h => (by cases h)⟩
theorem imad (f : FOps) : Statement (.imad f) :=
  ⟨fun _ _ _ h => (by cases h; rfl), fun _ _ h => (by cases h), fun _ _ h => (by cases h)⟩
theorem iaddc (f : FOps) : Statement (.iaddc f) :=
  ⟨fun _ _ _ h => (by cases h; rfl), fun _ _ h => (by cases h), fun _ _ h => (by cases h)⟩
theorem imin (f : FOps) : Statement (.imin f) :=
  ⟨fun _ _ _ h => (by cases h; rfl), fun _ _ h => (by cases h), fun _ _ h => (by cases h)⟩
theorem imax (f : FOps) : Statement (.imax f) :=
  ⟨fun _ _ _ h => (by cases h; rfl), fun _ _ h => (by cases h), fun _ _ h => (by cases h)⟩
theorem iabs (f : FOps) : Statement (.iabs f) :=
  ⟨fun _ _ _ h => (by cases h; rfl), fun _ _ h => (by cases h), fun _ _ h => (by cases h)⟩
theorem ineg (f : FOps) : Statement (.ineg f) :=
  ⟨fun _ _ _ h => (by cases h; rfl), fun _ _ h => (by cases h), fun _ _ h => (by cases h)⟩
theorem idiv (f : FOps) : Statement (.idiv f) :=
  ⟨fun _ _ _ h => (by cases h; rfl), fun _ _ h => (by cases h), fun _ _ h => (by cases h)⟩
theorem irem (f : FOps) : Statement (.irem f) :=
  ⟨fun _ _ _ h => (by cases h; rfl), fun _ _ h => (by cases h), fun _ _ h => (by cases h)⟩
theorem icmp (f : FOps) : Statement (.icmp f) :=
  ⟨fun _ _ _ h => (by cases h; rfl), fun _ _ h => (by cases h), fun _ _ h => (by cases h)⟩
theorem lea (f : FOps) : Statement (.lea f) :=
  ⟨fun _ _ _ h => (by cases h; rfl), fun _ _ h => (by cases h), fun _ _ h => (by cases h)⟩
theorem sel (f : FOps) : Statement (.sel f) :=
  ⟨fun _ _ _ h => (by cases h; rfl), fun _ _ h => (by cases h), fun _ _ h => (by cases h)⟩
theorem mov (f : FOps) : Statement (.mov f) :=
  ⟨fun _ _ _ h => (by cases h; rfl), fun _ _ h => (by cases h), fun _ _ h => (by cases h)⟩
theorem and_ (f : FOps) : Statement (.and_ f) :=
  ⟨fun _ _ _ h => (by cases h; rfl), fun _ _ h => (by cases h), fun _ _ h => (by cases h)⟩
theorem or_ (f : FOps) : Statement (.or_ f) :=
  ⟨fun _ _ _ h => (by cases h; rfl), fun _ _ h => (by cases h), fun _ _ h => (by cases h)⟩
theorem xor_ (f : FOps) : Statement (.xor_ f) :=
  ⟨fun _ _ _ h => (by cases h; rfl), fun _ _ h => (by cases h), fun _ _ h => (by cases h)⟩
theorem not_ (f : FOps) : Statement (.not_ f) :=
  ⟨fun _ _ _ h => (by cases h; rfl), fun _ _ h => (by cases h), fun _ _ h => (by cases h)⟩
theorem andn (f : FOps) : Statement (.andn f) :=
  ⟨fun _ _ _ h => (by cases h; rfl), fun _ _ h => (by cases h), fun _ _ h => (by cases h)⟩
theorem shl (f : FOps) : Statement (.shl f) :=
  ⟨fun _ _ _ h => (by cases h; rfl), fun _ _ h => (by cases h), fun _ _ h => (by cases h)⟩
theorem shr (f : FOps) : Statement (.shr f) :=
  ⟨fun _ _ _ h => (by cases h; rfl), fun _ _ h => (by cases h), fun _ _ h => (by cases h)⟩
theorem sar (f : FOps) : Statement (.sar f) :=
  ⟨fun _ _ _ h => (by cases h; rfl), fun _ _ h => (by cases h), fun _ _ h => (by cases h)⟩
theorem rol (f : FOps) : Statement (.rol f) :=
  ⟨fun _ _ _ h => (by cases h; rfl), fun _ _ h => (by cases h), fun _ _ h => (by cases h)⟩
theorem popc (f : FOps) : Statement (.popc f) :=
  ⟨fun _ _ _ h => (by cases h; rfl), fun _ _ h => (by cases h), fun _ _ h => (by cases h)⟩
theorem clz (f : FOps) : Statement (.clz f) :=
  ⟨fun _ _ _ h => (by cases h; rfl), fun _ _ h => (by cases h), fun _ _ h => (by cases h)⟩
theorem brev (f : FOps) : Statement (.brev f) :=
  ⟨fun _ _ _ h => (by cases h; rfl), fun _ _ h => (by cases h), fun _ _ h => (by cases h)⟩
theorem bfx (f : FOps) : Statement (.bfx f) :=
  ⟨fun _ _ _ h => (by cases h; rfl), fun _ _ h => (by cases h), fun _ _ h => (by cases h)⟩
theorem bfi (f : FOps) : Statement (.bfi f) :=
  ⟨fun _ _ _ h => (by cases h; rfl), fun _ _ h => (by cases h), fun _ _ h => (by cases h)⟩
theorem perm (f : FOps) : Statement (.perm f) :=
  ⟨fun _ _ _ h => (by cases h; rfl), fun _ _ h => (by cases h), fun _ _ h => (by cases h)⟩
theorem movi (f : FOps) (w : Word) : Statement (.movi f w) :=
  ⟨fun _ _ _ h => (by cases h; rfl), fun _ _ h => (by cases h), fun _ _ h => (by cases h)⟩
theorem fadd (f : FOps) : Statement (.fadd f) :=
  ⟨fun _ _ _ h => (by cases h; rfl), fun _ _ h => (by cases h), fun _ _ h => (by cases h)⟩
theorem fsub (f : FOps) : Statement (.fsub f) :=
  ⟨fun _ _ _ h => (by cases h; rfl), fun _ _ h => (by cases h), fun _ _ h => (by cases h)⟩
theorem fmul (f : FOps) : Statement (.fmul f) :=
  ⟨fun _ _ _ h => (by cases h; rfl), fun _ _ h => (by cases h), fun _ _ h => (by cases h)⟩
theorem ffma (f : FOps) : Statement (.ffma f) :=
  ⟨fun _ _ _ h => (by cases h; rfl), fun _ _ h => (by cases h), fun _ _ h => (by cases h)⟩
theorem fmin (f : FOps) : Statement (.fmin f) :=
  ⟨fun _ _ _ h => (by cases h; rfl), fun _ _ h => (by cases h), fun _ _ h => (by cases h)⟩
theorem fmax (f : FOps) : Statement (.fmax f) :=
  ⟨fun _ _ _ h => (by cases h; rfl), fun _ _ h => (by cases h), fun _ _ h => (by cases h)⟩
theorem fabs (f : FOps) : Statement (.fabs f) :=
  ⟨fun _ _ _ h => (by cases h; rfl), fun _ _ h => (by cases h), fun _ _ h => (by cases h)⟩
theorem fneg (f : FOps) : Statement (.fneg f) :=
  ⟨fun _ _ _ h => (by cases h; rfl), fun _ _ h => (by cases h), fun _ _ h => (by cases h)⟩
theorem fcmp (f : FOps) : Statement (.fcmp f) :=
  ⟨fun _ _ _ h => (by cases h; rfl), fun _ _ h => (by cases h), fun _ _ h => (by cases h)⟩
theorem fclass (f : FOps) : Statement (.fclass f) :=
  ⟨fun _ _ _ h => (by cases h; rfl), fun _ _ h => (by cases h), fun _ _ h => (by cases h)⟩
theorem frcp (f : FOps) : Statement (.frcp f) :=
  ⟨fun _ _ _ h => (by cases h; rfl), fun _ _ h => (by cases h), fun _ _ h => (by cases h)⟩
theorem frsq (f : FOps) : Statement (.frsq f) :=
  ⟨fun _ _ _ h => (by cases h; rfl), fun _ _ h => (by cases h), fun _ _ h => (by cases h)⟩
theorem fsqrt (f : FOps) : Statement (.fsqrt f) :=
  ⟨fun _ _ _ h => (by cases h; rfl), fun _ _ h => (by cases h), fun _ _ h => (by cases h)⟩
theorem fex2 (f : FOps) : Statement (.fex2 f) :=
  ⟨fun _ _ _ h => (by cases h; rfl), fun _ _ h => (by cases h), fun _ _ h => (by cases h)⟩
theorem flg2 (f : FOps) : Statement (.flg2 f) :=
  ⟨fun _ _ _ h => (by cases h; rfl), fun _ _ h => (by cases h), fun _ _ h => (by cases h)⟩
theorem ftrig (f : FOps) : Statement (.ftrig f) :=
  ⟨fun _ _ _ h => (by cases h; rfl), fun _ _ h => (by cases h), fun _ _ h => (by cases h)⟩
theorem dadd (f : FOps) : Statement (.dadd f) :=
  ⟨fun _ _ _ h => (by cases h; rfl), fun _ _ h => (by cases h), fun _ _ h => (by cases h)⟩
theorem dsub (f : FOps) : Statement (.dsub f) :=
  ⟨fun _ _ _ h => (by cases h; rfl), fun _ _ h => (by cases h), fun _ _ h => (by cases h)⟩
theorem dmul (f : FOps) : Statement (.dmul f) :=
  ⟨fun _ _ _ h => (by cases h; rfl), fun _ _ h => (by cases h), fun _ _ h => (by cases h)⟩
theorem dfma (f : FOps) : Statement (.dfma f) :=
  ⟨fun _ _ _ h => (by cases h; rfl), fun _ _ h => (by cases h), fun _ _ h => (by cases h)⟩
theorem dmin (f : FOps) : Statement (.dmin f) :=
  ⟨fun _ _ _ h => (by cases h; rfl), fun _ _ h => (by cases h), fun _ _ h => (by cases h)⟩
theorem dmax (f : FOps) : Statement (.dmax f) :=
  ⟨fun _ _ _ h => (by cases h; rfl), fun _ _ h => (by cases h), fun _ _ h => (by cases h)⟩
theorem dcmp (f : FOps) : Statement (.dcmp f) :=
  ⟨fun _ _ _ h => (by cases h; rfl), fun _ _ h => (by cases h), fun _ _ h => (by cases h)⟩
theorem drcp (f : FOps) : Statement (.drcp f) :=
  ⟨fun _ _ _ h => (by cases h; rfl), fun _ _ h => (by cases h), fun _ _ h => (by cases h)⟩
theorem dsqrt (f : FOps) : Statement (.dsqrt f) :=
  ⟨fun _ _ _ h => (by cases h; rfl), fun _ _ h => (by cases h), fun _ _ h => (by cases h)⟩
theorem cvt (f : FOps) : Statement (.cvt f) :=
  ⟨fun _ _ _ h => (by cases h; rfl), fun _ _ h => (by cases h), fun _ _ h => (by cases h)⟩
theorem cvtb (f : FOps) : Statement (.cvtb f) :=
  ⟨fun _ _ _ h => (by cases h; rfl), fun _ _ h => (by cases h), fun _ _ h => (by cases h)⟩
theorem frnd (f : FOps) : Statement (.frnd f) :=
  ⟨fun _ _ _ h => (by cases h; rfl), fun _ _ h => (by cases h), fun _ _ h => (by cases h)⟩
theorem fscl (f : FOps) : Statement (.fscl f) :=
  ⟨fun _ _ _ h => (by cases h; rfl), fun _ _ h => (by cases h), fun _ _ h => (by cases h)⟩
theorem vote (f : FOps) : Statement (.vote f) :=
  ⟨fun _ _ _ h => (by cases h; rfl), fun _ _ h => (by cases h), fun _ _ h => (by cases h)⟩
theorem shfl (f : FOps) : Statement (.shfl f) :=
  ⟨fun _ _ _ h => (by cases h; rfl), fun _ _ h => (by cases h), fun _ _ h => (by cases h)⟩
theorem gscan (f : FOps) : Statement (.gscan f) :=
  ⟨fun _ _ _ h => (by cases h; rfl), fun _ _ h => (by cases h), fun _ _ h => (by cases h)⟩
theorem gred (f : FOps) : Statement (.gred f) :=
  ⟨fun _ _ _ h => (by cases h; rfl), fun _ _ h => (by cases h), fun _ _ h => (by cases h)⟩
theorem bcast (f : FOps) : Statement (.bcast f) :=
  ⟨fun _ _ _ h => (by cases h; rfl), fun _ _ h => (by cases h), fun _ _ h => (by cases h)⟩
theorem match_ (f : FOps) : Statement (.match_ f) :=
  ⟨fun _ _ _ h => (by cases h; rfl), fun _ _ h => (by cases h), fun _ _ h => (by cases h)⟩
theorem kop (f : FOps) : Statement (.kop f) :=
  ⟨fun _ _ _ h => (by cases h; rfl), fun _ _ h => (by cases h), fun _ _ h => (by cases h)⟩
theorem kmov (f : FOps) : Statement (.kmov f) :=
  ⟨fun _ _ _ h => (by cases h; rfl), fun _ _ h => (by cases h), fun _ _ h => (by cases h)⟩
theorem ld (f : FOps) (w : Word) : Statement (.ld f w) :=
  ⟨fun _ _ _ h => (by cases h; rfl), fun _ _ h => (by cases h), fun _ _ h => (by cases h)⟩
theorem lds (f : FOps) (w : Word) : Statement (.lds f w) :=
  ⟨fun _ _ _ h => (by cases h; rfl), fun _ _ h => (by cases h), fun _ _ h => (by cases h)⟩
theorem ldp (f : FOps) (w : Word) : Statement (.ldp f w) :=
  ⟨fun _ _ _ h => (by cases h; rfl), fun _ _ h => (by cases h), fun _ _ h => (by cases h)⟩
theorem ldc (f : FOps) (w : Word) : Statement (.ldc f w) :=
  ⟨fun _ _ _ h => (by cases h; rfl), fun _ _ h => (by cases h), fun _ _ h => (by cases h)⟩
theorem lda (f : FOps) (w : Word) : Statement (.lda f w) :=
  ⟨fun _ _ _ h => (by cases h; rfl), fun _ _ h => (by cases h), fun _ _ h => (by cases h)⟩
theorem ldx (f : FOps) (w : Word) : Statement (.ldx f w) :=
  ⟨fun _ _ _ h => (by cases h; rfl), fun _ _ h => (by cases h), fun _ _ h => (by cases h)⟩
theorem pref (f : FOps) : Statement (.pref f) :=
  ⟨fun _ _ _ h => (by cases h; rfl), fun _ _ h => (by cases h), fun _ _ h => (by cases h)⟩
theorem st (f : FOps) (w : Word) : Statement (.st f w) :=
  ⟨fun _ _ _ h => (by cases h; rfl), fun _ _ h => (by cases h), fun _ _ h => (by cases h)⟩
theorem sts (f : FOps) (w : Word) : Statement (.sts f w) :=
  ⟨fun _ _ _ h => (by cases h; rfl), fun _ _ h => (by cases h), fun _ _ h => (by cases h)⟩
theorem stp (f : FOps) (w : Word) : Statement (.stp f w) :=
  ⟨fun _ _ _ h => (by cases h; rfl), fun _ _ h => (by cases h), fun _ _ h => (by cases h)⟩
theorem strl (f : FOps) (w : Word) : Statement (.strl f w) :=
  ⟨fun _ _ _ h => (by cases h; rfl), fun _ _ h => (by cases h), fun _ _ h => (by cases h)⟩
theorem clean (f : FOps) : Statement (.clean f) :=
  ⟨fun _ _ _ h => (by cases h; rfl), fun _ _ h => (by cases h), fun _ _ h => (by cases h)⟩
theorem inval (f : FOps) : Statement (.inval f) :=
  ⟨fun _ _ _ h => (by cases h; rfl), fun _ _ h => (by cases h), fun _ _ h => (by cases h)⟩
theorem flushn (f : FOps) : Statement (.flushn f) :=
  ⟨fun _ _ _ h => (by cases h; rfl), fun _ _ h => (by cases h), fun _ _ h => (by cases h)⟩
theorem atom (f : FOps) : Statement (.atom f) :=
  ⟨fun _ _ _ h => (by cases h; rfl), fun _ _ h => (by cases h), fun _ _ h => (by cases h)⟩
theorem acas (f : FOps) : Statement (.acas f) :=
  ⟨fun _ _ _ h => (by cases h; rfl), fun _ _ h => (by cases h), fun _ _ h => (by cases h)⟩
theorem aredn (f : FOps) : Statement (.aredn f) :=
  ⟨fun _ _ _ h => (by cases h; rfl), fun _ _ h => (by cases h), fun _ _ h => (by cases h)⟩
theorem atoms (f : FOps) : Statement (.atoms f) :=
  ⟨fun _ _ _ h => (by cases h; rfl), fun _ _ h => (by cases h), fun _ _ h => (by cases h)⟩
theorem fence (f : FOps) : Statement (.fence f) :=
  ⟨fun _ _ _ h => (by cases h; rfl), fun _ _ h => (by cases h), fun _ _ h => (by cases h)⟩
theorem barw (f : FOps) : Statement (.barw f) :=
  ⟨fun _ _ _ h => (by cases h; rfl), fun _ _ h => (by cases h), fun _ _ h => (by cases h)⟩
theorem bara (f : FOps) : Statement (.bara f) :=
  ⟨fun _ _ _ h => (by cases h; rfl), fun _ _ h => (by cases h), fun _ _ h => (by cases h)⟩
theorem drain (f : FOps) : Statement (.drain f) :=
  ⟨fun _ _ _ h => (by cases h; rfl), fun _ _ h => (by cases h), fun _ _ h => (by cases h)⟩
theorem txb (f : FOps) : Statement (.txb f) :=
  ⟨fun _ _ _ h => (by cases h; rfl), fun _ _ h => (by cases h), fun _ _ h => (by cases h)⟩
theorem txe (f : FOps) : Statement (.txe f) :=
  ⟨fun _ _ _ h => (by cases h; rfl), fun _ _ h => (by cases h), fun _ _ h => (by cases h)⟩
theorem txa (f : FOps) : Statement (.txa f) :=
  ⟨fun _ _ _ h => (by cases h; rfl), fun _ _ h => (by cases h), fun _ _ h => (by cases h)⟩
theorem txq (f : FOps) : Statement (.txq f) :=
  ⟨fun _ _ _ h => (by cases h; rfl), fun _ _ h => (by cases h), fun _ _ h => (by cases h)⟩
theorem waite (f : FOps) : Statement (.waite f) :=
  ⟨fun _ _ _ h => (by cases h; rfl), fun _ _ h => (by cases h), fun _ _ h => (by cases h)⟩
theorem spawn (f : FOps) : Statement (.spawn f) :=
  ⟨fun _ _ _ h => (by cases h; rfl), fun _ _ h => (by cases h), fun _ _ h => (by cases h)⟩
theorem await_ (f : FOps) : Statement (.await_ f) :=
  ⟨fun _ _ _ h => (by cases h; rfl), fun _ _ h => (by cases h), fun _ _ h => (by cases h)⟩
theorem resolve (f : FOps) : Statement (.resolve f) :=
  ⟨fun _ _ _ h => (by cases h; rfl), fun _ _ h => (by cases h), fun _ _ h => (by cases h)⟩
theorem park (f : FOps) : Statement (.park f) :=
  ⟨fun _ _ _ h => (by cases h; rfl), fun _ _ h => (by cases h), fun _ _ h => (by cases h)⟩
theorem steal (f : FOps) : Statement (.steal f) :=
  ⟨fun _ _ _ h => (by cases h; rfl), fun _ _ h => (by cases h), fun _ _ h => (by cases h)⟩
theorem role (f : FOps) : Statement (.role f) :=
  ⟨fun _ _ _ h => (by cases h; rfl), fun _ _ h => (by cases h), fun _ _ h => (by cases h)⟩
theorem futnew (f : FOps) : Statement (.futnew f) :=
  ⟨fun _ _ _ h => (by cases h; rfl), fun _ _ h => (by cases h), fun _ _ h => (by cases h)⟩
theorem mma (f : FOps) : Statement (.mma f) :=
  ⟨fun _ _ _ h => (by cases h; rfl), fun _ _ h => (by cases h), fun _ _ h => (by cases h)⟩
theorem mmaz (f : FOps) : Statement (.mmaz f) :=
  ⟨fun _ _ _ h => (by cases h; rfl), fun _ _ h => (by cases h), fun _ _ h => (by cases h)⟩
theorem mlds (f : FOps) : Statement (.mlds f) :=
  ⟨fun _ _ _ h => (by cases h; rfl), fun _ _ h => (by cases h), fun _ _ h => (by cases h)⟩
theorem msts (f : FOps) : Statement (.msts f) :=
  ⟨fun _ _ _ h => (by cases h; rfl), fun _ _ h => (by cases h), fun _ _ h => (by cases h)⟩
theorem mtrn (f : FOps) : Statement (.mtrn f) :=
  ⟨fun _ _ _ h => (by cases h; rfl), fun _ _ h => (by cases h), fun _ _ h => (by cases h)⟩
theorem tmma (f : FOps) : Statement (.tmma f) :=
  ⟨fun _ _ _ h => (by cases h; rfl), fun _ _ h => (by cases h), fun _ _ h => (by cases h)⟩
theorem copy (f : FOps) : Statement (.copy f) :=
  ⟨fun _ _ _ h => (by cases h; rfl), fun _ _ h => (by cases h), fun _ _ h => (by cases h)⟩
theorem coll (f : FOps) : Statement (.coll f) :=
  ⟨fun _ _ _ h => (by cases h; rfl), fun _ _ h => (by cases h), fun _ _ h => (by cases h)⟩
theorem press (f : FOps) (w1 : Word) (w2 : Word) (w3 : Word) : Statement (.press f w1 w2 w3) :=
  ⟨fun _ _ _ h => (by cases h; rfl), fun _ _ h => (by cases h), fun _ _ h => (by cases h)⟩
theorem lnest (f : FOps) (w1 : Word) (w2 : Word) (w3 : Word) : Statement (.lnest f w1 w2 w3) :=
  ⟨fun _ _ _ h => (by cases h; rfl), fun _ _ h => (by cases h), fun _ _ h => (by cases h)⟩
theorem tdep (f : FOps) : Statement (.tdep f) :=
  ⟨fun _ _ _ h => (by cases h; rfl), fun _ _ h => (by cases h), fun _ _ h => (by cases h)⟩
theorem tstore (f : FOps) : Statement (.tstore f) :=
  ⟨fun _ _ _ h => (by cases h; rfl), fun _ _ h => (by cases h), fun _ _ h => (by cases h)⟩
theorem tzero (f : FOps) : Statement (.tzero f) :=
  ⟨fun _ _ _ h => (by cases h; rfl), fun _ _ h => (by cases h), fun _ _ h => (by cases h)⟩
theorem ecancel (f : FOps) : Statement (.ecancel f) :=
  ⟨fun _ _ _ h => (by cases h; rfl), fun _ _ h => (by cases h), fun _ _ h => (by cases h)⟩
theorem rds (f : FOps) : Statement (.rds f) :=
  ⟨fun _ _ _ h => (by cases h; rfl), fun _ _ h => (by cases h), fun _ _ h => (by cases h)⟩
theorem wrs (f : FOps) : Statement (.wrs f) :=
  ⟨fun _ _ _ h => (by cases h; rfl), fun _ _ h => (by cases h), fun _ _ h => (by cases h)⟩
theorem event (f : FOps) : Statement (.event f) :=
  ⟨fun _ _ _ h => (by cases h; rfl), fun _ _ h => (by cases h), fun _ _ h => (by cases h)⟩
theorem clockc (f : FOps) : Statement (.clockc f) :=
  ⟨fun _ _ _ h => (by cases h; rfl), fun _ _ h => (by cases h), fun _ _ h => (by cases h)⟩
theorem tret (f : FOps) : Statement (.tret f) :=
  ⟨fun _ _ _ h => (by cases h; rfl), fun _ _ h => (by cases h), fun _ _ h => (by cases h)⟩
theorem tlbi (f : FOps) : Statement (.tlbi f) :=
  ⟨fun _ _ _ h => (by cases h; rfl), fun _ _ h => (by cases h), fun _ _ h => (by cases h)⟩
theorem ctxsv (f : FOps) : Statement (.ctxsv f) :=
  ⟨fun _ _ _ h => (by cases h; rfl), fun _ _ h => (by cases h), fun _ _ h => (by cases h)⟩
theorem ctxld (f : FOps) : Statement (.ctxld f) :=
  ⟨fun _ _ _ h => (by cases h; rfl), fun _ _ h => (by cases h), fun _ _ h => (by cases h)⟩
theorem killt (f : FOps) : Statement (.killt f) :=
  ⟨fun _ _ _ h => (by cases h; rfl), fun _ _ h => (by cases h), fun _ _ h => (by cases h)⟩
theorem halt (f : FOps) : Statement (.halt f) :=
  ⟨fun _ _ _ h => (by cases h; rfl), fun _ _ h => (by cases h), fun _ _ h => (by cases h)⟩
theorem pairNop (a : PSlot) (b : PairSlot) : Statement (.pairNop a b) :=
  ⟨fun _ _ _ h => (by cases h), fun _ _ h => (by cases h; rfl), fun _ _ h => (by cases h)⟩
theorem pairMov (a : PSlot) (b : PairSlot) : Statement (.pairMov a b) :=
  ⟨fun _ _ _ h => (by cases h), fun _ _ h => (by cases h; rfl), fun _ _ h => (by cases h)⟩
theorem pairIaddI32 (a : PSlot) (b : PairSlot) : Statement (.pairIaddI32 a b) :=
  ⟨fun _ _ _ h => (by cases h), fun _ _ h => (by cases h; rfl), fun _ _ h => (by cases h)⟩
theorem pairIsubI32 (a : PSlot) (b : PairSlot) : Statement (.pairIsubI32 a b) :=
  ⟨fun _ _ _ h => (by cases h), fun _ _ h => (by cases h; rfl), fun _ _ h => (by cases h)⟩
theorem pairIminI32 (a : PSlot) (b : PairSlot) : Statement (.pairIminI32 a b) :=
  ⟨fun _ _ _ h => (by cases h), fun _ _ h => (by cases h; rfl), fun _ _ h => (by cases h)⟩
theorem pairImaxI32 (a : PSlot) (b : PairSlot) : Statement (.pairImaxI32 a b) :=
  ⟨fun _ _ _ h => (by cases h), fun _ _ h => (by cases h; rfl), fun _ _ h => (by cases h)⟩
theorem pairIminN32 (a : PSlot) (b : PairSlot) : Statement (.pairIminN32 a b) :=
  ⟨fun _ _ _ h => (by cases h), fun _ _ h => (by cases h; rfl), fun _ _ h => (by cases h)⟩
theorem pairImaxN32 (a : PSlot) (b : PairSlot) : Statement (.pairImaxN32 a b) :=
  ⟨fun _ _ _ h => (by cases h), fun _ _ h => (by cases h; rfl), fun _ _ h => (by cases h)⟩
theorem pairAnd (a : PSlot) (b : PairSlot) : Statement (.pairAnd a b) :=
  ⟨fun _ _ _ h => (by cases h), fun _ _ h => (by cases h; rfl), fun _ _ h => (by cases h)⟩
theorem pairOr (a : PSlot) (b : PairSlot) : Statement (.pairOr a b) :=
  ⟨fun _ _ _ h => (by cases h), fun _ _ h => (by cases h; rfl), fun _ _ h => (by cases h)⟩
theorem pairXor (a : PSlot) (b : PairSlot) : Statement (.pairXor a b) :=
  ⟨fun _ _ _ h => (by cases h), fun _ _ h => (by cases h; rfl), fun _ _ h => (by cases h)⟩
theorem pairAndn (a : PSlot) (b : PairSlot) : Statement (.pairAndn a b) :=
  ⟨fun _ _ _ h => (by cases h), fun _ _ h => (by cases h; rfl), fun _ _ h => (by cases h)⟩
theorem pairShl (a : PSlot) (b : PairSlot) : Statement (.pairShl a b) :=
  ⟨fun _ _ _ h => (by cases h), fun _ _ h => (by cases h; rfl), fun _ _ h => (by cases h)⟩
theorem pairShr (a : PSlot) (b : PairSlot) : Statement (.pairShr a b) :=
  ⟨fun _ _ _ h => (by cases h), fun _ _ h => (by cases h; rfl), fun _ _ h => (by cases h)⟩
theorem pairSar (a : PSlot) (b : PairSlot) : Statement (.pairSar a b) :=
  ⟨fun _ _ _ h => (by cases h), fun _ _ h => (by cases h; rfl), fun _ _ h => (by cases h)⟩
theorem pairFaddF32 (a : PSlot) (b : PairSlot) : Statement (.pairFaddF32 a b) :=
  ⟨fun _ _ _ h => (by cases h), fun _ _ h => (by cases h; rfl), fun _ _ h => (by cases h)⟩
theorem pairFmulF32 (a : PSlot) (b : PairSlot) : Statement (.pairFmulF32 a b) :=
  ⟨fun _ _ _ h => (by cases h), fun _ _ h => (by cases h; rfl), fun _ _ h => (by cases h)⟩
theorem pairFminF32 (a : PSlot) (b : PairSlot) : Statement (.pairFminF32 a b) :=
  ⟨fun _ _ _ h => (by cases h), fun _ _ h => (by cases h; rfl), fun _ _ h => (by cases h)⟩
theorem pairFmaxF32 (a : PSlot) (b : PairSlot) : Statement (.pairFmaxF32 a b) :=
  ⟨fun _ _ _ h => (by cases h), fun _ _ h => (by cases h; rfl), fun _ _ h => (by cases h)⟩
theorem pairFaddBf16x2 (a : PSlot) (b : PairSlot) : Statement (.pairFaddBf16x2 a b) :=
  ⟨fun _ _ _ h => (by cases h), fun _ _ h => (by cases h; rfl), fun _ _ h => (by cases h)⟩
theorem pairFmulBf16x2 (a : PSlot) (b : PairSlot) : Statement (.pairFmulBf16x2 a b) :=
  ⟨fun _ _ _ h => (by cases h), fun _ _ h => (by cases h; rfl), fun _ _ h => (by cases h)⟩
theorem pairFminBf16x2 (a : PSlot) (b : PairSlot) : Statement (.pairFminBf16x2 a b) :=
  ⟨fun _ _ _ h => (by cases h), fun _ _ h => (by cases h; rfl), fun _ _ h => (by cases h)⟩
theorem pairFmaxBf16x2 (a : PSlot) (b : PairSlot) : Statement (.pairFmaxBf16x2 a b) :=
  ⟨fun _ _ _ h => (by cases h), fun _ _ h => (by cases h; rfl), fun _ _ h => (by cases h)⟩
theorem pairIaddI64 (a : PSlot) (b : PairSlot) : Statement (.pairIaddI64 a b) :=
  ⟨fun _ _ _ h => (by cases h), fun _ _ h => (by cases h; rfl), fun _ _ h => (by cases h)⟩
theorem pairIsubI64 (a : PSlot) (b : PairSlot) : Statement (.pairIsubI64 a b) :=
  ⟨fun _ _ _ h => (by cases h), fun _ _ h => (by cases h; rfl), fun _ _ h => (by cases h)⟩
theorem pairMovImm (a : PSlot) (b : PairSlot) : Statement (.pairMovImm a b) :=
  ⟨fun _ _ _ h => (by cases h), fun _ _ h => (by cases h; rfl), fun _ _ h => (by cases h)⟩
theorem pairIaddI32Imm (a : PSlot) (b : PairSlot) : Statement (.pairIaddI32Imm a b) :=
  ⟨fun _ _ _ h => (by cases h), fun _ _ h => (by cases h; rfl), fun _ _ h => (by cases h)⟩
theorem pairAndImm (a : PSlot) (b : PairSlot) : Statement (.pairAndImm a b) :=
  ⟨fun _ _ _ h => (by cases h), fun _ _ h => (by cases h; rfl), fun _ _ h => (by cases h)⟩
theorem pairOrImm (a : PSlot) (b : PairSlot) : Statement (.pairOrImm a b) :=
  ⟨fun _ _ _ h => (by cases h), fun _ _ h => (by cases h; rfl), fun _ _ h => (by cases h)⟩
theorem pairXorImm (a : PSlot) (b : PairSlot) : Statement (.pairXorImm a b) :=
  ⟨fun _ _ _ h => (by cases h), fun _ _ h => (by cases h; rfl), fun _ _ h => (by cases h)⟩
theorem pairShlImm (a : PSlot) (b : PairSlot) : Statement (.pairShlImm a b) :=
  ⟨fun _ _ _ h => (by cases h), fun _ _ h => (by cases h; rfl), fun _ _ h => (by cases h)⟩
theorem pairShrImm (a : PSlot) (b : PairSlot) : Statement (.pairShrImm a b) :=
  ⟨fun _ _ _ h => (by cases h), fun _ _ h => (by cases h; rfl), fun _ _ h => (by cases h)⟩
theorem pairSarImm (a : PSlot) (b : PairSlot) : Statement (.pairSarImm a b) :=
  ⟨fun _ _ _ h => (by cases h), fun _ _ h => (by cases h; rfl), fun _ _ h => (by cases h)⟩
theorem pairIaddI64Imm (a : PSlot) (b : PairSlot) : Statement (.pairIaddI64Imm a b) :=
  ⟨fun _ _ _ h => (by cases h), fun _ _ h => (by cases h; rfl), fun _ _ h => (by cases h)⟩
theorem longLatencyResult : Statement .longLatencyResult :=
  ⟨fun _ _ _ h => (by cases h), fun _ _ h => (by cases h), fun _ _ h => (by cases h)⟩
theorem faultDelivery : Statement .faultDelivery :=
  ⟨fun _ _ _ h => (by cases h), fun _ _ h => (by cases h), fun _ _ h => (by cases h)⟩
theorem yieldExpiry : Statement .yieldExpiry :=
  ⟨fun _ _ _ h => (by cases h), fun _ _ h => (by cases h), fun _ _ h => (by cases h)⟩
theorem registerParkEviction : Statement .registerParkEviction :=
  ⟨fun _ _ _ h => (by cases h), fun _ _ h => (by cases h), fun _ _ h => (by cases h)⟩
theorem registerGrant : Statement .registerGrant :=
  ⟨fun _ _ _ h => (by cases h), fun _ _ h => (by cases h), fun _ _ h => (by cases h)⟩
theorem parkedScratchAccess : Statement .parkedScratchAccess :=
  ⟨fun _ _ _ h => (by cases h), fun _ _ h => (by cases h), fun _ _ h => (by cases h)⟩
theorem sinkProbe : Statement .sinkProbe :=
  ⟨fun _ _ _ h => (by cases h), fun _ _ h => (by cases h), fun _ _ h => (by cases h)⟩
theorem sinkHoldGrant : Statement .sinkHoldGrant :=
  ⟨fun _ _ _ h => (by cases h), fun _ _ h => (by cases h), fun _ _ h => (by cases h)⟩
theorem sinkInstance : Statement .sinkInstance :=
  ⟨fun _ _ _ h => (by cases h), fun _ _ h => (by cases h), fun _ _ h => (by cases h)⟩
theorem sinkResult : Statement .sinkResult :=
  ⟨fun _ _ _ h => (by cases h), fun _ _ h => (by cases h), fun _ _ h => (by cases h)⟩
theorem sinkCoreReexecution : Statement .sinkCoreReexecution :=
  ⟨fun _ _ _ h => (by cases h), fun _ _ h => (by cases h), fun _ _ h => (by cases h)⟩
theorem engineDispatch : Statement .engineDispatch :=
  ⟨fun _ _ _ h => (by cases h), fun _ _ h => (by cases h), fun _ _ h => (by cases h)⟩
theorem dependencyEntryLeave : Statement .dependencyEntryLeave :=
  ⟨fun _ _ _ h => (by cases h), fun _ _ h => (by cases h), fun _ _ h => (by cases h)⟩
theorem engineScratchLineLand : Statement .engineScratchLineLand :=
  ⟨fun _ _ _ h => (by cases h), fun _ _ h => (by cases h), fun _ _ h => (by cases h)⟩
theorem engineCommandComplete : Statement .engineCommandComplete :=
  ⟨fun _ _ _ h => (by cases h), fun _ _ h => (by cases h), fun _ _ h => (by cases h)⟩
theorem engineFault : Statement .engineFault :=
  ⟨fun _ _ _ h => (by cases h), fun _ _ h => (by cases h), fun _ _ h => (by cases h)⟩
theorem engineLeaseExpiry : Statement .engineLeaseExpiry :=
  ⟨fun _ _ _ h => (by cases h), fun _ _ h => (by cases h), fun _ _ h => (by cases h)⟩
theorem engineLeaseBind : Statement .engineLeaseBind :=
  ⟨fun _ _ _ h => (by cases h), fun _ _ h => (by cases h), fun _ _ h => (by cases h)⟩
theorem collComplete (cmd : Nat) (agree : Bool) (ranks : List (List W32)) : Statement (.collComplete cmd agree ranks) :=
  ⟨fun _ _ _ h => (by cases h), fun _ _ h => (by cases h), fun _ _ h => (by cases h)⟩
theorem pressShare : Statement .pressShare :=
  ⟨fun _ _ _ h => (by cases h), fun _ _ h => (by cases h), fun _ _ h => (by cases h)⟩
theorem tmmaKblock : Statement .tmmaKblock :=
  ⟨fun _ _ _ h => (by cases h), fun _ _ h => (by cases h), fun _ _ h => (by cases h)⟩
theorem nearCacheMiss (r : LineReq) : Statement (.nearCacheMiss r) :=
  ⟨fun _ _ _ h => (by cases h), fun _ _ h => (by cases h), fun _ _ h => (by cases h)⟩
theorem nearCacheFill (r : LineReq) (data : LineData) (wv : Nat) (le : Nat) : Statement (.nearCacheFill r data wv le) :=
  ⟨fun _ _ _ h => (by cases h), fun _ _ h => (by cases h), fun _ _ h => (by cases h)⟩
theorem nearCacheWriteback (m : WbMsg) : Statement (.nearCacheWriteback m) :=
  ⟨fun _ _ _ h => (by cases h), fun _ _ h => (by cases h), fun _ _ h => (by cases h)⟩
theorem writebackAck (m : WbMsg) (wv : Nat) : Statement (.writebackAck m wv) :=
  ⟨fun _ _ _ h => (by cases h), fun _ _ h => (by cases h), fun _ _ h => (by cases h)⟩
theorem storeAck : Statement .storeAck :=
  ⟨fun _ _ _ h => (by cases h), fun _ _ h => (by cases h), fun _ _ h => (by cases h)⟩
theorem nearCacheRecall : Statement .nearCacheRecall :=
  ⟨fun _ _ _ h => (by cases h), fun _ _ h => (by cases h), fun _ _ h => (by cases h)⟩
theorem homeRead (die : Nat) (r : LineReq) : Statement (.homeRead die r) :=
  ⟨fun _ _ _ h => (by cases h), fun _ _ h => (by cases h), fun _ _ h => (by cases h)⟩
theorem homeReadExclusive (die : Nat) (r : LineReq) : Statement (.homeReadExclusive die r) :=
  ⟨fun _ _ _ h => (by cases h), fun _ _ h => (by cases h), fun _ _ h => (by cases h)⟩
theorem homeUpgrade (die : Nat) (r : LineReq) : Statement (.homeUpgrade die r) :=
  ⟨fun _ _ _ h => (by cases h), fun _ _ h => (by cases h), fun _ _ h => (by cases h)⟩
theorem forwardShared : Statement .forwardShared :=
  ⟨fun _ _ _ h => (by cases h), fun _ _ h => (by cases h), fun _ _ h => (by cases h)⟩
theorem forwardExclusive : Statement .forwardExclusive :=
  ⟨fun _ _ _ h => (by cases h), fun _ _ h => (by cases h), fun _ _ h => (by cases h)⟩
theorem forwardReply (die : Nat) (la : Nat) (data : LineData) (modified : Bool) : Statement (.forwardReply die la data modified) :=
  ⟨fun _ _ _ h => (by cases h), fun _ _ h => (by cases h), fun _ _ h => (by cases h)⟩
theorem noDataReply : Statement .noDataReply :=
  ⟨fun _ _ _ h => (by cases h), fun _ _ h => (by cases h), fun _ _ h => (by cases h)⟩
theorem invalidation : Statement .invalidation :=
  ⟨fun _ _ _ h => (by cases h), fun _ _ h => (by cases h), fun _ _ h => (by cases h)⟩
theorem invalidationAck : Statement .invalidationAck :=
  ⟨fun _ _ _ h => (by cases h), fun _ _ h => (by cases h), fun _ _ h => (by cases h)⟩
theorem sliceWriteback (die : Nat) (la : Nat) (data : LineData) (st : Moesi) : Statement (.sliceWriteback die la data st) :=
  ⟨fun _ _ _ h => (by cases h), fun _ _ h => (by cases h), fun _ _ h => (by cases h)⟩
theorem sliceEviction : Statement .sliceEviction :=
  ⟨fun _ _ _ h => (by cases h), fun _ _ h => (by cases h), fun _ _ h => (by cases h)⟩
theorem directoryCensus : Statement .directoryCensus :=
  ⟨fun _ _ _ h => (by cases h), fun _ _ h => (by cases h), fun _ _ h => (by cases h)⟩
theorem directoryMerge : Statement .directoryMerge :=
  ⟨fun _ _ _ h => (by cases h), fun _ _ h => (by cases h), fun _ _ h => (by cases h)⟩
theorem exclusiveGrant (die : Nat) (r : LineReq) : Statement (.exclusiveGrant die r) :=
  ⟨fun _ _ _ h => (by cases h), fun _ _ h => (by cases h), fun _ _ h => (by cases h)⟩
theorem homeRelease (m : RelMsg) : Statement (.homeRelease m) :=
  ⟨fun _ _ _ h => (by cases h), fun _ _ h => (by cases h), fun _ _ h => (by cases h)⟩
theorem homeAcquire (m : AcqMsg) : Statement (.homeAcquire m) :=
  ⟨fun _ _ _ h => (by cases h), fun _ _ h => (by cases h), fun _ _ h => (by cases h)⟩
theorem coreDrain : Statement .coreDrain :=
  ⟨fun _ _ _ h => (by cases h), fun _ _ h => (by cases h), fun _ _ h => (by cases h)⟩
theorem drainComplete : Statement .drainComplete :=
  ⟨fun _ _ _ h => (by cases h), fun _ _ h => (by cases h), fun _ _ h => (by cases h)⟩
theorem homeAtomic (m : AtomMsg) : Statement (.homeAtomic m) :=
  ⟨fun _ _ _ h => (by cases h), fun _ _ h => (by cases h), fun _ _ h => (by cases h)⟩
theorem transactionDoom : Statement .transactionDoom :=
  ⟨fun _ _ _ h => (by cases h), fun _ _ h => (by cases h), fun _ _ h => (by cases h)⟩
theorem slicePrefetch : Statement .slicePrefetch :=
  ⟨fun _ _ _ h => (by cases h), fun _ _ h => (by cases h), fun _ _ h => (by cases h)⟩
theorem pressPrefetch : Statement .pressPrefetch :=
  ⟨fun _ _ _ h => (by cases h), fun _ _ h => (by cases h), fun _ _ h => (by cases h)⟩
theorem pressScrub : Statement .pressScrub :=
  ⟨fun _ _ _ h => (by cases h), fun _ _ h => (by cases h), fun _ _ h => (by cases h)⟩
theorem vintageRebase : Statement .vintageRebase :=
  ⟨fun _ _ _ h => (by cases h), fun _ _ h => (by cases h), fun _ _ h => (by cases h)⟩
theorem splitScratchToCache : Statement .splitScratchToCache :=
  ⟨fun _ _ _ h => (by cases h), fun _ _ h => (by cases h), fun _ _ h => (by cases h)⟩
theorem splitCacheToScratch : Statement .splitCacheToScratch :=
  ⟨fun _ _ _ h => (by cases h), fun _ _ h => (by cases h), fun _ _ h => (by cases h)⟩
theorem granuleRelease : Statement .granuleRelease :=
  ⟨fun _ _ _ h => (by cases h), fun _ _ h => (by cases h), fun _ _ h => (by cases h)⟩
theorem caskLaunch : Statement .caskLaunch :=
  ⟨fun _ _ _ h => (by cases h), fun _ _ h => (by cases h), fun _ _ h => (by cases h)⟩
theorem caskAgeExpiry : Statement .caskAgeExpiry :=
  ⟨fun _ _ _ h => (by cases h), fun _ _ h => (by cases h), fun _ _ h => (by cases h)⟩
theorem overflowMove : Statement .overflowMove :=
  ⟨fun _ _ _ h => (by cases h), fun _ _ h => (by cases h), fun _ _ h => (by cases h)⟩
theorem idleSteal : Statement .idleSteal :=
  ⟨fun _ _ _ h => (by cases h), fun _ _ h => (by cases h), fun _ _ h => (by cases h)⟩
theorem adoptionReturn : Statement .adoptionReturn :=
  ⟨fun _ _ _ h => (by cases h), fun _ _ h => (by cases h), fun _ _ h => (by cases h)⟩
theorem futureWake : Statement .futureWake :=
  ⟨fun _ _ _ h => (by cases h), fun _ _ h => (by cases h), fun _ _ h => (by cases h)⟩
theorem spawnOverflowRetry : Statement .spawnOverflowRetry :=
  ⟨fun _ _ _ h => (by cases h), fun _ _ h => (by cases h), fun _ _ h => (by cases h)⟩
theorem launchRecordTake : Statement .launchRecordTake :=
  ⟨fun _ _ _ h => (by cases h), fun _ _ h => (by cases h), fun _ _ h => (by cases h)⟩
theorem queueDoorbell (vf : Nat) (q : Nat) (tail : Word) : Statement (.queueDoorbell vf q tail) :=
  ⟨fun _ _ _ h => (by cases h), fun _ _ h => (by cases h), fun _ _ h => (by cases h)⟩
theorem teamPlacement : Statement .teamPlacement :=
  ⟨fun _ _ _ h => (by cases h), fun _ _ h => (by cases h), fun _ _ h => (by cases h)⟩
theorem placementHoldExpiry : Statement .placementHoldExpiry :=
  ⟨fun _ _ _ h => (by cases h), fun _ _ h => (by cases h), fun _ _ h => (by cases h)⟩
theorem cooperativeCancel : Statement .cooperativeCancel :=
  ⟨fun _ _ _ h => (by cases h), fun _ _ h => (by cases h), fun _ _ h => (by cases h)⟩
theorem launchCompletion : Statement .launchCompletion :=
  ⟨fun _ _ _ h => (by cases h), fun _ _ h => (by cases h), fun _ _ h => (by cases h)⟩
theorem tokenPeriodStart : Statement .tokenPeriodStart :=
  ⟨fun _ _ _ h => (by cases h), fun _ _ h => (by cases h), fun _ _ h => (by cases h)⟩
theorem tokenGrantDraw : Statement .tokenGrantDraw :=
  ⟨fun _ _ _ h => (by cases h), fun _ _ h => (by cases h), fun _ _ h => (by cases h)⟩
theorem tenantIdle : Statement .tenantIdle :=
  ⟨fun _ _ _ h => (by cases h), fun _ _ h => (by cases h), fun _ _ h => (by cases h)⟩
theorem coreLeave : Statement .coreLeave :=
  ⟨fun _ _ _ h => (by cases h), fun _ _ h => (by cases h), fun _ _ h => (by cases h)⟩
theorem teamSave (team : Nat) (evict : Bool) : Statement (.teamSave team evict) :=
  ⟨fun _ _ _ h => (by cases h), fun _ _ h => (by cases h), fun _ _ h => (by cases h)⟩
theorem teamKill (team : Nat) (why : KillWhy) : Statement (.teamKill team why) :=
  ⟨fun _ _ _ h => (by cases h), fun _ _ h => (by cases h), fun _ _ h => (by cases h)⟩
theorem translationWalk : Statement .translationWalk :=
  ⟨fun _ _ _ h => (by cases h), fun _ _ h => (by cases h), fun _ _ h => (by cases h)⟩
theorem translationInvalidateComplete (i : InvalidateScope) : Statement (.translationInvalidateComplete i) :=
  ⟨fun _ _ _ h => (by cases h), fun _ _ h => (by cases h), fun _ _ h => (by cases h)⟩
theorem eccUncorrectable (site : EccSite) : Statement (.eccUncorrectable site) :=
  ⟨fun _ _ _ h => (by cases h), fun _ _ h => (by cases h), fun _ _ h => (by cases h)⟩
theorem partRetire (kind : PartKind) (n : Nat) : Statement (.partRetire kind n) :=
  ⟨fun _ _ _ h => (by cases h), fun _ _ h => (by cases h), fun _ _ h => (by cases h)⟩
theorem channelCopyComplete : Statement .channelCopyComplete :=
  ⟨fun _ _ _ h => (by cases h), fun _ _ h => (by cases h), fun _ _ h => (by cases h)⟩
theorem islandStateChange (island : Nat) (st : IslandState) : Statement (.islandStateChange island st) :=
  ⟨fun _ _ _ h => (by cases h), fun _ _ h => (by cases h), fun _ _ h => (by cases h)⟩
theorem deviceReset : Statement .deviceReset :=
  ⟨fun _ _ _ h => (by cases h), fun _ _ h => (by cases h), fun _ _ h => (by cases h)⟩
theorem bootStage (stage : Nat) (img : BootImage) : Statement (.bootStage stage img) :=
  ⟨fun _ _ _ h => (by cases h), fun _ _ h => (by cases h), fun _ _ h => (by cases h)⟩
theorem hostMemoryAccess (pa : Nat) (acc : HostAccess) : Statement (.hostMemoryAccess pa acc) :=
  ⟨fun _ _ _ h => (by cases h), fun _ _ h => (by cases h), fun _ _ h => (by cases h)⟩
theorem flitRetry : Statement .flitRetry :=
  ⟨fun _ _ _ h => (by cases h), fun _ _ h => (by cases h), fun _ _ h => (by cases h)⟩
theorem roceRetransmission : Statement .roceRetransmission :=
  ⟨fun _ _ _ h => (by cases h), fun _ _ h => (by cases h), fun _ _ h => (by cases h)⟩
theorem createPartition : Statement .createPartition :=
  ⟨fun _ _ _ h => (by cases h), fun _ _ h => (by cases h), fun _ _ h => (by cases h)⟩
theorem destroyPartition : Statement .destroyPartition :=
  ⟨fun _ _ _ h => (by cases h), fun _ _ h => (by cases h), fun _ _ h => (by cases h)⟩
theorem resizeRequest : Statement .resizeRequest :=
  ⟨fun _ _ _ h => (by cases h), fun _ _ h => (by cases h), fun _ _ h => (by cases h)⟩
theorem preEmpt : Statement .preEmpt :=
  ⟨fun _ _ _ h => (by cases h), fun _ _ h => (by cases h), fun _ _ h => (by cases h)⟩
theorem resumeRequest : Statement .resumeRequest :=
  ⟨fun _ _ _ h => (by cases h), fun _ _ h => (by cases h), fun _ _ h => (by cases h)⟩
theorem killRequest : Statement .killRequest :=
  ⟨fun _ _ _ h => (by cases h), fun _ _ h => (by cases h), fun _ _ h => (by cases h)⟩
theorem queryRequest : Statement .queryRequest :=
  ⟨fun _ _ _ h => (by cases h), fun _ _ h => (by cases h), fun _ _ h => (by cases h)⟩
theorem installHandlerTable : Statement .installHandlerTable :=
  ⟨fun _ _ _ h => (by cases h), fun _ _ h => (by cases h), fun _ _ h => (by cases h)⟩
theorem registerContextPool : Statement .registerContextPool :=
  ⟨fun _ _ _ h => (by cases h), fun _ _ h => (by cases h), fun _ _ h => (by cases h)⟩
theorem setCommunicator : Statement .setCommunicator :=
  ⟨fun _ _ _ h => (by cases h), fun _ _ h => (by cases h), fun _ _ h => (by cases h)⟩
theorem invalidateTranslations : Statement .invalidateTranslations :=
  ⟨fun _ _ _ h => (by cases h), fun _ _ h => (by cases h), fun _ _ h => (by cases h)⟩
theorem setAddressSpace : Statement .setAddressSpace :=
  ⟨fun _ _ _ h => (by cases h), fun _ _ h => (by cases h), fun _ _ h => (by cases h)⟩
theorem keyCreate : Statement .keyCreate :=
  ⟨fun _ _ _ h => (by cases h), fun _ _ h => (by cases h), fun _ _ h => (by cases h)⟩
theorem keyBind : Statement .keyBind :=
  ⟨fun _ _ _ h => (by cases h), fun _ _ h => (by cases h), fun _ _ h => (by cases h)⟩
theorem keyUnbind : Statement .keyUnbind :=
  ⟨fun _ _ _ h => (by cases h), fun _ _ h => (by cases h), fun _ _ h => (by cases h)⟩
theorem keyDestroy : Statement .keyDestroy :=
  ⟨fun _ _ _ h => (by cases h), fun _ _ h => (by cases h), fun _ _ h => (by cases h)⟩
theorem readAttestationLog : Statement .readAttestationLog :=
  ⟨fun _ _ _ h => (by cases h), fun _ _ h => (by cases h), fun _ _ h => (by cases h)⟩
theorem quote_ : Statement .quote_ :=
  ⟨fun _ _ _ h => (by cases h), fun _ _ h => (by cases h), fun _ _ h => (by cases h)⟩
theorem firmwareUpdate : Statement .firmwareUpdate :=
  ⟨fun _ _ _ h => (by cases h), fun _ _ h => (by cases h), fun _ _ h => (by cases h)⟩
theorem managementUnknownCode : Statement .managementUnknownCode :=
  ⟨fun _ _ _ h => (by cases h), fun _ _ h => (by cases h), fun _ _ h => (by cases h)⟩
theorem tasterEventArrival (die : Nat) (ev : TEvent) : Statement (.tasterEventArrival die ev) :=
  ⟨fun _ _ _ h => (by cases h), fun _ _ h => (by cases h), fun _ _ h => (by cases h)⟩
theorem filterRunStart : Statement .filterRunStart :=
  ⟨fun _ _ _ h => (by cases h), fun _ _ h => (by cases h), fun _ _ h => (by cases h)⟩
theorem filterRunEnd : Statement .filterRunEnd :=
  ⟨fun _ _ _ h => (by cases h), fun _ _ h => (by cases h), fun _ _ h => (by cases h)⟩
theorem tasterBudgetWindow : Statement .tasterBudgetWindow :=
  ⟨fun _ _ _ h => (by cases h), fun _ _ h => (by cases h), fun _ _ h => (by cases h)⟩
theorem snapshotCopyComplete : Statement .snapshotCopyComplete :=
  ⟨fun _ _ _ h => (by cases h), fun _ _ h => (by cases h), fun _ _ h => (by cases h)⟩
theorem sctlStart (die : Nat) (slot : Nat) (v : Word) : Statement (.sctlStart die slot v) :=
  ⟨fun _ _ _ h => (by cases h), fun _ _ h => (by cases h), fun _ _ h => (by cases h)⟩
theorem sctlStop (die : Nat) (slot : Nat) (v : Word) : Statement (.sctlStop die slot v) :=
  ⟨fun _ _ _ h => (by cases h), fun _ _ h => (by cases h), fun _ _ h => (by cases h)⟩
theorem sownWrite (die : Nat) (slot : Nat) (v : Word) : Statement (.sownWrite die slot v) :=
  ⟨fun _ _ _ h => (by cases h), fun _ _ h => (by cases h), fun _ _ h => (by cases h)⟩
theorem registerWrite (w : RegWrite) : Statement (.registerWrite w) :=
  ⟨fun _ _ _ h => (by cases h), fun _ _ h => (by cases h), fun _ _ h => (by cases h)⟩
theorem filterEnd (f : FlF) : Statement (.filterEnd f) :=
  ⟨fun _ _ _ h => (by cases h), fun _ _ h => (by cases h), fun _ _ h => (by cases h; rfl)⟩
theorem filterLdf (f : FlF) : Statement (.filterLdf f) :=
  ⟨fun _ _ _ h => (by cases h), fun _ _ h => (by cases h), fun _ _ h => (by cases h; rfl)⟩
theorem filterSeti (f : FlF) : Statement (.filterSeti f) :=
  ⟨fun _ _ _ h => (by cases h), fun _ _ h => (by cases h), fun _ _ h => (by cases h; rfl)⟩
theorem filterAdd (f : FlF) : Statement (.filterAdd f) :=
  ⟨fun _ _ _ h => (by cases h), fun _ _ h => (by cases h), fun _ _ h => (by cases h; rfl)⟩
theorem filterAddi (f : FlF) : Statement (.filterAddi f) :=
  ⟨fun _ _ _ h => (by cases h), fun _ _ h => (by cases h), fun _ _ h => (by cases h; rfl)⟩
theorem filterSub (f : FlF) : Statement (.filterSub f) :=
  ⟨fun _ _ _ h => (by cases h), fun _ _ h => (by cases h), fun _ _ h => (by cases h; rfl)⟩
theorem filterAnd (f : FlF) : Statement (.filterAnd f) :=
  ⟨fun _ _ _ h => (by cases h), fun _ _ h => (by cases h), fun _ _ h => (by cases h; rfl)⟩
theorem filterAndi (f : FlF) : Statement (.filterAndi f) :=
  ⟨fun _ _ _ h => (by cases h), fun _ _ h => (by cases h), fun _ _ h => (by cases h; rfl)⟩
theorem filterOr (f : FlF) : Statement (.filterOr f) :=
  ⟨fun _ _ _ h => (by cases h), fun _ _ h => (by cases h), fun _ _ h => (by cases h; rfl)⟩
theorem filterXor (f : FlF) : Statement (.filterXor f) :=
  ⟨fun _ _ _ h => (by cases h), fun _ _ h => (by cases h), fun _ _ h => (by cases h; rfl)⟩
theorem filterShli (f : FlF) : Statement (.filterShli f) :=
  ⟨fun _ _ _ h => (by cases h), fun _ _ h => (by cases h), fun _ _ h => (by cases h; rfl)⟩
theorem filterShri (f : FlF) : Statement (.filterShri f) :=
  ⟨fun _ _ _ h => (by cases h), fun _ _ h => (by cases h), fun _ _ h => (by cases h; rfl)⟩
theorem filterSltu (f : FlF) : Statement (.filterSltu f) :=
  ⟨fun _ _ _ h => (by cases h), fun _ _ h => (by cases h), fun _ _ h => (by cases h; rfl)⟩
theorem filterCeqi (f : FlF) : Statement (.filterCeqi f) :=
  ⟨fun _ _ _ h => (by cases h), fun _ _ h => (by cases h), fun _ _ h => (by cases h; rfl)⟩
theorem filterBz (f : FlF) : Statement (.filterBz f) :=
  ⟨fun _ _ _ h => (by cases h), fun _ _ h => (by cases h), fun _ _ h => (by cases h; rfl)⟩
theorem filterBnz (f : FlF) : Statement (.filterBnz f) :=
  ⟨fun _ _ _ h => (by cases h), fun _ _ h => (by cases h), fun _ _ h => (by cases h; rfl)⟩
theorem filterJmp (f : FlF) : Statement (.filterJmp f) :=
  ⟨fun _ _ _ h => (by cases h), fun _ _ h => (by cases h), fun _ _ h => (by cases h; rfl)⟩
theorem filterLdw (f : FlF) : Statement (.filterLdw f) :=
  ⟨fun _ _ _ h => (by cases h), fun _ _ h => (by cases h), fun _ _ h => (by cases h; rfl)⟩
theorem filterStw (f : FlF) : Statement (.filterStw f) :=
  ⟨fun _ _ _ h => (by cases h), fun _ _ h => (by cases h), fun _ _ h => (by cases h; rfl)⟩
theorem filterHash (f : FlF) : Statement (.filterHash f) :=
  ⟨fun _ _ _ h => (by cases h), fun _ _ h => (by cases h), fun _ _ h => (by cases h; rfl)⟩
theorem filterHinc (f : FlF) : Statement (.filterHinc f) :=
  ⟨fun _ _ _ h => (by cases h), fun _ _ h => (by cases h), fun _ _ h => (by cases h; rfl)⟩
theorem filterCms (f : FlF) : Statement (.filterCms f) :=
  ⟨fun _ _ _ h => (by cases h), fun _ _ h => (by cases h), fun _ _ h => (by cases h; rfl)⟩
theorem filterHll (f : FlF) : Statement (.filterHll f) :=
  ⟨fun _ _ _ h => (by cases h), fun _ _ h => (by cases h), fun _ _ h => (by cases h; rfl)⟩
theorem filterTrig (f : FlF) : Statement (.filterTrig f) :=
  ⟨fun _ _ _ h => (by cases h), fun _ _ h => (by cases h), fun _ _ h => (by cases h; rfl)⟩
theorem filterSnap (f : FlF) : Statement (.filterSnap f) :=
  ⟨fun _ _ _ h => (by cases h), fun _ _ h => (by cases h), fun _ _ h => (by cases h; rfl)⟩
theorem illegalInstruction (w : Word) : Statement (.illegalInstruction w) :=
  ⟨fun _ _ _ h => (by cases h), fun _ _ h => (by cases h), fun _ _ h => (by cases h)⟩
theorem engineOperation : Statement .engineOperation :=
  ⟨fun _ _ _ h => (by cases h), fun _ _ h => (by cases h), fun _ _ h => (by cases h)⟩
theorem fillFromMemory : Statement .fillFromMemory :=
  ⟨fun _ _ _ h => (by cases h), fun _ _ h => (by cases h), fun _ _ h => (by cases h)⟩
theorem censusReply (part : Nat) (la : Nat) (die : Nat) (lower : Bool) (upper : Bool) : Statement (.censusReply part la die lower upper) :=
  ⟨fun _ _ _ h => (by cases h), fun _ _ h => (by cases h), fun _ _ h => (by cases h)⟩
theorem sliceRecall : Statement .sliceRecall :=
  ⟨fun _ _ _ h => (by cases h), fun _ _ h => (by cases h), fun _ _ h => (by cases h)⟩
theorem correctedError (kind : PartKind) (n : Nat) : Statement (.correctedError kind n) :=
  ⟨fun _ _ _ h => (by cases h), fun _ _ h => (by cases h), fun _ _ h => (by cases h)⟩
theorem createQueue (vf : Nat) (q : Nat) (desc : List Byte) : Statement (.createQueue vf q desc) :=
  ⟨fun _ _ _ h => (by cases h), fun _ _ h => (by cases h), fun _ _ h => (by cases h)⟩
theorem hostTransfer (compress : Bool) (src : Nat) (dst : Nat) (len : Nat) : Statement (.hostTransfer compress src dst len) :=
  ⟨fun _ _ _ h => (by cases h), fun _ _ h => (by cases h), fun _ _ h => (by cases h)⟩
theorem doorbellWriteIgnored : Statement .doorbellWriteIgnored :=
  ⟨fun _ _ _ h => (by cases h), fun _ _ h => (by cases h), fun _ _ h => (by cases h)⟩
theorem sliceChannelHomeTableChange : Statement .sliceChannelHomeTableChange :=
  ⟨fun _ _ _ h => (by cases h), fun _ _ h => (by cases h), fun _ _ h => (by cases h)⟩

end Sys2Proof.Laws.Parts
end

