-- ==== Sys2Proof/Laws/Results.lean ====
section
/-! SUPPORT. What a landing result, and the end of a window, leave. -/

namespace Sys2Proof.Machine

/-- A window is over: its group forgets it, and no other group, no byte of memory and no line changes. -/
theorem closeWin_spec (u : State) (h : Nat) (w : Win) (q : Group) (hq : groupOf u h = some q) :
    groupOf (closeWin u h w) h = some { q with ctx := { q.ctx with wins := q.ctx.wins.filter fun v => v.id != w.id } }
    ∧ (∀ j, j ≠ h → groupOf (closeWin u h w) j = groupOf u j)
    ∧ (closeWin u h w).mem = u.mem ∧ (closeWin u h w).lines = u.lines := by
  unfold closeWin
  rw [hq]
  dsimp only
  unfold modCtx
  generalize hu : (if (coreOf (modCore u q.core fun k => each (w.pids.map (·.1)) k landFlight) q.core).regQueue.isEmpty then
    modCore u q.core fun k => each (w.pids.map (·.1)) k landFlight else
    send (modCore u q.core fun k => each (w.pids.map (·.1)) k landFlight) .registerGrant { core := q.core }) = v
  have hv : Beyond u v := by
    rw [← hu]; split
    · exact beyond_modCore ..
    · exact (beyond_modCore ..).trans (beyond_send ..)
  have hm : v.mem = u.mem ∧ v.lines = u.lines := by
    rw [← hu]; split
    · exact ⟨rfl, rfl⟩
    · unfold send; split <;> exact ⟨rfl, rfl⟩
  unfold modGroup
  rw [hv.group, hq]
  dsimp only
  exact ⟨by rw [groupOf_setGroup, if_pos rfl], fun j hj => by rw [groupOf_setGroup, if_neg hj, hv.group], hm.1, hm.2⟩

/-- Freeing registers leaves memory and lines. -/
theorem freeRegs_mem (s : State) (c : Nat) (ps : List Nat) : (freeRegs s c ps).mem = s.mem ∧ (freeRegs s c ps).lines = s.lines := by
  unfold freeRegs
  dsimp only
  split
  · exact ⟨rfl, rfl⟩
  · unfold send; split <;> exact ⟨rfl, rfl⟩

/-- What `landResult` does: registers freed read as zero, the writes land, flags and `%rv` rise, the window is gone; where it
was discarded, only `%rv` rises. -/
theorem landResult_spec (s : State) (h : Nat) (g : Group) (w : Win) (hg : groupOf s h = some g) :
    ∃ g', groupOf (landResult s h g w) h = some g'
      ∧ (∀ n th, readV g'.ctx n th = lastV (if w.discarded then [] else w.vals)
          (if w.discarded = false ∧ n ∈ w.frees then 0 else readV g.ctx n th) n th)
      ∧ (∀ n, readS g'.ctx n = lastS (if w.discarded then [] else w.vals) (readS g.ctx n) n)
      ∧ g' = { g with grant := g'.grant, ctx := { g.ctx with
          v := g'.ctx.v, s := g'.ctx.s, rv := max g.ctx.rv w.rv, wins := g.ctx.wins.filter fun v => v.id != w.id
          fpflags := if w.discarded then g.ctx.fpflags else (g.ctx.fpflags ||| w.flags) % 64 } }
      ∧ (∀ j, j ≠ h → groupOf (landResult s h g w) j = groupOf s j)
      ∧ (landResult s h g w).mem = s.mem ∧ (landResult s h g w).lines = s.lines := by
  unfold landResult
  split
  · rename_i hdis
    obtain ⟨c1, c2, c3, c4⟩ := closeWin_spec s h w g hg
    unfold modCtx modGroup
    rw [c1]
    dsimp only
    refine ⟨{ g with ctx := { g.ctx with rv := max g.ctx.rv w.rv, wins := g.ctx.wins.filter fun v => v.id != w.id } },
      by rw [groupOf_setGroup, if_pos rfl], ?_, fun n => rfl, rfl, ?_, c3, c4⟩
    · intro n th
      simp only [lastV, List.foldl_nil, hdis, Bool.true_eq_false, false_and, if_false]
      rfl
    · intro j hj
      rw [groupOf_setGroup, if_neg hj, c2 j hj]
  · rename_i hdis
    have hd : w.discarded = false := by simpa using hdis
    dsimp only
    obtain ⟨w1, w2, w3, w4, w5⟩ := writeRegs_spec s { g with ctx := (unmap g.ctx w.frees).1 } w.vals h
    generalize writeRegs s { g with ctx := (unmap g.ctx w.frees).1 } w.vals = y at *
    generalize hq : ({ y.2 with ctx := { setFlags y.2.ctx w.flags with rv := max (setFlags y.2.ctx w.flags).rv w.rv } } : Group) = q
    obtain ⟨c1, c2, c3, c4⟩ := closeWin_spec (setGroup y.1 h q) h w q (by rw [groupOf_setGroup, if_pos rfl])
    refine ⟨_, by rw [freeRegs_group, c1], ?_, ?_, ?_, ?_, ?_, ?_⟩
    · intro n th
      have e : readV y.2.ctx n th = lastV w.vals (readV (unmap g.ctx w.frees).1 n th) n th := w1 n th
      rw [readV_unmap] at e
      subst hq
      simp only [hd, true_and]
      exact e
    · intro n
      have e : readS y.2.ctx n = lastS w.vals (readS g.ctx n) n := w2 n
      subst hq
      exact e
    · subst hq
      rw [w3]
      rfl
    · intro j hj
      rw [freeRegs_group, c2 j hj, groupOf_setGroup, if_neg hj, w4.1 j hj]
    · rw [(freeRegs_mem ..).1, c3]
      show y.1.mem = s.mem
      rw [w4.2.2.2.2.2]
    · rw [(freeRegs_mem ..).2, c4]
      show y.1.lines = s.lines
      rw [w4.2.2.2.2.2]

end Sys2Proof.Machine
end

