-- ==== Sys2Proof/Laws/Sinks.lean ====
section
/-! SUPPORT. Sunk runs after a change. -/

namespace Sys2Proof.Machine

/-- A run that is changed. -/
theorem sinkOf_modSink (s : State) (h w : Nat) (F : SinkSt → SinkSt) (g : Group) (k : SinkSt) (hk : sinkOf s h w = some (g, k)) :
    ∃ g', sinkOf (modSink s h w F) h w = some (g', F k) := by
  unfold sinkOf at hk
  split at hk
  · rename_i q hq
    cases hf : find q.ctx.sinks w with
    | none => rw [hf] at hk; cases hk
    | some k0 =>
      rw [hf] at hk
      injection hk with hk
      injection hk with e1 e2
      subst e1; subst e2
      have : groupOf (modSink s h w F) h = some { q with ctx := { q.ctx with sinks := put q.ctx.sinks w (F k0) } } := by
        unfold modSink modCtx
        rw [modGroup_group, if_pos rfl, hq]
        simp only [Option.map, hf]
      refine ⟨{ q with ctx := { q.ctx with sinks := put q.ctx.sinks w (F k0) } }, ?_⟩
      unfold sinkOf
      rw [this]
      dsimp only
      rw [find_put_self]
      rfl
  · cases hk

/-- What leaves every group's runs leaves a run. -/
theorem sinkOf_ackOut (s : State) (h w id : Nat) (g : Group) (k : SinkSt) (hk : sinkOf s h w = some (g, k)) :
    ∃ g', sinkOf (ackOut s h id) h w = some (g', k) := by
  unfold sinkOf at hk
  split at hk
  · rename_i q hq
    have : groupOf (ackOut s h id) h = some { q with out := q.out.filter (· != id) } := by
      unfold ackOut
      show groupOf (modGroup s h _) h = _
      rw [modGroup_group, if_pos rfl, hq]; rfl
    unfold sinkOf
    rw [this]
    cases hf : find q.ctx.sinks w with
    | none => rw [hf] at hk; cases hk
    | some k0 =>
      rw [hf] at hk
      injection hk with hk
      injection hk with _ e2
      exact ⟨_, by dsimp only; rw [hf, ← e2]; rfl⟩
  · cases hk

/-- A run is left by a rise of its group's `%rv`. -/
theorem sinkOf_rv (s : State) (h w v : Nat) (g : Group) (k : SinkSt) (hk : sinkOf s h w = some (g, k)) :
    ∃ g', sinkOf (modCtx s h fun x => { x with rv := max x.rv v }) h w = some (g', k) ∧ g'.ctx.rv = max g.ctx.rv v := by
  unfold sinkOf at hk
  split at hk
  · rename_i q hq
    have : groupOf (modCtx s h fun x => { x with rv := max x.rv v }) h = some { q with ctx := { q.ctx with rv := max q.ctx.rv v } } := by
      unfold modCtx; rw [modGroup_group, if_pos rfl, hq]; rfl
    unfold sinkOf
    rw [this]
    cases hf : find q.ctx.sinks w with
    | none => rw [hf] at hk; cases hk
    | some k0 =>
      rw [hf] at hk
      injection hk with hk
      injection hk with e1 e2
      subst e1
      exact ⟨_, by dsimp only; rw [hf, ← e2]; rfl, rfl⟩
  · cases hk

/-- A result that is taken. -/
theorem takeResult_spec (s : State) (j : Subj) (g : Group) (k : SinkSt) (hk : sinkOf s j.g j.win = some (g, k)) :
   ∃ g', sinkOf (takeResult s k j) j.g j.win = some (g', { k with
      away := k.away &&& ~~~(maskOf [j.t]), outs := k.outs.filter (fun x => x.1 != j.t), lines := k.lines.filter (fun l => l.1 != j.t)
      rv := max k.rv j.n, returned := if j.cause = 1 then k.returned ||| maskOf [j.t] else k.returned
      codes := if j.cause = 0 then k.codes ++ [(j.t, j.site)] else k.codes }) := by
  have h1 : ∃ g', sinkOf (match k.outs.find? fun x => x.1 = j.t with
      | some (_, id) => ackOut s j.g id
      | none => s) j.g j.win = some (g', k) := by
    split
    · exact sinkOf_ackOut _ _ _ _ _ _ hk
    · exact ⟨g, hk⟩
  obtain ⟨g1, h1⟩ := h1
  obtain ⟨g2, h2, -⟩ := sinkOf_rv (observe _ j.core j.n) j.g j.win j.n g1 k h1
  exact sinkOf_modSink _ _ _ (fun k => { k with
    away := k.away &&& ~~~(maskOf [j.t]), outs := k.outs.filter (fun x => x.1 != j.t), lines := k.lines.filter (fun l => l.1 != j.t)
    rv := max k.rv j.n, returned := if j.cause = 1 then k.returned ||| maskOf [j.t] else k.returned
    codes := if j.cause = 0 then k.codes ++ [(j.t, j.site)] else k.codes }) _ _ h2

end Sys2Proof.Machine
end

