-- ==== Sys2Proof/Laws/State.lean ====
section
/-! SUPPORT. What each shared update of the state leaves of every other field: one lemma for each field and update. -/

namespace Sys2Proof.Machine

/-! `modCore` changes no field but `cores`. -/

@[simp] theorem modCore_keeps_mem (s : State) (c : Nat) (f : Core → Core) : (modCore s c f).mem = s.mem := rfl
@[simp] theorem modCore_keeps_tags (s : State) (c : Nat) (f : Core → Core) : (modCore s c f).tags = s.tags := rfl
@[simp] theorem modCore_keeps_lines (s : State) (c : Nat) (f : Core → Core) : (modCore s c f).lines = s.lines := rfl
@[simp] theorem modCore_keeps_dir (s : State) (c : Nat) (f : Core → Core) : (modCore s c f).dir = s.dir := rfl
@[simp] theorem modCore_keeps_groups (s : State) (c : Nat) (f : Core → Core) : (modCore s c f).groups = s.groups := rfl
@[simp] theorem modCore_keeps_teams (s : State) (c : Nat) (f : Core → Core) : (modCore s c f).teams = s.teams := rfl
@[simp] theorem modCore_keeps_launches (s : State) (c : Nat) (f : Core → Core) : (modCore s c f).launches = s.launches := rfl
@[simp] theorem modCore_keeps_tasks (s : State) (c : Nat) (f : Core → Core) : (modCore s c f).tasks = s.tasks := rfl
@[simp] theorem modCore_keeps_boosts (s : State) (c : Nat) (f : Core → Core) : (modCore s c f).boosts = s.boosts := rfl
@[simp] theorem modCore_keeps_parts (s : State) (c : Nat) (f : Core → Core) : (modCore s c f).parts = s.parts := rfl
@[simp] theorem modCore_keeps_vfs (s : State) (c : Nat) (f : Core → Core) : (modCore s c f).vfs = s.vfs := rfl
@[simp] theorem modCore_keeps_cmds (s : State) (c : Nat) (f : Core → Core) : (modCore s c f).cmds = s.cmds := rfl
@[simp] theorem modCore_keeps_engines (s : State) (c : Nat) (f : Core → Core) : (modCore s c f).engines = s.engines := rfl
@[simp] theorem modCore_keeps_keys (s : State) (c : Nat) (f : Core → Core) : (modCore s c f).keys = s.keys := rfl
@[simp] theorem modCore_keeps_comms (s : State) (c : Nat) (f : Core → Core) : (modCore s c f).comms = s.comms := rfl
@[simp] theorem modCore_keeps_service (s : State) (c : Nat) (f : Core → Core) : (modCore s c f).service = s.service := rfl
@[simp] theorem modCore_keeps_invals (s : State) (c : Nat) (f : Core → Core) : (modCore s c f).invals = s.invals := rfl
@[simp] theorem modCore_keeps_prefS (s : State) (c : Nat) (f : Core → Core) : (modCore s c f).prefS = s.prefS := rfl
@[simp] theorem modCore_keeps_prefP (s : State) (c : Nat) (f : Core → Core) : (modCore s c f).prefP = s.prefP := rfl
@[simp] theorem modCore_keeps_scrub (s : State) (c : Nat) (f : Core → Core) : (modCore s c f).scrub = s.scrub := rfl
@[simp] theorem modCore_keeps_sliceCycles (s : State) (c : Nat) (f : Core → Core) : (modCore s c f).sliceCycles = s.sliceCycles := rfl
@[simp] theorem modCore_keeps_pressCycles (s : State) (c : Nat) (f : Core → Core) : (modCore s c f).pressCycles = s.pressCycles := rfl
@[simp] theorem modCore_keeps_mgmt (s : State) (c : Nat) (f : Core → Core) : (modCore s c f).mgmt = s.mgmt := rfl
@[simp] theorem modCore_keeps_boot (s : State) (c : Nat) (f : Core → Core) : (modCore s c f).boot = s.boot := rfl
@[simp] theorem modCore_keeps_msix (s : State) (c : Nat) (f : Core → Core) : (modCore s c f).msix = s.msix := rfl
@[simp] theorem modCore_keeps_sched (s : State) (c : Nat) (f : Core → Core) : (modCore s c f).sched = s.sched := rfl
@[simp] theorem modCore_keeps_tasters (s : State) (c : Nat) (f : Core → Core) : (modCore s c f).tasters = s.tasters := rfl
@[simp] theorem modCore_keeps_slots (s : State) (c : Nat) (f : Core → Core) : (modCore s c f).slots = s.slots := rfl
@[simp] theorem modCore_keeps_srcSeq (s : State) (c : Nat) (f : Core → Core) : (modCore s c f).srcSeq = s.srcSeq := rfl
@[simp] theorem modCore_keeps_islands (s : State) (c : Nat) (f : Core → Core) : (modCore s c f).islands = s.islands := rfl
@[simp] theorem modCore_keeps_spares (s : State) (c : Nat) (f : Core → Core) : (modCore s c f).spares = s.spares := rfl
@[simp] theorem modCore_keeps_dead (s : State) (c : Nat) (f : Core → Core) : (modCore s c f).dead = s.dead := rfl
@[simp] theorem modCore_keeps_corrected (s : State) (c : Nat) (f : Core → Core) : (modCore s c f).corrected = s.corrected := rfl
@[simp] theorem modCore_keeps_failing (s : State) (c : Nat) (f : Core → Core) : (modCore s c f).failing = s.failing := rfl
@[simp] theorem modCore_keeps_copying (s : State) (c : Nat) (f : Core → Core) : (modCore s c f).copying = s.copying := rfl
@[simp] theorem modCore_keeps_returned (s : State) (c : Nat) (f : Core → Core) : (modCore s c f).returned = s.returned := rfl
@[simp] theorem modCore_keeps_accepted (s : State) (c : Nat) (f : Core → Core) : (modCore s c f).accepted = s.accepted := rfl
@[simp] theorem modCore_keeps_nextId (s : State) (c : Nat) (f : Core → Core) : (modCore s c f).nextId = s.nextId := rfl
@[simp] theorem modCore_keeps_cur (s : State) (c : Nat) (f : Core → Core) : (modCore s c f).cur = s.cur := rfl
@[simp] theorem modCore_keeps_curSlot (s : State) (c : Nat) (f : Core → Core) : (modCore s c f).curSlot = s.curSlot := rfl
@[simp] theorem modCore_keeps_subj (s : State) (c : Nat) (f : Core → Core) : (modCore s c f).subj = s.subj := rfl
@[simp] theorem modCore_keeps_tape (s : State) (c : Nat) (f : Core → Core) : (modCore s c f).tape = s.tape := rfl
@[simp] theorem modCore_keeps_due (s : State) (c : Nat) (f : Core → Core) : (modCore s c f).due = s.due := rfl
@[simp] theorem modCore_keeps_fresh (s : State) (c : Nat) (f : Core → Core) : (modCore s c f).fresh = s.fresh := rfl

/-! `modLine` changes no field but `lines`. -/

@[simp] theorem modLine_keeps_mem (s : State) (la : Nat) (f : LineSt → LineSt) : (modLine s la f).mem = s.mem := rfl
@[simp] theorem modLine_keeps_tags (s : State) (la : Nat) (f : LineSt → LineSt) : (modLine s la f).tags = s.tags := rfl
@[simp] theorem modLine_keeps_dir (s : State) (la : Nat) (f : LineSt → LineSt) : (modLine s la f).dir = s.dir := rfl
@[simp] theorem modLine_keeps_cores (s : State) (la : Nat) (f : LineSt → LineSt) : (modLine s la f).cores = s.cores := rfl
@[simp] theorem modLine_keeps_groups (s : State) (la : Nat) (f : LineSt → LineSt) : (modLine s la f).groups = s.groups := rfl
@[simp] theorem modLine_keeps_teams (s : State) (la : Nat) (f : LineSt → LineSt) : (modLine s la f).teams = s.teams := rfl
@[simp] theorem modLine_keeps_launches (s : State) (la : Nat) (f : LineSt → LineSt) : (modLine s la f).launches = s.launches := rfl
@[simp] theorem modLine_keeps_tasks (s : State) (la : Nat) (f : LineSt → LineSt) : (modLine s la f).tasks = s.tasks := rfl
@[simp] theorem modLine_keeps_boosts (s : State) (la : Nat) (f : LineSt → LineSt) : (modLine s la f).boosts = s.boosts := rfl
@[simp] theorem modLine_keeps_parts (s : State) (la : Nat) (f : LineSt → LineSt) : (modLine s la f).parts = s.parts := rfl
@[simp] theorem modLine_keeps_vfs (s : State) (la : Nat) (f : LineSt → LineSt) : (modLine s la f).vfs = s.vfs := rfl
@[simp] theorem modLine_keeps_cmds (s : State) (la : Nat) (f : LineSt → LineSt) : (modLine s la f).cmds = s.cmds := rfl
@[simp] theorem modLine_keeps_engines (s : State) (la : Nat) (f : LineSt → LineSt) : (modLine s la f).engines = s.engines := rfl
@[simp] theorem modLine_keeps_keys (s : State) (la : Nat) (f : LineSt → LineSt) : (modLine s la f).keys = s.keys := rfl
@[simp] theorem modLine_keeps_comms (s : State) (la : Nat) (f : LineSt → LineSt) : (modLine s la f).comms = s.comms := rfl
@[simp] theorem modLine_keeps_service (s : State) (la : Nat) (f : LineSt → LineSt) : (modLine s la f).service = s.service := rfl
@[simp] theorem modLine_keeps_invals (s : State) (la : Nat) (f : LineSt → LineSt) : (modLine s la f).invals = s.invals := rfl
@[simp] theorem modLine_keeps_prefS (s : State) (la : Nat) (f : LineSt → LineSt) : (modLine s la f).prefS = s.prefS := rfl
@[simp] theorem modLine_keeps_prefP (s : State) (la : Nat) (f : LineSt → LineSt) : (modLine s la f).prefP = s.prefP := rfl
@[simp] theorem modLine_keeps_scrub (s : State) (la : Nat) (f : LineSt → LineSt) : (modLine s la f).scrub = s.scrub := rfl
@[simp] theorem modLine_keeps_sliceCycles (s : State) (la : Nat) (f : LineSt → LineSt) : (modLine s la f).sliceCycles = s.sliceCycles := rfl
@[simp] theorem modLine_keeps_pressCycles (s : State) (la : Nat) (f : LineSt → LineSt) : (modLine s la f).pressCycles = s.pressCycles := rfl
@[simp] theorem modLine_keeps_mgmt (s : State) (la : Nat) (f : LineSt → LineSt) : (modLine s la f).mgmt = s.mgmt := rfl
@[simp] theorem modLine_keeps_boot (s : State) (la : Nat) (f : LineSt → LineSt) : (modLine s la f).boot = s.boot := rfl
@[simp] theorem modLine_keeps_msix (s : State) (la : Nat) (f : LineSt → LineSt) : (modLine s la f).msix = s.msix := rfl
@[simp] theorem modLine_keeps_sched (s : State) (la : Nat) (f : LineSt → LineSt) : (modLine s la f).sched = s.sched := rfl
@[simp] theorem modLine_keeps_tasters (s : State) (la : Nat) (f : LineSt → LineSt) : (modLine s la f).tasters = s.tasters := rfl
@[simp] theorem modLine_keeps_slots (s : State) (la : Nat) (f : LineSt → LineSt) : (modLine s la f).slots = s.slots := rfl
@[simp] theorem modLine_keeps_srcSeq (s : State) (la : Nat) (f : LineSt → LineSt) : (modLine s la f).srcSeq = s.srcSeq := rfl
@[simp] theorem modLine_keeps_islands (s : State) (la : Nat) (f : LineSt → LineSt) : (modLine s la f).islands = s.islands := rfl
@[simp] theorem modLine_keeps_spares (s : State) (la : Nat) (f : LineSt → LineSt) : (modLine s la f).spares = s.spares := rfl
@[simp] theorem modLine_keeps_dead (s : State) (la : Nat) (f : LineSt → LineSt) : (modLine s la f).dead = s.dead := rfl
@[simp] theorem modLine_keeps_corrected (s : State) (la : Nat) (f : LineSt → LineSt) : (modLine s la f).corrected = s.corrected := rfl
@[simp] theorem modLine_keeps_failing (s : State) (la : Nat) (f : LineSt → LineSt) : (modLine s la f).failing = s.failing := rfl
@[simp] theorem modLine_keeps_copying (s : State) (la : Nat) (f : LineSt → LineSt) : (modLine s la f).copying = s.copying := rfl
@[simp] theorem modLine_keeps_returned (s : State) (la : Nat) (f : LineSt → LineSt) : (modLine s la f).returned = s.returned := rfl
@[simp] theorem modLine_keeps_accepted (s : State) (la : Nat) (f : LineSt → LineSt) : (modLine s la f).accepted = s.accepted := rfl
@[simp] theorem modLine_keeps_nextId (s : State) (la : Nat) (f : LineSt → LineSt) : (modLine s la f).nextId = s.nextId := rfl
@[simp] theorem modLine_keeps_cur (s : State) (la : Nat) (f : LineSt → LineSt) : (modLine s la f).cur = s.cur := rfl
@[simp] theorem modLine_keeps_curSlot (s : State) (la : Nat) (f : LineSt → LineSt) : (modLine s la f).curSlot = s.curSlot := rfl
@[simp] theorem modLine_keeps_subj (s : State) (la : Nat) (f : LineSt → LineSt) : (modLine s la f).subj = s.subj := rfl
@[simp] theorem modLine_keeps_tape (s : State) (la : Nat) (f : LineSt → LineSt) : (modLine s la f).tape = s.tape := rfl
@[simp] theorem modLine_keeps_due (s : State) (la : Nat) (f : LineSt → LineSt) : (modLine s la f).due = s.due := rfl
@[simp] theorem modLine_keeps_fresh (s : State) (la : Nat) (f : LineSt → LineSt) : (modLine s la f).fresh = s.fresh := rfl

/-! `setGroup` changes no field but `groups`. -/

@[simp] theorem setGroup_keeps_mem (s : State) (h : Nat) (g : Group) : (setGroup s h g).mem = s.mem := rfl
@[simp] theorem setGroup_keeps_tags (s : State) (h : Nat) (g : Group) : (setGroup s h g).tags = s.tags := rfl
@[simp] theorem setGroup_keeps_lines (s : State) (h : Nat) (g : Group) : (setGroup s h g).lines = s.lines := rfl
@[simp] theorem setGroup_keeps_dir (s : State) (h : Nat) (g : Group) : (setGroup s h g).dir = s.dir := rfl
@[simp] theorem setGroup_keeps_cores (s : State) (h : Nat) (g : Group) : (setGroup s h g).cores = s.cores := rfl
@[simp] theorem setGroup_keeps_teams (s : State) (h : Nat) (g : Group) : (setGroup s h g).teams = s.teams := rfl
@[simp] theorem setGroup_keeps_launches (s : State) (h : Nat) (g : Group) : (setGroup s h g).launches = s.launches := rfl
@[simp] theorem setGroup_keeps_tasks (s : State) (h : Nat) (g : Group) : (setGroup s h g).tasks = s.tasks := rfl
@[simp] theorem setGroup_keeps_boosts (s : State) (h : Nat) (g : Group) : (setGroup s h g).boosts = s.boosts := rfl
@[simp] theorem setGroup_keeps_parts (s : State) (h : Nat) (g : Group) : (setGroup s h g).parts = s.parts := rfl
@[simp] theorem setGroup_keeps_vfs (s : State) (h : Nat) (g : Group) : (setGroup s h g).vfs = s.vfs := rfl
@[simp] theorem setGroup_keeps_cmds (s : State) (h : Nat) (g : Group) : (setGroup s h g).cmds = s.cmds := rfl
@[simp] theorem setGroup_keeps_engines (s : State) (h : Nat) (g : Group) : (setGroup s h g).engines = s.engines := rfl
@[simp] theorem setGroup_keeps_keys (s : State) (h : Nat) (g : Group) : (setGroup s h g).keys = s.keys := rfl
@[simp] theorem setGroup_keeps_comms (s : State) (h : Nat) (g : Group) : (setGroup s h g).comms = s.comms := rfl
@[simp] theorem setGroup_keeps_service (s : State) (h : Nat) (g : Group) : (setGroup s h g).service = s.service := rfl
@[simp] theorem setGroup_keeps_invals (s : State) (h : Nat) (g : Group) : (setGroup s h g).invals = s.invals := rfl
@[simp] theorem setGroup_keeps_prefS (s : State) (h : Nat) (g : Group) : (setGroup s h g).prefS = s.prefS := rfl
@[simp] theorem setGroup_keeps_prefP (s : State) (h : Nat) (g : Group) : (setGroup s h g).prefP = s.prefP := rfl
@[simp] theorem setGroup_keeps_scrub (s : State) (h : Nat) (g : Group) : (setGroup s h g).scrub = s.scrub := rfl
@[simp] theorem setGroup_keeps_sliceCycles (s : State) (h : Nat) (g : Group) : (setGroup s h g).sliceCycles = s.sliceCycles := rfl
@[simp] theorem setGroup_keeps_pressCycles (s : State) (h : Nat) (g : Group) : (setGroup s h g).pressCycles = s.pressCycles := rfl
@[simp] theorem setGroup_keeps_mgmt (s : State) (h : Nat) (g : Group) : (setGroup s h g).mgmt = s.mgmt := rfl
@[simp] theorem setGroup_keeps_boot (s : State) (h : Nat) (g : Group) : (setGroup s h g).boot = s.boot := rfl
@[simp] theorem setGroup_keeps_msix (s : State) (h : Nat) (g : Group) : (setGroup s h g).msix = s.msix := rfl
@[simp] theorem setGroup_keeps_sched (s : State) (h : Nat) (g : Group) : (setGroup s h g).sched = s.sched := rfl
@[simp] theorem setGroup_keeps_tasters (s : State) (h : Nat) (g : Group) : (setGroup s h g).tasters = s.tasters := rfl
@[simp] theorem setGroup_keeps_slots (s : State) (h : Nat) (g : Group) : (setGroup s h g).slots = s.slots := rfl
@[simp] theorem setGroup_keeps_srcSeq (s : State) (h : Nat) (g : Group) : (setGroup s h g).srcSeq = s.srcSeq := rfl
@[simp] theorem setGroup_keeps_islands (s : State) (h : Nat) (g : Group) : (setGroup s h g).islands = s.islands := rfl
@[simp] theorem setGroup_keeps_spares (s : State) (h : Nat) (g : Group) : (setGroup s h g).spares = s.spares := rfl
@[simp] theorem setGroup_keeps_dead (s : State) (h : Nat) (g : Group) : (setGroup s h g).dead = s.dead := rfl
@[simp] theorem setGroup_keeps_corrected (s : State) (h : Nat) (g : Group) : (setGroup s h g).corrected = s.corrected := rfl
@[simp] theorem setGroup_keeps_failing (s : State) (h : Nat) (g : Group) : (setGroup s h g).failing = s.failing := rfl
@[simp] theorem setGroup_keeps_copying (s : State) (h : Nat) (g : Group) : (setGroup s h g).copying = s.copying := rfl
@[simp] theorem setGroup_keeps_returned (s : State) (h : Nat) (g : Group) : (setGroup s h g).returned = s.returned := rfl
@[simp] theorem setGroup_keeps_accepted (s : State) (h : Nat) (g : Group) : (setGroup s h g).accepted = s.accepted := rfl
@[simp] theorem setGroup_keeps_nextId (s : State) (h : Nat) (g : Group) : (setGroup s h g).nextId = s.nextId := rfl
@[simp] theorem setGroup_keeps_cur (s : State) (h : Nat) (g : Group) : (setGroup s h g).cur = s.cur := rfl
@[simp] theorem setGroup_keeps_curSlot (s : State) (h : Nat) (g : Group) : (setGroup s h g).curSlot = s.curSlot := rfl
@[simp] theorem setGroup_keeps_subj (s : State) (h : Nat) (g : Group) : (setGroup s h g).subj = s.subj := rfl
@[simp] theorem setGroup_keeps_tape (s : State) (h : Nat) (g : Group) : (setGroup s h g).tape = s.tape := rfl
@[simp] theorem setGroup_keeps_due (s : State) (h : Nat) (g : Group) : (setGroup s h g).due = s.due := rfl
@[simp] theorem setGroup_keeps_fresh (s : State) (h : Nat) (g : Group) : (setGroup s h g).fresh = s.fresh := rfl

/-! `modGroup` changes no field but `groups`. -/

@[simp] theorem modGroup_keeps_mem (s : State) (h : Nat) (f : Group → Group) : (modGroup s h f).mem = s.mem := by unfold modGroup; split <;> rfl
@[simp] theorem modGroup_keeps_tags (s : State) (h : Nat) (f : Group → Group) : (modGroup s h f).tags = s.tags := by unfold modGroup; split <;> rfl
@[simp] theorem modGroup_keeps_lines (s : State) (h : Nat) (f : Group → Group) : (modGroup s h f).lines = s.lines := by unfold modGroup; split <;> rfl
@[simp] theorem modGroup_keeps_dir (s : State) (h : Nat) (f : Group → Group) : (modGroup s h f).dir = s.dir := by unfold modGroup; split <;> rfl
@[simp] theorem modGroup_keeps_cores (s : State) (h : Nat) (f : Group → Group) : (modGroup s h f).cores = s.cores := by unfold modGroup; split <;> rfl
@[simp] theorem modGroup_keeps_teams (s : State) (h : Nat) (f : Group → Group) : (modGroup s h f).teams = s.teams := by unfold modGroup; split <;> rfl
@[simp] theorem modGroup_keeps_launches (s : State) (h : Nat) (f : Group → Group) : (modGroup s h f).launches = s.launches := by unfold modGroup; split <;> rfl
@[simp] theorem modGroup_keeps_tasks (s : State) (h : Nat) (f : Group → Group) : (modGroup s h f).tasks = s.tasks := by unfold modGroup; split <;> rfl
@[simp] theorem modGroup_keeps_boosts (s : State) (h : Nat) (f : Group → Group) : (modGroup s h f).boosts = s.boosts := by unfold modGroup; split <;> rfl
@[simp] theorem modGroup_keeps_parts (s : State) (h : Nat) (f : Group → Group) : (modGroup s h f).parts = s.parts := by unfold modGroup; split <;> rfl
@[simp] theorem modGroup_keeps_vfs (s : State) (h : Nat) (f : Group → Group) : (modGroup s h f).vfs = s.vfs := by unfold modGroup; split <;> rfl
@[simp] theorem modGroup_keeps_cmds (s : State) (h : Nat) (f : Group → Group) : (modGroup s h f).cmds = s.cmds := by unfold modGroup; split <;> rfl
@[simp] theorem modGroup_keeps_engines (s : State) (h : Nat) (f : Group → Group) : (modGroup s h f).engines = s.engines := by unfold modGroup; split <;> rfl
@[simp] theorem modGroup_keeps_keys (s : State) (h : Nat) (f : Group → Group) : (modGroup s h f).keys = s.keys := by unfold modGroup; split <;> rfl
@[simp] theorem modGroup_keeps_comms (s : State) (h : Nat) (f : Group → Group) : (modGroup s h f).comms = s.comms := by unfold modGroup; split <;> rfl
@[simp] theorem modGroup_keeps_service (s : State) (h : Nat) (f : Group → Group) : (modGroup s h f).service = s.service := by unfold modGroup; split <;> rfl
@[simp] theorem modGroup_keeps_invals (s : State) (h : Nat) (f : Group → Group) : (modGroup s h f).invals = s.invals := by unfold modGroup; split <;> rfl
@[simp] theorem modGroup_keeps_prefS (s : State) (h : Nat) (f : Group → Group) : (modGroup s h f).prefS = s.prefS := by unfold modGroup; split <;> rfl
@[simp] theorem modGroup_keeps_prefP (s : State) (h : Nat) (f : Group → Group) : (modGroup s h f).prefP = s.prefP := by unfold modGroup; split <;> rfl
@[simp] theorem modGroup_keeps_scrub (s : State) (h : Nat) (f : Group → Group) : (modGroup s h f).scrub = s.scrub := by unfold modGroup; split <;> rfl
@[simp] theorem modGroup_keeps_sliceCycles (s : State) (h : Nat) (f : Group → Group) : (modGroup s h f).sliceCycles = s.sliceCycles := by unfold modGroup; split <;> rfl
@[simp] theorem modGroup_keeps_pressCycles (s : State) (h : Nat) (f : Group → Group) : (modGroup s h f).pressCycles = s.pressCycles := by unfold modGroup; split <;> rfl
@[simp] theorem modGroup_keeps_mgmt (s : State) (h : Nat) (f : Group → Group) : (modGroup s h f).mgmt = s.mgmt := by unfold modGroup; split <;> rfl
@[simp] theorem modGroup_keeps_boot (s : State) (h : Nat) (f : Group → Group) : (modGroup s h f).boot = s.boot := by unfold modGroup; split <;> rfl
@[simp] theorem modGroup_keeps_msix (s : State) (h : Nat) (f : Group → Group) : (modGroup s h f).msix = s.msix := by unfold modGroup; split <;> rfl
@[simp] theorem modGroup_keeps_sched (s : State) (h : Nat) (f : Group → Group) : (modGroup s h f).sched = s.sched := by unfold modGroup; split <;> rfl
@[simp] theorem modGroup_keeps_tasters (s : State) (h : Nat) (f : Group → Group) : (modGroup s h f).tasters = s.tasters := by unfold modGroup; split <;> rfl
@[simp] theorem modGroup_keeps_slots (s : State) (h : Nat) (f : Group → Group) : (modGroup s h f).slots = s.slots := by unfold modGroup; split <;> rfl
@[simp] theorem modGroup_keeps_srcSeq (s : State) (h : Nat) (f : Group → Group) : (modGroup s h f).srcSeq = s.srcSeq := by unfold modGroup; split <;> rfl
@[simp] theorem modGroup_keeps_islands (s : State) (h : Nat) (f : Group → Group) : (modGroup s h f).islands = s.islands := by unfold modGroup; split <;> rfl
@[simp] theorem modGroup_keeps_spares (s : State) (h : Nat) (f : Group → Group) : (modGroup s h f).spares = s.spares := by unfold modGroup; split <;> rfl
@[simp] theorem modGroup_keeps_dead (s : State) (h : Nat) (f : Group → Group) : (modGroup s h f).dead = s.dead := by unfold modGroup; split <;> rfl
@[simp] theorem modGroup_keeps_corrected (s : State) (h : Nat) (f : Group → Group) : (modGroup s h f).corrected = s.corrected := by unfold modGroup; split <;> rfl
@[simp] theorem modGroup_keeps_failing (s : State) (h : Nat) (f : Group → Group) : (modGroup s h f).failing = s.failing := by unfold modGroup; split <;> rfl
@[simp] theorem modGroup_keeps_copying (s : State) (h : Nat) (f : Group → Group) : (modGroup s h f).copying = s.copying := by unfold modGroup; split <;> rfl
@[simp] theorem modGroup_keeps_returned (s : State) (h : Nat) (f : Group → Group) : (modGroup s h f).returned = s.returned := by unfold modGroup; split <;> rfl
@[simp] theorem modGroup_keeps_accepted (s : State) (h : Nat) (f : Group → Group) : (modGroup s h f).accepted = s.accepted := by unfold modGroup; split <;> rfl
@[simp] theorem modGroup_keeps_nextId (s : State) (h : Nat) (f : Group → Group) : (modGroup s h f).nextId = s.nextId := by unfold modGroup; split <;> rfl
@[simp] theorem modGroup_keeps_cur (s : State) (h : Nat) (f : Group → Group) : (modGroup s h f).cur = s.cur := by unfold modGroup; split <;> rfl
@[simp] theorem modGroup_keeps_curSlot (s : State) (h : Nat) (f : Group → Group) : (modGroup s h f).curSlot = s.curSlot := by unfold modGroup; split <;> rfl
@[simp] theorem modGroup_keeps_subj (s : State) (h : Nat) (f : Group → Group) : (modGroup s h f).subj = s.subj := by unfold modGroup; split <;> rfl
@[simp] theorem modGroup_keeps_tape (s : State) (h : Nat) (f : Group → Group) : (modGroup s h f).tape = s.tape := by unfold modGroup; split <;> rfl
@[simp] theorem modGroup_keeps_due (s : State) (h : Nat) (f : Group → Group) : (modGroup s h f).due = s.due := by unfold modGroup; split <;> rfl
@[simp] theorem modGroup_keeps_fresh (s : State) (h : Nat) (f : Group → Group) : (modGroup s h f).fresh = s.fresh := by unfold modGroup; split <;> rfl

/-! `modTeam` changes no field but `teams`. -/

@[simp] theorem modTeam_keeps_mem (s : State) (t : Nat) (f : Team → Team) : (modTeam s t f).mem = s.mem := rfl
@[simp] theorem modTeam_keeps_tags (s : State) (t : Nat) (f : Team → Team) : (modTeam s t f).tags = s.tags := rfl
@[simp] theorem modTeam_keeps_lines (s : State) (t : Nat) (f : Team → Team) : (modTeam s t f).lines = s.lines := rfl
@[simp] theorem modTeam_keeps_dir (s : State) (t : Nat) (f : Team → Team) : (modTeam s t f).dir = s.dir := rfl
@[simp] theorem modTeam_keeps_cores (s : State) (t : Nat) (f : Team → Team) : (modTeam s t f).cores = s.cores := rfl
@[simp] theorem modTeam_keeps_groups (s : State) (t : Nat) (f : Team → Team) : (modTeam s t f).groups = s.groups := rfl
@[simp] theorem modTeam_keeps_launches (s : State) (t : Nat) (f : Team → Team) : (modTeam s t f).launches = s.launches := rfl
@[simp] theorem modTeam_keeps_tasks (s : State) (t : Nat) (f : Team → Team) : (modTeam s t f).tasks = s.tasks := rfl
@[simp] theorem modTeam_keeps_boosts (s : State) (t : Nat) (f : Team → Team) : (modTeam s t f).boosts = s.boosts := rfl
@[simp] theorem modTeam_keeps_parts (s : State) (t : Nat) (f : Team → Team) : (modTeam s t f).parts = s.parts := rfl
@[simp] theorem modTeam_keeps_vfs (s : State) (t : Nat) (f : Team → Team) : (modTeam s t f).vfs = s.vfs := rfl
@[simp] theorem modTeam_keeps_cmds (s : State) (t : Nat) (f : Team → Team) : (modTeam s t f).cmds = s.cmds := rfl
@[simp] theorem modTeam_keeps_engines (s : State) (t : Nat) (f : Team → Team) : (modTeam s t f).engines = s.engines := rfl
@[simp] theorem modTeam_keeps_keys (s : State) (t : Nat) (f : Team → Team) : (modTeam s t f).keys = s.keys := rfl
@[simp] theorem modTeam_keeps_comms (s : State) (t : Nat) (f : Team → Team) : (modTeam s t f).comms = s.comms := rfl
@[simp] theorem modTeam_keeps_service (s : State) (t : Nat) (f : Team → Team) : (modTeam s t f).service = s.service := rfl
@[simp] theorem modTeam_keeps_invals (s : State) (t : Nat) (f : Team → Team) : (modTeam s t f).invals = s.invals := rfl
@[simp] theorem modTeam_keeps_prefS (s : State) (t : Nat) (f : Team → Team) : (modTeam s t f).prefS = s.prefS := rfl
@[simp] theorem modTeam_keeps_prefP (s : State) (t : Nat) (f : Team → Team) : (modTeam s t f).prefP = s.prefP := rfl
@[simp] theorem modTeam_keeps_scrub (s : State) (t : Nat) (f : Team → Team) : (modTeam s t f).scrub = s.scrub := rfl
@[simp] theorem modTeam_keeps_sliceCycles (s : State) (t : Nat) (f : Team → Team) : (modTeam s t f).sliceCycles = s.sliceCycles := rfl
@[simp] theorem modTeam_keeps_pressCycles (s : State) (t : Nat) (f : Team → Team) : (modTeam s t f).pressCycles = s.pressCycles := rfl
@[simp] theorem modTeam_keeps_mgmt (s : State) (t : Nat) (f : Team → Team) : (modTeam s t f).mgmt = s.mgmt := rfl
@[simp] theorem modTeam_keeps_boot (s : State) (t : Nat) (f : Team → Team) : (modTeam s t f).boot = s.boot := rfl
@[simp] theorem modTeam_keeps_msix (s : State) (t : Nat) (f : Team → Team) : (modTeam s t f).msix = s.msix := rfl
@[simp] theorem modTeam_keeps_sched (s : State) (t : Nat) (f : Team → Team) : (modTeam s t f).sched = s.sched := rfl
@[simp] theorem modTeam_keeps_tasters (s : State) (t : Nat) (f : Team → Team) : (modTeam s t f).tasters = s.tasters := rfl
@[simp] theorem modTeam_keeps_slots (s : State) (t : Nat) (f : Team → Team) : (modTeam s t f).slots = s.slots := rfl
@[simp] theorem modTeam_keeps_srcSeq (s : State) (t : Nat) (f : Team → Team) : (modTeam s t f).srcSeq = s.srcSeq := rfl
@[simp] theorem modTeam_keeps_islands (s : State) (t : Nat) (f : Team → Team) : (modTeam s t f).islands = s.islands := rfl
@[simp] theorem modTeam_keeps_spares (s : State) (t : Nat) (f : Team → Team) : (modTeam s t f).spares = s.spares := rfl
@[simp] theorem modTeam_keeps_dead (s : State) (t : Nat) (f : Team → Team) : (modTeam s t f).dead = s.dead := rfl
@[simp] theorem modTeam_keeps_corrected (s : State) (t : Nat) (f : Team → Team) : (modTeam s t f).corrected = s.corrected := rfl
@[simp] theorem modTeam_keeps_failing (s : State) (t : Nat) (f : Team → Team) : (modTeam s t f).failing = s.failing := rfl
@[simp] theorem modTeam_keeps_copying (s : State) (t : Nat) (f : Team → Team) : (modTeam s t f).copying = s.copying := rfl
@[simp] theorem modTeam_keeps_returned (s : State) (t : Nat) (f : Team → Team) : (modTeam s t f).returned = s.returned := rfl
@[simp] theorem modTeam_keeps_accepted (s : State) (t : Nat) (f : Team → Team) : (modTeam s t f).accepted = s.accepted := rfl
@[simp] theorem modTeam_keeps_nextId (s : State) (t : Nat) (f : Team → Team) : (modTeam s t f).nextId = s.nextId := rfl
@[simp] theorem modTeam_keeps_cur (s : State) (t : Nat) (f : Team → Team) : (modTeam s t f).cur = s.cur := rfl
@[simp] theorem modTeam_keeps_curSlot (s : State) (t : Nat) (f : Team → Team) : (modTeam s t f).curSlot = s.curSlot := rfl
@[simp] theorem modTeam_keeps_subj (s : State) (t : Nat) (f : Team → Team) : (modTeam s t f).subj = s.subj := rfl
@[simp] theorem modTeam_keeps_tape (s : State) (t : Nat) (f : Team → Team) : (modTeam s t f).tape = s.tape := rfl
@[simp] theorem modTeam_keeps_due (s : State) (t : Nat) (f : Team → Team) : (modTeam s t f).due = s.due := rfl
@[simp] theorem modTeam_keeps_fresh (s : State) (t : Nat) (f : Team → Team) : (modTeam s t f).fresh = s.fresh := rfl

/-! `modLaunch` changes no field but `launches`. -/

@[simp] theorem modLaunch_keeps_mem (s : State) (l : Nat) (f : Launch → Launch) : (modLaunch s l f).mem = s.mem := rfl
@[simp] theorem modLaunch_keeps_tags (s : State) (l : Nat) (f : Launch → Launch) : (modLaunch s l f).tags = s.tags := rfl
@[simp] theorem modLaunch_keeps_lines (s : State) (l : Nat) (f : Launch → Launch) : (modLaunch s l f).lines = s.lines := rfl
@[simp] theorem modLaunch_keeps_dir (s : State) (l : Nat) (f : Launch → Launch) : (modLaunch s l f).dir = s.dir := rfl
@[simp] theorem modLaunch_keeps_cores (s : State) (l : Nat) (f : Launch → Launch) : (modLaunch s l f).cores = s.cores := rfl
@[simp] theorem modLaunch_keeps_groups (s : State) (l : Nat) (f : Launch → Launch) : (modLaunch s l f).groups = s.groups := rfl
@[simp] theorem modLaunch_keeps_teams (s : State) (l : Nat) (f : Launch → Launch) : (modLaunch s l f).teams = s.teams := rfl
@[simp] theorem modLaunch_keeps_tasks (s : State) (l : Nat) (f : Launch → Launch) : (modLaunch s l f).tasks = s.tasks := rfl
@[simp] theorem modLaunch_keeps_boosts (s : State) (l : Nat) (f : Launch → Launch) : (modLaunch s l f).boosts = s.boosts := rfl
@[simp] theorem modLaunch_keeps_parts (s : State) (l : Nat) (f : Launch → Launch) : (modLaunch s l f).parts = s.parts := rfl
@[simp] theorem modLaunch_keeps_vfs (s : State) (l : Nat) (f : Launch → Launch) : (modLaunch s l f).vfs = s.vfs := rfl
@[simp] theorem modLaunch_keeps_cmds (s : State) (l : Nat) (f : Launch → Launch) : (modLaunch s l f).cmds = s.cmds := rfl
@[simp] theorem modLaunch_keeps_engines (s : State) (l : Nat) (f : Launch → Launch) : (modLaunch s l f).engines = s.engines := rfl
@[simp] theorem modLaunch_keeps_keys (s : State) (l : Nat) (f : Launch → Launch) : (modLaunch s l f).keys = s.keys := rfl
@[simp] theorem modLaunch_keeps_comms (s : State) (l : Nat) (f : Launch → Launch) : (modLaunch s l f).comms = s.comms := rfl
@[simp] theorem modLaunch_keeps_service (s : State) (l : Nat) (f : Launch → Launch) : (modLaunch s l f).service = s.service := rfl
@[simp] theorem modLaunch_keeps_invals (s : State) (l : Nat) (f : Launch → Launch) : (modLaunch s l f).invals = s.invals := rfl
@[simp] theorem modLaunch_keeps_prefS (s : State) (l : Nat) (f : Launch → Launch) : (modLaunch s l f).prefS = s.prefS := rfl
@[simp] theorem modLaunch_keeps_prefP (s : State) (l : Nat) (f : Launch → Launch) : (modLaunch s l f).prefP = s.prefP := rfl
@[simp] theorem modLaunch_keeps_scrub (s : State) (l : Nat) (f : Launch → Launch) : (modLaunch s l f).scrub = s.scrub := rfl
@[simp] theorem modLaunch_keeps_sliceCycles (s : State) (l : Nat) (f : Launch → Launch) : (modLaunch s l f).sliceCycles = s.sliceCycles := rfl
@[simp] theorem modLaunch_keeps_pressCycles (s : State) (l : Nat) (f : Launch → Launch) : (modLaunch s l f).pressCycles = s.pressCycles := rfl
@[simp] theorem modLaunch_keeps_mgmt (s : State) (l : Nat) (f : Launch → Launch) : (modLaunch s l f).mgmt = s.mgmt := rfl
@[simp] theorem modLaunch_keeps_boot (s : State) (l : Nat) (f : Launch → Launch) : (modLaunch s l f).boot = s.boot := rfl
@[simp] theorem modLaunch_keeps_msix (s : State) (l : Nat) (f : Launch → Launch) : (modLaunch s l f).msix = s.msix := rfl
@[simp] theorem modLaunch_keeps_sched (s : State) (l : Nat) (f : Launch → Launch) : (modLaunch s l f).sched = s.sched := rfl
@[simp] theorem modLaunch_keeps_tasters (s : State) (l : Nat) (f : Launch → Launch) : (modLaunch s l f).tasters = s.tasters := rfl
@[simp] theorem modLaunch_keeps_slots (s : State) (l : Nat) (f : Launch → Launch) : (modLaunch s l f).slots = s.slots := rfl
@[simp] theorem modLaunch_keeps_srcSeq (s : State) (l : Nat) (f : Launch → Launch) : (modLaunch s l f).srcSeq = s.srcSeq := rfl
@[simp] theorem modLaunch_keeps_islands (s : State) (l : Nat) (f : Launch → Launch) : (modLaunch s l f).islands = s.islands := rfl
@[simp] theorem modLaunch_keeps_spares (s : State) (l : Nat) (f : Launch → Launch) : (modLaunch s l f).spares = s.spares := rfl
@[simp] theorem modLaunch_keeps_dead (s : State) (l : Nat) (f : Launch → Launch) : (modLaunch s l f).dead = s.dead := rfl
@[simp] theorem modLaunch_keeps_corrected (s : State) (l : Nat) (f : Launch → Launch) : (modLaunch s l f).corrected = s.corrected := rfl
@[simp] theorem modLaunch_keeps_failing (s : State) (l : Nat) (f : Launch → Launch) : (modLaunch s l f).failing = s.failing := rfl
@[simp] theorem modLaunch_keeps_copying (s : State) (l : Nat) (f : Launch → Launch) : (modLaunch s l f).copying = s.copying := rfl
@[simp] theorem modLaunch_keeps_returned (s : State) (l : Nat) (f : Launch → Launch) : (modLaunch s l f).returned = s.returned := rfl
@[simp] theorem modLaunch_keeps_accepted (s : State) (l : Nat) (f : Launch → Launch) : (modLaunch s l f).accepted = s.accepted := rfl
@[simp] theorem modLaunch_keeps_nextId (s : State) (l : Nat) (f : Launch → Launch) : (modLaunch s l f).nextId = s.nextId := rfl
@[simp] theorem modLaunch_keeps_cur (s : State) (l : Nat) (f : Launch → Launch) : (modLaunch s l f).cur = s.cur := rfl
@[simp] theorem modLaunch_keeps_curSlot (s : State) (l : Nat) (f : Launch → Launch) : (modLaunch s l f).curSlot = s.curSlot := rfl
@[simp] theorem modLaunch_keeps_subj (s : State) (l : Nat) (f : Launch → Launch) : (modLaunch s l f).subj = s.subj := rfl
@[simp] theorem modLaunch_keeps_tape (s : State) (l : Nat) (f : Launch → Launch) : (modLaunch s l f).tape = s.tape := rfl
@[simp] theorem modLaunch_keeps_due (s : State) (l : Nat) (f : Launch → Launch) : (modLaunch s l f).due = s.due := rfl
@[simp] theorem modLaunch_keeps_fresh (s : State) (l : Nat) (f : Launch → Launch) : (modLaunch s l f).fresh = s.fresh := rfl

/-! `modPart` changes no field but `parts`. -/

@[simp] theorem modPart_keeps_mem (s : State) (p : Nat) (f : Partition → Partition) : (modPart s p f).mem = s.mem := by unfold modPart; split <;> rfl
@[simp] theorem modPart_keeps_tags (s : State) (p : Nat) (f : Partition → Partition) : (modPart s p f).tags = s.tags := by unfold modPart; split <;> rfl
@[simp] theorem modPart_keeps_lines (s : State) (p : Nat) (f : Partition → Partition) : (modPart s p f).lines = s.lines := by unfold modPart; split <;> rfl
@[simp] theorem modPart_keeps_dir (s : State) (p : Nat) (f : Partition → Partition) : (modPart s p f).dir = s.dir := by unfold modPart; split <;> rfl
@[simp] theorem modPart_keeps_cores (s : State) (p : Nat) (f : Partition → Partition) : (modPart s p f).cores = s.cores := by unfold modPart; split <;> rfl
@[simp] theorem modPart_keeps_groups (s : State) (p : Nat) (f : Partition → Partition) : (modPart s p f).groups = s.groups := by unfold modPart; split <;> rfl
@[simp] theorem modPart_keeps_teams (s : State) (p : Nat) (f : Partition → Partition) : (modPart s p f).teams = s.teams := by unfold modPart; split <;> rfl
@[simp] theorem modPart_keeps_launches (s : State) (p : Nat) (f : Partition → Partition) : (modPart s p f).launches = s.launches := by unfold modPart; split <;> rfl
@[simp] theorem modPart_keeps_tasks (s : State) (p : Nat) (f : Partition → Partition) : (modPart s p f).tasks = s.tasks := by unfold modPart; split <;> rfl
@[simp] theorem modPart_keeps_boosts (s : State) (p : Nat) (f : Partition → Partition) : (modPart s p f).boosts = s.boosts := by unfold modPart; split <;> rfl
@[simp] theorem modPart_keeps_vfs (s : State) (p : Nat) (f : Partition → Partition) : (modPart s p f).vfs = s.vfs := by unfold modPart; split <;> rfl
@[simp] theorem modPart_keeps_cmds (s : State) (p : Nat) (f : Partition → Partition) : (modPart s p f).cmds = s.cmds := by unfold modPart; split <;> rfl
@[simp] theorem modPart_keeps_engines (s : State) (p : Nat) (f : Partition → Partition) : (modPart s p f).engines = s.engines := by unfold modPart; split <;> rfl
@[simp] theorem modPart_keeps_keys (s : State) (p : Nat) (f : Partition → Partition) : (modPart s p f).keys = s.keys := by unfold modPart; split <;> rfl
@[simp] theorem modPart_keeps_comms (s : State) (p : Nat) (f : Partition → Partition) : (modPart s p f).comms = s.comms := by unfold modPart; split <;> rfl
@[simp] theorem modPart_keeps_service (s : State) (p : Nat) (f : Partition → Partition) : (modPart s p f).service = s.service := by unfold modPart; split <;> rfl
@[simp] theorem modPart_keeps_invals (s : State) (p : Nat) (f : Partition → Partition) : (modPart s p f).invals = s.invals := by unfold modPart; split <;> rfl
@[simp] theorem modPart_keeps_prefS (s : State) (p : Nat) (f : Partition → Partition) : (modPart s p f).prefS = s.prefS := by unfold modPart; split <;> rfl
@[simp] theorem modPart_keeps_prefP (s : State) (p : Nat) (f : Partition → Partition) : (modPart s p f).prefP = s.prefP := by unfold modPart; split <;> rfl
@[simp] theorem modPart_keeps_scrub (s : State) (p : Nat) (f : Partition → Partition) : (modPart s p f).scrub = s.scrub := by unfold modPart; split <;> rfl
@[simp] theorem modPart_keeps_sliceCycles (s : State) (p : Nat) (f : Partition → Partition) : (modPart s p f).sliceCycles = s.sliceCycles := by unfold modPart; split <;> rfl
@[simp] theorem modPart_keeps_pressCycles (s : State) (p : Nat) (f : Partition → Partition) : (modPart s p f).pressCycles = s.pressCycles := by unfold modPart; split <;> rfl
@[simp] theorem modPart_keeps_mgmt (s : State) (p : Nat) (f : Partition → Partition) : (modPart s p f).mgmt = s.mgmt := by unfold modPart; split <;> rfl
@[simp] theorem modPart_keeps_boot (s : State) (p : Nat) (f : Partition → Partition) : (modPart s p f).boot = s.boot := by unfold modPart; split <;> rfl
@[simp] theorem modPart_keeps_msix (s : State) (p : Nat) (f : Partition → Partition) : (modPart s p f).msix = s.msix := by unfold modPart; split <;> rfl
@[simp] theorem modPart_keeps_sched (s : State) (p : Nat) (f : Partition → Partition) : (modPart s p f).sched = s.sched := by unfold modPart; split <;> rfl
@[simp] theorem modPart_keeps_tasters (s : State) (p : Nat) (f : Partition → Partition) : (modPart s p f).tasters = s.tasters := by unfold modPart; split <;> rfl
@[simp] theorem modPart_keeps_slots (s : State) (p : Nat) (f : Partition → Partition) : (modPart s p f).slots = s.slots := by unfold modPart; split <;> rfl
@[simp] theorem modPart_keeps_srcSeq (s : State) (p : Nat) (f : Partition → Partition) : (modPart s p f).srcSeq = s.srcSeq := by unfold modPart; split <;> rfl
@[simp] theorem modPart_keeps_islands (s : State) (p : Nat) (f : Partition → Partition) : (modPart s p f).islands = s.islands := by unfold modPart; split <;> rfl
@[simp] theorem modPart_keeps_spares (s : State) (p : Nat) (f : Partition → Partition) : (modPart s p f).spares = s.spares := by unfold modPart; split <;> rfl
@[simp] theorem modPart_keeps_dead (s : State) (p : Nat) (f : Partition → Partition) : (modPart s p f).dead = s.dead := by unfold modPart; split <;> rfl
@[simp] theorem modPart_keeps_corrected (s : State) (p : Nat) (f : Partition → Partition) : (modPart s p f).corrected = s.corrected := by unfold modPart; split <;> rfl
@[simp] theorem modPart_keeps_failing (s : State) (p : Nat) (f : Partition → Partition) : (modPart s p f).failing = s.failing := by unfold modPart; split <;> rfl
@[simp] theorem modPart_keeps_copying (s : State) (p : Nat) (f : Partition → Partition) : (modPart s p f).copying = s.copying := by unfold modPart; split <;> rfl
@[simp] theorem modPart_keeps_returned (s : State) (p : Nat) (f : Partition → Partition) : (modPart s p f).returned = s.returned := by unfold modPart; split <;> rfl
@[simp] theorem modPart_keeps_accepted (s : State) (p : Nat) (f : Partition → Partition) : (modPart s p f).accepted = s.accepted := by unfold modPart; split <;> rfl
@[simp] theorem modPart_keeps_nextId (s : State) (p : Nat) (f : Partition → Partition) : (modPart s p f).nextId = s.nextId := by unfold modPart; split <;> rfl
@[simp] theorem modPart_keeps_cur (s : State) (p : Nat) (f : Partition → Partition) : (modPart s p f).cur = s.cur := by unfold modPart; split <;> rfl
@[simp] theorem modPart_keeps_curSlot (s : State) (p : Nat) (f : Partition → Partition) : (modPart s p f).curSlot = s.curSlot := by unfold modPart; split <;> rfl
@[simp] theorem modPart_keeps_subj (s : State) (p : Nat) (f : Partition → Partition) : (modPart s p f).subj = s.subj := by unfold modPart; split <;> rfl
@[simp] theorem modPart_keeps_tape (s : State) (p : Nat) (f : Partition → Partition) : (modPart s p f).tape = s.tape := by unfold modPart; split <;> rfl
@[simp] theorem modPart_keeps_due (s : State) (p : Nat) (f : Partition → Partition) : (modPart s p f).due = s.due := by unfold modPart; split <;> rfl
@[simp] theorem modPart_keeps_fresh (s : State) (p : Nat) (f : Partition → Partition) : (modPart s p f).fresh = s.fresh := by unfold modPart; split <;> rfl

/-! `modCmd` changes no field but `cmds`. -/

@[simp] theorem modCmd_keeps_mem (s : State) (c : Nat) (f : Cmd → Cmd) : (modCmd s c f).mem = s.mem := by unfold modCmd; split <;> rfl
@[simp] theorem modCmd_keeps_tags (s : State) (c : Nat) (f : Cmd → Cmd) : (modCmd s c f).tags = s.tags := by unfold modCmd; split <;> rfl
@[simp] theorem modCmd_keeps_lines (s : State) (c : Nat) (f : Cmd → Cmd) : (modCmd s c f).lines = s.lines := by unfold modCmd; split <;> rfl
@[simp] theorem modCmd_keeps_dir (s : State) (c : Nat) (f : Cmd → Cmd) : (modCmd s c f).dir = s.dir := by unfold modCmd; split <;> rfl
@[simp] theorem modCmd_keeps_cores (s : State) (c : Nat) (f : Cmd → Cmd) : (modCmd s c f).cores = s.cores := by unfold modCmd; split <;> rfl
@[simp] theorem modCmd_keeps_groups (s : State) (c : Nat) (f : Cmd → Cmd) : (modCmd s c f).groups = s.groups := by unfold modCmd; split <;> rfl
@[simp] theorem modCmd_keeps_teams (s : State) (c : Nat) (f : Cmd → Cmd) : (modCmd s c f).teams = s.teams := by unfold modCmd; split <;> rfl
@[simp] theorem modCmd_keeps_launches (s : State) (c : Nat) (f : Cmd → Cmd) : (modCmd s c f).launches = s.launches := by unfold modCmd; split <;> rfl
@[simp] theorem modCmd_keeps_tasks (s : State) (c : Nat) (f : Cmd → Cmd) : (modCmd s c f).tasks = s.tasks := by unfold modCmd; split <;> rfl
@[simp] theorem modCmd_keeps_boosts (s : State) (c : Nat) (f : Cmd → Cmd) : (modCmd s c f).boosts = s.boosts := by unfold modCmd; split <;> rfl
@[simp] theorem modCmd_keeps_parts (s : State) (c : Nat) (f : Cmd → Cmd) : (modCmd s c f).parts = s.parts := by unfold modCmd; split <;> rfl
@[simp] theorem modCmd_keeps_vfs (s : State) (c : Nat) (f : Cmd → Cmd) : (modCmd s c f).vfs = s.vfs := by unfold modCmd; split <;> rfl
@[simp] theorem modCmd_keeps_engines (s : State) (c : Nat) (f : Cmd → Cmd) : (modCmd s c f).engines = s.engines := by unfold modCmd; split <;> rfl
@[simp] theorem modCmd_keeps_keys (s : State) (c : Nat) (f : Cmd → Cmd) : (modCmd s c f).keys = s.keys := by unfold modCmd; split <;> rfl
@[simp] theorem modCmd_keeps_comms (s : State) (c : Nat) (f : Cmd → Cmd) : (modCmd s c f).comms = s.comms := by unfold modCmd; split <;> rfl
@[simp] theorem modCmd_keeps_service (s : State) (c : Nat) (f : Cmd → Cmd) : (modCmd s c f).service = s.service := by unfold modCmd; split <;> rfl
@[simp] theorem modCmd_keeps_invals (s : State) (c : Nat) (f : Cmd → Cmd) : (modCmd s c f).invals = s.invals := by unfold modCmd; split <;> rfl
@[simp] theorem modCmd_keeps_prefS (s : State) (c : Nat) (f : Cmd → Cmd) : (modCmd s c f).prefS = s.prefS := by unfold modCmd; split <;> rfl
@[simp] theorem modCmd_keeps_prefP (s : State) (c : Nat) (f : Cmd → Cmd) : (modCmd s c f).prefP = s.prefP := by unfold modCmd; split <;> rfl
@[simp] theorem modCmd_keeps_scrub (s : State) (c : Nat) (f : Cmd → Cmd) : (modCmd s c f).scrub = s.scrub := by unfold modCmd; split <;> rfl
@[simp] theorem modCmd_keeps_sliceCycles (s : State) (c : Nat) (f : Cmd → Cmd) : (modCmd s c f).sliceCycles = s.sliceCycles := by unfold modCmd; split <;> rfl
@[simp] theorem modCmd_keeps_pressCycles (s : State) (c : Nat) (f : Cmd → Cmd) : (modCmd s c f).pressCycles = s.pressCycles := by unfold modCmd; split <;> rfl
@[simp] theorem modCmd_keeps_mgmt (s : State) (c : Nat) (f : Cmd → Cmd) : (modCmd s c f).mgmt = s.mgmt := by unfold modCmd; split <;> rfl
@[simp] theorem modCmd_keeps_boot (s : State) (c : Nat) (f : Cmd → Cmd) : (modCmd s c f).boot = s.boot := by unfold modCmd; split <;> rfl
@[simp] theorem modCmd_keeps_msix (s : State) (c : Nat) (f : Cmd → Cmd) : (modCmd s c f).msix = s.msix := by unfold modCmd; split <;> rfl
@[simp] theorem modCmd_keeps_sched (s : State) (c : Nat) (f : Cmd → Cmd) : (modCmd s c f).sched = s.sched := by unfold modCmd; split <;> rfl
@[simp] theorem modCmd_keeps_tasters (s : State) (c : Nat) (f : Cmd → Cmd) : (modCmd s c f).tasters = s.tasters := by unfold modCmd; split <;> rfl
@[simp] theorem modCmd_keeps_slots (s : State) (c : Nat) (f : Cmd → Cmd) : (modCmd s c f).slots = s.slots := by unfold modCmd; split <;> rfl
@[simp] theorem modCmd_keeps_srcSeq (s : State) (c : Nat) (f : Cmd → Cmd) : (modCmd s c f).srcSeq = s.srcSeq := by unfold modCmd; split <;> rfl
@[simp] theorem modCmd_keeps_islands (s : State) (c : Nat) (f : Cmd → Cmd) : (modCmd s c f).islands = s.islands := by unfold modCmd; split <;> rfl
@[simp] theorem modCmd_keeps_spares (s : State) (c : Nat) (f : Cmd → Cmd) : (modCmd s c f).spares = s.spares := by unfold modCmd; split <;> rfl
@[simp] theorem modCmd_keeps_dead (s : State) (c : Nat) (f : Cmd → Cmd) : (modCmd s c f).dead = s.dead := by unfold modCmd; split <;> rfl
@[simp] theorem modCmd_keeps_corrected (s : State) (c : Nat) (f : Cmd → Cmd) : (modCmd s c f).corrected = s.corrected := by unfold modCmd; split <;> rfl
@[simp] theorem modCmd_keeps_failing (s : State) (c : Nat) (f : Cmd → Cmd) : (modCmd s c f).failing = s.failing := by unfold modCmd; split <;> rfl
@[simp] theorem modCmd_keeps_copying (s : State) (c : Nat) (f : Cmd → Cmd) : (modCmd s c f).copying = s.copying := by unfold modCmd; split <;> rfl
@[simp] theorem modCmd_keeps_returned (s : State) (c : Nat) (f : Cmd → Cmd) : (modCmd s c f).returned = s.returned := by unfold modCmd; split <;> rfl
@[simp] theorem modCmd_keeps_accepted (s : State) (c : Nat) (f : Cmd → Cmd) : (modCmd s c f).accepted = s.accepted := by unfold modCmd; split <;> rfl
@[simp] theorem modCmd_keeps_nextId (s : State) (c : Nat) (f : Cmd → Cmd) : (modCmd s c f).nextId = s.nextId := by unfold modCmd; split <;> rfl
@[simp] theorem modCmd_keeps_cur (s : State) (c : Nat) (f : Cmd → Cmd) : (modCmd s c f).cur = s.cur := by unfold modCmd; split <;> rfl
@[simp] theorem modCmd_keeps_curSlot (s : State) (c : Nat) (f : Cmd → Cmd) : (modCmd s c f).curSlot = s.curSlot := by unfold modCmd; split <;> rfl
@[simp] theorem modCmd_keeps_subj (s : State) (c : Nat) (f : Cmd → Cmd) : (modCmd s c f).subj = s.subj := by unfold modCmd; split <;> rfl
@[simp] theorem modCmd_keeps_tape (s : State) (c : Nat) (f : Cmd → Cmd) : (modCmd s c f).tape = s.tape := by unfold modCmd; split <;> rfl
@[simp] theorem modCmd_keeps_due (s : State) (c : Nat) (f : Cmd → Cmd) : (modCmd s c f).due = s.due := by unfold modCmd; split <;> rfl
@[simp] theorem modCmd_keeps_fresh (s : State) (c : Nat) (f : Cmd → Cmd) : (modCmd s c f).fresh = s.fresh := by unfold modCmd; split <;> rfl

/-! `modTaster` changes no field but `tasters`. -/

@[simp] theorem modTaster_keeps_mem (s : State) (d : Nat) (f : Taster → Taster) : (modTaster s d f).mem = s.mem := rfl
@[simp] theorem modTaster_keeps_tags (s : State) (d : Nat) (f : Taster → Taster) : (modTaster s d f).tags = s.tags := rfl
@[simp] theorem modTaster_keeps_lines (s : State) (d : Nat) (f : Taster → Taster) : (modTaster s d f).lines = s.lines := rfl
@[simp] theorem modTaster_keeps_dir (s : State) (d : Nat) (f : Taster → Taster) : (modTaster s d f).dir = s.dir := rfl
@[simp] theorem modTaster_keeps_cores (s : State) (d : Nat) (f : Taster → Taster) : (modTaster s d f).cores = s.cores := rfl
@[simp] theorem modTaster_keeps_groups (s : State) (d : Nat) (f : Taster → Taster) : (modTaster s d f).groups = s.groups := rfl
@[simp] theorem modTaster_keeps_teams (s : State) (d : Nat) (f : Taster → Taster) : (modTaster s d f).teams = s.teams := rfl
@[simp] theorem modTaster_keeps_launches (s : State) (d : Nat) (f : Taster → Taster) : (modTaster s d f).launches = s.launches := rfl
@[simp] theorem modTaster_keeps_tasks (s : State) (d : Nat) (f : Taster → Taster) : (modTaster s d f).tasks = s.tasks := rfl
@[simp] theorem modTaster_keeps_boosts (s : State) (d : Nat) (f : Taster → Taster) : (modTaster s d f).boosts = s.boosts := rfl
@[simp] theorem modTaster_keeps_parts (s : State) (d : Nat) (f : Taster → Taster) : (modTaster s d f).parts = s.parts := rfl
@[simp] theorem modTaster_keeps_vfs (s : State) (d : Nat) (f : Taster → Taster) : (modTaster s d f).vfs = s.vfs := rfl
@[simp] theorem modTaster_keeps_cmds (s : State) (d : Nat) (f : Taster → Taster) : (modTaster s d f).cmds = s.cmds := rfl
@[simp] theorem modTaster_keeps_engines (s : State) (d : Nat) (f : Taster → Taster) : (modTaster s d f).engines = s.engines := rfl
@[simp] theorem modTaster_keeps_keys (s : State) (d : Nat) (f : Taster → Taster) : (modTaster s d f).keys = s.keys := rfl
@[simp] theorem modTaster_keeps_comms (s : State) (d : Nat) (f : Taster → Taster) : (modTaster s d f).comms = s.comms := rfl
@[simp] theorem modTaster_keeps_service (s : State) (d : Nat) (f : Taster → Taster) : (modTaster s d f).service = s.service := rfl
@[simp] theorem modTaster_keeps_invals (s : State) (d : Nat) (f : Taster → Taster) : (modTaster s d f).invals = s.invals := rfl
@[simp] theorem modTaster_keeps_prefS (s : State) (d : Nat) (f : Taster → Taster) : (modTaster s d f).prefS = s.prefS := rfl
@[simp] theorem modTaster_keeps_prefP (s : State) (d : Nat) (f : Taster → Taster) : (modTaster s d f).prefP = s.prefP := rfl
@[simp] theorem modTaster_keeps_scrub (s : State) (d : Nat) (f : Taster → Taster) : (modTaster s d f).scrub = s.scrub := rfl
@[simp] theorem modTaster_keeps_sliceCycles (s : State) (d : Nat) (f : Taster → Taster) : (modTaster s d f).sliceCycles = s.sliceCycles := rfl
@[simp] theorem modTaster_keeps_pressCycles (s : State) (d : Nat) (f : Taster → Taster) : (modTaster s d f).pressCycles = s.pressCycles := rfl
@[simp] theorem modTaster_keeps_mgmt (s : State) (d : Nat) (f : Taster → Taster) : (modTaster s d f).mgmt = s.mgmt := rfl
@[simp] theorem modTaster_keeps_boot (s : State) (d : Nat) (f : Taster → Taster) : (modTaster s d f).boot = s.boot := rfl
@[simp] theorem modTaster_keeps_msix (s : State) (d : Nat) (f : Taster → Taster) : (modTaster s d f).msix = s.msix := rfl
@[simp] theorem modTaster_keeps_sched (s : State) (d : Nat) (f : Taster → Taster) : (modTaster s d f).sched = s.sched := rfl
@[simp] theorem modTaster_keeps_slots (s : State) (d : Nat) (f : Taster → Taster) : (modTaster s d f).slots = s.slots := rfl
@[simp] theorem modTaster_keeps_srcSeq (s : State) (d : Nat) (f : Taster → Taster) : (modTaster s d f).srcSeq = s.srcSeq := rfl
@[simp] theorem modTaster_keeps_islands (s : State) (d : Nat) (f : Taster → Taster) : (modTaster s d f).islands = s.islands := rfl
@[simp] theorem modTaster_keeps_spares (s : State) (d : Nat) (f : Taster → Taster) : (modTaster s d f).spares = s.spares := rfl
@[simp] theorem modTaster_keeps_dead (s : State) (d : Nat) (f : Taster → Taster) : (modTaster s d f).dead = s.dead := rfl
@[simp] theorem modTaster_keeps_corrected (s : State) (d : Nat) (f : Taster → Taster) : (modTaster s d f).corrected = s.corrected := rfl
@[simp] theorem modTaster_keeps_failing (s : State) (d : Nat) (f : Taster → Taster) : (modTaster s d f).failing = s.failing := rfl
@[simp] theorem modTaster_keeps_copying (s : State) (d : Nat) (f : Taster → Taster) : (modTaster s d f).copying = s.copying := rfl
@[simp] theorem modTaster_keeps_returned (s : State) (d : Nat) (f : Taster → Taster) : (modTaster s d f).returned = s.returned := rfl
@[simp] theorem modTaster_keeps_accepted (s : State) (d : Nat) (f : Taster → Taster) : (modTaster s d f).accepted = s.accepted := rfl
@[simp] theorem modTaster_keeps_nextId (s : State) (d : Nat) (f : Taster → Taster) : (modTaster s d f).nextId = s.nextId := rfl
@[simp] theorem modTaster_keeps_cur (s : State) (d : Nat) (f : Taster → Taster) : (modTaster s d f).cur = s.cur := rfl
@[simp] theorem modTaster_keeps_curSlot (s : State) (d : Nat) (f : Taster → Taster) : (modTaster s d f).curSlot = s.curSlot := rfl
@[simp] theorem modTaster_keeps_subj (s : State) (d : Nat) (f : Taster → Taster) : (modTaster s d f).subj = s.subj := rfl
@[simp] theorem modTaster_keeps_tape (s : State) (d : Nat) (f : Taster → Taster) : (modTaster s d f).tape = s.tape := rfl
@[simp] theorem modTaster_keeps_due (s : State) (d : Nat) (f : Taster → Taster) : (modTaster s d f).due = s.due := rfl
@[simp] theorem modTaster_keeps_fresh (s : State) (d : Nat) (f : Taster → Taster) : (modTaster s d f).fresh = s.fresh := rfl

/-! `modSlot` changes no field but `slots`. -/

@[simp] theorem modSlot_keeps_mem (s : State) (i : Nat) (f : TSlot → TSlot) : (modSlot s i f).mem = s.mem := rfl
@[simp] theorem modSlot_keeps_tags (s : State) (i : Nat) (f : TSlot → TSlot) : (modSlot s i f).tags = s.tags := rfl
@[simp] theorem modSlot_keeps_lines (s : State) (i : Nat) (f : TSlot → TSlot) : (modSlot s i f).lines = s.lines := rfl
@[simp] theorem modSlot_keeps_dir (s : State) (i : Nat) (f : TSlot → TSlot) : (modSlot s i f).dir = s.dir := rfl
@[simp] theorem modSlot_keeps_cores (s : State) (i : Nat) (f : TSlot → TSlot) : (modSlot s i f).cores = s.cores := rfl
@[simp] theorem modSlot_keeps_groups (s : State) (i : Nat) (f : TSlot → TSlot) : (modSlot s i f).groups = s.groups := rfl
@[simp] theorem modSlot_keeps_teams (s : State) (i : Nat) (f : TSlot → TSlot) : (modSlot s i f).teams = s.teams := rfl
@[simp] theorem modSlot_keeps_launches (s : State) (i : Nat) (f : TSlot → TSlot) : (modSlot s i f).launches = s.launches := rfl
@[simp] theorem modSlot_keeps_tasks (s : State) (i : Nat) (f : TSlot → TSlot) : (modSlot s i f).tasks = s.tasks := rfl
@[simp] theorem modSlot_keeps_boosts (s : State) (i : Nat) (f : TSlot → TSlot) : (modSlot s i f).boosts = s.boosts := rfl
@[simp] theorem modSlot_keeps_parts (s : State) (i : Nat) (f : TSlot → TSlot) : (modSlot s i f).parts = s.parts := rfl
@[simp] theorem modSlot_keeps_vfs (s : State) (i : Nat) (f : TSlot → TSlot) : (modSlot s i f).vfs = s.vfs := rfl
@[simp] theorem modSlot_keeps_cmds (s : State) (i : Nat) (f : TSlot → TSlot) : (modSlot s i f).cmds = s.cmds := rfl
@[simp] theorem modSlot_keeps_engines (s : State) (i : Nat) (f : TSlot → TSlot) : (modSlot s i f).engines = s.engines := rfl
@[simp] theorem modSlot_keeps_keys (s : State) (i : Nat) (f : TSlot → TSlot) : (modSlot s i f).keys = s.keys := rfl
@[simp] theorem modSlot_keeps_comms (s : State) (i : Nat) (f : TSlot → TSlot) : (modSlot s i f).comms = s.comms := rfl
@[simp] theorem modSlot_keeps_service (s : State) (i : Nat) (f : TSlot → TSlot) : (modSlot s i f).service = s.service := rfl
@[simp] theorem modSlot_keeps_invals (s : State) (i : Nat) (f : TSlot → TSlot) : (modSlot s i f).invals = s.invals := rfl
@[simp] theorem modSlot_keeps_prefS (s : State) (i : Nat) (f : TSlot → TSlot) : (modSlot s i f).prefS = s.prefS := rfl
@[simp] theorem modSlot_keeps_prefP (s : State) (i : Nat) (f : TSlot → TSlot) : (modSlot s i f).prefP = s.prefP := rfl
@[simp] theorem modSlot_keeps_scrub (s : State) (i : Nat) (f : TSlot → TSlot) : (modSlot s i f).scrub = s.scrub := rfl
@[simp] theorem modSlot_keeps_sliceCycles (s : State) (i : Nat) (f : TSlot → TSlot) : (modSlot s i f).sliceCycles = s.sliceCycles := rfl
@[simp] theorem modSlot_keeps_pressCycles (s : State) (i : Nat) (f : TSlot → TSlot) : (modSlot s i f).pressCycles = s.pressCycles := rfl
@[simp] theorem modSlot_keeps_mgmt (s : State) (i : Nat) (f : TSlot → TSlot) : (modSlot s i f).mgmt = s.mgmt := rfl
@[simp] theorem modSlot_keeps_boot (s : State) (i : Nat) (f : TSlot → TSlot) : (modSlot s i f).boot = s.boot := rfl
@[simp] theorem modSlot_keeps_msix (s : State) (i : Nat) (f : TSlot → TSlot) : (modSlot s i f).msix = s.msix := rfl
@[simp] theorem modSlot_keeps_sched (s : State) (i : Nat) (f : TSlot → TSlot) : (modSlot s i f).sched = s.sched := rfl
@[simp] theorem modSlot_keeps_tasters (s : State) (i : Nat) (f : TSlot → TSlot) : (modSlot s i f).tasters = s.tasters := rfl
@[simp] theorem modSlot_keeps_srcSeq (s : State) (i : Nat) (f : TSlot → TSlot) : (modSlot s i f).srcSeq = s.srcSeq := rfl
@[simp] theorem modSlot_keeps_islands (s : State) (i : Nat) (f : TSlot → TSlot) : (modSlot s i f).islands = s.islands := rfl
@[simp] theorem modSlot_keeps_spares (s : State) (i : Nat) (f : TSlot → TSlot) : (modSlot s i f).spares = s.spares := rfl
@[simp] theorem modSlot_keeps_dead (s : State) (i : Nat) (f : TSlot → TSlot) : (modSlot s i f).dead = s.dead := rfl
@[simp] theorem modSlot_keeps_corrected (s : State) (i : Nat) (f : TSlot → TSlot) : (modSlot s i f).corrected = s.corrected := rfl
@[simp] theorem modSlot_keeps_failing (s : State) (i : Nat) (f : TSlot → TSlot) : (modSlot s i f).failing = s.failing := rfl
@[simp] theorem modSlot_keeps_copying (s : State) (i : Nat) (f : TSlot → TSlot) : (modSlot s i f).copying = s.copying := rfl
@[simp] theorem modSlot_keeps_returned (s : State) (i : Nat) (f : TSlot → TSlot) : (modSlot s i f).returned = s.returned := rfl
@[simp] theorem modSlot_keeps_accepted (s : State) (i : Nat) (f : TSlot → TSlot) : (modSlot s i f).accepted = s.accepted := rfl
@[simp] theorem modSlot_keeps_nextId (s : State) (i : Nat) (f : TSlot → TSlot) : (modSlot s i f).nextId = s.nextId := rfl
@[simp] theorem modSlot_keeps_cur (s : State) (i : Nat) (f : TSlot → TSlot) : (modSlot s i f).cur = s.cur := rfl
@[simp] theorem modSlot_keeps_curSlot (s : State) (i : Nat) (f : TSlot → TSlot) : (modSlot s i f).curSlot = s.curSlot := rfl
@[simp] theorem modSlot_keeps_subj (s : State) (i : Nat) (f : TSlot → TSlot) : (modSlot s i f).subj = s.subj := rfl
@[simp] theorem modSlot_keeps_tape (s : State) (i : Nat) (f : TSlot → TSlot) : (modSlot s i f).tape = s.tape := rfl
@[simp] theorem modSlot_keeps_due (s : State) (i : Nat) (f : TSlot → TSlot) : (modSlot s i f).due = s.due := rfl
@[simp] theorem modSlot_keeps_fresh (s : State) (i : Nat) (f : TSlot → TSlot) : (modSlot s i f).fresh = s.fresh := rfl

/-! `send` changes no field but `due`. -/

@[simp] theorem send_keeps_mem (s : State) (ev : Instr) (x : Subj) : (send s ev x).mem = s.mem := by unfold send; split <;> rfl
@[simp] theorem send_keeps_tags (s : State) (ev : Instr) (x : Subj) : (send s ev x).tags = s.tags := by unfold send; split <;> rfl
@[simp] theorem send_keeps_lines (s : State) (ev : Instr) (x : Subj) : (send s ev x).lines = s.lines := by unfold send; split <;> rfl
@[simp] theorem send_keeps_dir (s : State) (ev : Instr) (x : Subj) : (send s ev x).dir = s.dir := by unfold send; split <;> rfl
@[simp] theorem send_keeps_cores (s : State) (ev : Instr) (x : Subj) : (send s ev x).cores = s.cores := by unfold send; split <;> rfl
@[simp] theorem send_keeps_groups (s : State) (ev : Instr) (x : Subj) : (send s ev x).groups = s.groups := by unfold send; split <;> rfl
@[simp] theorem send_keeps_teams (s : State) (ev : Instr) (x : Subj) : (send s ev x).teams = s.teams := by unfold send; split <;> rfl
@[simp] theorem send_keeps_launches (s : State) (ev : Instr) (x : Subj) : (send s ev x).launches = s.launches := by unfold send; split <;> rfl
@[simp] theorem send_keeps_tasks (s : State) (ev : Instr) (x : Subj) : (send s ev x).tasks = s.tasks := by unfold send; split <;> rfl
@[simp] theorem send_keeps_boosts (s : State) (ev : Instr) (x : Subj) : (send s ev x).boosts = s.boosts := by unfold send; split <;> rfl
@[simp] theorem send_keeps_parts (s : State) (ev : Instr) (x : Subj) : (send s ev x).parts = s.parts := by unfold send; split <;> rfl
@[simp] theorem send_keeps_vfs (s : State) (ev : Instr) (x : Subj) : (send s ev x).vfs = s.vfs := by unfold send; split <;> rfl
@[simp] theorem send_keeps_cmds (s : State) (ev : Instr) (x : Subj) : (send s ev x).cmds = s.cmds := by unfold send; split <;> rfl
@[simp] theorem send_keeps_engines (s : State) (ev : Instr) (x : Subj) : (send s ev x).engines = s.engines := by unfold send; split <;> rfl
@[simp] theorem send_keeps_keys (s : State) (ev : Instr) (x : Subj) : (send s ev x).keys = s.keys := by unfold send; split <;> rfl
@[simp] theorem send_keeps_comms (s : State) (ev : Instr) (x : Subj) : (send s ev x).comms = s.comms := by unfold send; split <;> rfl
@[simp] theorem send_keeps_service (s : State) (ev : Instr) (x : Subj) : (send s ev x).service = s.service := by unfold send; split <;> rfl
@[simp] theorem send_keeps_invals (s : State) (ev : Instr) (x : Subj) : (send s ev x).invals = s.invals := by unfold send; split <;> rfl
@[simp] theorem send_keeps_prefS (s : State) (ev : Instr) (x : Subj) : (send s ev x).prefS = s.prefS := by unfold send; split <;> rfl
@[simp] theorem send_keeps_prefP (s : State) (ev : Instr) (x : Subj) : (send s ev x).prefP = s.prefP := by unfold send; split <;> rfl
@[simp] theorem send_keeps_scrub (s : State) (ev : Instr) (x : Subj) : (send s ev x).scrub = s.scrub := by unfold send; split <;> rfl
@[simp] theorem send_keeps_sliceCycles (s : State) (ev : Instr) (x : Subj) : (send s ev x).sliceCycles = s.sliceCycles := by unfold send; split <;> rfl
@[simp] theorem send_keeps_pressCycles (s : State) (ev : Instr) (x : Subj) : (send s ev x).pressCycles = s.pressCycles := by unfold send; split <;> rfl
@[simp] theorem send_keeps_mgmt (s : State) (ev : Instr) (x : Subj) : (send s ev x).mgmt = s.mgmt := by unfold send; split <;> rfl
@[simp] theorem send_keeps_boot (s : State) (ev : Instr) (x : Subj) : (send s ev x).boot = s.boot := by unfold send; split <;> rfl
@[simp] theorem send_keeps_msix (s : State) (ev : Instr) (x : Subj) : (send s ev x).msix = s.msix := by unfold send; split <;> rfl
@[simp] theorem send_keeps_sched (s : State) (ev : Instr) (x : Subj) : (send s ev x).sched = s.sched := by unfold send; split <;> rfl
@[simp] theorem send_keeps_tasters (s : State) (ev : Instr) (x : Subj) : (send s ev x).tasters = s.tasters := by unfold send; split <;> rfl
@[simp] theorem send_keeps_slots (s : State) (ev : Instr) (x : Subj) : (send s ev x).slots = s.slots := by unfold send; split <;> rfl
@[simp] theorem send_keeps_srcSeq (s : State) (ev : Instr) (x : Subj) : (send s ev x).srcSeq = s.srcSeq := by unfold send; split <;> rfl
@[simp] theorem send_keeps_islands (s : State) (ev : Instr) (x : Subj) : (send s ev x).islands = s.islands := by unfold send; split <;> rfl
@[simp] theorem send_keeps_spares (s : State) (ev : Instr) (x : Subj) : (send s ev x).spares = s.spares := by unfold send; split <;> rfl
@[simp] theorem send_keeps_dead (s : State) (ev : Instr) (x : Subj) : (send s ev x).dead = s.dead := by unfold send; split <;> rfl
@[simp] theorem send_keeps_corrected (s : State) (ev : Instr) (x : Subj) : (send s ev x).corrected = s.corrected := by unfold send; split <;> rfl
@[simp] theorem send_keeps_failing (s : State) (ev : Instr) (x : Subj) : (send s ev x).failing = s.failing := by unfold send; split <;> rfl
@[simp] theorem send_keeps_copying (s : State) (ev : Instr) (x : Subj) : (send s ev x).copying = s.copying := by unfold send; split <;> rfl
@[simp] theorem send_keeps_returned (s : State) (ev : Instr) (x : Subj) : (send s ev x).returned = s.returned := by unfold send; split <;> rfl
@[simp] theorem send_keeps_accepted (s : State) (ev : Instr) (x : Subj) : (send s ev x).accepted = s.accepted := by unfold send; split <;> rfl
@[simp] theorem send_keeps_nextId (s : State) (ev : Instr) (x : Subj) : (send s ev x).nextId = s.nextId := by unfold send; split <;> rfl
@[simp] theorem send_keeps_cur (s : State) (ev : Instr) (x : Subj) : (send s ev x).cur = s.cur := by unfold send; split <;> rfl
@[simp] theorem send_keeps_curSlot (s : State) (ev : Instr) (x : Subj) : (send s ev x).curSlot = s.curSlot := by unfold send; split <;> rfl
@[simp] theorem send_keeps_subj (s : State) (ev : Instr) (x : Subj) : (send s ev x).subj = s.subj := by unfold send; split <;> rfl
@[simp] theorem send_keeps_tape (s : State) (ev : Instr) (x : Subj) : (send s ev x).tape = s.tape := by unfold send; split <;> rfl
@[simp] theorem send_keeps_fresh (s : State) (ev : Instr) (x : Subj) : (send s ev x).fresh = s.fresh := by unfold send; split <;> rfl

end Sys2Proof.Machine
end

