-- ==== Sys2Proof/Laws/Tasks.lean ====
section
/-! SUPPORT. How the task words issue. -/

namespace Sys2Proof.Machine

/-- A task word with E empty. -/
theorem issueFut_empty (s : State) (h : Nat) (g : Group) (f : FOps) (io : Io) (ready) (why) (acts) (hc : current s = some (h, g))
   (he : effSet (endWins g.ctx) g.w f.k f.kn = 0) (hb : blocked (endWins g.ctx) (io.under (effSet (endWins g.ctx) g.w f.k f.kn)) = false)
   (g' : Group) (hg : groupOf (setGroup s h (ended g)) h = some g') :
   issueFut s f io ready why acts = .next (retire (setGroup s h (ended g)) h g' io 1 (if f.u then 1 else laneCycles g.w (effSet g.ctx g.w f.k f.kn)) {}) := by
  unfold issueFut
  simp only [hc]
  rw [if_neg (by rw [Bool.not_eq_true]; exact hb), if_pos he]
  rw [show groupOf (setGroup s h { g with ctx := endWins g.ctx }) h = some g' from hg]
  rfl

/-- A task word that faults. -/
theorem issueFut_bad (s : State) (h : Nat) (g : Group) (f : FOps) (io : Io) (ready) (why) (acts) (hc : current s = some (h, g))
   (he : effSet (endWins g.ctx) g.w f.k f.kn ≠ 0) (hb : blocked (endWins g.ctx) (io.under (effSet (endWins g.ctx) g.w f.k f.kn)) = false)
   (b) (u) (ht : futTry (setGroup s h (ended g)) h f.u (accsOf (endWins g.ctx) g.w f false none (effSet (endWins g.ctx) g.w f.k f.kn) (fun _ => 0) fun _ => 0) (why (effSet (endWins g.ctx) g.w f.k f.kn)) = .bad b u) :
   issueFut s f io ready why acts = .next (raise u h (badRec (endWins g.ctx) (effSet (endWins g.ctx) g.w f.k f.kn) b)) := by
  have ht' : futTry (setGroup s h { g with ctx := endWins g.ctx }) h f.u (accsOf (endWins g.ctx) g.w f false none (effSet (endWins g.ctx) g.w f.k f.kn) (fun _ => 0) fun _ => 0) (why (effSet (endWins g.ctx) g.w f.k f.kn)) = .bad b u := ht
  unfold issueFut
  simp only [hc]
  rw [if_neg (by rw [Bool.not_eq_true]; exact hb), if_neg he]
  rw [ht']

/-- A task word that acts. -/
theorem issueFut_go (s : State) (h : Nat) (g : Group) (f : FOps) (io : Io) (ready) (why) (acts) (hc : current s = some (h, g))
   (he : effSet (endWins g.ctx) g.w f.k f.kn ≠ 0) (hb : blocked (endWins g.ctx) (io.under (effSet (endWins g.ctx) g.w f.k f.kn)) = false)
   (ps) (u) (ht : futTry (setGroup s h (ended g)) h f.u (accsOf (endWins g.ctx) g.w f false none (effSet (endWins g.ctx) g.w f.k f.kn) (fun _ => 0) fun _ => 0) (why (effSet (endWins g.ctx) g.w f.k f.kn)) = .go ps u)
   (gc : Group) (hgc : groupOf (fallBack (forbid u h (effSet (endWins g.ctx) g.w f.k f.kn)) h) h = some gc)
   (hr : ready (fallBack (forbid u h (effSet (endWins g.ctx) g.w f.k f.kn)) h) h gc = (true, fallBack (forbid u h (effSet (endWins g.ctx) g.w f.k f.kn)) h))
   (v) (ha : acts (effSet (endWins g.ctx) g.w f.k f.kn) (fallBack (forbid u h (effSet (endWins g.ctx) g.w f.k f.kn)) h) h gc ps = some v)
   (g' : Group) (hg : groupOf v h = some g') :
   issueFut s f io ready why acts = .next (retire v h g' io 1 (if f.u then 1 else laneCycles g.w (effSet (endWins g.ctx) g.w f.k f.kn)) {}) := by
  have ht' : futTry (setGroup s h { g with ctx := endWins g.ctx }) h f.u (accsOf (endWins g.ctx) g.w f false none (effSet (endWins g.ctx) g.w f.k f.kn) (fun _ => 0) fun _ => 0) (why (effSet (endWins g.ctx) g.w f.k f.kn)) = .go ps u := ht
  unfold issueFut
  simp only [hc]
  rw [if_neg (by rw [Bool.not_eq_true]; exact hb), if_neg he]
  rw [ht']
  dsimp only
  rw [hgc]
  dsimp only
  rw [hr]
  dsimp only
  rw [ha]
  simp only [Bool.not_true]
  rw [hg]
  rfl

/-- `AWAIT`. -/
theorem await_goes (s : State) (h : Nat) (g : Group) (f : FOps) (hc : current s = some (h, g))
   (hb : blocked (endWins g.ctx) (({ ur := [f.a.toNat], uw := [f.d.toNat] } : Io).under (effSet (endWins g.ctx) g.w f.k f.kn)) = false)
   (he2 : ¬ effSet (endWins g.ctx) g.w f.k f.kn = 0)
   (e) (ps) (u) (gc : Group)
   (ht : futTry (setGroup s h { g with ctx := endWins g.ctx }) h true (accsOf (endWins g.ctx) g.w f false none (effSet (endWins g.ctx) g.w f.k f.kn) (fun _ => 0) fun _ => 0) (fun s _ _ _ p => if badState (partWord s p) then some 5 else none) = .go (e :: ps) u)
   (hgc' : groupOf (fallBack (forbid u h (effSet (endWins g.ctx) g.w f.k f.kn)) h) h = some gc) :
   execAwait f s = .next (awaitWord (fallBack (forbid u h (effSet (endWins g.ctx) g.w f.k f.kn)) h) f h gc e.2) := by
    unfold execAwait
    simp only [hc]
    rw [if_neg (by rw [Bool.not_eq_true]; exact hb), if_neg he2, ht]
    dsimp only
    rw [hgc']

/-- `SPAWN`. -/
theorem spawn_goes (s : State) (h : Nat) (g : Group) (f : FOps) (hc : current s = some (h, g))
   (hb : blocked (endWins g.ctx) (({ ur := [f.a.toNat], vr := run f.b.toNat f.c.toNat, vw := [f.d.toNat], lr := if f.lrB then run f.b.toNat f.c.toNat else [] } : Io).under (effSet (endWins g.ctx) g.w f.k f.kn)) = false)
   (he2 : ¬ effSet (endWins g.ctx) g.w f.k f.kn = 0) (h1 : goodPc (readS (endWins g.ctx) f.a.toNat) = true) :
   execSpawn f s = spawnFrom (setGroup s h (ended g)) h (ended g) f { ur := [f.a.toNat], vr := run f.b.toNat f.c.toNat, vw := [f.d.toNat], lr := if f.lrB then run f.b.toNat f.c.toNat else [] } (effSet g.ctx g.w f.k f.kn) := by
    unfold execSpawn
    simp only [hc]
    rw [if_neg (by rw [Bool.not_eq_true]; exact hb), if_neg he2, if_neg (by rw [h1]; decide)]
    rfl

/-- `PARK`. -/
theorem park_goes (s : State) (h : Nat) (g : Group) (f : FOps) (hc : current s = some (h, g))
   (hb : blocked (endWins g.ctx) ((if f.mod = 1 then { ur := [f.a.toNat] } else {} : Io).under (effSet (endWins g.ctx) g.w f.k f.kn)) = false)
   (he2 : ¬ effSet (endWins g.ctx) g.w f.k f.kn = 0) :
   execPark f s = parkFrom (setGroup s h (ended g)) h (ended g) f (effSet g.ctx g.w f.k f.kn) := by
    unfold execPark
    simp only [hc]
    rw [if_neg (by rw [Bool.not_eq_true]; exact hb), if_neg he2]
    rfl

end Sys2Proof.Machine
end

