-- ==== Sys2Proof/Laws/Transactions.lean ====
section
/-! SUPPORT. What dooming and opening transactions do, and what shuts a region. -/

namespace Sys2Proof.Machine

/-- A doomed transaction. -/
theorem doomThread_at (u : State) (h th cause user : Nat) (g1 : Group) (y : Tx) (hg : groupOf u h = some g1) (hy : find g1.ctx.tx th = some y) :
        (y.doom ≠ 0 → doomThread u h th cause user = u)
        ∧ (y.doom = 0 → ∃ g2, groupOf (doomThread u h th cause user) h = some g2
          ∧ (let z : Tx := { y with doom := cause, user := user, wlines := [], rlines := [], rbytes := [] }
            g2 = { g1 with ctx := { g1.ctx with tx := put g1.ctx.tx th z } })
          ∧ (doomThread u h th cause user).mem = u.mem ∧ (doomThread u h th cause user).lines = u.lines
          ∧ ∀ p ∈ (coreOf (doomThread u h th cause user) g1.core).pend, ¬(p.g = h ∧ p.t = some th)) := by
  unfold doomThread
  rw [hg]
  dsimp only
  rw [hy]
  dsimp only
  refine ⟨fun h1 => by rw [if_pos h1], fun h1 => ?_⟩
  rw [if_neg (by simpa using h1)]
  refine ⟨_, ?_, rfl, rfl, rfl, ?_⟩
  · rw [(beyond_dropTxLines ..).group, groupOf_setGroup, if_pos rfl]
  · intro p hp
    unfold dropTxLines at hp
    rw [coreOf_modCore, if_pos rfl] at hp
    simp only [List.mem_filter] at hp
    rintro ⟨e1, e2⟩
    simp [e1, e2] at hp

/-- Transactions that open. -/
theorem openTx_fresh (l : List Nat) (u : State) (h : Nat) (g1 : Group) (hg : groupOf u h = some g1) (hn : l.Nodup) (hf : ∀ th ∈ l, find g1.ctx.tx th = none) :
    ∃ g2, groupOf (each l u fun u th => openTx u h th) h = some g2 ∧ g2 = { g1 with ctx := { g1.ctx with tx := g2.ctx.tx } }
      ∧ ∀ th, find g2.ctx.tx th = if th ∈ l then some {} else find g1.ctx.tx th := by
  induction l generalizing u g1 with
  | nil => exact ⟨g1, hg, rfl, fun th => by simp⟩
  | cons a l ih =>
    have e : groupOf (openTx u h a) h = some { g1 with ctx := { g1.ctx with tx := put g1.ctx.tx a {} } } := by
      unfold openTx
      rw [hg]
      dsimp only
      rw [if_neg (by unfold inTx; rw [hf a (by simp)]; simp)]
      unfold modCtx
      rw [modGroup_group, if_pos rfl, hg]
      rfl
    rw [List.nodup_cons] at hn
    obtain ⟨g2, i1, i2, i3⟩ := ih (openTx u h a) _ e hn.2 (by
      intro th hth
      show find (put g1.ctx.tx a {}) th = none
      rw [find_put, if_neg (by rintro rfl; exact hn.1 hth)]
      exact hf th (by simp [hth]))
    refine ⟨g2, i1, i2, fun th => ?_⟩
    rw [i3]
    show (if th ∈ l then _ else find (put g1.ctx.tx a {}) th) = _
    rw [find_put]
    by_cases h1 : th ∈ l
    · simp [h1]
    · by_cases h2 : th = a <;> simp [h1, h2]

/-- A closed transaction. -/
theorem txShut (h th c : Nat) (v : State) :
   (modCtx (dropTxLines v h c (some th)) h fun x => { x with tx := del x.tx th }).mem = v.mem ∧ (modCtx (dropTxLines v h c (some th)) h fun x => { x with tx := del x.tx th }).lines = v.lines := by
  unfold modCtx modGroup
  split <;> exact ⟨rfl, rfl⟩

/-- Without transactions nothing is doomed. -/
theorem forbid_none (s : State) (h : Nat) (g : Group) (eff : Word) (hg : groupOf s h = some g) (ht : g.ctx.tx = []) : forbid s h eff = s := by
  unfold forbid doomThreads
  rw [hg]
  dsimp only
  rw [ht]; rfl

/-- What a table is read as stands in it. -/
theorem find_mem {α : Type} (t : Tbl α) (k : Nat) (v : α) (h : find t k = some v) : (k, v) ∈ t := by
  induction t with
  | nil => cases h
  | cons x t ih =>
    obtain ⟨j, w⟩ := x
    unfold find at h
    split at h
    · rename_i e; injection h with h; subst e; subst h; exact List.mem_cons_self ..
    · exact List.mem_cons_of_mem _ (ih h)

/-- A core all of whose near and pending lines lie under one key slot. -/
def OneSlot (k : Core) (sl : Nat) : Prop := (∀ n ∈ k.near, n.2.slot = sl) ∧ ∀ p ∈ k.pend, p.slot = sl

/-- A pending line that becomes dirty, all lines of its core lying under one slot. -/
theorem pendToDirty_one (u : State) (c sl : Nat) (p : PendLine) (ho : OneSlot (coreOf u c) sl) (hp : p.slot = sl) :
    (pendToDirty u c p).mem = u.mem ∧ OneSlot (coreOf (pendToDirty u c p) c) sl := by
  have hs : pendToDirty u c p = modCore u c fun k =>
      let k := { k with pend := k.pend.filter (· != p) }
      match find k.near p.la with
      | some n => { k with near := put k.near p.la { n with
          st := if n.st == .exclusive then .exclusive else .dirty, data := mergeLine n.data p.data p.mask
          mask := n.mask ||| p.mask, dirtied := min n.dirtied p.dirtied } }
      | none => { k with near := put k.near p.la { st := .dirty, data := p.data, mask := p.mask, slot := p.slot, use := k.stamp
                                                   dirtied := p.dirtied, blk := p.blk } } := by
    unfold pendToDirty
    dsimp only
    cases hn : nearLine u c p.la with
    | none => rfl
    | some n => dsimp only; rw [if_pos ((ho.1 (p.la, n) (find_mem _ _ n hn)).trans hp.symm)] <;> rfl
  rw [hs]
  refine ⟨rfl, ?_⟩
  rw [coreOf_modCore, if_pos rfl]
  dsimp only
  split
  · rename_i n hn
    refine ⟨fun m hm => ?_, fun q hq => ho.2 q (List.mem_filter.1 hq).1⟩
    rcases mem_put _ _ _ _ hm with h | h
    · rw [h]; exact ho.1 (p.la, n) (find_mem _ _ n hn)
    · exact ho.1 _ h
  · refine ⟨fun m hm => ?_, fun q hq => ho.2 q (List.mem_filter.1 hq).1⟩
    rcases mem_put _ _ _ _ hm with h | h
    · rw [h]; exact hp
    · exact ho.1 _ h

/-- The end of an open region, all lines of its core lying under one key slot. -/
theorem endRegion_spec (u : State) (h : Nat) (g1 : Group) (hg : groupOf u h = some g1) (hr : g1.ctx.region.getLsbD 0 = true) (sl : Nat)
    (ho : OneSlot (coreOf u g1.core) sl) :
   (endRegion u h).mem = u.mem ∧ groupOf (endRegion u h) h = some { g1 with ctx := { g1.ctx with region := 0, ckpt := none } } := by
  have sp : ∀ (l : List PendLine) (u : State), OneSlot (coreOf u g1.core) sl → (∀ p ∈ l, p.slot = sl) →
      (each l u fun s p => pendToDirty s g1.core p).mem = u.mem := by
    intro l
    induction l with
    | nil => intro u _ _; rfl
    | cons a l ih =>
      intro u hu hl
      obtain ⟨m, o⟩ := pendToDirty_one u g1.core sl a hu (hl a (by simp))
      exact (ih (pendToDirty u g1.core a) o fun p hp => hl p (by simp [hp])).trans m
  have fr : ∀ (u : State) c ps, (freeRegs u c ps).mem = u.mem := by
    intro u c ps
    unfold freeRegs
    dsimp only
    split
    · rfl
    · unfold send; split <;> rfl
  have mg : ∀ (u : State) h (F : Group → Group), (modGroup u h F).mem = u.mem := by
    intro u h F; unfold modGroup; split <;> rfl
  unfold endRegion
  rw [hg]
  dsimp only
  rw [if_pos hr]
  constructor
  · rw [fr]; unfold modCtx; rw [mg]; exact sp _ u ho fun p hp => ho.2 p (List.mem_filter.1 hp).1
  · rw [(beyond_freeRegs ..).group]
    unfold modCtx
    rw [modGroup_group, if_pos rfl, (beyond_settlePend ..).group, hg]
    rfl

/-- A context that is loaded. -/
theorem loadCtx_shape (s : State) (c w : Nat) (x : Ctx) : (loadCtx s c w x).1 = { x with v := (loadCtx s c w x).1.v } ∧ ∀ h, groupOf (loadCtx s c w x).2 h = groupOf s h := by
  have key : ∀ (l : Tbl VReg) (a : Ctx × State), 
     let r := l.foldl (fun (a : Ctx × State) (p : Nat × VReg) => ({ a.1 with v := put a.1.v p.1 { p.2 with pid := freePid (coreOf a.2 c) } }, setCore a.2 c { coreOf a.2 c with pregs := put (coreOf a.2 c).pregs (freePid (coreOf a.2 c)) { rows := rowsOf w } })) a
     r.1 = { a.1 with v := r.1.v } ∧ ∀ h, groupOf r.2 h = groupOf a.2 h := by
    intro l
    induction l with
    | nil => intro a; exact ⟨rfl, fun _ => rfl⟩
    | cons p l ih =>
      intro a
      obtain ⟨i1, i2⟩ := ih ({ a.1 with v := put a.1.v p.1 { p.2 with pid := freePid (coreOf a.2 c) } }, setCore a.2 c { coreOf a.2 c with pregs := put (coreOf a.2 c).pregs (freePid (coreOf a.2 c)) { rows := rowsOf w } })
      exact ⟨i1, fun h => (i2 h).trans rfl⟩
  exact key x.v (x, s)

/-- A shadow context that is taken. -/
theorem takeShadow_spec (u v : State) (h : Nat) (g1 : Group) (x y : Ctx) (hd : takeShadow u h g1 x y = .done v) :
   ∃ g' y', groupOf v h = some g' ∧ g' = { g1 with shadow := some y' } ∧ y' = { y with v := y'.v, wins := y'.wins } := by
  unfold takeShadow at hd
  dsimp only at hd
  generalize (match y.ckpt with | some c => c.v.map fun (r : Nat × VReg) => r.2.pid | none => []) = kept at hd
  generalize hx : (!rowsFree _ _ _) = bb at hd
  cases bb
  case true => cases hd
  case false =>
    injection hd with hd
    subst hd
    refine ⟨_, _, by rw [groupOf_setGroup, if_pos rfl], rfl, ?_⟩
    rw [(loadCtx_shape ..).1]

/-- Translations that are dropped from cores. -/
theorem tlb_each (cores : List Nat) (p : Leaf → Bool) (s : State) (c : Nat) :
    (coreOf (each cores s fun s c => modCore s c fun k => { k with tlb := k.tlb.filter p }) c).tlb
      = if c ∈ cores then (coreOf s c).tlb.filter p else (coreOf s c).tlb := by
  induction cores generalizing s with
  | nil => rfl
  | cons a l ih =>
    refine (ih _).trans ?_
    rw [coreOf_modCore]
    by_cases h1 : c = a
    · subst h1
      by_cases h2 : c ∈ l <;> simp [h2]
    · by_cases h2 : c ∈ l <;> simp [h1, h2]

theorem each_groups (cores : List Nat) (F : State → Nat → State) (hF : ∀ s c h, groupOf (F s c) h = groupOf s h) (s : State) (h : Nat) :
    groupOf (each cores s F) h = groupOf s h := by
  induction cores generalizing s with
  | nil => rfl
  | cons a l ih => exact (ih _).trans (hF s a h)

theorem modGroup_cores (s : State) (h : Nat) (F : Group → Group) (c : Nat) : coreOf (modGroup s h F) c = coreOf s c := by
  unfold modGroup; split <;> rfl

/-- A `TLBI` that begins. -/
theorem tlbi_begins (s : State) (h : Nat) (g : Group) (hg : groupOf s h = some g) (who : Option Nat) (cores : List Nat) (p : Nat) (i : InvalidateScope) :
    let t := modCtx (beginInval s who cores (some p) i) h fun x => { x with phase := 1 }
    (∀ c ∈ cores, ∀ l ∈ (coreOf t c).tlb, ¬(leafMeets s i l = true ∧ (partAsids s p).contains l.asid = true))
    ∧ (∀ c, c ∉ cores → (coreOf t c).tlb = (coreOf s c).tlb)
    ∧ ∃ g', groupOf t h = some g' ∧ g'.ctx = { g.ctx with phase := 1 } := by
  intro t
  have key : ∀ c, (coreOf t c).tlb = if c ∈ cores then (coreOf s c).tlb.filter (fun l => !(leafMeets s i l && (partAsids s p).contains l.asid)) else (coreOf s c).tlb := by
    intro c
    show (coreOf (modCtx (beginInval s who cores (some p) i) h _) c).tlb = _
    unfold modCtx beginInval
    rw [modGroup_cores]
    dsimp only
    rw [coreOf_send]
    exact tlb_each cores (fun l => !(leafMeets s i l && (partAsids s p).contains l.asid)) s c
  refine ⟨fun c hc l hl => ?_, fun c hc => ?_, ?_⟩
  · rw [key, if_pos hc, List.mem_filter] at hl
    intro ⟨h1, h2⟩
    have := hl.2
    rw [h1, h2] at this
    cases this
  · rw [key, if_neg hc]
  · have : groupOf (beginInval s who cores (some p) i) h = some g := by
      unfold beginInval
      dsimp only
      rw [send_group]
      exact (each_groups cores (fun s c => modCore s c fun k => { k with tlb := k.tlb.filter fun l => !(leafMeets _ i l && (partAsids _ p).contains l.asid) }) (fun _ _ _ => rfl) s h).trans hg
    refine ⟨{ g with ctx := { g.ctx with phase := 1 } }, ?_, rfl⟩
    show groupOf (modCtx (beginInval s who cores (some p) i) h fun x => { x with phase := 1 }) h = _
    unfold modCtx
    rw [modGroup_group, if_pos rfl, this]
    rfl

end Sys2Proof.Machine
end

