-- ==== Sys2Proof/Tests/Slice0.lean ====
section
/-! SUPPORT. The model's own tests: legal and illegal words, decoding against words written out from the spec, single
steps, and for each statement states that meet its hypotheses. -/

namespace Sys2Proof.Tests

set_option Elab.async false

open Sys2Proof.Machine Sys2Proof.Claims

/-- The words decode to the instruction, which is legal and encodes to them. -/
def decodesTo (l : List (List Word × Instr)) : Bool :=
  l.all fun (ws, i) => match decode ws with | .ok j => j == i && i.wf && encode i == ws | .error _ => false

/-- The filter words decode to the instruction, which is legal and encodes to them. -/
def filtersTo (l : List (W32 × Instr)) : Bool :=
  l.all fun (w, i) => match decodeFilter w with | .ok j => j == i && i.wf && encode i == [w.setWidth 64] | .error _ => false

/-- Decoding of control flow and the sink and region words, written out from 05 R95 to R107. -/
theorem test_decode_control : decodesTo [
    ([0x0000000000000000], .nop plain),
    ([0x00D8000000000000, 0xFFFFFFF000000009], .br { plain with k := 5, kn := true } 0xFFFFFFF000000009),
    ([0x01000007FE800001], .join { plain with b := 63, c := 61, x := 1 }),
    ([0x0180000000000000, 0x0000000080000001], .call plain 0x0000000080000001),
    ([0x0200000000000000], .ret plain),
    ([0x0280050803808001, 0x0000000200000001, 0x0000000000000003], .btab { plain with d := 2, a := 33, lrA := true, c := 7, x := 1 } [0x0000000200000001, 0x0000000000000003]),
    ([0x03003E0000010000, 0x00000000FFFFFFF0], .loopu { plain with d := 31, u := true } 0x00000000FFFFFFF0),
    ([0x03B8000000000000], .exit { plain with k := 3, kn := true }),
    ([0x043D800000000144], .sink { plain with k := 3, kn := true, mod := 5, la := 11, x := 4 }),
    ([0x0480000000000000], .region plain),
    ([0x0500000000000000], .commit plain),
    ([0x05800003FF800001], .yield_ { plain with b := 31, c := 63, x := 1 }),
    ([0x0638000000800001], .bpt { plain with k := 3, kn := true, c := 1, x := 1 }),
    ([0x0690000026800001], .trap { plain with k := 1, b := 1, c := 13, x := 1 })] = true := by decide +kernel

/-- Decoding of integer and bit words, written out from 05 R95 to R107. -/
theorem test_decode_integer_1 : decodesTo [
    ([0x083818A48034C408], .iadd { plain with k := 3, kn := true, d := 12, a := 20, b := 36, na := .left, nb := .right, edge := .wrap, lrA := true, lrB := true, ty := .i16, sat := true }),
    ([0x0890104C00000A01], .isub { plain with k := 1, d := 8, a := 9, ty := .n8, b := 32, x := 1 }),
    ([0x093818A480000800], .imul { plain with k := 3, kn := true, d := 12, a := 20, b := 36, ty := .i64 }),
    ([0x0980021060000E00], .imulh { plain with d := 1, a := 2, b := 3, ty := .n32 }),
    ([0x0A70021062002208], .imad { plain with k := 7, d := 1, a := 2, b := 3, c := 4, lrC := true, ty := .i8, sat := true }),
    ([0x0A800420C3801000], .iaddc { plain with d := 2, a := 4, b := 6, c := 7, ty := .n64 }),
    ([0x0B003EF3A0010C00], .imin { plain with d := 31, a := 30, b := 29, u := true, ty := .n16 }),
    ([0x0B8018A48034C600], .imax { plain with d := 12, a := 20, b := 36, na := .left, nb := .right, edge := .wrap, lrA := true, lrB := true, ty := .i32 }),
    ([0x0C000A3000420408], .iabs { plain with d := 5, a := 6, na := .right, edge := .clamp, ty := .i16, sat := true }),
    ([0x0C80083000009000], .ineg { plain with d := 4, a := 6, lrA := true, ty := .n64 }),
    ([0x0D3F821060000608], .idiv { plain with k := 3, kn := true, la := 15, d := 1, a := 2, b := 3, ty := .i32, sat := true }),
    ([0x0D80821005000E01], .irem { plain with la := 1, d := 1, a := 2, ty := .n32, c := 10, x := 1 }),
    ([0x0E200FFFC0080D40], .icmp { plain with k := 2, d := 7, a := 63, b := 62, nb := .left, ty := .n16, mod := 5 }),
    ([0x0E800C4120001BC0], .lea { plain with d := 6, a := 8, b := 9, ty := .b64, mod := 7 }),
    ([0x0F00021063000000], .sel { plain with d := 1, a := 2, b := 3, c := 6 }),
    ([0x0F80106000009C00], .mov { plain with d := 8, a := 12, lrA := true, ty := .b128 })] = true := by decide +kernel

/-- Decoding of integer and bit words, written out from 05 R95 to R107. -/
theorem test_decode_integer_2 : decodesTo [
    ([0x1000106200001C00], .and_ { plain with d := 8, a := 12, b := 16, ty := .b128 }),
    ([0x1080062FFF800001], .or_ { plain with d := 3, a := 5, b := 63, c := 63, x := 1 }),
    ([0x11000420C0005A00], .xor_ { plain with d := 2, a := 4, b := 6, lrB := true, ty := .b64 }),
    ([0x11C0021000000000], .not_ { plain with k := 4, d := 1, a := 2 }),
    ([0x1200021060010000], .andn { plain with d := 1, a := 2, b := 3, u := true }),
    ([0x1280021060000000], .shl { plain with d := 1, a := 2, b := 3 }),
    ([0x130004201F801A01], .shr { plain with d := 2, a := 4, ty := .b64, c := 63, x := 1 }),
    ([0x1380021060120000], .sar { plain with d := 1, a := 2, b := 3, nb := .right, edge := .clamp }),
    ([0x140002100F800001], .rol { plain with d := 1, a := 2, c := 31, x := 1 }),
    ([0x1480042000001A00], .popc { plain with d := 2, a := 4, ty := .b64 }),
    ([0x1500021000200000], .clz { plain with d := 1, a := 2, na := .left }),
    ([0x1580021000008000], .brev { plain with d := 1, a := 2, lrA := true }),
    ([0x16000210A2800E01], .bfx { plain with d := 1, a := 2, ty := .n32, b := 5, c := 5, x := 1 }),
    ([0x16B802106200A000], .bfi { plain with k := 3, kn := true, d := 1, a := 2, b := 3, c := 4, lrA := true, lrC := true }),
    ([0x1700021062004000], .perm { plain with d := 1, a := 2, b := 3, c := 4, lrB := true }),
    ([0x1790140000001A00, 0x0123456789ABCDEF], .movi { plain with k := 1, d := 10, ty := .b64 } 0x0123456789ABCDEF)] = true := by decide +kernel

/-- Decoding of float and conversion words, written out from 05 R95 to R107. -/
theorem test_decode_float_1 : decodesTo [
    ([0x180018A48034D438], .fadd { plain with d := 12, a := 20, b := 36, na := .left, nb := .right, edge := .wrap, lrA := true, lrB := true, ty := .bf16x2, rm := .rd, sat := true }),
    ([0x18800217FD801621], .fsub { plain with d := 1, a := 2, ty := .f32, rm := .ru, b := 63, c := 59, x := 1 }),
    ([0x1900021060001210], .fmul { plain with d := 1, a := 2, b := 3, ty := .f16x2, rm := .rz }),
    ([0x1980021062003610], .ffma { plain with d := 1, a := 2, b := 3, c := 4, lrC := true, ty := .f32, rm := .rz }),
    ([0x1A00021060001600], .fmin { plain with d := 1, a := 2, b := 3, ty := .f32 }),
    ([0x1A80021060011400], .fmax { plain with d := 1, a := 2, b := 3, u := true, ty := .bf16x2 }),
    ([0x1B00021000001200], .fabs { plain with d := 1, a := 2, ty := .f16x2 }),
    ([0x1B80021000401600], .fneg { plain with d := 1, a := 2, na := .right, ty := .f32 }),
    ([0x1C000E10600017C0], .fcmp { plain with d := 7, a := 2, b := 3, ty := .f32, mod := 7 }),
    ([0x1C80021000001800], .fclass { plain with d := 1, a := 2, ty := .f64 }),
    ([0x1D01821000001608], .frcp { plain with la := 3, d := 1, a := 2, ty := .f32, sat := true }),
    ([0x1D82021000001600], .frsq { plain with la := 4, d := 1, a := 2, ty := .f32 }),
    ([0x1E02821000009600], .fsqrt { plain with la := 5, d := 1, a := 2, lrA := true, ty := .f32 }),
    ([0x1E83021000001600], .fex2 { plain with la := 6, d := 1, a := 2, ty := .f32 }),
    ([0x1F03821000001600], .flg2 { plain with la := 7, d := 1, a := 2, ty := .f32 }),
    ([0x1F84021000001640], .ftrig { plain with la := 8, d := 1, a := 2, ty := .f32, mod := 1 })] = true := by decide +kernel

/-- Decoding of float and conversion words, written out from 05 R95 to R107. -/
theorem test_decode_float_2 : decodesTo [
    ([0x20000420C0001828], .dadd { plain with d := 2, a := 4, b := 6, ty := .f64, rm := .ru, sat := true }),
    ([0x2080042001801801], .dsub { plain with d := 2, a := 4, ty := .f64, c := 3, x := 1 }),
    ([0x21000420C0201800], .dmul { plain with d := 2, a := 4, b := 6, na := .left, ty := .f64 }),
    ([0x21800420C4001830], .dfma { plain with d := 2, a := 4, b := 6, c := 8, ty := .f64, rm := .rd }),
    ([0x22000420C0001800], .dmin { plain with d := 2, a := 4, b := 6, ty := .f64 }),
    ([0x22800420C0001800], .dmax { plain with d := 2, a := 4, b := 6, ty := .f64 }),
    ([0x23000220C0001980], .dcmp { plain with d := 1, a := 4, b := 6, ty := .f64, mod := 6 }),
    ([0x2381042000001800], .drcp { plain with la := 2, d := 2, a := 4, ty := .f64 }),
    ([0x2404842000001808], .dsqrt { plain with la := 9, d := 2, a := 4, ty := .f64, sat := true }),
    ([0x2480021006000618], .cvt { plain with d := 1, a := 2, c := 12, ty := .i32, rm := .rz, sat := true }),
    ([0x2500021002801640], .cvtb { plain with d := 1, a := 2, c := 5, ty := .f32, mod := 1 }),
    ([0x2580042000001830], .frnd { plain with d := 2, a := 4, ty := .f64, rm := .rd }),
    ([0x26000420E0001828], .fscl { plain with d := 2, a := 4, b := 7, ty := .f64, rm := .ru, sat := true })] = true := by decide +kernel

/-- Decoding of group and mask words, written out from 05 R95 to R107. -/
theorem test_decode_group : decodesTo [
    ([0x28101340000000C0], .vote { plain with k := 1, d := 9, a := 40, mod := 3 }),
    ([0x28800420E0005AC0], .shfl { plain with d := 2, a := 4, b := 7, lrB := true, ty := .b64, mod := 3 }),
    ([0x291108180000860A], .gscan { plain with k := 1, la := 2, d := 4, a := 3, lrA := true, ty := .i32, sat := true, x := 2 }),
    ([0x2980BE1800001642], .gred { plain with la := 1, d := 31, a := 3, ty := .f32, mod := 1, x := 2 }),
    ([0x2A000A3008800041], .bcast { plain with d := 5, a := 6, mod := 1, c := 17, x := 1 }),
    ([0x2A800C4000001A00], .match_ { plain with d := 6, a := 8, ty := .b64 }),
    ([0x2B000E2860010080], .kop { plain with d := 7, a := 5, b := 3, u := true, mod := 2 }),
    ([0x2BA00D48000080C0], .kmov { plain with k := 2, d := 6, a := 41, lrA := true, mod := 3 })] = true := by decide +kernel

/-- Decoding of memory and atomic words, written out from 05 R95 to R107. -/
theorem test_decode_memory_1 : decodesTo [
    ([0x3039081020001C04], .ld { plain with k := 3, kn := true, la := 2, d := 4, a := 2, b := 1, ty := .b128, x := 4 } 0),
    ([0x3080020000000306, 0x0000000000000020], .lds { plain with d := 1, ty := .i8, mod := 4, x := 6 } 0x0000000000000020),
    ([0x31008397FE008C01], .ldp { plain with la := 1, d := 1, a := 50, lrA := true, ty := .n16, b := 63, c := 60, x := 1 } 0),
    ([0x3180042000010800], .ldc { plain with d := 2, a := 4, u := true, ty := .i64 } 0),
    ([0x3201843000001A1A], .lda { plain with la := 3, d := 2, a := 6, ty := .b64, x := 2, rm := .rz, sat := true } 0),
    ([0x32C00E1000000F02, 0xFFFFFFFFFFFFFFF8], .ldx { plain with k := 4, d := 7, a := 2, ty := .n32, mod := 4, x := 2 } 0xFFFFFFFFFFFFFFF8),
    ([0x3300004000000080], .pref { plain with a := 8, mod := 2 }),
    ([0x38000A1820006004], .st { plain with d := 5, a := 3, b := 1, lrB := true, lrC := true, x := 4 } 0),
    ([0x3880104808001C01], .sts { plain with d := 8, a := 9, ty := .b128, c := 16, x := 1 } 0),
    ([0x3900120002802A07], .stp { plain with d := 9, ty := .n8, lrC := true, c := 5, x := 7 } 0),
    ([0x3980202800001A22], .strl { plain with d := 16, a := 5, ty := .b64, x := 2, rm := .ru } 0),
    ([0x3A00004000010000], .clean { plain with a := 8, u := true }),
    ([0x3A80004800000002], .inval { plain with a := 9, x := 2 }),
    ([0x3B10000000000040], .flushn { plain with k := 1, mod := 1 }),
    ([0x40028610C200362C], .atom { plain with la := 5, d := 3, a := 2, b := 6, c := 4, lrC := true, ty := .f32, x := 4, rm := .ru, sat := true }),
    ([0x4080081004001A0A], .acas { plain with d := 4, a := 2, c := 8, ty := .b64, x := 2, sat := true })] = true := by decide +kernel

/-- Decoding of memory and atomic words, written out from 05 R95 to R107. -/
theorem test_decode_memory_2 : decodesTo [
    ([0x4100002001800750], .aredn { plain with a := 4, c := 3, ty := .i32, mod := 5, rm := .rz }),
    ([0x4183821801000FC0], .atoms { plain with la := 7, d := 1, a := 3, c := 2, ty := .n32, mod := 7 })] = true := by decide +kernel

/-- Decoding of synchronisation, transaction and task words, written out from 05 R95 to R107. -/
theorem test_decode_sync : decodesTo [
    ([0x48000000000000A8], .fence { plain with mod := 2, rm := .ru, sat := true }),
    ([0x48801E0008000001], .barw { plain with d := 15, c := 16, x := 1 }),
    ([0x49000E0000000000], .bara { plain with d := 7 }),
    ([0x4980060000800001], .drain { plain with d := 3, c := 1, x := 1 }),
    ([0x4A00000000000000], .txb plain),
    ([0x4A80060000000000], .txe { plain with d := 3 }),
    ([0x4B1000007F800001], .txa { plain with k := 1, b := 3, c := 63, x := 1 }),
    ([0x4B80080000000000], .txq { plain with d := 4 }),
    ([0x4C0006001F800001], .waite { plain with d := 3, c := 63, x := 1 }),
    ([0x50500C3941800040], .spawn { plain with k := 5, d := 6, a := 7, b := 10, c := 3, mod := 1 }),
    ([0x50800C4FFF810001], .await_ { plain with d := 6, a := 9, u := true, b := 63, c := 63, x := 1 }),
    ([0x5100002805000042], .resolve { plain with a := 5, c := 10, mod := 1, x := 2 }),
    ([0x51A0003804810041], .park { plain with k := 2, a := 7, u := true, mod := 1, c := 9, x := 1 }),
    ([0x5200104940010000], .steal { plain with d := 8, a := 9, b := 10, u := true }),
    ([0x5280004000010000], .role { plain with a := 8, u := true }),
    ([0x5300002004000001], .futnew { plain with a := 4, c := 8, x := 1 })] = true := by decide +kernel

/-- Decoding of matrix and engine words, written out from 05 R95 to R107. -/
theorem test_decode_engine : decodesTo [
    ([0x5811C0830300D942], .mma { plain with k := 1, la := 3, d := 32, a := 16, b := 24, c := 6, lrA := true, lrB := true, ty := .f64, mod := 5, x := 2 }),
    ([0x58806021000017C0], .mmaz { plain with d := 48, a := 4, b := 8, ty := .f32, mod := 7 }),
    ([0x5904E030000000C2], .mlds { plain with la := 9, d := 48, a := 6, mod := 3, x := 2 }),
    ([0x5980084FE0002081], .msts { plain with d := 4, a := 9, lrC := true, mod := 2, b := 63, x := 1 }),
    ([0x5A00086000000C00], .mtrn { plain with d := 4, a := 12, ty := .n16 }),
    ([0x602000DA80011646], .tmma { plain with k := 2, a := 27, b := 20, u := true, ty := .f32, mod := 1, x := 6 }),
    ([0x6080083100010044], .copy { plain with d := 4, a := 6, b := 8, u := true, mod := 1, x := 4 }),
    ([0x6100004800010002], .coll { plain with a := 9, u := true, x := 2 }),
    ([0x6180008146010002, 0x0000000000002020, 0x0000000000000000, 0x0000000000030000], .press { plain with a := 16, b := 10, c := 12, u := true, x := 2 } 0x2020 0x0 0x30000),
    ([0x6200083105010006, 0x0123456789ABCDEF, 0x0000000000001801, 0x0000000076543210], .lnest { plain with d := 4, a := 6, b := 8, c := 10, u := true, x := 6 } 0x123456789ABCDEF 0x1801 0x76543210),
    ([0x6298004800010000], .tdep { plain with k := 1, kn := true, a := 9, u := true }),
    ([0x630000E700011644], .tstore { plain with a := 28, b := 56, u := true, ty := .f32, mod := 1, x := 4 }),
    ([0x638000F800010006], .tzero { plain with a := 31, u := true, x := 6 }),
    ([0x6400000000010002], .ecancel { plain with u := true, x := 2 })] = true := by decide +kernel

/-- Decoding of system words, written out from 05 R95 to R107. -/
theorem test_decode_system : decodesTo [
    ([0x6800025000000000], .rds { plain with d := 1, a := 10 }),
    ([0x6880122000010000], .wrs { plain with d := 9, a := 4, u := true }),
    ([0x690001E064008001], .event { plain with a := 60, lrA := true, b := 3, c := 8, x := 1 }),
    ([0x69800A0000010000], .clockc { plain with d := 5, u := true }),
    ([0x7000000000010000], .tret { plain with u := true }),
    ([0x7080002000010080], .tlbi { plain with a := 4, u := true, mod := 2 }),
    ([0x7100003800010000], .ctxsv { plain with a := 7, u := true }),
    ([0x7180004000010000], .ctxld { plain with a := 8, u := true }),
    ([0x7200001800010042], .killt { plain with a := 3, u := true, mod := 1, x := 2 }),
    ([0x7280000000010000], .halt { plain with u := true })] = true := by decide +kernel

/-- Decoding of pair words, the operation of slot A, written out from 05 R112, R113. -/
theorem test_decode_pair_a_1 : decodesTo [
    ([0x800000000448EA00], .pairNop ⟨0, 0, .self, false, false, 0, false, false⟩ ⟨.iaddI32, ⟨9, 7, .left, false, true, 0, false, false⟩⟩),
    ([0x812AC9C00438A010], .pairMov ⟨10, 44, .right, false, true, 6, false, false⟩ ⟨.iaddI32, ⟨7, 5, .self, false, false, 0, false, true⟩⟩),
    ([0x822ACBC00448EA00], .pairIaddI32 ⟨10, 44, .right, true, true, 6, false, false⟩ ⟨.iaddI32, ⟨9, 7, .left, false, true, 0, false, false⟩⟩),
    ([0x832ACBC00438A010], .pairIsubI32 ⟨10, 44, .right, true, true, 6, false, false⟩ ⟨.iaddI32, ⟨7, 5, .self, false, false, 0, false, true⟩⟩),
    ([0x842ACBC00448EA00], .pairIminI32 ⟨10, 44, .right, true, true, 6, false, false⟩ ⟨.iaddI32, ⟨9, 7, .left, false, true, 0, false, false⟩⟩),
    ([0x852ACBC00438A010], .pairImaxI32 ⟨10, 44, .right, true, true, 6, false, false⟩ ⟨.iaddI32, ⟨7, 5, .self, false, false, 0, false, true⟩⟩),
    ([0x862ACBC00448EA00], .pairIminN32 ⟨10, 44, .right, true, true, 6, false, false⟩ ⟨.iaddI32, ⟨9, 7, .left, false, true, 0, false, false⟩⟩),
    ([0x872ACBC00438A010], .pairImaxN32 ⟨10, 44, .right, true, true, 6, false, false⟩ ⟨.iaddI32, ⟨7, 5, .self, false, false, 0, false, true⟩⟩),
    ([0x882ACBC00448EA00], .pairAnd ⟨10, 44, .right, true, true, 6, false, false⟩ ⟨.iaddI32, ⟨9, 7, .left, false, true, 0, false, false⟩⟩),
    ([0x892ACBC00438A010], .pairOr ⟨10, 44, .right, true, true, 6, false, false⟩ ⟨.iaddI32, ⟨7, 5, .self, false, false, 0, false, true⟩⟩),
    ([0x8A2ACBC00448EA00], .pairXor ⟨10, 44, .right, true, true, 6, false, false⟩ ⟨.iaddI32, ⟨9, 7, .left, false, true, 0, false, false⟩⟩),
    ([0x8B2ACBC00438A010], .pairAndn ⟨10, 44, .right, true, true, 6, false, false⟩ ⟨.iaddI32, ⟨7, 5, .self, false, false, 0, false, true⟩⟩),
    ([0x8C2ACBC00448EA00], .pairShl ⟨10, 44, .right, true, true, 6, false, false⟩ ⟨.iaddI32, ⟨9, 7, .left, false, true, 0, false, false⟩⟩),
    ([0x8D2ACBC00438A010], .pairShr ⟨10, 44, .right, true, true, 6, false, false⟩ ⟨.iaddI32, ⟨7, 5, .self, false, false, 0, false, true⟩⟩),
    ([0x8E2ACBC00448EA00], .pairSar ⟨10, 44, .right, true, true, 6, false, false⟩ ⟨.iaddI32, ⟨9, 7, .left, false, true, 0, false, false⟩⟩),
    ([0x8F2ACBC00438A010], .pairFaddF32 ⟨10, 44, .right, true, true, 6, false, false⟩ ⟨.iaddI32, ⟨7, 5, .self, false, false, 0, false, true⟩⟩)] = true := by decide +kernel

/-- Decoding of pair words, the operation of slot A, written out from 05 R112, R113. -/
theorem test_decode_pair_a_2 : decodesTo [
    ([0x902ACBC00448EA00], .pairFmulF32 ⟨10, 44, .right, true, true, 6, false, false⟩ ⟨.iaddI32, ⟨9, 7, .left, false, true, 0, false, false⟩⟩)] = true := by decide +kernel

/-- Decoding of pair words, the operation of slot A, written out from 05 R112, R113. -/
theorem test_decode_pair_b_1 : decodesTo [
    ([0x912ACBC00438A010], .pairFminF32 ⟨10, 44, .right, true, true, 6, false, false⟩ ⟨.iaddI32, ⟨7, 5, .self, false, false, 0, false, true⟩⟩),
    ([0x922ACBC00448EA00], .pairFmaxF32 ⟨10, 44, .right, true, true, 6, false, false⟩ ⟨.iaddI32, ⟨9, 7, .left, false, true, 0, false, false⟩⟩),
    ([0x932ACBC00438A010], .pairFaddBf16x2 ⟨10, 44, .right, true, true, 6, false, false⟩ ⟨.iaddI32, ⟨7, 5, .self, false, false, 0, false, true⟩⟩),
    ([0x942ACBC00448EA00], .pairFmulBf16x2 ⟨10, 44, .right, true, true, 6, false, false⟩ ⟨.iaddI32, ⟨9, 7, .left, false, true, 0, false, false⟩⟩),
    ([0x952ACBC00438A010], .pairFminBf16x2 ⟨10, 44, .right, true, true, 6, false, false⟩ ⟨.iaddI32, ⟨7, 5, .self, false, false, 0, false, true⟩⟩),
    ([0x962ACBC00448EA00], .pairFmaxBf16x2 ⟨10, 44, .right, true, true, 6, false, false⟩ ⟨.iaddI32, ⟨9, 7, .left, false, true, 0, false, false⟩⟩),
    ([0x972ACBC00438A010], .pairIaddI64 ⟨10, 44, .right, true, true, 6, false, false⟩ ⟨.iaddI32, ⟨7, 5, .self, false, false, 0, false, true⟩⟩),
    ([0x982ACBC00448EA00], .pairIsubI64 ⟨10, 44, .right, true, true, 6, false, false⟩ ⟨.iaddI32, ⟨9, 7, .left, false, true, 0, false, false⟩⟩),
    ([0xA029D0700448EA00], .pairMovImm ⟨10, 29, .self, false, false, 3, true, false⟩ ⟨.iaddI32, ⟨9, 7, .left, false, true, 0, false, false⟩⟩),
    ([0xA129D0700438A010], .pairIaddI32Imm ⟨10, 29, .self, false, false, 3, true, false⟩ ⟨.iaddI32, ⟨7, 5, .self, false, false, 0, false, true⟩⟩),
    ([0xA229D0700448EA00], .pairAndImm ⟨10, 29, .self, false, false, 3, true, false⟩ ⟨.iaddI32, ⟨9, 7, .left, false, true, 0, false, false⟩⟩),
    ([0xA329D0700438A010], .pairOrImm ⟨10, 29, .self, false, false, 3, true, false⟩ ⟨.iaddI32, ⟨7, 5, .self, false, false, 0, false, true⟩⟩),
    ([0xA429D0700448EA00], .pairXorImm ⟨10, 29, .self, false, false, 3, true, false⟩ ⟨.iaddI32, ⟨9, 7, .left, false, true, 0, false, false⟩⟩),
    ([0xA529D0700438A010], .pairShlImm ⟨10, 29, .self, false, false, 3, true, false⟩ ⟨.iaddI32, ⟨7, 5, .self, false, false, 0, false, true⟩⟩),
    ([0xA629D0700448EA00], .pairShrImm ⟨10, 29, .self, false, false, 3, true, false⟩ ⟨.iaddI32, ⟨9, 7, .left, false, true, 0, false, false⟩⟩),
    ([0xA729D0700438A010], .pairSarImm ⟨10, 29, .self, false, false, 3, true, false⟩ ⟨.iaddI32, ⟨7, 5, .self, false, false, 0, false, true⟩⟩)] = true := by decide +kernel

/-- Decoding of pair words, the operation of slot A, written out from 05 R112, R113. -/
theorem test_decode_pair_b_2 : decodesTo [
    ([0xA829D0700448EA00], .pairIaddI64Imm ⟨10, 29, .self, false, false, 3, true, false⟩ ⟨.iaddI32, ⟨9, 7, .left, false, true, 0, false, false⟩⟩)] = true := by decide +kernel

/-- Decoding of pair words, the operation of slot B, written out from 05 R112, R113. -/
theorem test_decode_pair_slot_b_1 : decodesTo [
    ([0x8000000000000000], .pairNop ⟨0, 0, .self, false, false, 0, false, false⟩ ⟨.nop, ⟨0, 0, .self, false, false, 0, false, false⟩⟩),
    ([0x8000000002B06010], .pairNop ⟨0, 0, .self, false, false, 0, false, false⟩ ⟨.mov, ⟨22, 3, .self, false, false, 0, false, true⟩⟩),
    ([0x8000000004B1C140], .pairNop ⟨0, 0, .self, false, false, 0, false, false⟩ ⟨.iaddI32, ⟨22, 14, .self, false, false, 5, false, false⟩⟩),
    ([0x8000000006B06010], .pairNop ⟨0, 0, .self, false, false, 0, false, false⟩ ⟨.isubI32, ⟨22, 3, .self, false, false, 0, false, true⟩⟩),
    ([0x8000000008B1C140], .pairNop ⟨0, 0, .self, false, false, 0, false, false⟩ ⟨.iminI32, ⟨22, 14, .self, false, false, 5, false, false⟩⟩),
    ([0x800000000AB06010], .pairNop ⟨0, 0, .self, false, false, 0, false, false⟩ ⟨.imaxI32, ⟨22, 3, .self, false, false, 0, false, true⟩⟩),
    ([0x800000000CB1C140], .pairNop ⟨0, 0, .self, false, false, 0, false, false⟩ ⟨.iminN32, ⟨22, 14, .self, false, false, 5, false, false⟩⟩),
    ([0x800000000EB06010], .pairNop ⟨0, 0, .self, false, false, 0, false, false⟩ ⟨.imaxN32, ⟨22, 3, .self, false, false, 0, false, true⟩⟩),
    ([0x8000000010B1C140], .pairNop ⟨0, 0, .self, false, false, 0, false, false⟩ ⟨.and32, ⟨22, 14, .self, false, false, 5, false, false⟩⟩),
    ([0x8000000012B06010], .pairNop ⟨0, 0, .self, false, false, 0, false, false⟩ ⟨.or32, ⟨22, 3, .self, false, false, 0, false, true⟩⟩),
    ([0x8000000014B1C140], .pairNop ⟨0, 0, .self, false, false, 0, false, false⟩ ⟨.xor32, ⟨22, 14, .self, false, false, 5, false, false⟩⟩),
    ([0x8000000016B06010], .pairNop ⟨0, 0, .self, false, false, 0, false, false⟩ ⟨.andn32, ⟨22, 3, .self, false, false, 0, false, true⟩⟩),
    ([0x8000000018B1C140], .pairNop ⟨0, 0, .self, false, false, 0, false, false⟩ ⟨.shl32, ⟨22, 14, .self, false, false, 5, false, false⟩⟩),
    ([0x800000001AB06010], .pairNop ⟨0, 0, .self, false, false, 0, false, false⟩ ⟨.shr32, ⟨22, 3, .self, false, false, 0, false, true⟩⟩),
    ([0x800000001CB1C140], .pairNop ⟨0, 0, .self, false, false, 0, false, false⟩ ⟨.sar32, ⟨22, 14, .self, false, false, 5, false, false⟩⟩),
    ([0x800000001EB06010], .pairNop ⟨0, 0, .self, false, false, 0, false, false⟩ ⟨.faddF32, ⟨22, 3, .self, false, false, 0, false, true⟩⟩)] = true := by decide +kernel

/-- Decoding of pair words, the operation of slot B, written out from 05 R112, R113. -/
theorem test_decode_pair_slot_b_2 : decodesTo [
    ([0x8000000020B1C140], .pairNop ⟨0, 0, .self, false, false, 0, false, false⟩ ⟨.fmulF32, ⟨22, 14, .self, false, false, 5, false, false⟩⟩),
    ([0x8000000022B06010], .pairNop ⟨0, 0, .self, false, false, 0, false, false⟩ ⟨.fminF32, ⟨22, 3, .self, false, false, 0, false, true⟩⟩),
    ([0x8000000024B1C140], .pairNop ⟨0, 0, .self, false, false, 0, false, false⟩ ⟨.fmaxF32, ⟨22, 14, .self, false, false, 5, false, false⟩⟩),
    ([0x8000000026B06010], .pairNop ⟨0, 0, .self, false, false, 0, false, false⟩ ⟨.faddBf16x2, ⟨22, 3, .self, false, false, 0, false, true⟩⟩),
    ([0x8000000028B1C140], .pairNop ⟨0, 0, .self, false, false, 0, false, false⟩ ⟨.fmulBf16x2, ⟨22, 14, .self, false, false, 5, false, false⟩⟩),
    ([0x800000002AB06010], .pairNop ⟨0, 0, .self, false, false, 0, false, false⟩ ⟨.fminBf16x2, ⟨22, 3, .self, false, false, 0, false, true⟩⟩),
    ([0x800000002CB1C140], .pairNop ⟨0, 0, .self, false, false, 0, false, false⟩ ⟨.fmaxBf16x2, ⟨22, 14, .self, false, false, 5, false, false⟩⟩),
    ([0x800000002EB06010], .pairNop ⟨0, 0, .self, false, false, 0, false, false⟩ ⟨.iaddI64, ⟨22, 3, .self, false, false, 0, false, true⟩⟩),
    ([0x8000000030B1C140], .pairNop ⟨0, 0, .self, false, false, 0, false, false⟩ ⟨.isubI64, ⟨22, 14, .self, false, false, 5, false, false⟩⟩),
    ([0x8000000040B1C140], .pairNop ⟨0, 0, .self, false, false, 0, false, false⟩ ⟨.movImm, ⟨22, 14, .self, false, false, 5, false, false⟩⟩),
    ([0x8000000042B06010], .pairNop ⟨0, 0, .self, false, false, 0, false, false⟩ ⟨.iaddI32Imm, ⟨22, 3, .self, false, false, 0, false, true⟩⟩),
    ([0x8000000044B1C140], .pairNop ⟨0, 0, .self, false, false, 0, false, false⟩ ⟨.andImm, ⟨22, 14, .self, false, false, 5, false, false⟩⟩),
    ([0x8000000046B06010], .pairNop ⟨0, 0, .self, false, false, 0, false, false⟩ ⟨.orImm, ⟨22, 3, .self, false, false, 0, false, true⟩⟩),
    ([0x8000000048B1C140], .pairNop ⟨0, 0, .self, false, false, 0, false, false⟩ ⟨.xorImm, ⟨22, 14, .self, false, false, 5, false, false⟩⟩),
    ([0x800000004AB06010], .pairNop ⟨0, 0, .self, false, false, 0, false, false⟩ ⟨.shlImm, ⟨22, 3, .self, false, false, 0, false, true⟩⟩),
    ([0x800000004CB1C140], .pairNop ⟨0, 0, .self, false, false, 0, false, false⟩ ⟨.shrImm, ⟨22, 14, .self, false, false, 5, false, false⟩⟩)] = true := by decide +kernel

/-- Decoding of pair words, the operation of slot B, written out from 05 R112, R113. -/
theorem test_decode_pair_slot_b_3 : decodesTo [
    ([0x800000004EB06010], .pairNop ⟨0, 0, .self, false, false, 0, false, false⟩ ⟨.sarImm, ⟨22, 3, .self, false, false, 0, false, true⟩⟩),
    ([0x8000000050B1C140], .pairNop ⟨0, 0, .self, false, false, 0, false, false⟩ ⟨.iaddI64Imm, ⟨22, 14, .self, false, false, 5, false, false⟩⟩)] = true := by decide +kernel

/-- Decoding of every filter word, written out from 22 R395. -/
theorem test_decode_filter : filtersTo [
    (0x00000000, .filterEnd ⟨0, 0, 0, 0⟩),
    (0x05000002, .filterLdf ⟨4, 0, 0, 2⟩),
    (0x09003FFF, .filterSeti ⟨4, 0, 0, 16383⟩),
    (0x0D278000, .filterAdd ⟨4, 9, 14, 0⟩),
    (0x11243FFD, .filterAddi ⟨4, 9, 0, 16381⟩),
    (0x15278000, .filterSub ⟨4, 9, 14, 0⟩),
    (0x19278000, .filterAnd ⟨4, 9, 14, 0⟩),
    (0x1D240015, .filterAndi ⟨4, 9, 0, 21⟩),
    (0x21278000, .filterOr ⟨4, 9, 14, 0⟩),
    (0x25278000, .filterXor ⟨4, 9, 14, 0⟩),
    (0x2924001F, .filterShli ⟨4, 9, 0, 31⟩),
    (0x2D240011, .filterShri ⟨4, 9, 0, 17⟩),
    (0x31278000, .filterSltu ⟨4, 9, 14, 0⟩),
    (0x35240015, .filterCeqi ⟨4, 9, 0, 21⟩),
    (0x38240004, .filterBz ⟨0, 9, 0, 4⟩),
    (0x3C24002F, .filterBnz ⟨0, 9, 0, 47⟩),
    (0x40000009, .filterJmp ⟨0, 0, 0, 9⟩),
    (0x4524000C, .filterLdw ⟨4, 9, 0, 12⟩),
    (0x49240021, .filterStw ⟨4, 9, 0, 33⟩),
    (0x4D240015, .filterHash ⟨4, 9, 0, 21⟩),
    (0x51278015, .filterHinc ⟨4, 9, 14, 21⟩),
    (0x55240015, .filterCms ⟨4, 9, 0, 21⟩),
    (0x58240015, .filterHll ⟨0, 9, 0, 21⟩),
    (0x5C240001, .filterTrig ⟨0, 9, 0, 1⟩),
    (0x60000000, .filterSnap ⟨0, 0, 0, 0⟩)] = true := by decide +kernel

/-- No such instruction is well-formed, and no such word decodes. -/
def refused (l : List Instr) : Bool :=
  l.all fun i => !i.wf && (match decode (encode i) with | .ok _ => false | .error _ => true)

/-- A `PRESS` word whose operator program, and an `LNEST` word whose operation or pattern, the entry refuses (08 R216,
R217, R219 to R221, R411). -/
theorem test_ill_formed_words : refused [
    .press { plain with u := true } 0 0 0,
    .press { plain with u := true } 0x2020 0 0x20000,
    .press { plain with u := true } 0x1F 0 0x10000,
    .press { plain with u := true } 0x2020 1 0x30000,
    .press { plain with u := true } 0x2020 0 0x30040,
    .press { plain with u := true } 0x2020 0 0x230000,
    .press { plain with u := true, a := 28 } 0x2020 0 0x30000,
    .lnest { plain with u := true } 0 10 0,
    .lnest { plain with u := true } 0 0x20001 0,
    .lnest { plain with u := true } 0 16 0,
    .lnest { plain with u := true } 0 0x21 0,
    .lnest { plain with u := true } 0 1 0x100000000,
    .lnest { plain with u := true, b := 1 } 0 0 0] = true := by decide +kernel

/-- A pair slot the rules refuse (05 R113, R114). -/
theorem test_ill_formed_pair : refused [
    .pairNop { plainSlot 1 0 with } ⟨.nop, plainSlot 0 0⟩,
    .pairMov { plainSlot 1 2 with kn := true } ⟨.nop, plainSlot 0 0⟩,
    .pairMov { plainSlot 32 2 with u := true } ⟨.nop, plainSlot 0 0⟩,
    .pairMov { plainSlot 1 2 with lrd := true } ⟨.nop, plainSlot 0 0⟩,
    .pairAnd { plainSlot 1 2 with u := true, ns := .left } ⟨.nop, plainSlot 0 0⟩,
    .pairOr { plainSlot 1 2 with u := true, lrs := true } ⟨.nop, plainSlot 0 0⟩,
    .pairAndImm { plainSlot 1 2 with ns := .right } ⟨.nop, plainSlot 0 0⟩,
    .pairShlImm (plainSlot 1 32) ⟨.nop, plainSlot 0 0⟩,
    .pairIaddI64 (plainSlot 1 2) ⟨.nop, plainSlot 0 0⟩,
    .pairNop (plainSlot 0 0) ⟨.isubI64, plainSlot 2 5⟩,
    .pairNop (plainSlot 0 0) ⟨.movImm, { plainSlot 2 5 with lrs := true }⟩] = true := by decide +kernel

/-- Words beyond those an instruction has: an F form with an immediate word, a table of the wrong length (05 R103, R105). -/
theorem test_ill_formed_length :
    (Instr.ld plain 1).wf = false ∧ (Instr.btab { plain with d := 2, x := 1 } [0]).wf = false := by decide +kernel

/-- A filter word with a field its row does not use, and a device event, which is no word (22 R395). -/
theorem test_ill_formed_filter :
    (Instr.filterEnd ⟨0, 0, 0, 1⟩).wf = false ∧ (Instr.filterLdf ⟨1, 1, 0, 0⟩).wf = false
    ∧ (Instr.filterAdd ⟨1, 1, 1, 1⟩).wf = false ∧ (Instr.filterJmp ⟨0, 0, 1, 1⟩).wf = false
    ∧ (Instr.storeAck).wf = false := by decide +kernel

/-- Words that no entry reads: unassigned opcodes, type code 15, the reserved neighbour and edge codes, an unassigned
pair operation, the reserved bits of a pair word, too few words (05 R91, R95, R99, R107, R108, R112, R113). -/
theorem test_reserved_words :
    decode [0x0700000000000000] = .error (.unassignedOpcode 0x0E)
    ∧ decode [0x7F80000000000000] = .error (.unassignedOpcode 0xFF)
    ∧ decode [0x0800000000001E00] = .error .reservedType
    ∧ decode [0x0800000000600600] = .error .reservedNeighbour
    ∧ decode [0x0800000000180600] = .error .reservedNeighbour
    ∧ decode [0x0800000000060600] = .error .reservedNeighbour
    ∧ decode [0x9900000000000000] = .error (.unassignedPairOp 0x19)
    ∧ decode [0x8000000000000001] = .error .pairReserved
    ∧ decode [0x8000000100000000] = .error .pairReserved
    ∧ decode [0x0080000000000000] = .error (.missingWords 2)
    ∧ decode [] = .error .noWords
    ∧ decodeFilter 0x64000000 = .error (.unassignedFilterOp 0x19)
    ∧ decodeFilter 1 = .error .filterUnused := by decide +kernel

/-- Refused: a field against its entry (05 R96 to R100). -/
theorem test_ill_formed_fields_1 : refused [
    /- type -/ .iadd { plain with ty := .f32 },
    /- mod -/ .icmp { plain with d := 1, ty := .i32, mod := 6 },
    /- low mod bits of a load -/ .ld { plain with mod := 1 } 0x0,
    /- lookahead -/ .iadd { plain with ty := .i32, la := 1 },
    /- scope -/ .fence { plain with rm := .rd },
    /- rounding -/ .iadd { plain with ty := .i32, rm := .rz },
    /- saturation -/ .imin { plain with ty := .i32, sat := true },
    /- U on a control word -/ .nop { plain with u := true },
    /- no U on a uniform word -/ .role plain,
    /- kn without k -/ .iadd { plain with ty := .i32, kn := true },
    /- mask -/ .join { plain with k := 1, x := 1 },
    /- uniform b128 -/ .mov { plain with ty := .b128, u := true },
    /- immediate with a source c -/ .imad { plain with ty := .i32, x := 1 },
    /- immediate missing -/ .txa plain,
    /- x[2:1] -/ .iadd { plain with ty := .i32, x := 2 },
    /- nb with an immediate -/ .iadd { plain with ty := .i32, x := 1, nb := .left },
    /- lr of b with an immediate -/ .iadd { plain with ty := .i32, x := 1, lrB := true },
    /- lr of c with a displacement on a load -/ .ld { plain with x := 1, lrC := true } 0x0,
    /- displacement with a source c -/ .atom { plain with ty := .n32, x := 1 },
    /- neighbour on an entry without -/ .event { plain with x := 1, na := .left }] = true := by decide +kernel

/-- Refused: a field against its entry (05 R96 to R100). -/
theorem test_ill_formed_fields_2 : refused [
    /- neighbour of a uniform register -/ .iadd { plain with ty := .i32, u := true, nb := .right },
    /- edge without a neighbour -/ .iadd { plain with ty := .i32, edge := .clamp },
    /- odd pair -/ .isub { plain with ty := .i64, d := 1 },
    /- uniform register above 31 -/ .iadd { plain with ty := .i32, u := true, d := 32 },
    /- mask destination 0 -/ .icmp { plain with ty := .i32 },
    /- mask destination 8 -/ .kop { plain with u := true, d := 8 },
    /- uniform destination above 31 -/ .vote { plain with d := 32 },
    /- unused d -/ .nop { plain with d := 1 },
    /- unused b -/ .ineg { plain with ty := .i32, b := 1 },
    /- unused c -/ .iadd { plain with ty := .i32, c := 1 },
    /- mask source above 7 -/ .sel { plain with c := 8 },
    /- lr of a uniform register -/ .iadd { plain with ty := .i32, u := true, lrA := true },
    /- lr of an unused c -/ .iadd { plain with ty := .i32, lrC := true }] = true := by decide +kernel

/-- Refused: a memory operand (05 R101 to R103). -/
theorem test_ill_formed_address : refused [
    /- form 11 in virtual memory -/ .ld { plain with x := 6 } 0x0,
    /- form 01 with U -/ .lds { plain with u := true, x := 2 } 0x0,
    /- form 10 with U -/ .lds { plain with u := true, x := 4 } 0x0,
    /- form 10 with an immediate -/ .lds { plain with x := 5 } 0x0,
    /- x[0] in the L form -/ .lds { plain with mod := 4, x := 1 } 0x0,
    /- form 11 with a base -/ .lds { plain with a := 1, x := 6 } 0x0,
    /- uniform base above 31 -/ .ld { plain with a := 32, x := 2 } 0x0,
    /- odd base pair -/ .ld { plain with a := 1 } 0x0,
    /- b without an index -/ .ld { plain with b := 1 } 0x0,
    /- lr of a uniform base -/ .ld { plain with lrA := true, x := 2 } 0x0,
    /- lr of no index -/ .st { plain with lrB := true } 0x0] = true := by decide +kernel

/-- Refused: what a single entry adds (06 to 09). -/
theorem test_ill_formed_extra_1 : refused [
    /- CALL word above 32 bits -/ .call plain 0x100000000,
    /- LOOPU word above 32 bits -/ .loopu { plain with u := true } 0x100000000,
    /- MOVI.b32 above 32 bits -/ .movi plain 0x100000000,
    /- MOVI with x -/ .movi { plain with x := 1 } 0x0,
    /- SINK over nothing -/ .sink plain,
    /- SINK x[2:1] = 11 -/ .sink { plain with mod := 1, x := 6 },
    /- negative YIELD -/ .yield_ { plain with b := 63, c := 63, x := 1 },
    /- MOV immediate with a -/ .mov { plain with a := 1, x := 1 },
    /- CVT of one type -/ .cvt { plain with ty := .i32, c := 3 },
    /- CVT from b32 -/ .cvt { plain with ty := .i32 },
    /- CVT c above 15 -/ .cvt { plain with ty := .i32, c := 27 },
    /- CVT rounding between integers -/ .cvt { plain with ty := .i32, c := 2, rm := .rz },
    /- CVT half without packing -/ .cvt { plain with ty := .i32, c := 11, mod := 1 },
    /- CVT saturation to float -/ .cvt { plain with ty := .f32, c := 3, sat := true },
    /- CVT odd source pair -/ .cvt { plain with ty := .i32, c := 12, a := 1 },
    /- CVTB format -/ .cvtb { plain with ty := .f32, c := 8 },
    /- CVTB rounding with mod 1 -/ .cvtb { plain with ty := .f32, rm := .rz, mod := 1 },
    /- GSCAN operation on the type -/ .gscan { plain with ty := .f32, mod := 3 },
    /- GSCAN saturating minimum -/ .gscan { plain with ty := .i32, mod := 1, sat := true },
    /- GSCAN x[2] -/ .gscan { plain with ty := .i32, x := 4 }] = true := by decide +kernel

/-- Refused: what a single entry adds (06 to 09). -/
theorem test_ill_formed_extra_2 : refused [
    /- GRED uniform destination -/ .gred { plain with ty := .i32, d := 32, x := 2 },
    /- BCAST immediate -/ .bcast { plain with x := 1 },
    /- BCAST to a uniform register -/ .bcast { plain with d := 32, mod := 2 },
    /- MATCH odd destination -/ .match_ { plain with d := 1 },
    /- KOP NOT with b -/ .kop { plain with u := true, d := 1, b := 1, mod := 4 },
    /- KMOV without U -/ .kmov { plain with d := 1 },
    /- KMOV to mask 0 -/ .kmov { plain with mod := 3 },
    /- ATOM operation on the type -/ .atom { plain with ty := .f32, mod := 3 },
    /- ACAS odd pair -/ .acas { plain with c := 1 },
    /- ACAS quad -/ .acas { plain with ty := .b64, c := 2 },
    /- barrier above 15 -/ .barw { plain with d := 16 },
    /- barrier immediate 0 -/ .bara { plain with x := 1 },
    /- barrier immediate 17 -/ .drain { plain with c := 17, x := 1 },
    /- TXA above 255 -/ .txa { plain with b := 4, x := 1 },
    /- WAITE counter 4 -/ .waite { plain with d := 4, x := 1 },
    /- WAITE negative -/ .waite { plain with b := 63, c := 63, x := 1 },
    /- SPAWN count 17 -/ .spawn { plain with c := 17 },
    /- SPAWN past v63 -/ .spawn { plain with b := 60, c := 5 },
    /- SPAWN.fut of one word -/ .spawn { plain with c := 1, mod := 1 },
    /- RESOLVE odd data -/ .resolve { plain with c := 1 }] = true := by decide +kernel

/-- Refused: what a single entry adds (06 to 09). -/
theorem test_ill_formed_extra_3 : refused [
    /- PARK.BAR with a -/ .park { plain with u := true, a := 1 },
    /- STEAL core 0 by immediate -/ .steal { plain with u := true, x := 1 },
    /- ROLE odd -/ .role { plain with u := true, a := 1 },
    /- MMA C group -/ .mma { plain with ty := .f32, d := 8 },
    /- MMA x[0] -/ .mma { plain with ty := .f32, x := 1 },
    /- MMA x[1] on f32 -/ .mma { plain with ty := .f32, x := 2 },
    /- MLDS past v63 -/ .mlds { plain with d := 52, mod := 3 },
    /- MSTS alignment -/ .msts { plain with d := 2 },
    /- MTRN past v63 -/ .mtrn { plain with ty := .n16, d := 60 },
    /- TMMA descriptors -/ .tmma { plain with ty := .f32, u := true, a := 28 },
    /- TSTORE format slot -/ .tstore { plain with ty := .f32, u := true, b := 4 },
    /- RDS selector -/ .rds { plain with a := 13, u := true },
    /- RDS per thread with U -/ .rds { plain with u := true },
    /- WRS selector -/ .wrs { plain with d := 3, u := true },
    /- EVENT above 255 -/ .event { plain with b := 4, x := 1 },
    /- KILLT a without a task -/ .killt { plain with u := true, a := 1 },
    /- TLBI a for all -/ .tlbi { plain with u := true, a := 1 }] = true := by decide +kernel

/-! ### States for the statements' hypotheses -/

/-- A state with one group on core 0, ready and current. -/
def base : State := withGroup State.reset

/-- The group of `base`, or of a state made from it. -/
def grp (s : State) : Group := (groupOf s 1).getD {}

/-- `base` with its group's context changed. -/
def onX (p : Ctx → Ctx) : State := modCtx base 1 p

/-- `base` with the launch's format slots holding a format. -/
def withFmt (n : Nat) : State := modLaunch base 1 fun l => { l with rc := { l.rc with fmts := List.replicate 8 n } }

/-- The fields of a word of three different registers, of a type. -/
def regs3 (t : Ty) : FOps := { plain with d := 4, a := 8, b := 12, c := 16, ty := t }

/-- Nothing holds the word back and its registers can be had. -/
def may (s : State) (g : Group) (io : Io) (f : FOps) (wr : List RegWr) : Bool :=
  !blocked g.ctx (io.under (effSet g.ctx g.w f.k f.kn))
    && allocCheck s 1 g (allocNeed g.ctx io (vRegs wr)).1 (allocNeed g.ctx io (vRegs wr)).2 == .ok

/-- The check is the hypothesis of the statements. -/
theorem may_retire (s : State) (g : Group) (io : Io) (f : FOps) (wr : List RegWr) (h : may s g io f wr = true) :
    MayRetire s 1 g io (effSet g.ctx g.w f.k f.kn) wr := by
  simpa [may, MayRetire, Bool.and_eq_true] using h

/-- The group of the state is current. -/
def isCur (s : State) : Bool := current s == some (1, grp s)

/-- The hypotheses of a word of the plain kind. -/
def mayAlu (f : FOps) (op : Op) (comp : Nat → Nat → Nat → Nat × Nat) : Bool :=
  isCur base && may base (grp base) (ioOf op.entry f f.ty) f
    (aluRes f (grp base).ctx 16 (effSet (grp base).ctx 16 f.k f.kn) comp).wr

/-- Every word of the tables may complete, unmasked and uniform; a floating one on pairs too. -/
theorem witness_IntegerResults :
    ([regs3 .i32, { regs3 .i64 with u := true }].all fun f => (intTable f).all fun e =>
      mayAlu f e.2.1 fun a b c => (fitInt f.ty f.sat (e.2.2 (intVal f.ty a) (intVal f.ty b) (intVal f.ty c)), 0)) = true := by
  decide +kernel
theorem witness_LogicResults :
    ([regs3 .b32, { regs3 .b64 with u := true }].all fun f => (bitTable f f.ty.width).all fun e =>
      mayAlu f e.2.1 fun a b c => (e.2.2 a b c, 0)) = true := by decide +kernel
theorem witness_FloatResults :
    ([regs3 .f32, regs3 .f64].all fun f => (floatTable f).all fun e => mayAlu f e.2.1 e.2.2) = true := by decide +kernel

theorem witness_MoveResults :
    ((let f := { regs3 .b32 with k := 0 }
      let g := grp base
      let eff := effSet g.ctx 16 f.k f.kn
      isCur base
      && ((moveTable f g.ctx 16 eff).all fun e => may base g e.2.1 f (perThread e.2.2.1 16 eff e.2.2.2).wr)
      && may base g (ioOf Op.movi.entry f f.ty) f (perThread f.u 16 eff fun t => { wr := wrDst f.u 4 1 t 5 }).wr
      && may base (ended g) (ioDst false 4 1) f (perThread false 16 eff fun t => { wr := wrRun 4 1 t 0 }).wr)) = true := by
  decide +kernel

/-- `IADDC`; field lengths 0 and 32, the least and the greatest, and 33, the least that faults. -/
theorem witness_CarryAndFieldResults :
    ((let f := regs3 .n32
      let len (n : Nat) : State := onX fun x => { x with v := [(12, { pid := 0, vals := List.replicate 16 (.ofNat 32 (32 * n)) })] }
      let s1 := len 33
      let eff := effSet (grp base).ctx 16 f.k f.kn
      isCur base && may base (grp base) (ioOf Op.iaddc.entry f f.ty) f (perThread false 16 eff fun t => { wr := wrDst false 4 1 t 0 }).wr
      && !badField (grp base).ctx 16 f eff && !badField (grp (len 32)).ctx 16 f eff
      && (fieldTable f).all fun e => may base (grp base) (ioOf e.2.1.entry f f.ty) f (perThread false 16 eff fun t => { wr := wrDst false 4 1 t 0 }).wr
        && isCur s1 && badField (grp s1).ctx 16 f eff
        && !blocked (grp s1).ctx ((ioOf e.2.1.entry f f.ty).under eff))) = true := by decide +kernel
theorem witness_ComparisonResults :
    (isCur base && [(Op.icmp, Ty.i32), (.fcmp, .f32), (.dcmp, .f64)].all fun e =>
      may base (grp base) (ioOf e.1.entry { regs3 e.2 with d := 1 } e.2) { regs3 e.2 with d := 1 } []) = true := by decide +kernel
theorem witness_CrossThreadResults :
    ([0, 1, 2, 3].all fun m =>
      let f : FOps := { regs3 .i32 with d := 1, mod := m }
      let eff := effSet (grp base).ctx 16 f.k f.kn
      isCur base && (groupTable f (grp base).ctx 16 eff).all fun e => may base (grp base) e.2.1 f e.2.2.2.wr) = true := by decide +kernel

/-- A division; a sum over the group; a product in BF16, in a format that no product takes, and with its operands
overlapping its accumulators. -/
theorem witness_LongResultsOpenWindows :
    ((let s := withFmt 5
      let g := grp s
      let f : FOps := regs3 .i32
      let m : FOps := { regs3 .f32 with d := 0, a := 16, b := 24, c := 0 }
      let eff := effSet g.ctx 16 f.k f.kn
      let late (io : Io) (wr : List RegWr) : Bool := !blocked g.ctx (io.under eff)
        && allocCheck s 1 g (allocNeed g.ctx io (vRegs wr)).1 (allocNeed g.ctx io (vRegs wr)).2 != .trap
      isCur s && ((longTable f).all fun e => late (ioOf e.2.1.entry f f.ty) (aluRes f g.ctx 16 eff fun _ _ _ => (0, 0)).wr)
      && late ((ioSrc false 8 1 false).join (ioDst false 4 1)) (wrRun 4 1 0 0)
      && ([true, false].all fun z => mmaOk m 16 5 && (match mmaBody m 5 z g.ctx 16 eff with
          | .ok r => late (mmaIo m 16 5 z) r.wr
          | .error _ => false)
        && !mmaOk m 16 0 && isCur base && !blocked (grp base).ctx ((mmaIo m 16 0 z).under eff)
        && !mmaOk { m with a := 12 } 16 5 && !blocked g.ctx ((mmaIo { m with a := 12 } 16 5 z).under eff)))) = true := by
  decide +kernel

/-- Format slots of 1 and 3, the least and the greatest SB formats, and of 0 and 4. -/
theorem witness_SlotAndSpecialResults :
    ([1, 3, 0, 4].all fun n =>
      let s := withFmt n
      let f : FOps := { regs3 .f32 with c := 1 }
      let eff := effSet (grp s).ctx 16 f.k f.kn
      isCur s && bits ((groupLaunch s (grp s)).rc.fmts.getD 1 0) 3 0 == n
      && may s (grp s) (ioOf Op.cvtb.entry f f.ty) f (perThread false 16 eff fun t => { wr := wrDst false 4 1 t 0 }).wr
      && !sinkRuns (grp s).ctx && may s (grp s) (ioDst false 4 1) f (wrDst false 4 1 0 0) && may s (grp s) (ioDst true 4 1) f []) = true := by
  decide +kernel

/-- Slots of two bank groups, slots of one, and slots of one register. -/
theorem witness_PairResults :
    ((let b : PairSlot := ⟨.shlImm, plainSlot 9 1⟩
      let x := (grp base).ctx
      isCur base && (pairTable (plainSlot 6 2) b).all fun e =>
        let A : PairSlot := ⟨e.2, plainSlot 6 2⟩
        let eff := effSet x 16 0 false
        let io := (slotIo A).join (slotIo b)
        let r := (slotRes A x 16).wr ++ (slotRes b x 16).wr
        !pairClash A b && !blocked x (((slotIo A).under eff).join ((slotIo b).under eff))
        && allocCheck base 1 (grp base) (allocNeed x io (vRegs r)).1 (allocNeed x io (vRegs r)).2 == .ok
        && (e.2 == .nop || pairClash A ⟨.shlImm, plainSlot 10 1⟩))) = true := by decide +kernel

/-- Counts 0 and 1, the least that waits; the trap words with their threads and with none. -/
theorem witness_NopYieldAndTraps :
    (let f0 : FOps := { plain with x := 1 }
     let f1 : FOps := { plain with c := 1, x := 1 }
     isCur base = true ∧ f0.imm = 0 ∧ f1.imm ≠ 0 ∧ effSet (grp base).ctx 16 0 false ≠ 0
     ∧ effSet (grp base).ctx 16 1 false = 0) := by decide +kernel

/-- `base` at a program counter, with a value in mask register 1 and entries on the split stack. -/
def onPath (pc k1 : Word) (st : List SplitEntry) : State :=
  onX fun x => { x with pc := pc, k := setPad 0 x.k 1 k1, stack := st }

/-- A bad target, a bad meeting point; nobody left behind; a next word past the last address; nobody going; a 65th entry;
halves of the same size with 63 entries; a larger half that goes. -/
theorem witness_BranchSplits :
    (let here (s : State) : Word := (ended (grp s)).ctx.pc
     let tgt (s : State) (w : Word) : Word := here s + .ofInt 64 (8 * sx w.toNat 32)
     let rec_ (s : State) (w : Word) : Word := here s + .ofInt 64 (8 * sx (w.toNat / 2 ^ 32) 32)
     let T (s : State) : Word := effSet (grp s).ctx 16 1 false
     let N (s : State) : Word := (grp s).ctx.active &&& ~~~T s
     let st : List SplitEntry := List.replicate 63 {}
     let a := onPath 0 0xFFFF []
     let e := onPath (.ofNat 64 (2 ^ 56 - 16)) 0xFF []
     let back : Word := 0xFFFFFFFFFFFFFFFF
     let on : Word := 0x0000000200000003
     let ok (s : State) : Bool := isCur s && goodPc (tgt s on) && goodPc (rec_ s on)
     isCur a = true ∧ goodPc (tgt a back) = false ∧ goodPc (tgt a 0xFFFFFFFF00000000) = true ∧ goodPc (rec_ a 0xFFFFFFFF00000000) = false
     ∧ ok a = true ∧ N a = 0
     ∧ isCur e = true ∧ goodPc (tgt e back) = true ∧ goodPc (rec_ e back) = true ∧ N e ≠ 0 ∧ goodPc (here e + 16) = false
     ∧ ok (onPath 0 0 []) = true ∧ N (onPath 0 0 []) ≠ 0 ∧ T (onPath 0 0 []) = 0 ∧ goodPc (here (onPath 0 0 []) + 16) = true
     ∧ ok (onPath 0 0xFF ({} :: st)) = true ∧ T (onPath 0 0xFF ({} :: st)) ≠ 0 ∧ 64 ≤ (ended (grp (onPath 0 0xFF ({} :: st)))).ctx.stack.length
     ∧ ok (onPath 0 0xFF st) = true ∧ (ended (grp (onPath 0 0xFF st))).ctx.stack.length < 64
     ∧ popCount 16 (T (onPath 0 0xFF st)).toNat = popCount 16 (N (onPath 0 0xFF st)).toNat
     ∧ popCount 16 (N (onPath 0 0x1FF st)).toNat < popCount 16 (T (onPath 0 0x1FF st)).toNat) := by decide +kernel

/-- A bad target; an empty stack; a top entry that meets elsewhere; one that meets here and lets its path run; one with none
left. -/
theorem witness_JoinMeets :
    (let f : FOps := { plain with c := 2, x := 1 }
     let j (s : State) : Word := (ended (grp s)).ctx.pc + .ofInt 64 (8 * f.imm)
     let s (st : List SplitEntry) : State := onPath 0x1000 0 st
     isCur (onPath 0 0 []) = true ∧ goodPc ((ended (grp (onPath 0 0 []))).ctx.pc + .ofInt 64 (8 * FOps.imm { f with b := 63, c := 63 })) = false
     ∧ isCur (s []) = true ∧ goodPc (j (s [])) = true ∧ j (s [{ rpc := 0x1010, dmask := 1 }]) = 0x1010
     ∧ (ended (grp (s [{ rpc := 0x1018 }, { rpc := 0x1010 }]))).ctx.stack.head?.map (·.rpc) = some 0x1018
     ∧ isCur (s [{ rpc := 0x1010, dmask := 1 }]) = true ∧ isCur (s [{ rpc := 0x1010 }]) = true
     ∧ (0 : Word) ||| (ended (grp (s [{ rpc := 0x1010 }]))).ctx.active ≠ 0 ∧ (grp (s [{ rpc := 0x1010 }])).ctx.depth = 0) := by
  decide +kernel

/-- `CALL` with its bytes just fitting the window, one too deep, and to a bad address; `RET` at depth 0, with addresses that
agree, that do not, and inside a split, with a waiting path, with threads that met, and with neither; `LOOPU` from 2 and from 1. -/
theorem witness_CallReturnAndLoop :
    (let at_ (p : Ctx → Ctx) : State := onX p
     let win := (groupLaunch base (grp base)).rc.pocket
     let deep (n : Nat) : State := at_ fun x => { x with depth := n }
     let low (p : Ctx → Ctx) : State := at_ fun x => p { x with depth := 1 }
     let ret (s : State) (t : Nat) : Nat := leNat (pocketRead (ended (grp s)).ctx t (win - 8) 8)
     let back := at_ fun x => { x with pc := 0 }
     let f : FOps := { plain with d := 3, u := true }
     isCur (deep 7) = true ∧ 8 * (7 + 1) ≤ win ∧ isCur (deep 8) = true ∧ win < 8 * (8 + 1) ∧ (grp base).ctx.depth = 0
     ∧ goodPc ((grp base).ctx.pc + .ofInt 64 (8 * sx 5 32)) = true ∧ goodPc ((grp base).ctx.pc + 16) = true
     ∧ isCur back = true ∧ goodPc ((grp back).ctx.pc + .ofInt 64 (8 * sx 0xFFFFFFFF 32)) = false
     ∧ isCur (low id) = true ∧ (∀ t ∈ threadsOf 16 (grp (low id)).ctx.active, ret (low id) t = 0) ∧ goodPc 0 = true
     ∧ (let odd := low fun x => pocketWrite x 3 (win - 8) [8]
        isCur odd = true ∧ (grp odd).ctx.stack = [] ∧ ret odd 3 ≠ ret odd 0)
     ∧ isCur (low fun x => { x with stack := [{ depth := 1, dmask := 1 }] }) = true
     ∧ isCur (low fun x => { x with stack := [{ depth := 1, jmask := 1 }] }) = true
     ∧ (let last := low fun x => { x with active := 0xFF, stack := [{ depth := 1, rmask := 0xFF00 }] }
        isCur last = true ∧ ∀ t ∈ threadsOf 16 (0xFF00 ||| (grp last).ctx.active), ret last t = 0)
     ∧ (∀ n ∈ [2, 1], let s := at_ fun x => { x with s := setPad 0 x.s 3 (.ofNat 64 n) }
        isCur s = true ∧ blocked (grp s).ctx (Io.under { ur := [3], uw := [3] } (effSet (grp s).ctx 16 f.k f.kn)) = false
        ∧ readS (grp s).ctx 3 - 1 = .ofNat 64 n - 1)) := by decide +kernel

/-- A table of two entries: every index within it, thread 1 on the second entry, and thread 1 past it. -/
theorem witness_BranchTable :
    (let f : FOps := { plain with d := 1, a := 8, x := 1 }
     let s (n : Nat) : State := onX fun x => { x with v := [(8, { pid := 0, vals := 0 :: .ofNat 32 n :: List.replicate 14 0 })] }
     let idx (n t : Nat) : Nat := readNbr (ended (grp (s n))).ctx 16 8 1 t f.na f.edge
     let ts := threadsOf 16 (grp base).ctx.active
     (∀ n ∈ [(1 : Nat), 2], isCur (s n) = true ∧ blocked (ended (grp (s n))).ctx ((ioSrc false 8 1 false).under (effSet (grp (s n)).ctx 16 0 false)) = false)
     ∧ goodPc ((grp base).ctx.pc + .ofInt 64 (8 * f.imm)) = true
     ∧ (∀ t ∈ ts, idx 1 t < 2) ∧ (List.range 2).filter (fun k => (ts.map (idx 1)).contains k) = [0, 1]
     ∧ (∀ k ∈ [0, 1], goodPc ((grp base).ctx.pc + .ofInt 64 (8 * tableOffset [0x0000000200000001] k)) = true)
     ∧ ∃ t ∈ ts, 2 ≤ idx 2 t) := by decide +kernel

/-- Some stay; none stay and a path waits; none stay and none waits. -/
theorem witness_ExitEndsThreads :
    (let left (s : State) (k : Nat) : Word := (grp s).ctx.active &&& ~~~(effSet (grp s).ctx 16 (.ofNat 3 k) false)
     let a := onPath 0 0xFF []
     let b := onPath 0 0xFF [{ dmask := 1 }]
     isCur a = true ∧ left a 1 ≠ 0 ∧ left a 0 = 0 ∧ (grp a).ctx.stack = []
     ∧ isCur b = true ∧ left b 0 = 0 ∧ (grp b).ctx.stack = [{ dmask := 1 }]) := by decide +kernel

/-- A legal Afren instruction and a legal filter one; words that decode, alone and with others behind them. -/
theorem witness_DecodeEncode :
    (Instr.nop plain).wf = true ∧ (Instr.nop plain).flParts = none
    ∧ (Instr.filterEnd ⟨0, 0, 0, 0⟩).wf = true ∧ (Instr.filterEnd ⟨0, 0, 0, 0⟩).flParts ≠ none := by decide +kernel
theorem witness_EncodeDecode :
    decode [0, 5] = .ok (.nop plain) ∧ decodeFilter 0 = .ok (.filterEnd ⟨0, 0, 0, 0⟩) := by decide +kernel

/-- The next step issues group 1: its word decodes, decodes to nothing, cannot be fetched, and would end a window whose fault is
known. -/
theorem witness_StepRunsDecoded :
    (let a := base.withFetchWord 64 0
     let b := base.withFetchWord 64 0x7F80000000000000
     let c := { base with tape := [.issue 1], cores := put base.cores 0 { coreOf base 0 with tlb := [] } }
     let d := modCtx (base.withFetchWord 64 0x0100000000000000) 1 fun x =>
       { x with wins := [{ id := 1, pc := 0, left := 2, done := true, fault := some { code := 0x10 } }] }
     let go (s : State) : Except FetchBad (List Word) :=
       let t := { s with tape := s.tape.drop 1 }
       match groupOf { unpark t 1 with cur := 1 } 1 with
       | some g => (fetchInstr { unpark t 1 with cur := 1 } g).1
       | none => .error (9, 0)
     (∀ s ∈ [a, b, c, d], s.tape.head? = some (.issue 1) ∧ (grantDue s).isNone = true
       ∧ chooseIn { s with tape := s.tape.drop 1 } (grp s).core ((grp s).slot0 / 256) = some 1)
     ∧ (match go a with | .ok ws => decode ws == .ok (.nop plain) && !endsFault (grp a).ctx (ws.headD 0) | .error _ => false) = true
     ∧ (match go b with | .ok ws => decode ws == .error (.unassignedOpcode 0xFF) | .error _ => false) = true
     ∧ (match go c with | .ok _ => false | .error e => e == (0x04, 2)) = true
     ∧ (match go d with | .ok ws => endsFault (grp d).ctx (ws.headD 0) | .error _ => false) = true) := by decide +kernel
theorem witness_FetchReadsBytes :
    (let s := base.withFetchWord 64 0
     let g := grp s
     (match translate s g.core (vfOf s g) g.ctx.pc.toNat with
      | (.ok l, s1) => l.x && slotOk s1 (vfOf s1 g) l.slot && ownsLine (partOf s1 (groupPart s1 g)) (leafPa l g.ctx.pc.toNat / 128)
          && instrLen 0 == 1 && (match fetchWords s1 g (g.ctx.pc.toNat + 8) 1 with | (.ok _, _) => true | _ => false)
      | _ => false) = true) := by decide +kernel

/-- An event that has its effect, one whose conditions do not hold, and a filter instruction. -/
theorem witness_StepRunsEventsAndFilters :
    (let a := { base with tape := [.event ⟨.deviceReset, {}⟩] }
     let b := { base with tape := [.event ⟨.registerGrant, {}⟩] }
     let c := base.withFetchWord 32 0
     isMessage .deviceReset = false ∧ (match exec .deviceReset { a with tape := [], subj := {} } with | .next _ => true | _ => false) = true
     ∧ isMessage .registerGrant = false
     ∧ (match exec .registerGrant { b with tape := [], subj := {} } with | .fault (.notEnabled _) => true | _ => false) = true
     ∧ c.tape.head? = some (.filter 0 0)
     ∧ (match (look c.slots 0 {}).cur with
        | some r => !r.ended && decide (r.pc < r.code.length) && decodeFilter (r.code.getD r.pc 0) == .ok (.filterEnd ⟨0, 0, 0, 0⟩)
        | none => false) = true) := by decide +kernel

/-- Memory in form, and a step that goes on. -/
theorem witness_StepKeepsMemoryCanonical :
    (let s := base.withFetchWord 64 0
     Memory.wf s.mem = true ∧ (match step s with | .next _ => true | _ => false) = true) := by decide +kernel
/-- Another line, and the bytes on either side of line 1. -/
theorem witness_MemoryReadsBack : (2 : Nat) ≠ 1 ∧ 127 < 128 * 1 ∧ 128 * 1 + 128 ≤ 256 := by decide
/-- A line held dirty, and one held exclusively with bytes of its own, with no pending line, and with one of another group. -/
theorem witness_NearWriteHit :
    (let s (n : NcLine) : State := modCore base 0 fun k => { k with near := [(512, n)] }
     let p : PendLine := { la := 512, slot := 0, g := 2, t := none }
     let t (n : NcLine) : State := modCore (s n) 0 fun k => { k with pend := [p] }
     let a : NcLine := { st := .dirty }
     let b : NcLine := { st := .exclusive, mask := 1 }
     nearLine (s a) 0 512 = some a ∧ nearLine (s b) 0 512 = some b ∧ b.mask ≠ 0
     ∧ pendOf (coreOf (s a) 0) 1 512 0 none = none ∧ (grp (s a)).core = 0
     ∧ (coreOf (t a) 0).pend = [p] ∧ (∀ q ∈ (coreOf (t a) 0).pend, q.la = 512 → q.slot = 0)
     ∧ nearLine (t a) 0 512 = some a ∧ pendOf (coreOf (t a) 0) 1 512 0 none = none) := by decide +kernel

/-- A finished result with its window over, kept and discarded, and one of a retired group. -/
theorem witness_ResultLands :
    (let w (d : Bool) : Win := { id := 7, pc := 0, left := 0, vdst := [4], vals := wrRun 4 1 0 9, done := true, discarded := d }
     let s (d : Bool) (r : Run) : State :=
       { modGroup base 1 (fun g => { g with run := r, ctx := { g.ctx with wins := [w d] } }) with subj := { g := 1, win := 7 } }
     ∀ d ∈ [true, false], (∀ r ∈ [Run.retired, .ready], groupOf (s d r) 1 = some (grp (s d r)) ∧ (grp (s d r)).run = r
       ∧ (grp (s d r)).ctx.wins.find? (fun v => v.id = 7) = some (w d) ∧ (w d).done = true ∧ (w d).sink = false ∧ (w d).fault = none)
     ∧ (let g := grp (s d .ready)
       let x := if d then g.ctx else (unmap g.ctx []).1
       let news := if d then [] else needNew x [] (vRegs (w d).vals)
       allocCheck (s d .ready) 1 g (x.v.length + (news.filter fun r => (find x.v r).isNone).length) news.length = .ok)) := by
  decide +kernel

/-- `base` with a handler for fault code 1 in its partition's table. -/
def withHandler : State := modPart base 0 fun p => { p with handlers := 0x100000 :: 0x4000020001 :: List.replicate 62 0 }
/-- `base` in handler mode. -/
def inHandler : State := modGroup base 1 fun g => { g with shadow := some g.ctx }

theorem witness_FaultEntersHandler :
    groupOf withHandler 1 = some (grp withHandler) ∧ (grp withHandler).shadow = none ∧ (grp withHandler).outer = none
    ∧ handlerOf (partOf withHandler (groupPart withHandler (grp withHandler))) 1 = some 0x4000020000 := by decide +kernel
/-- No handler; a second fault; adopted work. -/
theorem witness_FaultHaltsOrLeaves :
    groupOf base 1 = some (grp base) ∧ (grp base).shadow = none ∧ (grp base).outer = none
    ∧ handlerOf (partOf base (groupPart base (grp base))) 1 = none ∧ (grp inHandler).shadow = some (grp base).ctx
    ∧ (grp (modGroup base 1 fun g => { g with outer := some 5 })).shadow = none
    ∧ (grp (modGroup base 1 fun g => { g with outer := some 5 })).outer = some 5 := by decide +kernel

/-- Nothing outstanding; a result outstanding; a faulted window whose words are over behind one that is not; a pending fault
alone. -/
theorem witness_FaultsAreDeferred :
    (let open_ : Win := { id := 1, pc := 0, left := 3, done := true, fault := some { code := 0x10 } }
     let late : Win := { id := 2, pc := 0, left := 0, fault := some { code := 0x12 } }
     let s (p : Ctx → Ctx) : State := { onX p with subj := { g := 1 } }
     let a := s fun x => { x with wins := [{ id := 1, pc := 0, left := 0 }] }
     let b := s fun x => { x with wins := [open_, late] }
     let c := s fun x => { x with wins := [open_], pending := some { code := 2 } }
     settled (grp base).ctx = true ∧ settled (grp a).ctx = false
     ∧ (grp b).run = .ready ∧ settled (grp b).ctx = true ∧ (grp b).ctx.wins = [open_] ++ late :: [] ∧ open_.left ≠ 0
     ∧ late.left = 0 ∧ late.sink = false ∧ late.fault = some { code := 0x12 }
     ∧ settled (grp c).ctx = true ∧ (∀ v ∈ (grp c).ctx.wins, v.left ≠ 0 ∨ v.sink = true ∨ v.fault = none)
     ∧ (grp c).ctx.pending = some { code := 2 }) := by decide +kernel
theorem witness_PrivilegedAndIllegalWords : isCur base = true ∧ (grp base).shadow = none := by decide +kernel
/-- A handler with nothing outstanding, with a result outstanding, and with one that is done but still in its window. -/
theorem witness_HandlerReturnsAndHalts :
    (let s (w : List Win) : State := modCtx inHandler 1 fun x => { x with wins := w }
     let a : Win := { id := 1, pc := 0, left := 0 }
     (∀ b ∈ [none, some 3], isCur (modGroup inHandler 1 fun g => { g with shadow := some { g.ctx with barWait := b } }) = true)
     ∧ isCur inHandler = true ∧ (grp inHandler).ctx.wins = [] ∧ settled (grp inHandler).ctx = true
     ∧ (grp inHandler).shadow = some (grp base).ctx ∧ (∀ w ∈ (grp base).ctx.wins, w.fault = none)
     ∧ isCur (s [a]) = true ∧ (grp (s [a])).ctx.wins ≠ [] ∧ settled (grp (s [a])).ctx = false
     ∧ settled (grp (s [{ a with done := true }])).ctx = true) := by decide +kernel

/-- `base` with `s2` at a mapped line of memory, line 768. -/
def atMem : State := onX fun x => { x with s := setPad 0 x.s 2 (.ofNat 64 (fetchVa + 0x8000)) }
/-- `atMem` with that line in the core's near cache. -/
def withNear (n : NcLine) : State := modCore atMem 0 fun k => { k with near := [(768, n)] }
/-- `atMem` with a write-back of that line on its way. -/
def wbGoing : State := { atMem with due := [⟨.nearCacheWriteback
  { id := 1, core := 0, la := 768, slot := 1, data := 0, mask := 1, vw := 0, grp := none, drainFor := none, poisoned := false }, {}⟩] }
/-- `base` with a scratch of 4,096 bytes, its line 1 absent or not. -/
def withScratch (gone : Bool) : State := modTeam (modLaunch base 1 fun l => { l with rc := { l.rc with scratch := 4096 } }) 1
  fun tm => { tm with absent := if gone then [(0, 0)] else [] }
/-- A memory word over `[s2]`. -/
def memF (t : Ty) : FOps := { plain with d := 4, a := 2, c := 16, ty := t, x := 2 }
/-- The accesses of its threads, and its checked parts. -/
def accsAt (s : State) (f : FOps) (d : Option Word) : List Acc :=
  siteAccs f (grp s) (effSet (grp s).ctx 16 f.k f.kn) d fun _ => 5
def partsAt (s : State) (f : FOps) (need : Need) : List (Acc × Except Bad (List Part)) × State :=
  checkAll s (grp s) false (f.ty.width / 8) need (accsAt s f (some 0))

theorem witness_LoadsAndAtomicsBegin :
    ([memF .n32, { memF .b64 with u := true, x := 0 }].all fun f => isCur atMem && (virtTable f 0 (grp atMem).ctx).all fun e =>
      let g := grp atMem
      let eff := effSet g.ctx 16 f.k f.kn
      let io := (ioAddr f false).join (e.io.join (ioDst f.u f.d.toNat f.ty.regs))
      let r := checkAll atMem g e.kind.natural (f.ty.width / 8) (memNeed e.kind) (accsAt atMem f e.d)
      !blocked g.ctx (io.under eff) && allocCheck atMem 1 g (allocNeed g.ctx io io.vw).1 (allocNeed g.ctx io io.vw).2 != .trap
      && (badsOf r.1).isEmpty && !(partsOf r.1).isEmpty && !earlierHolds r.2 1 g.ctx r.2.nextId f.u (partsOf r.1)
      && (partsOf r.1).all fun p => !txLive g.ctx p.t && lineReady r.2 p.la) = true := by decide +kernel

/-- An absent line, a line that is there, and an access past the end. -/
theorem witness_ScratchAndPocketLoadsBegin :
    ([(MemKind.lds, 4, 1), (.ldp, 4, 1), (.mlds, 16, 4), (.atoms, 4, 1)].all fun e =>
      let f := memF .n32
      let s := withScratch false
      let t := withScratch true
      let g := grp s
      let eff := effSet g.ctx 16 f.k f.kn
      let io := (ioAddr f true).join (ioDst false 4 e.2.2)
      let accs := (sites false 16 eff).map fun th => ({ t := th, ea := eaOf g.ctx f true (dispOf f none) th } : Acc)
      let far := accs.map fun a => { a with ea := 4096 }
      isCur s && isCur t && !blocked g.ctx (io.under eff) && allocCheck s 1 g (allocNeed g.ctx io io.vw).1 (allocNeed g.ctx io io.vw).2 != .trap
      && (spaceFail s g (e.1 == .ldp) false e.2.1 accs).isNone && (absentLines s g e.2.1 accs).isEmpty
      && (spaceFail t (grp t) (e.1 == .ldp) false e.2.1 accs).isNone && (absentLines t (grp t) e.2.1 accs) == [0]
      && (spaceFail s g (e.1 == .ldp) false e.2.1 far).isSome) = true := by decide +kernel

/-- A window of one thread's access at byte 0, at byte 4,096, and of an absent line; one part that the near cache serves, one that
it does not, and one already served. -/
theorem witness_CapturedAccessesPerformed :
    (let r (k : MemKind) (a : Word) : MemReq := { kind := k, ty := .n32, size := 4, uni := false, dst := 4, accs := [{ t := 0, ea := a }] }
     let w (k : MemKind) (a : Word) (ps : List Part) : Win := { id := 7, pc := 0, left := 0, req := some (r k a), parts := ps }
     let put (s : State) (w : Win) : State := modCtx s 1 fun x => { x with wins := [w] }
     let p : Part := { t := 0, pos := 0, la := 768, slot := 1, lo := 0, n := 4 }
     let hit := put (withNear { st := .dirty, slot := 1 }) (w .ld 0 [p])
     let miss := put atMem (w .ld 0 [p])
     (∀ k ∈ [MemKind.lds, .ldp, .mlds, .atoms],
       let s := put (withScratch false) (w k 0 [])
       let t := put (withScratch true) (w k 0 [])
       winOf (grp s).ctx 7 = some (w k 0 []) ∧ (spaceFail s (grp s) (k == .ldp) false 4 (r k 0).accs).isNone = true
       ∧ absentLines s (grp s) 4 (r k 0).accs = [] ∧ absentLines t (grp t) 4 (r k 0).accs ≠ []
       ∧ (spaceFail s (grp s) (k == .ldp) false 4 (r k 4096).accs).isSome = true)
     ∧ (∀ v ∈ (grp hit).ctx.wins, v.id = 7 → v = w .ld 0 [p]) ∧ (w .ld 0 [p]).parts[0]? = some p ∧ p.got = none
     ∧ txLive (grp hit).ctx 0 = false ∧ (partServe hit (grp hit) 1 (r .ld 0) p).isSome = true
     ∧ (partServe miss (grp miss) 1 (r .ld 0) p).isNone = true
     ∧ (∀ q ∈ [{ p with got := some [1, 2, 3, 4] }], q.got ≠ none)) := by decide +kernel

/-- A store that is made, one that must wait, and one whose check fails. -/
theorem witness_StoresComplete :
    (let f := memF .n32
     let go (s : State) : Try := tryStore s 1 (grp s) false 4 (accsAt s f (some 0)) s.nextId
     isCur atMem = true ∧ blocked (grp atMem).ctx (ioStore f false) = false
     ∧ (match go atMem with | .done u => (groupOf u 1).isSome | _ => false) = true
     ∧ isCur wbGoing = true ∧ (match go wbGoing with | .wait _ => true | _ => false) = true
     ∧ (match go base with | .bad _ _ => true | _ => false) = true) := by decide +kernel
/-- Sixteen threads to one dirty line, and one alone. -/
theorem witness_StoreFrame :
    (let s := withNear { st := .dirty, slot := 1 }
     let one := modCtx s 1 fun x => { x with active := 1 }
     ∀ u ∈ [s, one], let r := partsAt u (memF .n32) .write
       isCur u = true ∧ blocked (grp u).ctx (ioStore (memF .n32) false) = false ∧ inRegion (grp u).ctx = false ∧ (grp u).ctx.tx = []
       ∧ (grp u).ctx.sinks = [] ∧ (badsOf r.1).isEmpty = true
       ∧ ((partsOf r.1).all fun p => p.la == 768 && match nearLine r.2 0 p.la with | some m => m.st == .dirty && m.slot == p.slot | none => false) = true
       ∧ (partsOf r.1).all (fun p => (coreOf r.2 0).pend.all fun q => q.la != p.la || q.slot == p.slot) = true
       ∧ earlierHolds r.2 1 (grp u).ctx u.nextId false (partsOf r.1) = false
       ∧ (accsAt u (memF .n32) (some 0)).length = (partsOf r.1).length ∧ (partsOf r.1).length = popCount 16 (grp u).ctx.active.toNat) := by
  decide +kernel
/-- Within the space, past it, and an absent line. -/
theorem witness_ScratchAndPocketStores :
    ([(false, 4), (true, 4), (false, 16)].all fun e =>
      let f := memF .n32
      let s := withScratch false
      let t := withScratch true
      let g := grp s
      let accs := (sites false 16 (effSet g.ctx 16 f.k f.kn)).map fun th => ({ t := th, ea := eaOf g.ctx f true (dispOf f none) th } : Acc)
      isCur s && isCur t && !inRegion g.ctx && decide ((groupLaunch s g).rc.pocket ≤ 65536)
      && !blocked g.ctx (ioStore f true) && !blocked g.ctx ((ioAddr f true).join (ioSrc false 4 4 false))
      && (spaceFail s g e.1 false e.2 accs).isNone && (absentLines s g e.2 accs).isEmpty && !(absentLines t (grp t) e.2 accs).isEmpty
      && (spaceFail t (grp t) e.1 false e.2 accs).isNone
      && (spaceFail s g e.1 false e.2 (accs.map fun a => { a with ea := 4096 })).isSome) = true := by decide +kernel

/-- Checked addresses, and ones whose check fails; the near cache flushed by somebody and by nobody. -/
theorem witness_MaintenanceWordsComplete :
    (let f := memF .b32
     let accs (s : State) : List Acc := siteAccs f (grp s) (effSet (grp s).ctx 16 0 false) none fun _ => 0
     let run (s : State) (n : Need) : List (Acc × Except Bad (List Part)) := (checkAll s (grp s) false 1 n (accs s)).1
     ∀ s ∈ [atMem, withNear { st := .dirty, slot := 1, mask := 1 }], isCur s = true ∧ blocked (grp s).ctx (ioAddr f false) = false
       ∧ (∀ n ∈ [Need.read, .any], (badsOf (run s n)).isEmpty = true ∧ (partsOf (run s n)).isEmpty = false)
       ∧ (failOf false (badsOf (run base .any))).isSome = true ∧ isCur base = true
       ∧ effSet (grp s).ctx 16 0 false ≠ 0 ∧ effSet (grp s).ctx 16 1 false = 0
       ∧ (groupOf (fallBack (forbid s 1 (effSet (grp s).ctx 16 0 false)) 1) 1).isSome = true) := by decide +kernel

/-- A release that can be made, at a wide scope and within the core; one while a result is outstanding; one whose line's
write-back is on its way, one while a write of the host's memory is; one whose line cannot be had; a failing check; nobody. The
same of a reduction, away and in the core, and behind an earlier access of its thread. -/
theorem witness_ReleaseStoresAndReductions :
    (let wide := { memF .n32 with rm := .ru }
     let near := { memF .n32 with rm := .rn }
     let eff (s : State) : Word := effSet (grp s).ctx 16 0 false
     let chk (s : State) (n : Need) : List (Acc × Except Bad (List Part)) × State :=
       checkAll (forbid s 1 (eff s)) (grp s) true 4 n (accsAt s near none)
     let ls (s : State) : List (Nat × Nat) := lineSlots (chk s .write).1
     let excl := withNear { st := .exclusive, slot := 1 }
     let behind := modCtx atMem 1 fun x => { x with wins := [{
       id := 1, pc := 0, left := 0, req := some { kind := .ld, ty := .n32, size := 4, uni := false, dst := 9, accs := [] }
       parts := [{ t := 0, pos := 0, la := 768, slot := 1, lo := 0, n := 4 }] }] }
     let toHost := { atMem with due := [⟨.nearCacheWriteback
       { id := 1, core := 0, la := Config.hostBase / 128, slot := 0, data := 0, mask := 1, vw := 0, grp := none, drainFor := none, poisoned := false }, {}⟩] }
     let open_ := modCtx atMem 1 fun x => { x with wins := [{ id := 1, pc := 0, left := 9 }] }
     let away (s : State) : List Nat := (((partsOf (chk s .both).1).filter fun p => !holdsExclusive s 0 p).map (·.la)).eraseDups
     (∀ s ∈ [atMem, excl, open_, wbGoing], isCur s = true ∧ blocked (grp s).ctx (ioStore near false) = false
       ∧ blocked (grp s).ctx ((ioAddr near false).join (ioSrc false 16 1 false)) = false
       ∧ (failOf false (badsOf (chk s .write).1)).isNone = true ∧ (failOf false (badsOf (chk s .both).1)).isNone = true ∧ (grp s).out = []
       ∧ sinkHolds (grp s).ctx (chk s .write).2.nextId false (partsOf (chk s .write).1) = false ∧ ls s = [(768, 1)])
     ∧ eff atMem ≠ 0 ∧ effSet (grp atMem).ctx 16 1 false = 0
     ∧ (failOf false (badsOf (checkAll base (grp base) true 4 .write (accsAt base near none)).1)).isSome = true
     ∧ settled (grp atMem).ctx = true ∧ settled (grp open_).ctx = false
     ∧ wide.scope = some .dev ∧ near.scope = some .grp
     ∧ wideScope (fallBack atMem 1) (grp atMem) .dev = true ∧ wideScope (fallBack atMem 1) (grp atMem) .grp = false
     ∧ (∀ l ∈ ls atMem, wbInFlight (putAway (fallBack (chk atMem .write).2 1) 0 [768]) 0 l.1 = false)
     ∧ (∃ l ∈ ls wbGoing, wbInFlight (putAway (fallBack (chk wbGoing .write).2 1) 0 [768]) 0 l.1 = true)
     ∧ (∀ l ∈ ls atMem, storeReady (fallBack (chk atMem .write).2 1) 0 l.1 l.2 0 = true)
     ∧ (∃ l ∈ ls wbGoing, storeReady (fallBack (chk wbGoing .write).2 1) 0 l.1 l.2 0 = false)
     ∧ away excl = [] ∧ away atMem = [768] ∧ sinkHolds (grp atMem).ctx (chk atMem .both).2.nextId false (partsOf (chk atMem .both).1) = false
     ∧ winHolds (grp atMem).ctx (chk atMem .both).2.nextId false (partsOf (chk atMem .both).1) = false
     ∧ winHolds (grp behind).ctx (chk behind .both).2.nextId false (partsOf (chk behind .both).1) = true
     ∧ (failOf false (badsOf (chk behind .both).1)).isNone = true
     ∧ hostQuiet atMem 0 = true ∧ hostQuiet toHost 0 = false ∧ wideScope (fallBack toHost 1) (grp toHost) .sys = true
     ∧ (∀ la ∈ away atMem, wbInFlight (putAway (fallBack (chk atMem .both).2 1) 0 (away atMem)) 0 la = false)
     ∧ (∃ la ∈ away wbGoing, wbInFlight (putAway (fallBack (chk wbGoing .both).2 1) 0 (away wbGoing)) 0 la = true)) := by decide +kernel

/-- `FENCE` with its release part outstanding, first drained, drained and still writing back, and drained and quiet; a counter at
the value awaited, one above it, and a posted fault. -/
theorem witness_FenceAndEngineWaitComplete :
    (let f : FOps := { plain with rm := .ru }
     let at_ (p : Ctx → Ctx) (s : State) : State := fallBack (forbid (setGroup (modCtx s 1 p) 1 (ended (grp (modCtx s 1 p)))) 1 0xFFFF) 1
     let ph (n : Nat) : Ctx → Ctx := fun x => { x with phase := n }
     let core (v : Nat) : State := modCore base 0 fun k => { k with ec := [v, 0, 0, 0] }
     let post := modTeam base 1 fun tm => { tm with posted := [(0, 0, 4, 0)] }
     isCur base = true ∧ effSet (grp base).ctx 16 0 false ≠ 0 ∧ effSet (grp base).ctx 16 1 false = 0
     ∧ wideScope (at_ id base) (grp base) (f.scope.getD .grp) = true ∧ wideScope (at_ id base) (grp base) .grp = false ∧ f.mod ≠ 2
     ∧ settled (grp (at_ (fun x => { x with wins := [{ id := 1, pc := 0, left := 0 }] }) base)).ctx = false
     ∧ settled (grp (at_ id base)).ctx = true ∧ siteInFlight (at_ id base) 1 = false
     ∧ (grp (at_ (ph 0) base)).ctx.phase = 0 ∧ (grp (at_ (ph 1) base)).ctx.phase ≠ 0
     ∧ coreQuiet (at_ (ph 1) base) 0 = true ∧ coreQuiet (at_ (ph 1) wbGoing) 0 = false ∧ isCur wbGoing = true
     ∧ (0 : Nat) < (coreOf (core 1) 0).ec.getD 0 0 ∧ isCur (core 1) = true ∧ (coreOf base 0).ec.getD 0 0 ≤ 0
     ∧ postedFault (teamOf base 1) 0 0 = none ∧ postedFault (teamOf post 1) 0 0 = some (0, 0, 4, 0) ∧ isCur post = true
     ∧ settled (ended (grp post)).ctx = true) := by decide +kernel

/-- A last arrival; a first of two; misuse within a split; outstanding accesses before `DRAIN`; a release part not done. -/
theorem witness_BarriersArriveAndRelease :
    (let pend := modGroup base 1 fun g => { g with out := [3] }
     let split := onX fun x => { x with stack := [{}] }
     let busy := onX fun x => { x with wins := [{ id := 1, pc := 0, left := 0 }] }
     let two := { modTeam base 1 (fun tm => { tm with groups := [1, 2] }) with
       groups := put base.groups 2 { grp base with run := .parked (.barrier 0), gid := 1, ctx := { (grp base).ctx with barWait := some 0 } } }
     let s1 (s : State) : State := fallBack (setGroup s 1 (ended (grp s))) 1
     (∀ s ∈ [base, pend, split, busy, two], isCur s = true) ∧ (grp pend).out ≠ [] ∧ (grp base).out = []
     ∧ (ended (grp split)).ctx.stack ≠ [] ∧ (ended (grp base)).ctx.stack = []
     ∧ (look (teamOf (s1 base) 1).bars 0 {}).expected = 0 ∧ (grp base).gid ∉ (look (teamOf (s1 base) 1).bars 0 {}).arrived
     ∧ (releasePart (s1 busy) 1 (ended (grp busy)) false).1 = false
     ∧ releasePart (s1 base) 1 (ended (grp base)) false = (true, s1 base) ∧ groupOf (s1 base) 1 = some (grp base)
     ∧ (liveGroups (s1 base) 1).length = 1 ∧ 1 ∈ (teamOf (s1 base) 1).groups ∧ (grp base).run = .ready
     ∧ releasePart (s1 two) 1 (ended (grp two)) false = (true, s1 two) ∧ (liveGroups (s1 two) 1).length = 2) := by decide +kernel

/-- No transaction; an open one whose bytes still hold, one whose bytes do not, a doomed one. -/
theorem witness_TransactionWordsComplete :
    (let with_ (y : Tx) : State := { onX (fun x => { x with tx := [(0, y)] }) with subj := { g := 1, t := 0 } }
     let io := ioDst false 4 1
     let ok : Tx := { rlines := [768], rbytes := [(768 * 128, 0, false)], slots := [(768, 1)] }
     let bad : Tx := { ok with rbytes := [(768 * 128, 1, false)] }
     isCur base = true ∧ (grp base).ctx.tx = [] ∧ inRegion (grp base).ctx = false ∧ find (grp base).ctx.tx 0 = none
     ∧ (∀ y ∈ [ok, bad, { ok with doom := 6 }], let s := with_ y
       isCur s = true ∧ find (grp s).ctx.tx 0 = some y ∧ blocked (ended (grp s)).ctx (io.under (effSet (grp s).ctx 16 0 false)) = false
       ∧ allocCheck (setGroup s 1 (ended (grp s))) 1 (ended (grp s)) (allocNeed (ended (grp s)).ctx io io.vw).1
           (allocNeed (ended (grp s)).ctx io io.vw).2 = .ok
       ∧ txLoads (ended (grp s)).ctx (effSet (grp s).ctx 16 0 false) = false
       ∧ (∀ la ∈ txLines (grp s).ctx 16 (effSet (grp s).ctx 16 0 false), lineReady (setGroup s 1 (ended (grp s))) la = true))
     ∧ txLive (grp (with_ ok)).ctx 0 = true ∧ txValid (flushDirty (with_ ok) none 768) ok = true
     ∧ txValid (flushDirty (with_ bad) none 768) bad = false) := by decide +kernel

/-- Region words with the launch's discipline and without it, in and out of a region, and within a split; a write of
`%fpflags` and of `%rv`; a context saved and loaded again; a kill of the own team, of a task's, and of none; an invalidation
begun, going on and over. -/
theorem witness_SystemWordsComplete :
    (let f : FOps := { plain with a := 2, u := true }
     let eff := effSet (grp base).ctx 16 0 false
     let off := modLaunch base 1 fun l => { l with rc := { l.rc with region := false } }
     let at_ : State := modGroup atMem 1 fun g => { g with shadow := some g.ctx }
     let s0 := setGroup at_ 1 (ended (grp at_))
     let q := ended (grp at_)
     let a : Word := .ofNat 64 (fetchVa + 0x8000)
     let x := (grp atMem).ctx
     let run (n : Nat) (v : List Inval) : State := { modCtx at_ 1 (fun x => { x with phase := n }) with invals := v }
     isCur base = true ∧ eff ≠ 0 ∧ effSet (grp base).ctx 16 1 false = 0 ∧ (groupLaunch base (grp base)).rc.region = true
     ∧ isCur off = true ∧ (groupLaunch off (grp off)).rc.region = false
     ∧ (grp base).ctx.region.getLsbD 0 = false ∧ (grp base).ctx.stack = [] ∧ (grp base).ctx.wins = [] ∧ (grp base).ctx.tx = []
     ∧ (grp (onX fun x => { x with region := 1 })).ctx.region.getLsbD 0 = true ∧ (grp (onX fun x => { x with stack := [{}] })).ctx.stack ≠ []
     ∧ blocked (ended (grp base)).ctx (({ ur := [2] } : Io).under eff) = false ∧ ({ f with d := 8 } : FOps).d = 8 ∧ ({ f with d := 9 } : FOps).d ≠ 8
     ∧ blocked (grp base).ctx ((ioSrc false 2 1 false).under eff) = false
     ∧ isCur at_ = true ∧ (grp at_).shadow = some x ∧ readS (grp at_).ctx 2 = a ∧ a.toNat % 128 = 0 ∧ (a + 1).toNat % 128 ≠ 0
     ∧ (match tryStore s0 1 q true 128 (lineAccs a (ctxRecord q (groupLaunch s0 q).rc.pocket x)) s0.nextId with
        | .done u => (match recordOf u 1 q x a with
          | .inr (y, v) => (match takeShadow v 1 (grp v) x y with | .done w => (groupOf w 1).isSome | _ => false)
          | .inl _ => false)
        | _ => false) = true
     ∧ teamOfTask s0 0 1 = some 1 ∧ teamOfTask s0 0 9 = none
     ∧ (grp at_).ctx.phase = 0 ∧ (grp (run 1 [])).ctx.phase ≠ 0 ∧ isCur (run 1 []) = true
     ∧ (∃ v ∈ (run 1 [{ who := some 1, scope := .all 0 }]).invals, v.who = some 1)) := by decide +kernel

/-- A walk through five tables, one that fails, and a leaf already cached; an invalidation waited for by nobody and by a
group. -/
theorem witness_TranslationEventsComplete :
    (let tables := pokes (pokes (pokes (pokes (pokes State.reset.mem 0x30000 (leBytes 8 0x31001)) 0x31000 (leBytes 8 0x32001))
        0x32000 (leBytes 8 0x33001)) 0x33000 (leBytes 8 0x34001)) 0x34008 (leBytes 8 0x5000F)
     let s (va : Nat) : State := { base with mem := tables, vfs := [(0, { asid := 1, root := some 0x30000 })], subj := { asid := 1, va := va } }
     let inv (w : Option Nat) : State := { base with invals := [{ who := w, scope := .all 0 }] }
     (∀ va ∈ [0x10000, 0x20000, fetchVa], ((s va).vfs.find? fun v => v.2.asid = (s va).subj.asid && v.2.root.isSome)
        = some (0, { asid := 1, root := some 0x30000 }))
     ∧ (match walk (s 0x10000) 0x30000 1 0x10000 with | .ok l => l.ppage == 5 && l.bits == 16 | .error _ => false) = true
     ∧ (match walk (s 0x20000) 0x30000 1 0x20000 with | .ok _ => false | .error e => e == 1) = true
     ∧ cachedLeaf (coreOf (s 0x10000) 0).tlb 1 0x10000 = none ∧ (cachedLeaf (coreOf base 0).tlb 1 fetchVa).isSome = true
     ∧ (∀ w ∈ [none, some 1], (inv w).invals.find? (fun v => v.scope == .all 0 && v.left.all (accessDone (inv w))) = some { who := w, scope := .all 0 })) := by
  decide +kernel

/-- `base` with format slots of BF16 in blocks of 16, and a product's shape in `s8`. -/
def engS : State := modCtx (withFmt 261) 1 fun x => { x with s := setPad 0 x.s 8 0x10000000 }
/-- The fields of an engine word over registers that hold nothing else. -/
def engF : FOps := { plain with u := true, d := 1, a := 4, b := 10, c := 12 }
/-- A mapped address. -/
def far (n : Nat) : Word := .ofNat 64 (fetchVa + n)
/-- `base` with command 7, engine 3 given to its partition, and the engines bound. -/
def eng (c : Cmd) (e : Tbl Engine) : State :=
  { modPart base 0 (fun p => { p with engines := [3] }) with
    cmds := [(7, { c with launch := 1, team := 1 })], engines := e, service := [(0, (coreOf base 0).tlb)], subj := { cmd := 7, engine := 3, la := 768, n := 2 } }
/-- Whether an engine's step performs an operation. -/
def isOp : Eng → Bool
  | .op _ _ => true
  | _ => false

/-- Every command sent, refused by its check, and held by a full counter or a full table; nobody; the words that send
nothing. -/
theorem witness_EngineWordsComplete :
    (let eff := effSet (grp engS).ctx 16 0 false
     let full (v n : Nat) : State := modCore engS 0 fun k => { k with ec := [v, 0, 0, 0], dep := List.replicate n 0 }
     let s1 (s : State) : State := fallBack (forbid s 1 eff) 1
     let sent (s : State) : List Bool := (engineTable engF 0x2020 0 0x30000).map fun e => match e.2.2.2 s (grp s) eff with | .ok _ => true | .error _ => false
     let none_ : State := modTeam (modCtx base 1 fun x => { x with s := setPad 0 (setPad 0 (setPad 0 x.s 4 0x0100000000000001) 10 (2 ^ 63)) 12 (2 ^ 63) }) 1
       fun tm => { tm with tas := false }
     let r (s : State) (n : Nat) : Word := readS (grp s).ctx n
     let td (w : Word) (n : Nat) : State := modCtx (withScratch false) 1 fun x => { x with s := setPad 0 x.s 4 w, tdep := List.replicate n 0 }
     let ok (s : State) : Bool :=
       let w := (r s 4).toNat
       bits w 31 21 = 0 && bits w 63 53 = 0 && bits w 20 0 % 128 = 0 && bits w 52 32 % 128 = 0 && bits w 52 32 ≠ 0 && decide ((grp s).ctx.tdep.length < 4)
     isCur engS = true ∧ eff ≠ 0 ∧ effSet (grp engS).ctx 16 1 false = 0
     ∧ ((engineTable engF 0x2020 0 0x30000).all fun e => !blocked (grp engS).ctx { ur := e.2.2.1 }) = true
     ∧ sent engS = List.replicate 7 true ∧ isCur none_ = true ∧ sent none_ = List.replicate 7 false
     ∧ (coreOf (s1 engS) 0).ec.getD 0 0 < 65535 ∧ (coreOf (s1 engS) 0).dep.length < Config.depEntries
     ∧ isCur (full 65535 0) = true ∧ 65535 ≤ (coreOf (s1 (full 65535 0)) 0).ec.getD 0 0
     ∧ (coreOf (s1 (full 65534 64)) 0).ec.getD 0 0 < 65535 ∧ Config.depEntries ≤ (coreOf (s1 (full 65534 64)) 0).dep.length
     ∧ bits (r none_ 10).toNat 63 40 ≠ 0 ∧ bits (r engS 10).toNat 63 40 = 0 ∧ (addrBad engS (grp engS) (r engS 1) 0).isNone = true
     ∧ (addrBad engS (grp engS) (r engS 4) 0).isNone = true
     ∧ bits (r none_ 4).toNat 63 56 ≠ 0 ∧ bits (r engS 4).toNat 63 56 = 0 ∧ (r engS 4).toNat % 64 = 0
     ∧ bits (r (td 1 0) 4).toNat 63 56 = 0 ∧ (r (td 1 0) 4).toNat % 64 ≠ 0
     ∧ holdsTas none_ (grp none_) = false ∧ holdsTas engS (grp engS) = true ∧ shapeOk (r engS 4) false false = true
     ∧ shapeOk (r engS 8) false false = false
     ∧ ok (td (2 ^ 32 * 4096) 3) = true ∧ rangeOk (td (2 ^ 32 * 4096) 3) (grp (td (2 ^ 32 * 4096) 3)) 0 4096 = true
     ∧ rangeOk (td (2 ^ 32 * 4224) 3) (grp (td (2 ^ 32 * 4224) 3)) 0 4224 = false ∧ ok (td (2 ^ 32 * 4224) 3) = true
     ∧ ok (td (2 ^ 32 * 4096) 4) = false ∧ ok (td 0 0) = false ∧ isCur (td (2 ^ 32 * 4096) 3) = true) := by decide +kernel

/-- A command of each way: leaving the table, going to its engine with and without a lease, performing an operation, over,
cancelled, faulted before and after the causes that stop for good; leases renewed, ended and passed on; bytes landing. -/
theorem witness_EngineEventsHappen :
    (let copy : Cmd := { kind := .copy, st := .running, regs := [far 0x8000, far 0x9000, 128] }
     let wait : Cmd := { copy with st := .waiting }
     let lease : Tbl Engine := [(3, { left := 1 })]
     let c0 (c : Cmd) : Cmd := { c with launch := 1, team := 1 }
     let press : Cmd := { kind := .press, st := .running, mod := 0, ws := [0x2020, 0, 0x30000], fmts := List.replicate 8 261
                          regs := [far 0x9000, far 0x9000, far 0x9000, far 0x9000, far 0x8000, 0, 0, 64] }
     let tile : Cmd := { kind := .tmma, st := .running, regs := [far 0x8000, far 0x9000, 0, 0, 0x10000000], fmts := List.replicate 8 261 }
     let desc (s : State) (b : Nat) : State := { s with
       comms := [(0, { count := 2 })]
       mem := pokes s.mem 0x18000 (leBytes 8 (far 0xA000).toNat ++ leBytes 8 (far 0xB000).toNat ++ leBytes 12 1 ++ [.ofNat 8 b]) }
     let coll : Cmd := { kind := .coll, st := .running, regs := [far 0x8000] }
     let f : Flight := { id := 2, core := 0, line := 0, gen := 0, lo := 0, bytes := [1] }
     let z := c0 { kind := .tzero }
     mayLeave (eng { kind := .tzero } []) z = true
     ∧ (∀ d ∈ (eng { kind := .tzero } []).cmds, d.2.core = z.core → d.2.seq < z.seq → mayLeave (eng { kind := .tzero } []) d.2 = false)
     ∧ wantsEngine (c0 { kind := .press }) = true ∧ poolOf .press = none ∧ poolOf .copy ≠ none
     ∧ wantsBind (eng wait lease) (c0 wait) = none ∧ bestLease (eng wait lease) (c0 wait) = some 3 ∧ wantsEngine (c0 wait) = true
     ∧ wantsBind (eng wait []) (c0 wait) = some 3 ∧ (bestLease (bindEngine (eng wait []) 3 0 0) (c0 wait)).isSome = true
     ∧ cmdOf (eng copy []) 7 = c0 copy ∧ leaseLeft (eng copy []) (c0 copy) = true ∧ isOp (nextOp (eng copy []) 7 (c0 copy)) = true
     ∧ isOp (nextOp (eng press []) 7 (c0 press)) = true ∧ shareLine (eng press []) (c0 press) = some 768
     ∧ pressPaused (eng press []) (channelOf 768) = false
     ∧ isOp (nextOp (eng tile []) 7 (c0 tile)) = true
     ∧ (let d := { copy with prog := 128 }; d.flight = [] ∧ (match nextOp (eng d []) 7 (c0 d) with | .done => true | _ => false) = true)
     ∧ ((cmdFault (eng { copy with regs := [0, 0, 128] } []) 7 (c0 { copy with regs := [0, 0, 128] })).any fun x => engineCause x.1 x.2.1 < 4) = true
     ∧ ((cmdFault (desc (eng coll []) 0) 7 (c0 coll)).any fun x => 4 ≤ engineCause x.1 x.2.1) = true
     ∧ isOp (collStep (desc (eng coll []) 7) 7 (c0 coll) true []) = true
     ∧ (match collStep (desc (eng coll []) 7) 7 (c0 coll) false [] with | .stop (some (0x21, 5, _)) => true | _ => false) = true
     ∧ (partOf (eng wait []) 0).engines.contains 3 = true ∧ find (eng wait []).engines 3 = none ∧ runs 3 .copy = true
     ∧ cmdPart (eng wait []) (c0 wait) = 0
     ∧ (let x : Engine := { left := 0 }
        find (eng wait [(3, x)]).engines 3 = some x ∧ (nextLessee (eng wait [(3, x)]) 3 x).isNone = true
        ∧ (nextLessee (eng { wait with tenant := 1 } [(3, x)]) 3 x).isSome = true
        ∧ (partOf { eng wait [(3, x)] with parts := [] } 0).engines.contains 3 = false)
     ∧ find base.cmds 7 = none ∧ (c0 copy).flight.find? (fun x => x.id = 2) = none
     ∧ find (eng { copy with st := .cancelled, flight := [f] } []).cmds 7 = some (c0 { copy with st := .cancelled, flight := [f] })
     ∧ [f].find? (fun x => x.id = (eng copy []).subj.n) = some f ∧ flightWaits { copy with flight := [f] } f = false) := by decide +kernel

/-- Two marked words behind a `SINK` at the group's program counter: a load and a word of that code. -/
def marked (a b : Nat) : State := { atMem with mem := pokes (pokes atMem.mem 0x10008 (leBytes 8 a)) 0x10010 (leBytes 8 b) }
/-- A load through `s2`, `v8`, and the same into `v9`. -/
def markedLoad : Nat := 0x3000101000000E02

/-- Marked words that may run, one that may not, and words that cannot be fetched; somebody and nobody; a result that the
words wait for; an earlier load that the leaving threads must follow. -/
theorem witness_SinkBegins :
    (let f : FOps := { plain with mod := 1 }
     let s := marked markedLoad 0x0A001240A3000600
     let wait := modCtx s 1 fun x => { x with wins := [{ id := 1, pc := 0, left := 0, vdst := [5] }] }
     let q (s : State) : Group := ended (grp s)
     let got (s : State) : Except FetchBad (List Word) := (fetchWords (setGroup s 1 (q s)) (q s) ((grp s).ctx.pc.toNat + 8) 2).1
     let ws (s : State) : List (Op × FOps) := match got s with | .ok raw => (sinkWords raw).getD [] | .error _ => []
     let r := sinkRegs (ws s)
     let io : Io := { vr := r.vr, ur := r.ur, vw := r.vw, uw := [], lr := r.lr }
     let k (s : State) : SinkSt := { pc := (grp s).ctx.pc, words := ws s, eff := 0xFFFF, lim := f.form, scap := (grp s).ctx.s
                                     vcap := sinkCapture (q s).ctx 16 r, store := (ws s).any fun w => sinkStores w.1 }
     let opened (s : State) : State := modCtx s 1 fun x => { x with sinks := put x.sinks s.nextId (k s) }
     let decided (s : State) (b : Bool) : Bool := match sinkDecide (opened s) 1 s.nextId 0xFFFF with
       | (.ok (_, a), u) => !a.isEmpty && earlierHolds u 1 (q s).ctx s.nextId false (a.map fun l =>
           { t := l.1, pos := 0, la := l.2.1, slot := l.2.2.1, lo := 0, n := 128 }) == b
       | _ => false
     let late := modCtx s 1 fun x => { x with wins := [{
       id := 1, pc := 0, left := 0, req := some { kind := .ld, ty := .n32, size := 4, uni := false, dst := 30, accs := [] }
       parts := [{ t := 0, pos := 0, la := 768, slot := 1, lo := 0, n := 4 }] }] }
     (∀ u ∈ [s, marked markedLoad 0, wait], isCur u = true) ∧ sinkLegal (ws s) = true ∧ sinkLegal (ws (marked markedLoad 0)) = false
     ∧ (match got (modCore s 0 fun k => { k with tlb := [] }) with | .error e => e == (0x04, 2) | .ok _ => false) = true
     ∧ effSet (grp s).ctx 16 0 false = 0xFFFF ∧ effSet (grp s).ctx 16 1 false = 0
     ∧ blocked (q s).ctx (io.under 0xFFFF) = false ∧ blocked (q wait).ctx (io.under 0xFFFF) = true
     ∧ allocCheck s 1 (q s) (allocNeed (q s).ctx io io.vw).1 (allocNeed (q s).ctx io io.vw).2 ≠ .trap
     ∧ decided s false = true ∧ isCur late = true ∧ blocked (q late).ctx (io.under 0xFFFF) = false ∧ decided late true = true) := by
  decide +kernel

/-- A sink group of one load by thread 0, under window 7, away on line 768. -/
def sunk (p : SinkSt → SinkSt) (n : Subj → Subj) : State :=
  { modCtx atMem 1 (fun x => { x with
      wins := [{ id := 7, pc := x.pc, left := 0 }]
      sinks := [(7, p { pc := x.pc, words := [(.ld, memF .n32)], eff := 1, away := 1, scap := x.s, lines := [(0, 768, 1)],
                        leaves := (coreOf atMem 0).tlb.map fun l => (0, l) })] })
    with subj := n { g := 1, win := 7, la := 768, slot := 1 } }

/-- A probe; the last hold, an earlier one, and one whose page may not be written; a store's instance, and a load's served by
a copy on the issuing die, by the home's slice and by the Press; a result with others away, the last, the last with a
fault; threads that go on in the core, and ones that came back. -/
theorem witness_SinkEventsHappen :
    (let k (s : State) : SinkSt := match sinkOf s 1 7 with | some (_, k) => k | none => { pc := 0 }
     let hold (n : Nat) := sunk (fun k => { k with store := true, probes := 768 :: List.replicate n 769 }) id
     let bad := sunk (fun k => { k with probes := [768], leaves := k.leaves.map fun l => (l.1, { l.2 with w := false }) }) id
     let chk (s : State) : Option Bad := siteCheck (modSink s 1 7 fun k => { k with held := k.held ++ [(768, 0)], probes := k.probes.drop 1 }) 1 7 768
       (((k s).lines.filter fun l => l.2.1 = 768).map (·.1)) .both
     let read (s : State) : Bool := !lowerInstance s 1 7 0 768 && !(k s).store && !granting s (localDie s s.subj.core 768) 768
       && !wbInFlight s s.subj.core 768
     let a := sunk id fun j => { j with core := 64 }
     let copy : State := modPart (modLine a 768 fun l => { l with copies := [(1, { slot := 1 })] }) 0 fun p => { p with cores := [0, 64], slices := [0, 64] }
     let home := modLine (sunk id id) 768 fun l => { l with home := some 0, slot := 1 }
     let take (s : State) : SinkSt := k (takeResult s (k s) s.subj)
     let two := sunk (fun k => { k with away := 3 }) id
     let bust := sunk (fun k => { k with fault := some { code := 0x14 } }) id
     wbInFlight (sunk id id) 0 768 = false
     ∧ (k (hold 0)).probes.head? = some 768 ∧ (chk (hold 0)).isNone = true ∧ (k (hold 0)).probes.length = 1
     ∧ (k (hold 1)).probes.length ≠ 1 ∧ (chk (hold 1)).isNone = true ∧ (k bad).probes.head? = some 768 ∧ (chk bad).isSome = true
     ∧ (k (hold 0)).store = true ∧ lowerInstance (hold 0) 1 7 0 768 = false
     ∧ read copy = true ∧ copyServes copy (localDie copy 64 768) 768 1 = true
     ∧ (∀ s ∈ [home, sunk id id], read s = true ∧ copyServes s (localDie s 0 768) 768 1 = false ∧ lineReady s 768 = true
        ∧ (lineSt s 768).queue = [])
     ∧ lineValid home 768 1 = true ∧ lineValid (sunk id id) 768 1 = false ∧ (k (sunk id id)).lim ≠ 1
     ∧ pressPaused (sunk id id) (channelOf 768) = false
     ∧ (take two).away ≠ 0 ∧ (take (sunk id id)).away = 0 ∧ (take (sunk id id)).fault = none ∧ (take bust).away = 0 ∧ (take bust).fault ≠ none
     ∧ (let c := sunk (fun k => { k with core := 1, away := 0 }) id
        let b := sunk (fun k => { k with returned := 1, away := 0 }) id
        sinkWaits (grp c).ctx 7 (k c) = true ∧ (k c).core ≠ 0 ∧ sinkWaits (grp b).ctx 7 (k b) = true ∧ (k b).core = 0)) := by
  decide +kernel

/-- `atMem` with thread 0 alone and a future word at `[s2]`, in a state, of an owner. -/
def withFut (st id : Nat) : State :=
  { modCtx atMem 1 (fun x => { x with active := 1, s := setPad 0 (setPad 0 (setPad 0 x.s 5 0x4000020000) 6 0x4000020000) 7 64 }) with
    mem := pokes atMem.mem 0x18000 (leBytes 8 (st * 2 ^ 60 + id * 2 ^ 32)) }

/-- Each task word with nobody; `FUTNEW` and `RESOLVE` that may and may not; `AWAIT` of a resolved word, of one owned by a running
task, of one whose task is in a cask, of one whose group is parked; `SPAWN` with room, and to an address that is none;
`PARK`, `STEAL` from a core named, from the fullest and from none; `ROLE` in range, out of it, and with too little
allotment. -/
theorem witness_TaskWordsComplete :
    (let f := memF .b32
     let accs (s : State) : List Acc := accsOf (ended (grp s)).ctx 16 f false none 1 (fun _ => 0) fun _ => 0
     let clean (s : State) : State := fallBack (forbid s 1 1) 1
     let goes (r : FutTry) : Bool := match r with | .go (_ :: _) u => (groupOf (clean u) 1).isSome | _ => false
     let fails (r : FutTry) : Bool := match r with | .bad _ _ => true | _ => false
     let new (s : State) : FutTry := futTry s 1 false (accs s) (futnewWhy false 1)
     let own (s : State) : FutTry := futTry s 1 false (accs s) (ownWhy false 1)
     let see (s : State) : FutTry := futTry s 1 true (accs s) fun s _ _ _ p => if badState (partWord s p) then some 5 else none
     let p : Part := { t := 0, pos := 0, la := 768, slot := 1, lo := 0, n := 8 }
     let caskS := modCore (withFut 3 9) 0 fun k => { k with casks := [(0, { launch := 1, recs := [{ task := 9, launch := 1 }] })] }
     let other : Group := { grp base with run := .out none, ctx := { (grp base).ctx with taskid := List.replicate 16 9 } }
     let parkS := { withFut 2 9 with groups := put (withFut 2 9).groups 2 other }
     let help (s : State) : Help := helpFor (clean s) (grp s) (groupPart s (grp s)) (partWord (clean s) p)
     let s := withFut 1 1
     let q := ended (grp s)
     let ioS : Io := { ur := [5], vr := [], vw := [4], lr := [] }
     let role (n : Word) : State := modCtx s 1 fun x => { x with s := setPad 0 x.s 7 n, v := [(0, {}), (1, {})] }
     (∀ u ∈ [withFut 0 0, s, withFut 8 0, withFut 3 9, caskS, parkS, role 2], isCur u = true)
     ∧ effSet q.ctx 16 0 false = 1 ∧ effSet q.ctx 16 1 false = 0
     ∧ (∀ io ∈ [ioAddr f false, (ioAddr f false).join (ioSrc false 16 2 false), { ur := [2], uw := [4] }, ioS, {}, { ur := [6, 7], uw := [6, 7] }],
        blocked q.ctx (io.under 1) = false ∧ blocked q.ctx (io.under 0) = false)
     ∧ goes (new (withFut 0 0)) = true ∧ fails (new s) = true ∧ goes (own s) = true ∧ fails (own (withFut 0 0)) = true
     ∧ settled (grp (clean s)).ctx = true ∧ (grp (clean s)).out = [] ∧ canRelease (clean s) 768 = true
     ∧ goes (see (withFut 8 0)) = true ∧ fails (see (withFut 4 0)) = true ∧ goes (see s) = true ∧ goes (see caskS) = true ∧ goes (see parkS) = true
     ∧ 7 ≤ futState (partWord (clean (withFut 8 0)) p) ∧ futState (partWord (clean s) p) < 2
     ∧ (∀ k ∈ acquireCores (clean (withFut 8 0)) 0 768, canDrain (clean (withFut 8 0)) k = true)
     ∧ 7 ≤ futState (partWord (acquireNow (clean (withFut 8 0)) 0 768).2 p)
     ∧ (match help caskS with | .record _ _ => true | _ => false) = true ∧ (match help parkS with | .group _ _ => true | _ => false) = true
     ∧ goodPc (readS q.ctx 5) = true ∧ goodPc (readS (ended (grp (onX fun x => { x with s := setPad 0 x.s 5 1 }))).ctx 5) = false
     ∧ allocCheck (setGroup s 1 q) 1 q (allocNeed q.ctx ioS ioS.vw).1 (allocNeed q.ctx ioS ioS.vw).2 = .ok
     ∧ (let u := modCtx s 1 fun x => { x with phase := 1 }
        let a := spawnAll (clean u) 1 (grp u) { plain with d := 4, a := 5 } [] [0] []
        let b := spawnAll (modPart (modCore (clean u) 0 fun k => { k with casks := (List.range 16).map fun i => (i, {}) }) 0 fun p => { p with ovLog := 0, ov := [(0, [{}])] })
          1 (grp u) { plain with d := 4, a := 5 } [] [0] []
        (passReady (clean u) 1 (grp u)).1 = true ∧ a.2.1 = [] ∧ (groupOf a.2.2 1).isSome = true ∧ b.2.1 ≠ [])
     ∧ (fullest (clean s) 0 (launchIdOf s (grp s)) 0).isNone = true
     ∧ roleOk (readS (ended (grp (role 2))).ctx 6) (readS (ended (grp (role 2))).ctx 7) = true ∧ (ended (grp (role 2))).ctx.v.length ≤ 2
     ∧ roleOk 0x4000020000 1 = true ∧ 1 < (ended (grp (role 1))).ctx.v.length ∧ roleOk 0x4000020000 0 = false) := by decide +kernel

/-- A cask that is full, one that is old and one that is boosted; a record in an overflow area that a cask has room for; a core that
steals; a helper whose work is over; groups that wait for a word that has changed; a spawner that waits for room. -/
theorem witness_TaskEventsHappen :
    (let rec_ : SpawnRec := { task := 9, launch := 1 }
     let caskS (n t : Nat) (b : List Boost) : State := { modCore base 0 (fun k => { k with cycles := t, casks := [(0, { launch := 1, recs := List.replicate n rec_ })] })
       with boosts := b, subj := {} }
     let fits (s : State) : Bool := !coreShut s (launchOf s 1).part 0 && (groupFits s 0 (launchOf s 1).rc).isSome
     let v (s : State) : Cask := look (coreOf s 0).casks 0 {}
     let due (s : State) : Bool := decide ((launchOf s 1).rc.age ≤ (coreOf s 0).cycles - (v s).since)
     let area := modPart base 0 fun p => { p with ov := [(0, [rec_])], ovLog := 4 }
     let idle : State := { modCore (modPart (caskS 3 0 []) 0 fun p => { p with cores := [0, 1] }) 1 fun k => { k with idle := 256 } with subj := { core := 1 } }
     let back : State := { modGroup base 1 (fun g => { g with outer := some 5, run := .retired }) with subj := { g := 1 } }
     let woken : State := { modGroup (withFut 8 0) 1 (fun g => { g with run := .parked (.await 0x18000 0) }) with subj := { pa := 0x18000 } }
     let room : State := { modGroup base 1 (fun g => { g with run := .parked (.spawnRoom fetchVa) }) with subj := { g := 1 } }
     (launchOf base 1).rc.w ≤ (v (caskS 16 0 [])).recs.length ∧ fits (caskS 16 0 []) = true
     ∧ due (caskS 1 256 []) = true ∧ due (caskS 1 255 []) = false ∧ fits (caskS 1 256 []) = true
     ∧ (∃ r ∈ (v (caskS 1 0 [⟨0, 9, 0, 0, 0⟩])).recs, ∃ b ∈ (caskS 1 0 [⟨0, 9, 0, 0, 0⟩]).boosts, b.part = 0 ∧ b.task = r.task)
     ∧ boostWaits (caskS 1 0 [⟨0, 9, 0, 0, 0⟩]) (coreOf (caskS 1 0 [⟨0, 9, 0, 0, 0⟩]) 0) (v (caskS 1 0 [⟨0, 9, 0, 0, 0⟩])) = false
     ∧ coreBusy idle 1 = false ∧ (ringMove area 0 0).isSome = true
     ∧ 256 ≤ (coreOf idle 1).idle ∧ (coreOf idle 1).casks = [] ∧ (mostFull idle (partOfCore idle 1) (dieOf 1)).isSome = true
     ∧ (grp back).outer.isSome = true ∧ (grp back).run = .retired
     ∧ wakers woken 0x18000 ≠ [] ∧ (grp room).run = .parked (.spawnRoom fetchVa)
     ∧ wakes room (grp room) (.spawnRoom fetchVa) = true) := by decide +kernel

/-- Branch conditions of zero and not zero, with a run in the slot. -/
theorem witness_FilterResults :
    (let s := base.withFetchWord 32 0
     match (slotOf s s.curSlot).cur with
     | some r => !r.ended && r.reg 1 == 0 && (r.set 1 5).reg 1 == 5
     | none => false) = true := by decide +kernel

/-- An event accepted, one not; a run that its balance just covers, and one short by one; a run at its end, with the next owner
waiting and without; a window due; a copy due; a program of length 0, 1, 48 and 49; the control, budget and doorbell windows. -/
theorem witness_TasterEventsHappen :
    (let v : TSlot := { run := true, bound := true, owner := 255, kinds := 1, low := 0, high := 511, len := 1, worst := 4 }
     let e : TEvent := { code := 0x1FF, source := 0, tenant := 255, payload := 0, seq := 0 }
     let s (v : TSlot) (t : Taster) : State := { base with slots := [(0, v)], tasters := [(0, t)], subj := {} }
     let run : TSlot := { v with cur := some { code := [0], pc := 1 } }
     (tasterOf base 0).stopped = false ∧ accepts v e = true ∧ accepts v { e with source := 4096 } = false ∧ accepts { v with high := 510 } e = false
     ∧ slotAt 0 0 = true ∧ slotAt 0 15 = true ∧ slotAt 0 16 = false
     ∧ (slotOf (s { v with queue := [e] } {}) 0).queue = e :: [] ∧ v.cur = none ∧ v.copying = none ∧ v.nextOwner = none
     ∧ v.worst ≤ look (tasterOf (s v { balance := [(128, 4)] }) 0).balance 128 0 ∧ look (tasterOf (s v { balance := [(128, 3)] }) 0).balance 128 0 < v.worst
     ∧ (slotOf (s run {}) 0).cur = some { code := [0], pc := 1 } ∧ { run with nextOwner := some 0x101 }.nextOwner = some 0x101
     ∧ (tasterOf (s v { windows := 1, cycles := 2 ^ 20 }) 0).windows * 2 ^ 20 ≤ (tasterOf (s v { windows := 1, cycles := 2 ^ 20 }) 0).cycles
     ∧ { v with copying := some true }.copyFrom + 2048 ≤ (tasterOf (s v { cycles := 2048 }) 0).cycles
     ∧ (slotOf base 0).run = false ∧ (∀ n ∈ [0, 1, 48, 49], bits (BitVec.ofNat 64 (256 * n + 1)).toNat 13 8 = n ∧ (BitVec.ofNat 64 (256 * n + 1)).getLsbD 0 = true)
     ∧ firstFail 1 [0] = none ∧ (firstFail 1 [0x64000000]).isSome = true ∧ (0 : Word).getLsbD 0 = false
     ∧ (0 : Nat) < 128 ∧ { base with boot := { stage := 5 } }.boot.stage = 5 ∧ 120 % 8 = 0 ∧ 120 < 128
     ∧ (let o := 0x20B8 % 0x8000; o % 8 = 0 ∧ o < 0x20C0 ∧ 0x2000 ≤ o) ∧ 0x1FFC < 0x2000 ∧ 0x1FFC % 4 = 0
     ∧ 0x200000 ≤ 0x206400 ∧ (0x206400 - 0x200000) % 0x2000 ≤ 0x400) := by decide +kernel

/-- A request of core 0, or of core 64 on the next die, for a line. -/
def lineReq (c : Nat) (k : CopyKind) : LineReq := { core := c, la := 768, slot := 1, kind := k, rv := 0, tenant := 0 }
/-- `base` with cores and slices of two dies, and what is kept of line 768. -/
def twoDies (l : LineSt) : State :=
  { modLine (modPart base 0 fun p => { p with cores := [0, 64], slices := [0, 64] }) 768 (fun _ => l) with subj := { die := 1, la := 768 } }

/-- A miss at the home's die, at another with no copy, with one under another slot, and with one in each state; fills and grants
with the core's own line in each case; a recall; a write-back and its acknowledgement; a prefetch with its buffer full and
not. -/
theorem witness_NearCacheEventsHappen :
    (let copy (st : Moesi) (slot : Nat) : State := twoDies { copies := [(1, { st := st, slot := slot })] }
     let held (n : NcLine) : State := { modCore base 0 (fun k => { k with near := [(768, n)] }) with subj := { core := 0, la := 768 } }
     let own (s : State) : Bool := match nearLine s 0 768 with
       | some n => n.slot == 1 && (n.st == .dirty || n.st == .exclusive)
       | none => false
     let wb : WbMsg := { id := 1, core := 0, la := 768, slot := 1, data := 0, mask := 1, vw := 0, grp := some 1, drainFor := none, poisoned := false }
     let press (p : Pref) : Pref := look { base with prefP := [(0, p)] }.prefP 0 {}
     (∀ s ∈ [base, copy .m 1, copy .i 2], wbInFlight s 0 768 = false ∧ granting s 0 768 = false ∧ granting s 1 768 = false)
     ∧ localDie base 0 768 = homeDie (demandAt base (localSlice base 0 768) 768 1 0 false) 768 ∧ localDie (copy .m 1) 64 768 = 1 ∧ homeDie (copy .m 1) 768 = 0
     ∧ find (lineSt (copy .m 1) 768).copies 1 = some { st := .m, slot := 1 } ∧ find (lineSt (twoDies {}) 768).copies 1 = none
     ∧ (∀ st ∈ [Moesi.m, .e, .o, .s], find (lineSt (copy st 2) 768).copies 1 = some { st := st, slot := 2 })
     ∧ own base = false ∧ own (held { st := .dirty, slot := 1 }) = true ∧ (lineSt (observe base 0 0) 768).wv = 0
     ∧ wbInFlight (dropOther base 0 768 1) 0 768 = false
     ∧ nearLine (fillHome base 768 1) 0 768 = none ∧ nearLine (held { st := .dirty, mask := 1, slot := 1 }) 0 768 = some { st := .dirty, mask := 1, slot := 1 }
     ∧ NcLine.isDirty { st := .dirty, mask := 1, slot := 1 } = true ∧ NcLine.isDirty { st := .leased, slot := 1 } = false
     ∧ 0 ∈ exclCores (held { st := .exclusive, slot := 1 }) 768
     ∧ wbWaits base wb = false ∧ (coreOf base 0).moving = none
     ∧ channelOf 768 = 0 ∧ (lineSt base 768).poison = false ∧ find (press { issued := 1 }).buffer 768 = none
     ∧ (press { issued := 1 }).used + (press { issued := 1 }).late + (press { issued := 1 }).evicted + (press { issued := 1 }).buffer.length < 1
     ∧ (press { issued := 1 }).buffer.length < 64 ∧ 64 ≤ (press { issued := 65, buffer := (List.range 64).map fun i => (i, 0) }).buffer.length
     ∧ (takeSplit { base with tape := [.split] }).1 = true ∧ (takeSplit base).1 = false ∧ wbWaits base { wb with mask := maskBytes 0 64 } = false
     ∧ firstSector (maskBytes 0 64) ≠ maskBytes 0 64 ∧ firstSector wb.mask = wb.mask
     ∧ (let p : PendLine := { la := 768, slot := 1, g := 2, t := none }
        ∃ q ∈ (coreOf (dropOther (modCore base 0 fun k => { k with pend := [p] }) 0 768 1) 0).pend, q.la = 768)) := by decide +kernel

/-- Arrivals at a free line and a held one; forwards, invalidations and their answers in each transient state; a slice's
write-back; an eviction of a copy in each state, and a recall; a fill asked for and one not; a census with more than one
die, and the last; entries that merge; drains done; a rebase due. -/
theorem witness_HomeEventsHappen :
    (let d : Due := ⟨.homeReadExclusive 1 (lineReq 64 .exclusive), {}⟩
     let up : Due := ⟨.homeUpgrade 1 (lineReq 64 .exclusive), {}⟩
     let busy (b : Busy) : State := twoDies { busy := b }
     let copy (st : Moesi) : State := twoDies { copies := [(1, { st := st, slot := 1 })] }
     let acq : AcqMsg := { core := 0, g := 1, win := 7, scope := .dev, la := 768, slot := 1 }
     let rel : RelMsg := { id := 1, core := 0, g := 1, scope := .dev, la := 768, slot := 1, data := 0, mask := 1, vw := 0 }
     let ent (b n : Nat) : DirEnt := { slice := 0, base := b, events := n }
     let dir (l : List DirEnt) : State := { twoDies {} with dir := l }
     let old : State := { modCtx base 1 (fun x => { x with rv := 2 ^ 48 }) with subj := {} }
     olderAtHome base 1 768 1 = false ∧ wbInFlight base 0 768 = false ∧ lineReady base 768 = true ∧ (lineSt base 768).queue = []
     ∧ lineReady (busy (.fill d)) 768 = false
     ∧ granting (copy .m) 1 768 = false ∧ find (lineSt (recallDie (copy .m) 1 768) 768).copies 1 = some { st := .m, slot := 1 }
     ∧ find (lineSt (recallDie (twoDies {}) 1 768) 768).copies 1 = none ∧ sliceWbInFlight (busy .idle) 1 768 = false
     ∧ (∀ b ∈ [Busy.fw d 1, .rx d [] (some 1), .wb d 1 [], .up up [1], .fill d, .idle, .acquire ⟨.homeAcquire acq, {}⟩ [] 0, .release ⟨.homeRelease rel, {}⟩ 0],
        (lineSt (busy b) 768).busy = b ∧ (lineSt (dirEvent (dirSync (busy b) 768) 768) 768).busy = b)
     ∧ sliceAsked (copy .m) 1 768 = false ∧ (1 : Nat) ≠ homeDie (copy .m) 768
     ∧ (∀ st ∈ [Moesi.m, .e, .o, .s], find (lineSt (copy st) 768).copies 1 = some { st := st, slot := 1 } ∧ lineReady (copy st) 768 = true)
     ∧ (∀ st ∈ [Moesi.m, .e], (look (lineSt (recallDie (copy st) 1 768) 768).copies 1 {}).st ≠ .s)
     ∧ (lineSt (twoDies { pf := some (0, 0, false) }) 768).pf = some (0, 0, false) ∧ 0 / 64 = homeDie (twoDies {}) 768
     ∧ dirAt (twoDies {}) 768 = none
     ∧ 1 ∈ [1, 2] ∧ [1, 2].erase 1 ≠ [] ∧ [1].erase 1 = [] ∧ (dirAt (dir [ent 768 0]) 768).isSome = true
     ∧ partOfLine (dir []) 768 = 0 ∧ dirAt (dir [ent 768 65536, ent 769 0]) 768 = some (ent 768 65536)
     ∧ (ent 768 65536).base = (ent 768 65536).base / 2 ^ 1 * 2 ^ 1
     ∧ (dir [ent 768 65536, ent 769 0]).dir.find? (fun x => x.slice = 0 && x.base = 768 + 2 ^ 0 && x.span = 0) = some (ent 769 0)
     ∧ 65536 ≤ (ent 768 65536).events + (ent 769 0).events ∧ spanIdle (dir []) (ent 768 65536) = true ∧ spanIdle (dir []) (ent 769 0) = true
     ∧ (lineSt (twoDies { home := some 0 }) 768).home ≠ none ∧ lineReady (twoDies { home := some 0 }) 768 = true ∧ exclCores (twoDies { home := some 0 }) 768 = []
     ∧ rebaseDue old 0 = true ∧ partQuiet old 0 = true) := by decide +kernel

/-- Tables whose root at 0x30000 maps the page 0x10000 to 0x50000 under slot 1. -/
def pageTables : List Host.Cell := pokes (pokes (pokes (pokes (pokes State.reset.mem 0x30000 (leBytes 8 0x31001)) 0x31000 (leBytes 8 0x32001))
  0x32000 (leBytes 8 0x33001)) 0x33000 (leBytes 8 0x34001)) 0x34008 (leBytes 8 0x001000000005000F)

/-- The spec's example of a launch record (19 R331). -/
def exampleRec : List Byte := ([0x0000004000010000, 0x0000004000000000, 0x0000004000020000, 0x0000008000000000, 0x0001000801000010,
  0x0000100000000000].map (leBytes 8)).flatten ++ List.replicate 208 0
theorem test_example_record :
    (let r := parseRec exampleRec
     recBad exampleRec = [] ∧ r.entry = 0x4000010000 ∧ r.arg = 0x4000000000 ∧ r.compl = 0x4000020000 ∧ r.grid = 1 ∧ r.scratch = 128
     ∧ r.pocket = 16 ∧ r.w = 16 ∧ r.team = 1 ∧ r.regs = 8 ∧ r.blocks = 1 ∧ r.age = 4096) := by decide +kernel

/-- `base` with a queue whose record is at the page's start. -/
def queued (tail : Nat) (bs : List Byte) : State :=
  { base with
    mem := pokes pageTables 0x50000 bs
    boot := { stage := 5 }
    vfs := [(0, { asid := 1, root := some 0x30000, queues := [(0, { base := 0x10000, tail := tail, report := 0x11000 })] })]
    subj := {} }
/-- A queue's descriptor of a ring of that size. -/
def queueDesc (log : Nat) : List Byte := record 64 [(0, 8, 0x10000), (8, 1, log), (16, 8, 0x11000)]

/-- Whether a descriptor's values may stand. -/
def descOk (d : List Byte) : Bool :=
  field d 0 8 % 256 = 0 && decide (4 ≤ field d 8 1) && decide (field d 8 1 ≤ 16) && decide (field d 9 1 < 64)
    && decide (field d 10 1 < 128) && field d 11 5 = 0 && field d 16 8 % 8 = 0 && field d 24 40 = 0

/-- Rings of 2^4 and 2^16 records, and of a size past each end; tails a ring ahead and one past it; a record taken and one
rejected. -/
theorem witness_LaunchEventsHappen :
    (let q (bs : List Byte) : State := queued 1 bs
     let bad : List Byte := List.replicate 256 0
     let spans (s : State) : Option (List Span) := cpSpans s 0 0 0x10000 256 .read
     let got (s : State) : List Byte := (spansRead s ((spans s).getD [])).1
     (∀ n ∈ [(4 : Nat), 16], (queueDesc n).length = 64 ∧ descOk (queueDesc n) = true) ∧ (∀ n ∈ [(3 : Nat), 17], (queueDesc n).length = 64 ∧ descOk (queueDesc n) = false)
     ∧ (q bad).boot.stage = 5 ∧ queueOf (q bad) 0 1 = none ∧ (queueOf (q bad) 0 0).isSome = true
     ∧ 2 ^ 4 < (17 + 2 ^ 32 - 0) % 2 ^ 32 ∧ (16 + 2 ^ 32 - 0) % 2 ^ 32 ≤ 2 ^ 4
     ∧ (∀ bs ∈ [bad, exampleRec], (find (q bs).parts 0).isSome = true ∧ (spans (q bs)).isSome = true ∧ turnQueue (q bs) 0 = some (0, 0)
       ∧ spansReady (q bs) ((spans (q bs)).getD []) = true)
     ∧ (least (recBad (got (q bad)))).isSome = true ∧ recBad (got (q exampleRec)) = [] ∧ (freeSlot (q exampleRec) 0).isSome = true) := by decide +kernel
/-- A team placed, the first held and not; a launch cancelled, and over; tokens due. -/
theorem witness_LaunchEventsHappen_teams :
    (let free : State := modLaunch base 1 fun l => { l with rc := { l.rc with tas := false } }
     let first : State := modPart free 0 fun v => { v with firstTeam := some 4 }
     let stays : State := modPart first 0 fun v => { v with hold := true }
     let coop : State := modLaunch base 1 fun l => { l with rc := { l.rc with coop := 2 } }
     let wide : State := modLaunch free 1 fun l => { l with rc := { l.rc with blocks := 1, scratch := 4096 } }
     let stuck : State := modPart free 0 fun v => { v with cores := [] }
     (dispatch (noteFirst free 0 (order free 0)) 0).isSome = true
     ∧ ((order free 0).head?.any fun i => (placeItem free 0 i).isSome) = true
     ∧ ((order wide 0).head?.any fun i => (placeItem wide 0 i).isNone && (designate wide 0 i).isSome) = true
     ∧ ((order stuck 0).head?.any fun i => (placeItem stuck 0 i).isNone && (designate stuck 0 i).isNone) = true
     ∧ held stays 0 = true ∧ held stuck 0 = false
     ∧ (partOf { first with sched := 2 ^ 20 } 0).firstTeam.isSome = true ∧ (partOf first 0).hold = false
     ∧ 2 ^ 20 ≤ { first with sched := 2 ^ 20 }.sched - (partOf first 0).firstSince
     ∧ (order coop 0).head? = some (.coop 1) ∧ (launchOf coop 1).next = 0 ∧ (partOf coop 0).cores.length < (launchOf coop 1).rc.coop
     ∧ (launchOf base 1).done = false ∧ launchOver base 1 { launchOf base 1 with killed := true } = false ∧ (∀ j ∈ (partOf base 0).cores, canClean base j = true)
     ∧ launchOver { base with teams := [], groups := [] } 1 { launchOf base 1 with killed := true } = true
     ∧ (teamOf base 1).tas = true ∧ base.cmds = [] ∧ (find base.parts 0).isSome = true ∧ (partOf base 0).period ≤ base.sched / 2 ^ 20
     ∧ look (coreOf base 0).tokens 0 0 = 0 ∧ look (coreOf (drawGrant base 0 0) 0).tokens 0 0 ≠ 0
     ∧ (look (partOf base 0).tenants 0 {}).balance ≠ 0) := by decide +kernel
/-- A core that leaves; splits both ways; waits that end; a team evicted, one saved, and one killed for its tile command's
fault. -/
theorem witness_LaunchEventsHappen_cores :
    (let gone : State := { modPart { base with groups := [] } 0 (fun v => { v with removing := [0] }) with due := [] }
     let core (p : Core → Core) : State := modCore base 0 p
     let why (w : Why) : State := modGroup base 1 fun g => { g with run := .parked w }
     let two : State := { modCore (why (.regs 1)) 0 (fun k => { k with cycles := 65536, regQueue := [1] }) with
       teams := put base.teams 2 { launch := 1, num := 1, groups := [2], st := .resident }
       groups := put (why (.regs 1)).groups 2 { grp base with team := 2, slot0 := 16, ctx := { (grp base).ctx with v := [(0, {})] } } }
     let kept (e : Bool) : State := modPart (modTeam base 1 fun tm => { tm with saving := some e }) 0 fun v => { v with poolLen := 2 ^ 20 }
     let calm (s : State) (e : Bool) : State := each (saveGroups s 1) s fun s h => settleRegion s h e
     let tile (a : Word) : Cmd := { kind := .tmma, st := .running, regs := [a, far 0x9000, 0, 0, 0x10000000], fmts := List.replicate 8 261 }
     0 ∈ (partOf gone 0).removing ∧ seats gone 0 = [] ∧ (∀ t ∈ gone.teams, ∀ g ∈ t.2.granules, g.1 ≠ 0) ∧ canDrain gone 0 = true
     ∧ (look (partOf gone 0).ov 0 []).length ≤ 2 ^ (partOf gone 0).ovLog
     ∧ (coreOf (core fun k => { k with blocks := [11] }) 0).target < 1 ∧ ((List.range 12).filter [11].contains).find? (fun _ => true) = some 11
     ∧ (coreOf base 0).moving = none ∧ (List.range 12).reverse.find? (fun b => !(coreOf base 0).blocks.contains b) = some 11
     ∧ coreQuiet (core fun k => { k with moving := some 11 }) 0 = true
     ∧ (∀ w ∈ [Why.yielding 0 1, .scratch [1]], (groupOf (why w) 1).isSome = true ∧ (grp (why w)).run = .parked w ∧ wakes (why w) (grp (why w)) w = true)
     ∧ (coreOf two 0).regQueue = 1 :: [] ∧ (grp two).run = .parked (.regs 1) ∧ rowsServe two 1 (grp two) 1 = true
     ∧ evictionDue two 0 = some (1, 2)
     ∧ (∀ e ∈ [true, false], let s := kept e
       (teamOf s 1).saving = some e ∧ (teamOf s 1).st = .resident ∧ saveGroups s 1 = [1] ∧ groupQuiet s 1 = true ∧ cmdsQuiet s 1 = true
       ∧ poolUsed s 0 + (teamBytes (calm s e) 1 + groupBytesNow (calm s e) 1) + poolKept s 0 ≤ (partOf s 0).poolLen ∧ canDrain (calm s e) 0 = true)
     ∧ (tileFault (eng (tile 0) [])).isSome = true ∧ teamLives (teamOf (eng (tile 0) []) 1) = true) := by decide +kernel

/-- `base` with a request in progress, its record of a code and operands. -/
def asking (code : Nat) (fs : List (Nat × Nat × Nat)) (s : State) : State :=
  { s with mgmt := { s.mgmt with busy := true, cur := record 64 ([(0, 2, code)] ++ fs) } }
/-- The same in a step after the first. -/
def later (n : Nat) (s : State) : State := { s with mgmt := { s.mgmt with phase := n } }
/-- The first group halted, as its fault record's handle names it. -/
def haltedS : State := modGroup base 1 fun g => { g with run := .halted }
/-- `base` with bytes at 0x40000. -/
def filled (bs : List Byte) : State := { base with mem := pokes base.mem 0x40000 bs }
/-- A partition's descriptor: numbers, no cores, and tables of zeros. -/
def partDesc (p log ring : Nat) : List Byte :=
  record 256 [(0, 1, p), (4, 2, 10), (128, 8, 0x100000), (168, 1, log), (176, 8, 0x110000), (192, 1, ring)]
/-- Whether a request of a state is of a code with no stray byte. -/
def asks_ (s : State) (code : Nat) (used : List (Nat × Nat)) : Bool := s.mgmt.busy && req s 0 2 == code && (strayByte s used).isNone
/-- The state and the bytes the firmware reads of it. -/
def readsOf (s : State) (pa n : Nat) : List Byte × State := spansRead s (fwSpans pa n)
/-- A descriptor's failing checks in a state that holds it. -/
def descBadAt (s : State) (but : Option Nat) : List Nat :=
  let a := readsOf s 0x40000 256
  let b := readsOf a.2 0x100000 8192
  let c := readsOf b.2 0x110000 2048
  descBad_ c.2 a.1 b.1 c.1 but

/-- A stray byte in each request; descriptors good and bad; a partition with a launch and without; a resize; teams to save, and
none left to save; a handler table. -/
theorem witness_ManagementRequestsHappen :
    (let codes : List (Nat × List (Nat × Nat)) := [(1, [(8, 8)]), (5, [(8, 4)]), (6, [(8, 4)]), (7, [(8, 4), (16, 8)]), (0x0A, [(8, 16)]), (0x0B, [(8, 16)]),
       (0x0C, [(8, 24)]), (0x10, [(8, 16)]), (0x11, [(8, 16)]), (0x12, [(8, 16)]), (0x13, [(8, 8)]), (0x20, [(8, 16)]), (0x21, [(8, 32)]),
       (0x30, [(8, 17)]), (2, []), (3, [(8, 8), (16, 1)]), (4, [(8, 2)]), (8, [(8, 8)]), (9, [(8, 16)])]
     let stray (c : Nat) : State := asking c [(63, 1, 1)] base
     let new (p log ring : Nat) : State := asking 1 [(8, 8, 0x40000)] (filled (partDesc p log ring))
     let own : State := asking 2 [] { base with launches := [] }
     let small : State := asking 3 [(8, 8, 0x40000), (16, 1, 1)] (filled [3])
     let save (n : Nat) : State := asking 4 [(8, 2, n)] base
     let tab : State := asking 8 [(8, 8, 0x40000)] (filled (leBytes 8 0 ++ leBytes 8 0x10001))
     let entries : List Nat := (List.range 64).map fun i => field (readsOf tab 0x40000 512).1 (8 * i) 8
     let same : State := filled (partDesc 0 12 4)
     (∀ e ∈ codes, (stray e.1).mgmt.busy = true ∧ req (stray e.1) 0 2 = e.1 ∧ (strayByte (stray e.1) e.2).isSome = true)
     ∧ requestEvent (req (asking 0x99 [] base) 0 2) = .managementUnknownCode
     ∧ (∀ p ∈ [1, 63, 64], asks_ (new p 12 4) 1 [(8, 8)] = true ∧ spansReady (new p 12 4) (fwSpans 0x40000 256) = true
       ∧ field (readsOf (new p 12 4) 0x40000 256).1 128 8 = 0x100000 ∧ field (readsOf (new p 12 4) 0x40000 256).1 176 8 = 0x110000)
     ∧ spansReady (new 1 12 4) (fwSpans 0x100000 8192) = true ∧ spansReady (new 1 12 4) (fwSpans 0x110000 2048) = true
     ∧ descBad_ base (partDesc 63 24 12) [] [] none = [] ∧ descBad_ base (partDesc 64 12 4) [] [] none = [0]
     ∧ descBad_ base (partDesc 1 25 13) [] [] none = [168, 192] ∧ descBad_ base (partDesc 0 12 4) [] [] (some 0) = []
     ∧ (find base.parts 0).isSome = true ∧ asks_ (asking 2 [] base) 2 [] = true ∧ liveLaunches (asking 2 [] base) 0 ≠ []
     ∧ asks_ own 2 [] = true ∧ liveLaunches own 0 = [] ∧ quiesced own 0 = true
     ∧ asks_ small 3 [(8, 8), (16, 1)] = true ∧ bitsOf 256 (leNat (readsOf small 0x40000 32).1) = [0, 1] ∧ (∀ x ∈ small.parts, x.1 = 0)
     ∧ (partOf small 0).slices ≠ [] ∧ (partOf small 0).channels ≠ [] ∧ req small 16 1 ≤ 1
     ∧ asks_ (save 0xFFFF) 4 [(8, 2)] = true ∧ (save 0xFFFF).mgmt.phase = 0 ∧ req (save 0xFFFF) 8 2 = 0xFFFF ∧ (later 1 (save 0)).mgmt.phase ≠ 0
     ∧ asks_ (later 1 (save 0)) 4 [(8, 2)] = true ∧ (∀ t ∈ (save 0).mgmt.list, (teamOf (save 0) t).saving = none)
     ∧ asks_ tab 8 [(8, 8)] = true ∧ entries.getD 0 0 % 256 = 0 ∧ (∀ e ∈ entries.drop 1, bits e 63 56 = 0 ∧ bits e 2 1 = 0)
     ∧ asks_ (asking 9 [(8, 8, 1), (16, 8, 1)] base) 9 [(8, 16)] = true
     ∧ field (readsOf same 0x40000 256).1 0 1 = 0 ∧ quiesced same 0 = true) := by decide +kernel

/-- A request to create a partition with a good descriptor. -/
def askGood : State := asking 1 [(8, 8, 0x40000)] (filled (partDesc 1 12 4))
theorem witness_ManagementRequestsHappen_home :
    ((homeEntries (readsOf (readsOf askGood 0x40000 256).2 0x100000 8192).1).any fun e => decide (2 ^ 32 ≤ e)) = false := by decide +kernel
theorem witness_ManagementRequestsHappen_tenants :
    tenantsOk (readsOf (readsOf (readsOf askGood 0x40000 256).2 0x100000 8192).2 0x110000 2048).1 = true := by decide +kernel
theorem witness_ManagementRequestsHappen_desc :
    (parseDesc (readsOf askGood 0x40000 256).1).slices = []
    ∧ descBad_ (readsOf (readsOf (readsOf askGood 0x40000 256).2 0x100000 8192).2 0x110000 2048).2 (readsOf askGood 0x40000 256).1 [] [] none = [] := by
  decide +kernel
/-- Good tables do not add to what a descriptor without slices fails. -/
theorem descBad_tables (s : State) (bs home tenants : List Byte) (h : ((homeEntries home).any fun e => decide (2 ^ 32 ≤ e)) = false)
    (ht : tenantsOk tenants = true) (hs : (parseDesc bs).slices = []) : descBad_ s bs home tenants none = descBad_ s bs [] [] none := by
  have h0 : ((homeEntries []).any fun e => decide (2 ^ 32 ≤ e)) = false := by decide +kernel
  have ht0 : tenantsOk [] = true := by decide +kernel
  simp only [descBad_, hs, List.isEmpty_nil, Bool.not_true, Bool.false_and, Bool.or_false, h, h0, ht, ht0]
/-- The failing checks of a descriptor and its tables as they are read: none, and the partition's number whatever the tables. -/
theorem witness_ManagementRequestsHappen_good : descBadAt askGood none = [] :=
  (descBad_tables _ _ _ _ witness_ManagementRequestsHappen_home witness_ManagementRequestsHappen_tenants
    witness_ManagementRequestsHappen_desc.1).trans witness_ManagementRequestsHappen_desc.2
theorem witness_ManagementRequestsHappen_bad (s : State) (home tenants : List Byte) : 0 ∈ descBad_ s (partDesc 64 12 4) home tenants none := by
  have h : field (partDesc 64 12 4) 0 1 = 64 := by decide +kernel
  simp [descBad_, h]

/-- A halted group, a command that waits for the driver, and neither; a communicator, the whole of an address space and one page, an
address space, a key slot live and not; the log; an update's steps. -/
theorem witness_ManagementRequestsHappen_more :
    (let cmd : State := { base with cmds := [(7, { st := .faulted 1 })] }
     let h (code n : Nat) : State := asking code [(8, 4, n)] haltedS
     let look_ (a : Nat) : State := asking 7 [(8, 4, 1), (16, 8, a)] haltedS
     let comm (n : Nat) : State := asking 10 [(8, 8, n), (16, 8, 0x40000)] (filled [2, 0, 1, 0, 1])
     let inv (va : Nat) : State := asking 11 [(8, 8, 4095), (16, 8, va)] base
     let space : State := asking 12 [(8, 8, 127), (16, 8, 4095), (24, 8, 2 ^ 52 - 4096)] base
     let key (code n : Nat) (fs : List (Nat × Nat × Nat)) : State := asking code ([(8, 8, n)] ++ fs) base
     let log : State := { asking 0x20 [(8, 8, 0), (16, 8, 0x40000)] base with boot := { log := [(2, 1, [])] } }
     let upd (n d : Nat) : State := asking 0x30 [(8, 8, 0x40000), (16, 8, n), (24, 1, d)] base
     (match heldBy (h 5 1) 1 with | some (.group i _) => i == 1 | _ => false) = true ∧ heldBy (h 5 9) (req (h 5 9) 8 4) = none
     ∧ (match heldBy (asking 6 [(8, 4, 7)] cmd) 7 with | some (.cmd c _ k) => c == 7 && k == 1 | _ => false) = true
     ∧ (∀ c ∈ [5, 6], asks_ (h c 1) c [(8, 4)] = true ∧ req (h c 1) 8 4 = 1)
     ∧ asks_ (look_ 0x40000) 7 [(8, 4), (16, 8)] = true ∧ (queryBytes (look_ 0x40000) 1).isSome = true ∧ req (look_ 0x40001) 16 8 % 8 ≠ 0
     ∧ req (look_ 0x40000) 16 8 % 8 = 0 ∧ spansReady (look_ 0x40000) (fwSpans 0x40000 80) = true
     ∧ asks_ (comm 4095) 0x0A [(8, 16)] = true ∧ req (comm 4095) 8 8 ≤ 4095 ∧ (comm 4095).cmds = [] ∧ spansReady (comm 0) (fwSpans 0x40000 64) = true
     ∧ (let bs := (readsOf (comm 4095) 0x40000 64).1
        2 ≤ field bs 0 2 ∧ field bs 0 2 ≤ 4096 ∧ field bs 2 2 < field bs 0 2 ∧ field bs 4 1 ≤ 1 ∧ field bs 6 2 = 0 ∧ field bs 16 48 = 0)
     ∧ (∀ va ∈ [0, 2 ^ 56 - 1, 2 ^ 64 - 1], asks_ (inv va) 0x0B [(8, 16)] = true ∧ (inv va).mgmt.phase = 0 ∧ req (inv va) 8 8 ≤ 4095
       ∧ req (inv va) 16 8 = va ∧ (va < 2 ^ 56 ∨ va = 2 ^ 64 - 1))
     ∧ asks_ space 0x0C [(8, 24)] = true ∧ req space 8 8 ≤ 127 ∧ req space 16 8 ≤ 4095 ∧ (∀ v ∈ space.vfs, v.2.asid ≠ req space 16 8)
     ∧ req space 24 8 % 4096 = 0 ∧ req space 24 8 < 2 ^ 52
     ∧ asks_ (key 0x10 1023 [(16, 8, 0x40000)]) 0x10 [(8, 16)] = true ∧ (look (key 0x10 1023 []).keys 1023 {}).live = false
     ∧ spansReady base (fwSpans 0x40000 384) = true
     ∧ asks_ (key 0x11 1 [(16, 8, 127)]) 0x11 [(8, 16)] = true ∧ (look base.keys 1 {}).live = true ∧ req (key 0x11 1 [(16, 8, 127)]) 16 8 ≤ 127
     ∧ asks_ (key 0x12 1 []) 0x12 [(8, 16)] = true ∧ req (key 0x12 1 []) 16 8 ∈ (look base.keys 1 {}).bound
     ∧ asks_ (key 0x13 1 []) 0x13 [(8, 8)] = true ∧ (key 0x13 1 []).mgmt.phase = 0 ∧ (later 1 (key 0x13 1 [])).mgmt.phase ≠ 0
     ∧ slotHeld (key 0x13 1 []) 1 = false
     ∧ slotBusy (later 1 (key 0x13 1 [])) 1 = false
     ∧ asks_ log 0x20 [(8, 16)] = true ∧ req log 8 8 ≤ log.boot.log.length ∧ spansReady log (fwSpans (Config.hostBase + 0x40000) 56) = true
     ∧ asks_ (asking 0x21 [(8, 32, 7)] base) 0x21 [(8, 32)] = true
     ∧ (∀ d ∈ [0, 4], ∀ n ∈ [1, 2 ^ 26], asks_ (upd n d) 0x30 [(8, 17)] = true ∧ (upd n d).mgmt.phase = 0 ∧ 0 < req (upd n d) 16 8
       ∧ req (upd n d) 16 8 ≤ 2 ^ 26 ∧ req (upd n d) 24 1 ≤ 4)
     ∧ (later 1 (upd 1 1)).mgmt.phase = 1 ∧ teamsOnDie (later 1 (upd 1 1)) 1 = [] ∧ 2 ≤ (later 2 (upd 1 1)).mgmt.phase
     ∧ spansReady base (fwSpans 0x40000 1) = true) := by decide +kernel

/-- Boot's stages, the last included; an access of the host, of a line that is well and one that is poisoned. -/
theorem witness_DeviceEventsHappen :
    (let up : State := { base with boot := { stage := 5 } }
     let sick : State := modLine up 768 fun l => { l with poison := true }
     (∀ n ∈ [1, 2, 3, 4, 5], n ≤ 5 ∧ n = (n - 1) + 1) ∧ base.boot.failed = 0 ∧ base.boot.stage = 0
     ∧ (∀ n ∈ [1, 128], 0x18000 % 128 + n ≤ 128) ∧ 0x18000 < Config.hostBase ∧ up.boot.stage = 5
     ∧ spansReady up (fwSpans 0x18000 128) = true ∧ lineBad up 768 = false ∧ lineBad sick 768 = true ∧ spansReady sick (fwSpans 0x18000 128) = true
     ∧ deadLine up 768 = false ∧ deadLine sick 768 = false ∧ deadLine { sick with dead := [(2, 0)] } 768 = true
     ∧ (∀ x ∈ fwSpans 0x18000 256, lineBad up x.1 = false) ∧ spansReady up (fwSpans 0x18000 256) = true
     ∧ up.mgmt.busy = false ∧ up.subj.port < 2 ∧ up.subj.tenant < 128
     ∧ (look base.keys (slotOfLine base 768) {}).bound.length < 2 ∧ 128 * 768 < Config.hostBase
     ∧ find (coreOf (withNear {}) 0).near 768 = some {}) := by decide +kernel

/-- A core, a slice and a channel that fail, with a spare and without; a scrub due. -/
theorem witness_DeviceEventsHappen_parts :
    (let fails (k n : Nat) (u : Nat) : State := { base with failing := [(k, n)], spares := [(0, u), (64, u), (128, u)] }
     let copies (k : Nat) : State := { { fails k 0 0 with copying := [(k, 0)] } with groups := [] }
     let scrub : State := { base with pressCycles := [(0, 1024)] }
     partExists .core 255 = true ∧ partExists .slice 255 = true ∧ partExists .channel 383 = true
     ∧ (0, 0) ∈ (fails 0 0 0).failing ∧ (0, 0) ∉ (fails 0 0 0).copying ∧ spareLeft (fails 0 0 1) .core 0 = true ∧ spareLeft (fails 0 0 2) .core 0 = false
     ∧ ((fails 0 0 2).parts.find? fun p => p.2.cores.contains 0).isSome = true
     ∧ (0, 0) ∈ (copies 0).copying ∧ (0, 0) ∈ (copies 0).failing ∧ seats (copies 0) 0 = [] ∧ canDrain (copies 0) 0 = true
     ∧ (1, 0) ∈ (fails 1 0 2).failing ∧ spareLeft (fails 1 0 2) .slice 0 = false
     ∧ (2, 0) ∈ (fails 2 0 0).failing ∧ spareLeft (fails 2 0 0) .channel 0 = true ∧ (2, 0) ∈ (copies 2).copying
     ∧ 1024 * (look scrub.scrub 0 0 + 1) ≤ look scrub.pressCycles 0 0 ∧ channelBusy scrub 0 = false ∧ pressPaused scrub 0 = false) := by
  decide +kernel

/-- A core's island that may be gated, whichever island the scheduling unit's is. -/
theorem witness_DeviceEventsHappen_island :
    ∃ i < 320, i ≠ Config.schedIsland ∧ residents base i = [] ∧ ∀ e ∈ (coreOf base i).ec, e = 0 := by
  have h : ∀ i ∈ [1, 2], residents base i = [] ∧ ∀ e ∈ (coreOf base i).ec, e = 0 := by decide +kernel
  by_cases k : Config.schedIsland = 1
  · exact ⟨2, by omega, by omega, (h 2 (by simp)).1, (h 2 (by simp)).2⟩
  · exact ⟨1, by omega, by omega, (h 1 (by simp)).1, (h 1 (by simp)).2⟩

/-! ### Values the spec works out -/

/-- Words the worked programs print (05 R103, 06, 07, 08, 09, 14, 16, 17). -/
theorem test_printed_words : decodesTo [
    ([0x0E00022000000681], .icmp { plain with d := 1, a := 4, ty := .i32, mod := 2, x := 1 }),
    ([0x38000A1820006004], .st { plain with d := 5, a := 3, b := 1, lrB := true, lrC := true, x := 4 } 0),
    ([0x04010000000000C2], .sink { plain with la := 2, mod := 3, x := 2 }),
    ([0x0A001240A3000600], .imad { plain with d := 9, a := 8, b := 5, c := 6, ty := .i32 }),
    ([0x4000121002800E22], .atom { plain with d := 9, a := 2, c := 5, ty := .n32, rm := .ru, x := 2 }),
    ([0x32C00E1000000E02], .ldx { plain with k := 4, d := 7, a := 2, ty := .n32, x := 2 } 0),
    ([0x6000004140011640], .tmma { plain with a := 8, b := 10, u := true, ty := .f32, mod := 1 }),
    ([0x50500C3041800040], .spawn { plain with k := 5, d := 6, a := 6, b := 2, c := 3, mod := 1 }),
    ([0x5150002805000042], .resolve { plain with k := 5, a := 5, c := 10, mod := 1, x := 2 }),
    ([0x3980202800011A20], .strl { plain with d := 16, a := 5, u := true, ty := .b64, rm := .ru } 0),
    ([0x5080185000010000], .await_ { plain with d := 12, a := 10, u := true }),
    ([0x69800A0000010000], .clockc { plain with d := 5, u := true }),
    ([0x3A00004000010000], .clean { plain with a := 8, u := true }),
    ([0x3A80004800010000], .inval { plain with a := 9, u := true })] = true := by decide +kernel

/-- The example's block in SB2 (04 R76, R77). -/
theorem test_sb2_block : quantise 1 .rn (([0x3FC00000, 0xBF000000, 0x3E800000, 0x3F400000] ++ List.replicate 11 0 ++ [0x80000000]).map (unpackFloat f32))
    = (0x80000000066B027F, 0) := by decide +kernel

/-- One BF16 block, three ways (04 R87): the block's result and NX. -/
theorem test_bf16_block :
    (let p (xs : List (Nat × Nat)) : Nat × Nat :=
       blockSum 48 ((xs.map fun x => (prodV (elemValue 5 x.1) (elemValue 5 x.2)).1) ++ List.replicate (16 - xs.length) (.fin false 0 0)) true
     let one := (0x3F80, 0x3F80)
     let tiny := (0x3980, 0x3980)
     p [one, tiny] = (0x3F800000, NX) ∧ p [one, tiny, (0x33C0, 0x3380)] = (0x3F800001, NX) ∧ p [one, tiny, (0xB3C0, 0x3380)] = (0x3F800001, NX)
     ∧ p [(0xBF80, 0x3F80), (0xB980, 0x3980), (0x33C0, 0x3380)] = (0xBF800001, NX)) := by decide +kernel

/-- The example's format slot may stand (04 R79, R80), and what it says. -/
theorem test_format_slot :
    (let v := 0x00000000000000040000000200000812
     slotLegal v = true ∧ efmtOf v = 2 ∧ splitOf v = true ∧ sstrideOf v = 2 ∧ spolOf v = 0) := by decide +kernel

/-- The index of the example's line (19 R344) and the run record of the example's codes (11 R274). -/
theorem test_home_index : homeIndex (0x400000080 / 128) = 129 := by decide +kernel
theorem test_run_record :
    sinkRecord { pc := 0, codes := (List.range 4).map (fun i => (4 + i, 1)) ++ (List.range 4).map fun i => (8 + i, 3) } 0 = 0xFF5500 := by decide +kernel

/-- The example's leaf and the copy-on-write one, through five tables (20 R364, R365). -/
theorem test_translation :
    (let s (e : Nat) : State := { base with
       mem := pokes (pokes (pokes (pokes (pokes State.reset.mem 0x30000 (leBytes 8 0x31001)) 0x31000 (leBytes 8 0x32001))
         0x32800 (leBytes 8 0x33001)) 0x33000 (leBytes 8 0x34001)) 0x34000 (leBytes 8 e) }
     let at_ (e : Nat) : Option (Nat × Leaf) := match walk (s e) 0x30000 1 0x4000000080 with | .ok l => some (leafPa l 0x4000000080, l) | .error _ => none
     at_ 0x005000040000000F = some (0x400000080, ⟨1, 0x400000, 16, 0x40000, 5, true, true, false, false⟩)
     ∧ at_ 0x0050000400000027 = some (0x400000080, ⟨1, 0x400000, 16, 0x40000, 5, true, false, false, true⟩)) := by decide +kernel

/-- SHA-256 of three bytes, as its standard gives it (log entry 12). -/
theorem test_sha256 : sha256 [0x61, 0x62, 0x63] = [0xBA, 0x78, 0x16, 0xBF, 0x8F, 0x01, 0xCF, 0xEA, 0x41, 0x41, 0x40, 0xDE, 0x5D, 0xAE, 0x22, 0x23,
    0xB0, 0x03, 0x61, 0xA3, 0x96, 0x17, 0x7A, 0x9C, 0xB4, 0x10, 0xFF, 0x61, 0xF2, 0x00, 0x15, 0xAD] := by decide +kernel

/-- A product in the cipher's field and two substitutions, as its standard gives them (log entry 12). -/
theorem test_cipher_field : fieldMul 0x57 0x83 = 0xC1 ∧ subByte 0x53 = 0xED ∧ unsubByte 0xED = 0x53 := by decide +kernel

end Sys2Proof.Tests
end

section
/-! What a step does with a choice of the tape: a device event and a Taster slot's instruction (00 R2, 22 R394). -/

namespace Sys2Proof.Machine

section StepChoices

variable {s : State} {rest : List Choice} {c : Choice} {d : Due}

/-- Where no grant is due, a step follows the next choice of the tape (18 R326). -/
theorem step_of_no_grant (hgrant : grantDue s = none) (htape : s.tape = c :: rest) :
    step s = follow { s with tape := rest } c := by
  have hgrant' : grantDue { s with tape := rest } = none := hgrant
  rw [step, htape]
  simp only [choose, hgrant']

/-- An event that is no message need not be in flight to be tried. -/
theorem performEvent_of_not_message (hmsg : isMessage d.ev = false) :
    performEvent s d = (tryEvent s d).getD (.next s) := by
  simp [performEvent, hmsg]

theorem tryEvent_of_next {t : State} (h : exec d.ev { s with subj := d.subj, due := s.due.erase d } = .next t) :
    tryEvent s d = some (.next (freshen t)) := by
  rw [tryEvent, h]

theorem tryEvent_of_notEnabled {n} (h : exec d.ev { s with subj := d.subj, due := s.due.erase d } = .fault (.notEnabled n)) :
    tryEvent s d = none := by
  rw [tryEvent, h]

theorem tryEvent_of_refused {r : Refusal} (h : exec d.ev { s with subj := d.subj, due := s.due.erase d } = .refused r) :
    tryEvent s d = some (.refused r) := by
  rw [tryEvent, h]

/-- Where no grant is due, a step whose choice is an event that is no message performs it if its conditions hold. -/
theorem step_event (hgrant : grantDue s = none) (htape : s.tape = .event d :: rest) (hmsg : isMessage d.ev = false) :
    step s = (tryEvent { s with tape := rest } d).getD (.next { s with tape := rest }) := by
  rw [step_of_no_grant hgrant htape]
  exact performEvent_of_not_message hmsg

/-- A slot whose run has not ended executes the instruction at the run's program counter, as that slot's (22 R394). -/
theorem runFilter_of_decoded {die slot : Nat} {r : FlRun} {i : Instr} (hcur : (look s.slots slot {}).cur = some r)
    (hended : r.ended = false) (hpc : r.pc < r.code.length) (hdec : decodeFilter (r.code.getD r.pc 0) = .ok i) :
    runFilter s die slot = exec i { s with curSlot := slot } := by
  have hgo : ¬ (r.ended || decide (r.code.length ≤ r.pc)) = true := by simp [hended, hpc]
  simp only [runFilter, hcur, if_neg hgo, hdec]

end StepChoices

/-- Settles O21: where no grant is due a step follows its choice; an event's outcome is that of its effect, and a Taster
slot's run executes its instruction. -/
theorem stepRunsEventsAndFilters : Obligations.StepRunsEventsAndFilters := by
  unfold Obligations.StepRunsEventsAndFilters
  intro s rest hgrant
  constructor
  · intro d htape hmsg
    rw [step_event hgrant htape hmsg]
    refine ⟨fun t hnext => ?_, fun n hfault => ?_, fun r hrefused => ?_⟩
    · rw [tryEvent_of_next hnext, Option.getD_some]
    · rw [tryEvent_of_notEnabled hfault, Option.getD_none]
    · rw [tryEvent_of_refused hrefused, Option.getD_some]
  · intro die slot r i htape hcur hended hpc hdec
    rw [step_of_no_grant hgrant htape]
    exact runFilter_of_decoded hcur hended hpc hdec

end Sys2Proof.Machine
end

section
/-! What a step does where it issues a group's word: fetch, decode and execute (02 R51, 05 R91, R92, R117, R120). -/

namespace Sys2Proof.Machine

section GroupSteps

variable {s s1 : State} {rest : List Choice} {h : Nat} {g g0 : Group} {ws : List Word}

/-- A choice that issues the group its cluster's opportunity goes to runs that group's word (02 R51). -/
theorem step_issue (hgrant : grantDue s = none) (htape : s.tape = .issue h :: rest) (hg : groupOf s h = some g)
    (hchosen : chooseIn { s with tape := rest } g.core (g.slot0 / 256) = some h) :
    step s = runGroup { s with tape := rest } h := by
  have hg' : groupOf { s with tape := rest } h = some g := hg
  rw [step_of_no_grant hgrant htape, follow, hg']
  exact if_pos hchosen

/-- Made ready to issue, a group is there still, with the context it had. -/
theorem groupOf_unpark_self (hg : groupOf s h = some g) : ∃ g0, groupOf (unpark s h) h = some g0 ∧ g0.ctx = g.ctx := by
  rw [unpark, modGroup_group, if_pos rfl, hg, Option.map_some]
  refine ⟨_, rfl, ?_⟩
  cases g.run <;> rfl

theorem runGroup_of_fetched (hg : groupOf { unpark s h with cur := h } h = some g0)
    (hfetch : fetchInstr { unpark s h with cur := h } g0 = (.ok ws, s1)) : runGroup s h = runWord s1 h g0 ws := by
  simp only [runGroup, hg, hfetch]

/-- A word that cannot be fetched is a fault of all active threads (05 R92). -/
theorem runGroup_of_not_fetched {code cause : Nat} (hg : groupOf { unpark s h with cur := h } h = some g0)
    (hfetch : fetchInstr { unpark s h with cur := h } g0 = (.error (code, cause), s1)) :
    runGroup s h = .next (raise s1 h (badRec g0.ctx g0.ctx.active { code := code, cause := cause })) := by
  simp only [runGroup, hg, hfetch]

theorem runWord_of_endsFault (hends : endsFault g.ctx (ws.headD 0) = true) :
    runWord s h g ws = .next (setGroup s h { g with ctx := endWins g.ctx }) :=
  if_pos hends

theorem runWord_of_not_endsFault (hends : endsFault g.ctx (ws.headD 0) = false) :
    runWord s h g ws = afterWord s h g (exec (decodeOr ws) s) :=
  if_neg (by rw [hends]; exact Bool.false_ne_true)

theorem decodeOr_of_ok {i : Instr} (hdec : decode ws = .ok i) : decodeOr ws = i := by
  rw [decodeOr, hdec]

theorem decodeOr_of_error {e} (hdec : decode ws = .error e) : decodeOr ws = .illegalInstruction (ws.headD 0) := by
  rw [decodeOr, hdec]

end GroupSteps

/-- Two states that differ in nothing but which groups are noted as waiting: each group keeps all but that note. -/
structure SameButNotes (t t' : State) : Prop where
  rest : t' = { t with groups := t'.groups }
  group : ∀ j p, groupOf t j = some p → ∃ b, groupOf t' j = some { p with stall := b }

theorem sameButNotes_refl (t : State) : SameButNotes t t := ⟨rfl, fun _ p hp => ⟨p.stall, hp⟩⟩

/-- Noting one group as waiting. -/
theorem sameButNotes_modGroup_stall (t : State) (h : Nat) (b : Bool) :
    SameButNotes t (modGroup t h fun g => { g with stall := b }) where
  rest := by unfold modGroup; split <;> rfl
  group j p hp := by
    rw [modGroup_group]
    by_cases hj : j = h
    · subst hj
      rw [if_pos rfl, hp]
      exact ⟨b, rfl⟩
    · rw [if_neg hj]
      exact ⟨p.stall, hp⟩

/-- Noting every group as waiting no longer. -/
theorem sameButNotes_freshen (t : State) : SameButNotes t (freshen t) := by
  unfold freshen
  split
  · refine ⟨rfl, fun j p hp => ⟨false, ?_⟩⟩
    have hread := find_map_value t.groups j fun _ (g : Group) => { g with stall := false }
    exact hread.trans (congrArg (Option.map _) hp)
  · exact sameButNotes_refl t

/-- What a step adds to a word that goes on: notes of who waits, and nothing else (02 R51). -/
theorem afterWord_next (s t : State) (h : Nat) (g : Group) :
    ∃ t', afterWord s h g (.next t) = .next t' ∧ SameButNotes t t' := by
  refine ⟨_, rfl, ?_⟩
  split
  · exact sameButNotes_modGroup_stall t h true
  · exact sameButNotes_freshen t

/-- Settles O19: an issue step is `runGroup`, which fetches, decodes and executes, and `afterWord` changes notes only. -/
theorem stepRunsDecoded : Obligations.StepRunsDecoded := by
  unfold Obligations.StepRunsDecoded
  constructor
  · intro s h rest g htape hgrant hg hchosen s0
    obtain ⟨g0, hg0, hctx⟩ := groupOf_unpark_self (s := { s with tape := rest }) hg
    have hg0' : groupOf s0 h = some g0 := hg0
    rw [step_issue hgrant htape hg hchosen]
    refine ⟨g0, hg0', hctx, fun ws s1 hfetch => ?_, fun code cause s1 hfetch => runGroup_of_not_fetched hg0' hfetch⟩
    rw [runGroup_of_fetched hg0' hfetch]
    refine ⟨runWord_of_endsFault, fun hends => ?_⟩
    rw [runWord_of_not_endsFault hends]
    exact ⟨fun i hdec => by rw [decodeOr_of_ok hdec], fun e hdec => by rw [decodeOr_of_error hdec]⟩
  · intro s t h g
    obtain ⟨t', hafter, hrest, hgroup⟩ := afterWord_next s t h g
    exact ⟨t', hafter, hrest, hgroup⟩

end Sys2Proof.Machine
end

section
/-! What the split stack does under each control word (03 R54 to R60): one equation for each case of the control flow. -/

namespace Sys2Proof.Machine

open Sys2Proof.Claims

/-! ### The three procedures that run without a fetch -/

section Walks

variable {n w win : Nat} {x : Ctx} {e : SplitEntry} {es : List SplitEntry} {j : Word}

theorem walkStack_joinAt_meets (hstack : x.stack = e :: es) (hrpc : e.rpc = j) (hdepth : e.depth = x.depth) :
    walkStack (n + 1) w win (.joinAt j) x
      = walkStack n w win .advance { x with stack := { e with jmask := e.jmask ||| x.active } :: es } := by
  rw [walkStack]
  simp [hstack, hrpc, hdepth]

/-- A `JOIN` that meets no entry is a plain jump. -/
theorem walkStack_joinAt_jumps (hmiss : ∀ e ∈ x.stack.head?, ¬(e.rpc = j ∧ e.depth = x.depth)) :
    walkStack (n + 1) w win (.joinAt j) x = .go { x with pc := j } := by
  rw [walkStack]
  cases hstack : x.stack with
  | nil => rfl
  | cons e es =>
    have hne : ¬(e.rpc = j ∧ e.depth = x.depth) := hmiss e (by rw [hstack]; rfl)
    simp only [Bool.and_eq_true, decide_eq_true_eq, if_neg hne]

theorem walkStack_leave_meets (hstack : x.stack = e :: es) (hdepth : e.depth = x.depth) :
    walkStack (n + 1) w win .leave x
      = walkStack n w win .advance { x with stack := { e with rmask := e.rmask ||| x.active } :: es } := by
  rw [walkStack]
  simp [hstack, hdepth]

/-- Outside a split of its own level the path returns. -/
theorem walkStack_leave_returns (hmiss : ∀ e ∈ x.stack.head?, e.depth ≠ x.depth) :
    walkStack (n + 1) w win .leave x = returnTo x w win := by
  rw [walkStack]
  cases hstack : x.stack with
  | nil => rfl
  | cons e es =>
    have hne : e.depth ≠ x.depth := hmiss e (by rw [hstack]; rfl)
    simp only [if_neg hne]

theorem walkStack_advance_deferred (hstack : x.stack = e :: es) (hdmask : e.dmask ≠ 0) :
    walkStack (n + 1) w win .advance x
      = .go { x with active := e.dmask, pc := e.dpc, depth := e.depth, stack := { e with dmask := 0 } :: es } := by
  rw [walkStack]
  simp only [hstack, if_pos hdmask]

/-- Where no path waits and no thread has left, those that met go on and meet the entry below if they can. -/
theorem walkStack_advance_merges (hstack : x.stack = e :: es) (hdmask : e.dmask = 0) (hjmask : e.jmask ≠ 0) (hrmask : e.rmask = 0) :
    walkStack (n + 1) w win .advance x
      = walkStack n w win (.joinAt e.rpc) { x with active := e.jmask, pc := e.rpc, depth := e.depth, stack := es } := by
  rw [walkStack]
  simp only [hstack, hdmask, ne_eq, not_true_eq_false, if_false, if_pos hjmask, hrmask, if_true]

/-- Where no path waits and some threads have left, those that met go on with the entry still open. -/
theorem walkStack_advance_met (hstack : x.stack = e :: es) (hdmask : e.dmask = 0) (hjmask : e.jmask ≠ 0) (hrmask : e.rmask ≠ 0) :
    walkStack (n + 1) w win .advance x
      = .go { x with active := e.jmask, pc := e.rpc, depth := e.depth, stack := { e with jmask := 0 } :: es } := by
  rw [walkStack]
  simp only [hstack, hdmask, ne_eq, not_true_eq_false, if_false, if_pos hjmask, if_neg hrmask]

/-- Where every thread of the entry that lives has left, they return together. -/
theorem walkStack_advance_leaves (hstack : x.stack = e :: es) (hdmask : e.dmask = 0) (hjmask : e.jmask = 0) (hrmask : e.rmask ≠ 0) :
    walkStack (n + 1) w win .advance x
      = walkStack n w win .leave { x with active := e.rmask, depth := e.depth, stack := es } := by
  rw [walkStack]
  simp only [hstack, hdmask, hjmask, ne_eq, not_true_eq_false, if_false, if_pos hrmask]

/-- The return address in a thread's pocket window (03 R59). -/
def returnAddr (x : Ctx) (win t : Nat) : Nat := leNat (pocketRead x t (win - 8 * x.depth) 8)

/-- The return address in the window of the lowest thread of a mask. -/
def commonReturn (x : Ctx) (win : Nat) (m : Word) : Word := .ofNat 64 (returnAddr x win (lowest m))

theorem returnTo_agreed (hagree : ∀ t ∈ threadsOf w x.active, returnAddr x win t = (commonReturn x win x.active).toNat)
    (hgood : goodPc (commonReturn x win x.active) = true) :
    returnTo x w win = .go { x with pc := commonReturn x win x.active, depth := x.depth - 1 } := by
  have hall : ¬((threadsOf w x.active).any fun t => returnAddr x win t != (commonReturn x win x.active).toNat) = true := by
    simpa using hagree
  have hpc : ¬(!goodPc (commonReturn x win x.active)) = true := by simp [hgood]
  exact (if_neg hall).trans (if_neg hpc)

theorem returnTo_mixed (hmixed : ∃ t ∈ threadsOf w x.active, returnAddr x win t ≠ (commonReturn x win x.active).toNat) :
    returnTo x w win = .bad 0x05 0 := by
  have hany : ((threadsOf w x.active).any fun t => returnAddr x win t != (commonReturn x win x.active).toNat) = true := by
    simpa using hmixed
  exact if_pos hany

theorem pushAll_fits {entries : List SplitEntry} {next : Ctx → Ctx} (hroom : x.stack.length + entries.length ≤ 64) :
    pushAll x entries next = .go (next { x with stack := entries ++ x.stack }) :=
  if_neg (Nat.not_lt.2 hroom)

theorem pushAll_full {entries : List SplitEntry} {next : Ctx → Ctx} (hfull : 64 < x.stack.length + entries.length) :
    pushAll x entries next = .bad 0x05 0 :=
  if_pos hfull

end Walks

/-! ### What the control words come to -/

section Branches

variable {x : Ctx} {w : Nat} {eff word : Word}

theorem brFlow_bad_address (hbad : goodPc (wordsFrom x (offLo word)) = false ∨ goodPc (wordsFrom x (offHi word)) = false) :
    brFlow x w eff word = .bad 0x04 1 :=
  if_pos (by simpa using hbad)

variable (htarget : goodPc (wordsFrom x (offLo word)) = true) (hrecon : goodPc (wordsFrom x (offHi word)) = true)
include htarget hrecon

theorem brFlow_all_taken (hrest : x.active &&& ~~~eff = 0) : brFlow x w eff word = .go { x with pc := wordsFrom x (offLo word) } := by
  simp [brFlow, htarget, hrecon, hrest]

variable (hrest : x.active &&& ~~~eff ≠ 0)
include hrest

theorem brFlow_bad_next (hnext : goodPc (x.pc + 16) = false) : brFlow x w eff word = .bad 0x04 1 := by
  simp only [brFlow, htarget, hrecon, hnext, if_neg hrest]
  rfl

variable (hnext : goodPc (x.pc + 16) = true)
include hnext

theorem brFlow_none_taken (heff : eff = 0) : brFlow x w eff word = .go { x with pc := x.pc + 16 } := by
  have hrest' : x.active &&& ~~~(0 : Word) ≠ 0 := heff ▸ hrest
  simp only [brFlow, htarget, hrecon, hnext, heff, if_neg hrest']
  rfl

variable (heff : eff ≠ 0)
include heff

/-- The smaller path, or on a tie the taken one, runs first; the other waits in a new entry. -/
theorem brFlow_diverges : brFlow x w eff word =
    if popCount w eff.toNat ≤ popCount w (x.active &&& ~~~eff).toNat then
      pushAll x [waitingPath x (wordsFrom x (offHi word)) (x.pc + 16) (x.active &&& ~~~eff)] fun x =>
        { x with active := eff, pc := wordsFrom x (offLo word) }
    else
      pushAll x [waitingPath x (wordsFrom x (offHi word)) (wordsFrom x (offLo word)) eff] fun y =>
        { y with active := x.active &&& ~~~eff, pc := x.pc + 16 } := by
  simp only [brFlow, htarget, hrecon, hnext, if_neg hrest, if_neg heff]
  by_cases hsize : popCount w eff.toNat ≤ popCount w (x.active &&& ~~~eff).toNat
  · rw [if_pos hsize, decide_eq_true hsize]; rfl
  · rw [if_neg hsize, decide_eq_false hsize]; rfl

theorem brFlow_full (hfull : 64 ≤ x.stack.length) : brFlow x w eff word = .bad 0x05 0 := by
  rw [brFlow_diverges htarget hrecon hrest hnext heff]
  split
  · exact pushAll_full (Nat.lt_succ_of_le hfull)
  · exact pushAll_full (Nat.lt_succ_of_le hfull)

variable (hroom : x.stack.length < 64)
include hroom

theorem brFlow_taken_first (hsize : popCount w eff.toNat ≤ popCount w (x.active &&& ~~~eff).toNat) :
    brFlow x w eff word = .go { x with
      active := eff, pc := wordsFrom x (offLo word)
      stack := waitingPath x (wordsFrom x (offHi word)) (x.pc + 16) (x.active &&& ~~~eff) :: x.stack } := by
  rw [brFlow_diverges htarget hrecon hrest hnext heff, if_pos hsize]
  exact pushAll_fits hroom

theorem brFlow_rest_first (hsize : popCount w (x.active &&& ~~~eff).toNat < popCount w eff.toNat) :
    brFlow x w eff word = .go { x with
      active := x.active &&& ~~~eff, pc := x.pc + 16
      stack := waitingPath x (wordsFrom x (offHi word)) (wordsFrom x (offLo word)) eff :: x.stack } := by
  rw [brFlow_diverges htarget hrecon hrest hnext heff, if_neg (Nat.not_le.2 hsize)]
  exact pushAll_fits hroom

end Branches

section Joins

/-- What `JOIN` comes to (03 R59). -/
def joinFlow (f : FOps) (x : Ctx) (w win : Nat) : Flow :=
  if !goodPc (wordsFrom x f.imm) then .bad 0x04 1 else walkStack walkFuel w win (.joinAt (wordsFrom x f.imm)) x

variable {f : FOps} {x : Ctx} {w win : Nat}

theorem joinFlow_bad_address (hbad : goodPc (wordsFrom x f.imm) = false) : joinFlow f x w win = .bad 0x04 1 :=
  if_pos (by simp [hbad])

theorem joinFlow_of_good (hgood : goodPc (wordsFrom x f.imm) = true) :
    joinFlow f x w win = walkStack walkFuel w win (.joinAt (wordsFrom x f.imm)) x :=
  if_neg (by simp [hgood])

theorem joinFlow_jumps (hgood : goodPc (wordsFrom x f.imm) = true)
    (hmiss : ∀ e ∈ x.stack.head?, ¬(e.rpc = wordsFrom x f.imm ∧ e.depth = x.depth)) :
    joinFlow f x w win = .go { x with pc := wordsFrom x f.imm } :=
  (joinFlow_of_good hgood).trans (walkStack_joinAt_jumps (n := 511) hmiss)

variable {e : SplitEntry} {es : List SplitEntry} (hgood : goodPc (wordsFrom x f.imm) = true) (hstack : x.stack = e :: es)
  (hrpc : e.rpc = wordsFrom x f.imm) (hdepth : e.depth = x.depth)
include hgood hstack hrpc hdepth

theorem joinFlow_meets : joinFlow f x w win
    = walkStack 511 w win .advance { x with stack := { e with jmask := e.jmask ||| x.active } :: es } :=
  (joinFlow_of_good hgood).trans (walkStack_joinAt_meets (n := 511) hstack hrpc hdepth)

/-- At the top entry's meeting point the waiting path runs next. -/
theorem joinFlow_deferred (hdmask : e.dmask ≠ 0) : joinFlow f x w win = .go { x with
    active := e.dmask, pc := e.dpc, stack := { e with dmask := 0, jmask := e.jmask ||| x.active } :: es } := by
  rw [joinFlow_meets hgood hstack hrpc hdepth,
    walkStack_advance_deferred (n := 510) (e := { e with jmask := e.jmask ||| x.active }) rfl hdmask, hdepth]

/-- The last path of an entry that no thread has left: all its threads go on from the meeting point. -/
theorem joinFlow_merges (hdmask : e.dmask = 0) (hmet : e.jmask ||| x.active ≠ 0) (hrmask : e.rmask = 0)
    (hbelow : ∀ e' ∈ es.head?, ¬(e'.rpc = wordsFrom x f.imm ∧ e'.depth = x.depth)) :
    joinFlow f x w win = .go { x with active := e.jmask ||| x.active, pc := wordsFrom x f.imm, stack := es } := by
  rw [joinFlow_meets hgood hstack hrpc hdepth,
    walkStack_advance_merges (n := 510) (e := { e with jmask := e.jmask ||| x.active }) rfl hdmask hmet hrmask]
  simp only [hrpc, hdepth]
  exact walkStack_joinAt_jumps (n := 509) hbelow

end Joins

section Calls

/-- What `CALL` comes to (03 R59). -/
def callFlow (word : Word) (x : Ctx) (w win : Nat) : Flow :=
  if !goodPc (wordsFrom x (offLo word)) then .bad 0x04 1
  else if win < 8 * (x.depth + 1) then .bad 0x05 0
  else
    let y := each (threadsOf w x.active) x fun y t => pocketWrite y t (win - 8 * (x.depth + 1)) (leBytes 8 (x.pc + 16).toNat)
    .go { y with depth := y.depth + 1, pc := wordsFrom x (offLo word) }

variable {word : Word} {x : Ctx} {w win : Nat}

/-- Writes of pocket windows leave the call depth. -/
theorem each_pocketWrite_depth (ts : List Nat) (x : Ctx) (a : Nat) (bs : List Byte) :
    (each ts x fun y t => pocketWrite y t a bs).depth = x.depth := by
  induction ts generalizing x with
  | nil => rfl
  | cons t ts ih => exact ih (pocketWrite x t a bs)

theorem callFlow_bad_address (hbad : goodPc (wordsFrom x (offLo word)) = false) : callFlow word x w win = .bad 0x04 1 :=
  if_pos (by simp [hbad])

variable (hgood : goodPc (wordsFrom x (offLo word)) = true)
include hgood

theorem callFlow_no_room (hwin : win < 8 * (x.depth + 1)) : callFlow word x w win = .bad 0x05 0 := by
  rw [callFlow, if_neg (by simp [hgood]), if_pos hwin]

theorem callFlow_enters (hwin : 8 * (x.depth + 1) ≤ win) : callFlow word x w win = .go
    { each (threadsOf w x.active) x (fun y t => pocketWrite y t (win - 8 * (x.depth + 1)) (leBytes 8 (x.pc + 16).toNat)) with
      depth := x.depth + 1, pc := wordsFrom x (offLo word) } := by
  rw [callFlow, if_neg (by simp [hgood]), if_neg (Nat.not_lt.2 hwin)]
  simp only [each_pocketWrite_depth]

end Calls

section Returns

/-- What `RET` comes to (03 R59). -/
def retFlow (x : Ctx) (w win : Nat) : Flow := if x.depth = 0 then .bad 0x05 0 else walkStack walkFuel w win .leave x

variable {x : Ctx} {w win : Nat}

theorem retFlow_outermost (hdepth : x.depth = 0) : retFlow x w win = .bad 0x05 0 := if_pos hdepth

variable (hdeep : x.depth ≠ 0)
include hdeep

theorem retFlow_returns (hmiss : ∀ e ∈ x.stack.head?, e.depth ≠ x.depth) : retFlow x w win = returnTo x w win :=
  (if_neg hdeep).trans (walkStack_leave_returns (n := 511) hmiss)

variable {e : SplitEntry} {es : List SplitEntry} (hstack : x.stack = e :: es) (hdepth : e.depth = x.depth)
include hstack hdepth

theorem retFlow_leaves : retFlow x w win
    = walkStack 511 w win .advance { x with stack := { e with rmask := e.rmask ||| x.active } :: es } :=
  (if_neg hdeep).trans (walkStack_leave_meets (n := 511) hstack hdepth)

/-- Inside a split of its own level the waiting path runs next. -/
theorem retFlow_deferred (hdmask : e.dmask ≠ 0) : retFlow x w win = .go { x with
    active := e.dmask, pc := e.dpc, stack := { e with dmask := 0, rmask := e.rmask ||| x.active } :: es } := by
  rw [retFlow_leaves hdeep hstack hdepth,
    walkStack_advance_deferred (n := 510) (e := { e with rmask := e.rmask ||| x.active }) rfl hdmask, hdepth]

variable (hdmask : e.dmask = 0) (hleft : e.rmask ||| x.active ≠ 0)
include hdmask hleft

/-- Where no path waits, those that met run next. -/
theorem retFlow_met (hjmask : e.jmask ≠ 0) : retFlow x w win = .go { x with
    active := e.jmask, pc := e.rpc, stack := { e with jmask := 0, rmask := e.rmask ||| x.active } :: es } := by
  rw [retFlow_leaves hdeep hstack hdepth,
    walkStack_advance_met (n := 510) (e := { e with rmask := e.rmask ||| x.active }) rfl hdmask hjmask hleft, hdepth]

/-- Where every thread of the split has left, they return together. -/
theorem retFlow_returns_all (hjmask : e.jmask = 0) (hbelow : ∀ e' ∈ es.head?, e'.depth ≠ x.depth) :
    retFlow x w win = returnTo { x with active := e.rmask ||| x.active, stack := es } w win := by
  rw [retFlow_leaves hdeep hstack hdepth,
    walkStack_advance_leaves (n := 510) (e := { e with rmask := e.rmask ||| x.active }) rfl hdmask hjmask hleft, hdepth]
  exact walkStack_leave_returns (n := 509) hbelow

end Returns

section Loops

/-- What `LOOPU` comes to (03 R59). -/
def loopuFlow (f : FOps) (word : Word) (x : Ctx) : Flow :=
  let n := readS x f.d.toNat - 1
  if !goodPc (wordsFrom x (offLo word)) || (n = 0 && !goodPc (x.pc + 16)) then .bad 0x04 1
  else .go { x with s := setPad 0 x.s f.d.toNat n, pc := if n = 0 then x.pc + 16 else wordsFrom x (offLo word) }

variable {f : FOps} {word : Word} {x : Ctx} (htarget : goodPc (wordsFrom x (offLo word)) = true)
include htarget

theorem loopuFlow_again (hcount : readS x f.d.toNat - 1 ≠ 0) : loopuFlow f word x
    = .go { x with s := setPad 0 x.s f.d.toNat (readS x f.d.toNat - 1), pc := wordsFrom x (offLo word) } := by
  refine (if_neg ?_).trans ?_
  · rw [htarget, decide_eq_false hcount]; simp
  · rw [if_neg hcount]

theorem loopuFlow_ends (hcount : readS x f.d.toNat - 1 = 0) (hnext : goodPc (x.pc + 16) = true) : loopuFlow f word x
    = .go { x with s := setPad 0 x.s f.d.toNat (readS x f.d.toNat - 1), pc := x.pc + 16 } := by
  refine (if_neg ?_).trans ?_
  · rw [htarget, hnext]; simp
  · rw [if_pos hcount]

end Loops

section Tables

variable (f : FOps) (ws : List Word) (x : Ctx) (w : Nat)

/-- The index by which a thread takes its branch of a table (03 R59). -/
def tableIndex (t : Nat) : Nat :=
  if f.u then (readS x f.a.toNat).toNat % 2 ^ 32 else readNbr x w f.a.toNat 1 t f.na f.edge

/-- The active threads that take branch `i` of a table. -/
def tableMask (i : Nat) : Word := maskOf ((threadsOf w x.active).filter fun t => tableIndex f x w t = i)

/-- The branches of a table that some active thread takes, rising. -/
def tablePicked : List Nat := risen (f.d.toNat + 1) ((threadsOf w x.active).map (tableIndex f x w))

variable {f ws x w}

theorem btabFlow_bad_address
    (hbad : goodPc (wordsFrom x f.imm) = false ∨ ∃ k ∈ tablePicked f x w, goodPc (wordsFrom x (tableOffset ws k)) = false) :
    btabFlow f ws x w = .bad 0x04 1 := by
  have hcond : (!goodPc (wordsFrom x f.imm) || (tablePicked f x w).any fun k => !goodPc (wordsFrom x (tableOffset ws k))) = true := by
    simpa using hbad
  exact if_pos hcond

variable (hrecon : goodPc (wordsFrom x f.imm) = true) (htargets : ∀ k ∈ tablePicked f x w, goodPc (wordsFrom x (tableOffset ws k)) = true)
include hrecon htargets

theorem btabFlow_good_address :
    ¬(!goodPc (wordsFrom x f.imm) || (tablePicked f x w).any fun k => !goodPc (wordsFrom x (tableOffset ws k))) = true := by
  simpa [hrecon] using htargets

theorem btabFlow_past_table (hpast : ∃ t ∈ threadsOf w x.active, f.d.toNat + 1 ≤ tableIndex f x w t) :
    btabFlow f ws x w = .bad 0x06 0 := by
  have hcond : ((threadsOf w x.active).any fun t => decide (f.d.toNat + 1 ≤ tableIndex f x w t)) = true := by simpa using hpast
  exact (if_neg (btabFlow_good_address hrecon htargets)).trans (if_pos hcond)

/-- The threads of the lowest index run first; every other index that occurs waits in an entry of its own. -/
theorem btabFlow_splits {i : Nat} {rest : List Nat} (hin : ∀ t ∈ threadsOf w x.active, tableIndex f x w t < f.d.toNat + 1)
    (hpicked : tablePicked f x w = i :: rest) (hroom : x.stack.length + rest.length ≤ 64) :
    btabFlow f ws x w = .go { x with
      active := tableMask f x w i, pc := wordsFrom x (tableOffset ws i)
      stack := rest.map (fun k => waitingPath x (wordsFrom x f.imm) (wordsFrom x (tableOffset ws k)) (tableMask f x w k)) ++ x.stack } := by
  have hcond : ¬((threadsOf w x.active).any fun t => decide (f.d.toNat + 1 ≤ tableIndex f x w t)) = true := by simpa using hin
  refine (if_neg (btabFlow_good_address hrecon htargets)).trans ((if_neg hcond).trans ?_)
  change (match tablePicked f x w with
    | [] => Flow.go x
    | i :: rest => pushAll x (rest.map fun k => waitingPath x (wordsFrom x f.imm) (wordsFrom x (tableOffset ws k)) (tableMask f x w k)) fun x' =>
        { x' with active := tableMask f x w i, pc := wordsFrom x (tableOffset ws i) }) = _
  rw [hpicked]
  exact pushAll_fits (by simpa using hroom)

end Tables

end Sys2Proof.Machine
end

section
/-! The control words of the current group (03 R59): the word moves the group, or faults, as its flow says. -/

namespace Sys2Proof.Machine

open Sys2Proof.Claims

section ControlWords

variable {i : Instr} {s : State} {h : Nat} {g : Group} {f : FOps} {io : Io} {uni : Bool} {body : Ctx → Nat → Nat → Word → Flow}
  (hc : current s = some (h, g)) (hexec : exec i s = issueCtl s io f.k f.kn uni body)
  (hfree : blocked (ended g).ctx (io.under (effSet g.ctx g.w f.k f.kn)) = false)
include hc hexec hfree

theorem moves_of_go {x : Ctx}
    (hflow : body (ended g).ctx g.w (groupLaunch (setGroup s h (ended g)) (ended g)).rc.pocket (effSet g.ctx g.w f.k f.kn) = .go x) :
    moves i s h g f io uni x := by
  rw [moves, hexec]
  exact issueCtl_moves hc io f.k f.kn uni body x hfree hflow

theorem faults_of_bad {code cause : Nat}
    (hflow : body (ended g).ctx g.w (groupLaunch (setGroup s h (ended g)) (ended g)).rc.pocket (effSet g.ctx g.w f.k f.kn)
      = .bad code cause) :
    faults i s h g f code cause := by
  rw [faults, hexec]
  exact issueCtl_faults hc io f.k f.kn uni body code cause hfree hflow

end ControlWords

section Meanings

variable (f : FOps) (word : Word) (ws : List Word) (s : State)

theorem exec_br : exec (.br f word) s = issueCtl s {} f.k f.kn false fun x w _ eff => brFlow x w eff word := rfl

theorem exec_join : exec (.join f) s = issueCtl s {} f.k f.kn false fun x w win _ => joinFlow f x w win := rfl

theorem exec_call : exec (.call f word) s = issueCtl s {} f.k f.kn false fun x w win _ => callFlow word x w win := rfl

theorem exec_ret : exec (.ret f) s = issueCtl s {} f.k f.kn false fun x w win _ => retFlow x w win := rfl

theorem exec_btab :
    exec (.btab f ws) s = issueCtl s (ioSrc f.u f.a.toNat 1 f.lrA) f.k f.kn f.u fun x w _ _ => btabFlow f ws x w := rfl

theorem exec_loopu : exec (.loopu f word) s
    = issueCtl s { ur := [f.d.toNat], uw := [f.d.toNat] } f.k f.kn true fun x _ _ _ => loopuFlow f word x := rfl

end Meanings

/-- Settles O12, by the cases of `brFlow`. -/
theorem branchSplits : Obligations.BranchSplits := by
  unfold Obligations.BranchSplits
  intro s h g f w hc x T N target recon next
  have hmoves (y : Ctx) (hflow : brFlow x g.w T w = .go y) : moves (.br f w) s h g f {} false y :=
    moves_of_go hc (exec_br f w s) (notBlocked_nil g _) hflow
  have hfaults (code cause : Nat) (hflow : brFlow x g.w T w = .bad code cause) : faults (.br f w) s h g f code cause :=
    faults_of_bad hc (exec_br f w s) (notBlocked_nil g _) hflow
  refine ⟨fun hbad => hfaults _ _ (brFlow_bad_address hbad), fun htarget hrecon => ⟨fun hrest => ?_, fun hrest hnext => ?_,
    fun hrest hnext => ⟨fun hT => ?_, fun hT hfull => ?_, fun hT hroom hsize => ?_, fun hT hroom hsize => ?_⟩⟩⟩
  · exact hmoves _ (brFlow_all_taken htarget hrecon hrest)
  · exact hfaults _ _ (brFlow_bad_next htarget hrecon hrest hnext)
  · exact hmoves _ (brFlow_none_taken htarget hrecon hrest hnext hT)
  · exact hfaults _ _ (brFlow_full htarget hrecon hrest hnext hT hfull)
  · exact hmoves _ (brFlow_taken_first htarget hrecon hrest hnext hT hroom hsize)
  · exact hmoves _ (brFlow_rest_first htarget hrecon hrest hnext hT hroom hsize)

/-- Settles O13: the walk from `JOIN` is a plain jump, or one turn to the waiting path, or a merge and then a jump. -/
theorem joinMeets : Obligations.JoinMeets := by
  unfold Obligations.JoinMeets
  intro s h g f hc x j
  have hmoves (y : Ctx) (hflow : ∀ win, joinFlow f x g.w win = .go y) : moves (.join f) s h g f {} false y :=
    moves_of_go hc (exec_join f s) (notBlocked_nil g _) (hflow _)
  refine ⟨fun hbad => ?_, fun hgood => ⟨fun hnil => ?_, fun e es hstack => ⟨fun hmiss => ?_, fun hrpc hdepth hdmask => ?_,
    fun hrpc hdepth hdmask hmet hrmask hbelow => ?_⟩⟩⟩
  · exact faults_of_bad hc (exec_join f s) (notBlocked_nil g _) (joinFlow_bad_address hbad)
  · exact hmoves _ fun win => joinFlow_jumps hgood (by simp [hnil])
  · refine hmoves _ fun win => joinFlow_jumps hgood fun e' he' hmeet => ?_
    obtain rfl : e = e' := by simpa [hstack] using he'
    exact hmiss.elim (fun hne => hne hmeet.1) (fun hne => hne hmeet.2)
  · exact hmoves _ fun win => joinFlow_deferred hgood hstack hrpc hdepth hdmask
  · exact hmoves _ fun win => joinFlow_merges hgood hstack hrpc hdepth hdmask hmet hrmask hbelow

section ReturnWord

variable {s : State} {h : Nat} {g : Group} {f : FOps} (hc : current s = some (h, g))
include hc

theorem ret_moves {y : Ctx}
    (hflow : retFlow (ended g).ctx g.w (groupLaunch (setGroup s h (ended g)) (ended g)).rc.pocket = .go y) :
    moves (.ret f) s h g f {} false y :=
  moves_of_go hc (exec_ret f s) (notBlocked_nil g _) hflow

theorem ret_faults {code cause : Nat}
    (hflow : retFlow (ended g).ctx g.w (groupLaunch (setGroup s h (ended g)) (ended g)).rc.pocket = .bad code cause) :
    faults (.ret f) s h g f code cause :=
  faults_of_bad hc (exec_ret f s) (notBlocked_nil g _) hflow

end ReturnWord

/-- Settles O14: `CALL` and `LOOPU` by the cases of their flow, `RET` by the walk it starts. -/
theorem callReturnAndLoop : Obligations.CallReturnAndLoop := by
  unfold Obligations.CallReturnAndLoop
  intro s h g f w hc x win target next a ret r n
  have hnil : blocked x (Io.under {} (effSet g.ctx g.w f.k f.kn)) = false := notBlocked_nil g _
  refine ⟨fun hgood hwin => ?_, fun hgood hwin => ?_, fun hbad => ?_, fun hdepth => ?_, fun hdeep hmiss => ⟨fun hagree hgood => ?_,
    fun hmixed => ?_⟩, fun hdeep e es hstack hdepth hdmask => ?_, fun hdeep e es hstack hdepth hdmask hleft => ⟨fun hjmask => ?_,
    fun hjmask hbelow hagree hgood => ?_⟩, fun hfree htarget => ⟨fun hcount => ?_, fun hcount hnext => ?_⟩⟩
  · exact moves_of_go hc (exec_call f w s) hnil (callFlow_enters hgood hwin)
  · exact faults_of_bad hc (exec_call f w s) hnil (callFlow_no_room hgood hwin)
  · exact faults_of_bad hc (exec_call f w s) hnil (callFlow_bad_address hbad)
  · exact ret_faults hc (retFlow_outermost hdepth)
  · exact ret_moves hc ((retFlow_returns hdeep hmiss).trans (returnTo_agreed hagree hgood))
  · exact ret_faults hc ((retFlow_returns hdeep hmiss).trans (returnTo_mixed hmixed))
  · exact ret_moves hc (retFlow_deferred hdeep hstack hdepth hdmask)
  · exact ret_moves hc (retFlow_met hdeep hstack hdepth hdmask hleft hjmask)
  · exact ret_moves hc ((retFlow_returns_all hdeep hstack hdepth hdmask hleft hjmask hbelow).trans (returnTo_agreed hagree hgood))
  · exact moves_of_go hc (exec_loopu f w s) hfree (loopuFlow_again htarget hcount)
  · exact moves_of_go hc (exec_loopu f w s) hfree (loopuFlow_ends htarget hcount hnext)

/-- Settles O15, by the cases of `btabFlow`. -/
theorem branchTable : Obligations.BranchTable := by
  unfold Obligations.BranchTable
  intro s h g f ws hc x io recon ts idx tgt mask picked hfree
  refine ⟨fun hbad => ?_, fun hrecon htargets => ⟨fun hpast => ?_, fun i rest hin hpicked hroom => ?_⟩⟩
  · exact faults_of_bad hc (exec_btab f ws s) hfree (btabFlow_bad_address hbad)
  · exact faults_of_bad hc (exec_btab f ws s) hfree (btabFlow_past_table hrecon htargets hpast)
  · exact moves_of_go hc (exec_btab f ws s) hfree (btabFlow_splits hrecon htargets hin hpicked hroom)

end Sys2Proof.Machine
end

section
/-! `EXIT` of the current group (03 R59): the group that is left, and the retirement of one that has no thread left. -/

namespace Sys2Proof.Machine

section ExitFlow

variable {x : Ctx} {w win : Nat} {gone : Word}

theorem exitFlow_stays (hrest : x.active &&& ~~~gone ≠ 0) :
    exitFlow x w win gone = .go { x with active := x.active &&& ~~~gone, pc := x.pc + 8 } :=
  if_pos hrest

variable (hrest : x.active &&& ~~~gone = 0)
include hrest

theorem exitFlow_last (hstack : x.stack = []) : ∃ y, exitFlow x w win gone = .gone y := by
  refine ⟨_, (if_neg (not_not_intro hrest)).trans (if_pos ?_)⟩
  rw [hstack]; rfl

/-- With no thread left on its path, a group runs its top entry's waiting path. -/
theorem exitFlow_deferred {e : SplitEntry} {es : List SplitEntry} (hstack : x.stack = e :: es) (hdmask : e.dmask ≠ 0) :
    exitFlow x w win gone = .go { x with active := e.dmask, pc := e.dpc, depth := e.depth, stack := { e with dmask := 0 } :: es } := by
  refine (if_neg (not_not_intro hrest)).trans ((if_neg ?_).trans (walkStack_advance_deferred (n := 511) hstack hdmask))
  simp [hstack]

end ExitFlow

theorem groupOf_setGroup_self (s : State) (h : Nat) (g : Group) : groupOf (setGroup s h g) h = some g := by
  rw [groupOf_setGroup, if_pos rfl]

theorem modCtx_group_self {s : State} {h : Nat} {g : Group} (F : Ctx → Ctx) (hg : groupOf s h = some g) :
    groupOf (modCtx s h F) h = some { g with ctx := F g.ctx } := by
  rw [modCtx, modGroup_group, if_pos rfl, hg]
  rfl

/-- A group some of whose threads have exited, and which goes on as the control state `x` says: the threads of `gone` are
live no more, and where there were any its region is closed (09 R240) and its dependency list empty (08 R208), as log
entry 18 has it. -/
structure ExitedTo (g : Group) (gone : Word) (x : Ctx) (g' : Group) : Prop where
  run : g'.run = g.run
  pc : g'.ctx.pc = x.pc
  active : g'.ctx.active = x.active
  depth : g'.ctx.depth = x.depth
  stack : g'.ctx.stack = x.stack
  live : g'.ctx.live = g.ctx.live &&& ~~~gone
  closed : gone ≠ 0 → g'.ctx.tdep = [] ∧ g'.ctx.region.getLsbD 0 = false

/-- Where threads exit, the region ends first: the group it leaves runs with the same live threads. -/
theorem endRegion_where_gone {s : State} {h : Nat} {g : Group} (gone : Word) (hg : groupOf s h = some g) :
    ∃ q, groupOf (if gone = 0 then s else endRegion s h) h = some q ∧ q.run = g.run ∧ q.ctx.live = g.ctx.live
      ∧ (gone ≠ 0 → q.ctx.region.getLsbD 0 = false) := by
  by_cases hgone : gone = 0
  · rw [if_pos hgone]
    exact ⟨g, hg, rfl, rfl, fun hne => absurd hgone hne⟩
  · rw [if_neg hgone, endRegion_group s h g hg]
    by_cases hopen : g.ctx.region.getLsbD 0 = true
    · rw [if_pos hopen]
      exact ⟨_, rfl, rfl, rfl, fun _ => BitVec.getLsbD_zero⟩
    · rw [if_neg hopen]
      exact ⟨g, rfl, rfl, rfl, fun _ => by simpa using hopen⟩

/-- What `EXIT` of the threads of `gone` comes to for the group `g` that holds handle `h`, by its control flow: the fault; or the
region closes, the word is paid for, the threads end and the group goes on; or it retires with its last threads. -/
def exitOutcome (s : State) (h : Nat) (g : Group) (gone : Word) : Flow → Host.Outcome State Fault Refusal
  | .bad code cause => .next (raise s h (badRec g.ctx gone { code := code, cause := cause }))
  | .go x => .next (modCtx
      (endThreads (spend (if gone = 0 then s else endRegion s h) h (laneCycles g.w gone)) h gone) h fun z =>
      { z with pc := x.pc, active := x.active, depth := x.depth, stack := x.stack, phase := 0
               tdep := if gone = 0 then z.tdep else [] })
  | .gone _ => .next (retireGroup (endThreads (endRegion (spend s h (laneCycles g.w gone)) h) h g.ctx.live) h)

section ExitWord

variable {s : State} {h : Nat} {g : Group} {f : FOps} (hc : current s = some (h, g))
include hc

theorem exec_exit : exec (.exit f) s = exitOutcome (setGroup s h (ended g)) h (ended g) (effSet g.ctx g.w f.k f.kn)
    (exitFlow (ended g).ctx g.w (groupLaunch (setGroup s h (ended g)) (ended g)).rc.pocket (effSet g.ctx g.w f.k f.kn)) := by
  change execExit f s = _
  rw [execExit, hc]
  rfl

theorem exit_goes {x : Ctx}
    (hflow : exitFlow (ended g).ctx g.w (groupLaunch (setGroup s h (ended g)) (ended g)).rc.pocket (effSet g.ctx g.w f.k f.kn) = .go x) :
    ∃ t g', exec (.exit f) s = .next t ∧ groupOf t h = some g' ∧ ExitedTo g (effSet g.ctx g.w f.k f.kn) x g' := by
  have hexec := exec_exit hc (f := f)
  rw [hflow] at hexec
  generalize effSet g.ctx g.w f.k f.kn = gone at hexec ⊢
  obtain ⟨q, hq, hrun, hlive, hclosed⟩ := endRegion_where_gone gone (groupOf_setGroup_self s h (ended g))
  obtain ⟨n, hn, -⟩ := spend_group _ h (laneCycles g.w gone) q hq
  exact ⟨_, _, hexec, modCtx_group_self _ (endThreads_group _ h gone _ hn),
    ⟨hrun, rfl, rfl, rfl, rfl, congrArg (· &&& ~~~gone) hlive, fun hne => ⟨if_neg hne, hclosed hne⟩⟩⟩

theorem exit_retires {y : Ctx}
    (hflow : exitFlow (ended g).ctx g.w (groupLaunch (setGroup s h (ended g)) (ended g)).rc.pocket (effSet g.ctx g.w f.k f.kn) = .gone y) :
    ∃ t g', exec (.exit f) s = .next t ∧ groupOf t h = some g'
      ∧ g'.run = .retired ∧ g'.ctx.live = 0 ∧ g'.ctx.active = 0 ∧ g'.ctx.v = [] ∧ g'.shadow = none := by
  obtain ⟨n, hn, -⟩ := spend_group _ h (laneCycles g.w (effSet g.ctx g.w f.k f.kn)) _ (groupOf_setGroup_self s h (ended g))
  obtain ⟨g', hg', hretired⟩ := retireGroup_group _ h _ (endThreads_group _ h g.ctx.live _ (endRegion_group _ h _ hn))
  refine ⟨_, g', ?_, hg', hretired⟩
  rw [exec_exit hc, hflow]
  rfl

end ExitWord

/-- Settles O16: the flow of `EXIT` says where the group goes, and the end of its threads what it keeps. -/
theorem exitEndsThreads : Obligations.ExitEndsThreads := by
  unfold Obligations.ExitEndsThreads
  intro s h g f hc x eff
  refine ⟨fun hrest => ?_, fun hrest e es hstack hdmask => ?_, fun hrest hstack => ?_⟩
  · obtain ⟨t, g', hexec, hg', out⟩ := exit_goes hc (exitFlow_stays (x := (ended g).ctx) hrest)
    exact ⟨t, g', hexec, hg', out.pc, out.active, out.live, out.stack, out.run, out.closed⟩
  · obtain ⟨t, g', hexec, hg', out⟩ := exit_goes hc (exitFlow_deferred (x := (ended g).ctx) hrest hstack hdmask)
    exact ⟨t, g', hexec, hg', out.pc, out.active, out.depth, out.live, out.stack, out.run⟩
  · obtain ⟨y, hflow⟩ := exitFlow_last (x := (ended g).ctx) hrest hstack
    exact exit_retires hc hflow

end Sys2Proof.Machine
end

section
/-! The manual's sample words (05 R93, R103, R113, R116, 22 R395), decoded. -/

namespace Sys2Proof.Machine

/-- Settles O59: the decoder is run on each of the ten words. -/
theorem sampleWords : Obligations.SampleWords := by
  unfold Obligations.SampleWords
  constructor
  · decide +kernel
  · decide +kernel

end Sys2Proof.Machine
end

section
/-! The long-latency words of the current group (05 R110, R117): the word opens its window with its result, or faults, as its
body says. -/

namespace Sys2Proof.Machine

open Sys2Proof.Claims

/-- What `GSCAN` writes (06 R151): for each thread of E what has been combined before it, where the scan is exclusive, or
what has been combined with it. -/
def gscanRes (f : FOps) (x : Ctx) (w : Nat) (eff : Word) : Res :=
  let scan := scanAll f.mod.toNat f.ty f.sat (readTy x f.ty f.a.toNat) (threadsOf w eff)
  { wr := (scan.1.map fun (t, pre, post) =>
      wrRun f.d.toNat f.ty.regs t (extendTo f.ty false (if f.x.getLsbD 1 then pre else post))).flatten
    flags := scan.2.2 }

/-- What `GRED` writes (06 R151): the combination of all threads of E, to each of them or to a uniform register. -/
def gredRes (f : FOps) (x : Ctx) (w : Nat) (eff : Word) : Res :=
  let uni := f.x.getLsbD 1
  let scan := scanAll f.mod.toNat f.ty f.sat (readTy x f.ty f.a.toNat) (threadsOf w eff)
  let v := extendTo f.ty uni scan.2.1
  if eff = 0 then {}
  else
    { wr := if uni then wrDst true f.d.toNat 1 0 v else ((threadsOf w eff).map fun t => wrRun f.d.toNat f.ty.regs t v).flatten
      flags := scan.2.2 }

section LongWords

variable {i : Instr} {s : State} {h : Nat} {g : Group} {f : FOps} {io : Io} {body : Ctx → Nat → Word → Except Bad Res}
  (hc : current s = some (h, g)) (hexec : exec i s = issueLong s f io body)
include hc hexec

theorem lateClaim_of_ok {r : Res} (hbody : body g.ctx g.w (effSet g.ctx g.w f.k f.kn) = .ok r) : lateClaim s h g f i io r := by
  intro hfree halloc
  refine ⟨_, ?_, openWin_spec ..⟩
  rw [hexec]
  exact issueLong_begins hc f io body r hbody hfree halloc

/-- The fault is raised before anything changes. -/
theorem raises_of_error {b : Bad} (hfree : blocked g.ctx (io.under (effSet g.ctx g.w f.k f.kn)) = false)
    (hbody : body g.ctx g.w (effSet g.ctx g.w f.k f.kn) = .error b) :
    exec i s = .next (raise s h (badRec g.ctx (effSet g.ctx g.w f.k f.kn) b)) := by
  rw [hexec, issueLong, hc]
  simp only [hfree, hbody, Bool.false_eq_true, if_false]

end LongWords

section Meanings

variable (s : State) (f : FOps)

theorem exec_longTable : ∀ e ∈ longTable f, exec e.1 s = issueLongAlu s e.2.1 f e.2.2 := by
  simp only [longTable, List.forall_mem_cons]
  exact ⟨rfl, rfl, rfl, rfl, rfl, rfl, rfl, rfl, rfl, rfl, List.forall_mem_nil _⟩

theorem exec_gscan : exec (.gscan f) s
    = issueLong s f ((ioSrc false f.a.toNat f.ty.regs f.lrA).join (ioDst false f.d.toNat f.ty.regs))
        fun x w eff => .ok (gscanRes f x w eff) := rfl

theorem exec_gred : exec (.gred f) s
    = issueLong s f ((ioSrc false f.a.toNat f.ty.regs f.lrA).join (ioDst (f.x.getLsbD 1) f.d.toNat f.ty.regs))
        fun x w eff => .ok (gredRes f x w eff) := rfl

theorem exec_product {h : Nat} {g : Group} (hc : current s = some (h, g)) (z : Bool) :
    exec (if z then .mmaz f else .mma f) s
      = issueLong s f (mmaIo f g.w (fmtSlot s g f.mod.toNat % 16) z) (mmaBody f (fmtSlot s g f.mod.toNat % 16) z) := by
  have hproduct : exec (if z then .mmaz f else .mma f) s = issueMma s f z := by cases z <;> rfl
  rw [hproduct, issueMma, hc]
  rfl

end Meanings

section Products

variable {f : FOps} {w efmt : Nat} (zero : Bool) (x : Ctx) (eff : Word)

theorem mmaBody_accepted (hok : mmaOk f w efmt = true) : ∃ r, mmaBody f efmt zero x w eff = .ok r := by
  rw [mmaBody, hok]
  exact ⟨_, rfl⟩

theorem mmaBody_refused (hbad : mmaOk f w efmt = false) : mmaBody f efmt zero x w eff = .error { code := 0x0A } := by
  rw [mmaBody, hbad]
  rfl

end Products

/-- Settles O8: each word issues with its body's result, and a product's body is a fault where it is not accepted. -/
theorem longResultsOpenWindows : Obligations.LongResultsOpenWindows := by
  unfold Obligations.LongResultsOpenWindows
  refine ⟨fun s h g f hc e he => lateClaim_of_ok hc (exec_longTable s f e he) rfl, fun s h g f hc => ?_⟩
  refine ⟨lateClaim_of_ok hc (exec_gscan s f) rfl, lateClaim_of_ok hc (exec_gred s f) rfl,
    fun z => ⟨fun r hr => ?_, ?_, fun hbad hfree => ?_⟩⟩
  · exact lateClaim_of_ok hc (exec_product s f hc z) hr
  · exact mmaBody_accepted z g.ctx _
  · exact raises_of_error hc (exec_product s f hc z) hfree (mmaBody_refused z g.ctx _ hbad)

end Sys2Proof.Machine
end

section
/-! A legal instruction is one that the tables build from its opcode, its fields and as many further words as they ask for; the
decoder accepts the words such a build is packed into and no others (05 R91 to R114, 22 R395). -/

namespace Sys2Proof

/-! ### Legal instructions -/

/-- What a legal instruction is built from: an opcode with its fields and further words, two pair slots, or a filter opcode with
its fields, each of which passes its checks (05 R96, R112 to R114, 22 R395). -/
inductive Instr.Legal : Instr → Prop
  | word (o : Op) (f : FOps) (ws : List Word) (hlen : ws.length = o.words f - 1) (hwf : o.wf f ws = true) : Legal (o.build f ws)
  | pair (a b : PairSlot) (ha : a.wf = true) (hb : b.wf = true) : Legal (a.op.build a.f b)
  | filter (o : FlOp) (f : FlF) (hwf : o.wf f = true) : Legal (o.build f)

section Parts

variable {i : Instr} {o : Op} {f : FOps} {ws : List Word}

theorem build_of_parts (h : i.parts = some (o, f, ws)) : o.build f ws = i := by
  cases i <;> cases h <;> rfl

theorem build_of_pairParts {a b : PairSlot} (h : i.pairParts = some (a, b)) : a.op.build a.f b = i := by
  cases i <;> cases h <;> rfl

theorem build_of_flParts {q : FlOp} {r : FlF} (h : i.flParts = some (q, r)) : q.build r = i := by
  cases i <;> cases h <;> rfl

/-- A load or store holds one further word, which stands behind its first word in the L form alone (05 R103). -/
theorem parts_oneWord (h : i.parts = some (o, f, ws)) (hform : o.entry.lform = true) : ∃ w, ws = [w] := by
  cases i with
  | ld | lds | ldp | ldc | lda | ldx | st | sts | stp | strl => cases h; exact ⟨_, rfl⟩
  | _ => cases h <;> cases hform

/-- Every other instruction but `BTAB` holds the further words that its length asks for (05 R104 to R106). -/
theorem parts_length (h : i.parts = some (o, f, ws)) (hform : o.entry.lform = false) (htable : o ≠ .btab) :
    ws.length = o.words f - 1 := by
  cases i with
  | ld | lds | ldp | ldc | lda | ldx | st | sts | stp | strl => cases h; cases hform
  | btab => cases h; exact absurd rfl htable
  | _ => cases h <;> rfl

end Parts

section LForm

variable {o : Op} (hform : o.entry.lform = true) (f : FOps) (ws : List Word)
include hform

theorem words_of_lform : o.words f = if f.isL then 2 else 1 := by
  cases o <;> cases hform <;> rfl

theorem extra_of_lform : o.extra f ws = (f.isL || (ws.getD 0 0).toNat == 0) := by
  cases o <;> cases hform <;> rfl

theorem build_nil_of_lform : o.build f [] = o.build f [0] := by
  cases o <;> cases hform <;> rfl

end LForm

/-- A load or store without its L form is the one whose further word is zero, and is built from its first word alone. -/
theorem legal_of_lform {o : Op} {f : FOps} {w : Word} (hform : o.entry.lform = true) (hwf : o.wf f [w] = true) :
    (o.build f [w]).Legal := by
  have hwords := words_of_lform hform f
  cases hl : f.isL with
  | true => exact .word o f [w] (by rw [hwords, hl]; rfl) hwf
  | false =>
    simp only [Op.wf, extra_of_lform hform, hl, Bool.false_or, Bool.and_eq_true, beq_iff_eq] at hwf
    obtain ⟨hfields, hzero⟩ := hwf
    obtain rfl : w = 0 := BitVec.eq_of_toNat_eq hzero
    rw [← build_nil_of_lform hform]
    refine .word o f [] (by rw [hwords, hl]; rfl) ?_
    simp [Op.wf, extra_of_lform hform, hfields]

theorem legal_of_parts {i : Instr} {o : Op} {f : FOps} {ws : List Word} (h : i.parts = some (o, f, ws)) (hwf : o.wf f ws = true) :
    i.Legal := by
  rw [← build_of_parts h]
  cases hform : o.entry.lform with
  | true =>
    obtain ⟨w, rfl⟩ := parts_oneWord h hform
    exact legal_of_lform hform hwf
  | false =>
    refine .word o f ws ?_ hwf
    by_cases htable : o = .btab
    · subst htable
      have hextra : (ws.length == (f.d.toNat + 2) / 2) = true := (Bool.and_eq_true_iff.1 hwf).2
      rw [beq_iff_eq.1 hextra, Op.words, Op.length, Nat.add_sub_cancel_left]
    · exact parts_length h hform htable

theorem op_build_flParts (o : Op) (f : FOps) (ws : List Word) : (o.build f ws).flParts = none := by
  cases o <;> rfl

theorem pair_build_flParts (a b : PairSlot) : (a.op.build a.f b).flParts = none := by
  obtain ⟨o, f⟩ := a
  cases o <;> rfl

theorem pair_build_wf (a b : PairSlot) : (a.op.build a.f b).wf = (a.wf && b.wf) := by
  obtain ⟨hparts, hpair⟩ := build_pair a b
  simp only [Instr.wf, hparts, hpair]

theorem filter_build_wf (o : FlOp) (f : FlF) : (o.build f).wf = o.wf f := by
  obtain ⟨hparts, hpair, hfilter⟩ := build_filter o f
  simp only [Instr.wf, hparts, hpair, hfilter]

/-- Well-formedness says of an instruction that it is built from parts that pass their checks. -/
theorem wf_iff_legal {i : Instr} : i.wf = true ↔ i.Legal := by
  constructor
  · intro hwf
    cases hparts : i.parts with
    | some p => exact legal_of_parts hparts (by simpa only [Instr.wf, hparts] using hwf)
    | none =>
      cases hpair : i.pairParts with
      | some p =>
        have hslots : p.1.wf = true ∧ p.2.wf = true := by simpa only [Instr.wf, hparts, hpair, Bool.and_eq_true] using hwf
        exact build_of_pairParts hpair ▸ .pair p.1 p.2 hslots.1 hslots.2
      | none =>
        cases hfilter : i.flParts with
        | some p => exact build_of_flParts hfilter ▸ .filter p.1 p.2 (by simpa only [Instr.wf, hparts, hpair, hfilter] using hwf)
        | none => simp [Instr.wf, hparts, hpair, hfilter] at hwf
  · rintro (⟨o, f, ws, hlen, hwf⟩ | ⟨a, b, ha, hb⟩ | ⟨o, f, hwf⟩)
    · exact build_wf o f ws hwf
    · rw [pair_build_wf, ha, hb, Bool.and_self]
    · rw [filter_build_wf, hwf]

/-! ### The words of a build -/

theorem encode_pair (a b : PairSlot) : encode (a.op.build a.f b) = [packPair a b] := by
  obtain ⟨hparts, hpair⟩ := build_pair a b
  simp only [encode, hparts, hpair]

theorem encode_filter (o : FlOp) (f : FlF) : encode (o.build f) = [(packFilter o f).setWidth 64] := by
  obtain ⟨hparts, hpair, hfilter⟩ := build_filter o f
  simp only [encode, hparts, hpair, hfilter]

theorem instrLen_packF (o : Op) (f : FOps) : instrLen (packF o f) = o.words f := by
  rw [instrLen, packF_form, unpackFields_packF]
  simp only [fFields, op_ofCode_code, BitVec.ofNat_toNat, BitVec.setWidth_eq, Bool.false_eq_true, if_false, Op.words]

theorem instrLen_packPair (a b : PairSlot) : instrLen (packPair a b) = 1 := by
  rw [instrLen, packPair_form, if_pos rfl]

theorem words_pos (o : Op) (f : FOps) : 0 < o.words f := by
  cases hform : o.entry.lform with
  | true => rw [words_of_lform hform]; split <;> decide
  | false => cases o <;> cases hform <;> simp [Op.words, Op.length]

/-! ### What the decoder makes of words -/

section Decoding

variable {w : Word} {rest : List Word} {i : Instr}

theorem decodeF_packF {o : Op} {f : FOps} {ws : List Word} (hlen : ws.length = o.words f - 1) (hwf : o.wf f ws = true)
    (rest : List Word) : decodeF (packF o f) (ws ++ rest) = .ok (o.build f ws) := by
  have henough : ¬ (ws ++ rest).length < ws.length := by rw [List.length_append]; omega
  simp only [decodeF, unpackF_packF, ← hlen, if_neg henough, List.take_left, hwf, if_true]

/-- What decodes from a first word of form 0: that word is packed from an opcode and fields, the further words are there, and
they pass the checks together (05 R95 to R106). -/
theorem decodeF_inv (hdec : decodeF w rest = .ok i) (hform : w.getLsbD 63 = false) :
    ∃ o f, w = packF o f ∧ o.words f - 1 ≤ rest.length ∧ o.wf f (rest.take (o.words f - 1)) = true
      ∧ i = o.build f (rest.take (o.words f - 1)) := by
  unfold decodeF at hdec
  cases hfields : unpackF w with
  | error e => simp [hfields] at hdec
  | ok p =>
    obtain ⟨o, f⟩ := p
    simp only [hfields] at hdec
    split at hdec
    · cases hdec
    next henough =>
      split at hdec
      next hwf => exact ⟨o, f, (packF_unpackF hfields hform).symm, Nat.not_lt.1 henough, hwf, (Except.ok.inj hdec).symm⟩
      · cases hdec

/-- What decodes from a word of form 1: the word is packed from two legal slots (05 R112 to R114). -/
theorem decodePair_inv (hdec : decodePair w = .ok i) (hform : w.getLsbD 63 = true) :
    ∃ a b, w = packPair a b ∧ a.wf = true ∧ b.wf = true ∧ i = a.op.build a.f b := by
  have hfields : unpackFields [1, 31, 31, 1] w.toNat
      = [w.toNat % 2, w.toNat / 2 % 2 ^ 31, w.toNat / 2 ^ 32 % 2 ^ 31, 1] := by
    have htop : w.toNat / 2 ^ 63 % 2 = 1 := by
      rw [BitVec.getLsbD, Nat.testBit_eq_decide_div_mod_eq, decide_eq_true_eq] at hform
      exact hform
    simp only [unpackFields, Nat.div_div_eq_div_mul]
    norm_num at htop ⊢
    exact htop
  have hpacked := pack_unpack [1, 31, 31, 1] w.toNat w.isLt
  rw [hfields] at hpacked
  unfold decodePair at hdec
  simp only [hfields] at hdec
  split at hdec
  · cases hdec
  next hzero =>
    split at hdec
    next a b ha hb =>
      split at hdec
      next hwf =>
        rw [Bool.and_eq_true] at hwf
        refine ⟨a, b, ?_, hwf.1, hwf.2, (Except.ok.inj hdec).symm⟩
        rw [packPair, packSlot_unpackSlot (Nat.mod_lt _ (by decide)) ha, packSlot_unpackSlot (Nat.mod_lt _ (by decide)) hb,
          ← Decidable.not_not.1 hzero, hpacked, BitVec.ofNat_toNat, BitVec.setWidth_eq]
      · cases hdec
    · cases hdec
    · cases hdec

/-- What decodes as a filter word: it is packed from an opcode and fields that pass its check (22 R395). -/
theorem decodeFilter_inv {w : W32} (hdec : decodeFilter w = .ok i) :
    ∃ o f, w = packFilter o f ∧ o.wf f = true ∧ i = o.build f := by
  have hpacked := pack_unpack flWidths w.toNat w.isLt
  simp only [decodeFilter, flWidths, unpackFields] at hdec hpacked
  split at hdec
  · cases hdec
  next o hop =>
    split at hdec
    next hwf =>
      refine ⟨o, _, ?_, hwf, (Except.ok.inj hdec).symm⟩
      simp only [packFilter, BitVec.toNat_ofNat, Nat.mod_mod, flOp_code_ofCode hop, flWidths]
      rw [hpacked, BitVec.ofNat_toNat, BitVec.setWidth_eq]
    · cases hdec

/-- What decodes begins with words of one of the two forms, packed from parts that pass their checks. -/
theorem decode_inv (hdec : decode (w :: rest) = .ok i) :
    (∃ o f, w = packF o f ∧ o.words f - 1 ≤ rest.length ∧ o.wf f (rest.take (o.words f - 1)) = true
      ∧ i = o.build f (rest.take (o.words f - 1)))
    ∨ ∃ a b, w = packPair a b ∧ a.wf = true ∧ b.wf = true ∧ i = a.op.build a.f b := by
  rw [decode_cons] at hdec
  cases hform : w.getLsbD 63 with
  | true => exact .inr (decodePair_inv (by simpa only [hform, if_true] using hdec) hform)
  | false => exact .inl (decodeF_inv (by simpa only [hform, Bool.false_eq_true, if_false] using hdec) hform)

/-- What decodes is the words that its first word asks for, and is built from parts that pass their checks. -/
theorem encode_of_decode (hdec : decode (w :: rest) = .ok i) :
    encode i = (w :: rest).take (instrLen w) ∧ instrLen w ≤ rest.length + 1 := by
  rcases decode_inv hdec with ⟨o, f, rfl, henough, hwf, rfl⟩ | ⟨a, b, rfl, ha, hb, rfl⟩
  · have hlen : (rest.take (o.words f - 1)).length = o.words f - 1 := List.length_take_of_le henough
    have hpos := words_pos o f
    rw [instrLen_packF, encode_build o f _ hlen, List.take_cons hpos]
    exact ⟨rfl, by omega⟩
  · rw [instrLen_packPair, encode_pair]
    exact ⟨rfl, by omega⟩

theorem legal_of_decode {ws : List Word} (hdec : decode ws = .ok i) : i.Legal := by
  cases ws with
  | nil => cases hdec
  | cons w rest =>
    rcases decode_inv hdec with ⟨o, f, -, henough, hwf, rfl⟩ | ⟨a, b, -, ha, hb, rfl⟩
    · exact .word o f _ (List.length_take_of_le henough) hwf
    · exact .pair a b ha hb

theorem legal_of_decodeFilter {w : W32} (hdec : decodeFilter w = .ok i) : i.Legal := by
  obtain ⟨o, f, -, hwf, rfl⟩ := decodeFilter_inv hdec
  exact .filter o f hwf

/-- A legal Afren instruction decodes from its words, whatever follows them. -/
theorem decode_encode_append (hlegal : i.Legal) (hafren : i.flParts = none) (rest : List Word) :
    decode (encode i ++ rest) = .ok i := by
  cases hlegal with
  | word o f ws hlen hwf =>
    rw [encode_build o f ws hlen, List.cons_append, decode_cons, packF_form, if_neg Bool.false_ne_true]
    exact decodeF_packF hlen hwf rest
  | pair a b ha hb =>
    rw [encode_pair, List.singleton_append, decode_cons, packPair_form, if_pos rfl]
    exact decodePair_packPair a b ha hb
  | filter o f hwf =>
    obtain ⟨-, -, hfilter⟩ := build_filter o f
    cases hfilter.symm.trans hafren

/-- A legal filter instruction decodes from its word. -/
theorem decodeFilter_encode (hlegal : i.Legal) (hfilter : i.flParts ≠ none) :
    ∃ w : W32, encode i = [w.setWidth 64] ∧ decodeFilter w = .ok i := by
  cases hlegal with
  | word o f ws => exact absurd (op_build_flParts o f ws) hfilter
  | pair a b => exact absurd (pair_build_flParts a b) hfilter
  | filter o f hwf => exact ⟨packFilter o f, encode_filter o f, decodeFilter_packFilter o f hwf⟩

end Decoding

/-- Settles O17: a legal instruction is built from its parts, packing loses none of them, and the decoder reads them back. -/
theorem decodeEncode : Obligations.DecodeEncode := by
  unfold Obligations.DecodeEncode
  intro i hwf
  have hlegal := wf_iff_legal.1 hwf
  exact ⟨decode_encode_append hlegal, decodeFilter_encode hlegal⟩

/-- Settles O18: the decoder accepts only words packed from parts that pass their checks. -/
theorem encodeDecode : Obligations.EncodeDecode := by
  unfold Obligations.EncodeDecode
  refine ⟨⟨fun w rest i hdec => encode_of_decode hdec, fun w i hdec => ?_⟩,
    fun ws i hdec => wf_iff_legal.2 (legal_of_decode hdec), fun w i hdec => wf_iff_legal.2 (legal_of_decodeFilter hdec)⟩
  obtain ⟨o, f, rfl, -, rfl⟩ := decodeFilter_inv hdec
  exact encode_filter o f

end Sys2Proof
end

section
/-! Results that land (05 R118): a complete result of a live group takes effect once its window has ended, and one of a retired
group only leaves. -/

namespace Sys2Proof.Machine

section Landing

variable {s : State} {g : Group} {w : Win} (hg : groupOf s s.subj.g = some g)
  (hfind : g.ctx.wins.find? (fun v => v.id = s.subj.win) = some w) (hdone : w.done = true) (hsink : w.sink = false)
  (hfault : w.fault = none)
include hg hfind hdone hsink hfault

theorem exec_longLatencyResult_retired (hrun : g.run = .retired) :
    exec .longLatencyResult s = .next (closeWin s s.subj.g w) := by
  have hexec : exec .longLatencyResult s = execLongLatencyResult s := rfl
  rw [hexec, execLongLatencyResult]
  simp [hg, hfind, hdone, hsink, hfault, hrun]

/-- The registers that a result writes are counted after those that it frees (02 R42). -/
theorem exec_longLatencyResult_lands (hrun : g.run ≠ .retired) (hleft : w.left = 0)
    (halloc :
      let x := if w.discarded then g.ctx else (unmap g.ctx w.frees).1
      let news := if w.discarded then [] else needNew x [] (vRegs w.vals)
      allocCheck s s.subj.g g (x.v.length + (news.filter fun r => (find x.v r).isNone).length) news.length = .ok) :
    exec .longLatencyResult s = .next (landResult s s.subj.g g w) := by
  have hexec : exec .longLatencyResult s = execLongLatencyResult s := rfl
  have hmay : (!w.done || w.sink || w.fault.isSome) = false := by simp [hdone, hsink, hfault]
  have hlive : (g.run == .retired) = false := by simpa using hrun
  rw [hexec, execLongLatencyResult]
  simp only [hg, hfind, hmay, hlive, hleft, halloc, ne_eq, not_true_eq_false, Bool.false_eq_true, if_false]

end Landing

/-- Settles O27: the event of a retired group is the end of its window, and any other is `landResult`. -/
theorem resultLands : Obligations.ResultLands := by
  unfold Obligations.ResultLands
  intro s g w hg hfind hdone hsink hfault
  refine ⟨exec_longLatencyResult_retired hg hfind hdone hsink hfault, fun hrun hleft => ?_⟩
  intro x news wr halloc
  obtain ⟨g', hgroup, hvector, hscalar, hrest, hothers, hmem, hlines⟩ := landResult_spec s s.subj.g g w hg
  exact ⟨_, g', exec_longLatencyResult_lands hg hfind hdone hsink hfault hrun hleft halloc, hgroup, hvector, hscalar, hrest, hothers,
    hmem, hlines⟩

end Sys2Proof.Machine
end

section
/-! Pair words (05 R112 to R116): their meaning is one function of the two slots, which traps where they clash and otherwise
reads both and writes both; and what each operation computes. -/

namespace Sys2Proof.Machine

open Sys2Proof.Claims

section PairWords

variable {s : State} {h : Nat} {g : Group} (hc : current s = some (h, g))

theorem exec_pair_build (o : PairOp) (a : PSlot) (b : PairSlot) (s : State) : exec (o.build a b) s = issuePair s ⟨o, a⟩ b := by
  cases o <;> rfl

theorem eq_build_of_mem_pairTable {a : PSlot} {b : PairSlot} {e : Instr × PairOp} (he : e ∈ pairTable a b) :
    e.1 = e.2.build a b := by
  have hall : ∀ e ∈ pairTable a b, e.1 = e.2.build a b := by simp [pairTable, PairOp.build]
  exact hall e he

include hc

theorem issuePair_clash {A B : PairSlot} (hclash : pairClash A B = true) :
    issuePair s A B = .next (raise s h (badRec g.ctx g.ctx.active { code := 0x03 })) := by
  simp only [issuePair, hc, hclash, if_true]

theorem issuePair_retires {A B : PairSlot} (hclash : pairClash A B = false)
    (hfree : blocked g.ctx (((slotIo A).under (effSet g.ctx g.w A.f.k A.f.kn)).join ((slotIo B).under (effSet g.ctx g.w B.f.k B.f.kn)))
      = false)
    {r : Res} (hr : r = { wr := (slotRes A g.ctx g.w).wr ++ (slotRes B g.ctx g.w).wr
                          flags := (slotRes A g.ctx g.w).flags ||| (slotRes B g.ctx g.w).flags })
    (halloc : allocCheck s h g (allocNeed g.ctx ((slotIo A).join (slotIo B)) (vRegs r.wr)).1
      (allocNeed g.ctx ((slotIo A).join (slotIo B)) (vRegs r.wr)).2 = .ok) :
    issuePair s A B = .next (retire s h g ((slotIo A).join (slotIo B)) 1
      (laneCycles g.w (effSet g.ctx g.w A.f.k A.f.kn ||| effSet g.ctx g.w B.f.k B.f.kn)) r) := by
  subst hr
  simp only [issuePair, hc, hclash, hfree, halloc, Bool.false_eq_true, if_false]

end PairWords

/-! ### What the operations compute (05 R113) -/

section PairOperations

variable (d v : Nat)

theorem wrapInt_natCast {k n : Nat} (hn : n < 2 ^ k) : wrapInt k n = n := by
  unfold wrapInt
  exact_mod_cast Nat.mod_eq_of_lt hn

theorem pairResult_iminN32 {d v : Nat} (hd : d < 2 ^ 32) (hv : v < 2 ^ 32) : pairResult .iminN32 d v = (min d v, 0) := by
  have hres : pairResult .iminN32 d v = (wrapInt 32 (min ((d % 2 ^ 32 : Nat) : Int) ((v % 2 ^ 32 : Nat) : Int)), 0) := rfl
  rw [hres, Nat.mod_eq_of_lt hd, Nat.mod_eq_of_lt hv, ← Nat.cast_min, wrapInt_natCast (by omega)]

theorem pairResult_imaxN32 {d v : Nat} (hd : d < 2 ^ 32) (hv : v < 2 ^ 32) : pairResult .imaxN32 d v = (max d v, 0) := by
  have hres : pairResult .imaxN32 d v = (wrapInt 32 (max ((d % 2 ^ 32 : Nat) : Int) ((v % 2 ^ 32 : Nat) : Int)), 0) := rfl
  rw [hres, Nat.mod_eq_of_lt hd, Nat.mod_eq_of_lt hv, ← Nat.cast_max, wrapInt_natCast (by omega)]

theorem pairResult_add : ∀ o ∈ [PairOp.iaddI32, .iaddI32Imm, .iaddI64, .iaddI64Imm],
    pairResult o d v = (wrapInt (pairTy o).width (sx d (pairTy o).width + sx v (pairTy o).width), 0) := by
  simp only [List.forall_mem_cons]
  exact ⟨rfl, rfl, rfl, rfl, List.forall_mem_nil _⟩

/-- Each operation on packed halves is that on each half, the flags of both together (04 R63). -/
theorem pairResult_halves : ∀ e ∈ ([(.faddBf16x2, fun a b => addV bf16 .rn (unpackFloat bf16 a) (unpackFloat bf16 b)),
      (.fmulBf16x2, fun a b => mulV bf16 .rn (unpackFloat bf16 a) (unpackFloat bf16 b)),
      (.fminBf16x2, minmaxV bf16 false), (.fmaxBf16x2, minmaxV bf16 true)] : List (PairOp × (Nat → Nat → Nat × Nat))),
    let lo := e.2 (d % 2 ^ 16) (v % 2 ^ 16)
    let hi := e.2 (d / 2 ^ 16 % 2 ^ 16) (v / 2 ^ 16 % 2 ^ 16)
    pairResult e.1 d v = (lo.1 + 2 ^ 16 * hi.1, lo.2 ||| hi.2) := by
  simp only [List.forall_mem_cons]
  exact ⟨rfl, rfl, rfl, rfl, List.forall_mem_nil _⟩

end PairOperations

/-- What holds of an operation on registers and of its immediate form holds of both as they are listed. -/
theorem forall_mem_pair {P : PairOp → Prop} {o o' : PairOp} (ho : P o) (ho' : P o') : ∀ q ∈ [o, o'], P q :=
  List.forall_mem_cons.2 ⟨ho, List.forall_mem_singleton.2 ho'⟩

/-- Settles O10: every pair word is `issuePair` of its two slots, and each operation computes what its name says. -/
theorem pairResults : Obligations.PairResults := by
  unfold Obligations.PairResults
  constructor
  · intro s h g a b hc e he o x A ea eb io ra rb r
    rw [eq_build_of_mem_pairTable he, exec_pair_build]
    refine ⟨issuePair_clash hc, fun hclash hfree halloc => ?_⟩
    refine ⟨_, ?_, retire_spec ..⟩
    rw [exec_pair_build]
    exact issuePair_retires hc hclash hfree rfl halloc
  · intro d v
    exact ⟨forall_mem_pair rfl rfl, pairResult_add d v, forall_mem_pair rfl rfl, rfl, rfl,
      fun hd hv => ⟨pairResult_iminN32 hd hv, pairResult_imaxN32 hd hv⟩, forall_mem_pair rfl rfl, forall_mem_pair rfl rfl,
      forall_mem_pair rfl rfl, rfl, forall_mem_pair rfl rfl, forall_mem_pair rfl rfl, forall_mem_pair rfl rfl, rfl, rfl, rfl, rfl,
      pairResult_halves d v⟩

end Sys2Proof.Machine
end

section
/-! What a fetch reads (05 R91, R92): the eight bytes at the address, where no check fails; and as many words behind a first
word as that one asks for. -/

namespace Sys2Proof.Machine

section Fetching

variable {s s1 s2 : State} {g : Group} {va : Nat} {l : Leaf} {w : Word} {ws : List Word}

/-- The word that a fetch reads at the home of the line (05 R92). -/
def homeWord (s : State) (l : Leaf) (va : Nat) : Word :=
  .ofNat 64 (leNat (lineBytes (readAtHome s (leafPa l va / 128) l.slot).1 (leafPa l va % 128) 8))

theorem fetchWord_of_readable (htrans : translate s g.core (vfOf s g) va = (.ok l, s1)) (hx : l.x = true)
    (hslot : slotOk s1 (vfOf s1 g) l.slot = true) (howns : ownsLine (partOf s1 (groupPart s1 g)) (leafPa l va / 128) = true)
    (hgood : lineBad s1 (leafPa l va / 128) = false) : fetchWord s g va = (.ok (homeWord s1 l va), s1) := by
  simp only [fetchWord, htrans, hx, hslot, howns, hgood, Bool.not_true, Bool.false_eq_true, if_false, homeWord]

theorem fetchInstr_of_words (hfirst : fetchWord s g g.ctx.pc.toNat = (.ok w, s1))
    (hrest : fetchWords s1 g (g.ctx.pc.toNat + 8) (instrLen w - 1) = (.ok ws, s2)) : fetchInstr s g = (.ok (w :: ws), s2) := by
  simp only [fetchInstr, hfirst, hrest]

theorem fetchInstr_one_word (hfirst : fetchWord s g g.ctx.pc.toNat = (.ok w, s1)) (hlen : instrLen w = 1) :
    fetchInstr s g = (.ok [w], s1) :=
  fetchInstr_of_words hfirst (by rw [hlen]; rfl)

end Fetching

/-- Settles O20: where every check of a fetch passes it answers the word at the home, and an instruction is its words. -/
theorem fetchReadsBytes : Obligations.FetchReadsBytes := by
  unfold Obligations.FetchReadsBytes
  intro s s1 g va l htrans pa hx hslot howns hgood w
  have hword : fetchWord s g va = (.ok w, s1) := fetchWord_of_readable htrans hx hslot howns hgood
  refine ⟨hword, fun hpc hlen => ?_, fun hpc ws s2 hrest => ?_⟩
  · subst hpc
    exact fetchInstr_one_word hword hlen
  · subst hpc
    exact fetchInstr_of_words hword hrest

end Sys2Proof.Machine
end

section
/-! Which fault goes first, and when (05 R121): the oldest window's whose words are over, before that of the word; at once where
nothing is outstanding. -/

namespace Sys2Proof.Machine

section OldestFault

variable {x : Ctx}

/-- A window with words left, of a sink group, or without a fault has none to deliver. -/
theorem no_fault_due {v : Win} (hv : v.left ≠ 0 ∨ v.sink = true ∨ v.fault = none) :
    (if v.left = 0 && !v.sink then v.fault else none) = none := by
  rcases hv with hleft | hsink | hfault
  · simp [hleft]
  · simp [hsink]
  · simp [hfault]

theorem oldestFault_of_window {ws more : List Win} {w : Win} {q : FaultRec} (hwins : x.wins = ws ++ w :: more)
    (hbefore : ∀ v ∈ ws, v.left ≠ 0 ∨ v.sink = true ∨ v.fault = none) (hleft : w.left = 0) (hsink : w.sink = false)
    (hfault : w.fault = some q) : oldestFault x = some { q with pc := x.pc } := by
  have hnone : (ws.findSome? fun v => if v.left = 0 && !v.sink then v.fault else none) = none :=
    List.findSome?_eq_none_iff.2 fun v hv => no_fault_due (hbefore v hv)
  have hfirst : (if w.left = 0 && !w.sink then w.fault else none) = some q := by simp [hleft, hsink, hfault]
  rw [oldestFault, hwins, List.findSome?_append, hnone, Option.none_or, List.findSome?_cons, hfirst]

theorem oldestFault_of_no_window (hwins : ∀ v ∈ x.wins, v.left ≠ 0 ∨ v.sink = true ∨ v.fault = none) :
    oldestFault x = x.pending := by
  have hnone : (x.wins.findSome? fun v => if v.left = 0 && !v.sink then v.fault else none) = none :=
    List.findSome?_eq_none_iff.2 fun v hv => no_fault_due (hwins v hv)
  rw [oldestFault, hnone]

end OldestFault

section TakingFaults

variable {s : State} {h : Nat} {g : Group} {r : FaultRec}

theorem raise_of_settled (hg : groupOf s h = some g) (hset : settled g.ctx = true) :
    raise s h r = takeFault s h ((oldestFault { g.ctx with pending := some r }).getD r) := by
  simp only [raise, hg, hset, if_true]

theorem raise_of_outstanding (hg : groupOf s h = some g) (hset : settled g.ctx = false) :
    raise s h r = setGroup s h { g with ctx := { g.ctx with pending := some r } } := by
  simp only [raise, hg, hset, Bool.false_eq_true, if_false]

theorem exec_faultDelivery (hg : groupOf s s.subj.g = some g) (hrun : g.run = .ready ∨ ∃ y, g.run = .parked y)
    (hset : settled g.ctx = true) (hfault : oldestFault g.ctx = some r) :
    exec .faultDelivery s = .next (takeFault s s.subj.g r) := by
  have hexec : exec .faultDelivery s = execFaultDelivery s := rfl
  rw [hexec, execFaultDelivery]
  rcases hrun with hready | ⟨y, hparked⟩
  · simp only [hg, hready, hfault, hset, if_true]
  · simp only [hg, hparked, hfault, hset, if_true]

end TakingFaults

/-- Settles O30: what is taken is the oldest fault, a window's where one has ended faulted, else that of the word. -/
theorem faultsAreDeferred : Obligations.FaultsAreDeferred := by
  unfold Obligations.FaultsAreDeferred
  intro s h g r hg
  refine ⟨fun hset => ⟨fun ws w more q hwins hbefore hleft hsink hfault => ?_, fun hnone => ?_⟩, raise_of_outstanding hg,
    fun hsubj hrun hset => ?_⟩
  · have hold := oldestFault_of_window (x := { g.ctx with pending := some r }) hwins hbefore hleft hsink hfault
    rw [raise_of_settled hg hset, hold, Option.getD_some]
  · have hold := oldestFault_of_no_window (x := { g.ctx with pending := some r }) hnone
    rw [raise_of_settled hg hset, hold, Option.getD_some]
  · subst hsubj
    refine ⟨fun ws w more q hwins hbefore hleft hsink hfault => ?_, fun hnone q hpending => ?_⟩
    · exact exec_faultDelivery hg hrun hset (oldestFault_of_window hwins hbefore hleft hsink hfault)
    · exact exec_faultDelivery hg hrun hset ((oldestFault_of_no_window hnone).trans hpending)

end Sys2Proof.Machine
end

section
/-! Words that only fault: a privileged word outside handler mode (05 R109), and a word that is no instruction (05 R108). -/

namespace Sys2Proof.Machine

/-- A fault's record does not depend on whether the windows have ended. -/
theorem badRec_endWins (x : Ctx) (eff : Word) (b : Bad) : badRec (endWins x) eff b = badRec x eff b := rfl

section FaultingWords

variable {s : State} {h : Nat} {g : Group} (hc : current s = some (h, g))

/-- What a privileged word does outside handler mode: the windows end, and it raises the privilege fault (05 R109). -/
def privilegeFault (s : State) (h : Nat) (g : Group) : Host.Outcome State Fault Refusal :=
  .next (raise (setGroup s h (ended g)) h (badRec (ended g).ctx g.ctx.active { code := 0x02 }))

include hc

theorem issueHandler_outside (hshadow : g.shadow = none) (op : Op) (f : FOps) (io : Io) (act : State → Nat → Group → Ctx → Act) :
    issueHandler s op f io act = privilegeFault s h g := by
  simp only [issueHandler, hc, hshadow, privilegeFault, ended, badRec_endWins]

theorem execTret_outside (hshadow : g.shadow = none) (f : FOps) : execTret f s = privilegeFault s h g := by
  simp only [execTret, hc, hshadow, privilegeFault, ended, badRec_endWins]

theorem execHalt_outside (hshadow : g.shadow = none) (f : FOps) : execHalt f s = privilegeFault s h g := by
  simp only [execHalt, hc, hshadow, privilegeFault, ended, badRec_endWins]

/-- Every privileged word faults outside handler mode (05 R109). -/
theorem exec_privileged_outside (hshadow : g.shadow = none) (f : FOps) :
    ∀ i ∈ [Instr.tret f, .halt f, .killt f, .tlbi f, .ctxsv f, .ctxld f], exec i s = privilegeFault s h g := by
  simp only [List.forall_mem_cons]
  exact ⟨execTret_outside hc hshadow f, execHalt_outside hc hshadow f, issueHandler_outside hc hshadow ..,
    issueHandler_outside hc hshadow .., issueHandler_outside hc hshadow .., issueHandler_outside hc hshadow .., List.forall_mem_nil _⟩

/-- A word that is no instruction faults, where its opcode ends windows after they have ended (05 R108, R117). -/
theorem exec_illegalInstruction (w : Word) {q : Group} (hq : q = if endsWindows (opcodeOf w) then ended g else g) :
    exec (.illegalInstruction w) s = .next (raise (setGroup s h q) h (badRec q.ctx q.ctx.active { code := 0x01 })) := by
  have hexec : exec (.illegalInstruction w) s = execIllegalInstruction w s := rfl
  subst hq
  rw [hexec, execIllegalInstruction, hc]
  rfl

end FaultingWords

/-- Settles O31: every privileged word outside handler mode raises one and the same fault, and an illegal word its own. -/
theorem privilegedAndIllegalWords : Obligations.PrivilegedAndIllegalWords := by
  unfold Obligations.PrivilegedAndIllegalWords
  intro s h g f hc
  refine ⟨fun hshadow => exec_privileged_outside hc hshadow f, fun w => ?_⟩
  intro q
  have hactive : q.ctx.active = g.ctx.active := by
    simp only [q]
    split <;> rfl
  rw [exec_illegalInstruction hc w rfl, ← hactive]

end Sys2Proof.Machine
end

section
/-! The words that read and write registers at once (06 R123): issued, such a word completes with its body's result or raises
its body's fault; and the words of the plain kind, each thread's result from its own sources. -/

namespace Sys2Proof.Machine

open Sys2Proof.Claims

section RegisterWords

variable {i : Instr} {s : State} {h : Nat} {g q : Group} {f : FOps} {code len : Nat} {uni : Bool} {io : Io}
  {body : Ctx → Nat → Word → Except Bad Res} {r : Res} {b : Bad} (hc : current s = some (h, g))
  (hexec : exec i s = issue s code len f.k f.kn uni io body) (hq : q = if endsWindows code then ended g else g)
include hc hexec hq

/-- A word whose body answers a result completes with it. -/
theorem wordClaim_of_ok (hbody : body q.ctx q.w (effSet q.ctx q.w f.k f.kn) = .ok r) :
    wordClaim s h q f i io len uni r := by
  intro hmay
  refine ⟨_, ?_, retire_spec ..⟩
  rw [hexec]
  exact issue_retires hc code len f.k f.kn uni io body r q hq hbody hmay

/-- A word whose body answers a fault raises it. -/
theorem issueRaises_of_error (hfree : blocked q.ctx (io.under (effSet q.ctx q.w f.k f.kn)) = false)
    (hbody : body q.ctx q.w (effSet q.ctx q.w f.k f.kn) = .error b) :
    exec i s = .next (raise (setGroup s h q) h (badRec q.ctx (effSet q.ctx q.w f.k f.kn) b)) := by
  have hq' : q = if endsWindows code then { g with ctx := endWins g.ctx } else g := hq
  rw [hexec, issue]
  simp only [hc, ← hq', hfree, hbody, Bool.false_eq_true, if_false]

end RegisterWords

/-- `i` is a word of the plain kind (06 R123), and no window ends with it (05 R117). -/
structure PlainWord (i : Instr) (op : Op) (f : FOps) (comp : Nat → Nat → Nat → Nat × Nat) : Prop where
  meaning : ∀ s, exec i s = issueAlu s op f comp
  keepsWindows : endsWindows op.code = false

theorem PlainWord.aluClaim {i : Instr} {op : Op} {f : FOps} {comp : Nat → Nat → Nat → Nat × Nat} (hplain : PlainWord i op f comp)
    {s : State} {h : Nat} {g : Group} (hc : current s = some (h, g)) : aluClaim s h g f i op comp := by
  have hexec := hplain.meaning s
  rw [issueAlu] at hexec
  exact wordClaim_of_ok hc hexec (by rw [hplain.keepsWindows]; rfl) rfl

section PlainTables

variable (f : FOps)

theorem plainWord_intTable : ∀ e ∈ intTable f,
    PlainWord e.1 e.2.1 f fun a b c => (fitInt f.ty f.sat (e.2.2 (intVal f.ty a) (intVal f.ty b) (intVal f.ty c)), 0) := by
  simp only [intTable, List.forall_mem_cons]
  refine ⟨?_, ?_, ?_, ?_, ?_, ?_, ?_, ?_, ?_, List.forall_mem_nil _⟩ <;> exact ⟨fun _ => rfl, rfl⟩

theorem plainWord_bitTable : ∀ e ∈ bitTable f f.ty.width, PlainWord e.1 e.2.1 f fun a b c => (e.2.2 a b c, 0) := by
  simp only [bitTable, List.forall_mem_cons]
  refine ⟨?_, ?_, ?_, ?_, ?_, ?_, ?_, ?_, ?_, ?_, ?_, ?_, ?_, List.forall_mem_nil _⟩ <;> exact ⟨fun _ => rfl, rfl⟩

theorem plainWord_floatTable : ∀ e ∈ floatTable f, PlainWord e.1 e.2.1 f e.2.2 := by
  simp only [floatTable, List.forall_mem_cons]
  refine ⟨?_, ?_, ?_, ?_, ?_, ?_, ?_, ?_, ?_, ?_, ?_, ?_, ?_, ?_, ?_, List.forall_mem_nil _⟩ <;> exact ⟨fun _ => rfl, rfl⟩

end PlainTables

/-- Settles O1: every word of the table is of the plain kind, its exact result fitted to the type. -/
theorem integerResults : Obligations.IntegerResults := by
  unfold Obligations.IntegerResults
  intro s h g f hc e he
  exact (plainWord_intTable f e he).aluClaim hc

/-- Settles O2: every word of the table is of the plain kind. -/
theorem logicResults : Obligations.LogicResults := by
  unfold Obligations.LogicResults
  intro s h g f hc e he
  exact (plainWord_bitTable f e he).aluClaim hc

/-- Settles O3: every word of the table is of the plain kind, on the elements of its type. -/
theorem floatResults : Obligations.FloatResults := by
  unfold Obligations.FloatResults
  intro s h g f hc e he
  exact (plainWord_floatTable f e he).aluClaim hc

end Sys2Proof.Machine
end

section
/-! Moves, conversions, classes and lane moves (06 R132, R139, R143, R145, R150, R153, 08 R199), and `TXQ` (07 R182). -/

namespace Sys2Proof.Machine

open Sys2Proof.Claims

section Meanings

variable (f : FOps) (s : State)

/-- `SEL` takes a where C is 0 (log entry 17) or the mask has the thread's bit, under U bit 0 (06 R132). -/
theorem exec_sel : exec (.sel f) s = issue s Op.sel.code 1 f.k f.kn f.u (ioOf Op.sel.entry f f.ty) fun x w eff =>
    .ok (perThread f.u w eff fun t =>
      { wr := wrDst f.u f.d.toNat f.ty.regs t
          (if f.c = 0 ∨ (maskReg x f.c.toNat).getLsbD (if f.u then 0 else t) then srcA x w f f.ty t else srcB x w f f.ty t) }) := by
  have hexec : exec (.sel f) s = execSel f s := rfl
  simp only [hexec, execSel, Bool.or_eq_true, decide_eq_true_eq]

/-- With x[0] the immediate stands for a, and no register is read (06 R125). -/
theorem exec_mov : exec (.mov f) s = issue s Op.mov.code 1 f.k f.kn f.u
    (ioOf (if f.x0 then { Op.mov.entry with a := .none } else Op.mov.entry) f f.ty) fun x w eff =>
      .ok (perThread f.u w eff fun t =>
        { wr := wrDst f.u f.d.toNat f.ty.regs t (if f.x0 then srcB x w f f.ty t else srcA x w f f.ty t) }) := rfl

theorem exec_movi (word : Word) : exec (.movi f word) s = execMovi f word s := rfl

theorem exec_lea : exec (.lea f) s = execLea f s := rfl

theorem exec_fclass : exec (.fclass f) s = execFclass f s := rfl

theorem exec_cvt : exec (.cvt f) s = issue s Op.cvt.code 1 f.k f.kn f.u
    ((ioSrc f.u f.a.toNat (cvtSrc f).regs f.lrA).join (ioDst f.u f.d.toNat f.ty.regs)) fun x w eff =>
      .ok (perThread f.u w eff fun t =>
        let y := cvt (cvtSrc f) f.ty f.rm f.sat (f.mod.getLsbD 0) (srcA x w f (cvtSrc f) t) (oldDst x f t)
        { wr := wrDst f.u f.d.toNat f.ty.regs t (extendTo f.ty f.u y.1), flags := y.2 }) := rfl

theorem exec_fscl : exec (.fscl f) s = execFscl f s := rfl

theorem exec_mtrn : exec (.mtrn f) s = issue s Op.mtrn.code 1 f.k f.kn false
    ((ioSrc false f.a.toNat (mtrnRegs f.ty) f.lrA).join (ioDst false f.d.toNat (mtrnRegs f.ty))) fun x w eff =>
      .ok (perThread false w eff fun t => { wr := wrRun f.d.toNat (mtrnRegs f.ty) t (transposed x f t) }) := rfl

theorem exec_shfl : exec (.shfl f) s = issue s Op.shfl.code 1 f.k f.kn false
    ((ioSrc false f.a.toNat f.ty.regs f.lrA).join
      ((if f.x0 then {} else ioSrc false f.b.toNat 1 f.lrB).join (ioDst false f.d.toNat f.ty.regs))) fun x w eff =>
      .ok (perThread false w eff fun t =>
        let b := if f.x0 then wrapInt 32 f.imm else (readV x f.b.toNat t).toNat
        { wr := wrRun f.d.toNat f.ty.regs t (readTy x f.ty f.a.toNat (shflSrc w f.mod.toNat t b)) }) := rfl

theorem exec_match : exec (.match_ f) s = issue s Op.match_.code 1 f.k f.kn false
    ((ioSrc false f.a.toNat f.ty.regs f.lrA).join (ioDst false f.d.toNat 2)) fun x w eff =>
      .ok (perThread false w eff fun t =>
        { wr := wrRun f.d.toNat 2 t
            (maskOf ((threadsOf w eff).filter fun u => readTy x f.ty f.a.toNat u = readTy x f.ty f.a.toNat t)).toNat }) := rfl

theorem exec_txq : exec (.txq f) s = execTxq f s := rfl

end Meanings

/-- Settles O4: each word issues with its own result for each thread, and only `TXQ` ends windows. -/
theorem moveResults : Obligations.MoveResults := by
  unfold Obligations.MoveResults
  intro s h g f hc eff
  refine ⟨?_, fun word => wordClaim_of_ok hc (exec_movi f s word) rfl rfl, wordClaim_of_ok hc (exec_txq f s) rfl rfl⟩
  simp only [moveTable, List.forall_mem_cons]
  exact ⟨wordClaim_of_ok hc (exec_mov f s) rfl rfl, wordClaim_of_ok hc (exec_sel f s) rfl rfl,
    wordClaim_of_ok hc (exec_lea f s) rfl rfl, wordClaim_of_ok hc (exec_fclass f s) rfl rfl,
    wordClaim_of_ok hc (exec_cvt f s) rfl rfl, wordClaim_of_ok hc (exec_fscl f s) rfl rfl,
    wordClaim_of_ok hc (exec_mtrn f s) rfl rfl, wordClaim_of_ok hc (exec_shfl f s) rfl rfl,
    wordClaim_of_ok hc (exec_match f s) rfl rfl, List.forall_mem_nil _⟩

end Sys2Proof.Machine
end

section
/-! Words that write masks, and the bit-field words: comparisons and the carry-out (06 R124, R130, R131, R138), `BFX` and
`BFI` (06 R134). -/

namespace Sys2Proof.Machine

open Sys2Proof.Claims

/-- A mask takes the results of the threads of E, or under U the one result for all of them, and keeps its other bits
(06 R124). -/
theorem maskResult_eq (x : Ctx) (uni : Bool) (w d : Nat) (eff : Word) (p : Nat → Bool × Nat) :
    maskResult x uni w d eff p =
      { masks := if eff = 0 then [] else [(d, (maskReg x d &&& ~~~eff)
          ||| (if uni then (if (p 0).1 then eff else 0) else maskOf ((threadsOf w eff).filter fun t => (p t).1)))]
        flags := if uni then (if eff = 0 then 0 else (p 0).2) else orFlags ((threadsOf w eff).map fun t => (p t).2) } := by
  cases uni with
  | false => simp only [maskResult, Bool.false_eq_true, if_false]
  | true => by_cases heff : eff = 0 <;> simp only [maskResult, heff, if_true, if_false]

/-- What `ICMP` finds for a thread (06 R131): the condition of its mod code; it raises no flag. -/
def intCompare (f : FOps) (x : Ctx) (w t : Nat) : Bool × Nat :=
  (intCond f.mod.toNat (intVal f.ty (srcA x w f f.ty t)) (intVal f.ty (srcB x w f f.ty t)), 0)

/-- What `FCMP` and `DCMP` find for a thread, with the flags they raise (06 R138, R142). -/
def floatCompare (f : FOps) (x : Ctx) (w t : Nat) : Bool × Nat :=
  fpCond f.mod.toNat (unpackFloat (fmtOf f.ty) (srcA x w f f.ty t)) (unpackFloat (fmtOf f.ty) (srcB x w f f.ty t))

section Meanings

variable (f : FOps) (s : State)

theorem exec_icmp : exec (.icmp f) s = issue s Op.icmp.code 1 f.k f.kn f.u (ioOf Op.icmp.entry f f.ty) fun x w eff =>
    .ok (maskResult x f.u w f.d.toNat eff (intCompare f x w)) := rfl

theorem exec_fcmp : exec (.fcmp f) s = issue s Op.fcmp.code 1 f.k f.kn f.u (ioOf Op.fcmp.entry f f.ty) fun x w eff =>
    .ok (maskResult x f.u w f.d.toNat eff (floatCompare f x w)) := rfl

theorem exec_dcmp : exec (.dcmp f) s = issue s Op.dcmp.code 1 f.k f.kn f.u (ioOf Op.dcmp.entry f f.ty) fun x w eff =>
    .ok (maskResult x f.u w f.d.toNat eff (floatCompare f x w)) := rfl

theorem exec_iaddc : exec (.iaddc f) s = execIaddc f s := rfl

theorem exec_fieldTable : ∀ e ∈ fieldTable f, exec e.1 s = issueField s e.2.1 f e.2.2 := by
  simp only [fieldTable, List.forall_mem_cons]
  exact ⟨rfl, rfl, List.forall_mem_nil _⟩

theorem fieldTable_keepsWindows : ∀ e ∈ fieldTable f, endsWindows e.2.1.code = false := by
  simp only [fieldTable, List.forall_mem_cons]
  exact ⟨rfl, rfl, List.forall_mem_nil _⟩

end Meanings

theorem compareClaim_of_issue {i : Instr} {op : Op} {f : FOps} (p : Ctx → Nat → Nat → Bool × Nat) {s : State} {h : Nat} {g : Group}
    (hc : current s = some (h, g)) (hkeeps : endsWindows op.code = false)
    (hexec : exec i s = issue s op.code 1 f.k f.kn f.u (ioOf op.entry f f.ty) fun x w eff =>
      .ok (maskResult x f.u w f.d.toNat eff (p x w))) :
    compareClaim s h g f i op (p g.ctx g.w) :=
  wordClaim_of_ok hc hexec (by rw [hkeeps]; rfl) (congrArg Except.ok (maskResult_eq ..))

/-- Settles O6: each comparison issues with the mask result of its condition. -/
theorem comparisonResults : Obligations.ComparisonResults := by
  unfold Obligations.ComparisonResults
  intro s h g f hc a b fp
  exact ⟨compareClaim_of_issue (intCompare f) hc rfl (exec_icmp f s), compareClaim_of_issue (floatCompare f) hc rfl (exec_fcmp f s),
    compareClaim_of_issue (floatCompare f) hc rfl (exec_dcmp f s)⟩

section FieldWords

variable {i : Instr} {op : Op} {f : FOps} {comp : Nat → Nat → Nat → Nat} {s : State} {h : Nat} {g : Group}
  (hc : current s = some (h, g)) (hexec : exec i s = issueField s op f comp) (hkeeps : endsWindows op.code = false)
include hc hexec hkeeps

theorem field_wordClaim (hgood : badField g.ctx g.w f (effSet g.ctx g.w f.k f.kn) = false) :
    wordClaim s h g f i (ioOf op.entry f f.ty) 1 f.u (perThread f.u g.w (effSet g.ctx g.w f.k f.kn) fun t =>
      { wr := wrDst f.u f.d.toNat 1 t (extendTo f.ty f.u
          (comp (srcA g.ctx g.w f f.ty t) (srcB g.ctx g.w f f.ty t) (srcC g.ctx f f.ty t))) }) :=
  wordClaim_of_ok hc hexec (by rw [hkeeps]; rfl) (by simp only [hgood, Bool.false_eq_true, if_false])

theorem field_raises (hbad : badField g.ctx g.w f (effSet g.ctx g.w f.k f.kn) = true)
    (hfree : blocked g.ctx ((ioOf op.entry f f.ty).under (effSet g.ctx g.w f.k f.kn)) = false) :
    exec i s = .next (raise (setGroup s h g) h (badRec g.ctx (effSet g.ctx g.w f.k f.kn) { code := 0x01 })) :=
  issueRaises_of_error hc hexec (by rw [hkeeps]; rfl) hfree (by simp only [hbad, if_true])

end FieldWords

/-- Settles O5: `IADDC` writes its sum and, as a comparison does, its carry-out; a field word faults by its body's check. -/
theorem carryAndFieldResults : Obligations.CarryAndFieldResults := by
  unfold Obligations.CarryAndFieldResults
  intro s h g f hc x eff sum out m
  refine ⟨wordClaim_of_ok hc (exec_iaddc f s) rfl ?_, fun e he => ⟨fun hgood => ?_, fun hbad hfree => ?_⟩⟩
  · simp only [maskResult_eq]
    rfl
  · exact field_wordClaim hc (exec_fieldTable f s e he) (fieldTable_keepsWindows f e he) hgood
  · exact field_raises hc (exec_fieldTable f s e he) (fieldTable_keepsWindows f e he) hbad hfree

end Sys2Proof.Machine
end

section
/-! The words between threads that act once for the group (06 R149, R152, R154, R155): what each of their forms writes. -/

namespace Sys2Proof.Machine

open Sys2Proof.Claims

/-- What `BCAST` writes (06 R152): a uniform register to each thread of E, one thread's value to each of them, or the lowest
thread's to a uniform register. -/
def bcastRes (f : FOps) (x : Ctx) (w : Nat) (eff : Word) : Res :=
  if f.mod.toNat = 0 then
    perThread false w eff fun t => { wr := wrRun f.d.toNat f.ty.regs t ((readS x f.a.toNat).toNat % 2 ^ f.ty.width) }
  else if f.mod.toNat = 1 then
    let b := if f.x0 then wrapInt 64 f.imm else (readS x f.b.toNat).toNat
    perThread false w eff fun t => { wr := wrRun f.d.toNat f.ty.regs t (readTy x f.ty f.a.toNat (b % w)) }
  else ifAny eff { wr := wrDst true f.d.toNat 1 0 (extendTo f.ty true (readTy x f.ty f.a.toNat (lowest eff))) }

/-- What `KMOV` writes (06 R155): a mask to a uniform register, a uniform register to a mask, a mask's bits to the threads of
E, or their values' bits to a mask. -/
def kmovRes (f : FOps) (x : Ctx) (w : Nat) (eff : Word) : Res :=
  if f.mod.toNat = 0 then ifAny eff { wr := wrDst true f.d.toNat 1 0 (maskReg x f.a.toNat).toNat }
  else if f.mod.toNat = 1 then ifAny eff { masks := [(f.d.toNat, readS x f.a.toNat)] }
  else if f.mod.toNat = 2 then
    perThread false w eff fun t => { wr := wrRun f.d.toNat 1 t (if (maskReg x f.a.toNat).getLsbD t then 1 else 0) }
  else ifAny eff { masks := [(f.d.toNat, (maskReg x f.d.toNat &&& ~~~eff)
    ||| maskOf ((threadsOf w eff).filter fun t => readV x f.a.toNat t != 0))] }

theorem orFlags_map_zero (ts : List Nat) : orFlags (ts.map fun _ => 0) = 0 := by
  induction ts with
  | nil => rfl
  | cons t ts ih => simpa [orFlags] using ih

/-- A mask written by tests that raise no flag; where E is empty nothing is. -/
theorem maskResult_of_test (x : Ctx) (w d : Nat) (eff : Word) (p : Nat → Bool) :
    maskResult x false w d eff (fun t => (p t, 0))
      = ifAny eff { masks := [(d, (maskReg x d &&& ~~~eff) ||| maskOf ((threadsOf w eff).filter p))] } := by
  rw [maskResult_eq]
  by_cases heff : eff = 0 <;>
    simp only [ifAny, heff, if_true, if_false, Bool.false_eq_true, orFlags_map_zero]

section Meanings

variable (f : FOps) (s : State)

theorem exec_vote : exec (.vote f) s = issue s Op.vote.code 1 f.k f.kn false
    ((ioSrc false f.a.toNat 1 f.lrA).join { uw := [f.d.toNat] }) fun x w eff =>
      .ok (ifAny eff { wr := [{ reg := f.d.toNat, uni := true, t := 0, val := voteValue x w eff f.mod.toNat f.a.toNat }] }) := rfl

theorem exec_kop : exec (.kop f) s = issue s Op.kop.code 1 f.k f.kn true {} fun x _ eff =>
    .ok (ifAny eff { masks := [(f.d.toNat, kopValue f.mod.toNat (maskReg x f.a.toNat) (maskReg x f.b.toNat))] }) := rfl

theorem exec_bcast : exec (.bcast f) s = issue s Op.bcast.code 1 f.k f.kn false (bcastIo f) fun x w eff =>
    .ok (bcastRes f x w eff) := by
  change execBcast f s = _
  unfold execBcast bcastRes
  rcases f.mod.toNat with _ | _ | n <;> rfl

theorem exec_kmov : exec (.kmov f) s = issue s Op.kmov.code 1 f.k f.kn f.u (kmovIo f) fun x w eff =>
    .ok (kmovRes f x w eff) := by
  change execKmov f s = _
  unfold execKmov kmovRes
  rcases f.mod.toNat with _ | _ | _ | n
  · rfl
  · rfl
  · rfl
  · simp only [maskResult_of_test]
    rfl

end Meanings

/-- Settles O7: each word issues with the result of its form. -/
theorem crossThreadResults : Obligations.CrossThreadResults := by
  unfold Obligations.CrossThreadResults
  intro s h g f hc
  simp only [groupTable, List.forall_mem_cons]
  exact ⟨wordClaim_of_ok hc (exec_vote f s) rfl rfl, wordClaim_of_ok hc (exec_bcast f s) rfl rfl,
    wordClaim_of_ok hc (exec_kop f s) rfl rfl, wordClaim_of_ok hc (exec_kmov f s) rfl rfl, List.forall_mem_nil _⟩

end Sys2Proof.Machine
end

section
/-! Words that read what stands outside the registers: `CVTB` its format slot (06 R146, R147), `RDS` the special registers
(09 R242), `CLOCKC` the core's clock (09 R244). -/

namespace Sys2Proof.Machine

open Sys2Proof.Claims

/-- What `CVTB` writes with an SB format (06 R147): for each thread its element of its sixteen threads' block, or the value of an
element-form word. -/
def cvtbRes (f : FOps) (efmt : Nat) (x : Ctx) (w : Nat) (eff : Word) : Res :=
  let a (t : Nat) : Nat := (readV x f.a.toNat t).toNat
  perThread false w eff fun t =>
    if f.mod = 0 then
      let q := cvtbBlock efmt f.rm eff a (t / 16)
      { wr := wrRun f.d.toNat 1 t (elemWord efmt q.1 (t % 16)), flags := q.2 }
    else { wr := wrRun f.d.toNat 1 t (cvtbValue efmt (a t)) }

section SlotAndSpecialWords

variable {s : State} {h : Nat} {g : Group} (hc : current s = some (h, g)) (f : FOps)
include hc

/-- The format slot is the current group's launch's, and it is checked at issue (04 R81). -/
theorem exec_cvtb : exec (.cvtb f) s = issue s Op.cvtb.code 1 f.k f.kn false (ioOf Op.cvtb.entry f f.ty) fun x w eff =>
    let efmt := bits ((groupLaunch s g).rc.fmts.getD (f.c.toNat % 8) 0) 3 0
    if 1 ≤ efmt ∧ efmt ≤ 3 then .ok (cvtbRes f efmt x w eff) else .error { code := 0x0A } := by
  have hslot : curEfmt s (f.c.toNat % 8) = bits ((groupLaunch s g).rc.fmts.getD (f.c.toNat % 8) 0) 3 0 := by
    simp only [curEfmt, hc, fmtSlot]
  have hexec : exec (.cvtb f) s = execCvtb f s := rfl
  rw [hexec, execCvtb, hslot]
  generalize bits ((groupLaunch s g).rc.fmts.getD (f.c.toNat % 8) 0) 3 0 = efmt
  congr 1
  funext x w eff
  rw [← Bool.decide_and]
  by_cases hsb : 1 ≤ efmt ∧ efmt ≤ 3
  · rw [decide_eq_true hsb, if_pos hsb]
    rfl
  · rw [decide_eq_false hsb, if_neg hsb]
    rfl

theorem exec_rds (hfree : (f.a.toNat ≠ 6 ∧ f.a.toNat ≠ 7) ∨ sinkRuns g.ctx = false) :
    exec (.rds f) s = issue s Op.rds.code 1 f.k f.kn f.u (ioDst f.u f.d.toNat 1) fun _ w eff =>
      .ok (perThread f.u w eff fun t => { wr := wrDst f.u f.d.toNat 1 t (special s g f.a.toNat t).toNat }) := by
  have hgo : ((decide (f.a.toNat = 6) || decide (f.a.toNat = 7)) && sinkRuns g.ctx) = false := by
    rcases hfree with hsel | hnone
    · simp [hsel]
    · simp [hnone]
  have hexec : exec (.rds f) s = execRds f s := rfl
  simp only [hexec, execRds, hc, hgo, Bool.false_eq_true, if_false]

theorem exec_clockc : exec (.clockc f) s = issue s Op.clockc.code 1 f.k f.kn true (ioDst true f.d.toNat 1) fun _ _ eff =>
    .ok (if eff = 0 then {} else { wr := wrDst true f.d.toNat 1 0 ((coreOf s g.core).cycles % 2 ^ 64) }) := by
  have hexec : exec (.clockc f) s = execClockc f s := rfl
  rw [hexec, execClockc, hc]

end SlotAndSpecialWords

/-- Settles O9: `CVTB` by the check of its format slot, the other two with what they read. -/
theorem slotAndSpecialResults : Obligations.SlotAndSpecialResults := by
  unfold Obligations.SlotAndSpecialResults
  intro s h g f hc x eff efmt a
  refine ⟨fun hsb => ?_, fun hbad hfree => ?_, fun hfree => wordClaim_of_ok hc (exec_rds hc f hfree) rfl rfl,
    wordClaim_of_ok hc (exec_clockc hc f) rfl rfl⟩
  · exact wordClaim_of_ok hc (exec_cvtb hc f) rfl (if_pos hsb)
  · exact issueRaises_of_error hc (exec_cvtb hc f) rfl hfree (if_neg hbad)

end Sys2Proof.Machine
end

section
/-! `NOP`, `YIELD` and the trap words (06 R126 to R128), which use no register. -/

namespace Sys2Proof.Machine

open Sys2Proof.Claims

section Meanings

variable (f : FOps) (s : State)

theorem exec_nop : exec (.nop f) s = issue s Op.nop.code 1 f.k f.kn true {} fun _ _ _ => .ok {} := rfl

theorem exec_bpt : exec (.bpt f) s = issueTrap s .bpt f 0x08 := rfl

theorem exec_trap : exec (.trap f) s = issueTrap s .trap f 0x09 := rfl

end Meanings

section ControlWords

variable {s : State} {h : Nat} {g : Group} (hc : current s = some (h, g)) {f : FOps}
include hc

/-- `YIELD` completes as `NOP` does; with a count it then waits for its cluster's opportunities (06 R127). -/
theorem exec_yield : ∃ t, Retired s h (ended g) {} 1 1 {} t
    ∧ exec (.yield_ f) s = .next (if f.imm = 0 then t else modGroup t h fun q =>
        { q with run := .parked (.yielding ((coreOf t q.core).opp.getD (q.slot0 / 256) 0) f.imm12.toNat) }) := by
  refine ⟨_, retire_spec .., ?_⟩
  have hissue := issue_retires hc Op.yield_.code 1 f.k f.kn true {} (fun _ _ _ => .ok {}) {} (ended g) rfl rfl (mayRetire_nil ..)
  have hcur : (retire s h (ended g) {} 1 1 {}).cur = h := by
    obtain ⟨-, -, -, -, -, -, hrest⟩ := retire_spec s h (ended g) {} 1 1 {}
    rw [hrest]
    exact (current_group hc).2.1
  have hexec : exec (.yield_ f) s = execYield f s := rfl
  rw [hexec, execYield, hissue]
  simp only [if_true, hcur]

variable {i : Instr} {op : Op} {code : Nat} (hexec : exec i s = issueTrap s op f code) (hends : endsWindows op.code = true)
include hexec hends

theorem trap_completes (hnone : effSet g.ctx g.w f.k f.kn = 0) :
    completes i s h (ended g) {} 1 (laneCycles g.w (effSet g.ctx g.w f.k f.kn)) {} :=
  wordClaim_of_ok hc hexec (by rw [hends]; rfl) (if_pos hnone) (mayRetire_nil s h (ended g) _)

theorem trap_raises (hsome : effSet g.ctx g.w f.k f.kn ≠ 0) :
    exec i s = .next (raise (setGroup s h (ended g)) h
      (badRec (ended g).ctx (effSet g.ctx g.w f.k f.kn) { code := code, tcode := f.imm12.toNat })) :=
  issueRaises_of_error hc hexec (by rw [hends]; rfl) (notBlocked_nil g _) (if_neg hsome)

end ControlWords

/-- Settles O11: `NOP` and `YIELD` complete with nothing, and a trap word does so or faults by whether E is empty. -/
theorem nopYieldAndTraps : Obligations.NopYieldAndTraps := by
  unfold Obligations.NopYieldAndTraps
  intro s h g f hc eff
  obtain ⟨t, hretired, hyield⟩ := exec_yield hc (f := f)
  refine ⟨wordClaim_of_ok hc (exec_nop f s) rfl rfl (mayRetire_nil s h g _),
    fun hzero => ⟨t, ?_, hretired⟩, fun hcount => ⟨t, hretired, ?_⟩, ?_⟩
  · rw [hyield, if_pos hzero]
  · rw [hyield, if_neg hcount]
  · simp only [List.forall_mem_cons]
    exact ⟨⟨trap_completes hc (exec_bpt f s) rfl, trap_raises hc (exec_bpt f s) rfl⟩,
      ⟨trap_completes hc (exec_trap f s) rfl, trap_raises hc (exec_trap f s) rfl⟩, List.forall_mem_nil _⟩

end Sys2Proof.Machine
end

section
/-! A store that hits a line its core holds (07 R168, 10 R255, 12 R281). -/

namespace Sys2Proof.Machine

section HeldLines

variable {s : State} {h c la slot rv : Nat} {d : LineData} {k : ByteMask} {n : NcLine}

theorem isDirty_of_held (hst : n.st = .dirty ∨ (n.st = .exclusive ∧ n.mask ≠ 0)) : n.isDirty = true := by
  unfold NcLine.isDirty
  rcases hst with hd | ⟨hx, hm⟩
  · simp [hd]
  · rw [hx, bne_iff_ne.2 hm]
    rfl

/-- No pending line of a line lies under another slot, said with the list that `dropOther` goes through. -/
theorem pend_other_slot_nil (hp : ∀ p ∈ (coreOf s c).pend, p.la = la → p.slot = slot) :
    ((coreOf s c).pend.filter fun p => p.la = la && p.slot != slot) = [] := by
  rw [List.filter_eq_nil_iff]
  intro p hmem hother
  simp only [Bool.and_eq_true, decide_eq_true_eq, bne_iff_ne] at hother
  exact hother.2 (hp p hmem hother.1)

theorem pend_stampOf (s : State) (c : Nat) : (coreOf (stampOf s c).2 c).pend = (coreOf s c).pend := by
  unfold stampOf
  rw [coreOf_modCore, if_pos rfl]

/-- What a store leaves of its core and of the rest, where the core holds the line dirty or with bytes of its own. -/
structure StoredInto (s t : State) (c la : Nat) (n m : NcLine) (d : LineData) (k : ByteMask) : Prop where
  oneCore : OneCore s c t
  pend : (coreOf t c).pend = (coreOf s c).pend
  line : nearLine t c la = some m
  others : ∀ la', la' ≠ la → nearLine t c la' = nearLine s c la'
  data : m.data = mergeLine n.data d k
  mask : m.mask = n.mask ||| k
  st : m.st = n.st
  slot : m.slot = n.slot
  dirtied : m.dirtied = n.dirtied

theorem nearWrite_storedInto (hn : nearLine s c la = some n) (hs : n.slot = slot)
    (hst : n.st = .dirty ∨ (n.st = .exclusive ∧ n.mask ≠ 0))
    (hp : ∀ p ∈ (coreOf s c).pend, p.la = la → p.slot = slot) :
    ∃ m, StoredInto s (nearWrite s h c la slot rv d k) c la n m d k := by
  rw [nearWrite_hit s h c la slot rv d k n hn hs hst (pend_other_slot_nil hp)]
  have hnear (la' : Nat) : nearLine (stampOf s c).2 c la' = nearLine s c la' := nearLine_stampOf s c la'
  obtain ⟨use, hline⟩ : ∃ use, nearLine (useLine (modNear (stampOf s c).2 c la fun n => { n with
      data := mergeLine n.data d k, mask := n.mask ||| k, dirtied := if n.isDirty then n.dirtied else (stampOf s c).1 }) c la) c la
      = some { n with data := mergeLine n.data d k, mask := n.mask ||| k, use := use
                      dirtied := if n.isDirty then n.dirtied else (stampOf s c).1 } := by
    rw [nearLine_useLine, if_pos rfl, nearLine_modNear, if_pos rfl, hnear, hn]
    exact ⟨_, rfl⟩
  refine ⟨_, ((oneCore_modCore s c _).trans (oneCore_modNear _ c la _)).trans (oneCore_useLine _ c la), ?_, hline, fun la' hne => ?_,
    rfl, rfl, rfl, rfl, if_pos (isDirty_of_held hst)⟩
  · rw [pend_useLine, pend_modNear, pend_stampOf]
  · rw [nearLine_useLine, if_neg hne, nearLine_modNear, if_neg hne, hnear]

end HeldLines

/-- A load is served the bytes of a line that its core holds dirty or exclusively, where none is pending for its group. -/
theorem lineServe_ld_held {s : State} {g : Group} {h la slot : Nat} {req : MemReq} {m : NcLine}
    (hkind : req.kind = .ld) (hm : nearLine s g.core la = some m) (hslot : m.slot = slot)
    (hst : m.st = .dirty ∨ m.st = .exclusive) (hp : pendOf (coreOf s g.core) h la slot none = none) :
    lineServe s g h req la slot = some (m.data, 0) := by
  have hheld : (m.st == .dirty || m.st == .exclusive) = true := by simpa using hst
  have hm' : find (coreOf s g.core).near la = some m := hm
  unfold lineServe
  simp only [hkind, hp, hm', hslot, ne_eq, not_true_eq_false, if_false, hheld, if_true]

/-- Settles O26: the store merges into the held line, and a later load finds it there. -/
theorem nearWriteHit : Obligations.NearWriteHit := by
  unfold Obligations.NearWriteHit
  intro s h c la slot rv d k n hn hslot hst hpend t
  obtain ⟨m, hstored⟩ := nearWrite_storedInto (h := h) (rv := rv) (d := d) (k := k) hn hslot hst hpend
  have hheld : m.st = .dirty ∨ m.st = .exclusive := by
    rw [hstored.st]
    exact hst.imp_right And.left
  refine ⟨⟨m, hstored.line, hstored.data, hstored.mask, hstored.st, hstored.slot.trans hslot, hstored.dirtied⟩,
    hstored.others, hstored.oneCore.2, hstored.oneCore.1, fun g req hcore hkind hnone => ?_⟩
  subst hcore
  rw [← hstored.data]
  exact lineServe_ld_held hkind hstored.line (hstored.slot.trans hslot) hheld
    (by unfold pendOf at hnone ⊢; rw [hstored.pend]; exact hnone)

end Sys2Proof.Machine
end

section
/-! What `ST` comes to: its fault, a wait, or the store made (07 R158, R159, R168). -/

namespace Sys2Proof.Machine

open Sys2Proof.Claims

section Storing

variable (f : FOps) (d : Word) (s : State)

/-- The accesses of a store's threads. -/
def storeAccs (g : Group) : List Acc :=
  accsOf g.ctx g.w f false (some d) (effSet g.ctx g.w f.k f.kn) (storeData g.ctx f) fun _ => 0

variable {f d s} {h : Nat} {g : Group} {u : State} (hc : current s = some (h, g)) (hfree : blocked g.ctx (ioStore f false) = false)
include hc hfree

theorem execSt_bad {b : Bad} (htry : tryStore s h g f.u (sizeOfTy f.ty) (storeAccs f d g) s.nextId = .bad b u) :
    execSt f d s = .next (raise u h (badRec g.ctx (effSet g.ctx g.w f.k f.kn) b)) := by
  unfold storeAccs at htry
  simp only [execSt, hc, hfree, htry, Bool.false_eq_true, if_false]

theorem execSt_wait (htry : tryStore s h g f.u (sizeOfTy f.ty) (storeAccs f d g) s.nextId = .wait u) :
    execSt f d s = .next u := by
  unfold storeAccs at htry
  simp only [execSt, hc, hfree, htry, Bool.false_eq_true, if_false]

theorem execSt_done (htry : tryStore s h g f.u (sizeOfTy f.ty) (storeAccs f d g) s.nextId = .done u)
    {g' : Group} (hg' : groupOf u h = some g') :
    execSt f d s = .next (retire u h g' (ioStore f false) (lenOf f (some d))
      (cyclesOf f.u g'.w (effSet g.ctx g.w f.k f.kn)) {}) := by
  unfold storeAccs at htry
  simp only [execSt, hc, hfree, htry, hg', Bool.false_eq_true, if_false]
  rfl

end Storing

/-- A word that its effects let retire is performed. -/
theorem performs_of_retire {i : Instr} {s u : State} {h len : Nat} {io : Io} {uni : Bool} {eff : Word}
    (hexec : ∀ g', groupOf u h = some g' → exec i s = .next (retire u h g' io len (cyclesOf uni g'.w eff) {})) :
    performs i s u h io len uni eff :=
  fun g' hg' => ⟨_, hexec g' hg', retire_spec u h g' io len _ {}⟩

/-- Settles O36, by what trying the store comes to. -/
theorem storesComplete : Obligations.StoresComplete := by
  unfold Obligations.StoresComplete
  intro s h g f d hc hfree eff accs
  refine ⟨fun u htry => ?_, fun u htry => ?_, fun b u htry => ?_⟩
  · exact performs_of_retire fun g' hg' => execSt_done hc hfree htry hg'
  · exact execSt_wait hc hfree htry
  · exact execSt_bad hc hfree htry

end Sys2Proof.Machine
end

section
/-! What a store to lines its core holds leaves as it was (07 R168, 12 R281). -/

namespace Sys2Proof.Machine

open Sys2Proof.Claims

/-! ### Folds under an invariant -/

/-- Two folds whose steps agree where an invariant holds that the second's steps keep. -/
theorem each_eq_of_inv {α β : Type} (I : β → Prop) {F G : β → α → β} (l : List α) (b : β) (hI : I b)
    (hstep : ∀ a ∈ l, ∀ b, I b → F b a = G b a ∧ I (G b a)) : each l b F = each l b G ∧ I (each l b G) := by
  induction l generalizing b with
  | nil => exact ⟨rfl, hI⟩
  | cons a l ih =>
    obtain ⟨heq, hkept⟩ := hstep a (List.mem_cons_self ..) b hI
    rw [each_cons, each_cons, heq]
    exact ih (G b a) hkept fun x hx => hstep x (List.mem_cons_of_mem _ hx)

/-- A fold over parts, one by one, is the fold over the accesses and their parts. -/
theorem each_flatParts {β : Type} (F : β → Acc → Part → β) (l : List (Acc × List Part)) (b : β) :
    (each (flatParts l) b fun b x => F b x.1 x.2) = each l b fun b x => each x.2 b fun b p => F b x.1 p := by
  simp only [flatParts, each, List.foldl_flatten, List.foldl_map]

/-! ### Parts stored into held lines -/

/-- A core holds a part's line dirty under the part's slot, as every pending line of it lies. -/
structure HeldDirty (s : State) (c : Nat) (p : Part) : Prop where
  line : ∃ m, nearLine s c p.la = some m ∧ m.st = .dirty ∧ m.slot = p.slot
  pend : ∀ q ∈ (coreOf s c).pend, q.la = p.la → q.slot = p.slot

/-- One part of an access written into its core's near cache. -/
def writePart (h c rv n : Nat) (s : State) (a : Acc) (p : Part) : State :=
  nearWrite s h c p.la p.slot rv (partData a n p) (maskBytes p.lo p.n)

section Parts

variable {s : State} {h c rv n : Nat} {a : Acc} {p : Part}

theorem writePart_storedInto {m : NcLine} (hline : nearLine s c p.la = some m) (hst : m.st = .dirty) (hslot : m.slot = p.slot)
    (hp : ∀ q ∈ (coreOf s c).pend, q.la = p.la → q.slot = p.slot) :
    ∃ m', StoredInto s (writePart h c rv n s a p) c p.la m m' (partData a n p) (maskBytes p.lo p.n) :=
  nearWrite_storedInto hline hslot (.inl hst) hp

theorem StoredInto.held {t : State} {la : Nat} {m m' : NcLine} {d : LineData} {k : ByteMask} {q : Part}
    (hstored : StoredInto s t c la m m' d k) (hline : nearLine s c la = some m) (hq : HeldDirty s c q) : HeldDirty t c q := by
  obtain ⟨x, hx, hst, hslot⟩ := hq.line
  refine ⟨?_, fun r hr => hq.pend r (by rwa [hstored.pend] at hr)⟩
  by_cases hla : q.la = la
  · have hxm : x = m := Option.some.inj (by rw [← hx, hla, hline])
    subst hxm
    exact ⟨m', by rw [hla, hstored.line], hstored.st.trans hst, hstored.slot.trans hslot⟩
  · exact ⟨x, by rw [hstored.others _ hla, hx], hst, hslot⟩

theorem writePart_held {q : Part} (hp : HeldDirty s c p) (hq : HeldDirty s c q) : HeldDirty (writePart h c rv n s a p) c q := by
  obtain ⟨m, hline, hst, hslot⟩ := hp.line
  obtain ⟨m', hstored⟩ := writePart_storedInto (h := h) (rv := rv) (n := n) (a := a) hline hst hslot hp.pend
  exact hstored.held hline hq

theorem writePart_oneCore (hp : HeldDirty s c p) : OneCore s c (writePart h c rv n s a p) := by
  obtain ⟨m, hline, hst, hslot⟩ := hp.line
  obtain ⟨_, hstored⟩ := writePart_storedInto (h := h) (rv := rv) (n := n) (a := a) hline hst hslot hp.pend
  exact hstored.oneCore

end Parts

/-- What parts written into held lines leave: the rest of the machine, other lines, and each line's other bytes. -/
structure PartsStored (s t : State) (c : Nat) (ps : List Part) : Prop where
  oneCore : OneCore s c t
  others : ∀ la, (∀ p ∈ ps, p.la ≠ la) → nearLine t c la = nearLine s c la
  lines : ∀ la m, nearLine s c la = some m → m.st = .dirty → ∃ m', nearLine t c la = some m' ∧ m'.st = .dirty
    ∧ ∀ j, (∀ p ∈ ps, p.la = la → ¬(maskBytes p.lo p.n).getLsbD j) → lineByte m'.data j = lineByte m.data j

theorem writeParts_stored (h c rv n : Nat) (l : List (Acc × Part)) (s : State) (hheld : ∀ x ∈ l, HeldDirty s c x.2) :
    PartsStored s (each l s fun s x => writePart h c rv n s x.1 x.2) c (l.map (·.2)) := by
  induction l generalizing s with
  | nil => exact ⟨OneCore.refl s c, fun _ _ => rfl, fun la m hm hst => ⟨m, hm, hst, fun _ _ => rfl⟩⟩
  | cons x l ih =>
    have hx := hheld x (List.mem_cons_self ..)
    obtain ⟨m, hline, hst, hslot⟩ := hx.line
    obtain ⟨m1, hstored⟩ := writePart_storedInto (h := h) (rv := rv) (n := n) (a := x.1) hline hst hslot hx.pend
    rw [each_cons]
    obtain ⟨hone, hothers, hlines⟩ := ih (writePart h c rv n s x.1 x.2)
      fun y hy => writePart_held hx (hheld y (List.mem_cons_of_mem _ hy))
    simp only [List.map_cons]
    refine ⟨hstored.oneCore.trans hone, fun la hla => ?_, fun la y hy hdirty => ?_⟩
    · rw [hothers la fun p hp => hla p (List.mem_cons_of_mem _ hp), hstored.others la (Ne.symm (hla x.2 (List.mem_cons_self ..)))]
    · by_cases hla : la = x.2.la
      · have hym : y = m := Option.some.inj (by rw [← hy, hla, hline])
        subst hym
        obtain ⟨m', hm', hst', hbytes⟩ := hlines la m1 (by rw [hla, hstored.line]) (hstored.st.trans hst)
        refine ⟨m', hm', hst', fun j hj => ?_⟩
        rw [hbytes j fun p hp => hj p (List.mem_cons_of_mem _ hp), hstored.data]
        exact mergeLine_byte _ _ _ _ (Bool.eq_false_iff.2 (hj x.2 (List.mem_cons_self ..) hla.symm))
      · obtain ⟨m', hm', hst', hbytes⟩ := hlines la y (by rw [hstored.others la hla, hy]) hdirty
        exact ⟨m', hm', hst', fun j hj => hbytes j fun p hp => hj p (List.mem_cons_of_mem _ hp)⟩

/-! ### The store of a group outside regions, transactions and sunk runs -/

section PlainGroup

variable {g : Group} (htx : g.ctx.tx = [])
include htx

theorem txDoomed_none (t : Nat) : txDoomed g.ctx t = false := by rw [txDoomed, htx]; rfl

theorem inTx_none (t : Nat) : inTx g.ctx t = false := by rw [inTx, htx]; rfl

theorem storePart_plain (s : State) (h : Nat) (hregion : inRegion g.ctx = false) (uni : Bool) (n : Nat) (a : Acc) (p : Part) :
    storePart s h g uni n a p = writePart h g.core g.ctx.rv n s a p := by
  simp only [storePart, inTx_none htx, hregion, Bool.and_false, Bool.false_eq_true, if_false]
  rfl

theorem txTouch_none {s : State} {h : Nat} (hg : groupOf s h = some g) (t la slot : Nat) (write : Bool) :
    txTouch s h t la slot write = s := by
  unfold txTouch
  simp only [hg, htx, find]

end PlainGroup

/-- A group's parts written into its near cache. -/
def writeAccs (s : State) (h : Nat) (g : Group) (n : Nat) (rs : List (Acc × List Part)) : State :=
  each (flatParts rs) s fun s x => writePart h g.core g.ctx.rv n s x.1 x.2

/-- The group stands as it stood, and its core holds the line of every part. -/
structure Stands (h : Nat) (g : Group) (rs : List (Acc × List Part)) (s : State) : Prop where
  group : groupOf s h = some g
  held : ∀ x ∈ rs, ∀ p ∈ x.2, HeldDirty s g.core p

/-- Writing a part of the group keeps that so. -/
theorem Stands.writePart {h n : Nat} {g : Group} {rs : List (Acc × List Part)} {s : State} {a : Acc} {p : Part}
    (hs : Stands h g rs s) (hp : HeldDirty s g.core p) : Stands h g rs (writePart h g.core g.ctx.rv n s a p) where
  group := ((writePart_oneCore hp).group h).trans hs.group
  held x hx q hq := writePart_held hp (hs.held x hx q hq)

/-- The store of a group whose lines its core holds, outside regions and transactions: its parts written, and counted. -/
theorem performStore_held {s : State} {h n : Nat} {uni : Bool} {g : Group} {rs : List (Acc × List Part)} (hs : Stands h g rs s)
    (hregion : inRegion g.ctx = false) (htx : g.ctx.tx = []) :
    performStore s h uni n rs = writeAccs s h g n rs ∨ performStore s h uni n rs = outSoon (writeAccs s h g n rs) h := by
  have hg := hs.group
  have htouch : (if uni then s else each rs s fun s x => each x.2 s fun s p => txTouch s h x.1.t p.la p.slot true) = s := by
    split
    · rfl
    · exact each_same _ _ _ fun x _ => each_same _ _ _ fun p _ => txTouch_none htx hg ..
  have hfilter : (rs.filter fun r => uni || !txDoomed g.ctx r.1.t) = rs := by
    simp [txDoomed_none htx]
  unfold performStore
  simp only [hg]
  rw [htouch]
  simp only [hg, hfilter]
  rw [(each_eq_of_inv (G := fun s x => each x.2 s fun s p => writePart h g.core g.ctx.rv n s x.1 p) (Stands h g rs) rs s hs ?step).1,
    ← each_flatParts fun s a p => writePart h g.core g.ctx.rv n s a p]
  · split
    · exact .inr rfl
    · exact .inl rfl
  case step =>
    refine fun x hx u hu => each_eq_of_inv (Stands h g rs) x.2 u hu fun p hp v hv => ⟨?_, hv.writePart (hv.held x hx p hp)⟩
    simp only [hv.group, txDoomed_none htx, Bool.and_false, Bool.false_eq_true, if_false]
    exact storePart_plain htx v h hregion uni n x.1 p

/-! ### The whole store -/

theorem dropOther_held {s : State} {c : Nat} {p : Part} (hp : HeldDirty s c p) : dropOther s c p.la p.slot = s := by
  obtain ⟨m, hline, -, hslot⟩ := hp.line
  unfold dropOther
  rw [pend_other_slot_nil hp.pend]
  simp only [each, List.foldl_nil, hline, hslot, if_true]

theorem storeReady_held {s : State} {c rv : Nat} {p : Part} (hp : HeldDirty s c p) : storeReady s c p.la p.slot rv = true := by
  obtain ⟨m, hline, hst, hslot⟩ := hp.line
  simp [storeReady, hline, hst, hslot]

/-- Checks name the accesses they are of, in their order. -/
theorem checkAll_accs (s : State) (g : Group) (nat : Bool) (n : Nat) (need : Need) (accs : List Acc) :
    (checkAll s g nat n need accs).1.map (·.1) = accs := by
  have key (pre : List (Acc × Except Bad (List Part))) : (accs.foldl (fun (rs, s) a =>
      let (r, s) := checkVirt s g nat n need a
      (rs ++ [(a, r)], s)) (pre, s)).1.map (·.1) = pre.map (·.1) ++ accs := by
    induction accs generalizing s pre with
    | nil => simp
    | cons a accs ih =>
      rw [List.foldl_cons]
      refine (ih _ _).trans ?_
      simp
  exact key []

/-- The accesses whose checks pass are among those checked. -/
theorem fst_mem_of_mem_flatParts {rs : List (Acc × Except Bad (List Part))} {x : Acc × Part} (hx : x ∈ flatParts (okParts rs)) :
    x.1 ∈ rs.map (·.1) := by
  simp only [flatParts, okParts, List.mem_flatten, List.mem_map, List.mem_filterMap] at hx
  obtain ⟨_, ⟨y, ⟨⟨a, r⟩, hr, hy⟩, rfl⟩, hz⟩ := hx
  obtain ⟨p, -, rfl⟩ := List.mem_map.1 hz
  cases r with
  | error b => cases hy
  | ok ps => cases hy; exact List.mem_map_of_mem hr

theorem mem_partsOf_of_mem_okParts {rs : List (Acc × Except Bad (List Part))} {x : Acc × List Part} (hx : x ∈ okParts rs) {p : Part}
    (hp : p ∈ x.2) : p ∈ partsOf rs := by
  rw [← parts_flat]
  exact List.mem_map.2 ⟨(x.1, p), List.mem_flatten.2 ⟨_, List.mem_map_of_mem hx, List.mem_map_of_mem hp⟩, rfl⟩

section Store

variable {s s1 : State} {h n till : Nat} {g : Group} {uni : Bool} {accs : List Acc} {rs : List (Acc × Except Bad (List Part))}
  (hcheck : checkAll s g false n .write accs = (rs, s1)) (hbads : badsOf rs = [])
  (hheld : ∀ p ∈ partsOf rs, HeldDirty s1 g.core p) (htx : g.ctx.tx = [])
include hcheck hbads hheld htx

/-- A store whose checks pass, whose lines its core holds and which no earlier access holds back is made. -/
theorem tryStore_held (hfree : earlierHolds s1 h g.ctx till uni (partsOf rs) = false) :
    tryStore s h g uni n accs till = .done (performStore s1 h uni n (okParts rs)) := by
  have hfilter : (accs.filter fun a => uni || !txDoomed g.ctx a.t) = accs := by simp [txDoomed_none htx]
  have hlines {l : Nat × Nat} (hl : l ∈ ((partsOf rs).map fun p => (p.la, p.slot)).eraseDups) : ∃ p ∈ partsOf rs, (p.la, p.slot) = l := by
    rw [List.mem_eraseDups] at hl
    exact List.mem_map.1 hl
  unfold tryStore
  simp only [hfilter, hcheck, hbads, List.filter_nil, failOf]
  rw [each_same _ s1 _ fun l hl => ?dropped, hfree, Bool.false_or, if_neg ?ready]
  · rfl
  case dropped =>
    obtain ⟨p, hp, rfl⟩ := hlines hl
    exact dropOther_held (hheld p hp)
  case ready =>
    simp only [List.any_eq_true, Bool.not_eq_true', not_exists, not_and, Bool.not_eq_false]
    intro l hl
    obtain ⟨p, hp, rfl⟩ := hlines hl
    exact storeReady_held (hheld p hp)

end Store

/-- What an operation counted for its group leaves: memory, lines and cores. -/
theorem outSoon_keeps (s : State) (h : Nat) :
    (outSoon s h).mem = s.mem ∧ (outSoon s h).lines = s.lines ∧ (outSoon s h).cores = s.cores := by
  unfold outSoon addOut newId
  simp only [send_keeps_mem, send_keeps_lines, send_keeps_cores]
  unfold modGroup
  split <;> exact ⟨rfl, rfl, rfl⟩

theorem groupOf_outSoon {s : State} {h : Nat} {g : Group} (hg : groupOf s h = some g) :
    ∃ g', groupOf (outSoon s h) h = some g' := by
  have hg' : groupOf (newId s).2 h = some g := hg
  refine ⟨{ g with out := g.out ++ [(newId s).1] }, ?_⟩
  unfold outSoon addOut
  simp only [send_group, modGroup_group, if_true, hg', Option.map_some]

/-- A retired word leaves memory, lines and what each core caches. -/
theorem Retired.keeps {s t : State} {h len cyc : Nat} {g : Group} {io : Io} {r : Res} (hr : Retired s h g io len cyc r t) :
    t.mem = s.mem ∧ t.lines = s.lines ∧ ∀ c, (coreOf t c).near = (coreOf s c).near := by
  obtain ⟨-, -, hcores, -, -, -, hrest⟩ := hr
  exact ⟨by rw [hrest], by rw [hrest], fun c => by rw [hcores c]⟩

/-- A group's accesses written leave it as it stands. -/
theorem Stands.writeAccs_group {s : State} {h n : Nat} {g : Group} {rs : List (Acc × List Part)} (hs : Stands h g rs s) :
    groupOf (writeAccs s h g n rs) h = some g := by
  have hheld (x : Acc × Part) (hx : x ∈ flatParts rs) : HeldDirty s g.core x.2 := by
    simp only [flatParts, List.mem_flatten, List.mem_map] at hx
    obtain ⟨_, ⟨y, hy, rfl⟩, hz⟩ := hx
    obtain ⟨p, hp, rfl⟩ := List.mem_map.1 hz
    exact hs.held y hy p hp
  exact ((writeParts_stored h g.core g.ctx.rv n (flatParts rs) s hheld).oneCore.group h).trans hs.group

/-- The only part of the only access checked. -/
theorem flatParts_single {s s1 : State} {g : Group} {nat : Bool} {n : Nat} {need : Need} {a : Acc} {p : Part}
    {rs : List (Acc × Except Bad (List Part))} (hcheck : checkAll s g nat n need [a] = (rs, s1)) (hparts : partsOf rs = [p]) :
    flatParts (okParts rs) = [(a, p)] := by
  have hsnd := parts_flat rs
  rw [hparts] at hsnd
  obtain ⟨x, hx, hxp⟩ := List.map_eq_singleton_iff.1 hsnd
  have hrs : rs.map (·.1) = [a] := by
    have := checkAll_accs s g nat n need [a]
    rwa [hcheck] at this
  have ha : x.1 ∈ rs.map (·.1) := fst_mem_of_mem_flatParts (by rw [hx]; exact List.mem_singleton_self x)
  rw [hrs, List.mem_singleton] at ha
  rw [hx, ← ha, ← hxp]

/-- Settles O37: the store is made in the near cache, part by part. -/
theorem storeFrame : Obligations.StoreFrame := by
  unfold Obligations.StoreFrame
  intro s h g f d hc hfree hregion htx _ eff n accs rs s1 hcheck hbads hlines hpend hearlier
  have hheld (p : Part) (hp : p ∈ partsOf rs) : HeldDirty s1 g.core p := ⟨hlines p hp, hpend p hp⟩
  have hg1 : groupOf s1 h = some g := by
    have hkept := checkAll_group s g false n .write accs h
    rw [hcheck] at hkept
    exact hkept.trans (current_group hc).1
  have hstands : Stands h g (okParts rs) s1 := ⟨hg1, fun x hx p hp => hheld p (mem_partsOf_of_mem_okParts hx hp)⟩
  have hstored := writeParts_stored h g.core g.ctx.rv n (flatParts (okParts rs)) s1 fun x hx => hheld x.2 (by
    rw [← parts_flat]; exact List.mem_map_of_mem hx)
  rw [parts_flat] at hstored
  generalize hw : (each (flatParts (okParts rs)) s1 fun s x => writePart h g.core g.ctx.rv n s x.1 x.2) = w at hstored
  have hwrites : writeAccs s1 h g n (okParts rs) = w := hw
  -- the store is made, and its effects are those of its parts
  obtain ⟨u, g', htry, hg', hmem, hlineSt, hcores⟩ : ∃ u g', tryStore s h g f.u (sizeOfTy f.ty) (storeAccs f d g) s.nextId = .done u
      ∧ groupOf u h = some g' ∧ u.mem = w.mem ∧ u.lines = w.lines ∧ u.cores = w.cores := by
    have hgw : groupOf w h = some g := hwrites ▸ hstands.writeAccs_group
    have htry := tryStore_held hcheck hbads hheld htx hearlier
    rcases performStore_held (n := n) (uni := f.u) hstands hregion htx with hu | hu
    · exact ⟨w, g, by rw [← hwrites, ← hu]; exact htry, hgw, rfl, rfl, rfl⟩
    · obtain ⟨g', hg'⟩ := groupOf_outSoon hgw
      exact ⟨outSoon w h, g', by rw [← hwrites, ← hu]; exact htry, hg', outSoon_keeps w h⟩
  obtain ⟨hmemT, hlinesT, hnearT⟩ := (retire_spec u h g' (ioStore f false) (lenOf f (some d)) (cyclesOf f.u g'.w eff) {}).keeps
  generalize ht : retire u h g' (ioStore f false) (lenOf f (some d)) (cyclesOf f.u g'.w eff) {} = t at hmemT hlinesT hnearT
  have hnear (c : Nat) : (coreOf t c).near = (coreOf w c).near := by rw [hnearT c, coreOf, hcores, coreOf]
  have hnearLine (c la : Nat) : nearLine t c la = nearLine w c la := by unfold nearLine; rw [hnear]
  refine ⟨t, by rw [← ht]; exact execSt_done hc hfree htry hg', ?_, ?_, fun c hne => ?_, fun la hla => ?_, fun la m hm hp => ?_,
    fun a p haccs hparts => ?_⟩
  · rw [hmemT, hmem, hstored.oneCore.1]
  · rw [hlinesT, hlineSt, hstored.oneCore.1]
  · rw [hnear, hstored.oneCore.2 c hne]
  · rw [hnearLine, hstored.others la hla]
  · obtain ⟨p, hp, hla⟩ := hp
    obtain ⟨m0, hm0, hst, -⟩ := hlines p hp
    rw [hla, hm] at hm0
    cases hm0
    obtain ⟨m', hm', hst', hbytes⟩ := hstored.lines la m hm hst
    exact ⟨m', by rw [hnearLine, hm'], hst', hbytes⟩
  · have hp : p ∈ partsOf rs := by rw [hparts]; exact List.mem_singleton_self p
    obtain ⟨m, hm, hst, hslot⟩ := hlines p hp
    obtain ⟨m', hone⟩ := writePart_storedInto (h := h) (rv := g.ctx.rv) (n := n) (a := a) hm hst hslot (hpend p hp)
    rw [haccs] at hcheck
    rw [flatParts_single hcheck hparts] at hw
    simp only [each, List.foldl_cons, List.foldl_nil] at hw
    rw [hw] at hone
    exact ⟨m, m', hm, by rw [hnearLine, hone.line], hone.data, hone.mask⟩

end Sys2Proof.Machine
end

section
/-! The stores to scratch and pockets (07 R160, R161, R168, 08 R198). -/

namespace Sys2Proof.Machine

open Sys2Proof.Claims

section Meanings

variable (f : FOps) (d : Word) (s : State)

theorem exec_sts : exec (.sts f d) s
    = issueSpaceStoreRun s f (some d) false true (f.ty.width / 8) (ioStore f true) fun x => storeData x f := rfl

theorem exec_stp : exec (.stp f d) s
    = issueSpaceStoreRun s f (some d) true true (f.ty.width / 8) (ioStore f true) fun x => storeData x f := rfl

/-- A run of registers takes four bytes each (08 R198). -/
theorem fragRun_bytes : 4 * fragRun f = 16 * (f.mod.toNat + 1) := by
  rw [fragRun]
  omega

theorem exec_msts : exec (.msts f) s = issueSpaceStoreRun s f none false false (16 * (f.mod.toNat + 1))
    ((ioAddr f true).join (ioSrc false f.d.toNat (4 * (f.mod.toNat + 1)) f.lrC)) fun x t => readRun x f.d.toNat (4 * (f.mod.toNat + 1)) t := by
  rw [← fragRun_bytes]
  rfl

end Meanings

/-- What is claimed of stores to scratch or pockets that are made: which bytes they leave, and which they store. -/
def SpaceStored (s s' : State) (h : Nat) (g : Group) (pocket : Bool) (n : Nat) (accs : List Acc) : Prop :=
  s' = { s with groups := s'.groups, teams := s'.teams }
  ∧ (∃ g', groupOf s' h = some g' ∧ g' = { g with ctx := { g.ctx with pocket := g'.ctx.pocket } }
    ∧ (∀ th b, b < 65536 → (pocket = false ∨ ∀ a ∈ accs, a.t ≠ th ∨ b < a.ea.toNat ∨ a.ea.toNat + n ≤ b) →
        look g'.ctx.pocket (pocketKey th b) 0 = look g.ctx.pocket (pocketKey th b) 0)
    ∧ ∀ pre a, pocket = true → accs = pre ++ [a] → pocketRead g'.ctx a.t a.ea.toNat n = leBytes n a.data)
  ∧ (∀ b, (pocket = true ∨ ∀ a ∈ accs, b < a.ea.toNat ∨ a.ea.toNat + n ≤ b) →
      look (teamOf s' g.team).scratch b 0 = look (teamOf s g.team).scratch b 0)
  ∧ ∀ pre a, pocket = false → accs = pre ++ [a] → scratchRead (teamOf s' g.team) a.ea.toNat n = leBytes n a.data

/-- Stores that keep within their space leave what `SpaceStored` says. -/
theorem spaceStore_stored {s : State} {h : Nat} {g : Group} {n : Nat} {accs : List Acc} (hg : groupOf s h = some g) (pocket : Bool)
    (hwithin : pocket = true → ∀ a ∈ accs, a.ea.toNat + n ≤ 65536) : SpaceStored s (spaceStore s h g pocket n accs) h g pocket n accs := by
  cases pocket with
  | false => exact scratchStores s h g n accs hg
  | true => exact pocketStores s h g n accs hg (hwithin rfl)

section SpaceStores

variable {i : Instr} {s : State} {h : Nat} {g : Group} {f : FOps} {l : Option Word} {pocket fall : Bool} {n : Nat} {io : Io}
  {data : Ctx → Nat → Nat} (hc : current s = some (h, g)) (hregion : inRegion g.ctx = false)
  (hroom : (groupLaunch s g).rc.pocket ≤ 65536) (hexec : exec i s = issueSpaceStoreRun s f l pocket fall n io data)
  (hfree : blocked g.ctx io = false)
include hc hregion hroom hexec hfree

/-- A store to scratch or pockets faults, parks its group, or is made. -/
theorem spaceStore_cases :
    let eff := effSet g.ctx g.w f.k f.kn
    let accs := accsOf g.ctx g.w f true l eff (data g.ctx) fun _ => 0
    let gone := if pocket then [] else absentLines s g n accs
    (∀ b, spaceFail s g pocket f.u n accs = some b → exec i s = .next (raise s h (badRec g.ctx eff b)))
    ∧ (spaceFail s g pocket f.u n accs = none → gone ≠ [] → exec i s = .next (park s h (.scratch gone) 1))
    ∧ (spaceFail s g pocket f.u n accs = none → gone = [] →
        ∃ s', performs i s s' h io (lenOf f l) f.u eff ∧ SpaceStored s s' h g pocket n accs) := by
  intro eff accs gone
  obtain ⟨hbad, hpark, hmade⟩ := issueSpaceStore_goes s h g f l pocket fall n io data hc hregion hroom hfree
  rw [hexec]
  refine ⟨hbad, hpark, fun hok hgone => ⟨spaceStore s h g pocket n accs, performs_of_retire fun g' hg' => ?_, ?_⟩⟩
  · rw [hexec]
    exact hmade hok hgone g' hg'
  · exact spaceStore_stored (current_group hc).1 pocket fun hp a ha => (spaceFail_none hok a ha hp).trans hroom

end SpaceStores

/-- Settles O38: each of the three words stores its bytes and no other. -/
theorem scratchAndPocketStores : Obligations.ScratchAndPocketStores := by
  unfold Obligations.ScratchAndPocketStores
  intro s h g f d hc hregion hroom
  refine List.forall_mem_cons.2 ⟨?_, List.forall_mem_cons.2 ⟨?_, List.forall_mem_cons.2 ⟨?_, List.forall_mem_nil _⟩⟩⟩
  · exact fun hfree => spaceStore_cases hc hregion hroom (exec_sts f d s) hfree
  · exact fun hfree => spaceStore_cases hc hregion hroom (exec_stp f d s) hfree
  · exact fun hfree => spaceStore_cases hc hregion hroom (exec_msts f s) hfree

end Sys2Proof.Machine
end

section
/-! The loads and atomics issue: their windows open with what was captured (07 R156 to R166, R175 to R177, 08 R198). -/

namespace Sys2Proof.Machine

open Sys2Proof.Claims

section Meanings

variable (f : FOps) (d : Word) (s : State)

/-- The loads and atomics of virtual memory differ as `virtTable` says. -/
theorem exec_virt {e : VirtWord} {x : Ctx} (he : e ∈ virtTable f d x) : ∃ data new : Ctx → Nat → Nat, data x = e.data ∧ new x = e.new
    ∧ exec e.i s = issueVirt s f e.d e.kind e.op e.scope e.io data new e.tx e.fall := by
  simp only [virtTable, List.mem_cons, List.not_mem_nil, or_false] at he
  rcases he with rfl | rfl | rfl | rfl | rfl | rfl
  · exact ⟨fun _ _ => 0, fun _ _ => 0, rfl, rfl, rfl⟩
  · exact ⟨fun _ _ => 0, fun _ _ => 0, rfl, rfl, rfl⟩
  · exact ⟨fun _ _ => 0, fun _ _ => 0, rfl, rfl, rfl⟩
  · exact ⟨fun _ _ => 0, fun _ _ => 0, rfl, rfl, rfl⟩
  · exact ⟨atomData f, fun _ _ => 0, rfl, rfl, rfl⟩
  · exact ⟨atomData f, acasNew f, rfl, rfl, rfl⟩

theorem exec_lds : exec (.lds f d) s
    = issueSpaceRun s f (some d) .lds (f.ty.width / 8) f.ty.regs .add {} (fun _ _ => 0) false := rfl

theorem exec_ldp : exec (.ldp f d) s
    = issueSpaceRun s f (some d) .ldp (f.ty.width / 8) f.ty.regs .add {} (fun _ _ => 0) false := rfl

theorem exec_mlds : exec (.mlds f) s
    = issueSpaceRun s f none .mlds (16 * (f.mod.toNat + 1)) (4 * (f.mod.toNat + 1)) .add {} (fun _ _ => 0) false := by
  rw [← fragRun_bytes]
  rfl

theorem exec_atoms : exec (.atoms f) s = issueSpaceRun s f none .atoms (f.ty.width / 8) f.ty.regs (atomOf f.mod.toNat)
    (ioSrc f.u f.c.toNat f.ty.regs f.lrC) (atomData f) true := rfl

end Meanings

/-- Settles O33, by what issuing a load or an atomic of virtual memory comes to. -/
theorem loadsAndAtomicsBegin : Obligations.LoadsAndAtomicsBegin := by
  unfold Obligations.LoadsAndAtomicsBegin
  intro s h g f d hc e he eff io accs req hfree hroom rs s1 hcheck hearlier hready s2 s3 g' hg'
  obtain ⟨data, new, hdata, hnew, hexec⟩ := exec_virt f d s he
  have hissue := issueVirt_begins s h g f e.d e.kind e.op e.scope e.io data new e.tx e.fall hc
  simp only [hdata, hnew] at hissue
  exact ⟨_, openWin_spec s3 h g' (io.under eff) _ _ f.la.toNat _,
    hexec.trans (hissue hfree hroom rs s1 hcheck hearlier hready g' hg')⟩

section SpaceLoads

variable {i : Instr} {s : State} {h : Nat} {g : Group} {f : FOps} {d : Option Word} {kind : MemKind} {n regs : Nat} {op : AtomOp} {io2 : Io}
  {data : Ctx → Nat → Nat} {fall : Bool} (hc : current s = some (h, g))
  (hexec : exec i s = issueSpaceRun s f d kind n regs op io2 data fall)
include hc hexec

/-- A load or an atomic of scratch or pockets parks its group, or opens its window. -/
theorem spaceLoad_cases :
    let eff := effSet g.ctx g.w f.k f.kn
    let io := (ioAddr f true).join (io2.join (ioDst f.u f.d.toNat regs))
    let accs := accsOf g.ctx g.w f true d eff (data g.ctx) fun _ => 0
    let req : MemReq := { kind := kind, ty := f.ty, size := n, uni := f.u, dst := f.d.toNat, op := op, eff := eff, accs := accs }
    let bad := spaceFail s g (kind == .ldp) f.u n accs
    let gone := if kind == .ldp then [] else absentLines s g n accs
    blocked g.ctx (io.under eff) = false →
    (eff ≠ 0 → allocCheck s h g (allocNeed g.ctx io io.vw).1 (allocNeed g.ctx io io.vw).2 ≠ .trap) →
    (bad = none → gone ≠ [] → exec i s = .next (park s h (.scratch gone) 1))
    ∧ ((bad = none → gone = []) →
        let s' := if fall && eff ≠ 0 && bad.isNone then fallBack s h else s
        ∀ g', groupOf s' h = some g' →
          ∃ u, Begun s' h g' (io.under eff) (lenOf f d) (cyclesOf f.u g'.w eff) f.la.toNat
              { id := 0, pc := 0, left := 0, req := some req } u
            ∧ exec i s = .next (startWin u h s'.nextId)) := by
  intro eff io accs req bad gone hfree hroom
  obtain ⟨hpark, hopen⟩ := issueSpace_begins s h g f d kind n regs op io2 data fall hc hfree hroom
  rw [hexec]
  refine ⟨hpark, fun hgone => ?_⟩
  intro s' g' hg'
  exact ⟨_, openWin_spec s' h g' (io.under eff) _ _ f.la.toNat _, hopen hgone g' hg'⟩

end SpaceLoads

/-- Settles O34: each of the four words parks its group or opens its window. -/
theorem scratchAndPocketLoadsBegin : Obligations.ScratchAndPocketLoadsBegin := by
  unfold Obligations.ScratchAndPocketLoadsBegin
  intro s h g f d hc
  refine List.forall_mem_cons.2 ⟨?_, List.forall_mem_cons.2 ⟨?_, List.forall_mem_cons.2 ⟨?_, List.forall_mem_cons.2 ⟨?_,
    List.forall_mem_nil _⟩⟩⟩⟩
  · exact spaceLoad_cases hc (exec_lds f d s)
  · exact spaceLoad_cases hc (exec_ldp f d s)
  · exact spaceLoad_cases hc (exec_mlds f s)
  · exact spaceLoad_cases hc (exec_atoms f s)

end Sys2Proof.Machine
end

section
/-! What captured accesses come to when they are performed (07 R160 to R166, R177, 10 R255, 12 R287). -/

namespace Sys2Proof.Machine

section Captured

variable {s : State} {h wid : Nat} {g : Group} {w : Win} {r : MemReq} (hg : groupOf s h = some g) (hw : winOf g.ctx wid = some w)
  (hreq : w.req = some r)
include hg hw hreq

/-! ### Scratch and pockets -/

theorem startWin_space (hkind : r.kind = .lds ∨ r.kind = .ldp ∨ r.kind = .mlds ∨ r.kind = .atoms) :
    startWin s h wid = startSpace s h wid := by
  unfold startWin
  simp only [hg, Option.bind_some, hw, hreq]
  rcases hkind with hk | hk | hk | hk <;> rw [hk]

/-- An access of scratch or pockets that fails its check: its window takes the fault. -/
theorem startSpace_bad {b : Bad} (hbad : spaceFail s g (r.kind == .ldp) r.uni r.size r.accs = some b) :
    startSpace s h wid = winFault s h wid b := by
  simp only [startSpace, hg, Option.bind_some, hw, hreq, hbad]

variable (hbad : spaceFail s g (r.kind == .ldp) r.uni r.size r.accs = none)
include hbad

/-- One that touches an absent line waits for it. -/
theorem startSpace_waits {gone : List Nat} (hgone : (if r.kind = .ldp then [] else absentLines s g r.size r.accs) = gone) (hne : gone ≠ []) :
    startSpace s h wid = modWin s h wid fun w => { w with fault := none, waitLines := gone } := by
  subst hgone
  simp only [startSpace, hg, Option.bind_some, hw, hreq, hbad, beq_iff_eq]
  exact if_pos (by simpa using hne)

variable (hgone : (if r.kind = .ldp then [] else absentLines s g r.size r.accs) = [])
include hgone

theorem startSpace_loads (hkind : r.kind ≠ .atoms) : startSpace s h wid
    = modWin s h wid fun w => { w with fault := none, waitLines := [], vals := spaceLoad s g r, done := true } := by
  have hload : (r.kind == MemKind.atoms) = false := by simpa using hkind
  simp only [startSpace, hg, Option.bind_some, hw, hreq, hbad, beq_iff_eq, hgone, hload, List.isEmpty_nil, Bool.not_true,
    Bool.false_eq_true, if_false]

theorem startSpace_atoms (hkind : r.kind = .atoms) : startSpace s h wid
    = modWin (spaceAtoms s g r).2 h wid fun w => { w with fault := none, waitLines := [], vals := (spaceAtoms s g r).1, done := true } := by
  have hatoms : (r.kind == MemKind.atoms) = true := by simpa using hkind
  simp only [startSpace, hg, Option.bind_some, hw, hreq, hbad, beq_iff_eq, hgone, hatoms, List.isEmpty_nil, Bool.not_true,
    Bool.false_eq_true, if_false, if_true]

end Captured

/-! ### Parts of a load -/

section Parts

variable {s : State} {h wid i : Nat} {g : Group} {w : Win} {r : MemReq} {p : Part} (hg : groupOf s h = some g)
  (hw : winOf g.ctx wid = some w) (hreq : w.req = some r)
include hg hw hreq

section Waiting

variable (hpart : w.parts[i]? = some p) (hwaits : p.got = none) (hatom : r.kind ≠ .atom) (hacas : r.kind ≠ .acas)
include hpart hwaits hatom hacas

theorem servePart_none (hserve : partServe s g h r p = none) : servePart s h wid i = s := by
  unfold servePart
  simp only [hg, hw, hreq, hpart, hwaits, Option.isSome_none, Bool.false_eq_true, if_false, hserve]

/-- A part of a load that no transaction is to note, where the near cache serves it. -/
theorem servePart_some (hplain : r.uni = true ∨ txLive g.ctx p.t = false) {bs : List Byte} {v : Nat} {own : ByteMask}
    (hserve : partServe s g h r p = some (bs, v, own)) :
    servePart s h wid i = modWin (useLine s g.core p.la) h wid fun w =>
      { w with parts := setAt w.parts i { p with got := some bs }, rv := max w.rv v } := by
  have hnote : (!r.uni && txLive g.ctx p.t && r.kind == .ld) = false := by
    rcases hplain with hu | ht
    · simp [hu]
    · simp [ht]
  unfold servePart
  simp only [hg, hw, hreq, hpart, hwaits, Option.isSome_none, Bool.false_eq_true, if_false, hserve, hnote]

end Waiting

omit hreq in
/-- A window read after it is changed. -/
theorem modWin_reads {f : Win → Win} {w' : Win} (hid : ∀ v, (f v).id = v.id) (hf : f w = w') :
    ∃ g', groupOf (modWin s h wid f) h = some g' ∧ winOf g'.ctx wid = some w' := by
  obtain ⟨g', hg', hw', -⟩ := modWin_at s h wid f g w hg hw hid
  exact ⟨g', hg', hf ▸ hw'⟩

/-- A window of no acquire, all of whose parts are served, is complete. -/
theorem finishWin_complete (hserved : ∀ q ∈ w.parts, q.got ≠ none) (hkind : r.kind ≠ .lda) : ∃ g',
    groupOf (finishWin s h wid) h = some g' ∧ winOf g'.ctx wid = some { w with done := true, waitLines := [], vals := winVals w r } := by
  have hall : (w.parts.all fun p => p.got.isSome) = true := by
    rw [List.all_eq_true]
    exact fun q hq => Option.isSome_iff_ne_none.2 (hserved q hq)
  have hlda : (r.kind == MemKind.lda) = false := by simpa using hkind
  unfold finishWin
  simp only [hg, hw, hreq, hlda, Bool.false_and, Bool.false_eq_true, if_false]
  refine modWin_reads hg hw (fun v => ?_) (by simp only [hreq, hall, if_true])
  split
  · split <;> rfl
  · rfl

end Parts

/-- Settles O35, by what a captured access of scratch or pockets comes to, and by what serving a part of a load does. -/
theorem capturedAccessesPerformed : Obligations.CapturedAccessesPerformed := by
  unfold Obligations.CapturedAccessesPerformed
  constructor
  · intro s h wid g w r hg hw hreq hkind gone bad gives
    have hstart := startWin_space hg hw hreq hkind
    refine ⟨fun b hb => ?_, fun hb hgone => ?_, fun hb hgone hload => ?_, fun hb hgone hatoms => ?_⟩
    · exact hstart.trans (startSpace_bad hg hw hreq hb)
    · exact hstart.trans (startSpace_waits hg hw hreq hb rfl hgone)
    · exact hstart.trans (startSpace_loads hg hw hreq hb hgone hload)
    · exact hstart.trans (startSpace_atoms hg hw hreq hb hgone hatoms)
  · intro s h wid i g w r p hg hw _ hreq hpart hwaits hatom hacas hplain
    refine ⟨fun hserve => servePart_none hg hw hreq hpart hwaits hatom hacas hserve, fun bs v own hserve => ?_,
      fun hserved hkind => ?_⟩
    · rw [servePart_some hg hw hreq hpart hwaits hatom hacas hplain hserve]
      have hg1 : groupOf (useLine s g.core p.la) h = some g := ((oneCore_useLine s g.core p.la).group h).trans hg
      obtain ⟨g', hg', hw', hshape⟩ := modWin_at (useLine s g.core p.la) h wid
        (fun w => { w with parts := setAt w.parts i { p with got := some bs }, rv := max w.rv v }) g w hg1 hw fun _ => rfl
      exact ⟨g', _, hg', hw', rfl, hshape, by rw [groupsTeams_modWin (useLine s g.core p.la)]; rfl⟩
    · obtain ⟨g', hg', hw'⟩ := finishWin_complete hg hw hreq hserved hkind
      exact ⟨g', _, hg', hw', rfl⟩

end Sys2Proof.Machine
end

section
/-! Fences, and waiting for an engine's counter (07 R178, R181, 08 R205). -/

namespace Sys2Proof.Machine

open Sys2Proof.Claims

/-! ### The release part -/

section Release

variable {s : State} {h : Nat} {g : Group} {wide : Bool}

theorem releasePart_waits (hwaits : settled g.ctx = false ∨ siteInFlight s h = true) : releasePart s h g wide = (false, s) := by
  refine if_pos ?_
  rcases hwaits with hw | hw <;> simp [hw]

variable (hdone : ¬(settled g.ctx = false ∨ siteInFlight s h = true))
include hdone

theorem releasePart_past : releasePart s h g wide = if !wide then (true, s)
    else if g.ctx.phase = 0 then (false, modCtx (drainCore s g.core (some h) none) h fun x => { x with phase := 1 })
    else (coreQuiet s g.core, s) := by
  refine if_neg ?_
  simpa using hdone

theorem releasePart_narrow (hwide : wide = false) : releasePart s h g wide = (true, s) := by
  rw [releasePart_past hdone, hwide]
  rfl

variable (hwide : wide = true)
include hwide

theorem releasePart_drains (hphase : g.ctx.phase = 0) : releasePart s h g wide
    = (false, modCtx (drainCore s g.core (some h) none) h fun x => { x with phase := 1 }) := by
  rw [releasePart_past hdone, hwide, if_pos hphase]
  rfl

theorem releasePart_drained (hphase : g.ctx.phase ≠ 0) : releasePart s h g wide = (coreQuiet s g.core, s) := by
  rw [releasePart_past hdone, hwide, if_neg hphase]
  rfl

end Release

/-! ### `FENCE` -/

section Fence

variable {s : State} {h : Nat} {g : Group} {f : FOps} (hc : current s = some (h, g))
include hc

theorem exec_fence_empty (heff : effSet g.ctx g.w f.k f.kn = 0) :
    exec (.fence f) s = .next (retire (setGroup s h (ended g)) h (ended g) {} 1 1 {}) := by
  have heff' : effSet (endWins g.ctx) g.w f.k f.kn = 0 := heff
  change execFence f s = _
  simp only [execFence, hc, heff', if_true]
  rfl

/-- With some thread in E a fence goes on from what its region and its transactions leave. -/
theorem exec_fence_goes (heff : effSet g.ctx g.w f.k f.kn ≠ 0) {g1 : Group}
    (hg1 : groupOf (fallBack (forbid (setGroup s h (ended g)) h (effSet g.ctx g.w f.k f.kn)) h) h = some g1) :
    exec (.fence f) s = fenceFrom (fallBack (forbid (setGroup s h (ended g)) h (effSet g.ctx g.w f.k f.kn)) h) h g1 f := by
  have heff' : effSet (endWins g.ctx) g.w f.k f.kn ≠ 0 := heff
  have hg1' : groupOf (fallBack (forbid (setGroup s h { g with ctx := endWins g.ctx }) h (effSet (endWins g.ctx) g.w f.k f.kn)) h) h
      = some g1 := hg1
  change execFence f s = _
  simp only [execFence, hc, heff', if_false, hg1']
  rfl

end Fence

/-- A fence whose release part is not done issues again. -/
theorem fenceFrom_holds {s u : State} {h : Nat} {g : Group} {f : FOps} (hmod : f.mod ≠ 2)
    (hrelease : releasePart s h g (wideScope s g (f.scope.getD .grp)) = (false, u)) : fenceFrom s h g f = .next u := by
  have hmod' : (f.mod == 2) = false := by simpa using hmod
  simp only [fenceFrom, hmod', Bool.false_eq_true, if_false, hrelease, Bool.not_false, if_true]

/-- One that only acquires waits for its group's loads. -/
theorem fenceFrom_acquire_holds {s : State} {h : Nat} {g : Group} {f : FOps} (hmod : f.mod = 2) (hopen : settled g.ctx = false) :
    fenceFrom s h g f = .next s := by
  simp only [fenceFrom, hmod, hopen]
  rfl

/-! ### `WAITE` -/

section WaitEngine

variable {s : State} {h : Nat} {g : Group} {f : FOps} (hc : current s = some (h, g))
include hc

theorem exec_waite_parks (hcount : f.imm12.toNat < (coreOf (setGroup s h (ended g)) g.core).ec.getD f.d.toNat 0) :
    exec (.waite f) s = .next (park (setGroup s h (ended g)) h (.engine f.d.toNat f.imm12.toNat) 4) := by
  change execWaite f s = _
  unfold execWaite
  simp only [hc]
  exact if_pos hcount

variable (hcount : (coreOf (setGroup s h (ended g)) g.core).ec.getD f.d.toNat 0 ≤ f.imm12.toNat)
include hcount

theorem exec_waite_passes (hposted : postedFault (teamOf (setGroup s h (ended g)) g.team) g.core f.d.toNat = none) :
    exec (.waite f) s = .next (retire (setGroup s h (ended g)) h { ended g with ctx := { (ended g).ctx with
      rv := max (ended g).ctx.rv ((coreOf (setGroup s h (ended g)) g.core).ecRv.getD f.d.toNat 0) } } {} 1 1 {}) := by
  change postedFault (teamOf (setGroup s h { g with ctx := endWins g.ctx }) g.team) g.core f.d.toNat = none at hposted
  change execWaite f s = _
  unfold execWaite
  simp only [hc, hposted]
  exact if_neg (Nat.not_lt.2 hcount)

theorem exec_waite_faults {p : Nat × Nat × Nat × Word}
    (hposted : postedFault (teamOf (setGroup s h (ended g)) g.team) g.core f.d.toNat = some p) (hsettled : settled (ended g).ctx = true) :
    exec (.waite f) s = .next (raise (modTeam (setGroup (setGroup s h (ended g)) h { ended g with ctx := { (ended g).ctx with
        rv := max (ended g).ctx.rv ((coreOf (setGroup s h (ended g)) g.core).ecRv.getD f.d.toNat 0) } }) g.team
        fun tm => { tm with posted := tm.posted.erase p }) h
      { code := 0x21, cause := p.2.2.1, iaddr := p.2.2.2, pc := g.ctx.pc + 8, failing := g.ctx.active, eff := g.ctx.active }) := by
  change postedFault (teamOf (setGroup s h { g with ctx := endWins g.ctx }) g.team) g.core f.d.toNat = some p at hposted
  change settled (endWins g.ctx) = true at hsettled
  change execWaite f s = _
  unfold execWaite
  simp only [hc, hposted, hsettled, Bool.not_true, Bool.false_eq_true, if_false]
  exact if_neg (Nat.not_lt.2 hcount)

end WaitEngine

/-- Settles O41: a fence by its release part, `WAITE` by its counter and what is posted there. -/
theorem fenceAndEngineWaitComplete : Obligations.FenceAndEngineWaitComplete := by
  unfold Obligations.FenceAndEngineWaitComplete
  intro s h g f hc eff s0 s1
  refine ⟨fun heff => ?_, ?_, ?_⟩
  · intro g' hg'
    rw [groupOf_set_self] at hg'
    cases hg'
    exact ⟨_, exec_fence_empty hc heff, retire_spec ..⟩
  · intro heff g1 hg1 wide waits rv passes
    have hgoes : exec (.fence f) s = fenceFrom s1 h g1 f := exec_fence_goes hc heff hg1
    have hpass (hdone : (f.mod = 2 ∧ settled g1.ctx = true) ∨ (f.mod ≠ 2 ∧ releasePart s1 h g1 wide = (true, s1))) : passes :=
      ⟨_, hgoes.trans (fenceFrom_passes s1 h g1 f hg1 hdone), retire_spec ..⟩
    refine ⟨fun hmod => ⟨fun hs => hpass (.inl ⟨hmod, hs⟩), fun hs => hgoes.trans (fenceFrom_acquire_holds hmod hs)⟩,
      fun hmod hw => hgoes.trans (fenceFrom_holds hmod (releasePart_waits hw)),
      fun hmod hw hwide => hpass (.inr ⟨hmod, releasePart_narrow hw hwide⟩),
      fun hmod hw hwide hphase => hgoes.trans (fenceFrom_holds hmod (releasePart_drains hw hwide hphase)),
      fun hmod hw hwide hphase => ?_⟩
    have hrelease := releasePart_drained hw hwide hphase
    exact ⟨fun hquiet => hpass (.inr ⟨hmod, by rw [hrelease, hquiet]⟩),
      fun hquiet => hgoes.trans (fenceFrom_holds hmod (by rw [hrelease, hquiet]))⟩
  · intro q v k x posted
    exact ⟨exec_waite_parks hc, fun hcount hposted => ⟨_, exec_waite_passes hc hcount hposted, retire_spec ..⟩,
      fun hcount p hposted hsettled => ⟨_, rfl, exec_waite_faults hc hcount hposted hsettled⟩⟩

end Sys2Proof.Machine
end

section
/-! Arriving at a barrier (07 R179, R180). -/

namespace Sys2Proof.Machine

open Sys2Proof.Claims

section Arriving

variable {s : State} {h : Nat} {g g1 : Group} {b : Nat} {bar : Bar}

/-- An arrival's count stands at its barrier; the team keeps its groups. -/
theorem arriveBar_team (s : State) (h : Nat) (g : Group) (b : Nat) (bar : Bar) (wait : Bool) :
    teamOf (arriveBar s h g b bar wait) g.team = { teamOf s g.team with bars := put (teamOf s g.team).bars b bar } := by
  have hteam : teamOf (modTeam (spend s h 1) g.team fun tm => { tm with bars := put tm.bars b bar }) g.team
      = { teamOf s g.team with bars := put (teamOf s g.team).bars b bar } := by
    rw [← spend_teams s h 1 g.team]
    exact look_put_self ..
  rw [← hteam]
  unfold arriveBar
  dsimp only
  generalize (modTeam (spend s h 1) g.team fun tm => { tm with bars := put tm.bars b bar }) = u
  have hpark (v : State) (r : Nat) : teamOf (postPark v g r) g.team = teamOf v g.team := by
    unfold teamOf postPark postGroup
    rw [post_frame]
  have hgroup (f : Group → Group) : teamOf (modGroup u h f) g.team = teamOf u g.team := by
    unfold modGroup
    split <;> rfl
  split
  · exact hgroup _
  · split
    · rw [hpark, hgroup]
    · exact hgroup _

/-- An arrival changes no other group. -/
theorem arriveBar_other (s : State) (h : Nat) (g : Group) (b : Nat) (bar : Bar) (wait : Bool) {j : Nat} (hj : j ≠ h) :
    groupOf (arriveBar s h g b bar wait) j = groupOf s j := by
  have hspend : groupOf (modTeam (spend s h 1) g.team fun tm => { tm with bars := put tm.bars b bar }) j = groupOf s j :=
    (spend_elsewhere s h 1).1.1 j hj
  rw [← hspend]
  unfold arriveBar
  dsimp only
  split
  · rw [modCtx, modGroup_group, if_neg hj]
  · split
    · rw [postPark, postGroup, post_group, modGroup_group, if_neg hj]
    · rw [modGroup_group, if_neg hj]

variable (hg1 : groupOf s h = some g1)
include hg1

/-- A group that waits at the barrier it has arrived at. -/
theorem arriveBar_waits : ∃ g', groupOf (arriveBar s h g b bar true) h = some g' ∧ g'.run = .parked (.barrier b)
    ∧ g'.ctx = { g1.ctx with barWait := some b } := by
  obtain ⟨n, hspend, -⟩ := spend_group s h 1 g1 hg1
  have hteam : groupOf (modTeam (spend s h 1) g.team fun tm => { tm with bars := put tm.bars b bar }) h
      = some { g1 with lastIssue := n } := hspend
  unfold arriveBar
  simp only [Bool.not_true, Bool.false_eq_true, if_false]
  split
  · rw [postPark, postGroup, post_group, modGroup_group, if_pos rfl, hteam]
    exact ⟨_, rfl, rfl, rfl⟩
  · rw [modGroup_group, if_pos rfl, hteam]
    exact ⟨_, rfl, rfl, rfl⟩

/-- One that does not wait goes on at the next word. -/
theorem arriveBar_goes_on : ∃ g', groupOf (arriveBar s h g b bar false) h = some g' ∧ g'.run = g1.run
    ∧ g'.ctx = { passWins g1.ctx 1 with pc := g1.ctx.pc + 8, phase := 0 } := by
  obtain ⟨n, hspend, -⟩ := spend_group s h 1 g1 hg1
  have hteam : groupOf (modTeam (spend s h 1) g.team fun tm => { tm with bars := put tm.bars b bar }) h
      = some { g1 with lastIssue := n } := hspend
  unfold arriveBar
  simp only [Bool.not_false, if_true]
  rw [modCtx, modGroup_group, if_pos rfl, hteam]
  exact ⟨_, rfl, rfl, rfl⟩

end Arriving

/-! ### The three words -/

/-- What a word misuses of its barrier (07 R180): it stands in a split, the count agreed is not its own, or its group has arrived. -/
def BarMisused (g : Group) (f : FOps) (bar : Bar) (n : Nat) : Prop :=
  g.ctx.stack ≠ [] ∨ (bar.expected ≠ 0 ∧ (bar.every = f.x0 ∨ (f.x0 = true ∧ bar.expected ≠ n))) ∨ g.gid ∈ bar.arrived

/-- The model's test for a misuse. -/
def barTest (g : Group) (f : FOps) (bar : Bar) (n : Nat) : Bool :=
  !g.ctx.stack.isEmpty || (bar.expected != 0 && (bar.every != !f.x0 || (!(!f.x0) && bar.expected != n))) || bar.arrived.contains g.gid

theorem barTest_iff (g : Group) (f : FOps) (bar : Bar) (n : Nat) : barTest g f bar n = true ↔ BarMisused g f bar n := by
  have hsame : (bar.every != !f.x0) = true ↔ bar.every = f.x0 := by
    cases bar.every <;> cases f.x0 <;> decide
  simp only [barTest, BarMisused, Bool.or_eq_true, Bool.and_eq_true, hsame, or_assoc]
  simp

/-- How many arrivals a word asks for (07 R180): every living group of the team, or the count it carries. -/
def barCount (s : State) (g : Group) (f : FOps) : Nat := if f.x0 then f.imm12.toNat else (liveGroups s g.team).length

section Words

variable {s : State} {h : Nat} {g : Group} {f : FOps} {wait drain : Bool}

/-- The state a barrier word begins from: its group's ended windows gone, an open region fallen back. -/
def barStart (s : State) (h : Nat) (g : Group) : State := fallBack (setGroup s h (ended g)) h

/-- The barrier a word names. -/
def barOf (s : State) (h : Nat) (g : Group) (f : FOps) : Bar := look (teamOf (barStart s h g) g.team).bars f.d.toNat {}

variable (hc : current s = some (h, g))
include hc

theorem issueBar_eq : issueBar s f wait drain
    = (if drain && !g.out.isEmpty then .next (modGroup (barStart s h g) h fun g => { g with run := .parked .outstanding })
      else if barTest g f (barOf s h g f) (barCount (barStart s h g) g f) then
        .next (raise (barStart s h g) h (badRec (ended g).ctx (ended g).ctx.active { code := 0x18 }))
      else if !(releasePart (barStart s h g) h (ended g) (teamOf (barStart s h g) g.team).pair).1 then
        .next (releasePart (barStart s h g) h (ended g) (teamOf (barStart s h g) g.team).pair).2
      else .next (barrierCheck (arriveBar (releasePart (barStart s h g) h (ended g) (teamOf (barStart s h g) g.team).pair).2 h (ended g)
        f.d.toNat { every := !f.x0, arrived := (barOf s h g f).arrived ++ [g.gid]
                    expected := if (barOf s h g f).expected = 0 then barCount (barStart s h g) g f else (barOf s h g f).expected }
        wait) g.team f.d.toNat)) := by
  have hcount : barCount (barStart s h g) g f
      = if !f.x0 then (liveGroups (barStart s h g) g.team).length else f.imm12.toNat := by
    unfold barCount
    cases f.x0 <;> rfl
  rw [hcount]
  unfold issueBar
  simp only [hc]
  rfl

theorem issueBar_outstanding (hdrain : drain = true) (hout : g.out ≠ []) : issueBar s f wait drain
    = .next (modGroup (barStart s h g) h fun g => { g with run := .parked .outstanding }) := by
  rw [issueBar_eq hc, if_pos (by simp [hdrain, hout])]

variable (hfree : drain = false ∨ g.out = [])
include hfree

theorem issueBar_misused (hmis : BarMisused g f (barOf s h g f) (barCount (barStart s h g) g f)) : issueBar s f wait drain
    = .next (raise (barStart s h g) h (badRec (ended g).ctx (ended g).ctx.active { code := 0x18 })) := by
  rw [issueBar_eq hc, if_neg (by rcases hfree with hf | hf <;> simp [hf]), if_pos ((barTest_iff ..).2 hmis)]

variable (hagreed : ¬BarMisused g f (barOf s h g f) (barCount (barStart s h g) g f))
include hagreed

theorem issueBar_holds {u : State}
    (hrelease : releasePart (barStart s h g) h (ended g) (teamOf (barStart s h g) g.team).pair = (false, u)) :
    issueBar s f wait drain = .next u := by
  rw [issueBar_eq hc, if_neg (by rcases hfree with hf | hf <;> simp [hf]), if_neg (mt (barTest_iff ..).1 hagreed), hrelease]
  rfl

theorem issueBar_arrives
    (hrelease : releasePart (barStart s h g) h (ended g) (teamOf (barStart s h g) g.team).pair = (true, barStart s h g)) :
    issueBar s f wait drain = .next (barrierCheck (arriveBar (barStart s h g) h (ended g) f.d.toNat
      { every := !f.x0, arrived := (barOf s h g f).arrived ++ [g.gid]
        expected := if (barOf s h g f).expected = 0 then barCount (barStart s h g) g f else (barOf s h g f).expected }
      wait) g.team f.d.toNat) := by
  rw [issueBar_eq hc, if_neg (by rcases hfree with hf | hf <;> simp [hf]), if_neg (mt (barTest_iff ..).1 hagreed), hrelease]
  rfl

end Words

/-! ### The last arrival -/

section LastArrival

variable {s : State} {h : Nat} {g g1 : Group} {b : Nat} {bar : Bar} {wait : Bool} (hg1 : groupOf s h = some g1)
include hg1

theorem arriveBar_group : ∃ g', groupOf (arriveBar s h g b bar wait) h = some g' := by
  cases wait with
  | true => obtain ⟨g', hg', -⟩ := arriveBar_waits (g := g) (b := b) (bar := bar) hg1; exact ⟨g', hg'⟩
  | false => obtain ⟨g', hg', -⟩ := arriveBar_goes_on (g := g) (b := b) (bar := bar) hg1; exact ⟨g', hg'⟩

/-- A group let pass where it waits, or past the barrier already, is ready at its next word. -/
theorem arriveBar_passes {obs : Nat} {g' p' : Group} (hrun : g1.run = .ready)
    (hg' : groupOf (arriveBar s h g b bar wait) h = some g') (hpast : LetPast b obs True g' p') :
    p'.run = .ready ∧ p'.ctx.pc = g1.ctx.pc + 8 := by
  obtain ⟨hwaiting, hother⟩ := hpast
  cases wait with
  | true =>
    obtain ⟨p, hp, hparked, hctx⟩ := arriveBar_waits (g := g) (b := b) (bar := bar) hg1
    obtain rfl : p = g' := Option.some.inj (hp.symm.trans hg')
    obtain ⟨hready, hpassed⟩ := hwaiting ⟨trivial, hparked⟩
    refine ⟨hready, ?_⟩
    rw [hpassed, hctx]
    rfl
  | false =>
    obtain ⟨p, hp, hkept, hctx⟩ := arriveBar_goes_on (g := g) (b := b) (bar := bar) hg1
    obtain rfl : p = g' := Option.some.inj (hp.symm.trans hg')
    obtain ⟨hsame, hctx'⟩ := hother fun hw => by rw [hkept, hrun] at hw; exact absurd hw.2 (by simp)
    refine ⟨hsame.trans (hkept.trans hrun), ?_⟩
    rw [hctx', hctx]

end LastArrival

/-- A barrier that expects nobody holds. -/
theorem barrierCheck_idle {s : State} {t b : Nat} (hnone : (look (teamOf s t).bars b {}).expected = 0) : barrierCheck s t b = s := by
  unfold barrierCheck
  refine if_neg ?_
  simp [hnone]

/-- The three words arrive in one way. -/
theorem exec_barrier_word (s : State) (f : FOps) : ∀ e ∈ [(Instr.barw f, true, false), (.bara f, false, false), (.drain f, true, true)],
    exec e.1 s = issueBar s f e.2.1 e.2.2 :=
  List.forall_mem_cons.2 ⟨rfl, List.forall_mem_cons.2 ⟨rfl, List.forall_mem_cons.2 ⟨rfl, fun _ hn => absurd hn List.not_mem_nil⟩⟩⟩

/-- Settles O42, by cases on what a barrier word finds: something outstanding, a misuse, its release part not done, arrivals missing,
or its own arrival the last. -/
theorem barriersArriveAndRelease : Obligations.BarriersArriveAndRelease := by
  unfold Obligations.BarriersArriveAndRelease
  intro s h g f hc e he q s1 b tm bar n misuse want arr
  have hexec := exec_barrier_word s f e he
  refine ⟨fun hdrain hout => hexec.trans (issueBar_outstanding hc hdrain hout), fun hfree =>
    ⟨fun hmis => hexec.trans (issueBar_misused hc hfree hmis),
     fun hagreed s2 hrelease => hexec.trans (issueBar_holds hc hfree hagreed hrelease),
     fun hagreed hrelease g1 hg1 => ?_⟩⟩
  let bar1 : Bar := { every := !f.x0, expected := want, arrived := arr }
  let u := arriveBar s1 h q b bar1 e.2.1
  have hteam : teamOf u g.team = { tm with bars := put tm.bars b bar1 } := arriveBar_team ..
  have hbar : look (teamOf u g.team).bars b {} = bar1 := by
    rw [hteam]
    exact look_put_self ..
  have hnext : exec e.1 s = .next (barrierCheck u g.team b) := hexec.trans (issueBar_arrives hc hfree hagreed hrelease)
  obtain ⟨g', hg'⟩ : ∃ g', groupOf u h = some g' := arriveBar_group hg1
  by_cases hfew : arr.length < want
  · -- arrivals are missing
    have hstays : barrierCheck u g.team b = u := barrierCheck_holds _ _ _ (by rw [hbar]; exact hfew)
    refine ⟨u, g', hnext.trans (by rw [hstays]), hg', fun _ => ⟨hbar, fun j hj => arriveBar_other _ _ _ _ _ _ hj, ?_, ?_⟩,
      fun _ hmany => absurd hfew (Nat.not_lt.2 hmany)⟩
    · intro hwait
      obtain ⟨p, hp, hrun, hctx⟩ := arriveBar_waits (g := q) (b := b) (bar := bar1) hg1
      change groupOf (arriveBar s1 h q b bar1 e.2.1) h = some g' at hg'
      rw [hwait] at hg'
      obtain rfl : p = g' := Option.some.inj (hp.symm.trans hg')
      exact ⟨hrun, hctx⟩
    · intro hwait
      obtain ⟨p, hp, hrun, hctx⟩ := arriveBar_goes_on (g := q) (b := b) (bar := bar1) hg1
      change groupOf (arriveBar s1 h q b bar1 e.2.1) h = some g' at hg'
      rw [hwait] at hg'
      obtain rfl : p = g' := Option.some.inj (hp.symm.trans hg')
      exact ⟨hrun, hctx⟩
  · by_cases hwant : want = 0
    · -- no count is agreed on: the barrier holds
      have hstays : barrierCheck u g.team b = u := barrierCheck_idle (by rw [hbar]; exact hwant)
      exact ⟨u, g', hnext.trans (by rw [hstays]), hg', fun hmissing => absurd hmissing hfew, fun hsome => absurd hwant hsome⟩
    · -- the last arrival
      obtain ⟨hempty, obs, hpast⟩ := barrierCheck_passes u g.team b (by rw [hbar]; exact hwant) (by rw [hbar]; exact Nat.not_lt.1 hfew)
      obtain ⟨p', hp', hself⟩ := hpast h g' hg'
      refine ⟨_, p', hnext, hp', fun hmissing => absurd hmissing hfew, fun _ _ hmember hready _ => ?_⟩
      have hgroups : (teamOf u g.team).groups = tm.groups := by rw [hteam]
      rw [hgroups] at hpast hself
      obtain ⟨hrun, hpc⟩ := arriveBar_passes hg1 hready hg' ((eq_true hmember) ▸ hself)
      refine ⟨hempty, hrun, hpc, fun j hj hne p hp hwaits => ?_⟩
      obtain ⟨r, hr, hother, -⟩ := hpast j p ((arriveBar_other _ _ _ _ _ _ hne).trans hp)
      obtain ⟨hrr, hctx⟩ := hother ⟨hj, hwaits⟩
      refine ⟨r, hr, hrr, ?_, ?_⟩ <;> rw [hctx] <;> rfl
end Sys2Proof.Machine
end

section
/-! Transactions open, are doomed and close (07 R182 to R185). -/

namespace Sys2Proof.Machine

open Sys2Proof.Claims

/-! ### Opening and dooming -/

theorem threadsOf_nodup (w : Nat) (m : Word) : (threadsOf w m).Nodup := List.nodup_range.filter _

/-- A word that has completed leaves its group the one that issues. -/
theorem Retired.cur {s t : State} {h : Nat} {g : Group} {io : Io} {len cyc : Nat} {r : Res} (hret : Retired s h g io len cyc r t) :
    t.cur = s.cur := by
  obtain ⟨-, -, -, -, -, -, hframe⟩ := hret
  rw [hframe]

theorem next_word_ne (pc : Word) : pc + 8 ≠ pc := by bv_omega

section Opening

variable {s : State} {h : Nat} {g : Group} (hc : current s = some (h, g))
include hc

/-- A transaction word acts for the threads of E once it has completed. -/
theorem issueTx_acts (op : Op) (f : FOps) (body : State → Nat → Group → Word → State) (hop : endsWindows op.code = true) :
    issueTx s op f body = .next (body (retire s h (ended g) {} 1 (cyclesOf false g.w (effSet g.ctx g.w f.k f.kn)) {}) h g
      (effSet g.ctx g.w f.k f.kn)) := by
  have hdone : issue s op.code 1 f.k f.kn false {} (fun _ _ _ => .ok {})
      = .next (retire s h (ended g) {} 1 (cyclesOf false g.w (effSet g.ctx g.w f.k f.kn)) {}) :=
    issue_retires hc op.code 1 f.k f.kn false {} _ {} (ended g) (by rw [hop]; rfl) rfl (mayRetire_nil ..)
  have hret := retire_spec s h (ended g) {} 1 (cyclesOf false g.w (effSet g.ctx g.w f.k f.kn)) {}
  have hcur := Retired.cur hret
  obtain ⟨g', hg', ⟨-, -, -, hshape⟩, -⟩ := hret.1
  have hpc : g'.ctx.pc = g.ctx.pc + 8 := by rw [hshape]; rfl
  obtain ⟨-, hs, -⟩ := current_group hc
  rw [hs] at hcur
  unfold issueTx
  rw [hdone]
  simp only [hc, hcur, hg', hpc, next_word_ne, if_false]

theorem exec_txb (f : FOps) (eff : Word) (heff : effSet g.ctx g.w f.k f.kn = eff) (t0 : State)
    (ht0 : t0 = retire s h (ended g) {} 1 (cyclesOf false g.w eff) {}) :
    exec (.txb f) s = .next (each (threadsOf g.w eff) (if eff = 0 then t0 else fallBack t0 h) fun u th => openTx u h th) := by
  subst ht0 heff
  exact issueTx_acts hc .txb f (fun u h g eff => each (threadsOf g.w eff) (if eff = 0 then u else fallBack u h) fun u th => openTx u h th)
    (by decide)

theorem exec_txa (f : FOps) (eff : Word) (heff : effSet g.ctx g.w f.k f.kn = eff) (t0 : State)
    (ht0 : t0 = retire s h (ended g) {} 1 (cyclesOf false g.w eff) {}) :
    exec (.txa f) s = .next (doomThreads t0 h eff 6 f.imm12.toNat) := by
  subst ht0 heff
  exact issueTx_acts hc .txa f (fun u h _ eff => doomThreads u h eff 6 f.imm12.toNat) (by decide)

end Opening

/-! ### Closing -/

/-- A transaction shut: its lines dropped, its record gone, its status answered. -/
def shutTx (s : State) (h : Nat) (g : Group) (t cause user : Nat) : Nat × State :=
  (txStatus cause user false, postGroup (modCtx (dropTxLines s h g.core (some t)) h fun x => { x with tx := del x.tx t }) g 0x106
    (.ofNat 32 (cause + 256 * t)))

/-- The lines of a transaction with every dirty copy of them recalled. -/
def recallTx (s : State) (y : Tx) : State := each (y.rlines ++ y.wlines).eraseDups s fun s la => flushDirty s none la

/-- Shutting a transaction changes neither memory nor any line at its home. -/
theorem shutTx_keeps (s : State) (h : Nat) (g : Group) (t cause user : Nat) :
    (shutTx s h g t cause user).2.mem = s.mem ∧ (shutTx s h g t cause user).2.lines = s.lines := by
  obtain ⟨hmem, hlines⟩ := txShut h t g.core s
  unfold shutTx postGroup
  rw [post_frame]
  exact ⟨hmem, hlines⟩

section Closing

variable {s : State} {h th : Nat} {g : Group} (hg : groupOf s h = some g)
include hg

theorem closeTx_none (hnone : find g.ctx.tx th = none) : closeTx s h th = (txStatus 9 0 false, s) := by
  simp only [closeTx, hg, hnone]

variable {y : Tx} (hy : find g.ctx.tx th = some y)
include hy

theorem closeTx_doomed (hdoom : y.doom ≠ 0) : closeTx s h th = shutTx s h g th y.doom y.user := by
  simp only [closeTx, hg, hy]
  exact if_pos hdoom

variable (hlive : y.doom = 0)
include hlive

theorem closeTx_stale (hstale : txValid (recallTx s y) y = false) : closeTx s h th = shutTx (recallTx s y) h g th 2 0 := by
  change txValid (each (y.rlines ++ y.wlines).eraseDups s fun s la => flushDirty s none la) y = false at hstale
  simp only [closeTx, hg, hy, hlive, hstale]
  rfl

theorem closeTx_commits (hvalid : txValid (recallTx s y) y = true) : closeTx s h th
    = shutTx (modCtx (txWrite (recallTx s y) h g.core th g.ctx.rv).2 h
        fun x => { x with rv := max x.rv (txWrite (recallTx s y) h g.core th g.ctx.rv).1 }) h g th 0 0 := by
  change txValid (each (y.rlines ++ y.wlines).eraseDups s fun s la => flushDirty s none la) y = true at hvalid
  simp only [closeTx, hg, hy, hlive, hvalid]
  rfl

end Closing

/-! ### `TXE` -/

/-- The threads of E closed in temporal order: their statuses, and the state they leave. -/
def closeAll (g : Group) (f : FOps) (s : State) (h : Nat) : List RegWr × State :=
  (threadsOf g.w (effSet g.ctx g.w f.k f.kn)).foldl (fun (a : List RegWr × State) th =>
    (a.1 ++ wrDst false f.d.toNat 1 th (closeTx a.2 h th).1, (closeTx a.2 h th).2)) ([], s)

/-- A word that needs no register finds them. -/
theorem allocCheck_zero (s : State) (h : Nat) (g : Group) : allocCheck s h g 0 0 = .ok := by simp [allocCheck]

theorem execTxe_closes {s : State} {h : Nat} {g g' : Group} {f : FOps} (hc : current s = some (h, g))
    (hfree : blocked (ended g).ctx ((ioDst false f.d.toNat 1).under (effSet g.ctx g.w f.k f.kn)) = false)
    (hroom : effSet g.ctx g.w f.k f.kn ≠ 0 → allocCheck (setGroup s h (ended g)) h (ended g)
      (allocNeed (ended g).ctx (ioDst false f.d.toNat 1) (ioDst false f.d.toNat 1).vw).1
      (allocNeed (ended g).ctx (ioDst false f.d.toNat 1) (ioDst false f.d.toNat 1).vw).2 = .ok)
    (hready : ∀ la ∈ txLines (ended g).ctx g.w (effSet g.ctx g.w f.k f.kn), lineReady (setGroup s h (ended g)) la = true)
    (hserved : txLoads (ended g).ctx (effSet g.ctx g.w f.k f.kn) = false)
    (hg' : groupOf (closeAll g f (setGroup s h (ended g)) h).2 h = some g') :
    exec (.txe f) s = .next (retire (closeAll g f (setGroup s h (ended g)) h).2 h g' (ioDst false f.d.toNat 1) 1
      (cyclesOf false g'.w (effSet g.ctx g.w f.k f.kn)) { wr := (closeAll g f (setGroup s h (ended g)) h).1 }) := by
  have halloc : ∀ mn : Nat × Nat, mn = (if effSet g.ctx g.w f.k f.kn = 0 then (0, 0)
      else allocNeed (ended g).ctx (ioDst false f.d.toNat 1) (ioDst false f.d.toNat 1).vw) →
      allocCheck (setGroup s h (ended g)) h (ended g) mn.1 mn.2 = .ok := by
    rintro _ rfl
    split
    · exact allocCheck_zero ..
    · exact hroom ‹_›
  have hhold : (!(txLines (ended g).ctx g.w (effSet g.ctx g.w f.k f.kn)).all (lineReady (setGroup s h (ended g)))
      || txLoads (ended g).ctx (effSet g.ctx g.w f.k f.kn)) = false := by
    rw [hserved, List.all_eq_true.2 hready]
    rfl
  have heff : effSet (endWins g.ctx) g.w f.k f.kn = effSet g.ctx g.w f.k f.kn := rfl
  change execTxe f s = _
  simp only [ended] at hfree halloc hhold
  simp only [closeAll, ended] at hg'
  simp only [execTxe, hc, heff, hfree, halloc _ rfl, hhold, hg', Bool.false_eq_true, if_false]
  rfl

/-- A transaction's closing, by what closes it. -/
theorem closeTx_spec (u : State) (h th : Nat) (g1 : Group) (hg : groupOf u h = some g1) (y : Tx) (hy : find g1.ctx.tx th = some y) :
    let u1 := recallTx u y
    (y.doom ≠ 0 → (closeTx u h th).1 = txStatus y.doom y.user false ∧ (closeTx u h th).2.mem = u.mem
      ∧ (closeTx u h th).2.lines = u.lines)
    ∧ (y.doom = 0 → txValid u1 y = false → (closeTx u h th).1 = txStatus 2 0 false ∧ (closeTx u h th).2.mem = u1.mem)
    ∧ (y.doom = 0 → txValid u1 y = true → (closeTx u h th).1 = txStatus 0 0 false
      ∧ (closeTx u h th).2.mem = (txWrite u1 h g1.core th g1.ctx.rv).2.mem) := by
  intro u1
  refine ⟨fun hdoom => ?_, fun hlive hstale => ?_, fun hlive hvalid => ?_⟩
  · rw [closeTx_doomed hg hy hdoom]
    exact ⟨rfl, shutTx_keeps ..⟩
  · rw [closeTx_stale hg hy hlive hstale]
    exact ⟨rfl, (shutTx_keeps ..).1⟩
  · rw [closeTx_commits hg hy hlive hvalid]
    exact ⟨rfl, (shutTx_keeps ..).1.trans (modGroup_keeps_mem ..)⟩

/-- Where none is open and no region stands, `TXB` opens a transaction for each thread of E. -/
theorem openTx_opens {s t0 : State} {h : Nat} {g : Group} {cyc : Nat} {m : Word} (hret : Retired s h (ended g) {} 1 cyc {} t0)
    (htx : g.ctx.tx = []) (hregion : inRegion g.ctx = false) :
    ∃ g', groupOf (each (threadsOf g.w m) (if m = 0 then t0 else fallBack t0 h) fun u th => openTx u h th) h = some g'
      ∧ g'.ctx.pc = g.ctx.pc + 8 ∧ ∀ th, find g'.ctx.tx th = if th ∈ threadsOf g.w m then some {} else none := by
  obtain ⟨⟨g1, hg1, ⟨-, -, -, hshape⟩, -⟩, -⟩ := hret
  have htx1 : g1.ctx.tx = [] := by rw [hshape]; exact htx
  have hregion1 : inRegion g1.ctx = false := by rw [hshape]; exact hregion
  have hpc1 : g1.ctx.pc = g.ctx.pc + 8 := by rw [hshape]; rfl
  have hstart : (if m = 0 then t0 else fallBack t0 h) = t0 := by rw [fallBack_none t0 h g1 hg1 hregion1, ite_self]
  have hnone : ∀ th, find g1.ctx.tx th = none := by intro th; rw [htx1]; rfl
  obtain ⟨g2, hg2, hkeeps, hopen⟩ := openTx_fresh (threadsOf g.w m) t0 h g1 hg1 (threadsOf_nodup ..) fun th _ => hnone th
  rw [hstart]
  refine ⟨g2, hg2, ?_, fun th => (hopen th).trans (by rw [hnone])⟩
  rw [hkeeps]
  exact hpc1

/-- `TRANSACTION_DOOM` dooms the transaction it names. -/
theorem exec_transactionDoom {u : State} {g1 : Group} (hg : groupOf u u.subj.g = some g1) (hlive : txLive g1.ctx u.subj.t = true) :
    exec .transactionDoom u = .next (doomThread u u.subj.g u.subj.t u.subj.cause 0) := by
  change execTransactionDoom u = _
  simp only [execTransactionDoom, hg, hlive, if_true]

/-- Settles O43: opening and dooming follow the word's completion; closing goes by what each thread's transaction has come to. -/
theorem transactionWordsComplete : Obligations.TransactionWordsComplete := by
  unfold Obligations.TransactionWordsComplete
  intro s h g f hc q eff io dst
  have hret := retire_spec s h q {} 1 (cyclesOf false g.w eff) {}
  have htxb := exec_txb hc f eff rfl _ rfl
  have htxa := exec_txa hc f eff rfl _ rfl
  refine ⟨⟨_, hret, htxb, htxa, fun htx hregion => ?_⟩, fun u => doomThread_at u h, fun u g1 hg hlive => exec_transactionDoom hg hlive,
    fun hfree hroom hready hserved g' hg' => ⟨_, execTxe_closes hc hfree hroom hready hserved hg', retire_spec ..⟩,
    fun u th g1 hg => ⟨closeTx_none hg, fun y hy => closeTx_spec u h th g1 hg y hy⟩⟩
  obtain ⟨g', hg', hopen⟩ := openTx_opens hret htx hregion
  exact ⟨_, g', htxb, hg', hopen⟩

end Sys2Proof.Machine
end

section
/-! The events of sunk execution (07 R190, R412, 11 R270 to R275). -/

namespace Sys2Proof.Machine

open Sys2Proof.Claims

/-- A sunk run stands in its group. -/
theorem sinkOf_eq_some {s : State} {h wid : Nat} {g : Group} {k : SinkSt} :
    sinkOf s h wid = some (g, k) ↔ groupOf s h = some g ∧ find g.ctx.sinks wid = some k := by
  unfold sinkOf
  cases groupOf s h with
  | none => simp
  | some g0 =>
    simp only [Option.map_eq_some_iff, Prod.mk.injEq, Option.some.injEq]
    constructor
    · rintro ⟨k0, hk, rfl, rfl⟩
      exact ⟨rfl, hk⟩
    · rintro ⟨rfl, hk⟩
      exact ⟨k, hk, rfl, rfl⟩

/-! ### Probes and holds -/

theorem exec_sinkProbe {s : State} (hgone : wbInFlight s s.subj.core s.subj.la = false) :
    exec .sinkProbe s = .next (arrive s s.subj.la ⟨.sinkProbe, s.subj⟩) := by
  change execSinkProbe s = _
  simp only [execSinkProbe, hgone]
  rfl

section Events

variable {s : State} {g : Group} {k : SinkSt} (hk : sinkOf s s.subj.g s.subj.win = some (g, k))
include hk

section Holds

variable (hhead : k.probes.head? = some s.subj.la) {u : State}
  (hu : u = modSink s s.subj.g s.subj.win fun k => { k with held := k.held ++ [(s.subj.la, s.subj.site)], probes := k.probes.drop 1 })
include hhead hu

/-- A granted hold whose page's check fails. -/
theorem exec_sinkHoldGrant_bad {b : Bad} (hcheck : siteCheck u s.subj.g s.subj.win s.subj.la
      ((k.lines.filter fun l => l.2.1 = s.subj.la).map (·.1)) .both = some b) : exec .sinkHoldGrant s
    = .next (raiseSunk u s.subj.g s.subj.win (sunkRec k b (if homeDie u s.subj.la = dieOf g.core then 1 else 2))) := by
  subst hu
  change execSinkHoldGrant s = _
  simp only [execSinkHoldGrant, hk, hhead, hcheck, ne_eq, not_true_eq_false, if_false]

/-- One whose page's check passes releases the next probe, or after the last the run's parts. -/
theorem exec_sinkHoldGrant_ok (hcheck : siteCheck u s.subj.g s.subj.win s.subj.la
      ((k.lines.filter fun l => l.2.1 = s.subj.la).map (·.1)) .both = none) : exec .sinkHoldGrant s
    = if k.probes.length = 1 then .next (each k.lines u fun u l => sendInstance u s.subj.g s.subj.win g.core l)
      else .next (sendProbe u s.subj.g s.subj.win) := by
  subst hu
  change execSinkHoldGrant s = _
  simp only [execSinkHoldGrant, hk, hhead, hcheck, ne_eq, not_true_eq_false, if_false]

end Holds

/-! ### A run performed at its site -/

section Performing

variable (hfirst : lowerInstance s s.subj.g s.subj.win s.subj.t s.subj.la = false)
include hfirst

theorem exec_sinkInstance_store (hstore : k.store = true) : exec .sinkInstance s = .next (performStoreInstance s g k s.subj) := by
  change execSinkInstance s = _
  simp only [execSinkInstance, hk, hfirst, hstore]
  rfl

variable (hread : k.store = false) (hgranted : granting s (localDie s s.subj.core s.subj.la) s.subj.la = false)
  (hgone : wbInFlight s s.subj.core s.subj.la = false)
include hread hgranted hgone

/-- A read that a copy on the issuing die serves. -/
theorem exec_sinkInstance_copy (hcopy : copyServes s (localDie s s.subj.core s.subj.la) s.subj.la s.subj.slot = true) {u : State}
    (hu : u = recallDie (demandAt s (localSlice s (localDie s s.subj.core s.subj.la) s.subj.la) s.subj.la s.subj.slot
      (groupLaunch s g).tenant false) (localDie s s.subj.core s.subj.la) s.subj.la) :
    exec .sinkInstance s = .next (performRead u g s.subj
      (look (lineSt u s.subj.la).copies (localDie s s.subj.core s.subj.la) {}).data 1) := by
  subst hu
  change execSinkInstance s = _
  simp only [execSinkInstance, hk, hfirst, hread, hgranted, hgone, hcopy]
  rfl

variable (hnocopy : copyServes s (localDie s s.subj.core s.subj.la) s.subj.la s.subj.slot = false)
  (hready : lineReady s s.subj.la = true) (hqueue : (lineSt s s.subj.la).queue = [])
include hnocopy hready hqueue

/-- A read at the line's home: in its caches where they hold the line, or the run is limited to them. -/
theorem exec_sinkInstance_home (hslices : lineValid s s.subj.la s.subj.slot = true ∨ k.lim = 1) {v u : State}
    (hv : v = demandAt s (homeSlice s s.subj.la) s.subj.la s.subj.slot (groupLaunch s g).tenant true)
    (hu : u = (readAtHome v s.subj.la s.subj.slot).2) :
    exec .sinkInstance s = .next (performRead u g s.subj (readAtHome v s.subj.la s.subj.slot).1
      (if homeDie u s.subj.la = dieOf s.subj.core then 1 else 2)) := by
  have hs : (lineValid s s.subj.la s.subj.slot || decide (k.lim = 1)) = true := by simpa using hslices
  subst hv hu
  change execSinkInstance s = _
  simp only [execSinkInstance, hk, hfirst, hread, hgranted, hgone, hnocopy, hready, hqueue, hs]
  rfl

/-- One at its Press otherwise. -/
theorem exec_sinkInstance_press (hnone : lineValid s s.subj.la s.subj.slot = false) (hlim : k.lim ≠ 1)
    (hruns : pressPaused s (channelOf s.subj.la) = false) {v : State}
    (hv : v = demandAt s (homeSlice s s.subj.la) s.subj.la s.subj.slot (groupLaunch s g).tenant false) :
    exec .sinkInstance s = .next (performRead v g s.subj (homeData v s.subj.la s.subj.slot) 3) := by
  have hs : (lineValid s s.subj.la s.subj.slot || decide (k.lim = 1)) = false := by simp [hnone, hlim]
  subst hv
  change execSinkInstance s = _
  simp only [execSinkInstance, hk, hfirst, hread, hgranted, hgone, hnocopy, hready, hqueue, hs, hruns]
  rfl

end Performing

/-! ### Results, and words in the core -/

section Results

variable {g1 : Group} {k1 : SinkSt} (hk1 : sinkOf (takeResult s k s.subj) s.subj.g s.subj.win = some (g1, k1))
include hk1

theorem exec_sinkResult_away (haway : k1.away ≠ 0) : exec .sinkResult s = .next (takeResult s k s.subj) := by
  change execSinkResult s = _
  simp only [execSinkResult, hk, hk1]
  exact if_pos haway

variable (hlast : k1.away = 0)
include hlast

theorem exec_sinkResult_faults {r : FaultRec} (hfault : k1.fault = some r) :
    exec .sinkResult s = .next (raiseSunk (takeResult s k s.subj) s.subj.g s.subj.win r) := by
  change execSinkResult s = _
  simp only [execSinkResult, hk, hk1, hlast, hfault, ne_eq, not_true_eq_false, if_false]

theorem exec_sinkResult_goes (hfault : k1.fault = none) :
    exec .sinkResult s = .next (sinkGo sinkFuel (takeResult s k s.subj) s.subj.g s.subj.win) := by
  change execSinkResult s = _
  simp only [execSinkResult, hk, hk1, hlast, hfault, ne_eq, not_true_eq_false, if_false]

end Results

theorem exec_sinkCore (hwaits : sinkWaits g.ctx s.subj.win k = true) : exec .sinkCoreReexecution s
    = .next (sinkGo sinkFuel (if k.core ≠ 0 then s else modSink s s.subj.g s.subj.win fun k =>
        { k with core := k.returned, returned := 0, idx := 1, redo := false }) s.subj.g s.subj.win) := by
  change execSinkCoreReexecution s = _
  simp only [execSinkCoreReexecution, hk, hwaits]
  rfl

end Events

/-! ### What a result is taken to -/

/-- A change of a sunk run leaves its group's vintage. -/
theorem modSink_rv {s : State} {h wid : Nat} {F : SinkSt → SinkSt} {g : Group} (hg : groupOf s h = some g) :
    ∃ g', groupOf (modSink s h wid F) h = some g' ∧ g'.ctx.rv = g.ctx.rv := by
  unfold modSink
  rw [modCtx_group_self _ hg]
  refine ⟨_, rfl, ?_⟩
  dsimp only
  split <;> rfl

/-- An acknowledgement leaves the group's context. -/
theorem ackOut_ctx {s : State} {h id : Nat} {g : Group} (hg : groupOf s h = some g) :
    ∃ g', groupOf (ackOut s h id) h = some g' ∧ g'.ctx = g.ctx := by
  change ∃ g', groupOf (modGroup s h _) h = some g' ∧ _
  rw [modGroup_group, if_pos rfl, hg]
  exact ⟨_, rfl, rfl⟩

/-- A result that is taken raises `%rv` at once. -/
theorem takeResult_rv {s : State} {k : SinkSt} {j : Subj} {g : Group} (hg : groupOf s j.g = some g) :
    ∃ g', groupOf (takeResult s k j) j.g = some g' ∧ g'.ctx.rv = max g.ctx.rv j.n := by
  have hraised (u : State) (hu : ∃ g0, groupOf u j.g = some g0 ∧ g0.ctx = g.ctx) : ∃ g1,
      groupOf (modCtx (observe u j.core j.n) j.g fun x => { x with rv := max x.rv j.n }) j.g = some g1
        ∧ g1.ctx.rv = max g.ctx.rv j.n := by
    obtain ⟨g0, hg0, hctx⟩ := hu
    have hobserve : groupOf (observe u j.core j.n) j.g = some g0 := hg0
    rw [modCtx_group_self _ hobserve]
    exact ⟨_, rfl, by rw [hctx]⟩
  unfold takeResult
  dsimp only
  split
  · obtain ⟨g1, hg1, hrv⟩ := hraised _ (ackOut_ctx hg)
    obtain ⟨g2, hg2, hsame⟩ := modSink_rv hg1
    exact ⟨g2, hg2, hsame.trans hrv⟩
  · obtain ⟨g1, hg1, hrv⟩ := hraised _ ⟨g, hg, rfl⟩
    obtain ⟨g2, hg2, hsame⟩ := modSink_rv hg1
    exact ⟨g2, hg2, hsame.trans hrv⟩

/-- Settles O49, event by event. -/
theorem sinkEventsHappen : Obligations.SinkEventsHappen := by
  unfold Obligations.SinkEventsHappen
  intro s j
  refine ⟨exec_sinkProbe, fun g k hk => ⟨fun hhead bad u hu hcheck => ⟨?_, ?_, ?_⟩, exec_sinkInstance_store hk, ?_, ?_, ?_, ?_⟩⟩
  · rintro b rfl
    exact exec_sinkHoldGrant_bad hk hhead hu hcheck
  · rintro rfl hlast
    rw [exec_sinkHoldGrant_ok hk hhead hu hcheck, if_pos hlast]
  · rintro rfl hmore
    rw [exec_sinkHoldGrant_ok hk hhead hu hcheck, if_neg hmore]
  · intro hfirst hread hgranted hgone
    exact ⟨fun hcopy u hu => exec_sinkInstance_copy hk hfirst hread hgranted hgone hcopy hu, fun hnocopy hready hqueue =>
      ⟨fun hslices u hu => exec_sinkInstance_home hk hfirst hread hgranted hgone hnocopy hready hqueue hslices rfl hu,
       fun hnone hlim hruns => exec_sinkInstance_press hk hfirst hread hgranted hgone hnocopy hready hqueue hnone hlim hruns rfl⟩⟩
  · intro g0 k0 hk0
    obtain ⟨g1, hk1⟩ := takeResult_spec s j g k hk
    obtain ⟨g2, hg2, hrv⟩ := takeResult_rv (k := k) (sinkOf_eq_some.1 hk).1
    obtain ⟨rfl, rfl⟩ : _ = g0 ∧ _ = k0 := Prod.mk.inj (Option.some.inj (hk1.symm.trans hk0))
    obtain rfl : g2 = _ := Option.some.inj (hg2.symm.trans (sinkOf_eq_some.1 hk1).1)
    exact ⟨hrv, rfl, rfl, rfl, rfl⟩
  · intro s1 g1 k1 hk1
    exact ⟨exec_sinkResult_away hk hk1, fun hlast r hfault => exec_sinkResult_faults hk hk1 hlast hfault,
      fun hlast hfault => exec_sinkResult_goes hk hk1 hlast hfault⟩
  · intro hwaits
    exact ⟨fun hcore => (exec_sinkCore hk hwaits).trans (by rw [if_pos hcore]),
      fun hcore => (exec_sinkCore hk hwaits).trans (by rw [if_neg (not_not.2 hcore)])⟩

end Sys2Proof.Machine
end

section
/-! `SINK` issues (07 R187 to R189). -/

namespace Sys2Proof.Machine

open Sys2Proof.Claims

/-- The registers and operands of a run as its `SINK` sees them. -/
def sinkIoOf (ws : List (Op × FOps)) : Io :=
  { vr := (sinkRegs ws).vr, ur := (sinkRegs ws).ur, vw := (sinkRegs ws).vw, uw := [], lr := (sinkRegs ws).lr }

/-- A run as it stands when its `SINK` issues. -/
def sinkNew (g : Group) (f : FOps) (ws : List (Op × FOps)) : SinkSt :=
  { pc := g.ctx.pc, words := ws, eff := effSet g.ctx g.w f.k f.kn, lim := f.form, scap := g.ctx.s
    vcap := sinkCapture (ended g).ctx g.w (sinkRegs ws), store := ws.any fun w => sinkStores w.1 }

/-- A state with a run entered. -/
def sinkEnter (s : State) (h id : Nat) (k : SinkSt) : State := modCtx s h fun x => { x with sinks := put x.sinks id k }

/-- The whole line that a leaving thread's run may touch. -/
def leavingPart (l : Nat × Nat × Nat × Leaf) : Part := { t := l.1, pos := 0, la := l.2.1, slot := l.2.2.1, lo := 0, n := 128 }

/-- Whether what the anchor decides must follow an earlier access of a leaving thread's (12 R281). -/
def sinkBehind (h id : Nat) (x : Ctx) : Except Bad (Word × List (Nat × Nat × Nat × Leaf)) × State → Bool
  | (.ok (_, away), u) => earlierHolds u h x id false (away.map leavingPart)
  | (.error _, _) => false

theorem endWins_pc (x : Ctx) : (endWins x).pc = x.pc := rfl
theorem effSet_endWins (x : Ctx) (w : Nat) (k : BitVec 3) (kn : Bool) : effSet (endWins x) w k kn = effSet x w k kn := rfl

section Sinking

variable {s s1 : State} {h : Nat} {g : Group} {f : FOps} (hc : current s = some (h, g))
include hc

theorem exec_sink_unfetched {e : Nat × Nat}
    (hfetch : fetchWords (setGroup s h (ended g)) (ended g) (g.ctx.pc.toNat + 8) (f.mod.toNat + 1) = (.error e, s1)) :
    exec (.sink f) s = .next (raise s1 h (badRec (ended g).ctx (effSet g.ctx g.w f.k f.kn) { code := e.1, cause := e.2 })) := by
  change execSink f s = _
  simp only [ended] at hfetch
  simp only [execSink, hc, endWins_pc, effSet_endWins, hfetch]
  rfl

variable {raw : List Word}
  (hfetch : fetchWords (setGroup s h (ended g)) (ended g) (g.ctx.pc.toNat + 8) (f.mod.toNat + 1) = (.ok raw, s1))
include hfetch

theorem exec_sink_illegal (hillegal : ∀ ws, sinkWords raw = some ws → sinkLegal ws = false) :
    exec (.sink f) s = .next (raise s1 h (badRec (ended g).ctx (effSet g.ctx g.w f.k f.kn) { code := 0x01 })) := by
  change execSink f s = _
  simp only [ended] at hfetch
  cases hws : sinkWords raw with
  | none =>
    simp only [execSink, hc, endWins_pc, effSet_endWins, hfetch, hws]
    rfl
  | some ws =>
    simp only [execSink, hc, endWins_pc, effSet_endWins, hfetch, hws, hillegal ws hws]
    rfl

variable {ws : List (Op × FOps)} (hws : sinkWords raw = some ws) (hlegal : sinkLegal ws = true)
include hws hlegal

theorem exec_sink_blocked (hblocked : blocked (ended g).ctx ((sinkIoOf ws).under (effSet g.ctx g.w f.k f.kn)) = true) :
    exec (.sink f) s = .next s1 := by
  change execSink f s = _
  simp only [ended, sinkIoOf] at hfetch hblocked
  simp only [execSink, hc, endWins_pc, effSet_endWins, hfetch, hws, hlegal, hblocked]
  rfl

variable (hfree : blocked (ended g).ctx ((sinkIoOf ws).under (effSet g.ctx g.w f.k f.kn)) = false)
include hfree

theorem exec_sink_empty (heff : effSet g.ctx g.w f.k f.kn = 0) {g1 : Group}
    (hg1 : groupOf (modCtx s1 h fun x => { x with sinkrec0 := 0, sinkrec1 := 0 }) h = some g1) :
    exec (.sink f) s = .next (retire (modCtx s1 h fun x => { x with sinkrec0 := 0, sinkrec1 := 0 }) h g1
      ((sinkIoOf ws).under (effSet g.ctx g.w f.k f.kn)) (f.mod.toNat + 1 + 1) (laneCycles g.w (effSet g.ctx g.w f.k f.kn)) {}) := by
  change execSink f s = _
  simp only [ended, sinkIoOf] at hfetch hfree
  simp only [heff] at hfree ⊢
  simp only [execSink, hc, endWins_pc, effSet_endWins, hfetch, hws, hlegal, heff, hfree, hg1]
  rfl

variable (heff : effSet g.ctx g.w f.k f.kn ≠ 0)
  (hroom : allocCheck s1 h (ended g) (allocNeed (ended g).ctx (sinkIoOf ws) (sinkIoOf ws).vw).1
    (allocNeed (ended g).ctx (sinkIoOf ws) (sinkIoOf ws).vw).2 ≠ .trap)
include heff hroom

/-- Nothing holding the word back, the anchor decides. -/
theorem exec_sink_decides : exec (.sink f) s
    = if sinkBehind h s1.nextId (ended g).ctx
        (sinkDecide (sinkEnter s1 h s1.nextId (sinkNew g f ws)) h s1.nextId (effSet g.ctx g.w f.k f.kn)) then .next s1
      else .next (sinkBegin (sinkEnter (openWin s1 h (ended g) (sinkIoOf ws) (f.mod.toNat + 1 + 1)
        (laneCycles g.w (effSet g.ctx g.w f.k f.kn)) f.la.toNat
        { id := 0, pc := 0, left := 0, frees := if g.ctx.stack = [] then (sinkRegs ws).last else [] }) h s1.nextId (sinkNew g f ws))
        h s1.nextId) := by
  have hroom' := beq_eq_false_iff_ne.2 hroom
  have hfrees : (if g.ctx.stack.isEmpty then (sinkRegs ws).last else []) = if g.ctx.stack = [] then (sinkRegs ws).last else [] := by
    simp only [List.isEmpty_iff]
  change execSink f s = _
  simp only [ended, sinkIoOf] at hfetch hfree hroom'
  rw [← hfrees]
  simp only [execSink, hc, endWins_pc, effSet_endWins, hfetch, hws, hlegal, heff, hfree, hroom']
  rfl

end Sinking

/-- Settles O48: the checks in their order, then what the anchor decides. -/
theorem sinkBegins : Obligations.SinkBegins := by
  unfold Obligations.SinkBegins
  intro s h g f hc q eff n fetched s1 hfetch
  refine ⟨fun e he => exec_sink_unfetched hc (he ▸ hfetch), fun raw hraw => ?_⟩
  have hfetch : fetchWords (setGroup s h (ended g)) (ended g) (g.ctx.pc.toNat + 8) (f.mod.toNat + 1) = (.ok raw, s1) := hraw ▸ hfetch
  refine ⟨exec_sink_illegal hc hfetch, fun ws hws hlegal => ?_⟩
  intro r io k opened part behind
  refine ⟨exec_sink_blocked hc hfetch hws hlegal,
    fun hfree heff g1 hg1 => ⟨_, exec_sink_empty hc hfetch hws hlegal hfree heff hg1, retire_spec ..⟩, fun hfree heff hroom => ?_⟩
  have hexec := exec_sink_decides hc hfetch hws hlegal hfree heff hroom
  refine ⟨fun c a u hdecide hbehind => hexec.trans (if_pos ?_), fun hclear => ⟨_, openWin_spec .., hexec.trans (if_neg ?_)⟩⟩
  · change sinkBehind h s1.nextId q.ctx (sinkDecide (opened s1) h s1.nextId eff) = true
    rw [hdecide]
    exact hbehind
  · change ¬sinkBehind h s1.nextId q.ctx (sinkDecide (opened s1) h s1.nextId eff) = true
    rcases hdecide : sinkDecide (opened s1) h s1.nextId eff with ⟨_ | ⟨c, a⟩, u⟩
    · exact Bool.false_ne_true
    · exact fun hbehind => Bool.false_ne_true ((hclear c a u hdecide).symm.trans hbehind)

end Sys2Proof.Machine
end

section
/-! Near-cache maintenance: `PREF`, `CLEAN`, `INVAL` and `FLUSHN` (07 R167, R170, R171). -/

namespace Sys2Proof.Machine

open Sys2Proof.Claims

/-- The accesses at the addresses of a word's threads, in the model's form. -/
theorem siteAccs_eq (f : FOps) (g : Group) (eff : Word) (d : Option Word) (data : Nat → Nat) :
    siteAccs f g eff d data = accsOf g.ctx g.w f false d eff data fun _ => 0 := rfl

/-- What a group's word that acts once does to the state (07 R171). -/
def flushLines (f : FOps) (h : Nat) (u : State) (g : Group) : State :=
  each ((coreOf u g.core).near.map (·.1)) u fun u la => maintain u g.core la (some h) (f.mod == 1)

/-- What `PREF` does for the lines of its accesses. -/
def prefetchLines (f : FOps) (h : Nat) (g : Group) (u : State) (ls : List (Nat × Nat)) : State :=
  each ls u fun u l => prefetchLine u h g f.mod.toNat { t := 0, pos := 0, la := l.1, slot := l.2, lo := 0, n := 1 }

/-- What `CLEAN` and `INVAL` do for the lines of their accesses. -/
def maintainLines (drop : Bool) (h : Nat) (g : Group) (u : State) (las : List Nat) : State :=
  each las u fun u la =>
    if drop then dropNear (maintain u g.core la (some h) true) g.core (constKey la) else maintain u g.core la (some h) false

theorem maintainLines_eq (drop : Bool) (h : Nat) (g : Group) (u : State) (las : List Nat) : maintainLines drop h g u las
    = each las u fun u la => if drop then dropNear (maintain u g.core la (some h) drop) g.core (constKey la)
        else maintain u g.core la (some h) drop := by
  cases drop <;> rfl

/-- The word that writes back, or writes back and drops. -/
def maintainWord (drop : Bool) (f : FOps) : Instr := if drop then .inval f else .clean f

theorem exec_maintainWord (drop : Bool) (f : FOps) (s : State) : exec (maintainWord drop f) s = issueMaintain s f drop := by
  cases drop <;> rfl

section Addresses

variable {s : State} {h : Nat} {g : Group} {f : FOps} (hc : current s = some (h, g)) (hfree : blocked g.ctx (ioAddr f false) = false)
include hc hfree

theorem exec_pref {rs : List (Acc × Except Bad (List Part))} {s1 : State} {g' : Group}
    (hcheck : checkAll s g false 1 .read ((siteAccs f g (effSet g.ctx g.w f.k f.kn) none fun _ => 0).filter
      fun a => f.u || !txDoomed g.ctx a.t) = (rs, s1))
    (hg' : groupOf (prefetchLines f h g s1 (lineSlots rs)) h = some g') :
    exec (.pref f) s = .next (retire (prefetchLines f h g s1 (lineSlots rs)) h g' (ioAddr f false) 1
      (cyclesOf f.u g'.w (effSet g.ctx g.w f.k f.kn)) {}) := by
  rw [siteAccs_eq] at hcheck
  simp only [prefetchLines, lineSlots] at hg' ⊢
  change execPref f s = _
  simp only [execPref, issueAddr, hc, hfree, hcheck, hg', Bool.false_eq_true, if_false]
  rfl

variable {drop : Bool} {rs : List (Acc × Except Bad (List Part))} {s1 : State}
  (hcheck : checkAll (forbid s h (effSet g.ctx g.w f.k f.kn)) g false 1 .any (siteAccs f g (effSet g.ctx g.w f.k f.kn) none fun _ => 0)
    = (rs, s1))
include hcheck

theorem exec_maintainWord_bad {b : Bad} (hbad : failOf f.u ((badsOf rs).filter fun b => f.u || !inTx g.ctx b.1) = some b) :
    exec (maintainWord drop f) s = .next (raise (forbid s h (effSet g.ctx g.w f.k f.kn)) h
      (badRec g.ctx (effSet g.ctx g.w f.k f.kn) b)) := by
  rw [siteAccs_eq] at hcheck
  rw [exec_maintainWord]
  simp only [issueMaintain, issueAddr, hc, hfree, hcheck, hbad, Bool.false_eq_true, if_false, if_true]

theorem exec_maintainWord_done (hok : failOf f.u ((badsOf rs).filter fun b => f.u || !inTx g.ctx b.1) = none) {g' : Group} {u : State}
    (hu : u = if effSet g.ctx g.w f.k f.kn = 0 then s1 else fallBack s1 h)
    (hg' : groupOf (maintainLines drop h g u ((partsOf rs).map (·.la)).eraseDups) h = some g') :
    exec (maintainWord drop f) s = .next (retire (maintainLines drop h g u ((partsOf rs).map (·.la)).eraseDups) h g' (ioAddr f false) 1
      (cyclesOf f.u g'.w (effSet g.ctx g.w f.k f.kn)) {}) := by
  subst hu
  rw [siteAccs_eq] at hcheck
  rw [maintainLines_eq] at hg' ⊢
  rw [exec_maintainWord]
  simp only [issueMaintain, issueAddr, hc, hfree, hcheck, hok, hg', Bool.false_eq_true, if_false, if_true]
  rfl

end Addresses

section Flushing

variable {s : State} {h : Nat} {g : Group} {f : FOps} (hc : current s = some (h, g))
include hc

theorem exec_flushn_empty (heff : effSet g.ctx g.w f.k f.kn = 0) {g' : Group}
    (hg' : groupOf (forbid s h (effSet g.ctx g.w f.k f.kn)) h = some g') :
    exec (.flushn f) s = .next (retire (forbid s h (effSet g.ctx g.w f.k f.kn)) h g' {} 1 1 {}) := by
  rw [heff] at hg' ⊢
  change execFlushn f s = _
  simp only [execFlushn, issueGroup, hc, heff, hg', ne_eq, not_true_eq_false, decide_false, Bool.and_false, Bool.false_eq_true,
    if_true, if_false]

theorem exec_flushn_goes (heff : effSet g.ctx g.w f.k f.kn ≠ 0) {u : State} (hu : u = fallBack (forbid s h (effSet g.ctx g.w f.k f.kn)) h)
    {g1 g' : Group} (hg1 : groupOf u h = some g1) (hg' : groupOf (flushLines f h u g1) h = some g') :
    exec (.flushn f) s = .next (retire (flushLines f h u g1) h g' {} 1 1 {}) := by
  subst hu
  unfold flushLines at hg' ⊢
  have hfall : (true && decide (effSet g.ctx g.w f.k f.kn ≠ 0)) = true := by simpa using heff
  change execFlushn f s = _
  simp only [execFlushn, issueGroup, hc, hfall, heff, hg1, hg', if_true, if_false]

end Flushing

/-- Settles O39, word by word. -/
theorem maintenanceWordsComplete : Obligations.MaintenanceWordsComplete := by
  unfold Obligations.MaintenanceWordsComplete
  intro s h g f hc eff accs io
  refine ⟨fun hfree => ⟨fun rs s1 hcheck => performs_of_retire fun g' hg' => exec_pref hc hfree hcheck hg', ?_⟩, ?_, ?_⟩
  · intro drop rs s1 hcheck i bad
    exact ⟨fun b hbad => exec_maintainWord_bad hc hfree hcheck hbad,
      fun hok => performs_of_retire fun g' hg' => exec_maintainWord_done hc hfree hcheck hok rfl hg'⟩
  · exact fun heff => performs_of_retire fun g' hg' => exec_flushn_empty hc heff hg'
  · exact fun heff g1 hg1 => performs_of_retire fun g' hg' => exec_flushn_goes hc heff rfl hg1 hg'

end Sys2Proof.Machine
end

section
/-! `STRL` and `AREDN` (07 R169, R177). -/

namespace Sys2Proof.Machine

open Sys2Proof.Claims

/-- The end of a word that has had its effects: its group completes it, where the group is there still. -/
def finishWord (u : State) (h : Nat) (io : Io) (len : Nat) (uni : Bool) (eff : Word) : Host.Outcome State Fault Refusal :=
  match groupOf u h with
  | none => .next u
  | some g => .next (retire u h g io len (cyclesOf uni g.w eff) {})

theorem performs_of_finish {i : Instr} {s u : State} {h len : Nat} {io : Io} {uni : Bool} {eff : Word}
    (hexec : exec i s = finishWord u h io len uni eff) : performs i s u h io len uni eff :=
  performs_of_retire fun g' hg' => by
    rw [hexec, finishWord, hg']

/-! ### Release stores -/

/-- A release store's lines put away, and at `.sys` the host's memory written. -/
def strlAway (s : State) (h : Nat) (g : Group) (scope : Scope) (rs : List (Acc × Except Bad (List Part))) : State :=
  if scope == .sys then sendHost (putAway s g.core ((lineSlots rs).map (·.1))) g.core h else putAway s g.core ((lineSlots rs).map (·.1))

theorem strlAway_eq (s : State) (h : Nat) (g : Group) (scope : Scope) (rs : List (Acc × Except Bad (List Part))) :
    strlAway s h g scope rs = if scope = .sys then sendHost (putAway s g.core ((lineSlots rs).map (·.1))) g.core h
      else putAway s g.core ((lineSlots rs).map (·.1)) := by
  cases scope <;> rfl

/-- What a release store at the homes still waits for. -/
def strlWaits (s : State) (g : Group) (scope : Scope) (rs : List (Acc × Except Bad (List Part))) : Bool :=
  (lineSlots rs).any (fun l => wbInFlight s g.core l.1) || (scope == .sys && !hostQuiet s g.core)

theorem strlWaits_iff (s : State) (g : Group) (scope : Scope) (rs : List (Acc × Except Bad (List Part))) : strlWaits s g scope rs = true
    ↔ (∃ l ∈ lineSlots rs, wbInFlight s g.core l.1 = true) ∨ (scope = .sys ∧ hostQuiet s g.core = false) := by
  simp only [strlWaits, Bool.or_eq_true, Bool.and_eq_true, List.any_eq_true, Bool.not_eq_true', beq_iff_eq]

/-- The lines that a release store within the core needs, with no copy of them under another slot. -/
def strlNear (s : State) (g : Group) (rs : List (Acc × Except Bad (List Part))) : State :=
  each (lineSlots rs) s fun u l => dropOther u g.core l.1 l.2

/-- The scope that the homes are told. -/
def strlScope (s : State) (g : Group) (scope : Scope) : Scope :=
  if scope == .team && (teamOf s g.team).pair then .die else scope

theorem strlScope_eq (s : State) (g : Group) (scope : Scope) :
    strlScope s g scope = if scope = .team ∧ (teamOf s g.team).pair = true then .die else scope := by
  simp only [strlScope, Bool.and_eq_true, beq_iff_eq]

section Release

variable {s s1 : State} {h : Nat} {g : Group} {f : FOps} {d : Word} {rs : List (Acc × Except Bad (List Part))}
  (hc : current s = some (h, g)) (hfree : blocked g.ctx (ioStore f false) = false)
  (hcheck : checkAll (forbid s h (effSet g.ctx g.w f.k f.kn)) g true (f.ty.width / 8) .write
    ((siteAccs f g (effSet g.ctx g.w f.k f.kn) (some d) (storeData g.ctx f)).filter fun a => f.u || !inTx g.ctx a.t) = (rs, s1))
include hc hfree hcheck

theorem exec_strl_bad {b : Bad} (hbad : failOf f.u (badsOf rs) = some b) :
    exec (.strl f d) s = .next (raise s1 h (badRec g.ctx (effSet g.ctx g.w f.k f.kn) b)) := by
  rw [siteAccs_eq] at hcheck
  change execStrl f d s = _
  simp only [execStrl, sizeOfTy, hc, hfree, hcheck, hbad, Bool.false_eq_true, if_false]

theorem exec_strl_checked (hok : failOf f.u (badsOf rs) = none) {finish : State → Host.Outcome State Fault Refusal}
    (hfinish : finish = fun u => finishWord u h (ioStore f false) (if f.isL then 2 else 1) f.u (effSet g.ctx g.w f.k f.kn)) {u : State}
    (hu : u = fallBack s1 h) {scope : Scope} (hscope : scope = f.scope.getD .grp) : exec (.strl f d) s
    = if effSet g.ctx g.w f.k f.kn = 0 then finish s1
      else if !settled g.ctx || !g.out.isEmpty || sinkHolds g.ctx s1.nextId f.u (partsOf rs) then .next s1
      else if wideScope u g scope then
        if strlWaits (strlAway u h g scope rs) g scope rs then .next (strlAway u h g scope rs)
        else finish (sendReleases (strlAway u h g scope rs) h g (f.ty.width / 8) (strlScope (strlAway u h g scope rs) g scope) (goodsOf rs))
      else if (lineSlots rs).any (fun l => !storeReady (strlNear u g rs) g.core l.1 l.2 g.ctx.rv) then .next (strlNear u g rs)
      else finish (performStore (strlNear u g rs) h f.u (f.ty.width / 8) (goodsOf rs)) := by
  subst hfinish hu hscope
  rw [siteAccs_eq] at hcheck
  change execStrl f d s = _
  simp only [execStrl, sizeOfTy, hc, hfree, hcheck, hok, Bool.false_eq_true, if_false]
  rfl

end Release

/-! ### Reductions -/

/-- What is done for an access that passed its check; one that did not is passed over. -/
def onGood (F : State → Acc → List Part → State) (u : State) (r : Acc × Except Bad (List Part)) : State :=
  match r.2 with
  | .ok ps => F u r.1 ps
  | .error _ => u

/-- Acting for each checked access is acting for those that passed. -/
theorem each_onGood (F : State → Acc → List Part → State) (rs : List (Acc × Except Bad (List Part))) (u : State) :
    each rs u (onGood F) = each (goodsOf rs) u fun u a => F u a.1 a.2 := by
  induction rs generalizing u with
  | nil => rfl
  | cons r rs ih =>
    obtain ⟨a, _ | ps⟩ := r
    · exact ih u
    · exact ih (F u a ps)

/-- The lines of a reduction that its core does not hold exclusively. -/
def arednAway (s : State) (g : Group) (rs : List (Acc × Except Bad (List Part))) : List Nat :=
  (((partsOf rs).filter fun p => !holdsExclusive s g.core p).map (·.la)).eraseDups

/-- A reduction performed for each access that passed its check. -/
def arednAll (s : State) (h : Nat) (g : Group) (f : FOps) (rs : List (Acc × Except Bad (List Part))) : State :=
  each (goodsOf rs) s fun u a => each a.2 u fun u p => arednPart u h g f (f.ty.width / 8) a.1 p

section Reduction

variable {s s1 : State} {h : Nat} {g : Group} {f : FOps} {rs : List (Acc × Except Bad (List Part))} {io : Io}
  (hio : io = (ioAddr f false).join (ioSrc f.u f.c.toNat f.ty.regs f.lrC))
  (hc : current s = some (h, g)) (hfree : blocked g.ctx io = false)
  (hcheck : checkAll (forbid s h (effSet g.ctx g.w f.k f.kn)) g true (f.ty.width / 8) .both
    ((siteAccs f g (effSet g.ctx g.w f.k f.kn) none (atomData f g.ctx)).filter fun a => f.u || !inTx g.ctx a.t) = (rs, s1))
include hio hc hfree hcheck

theorem exec_aredn_bad {b : Bad} (hbad : failOf f.u (badsOf rs) = some b) :
    exec (.aredn f) s = .next (raise s1 h (badRec g.ctx (effSet g.ctx g.w f.k f.kn) b)) := by
  subst hio
  rw [siteAccs_eq] at hcheck
  change execAredn f s = _
  simp only [execAredn, sizeOfTy, hc, hfree, hcheck, hbad, Bool.false_eq_true, if_false]

theorem exec_aredn_checked (hok : failOf f.u (badsOf rs) = none) {u : State}
    (hu : u = putAway (if effSet g.ctx g.w f.k f.kn = 0 then s1 else fallBack s1 h) g.core (arednAway s1 g rs)) :
    exec (.aredn f) s
    = if sinkHolds g.ctx s1.nextId f.u (partsOf rs) || winHolds g.ctx s1.nextId f.u (partsOf rs) then .next s1
      else if (arednAway s1 g rs).any fun la => wbInFlight u g.core la then .next u
      else finishWord (arednAll u h g f rs) h io 1 f.u (effSet g.ctx g.w f.k f.kn) := by
  subst hio hu
  rw [siteAccs_eq] at hcheck
  unfold arednAll
  rw [← each_onGood fun u a ps => each ps u fun u p => arednPart u h g f (f.ty.width / 8) a p]
  change execAredn f s = _
  simp only [execAredn, sizeOfTy, hc, hfree, hcheck, hok, Bool.false_eq_true, if_false]
  rfl

end Reduction

/-- Settles O40: for each of the two words, its fault, then what holds it back, then its effects. -/
theorem releaseStoresAndReductions : Obligations.ReleaseStoresAndReductions := by
  unfold Obligations.ReleaseStoresAndReductions
  intro s h g f d hc eff n seen
  refine ⟨?_, ?_⟩
  · intro hfree rs s1 hcheck done s2 scope s3 waits s4
    have haway : s3 = strlAway s2 h g scope rs := (strlAway_eq ..).symm
    have hexec (hok : failOf f.u (badsOf rs) = none) := exec_strl_checked hc hfree hcheck hok rfl (rfl : s2 = _) (rfl : scope = _)
    refine ⟨fun b hbad => exec_strl_bad hc hfree hcheck hbad, fun hok heff => performs_of_finish ((hexec hok).trans (if_pos heff)), ?_⟩
    intro hok heff
    have hexec := (hexec hok).trans (if_neg heff)
    refine ⟨fun hheld => hexec.trans (if_pos ?_), fun hsettled hout hsink => ?_⟩
    · rcases hheld with hs | hs | hs <;> simp [hs]
    have hexec := hexec.trans (if_neg (by simp [hsettled, hout, hsink]))
    refine ⟨fun hwide => ?_, fun hnarrow => ?_⟩
    · have hexec := hexec.trans (if_pos hwide)
      rw [← haway, strlScope_eq] at hexec
      exact ⟨fun hwaits => hexec.trans (if_pos ((strlWaits_iff ..).2 hwaits)),
        fun hpast => performs_of_finish (hexec.trans (if_neg (mt (strlWaits_iff ..).1 hpast)))⟩
    · have hexec := hexec.trans (if_neg (by simp [hnarrow]))
      refine ⟨fun ⟨l, hl, hwait⟩ => hexec.trans (if_pos (List.any_eq_true.2 ⟨l, hl, ?_⟩)),
        fun hready => performs_of_finish (hexec.trans (if_neg ?_))⟩
      · exact congrArg not hwait
      · intro hany
        obtain ⟨l, hl, hwait⟩ := List.any_eq_true.1 hany
        exact Bool.eq_false_iff.1 ((Bool.not_eq_true' _).mp hwait) (hready l hl)
  · intro hfree rs s1 hcheck away s3 behind
    have hexec (hok : failOf f.u (badsOf rs) = none) := exec_aredn_checked rfl hc hfree hcheck hok (rfl : s3 = _)
    refine ⟨fun b hbad => exec_aredn_bad rfl hc hfree hcheck hbad, fun hok => ?_⟩
    refine ⟨fun hbehind => (hexec hok).trans (if_pos hbehind), fun hclear => ?_⟩
    have hexec := (hexec hok).trans (if_neg (Bool.eq_false_iff.1 hclear))
    refine ⟨fun ⟨la, hla, hgoing⟩ => hexec.trans (if_pos (List.any_eq_true.2 ⟨la, hla, hgoing⟩)),
      fun hgone => performs_of_finish (hexec.trans (if_neg ?_))⟩
    intro hany
    obtain ⟨la, hla, hgoing⟩ := List.any_eq_true.1 hany
    exact Bool.eq_false_iff.1 (hgone la hla) hgoing

end Sys2Proof.Machine
end

section
/-! The engine words (08 R200 to R226): each word of the table is issued with its own command; what their checks refuse; `TDEP`
and `ECANCEL`, which send nothing. -/

namespace Sys2Proof.Machine

open Sys2Proof.Claims

/-! ### Checks -/

theorem descBad_of_ok {ok : Bool} (hok : ok = true) : descBad ok = none := if_pos hok

theorem descBad_of_not_ok {ok : Bool} (hok : ok = false) : descBad ok = some { code := 0x20 } := if_neg (by simp [hok])

/-- Of two descriptor checks in a row it does not matter which fails (log entry 20). -/
theorem firstBad_two_descs {a b : Bool} (l : List (Option Bad)) (hbad : ¬(a = true ∧ b = true)) :
    firstBad (descBad a :: descBad b :: l) = some { code := 0x20 } := by
  cases a with
  | false => rfl
  | true =>
    cases b with
    | false => rfl
    | true => exact absurd ⟨rfl, rfl⟩ hbad

/-! ### Words that send a command -/

section Table

variable {f : FOps} {w1 w2 w3 : Word} {e : Instr × Nat × List Nat × (State → Group → Word → Except Bad Cmd)}
  (he : e ∈ engineTable f w1 w2 w3)
include he

/-- Each word of the table is issued as an engine word, with the registers and the command that stand beside it. -/
theorem exec_engineTable (s : State) : exec e.1 s = issueEngine s f e.2.1 (ioUni e.2.2.1) e.2.2.2 := by
  revert e
  simp only [engineTable, List.forall_mem_cons]
  exact ⟨rfl, rfl, rfl, rfl, rfl, rfl, rfl, List.forall_mem_nil _⟩

/-- What a word of the table captures of its group (08 R202). -/
theorem engineTable_captures {s : State} {g : Group} {eff : Word} {c : Cmd} (hcmd : e.2.2.2 s g eff = .ok c) :
    c.ec = f.form ∧ c.st = .waiting ∧ c.core = g.core ∧ c.team = g.team ∧ c.rv = g.ctx.rv ∧ c.iaddr = g.ctx.pc ∧ c.prog = 0 := by
  have captured {kind regs ws mod l} := newCmd_facts s g f kind regs ws mod eff l c
  revert e
  simp only [engineTable, List.forall_mem_cons]
  exact ⟨captured, captured, captured, captured, captured, captured, captured, List.forall_mem_nil _⟩

end Table

section OwnChecks

variable {f : FOps} {s : State} {g : Group} {eff : Word}

theorem copyCmd_eq : copyCmd f s g eff = checked (newCmd s g f (if f.mod == 1 then .fill else .copy) (copyRegs f) [] 0 eff)
    [descBad (decide (bits (readS g.ctx f.b.toNat).toNat 63 40 = 0)),
     addrBad s g (readS g.ctx f.d.toNat) (bits (readS g.ctx f.b.toNat).toNat 39 0),
     if f.mod == 1 then none else addrBad s g (readS g.ctx f.a.toNat) (bits (readS g.ctx f.b.toNat).toNat 39 0)] := rfl

theorem copyCmd_refused (hlen : bits (readS g.ctx f.b.toNat).toNat 63 40 ≠ 0) : copyCmd f s g eff = .error { code := 0x20 } := by
  rw [copyCmd_eq, descBad_of_not_ok (decide_eq_false hlen)]
  rfl

theorem copyCmd_sent (hlen : bits (readS g.ctx f.b.toNat).toNat 63 40 = 0)
    (hdst : addrBad s g (readS g.ctx f.d.toNat) (bits (readS g.ctx f.b.toNat).toNat 39 0) = none)
    (hsrc : f.mod ≠ 1 → addrBad s g (readS g.ctx f.a.toNat) (bits (readS g.ctx f.b.toNat).toNat 39 0) = none) :
    ∃ c, copyCmd f s g eff = .ok c ∧ c.kind = (if f.mod = 1 then .fill else .copy)
      ∧ c.regs = [readS g.ctx f.d.toNat, readS g.ctx f.a.toNat, readS g.ctx f.b.toNat] := by
  rw [copyCmd_eq, descBad_of_ok (decide_eq_true hlen), hdst]
  by_cases hfill : f.mod = 1
  · rw [hfill]
    exact ⟨_, rfl, rfl, rfl⟩
  · have hcopy : (f.mod == 1) = false := beq_eq_false_iff_ne.2 hfill
    rw [hcopy, hsrc hfill, if_neg hfill]
    exact ⟨_, rfl, rfl, rfl⟩

theorem collCmd_eq : collCmd f s g eff = checked (newCmd s g f .coll [f.a.toNat] [] 0 eff)
    [descBad (decide (bits (readS g.ctx f.a.toNat).toNat 63 56 = 0)),
     if (readS g.ctx f.a.toNat).toNat % 64 = 0 then none else some { code := 0x10, va := (readS g.ctx f.a.toNat).toNat }] := rfl

theorem collCmd_refused (htop : bits (readS g.ctx f.a.toNat).toNat 63 56 ≠ 0) : collCmd f s g eff = .error { code := 0x20 } := by
  rw [collCmd_eq, descBad_of_not_ok (decide_eq_false htop)]
  rfl

theorem collCmd_misaligned (htop : bits (readS g.ctx f.a.toNat).toNat 63 56 = 0) (halign : (readS g.ctx f.a.toNat).toNat % 64 ≠ 0) :
    collCmd f s g eff = .error { code := 0x10, va := (readS g.ctx f.a.toNat).toNat } := by
  rw [collCmd_eq, descBad_of_ok (decide_eq_true htop), if_neg halign]
  rfl

theorem collCmd_sent (htop : bits (readS g.ctx f.a.toNat).toNat 63 56 = 0) (halign : (readS g.ctx f.a.toNat).toNat % 64 = 0) :
    ∃ c, collCmd f s g eff = .ok c ∧ c.kind = .coll ∧ c.regs = [readS g.ctx f.a.toNat] := by
  rw [collCmd_eq, descBad_of_ok (decide_eq_true htop), if_pos halign]
  exact ⟨_, rfl, rfl, rfl⟩

theorem tzeroCmd_eq : tzeroCmd f s g eff = checked (newCmd s g f .tzero [f.a.toNat] [] 0 eff)
    [descBad (holdsTas s g), descBad (shapeOk (readS g.ctx f.a.toNat) (teamOf s g.team).pair false)] := rfl

theorem tzeroCmd_refused (hbad : holdsTas s g = false ∨ shapeOk (readS g.ctx f.a.toNat) (teamOf s g.team).pair false = false) :
    tzeroCmd f s g eff = .error { code := 0x20 } := by
  have hfirst := firstBad_two_descs [] (a := holdsTas s g) (b := shapeOk (readS g.ctx f.a.toNat) (teamOf s g.team).pair false)
    fun ⟨htas, hshape⟩ => hbad.elim (by simp [htas]) (by simp [hshape])
  rw [tzeroCmd_eq, checked, hfirst]

theorem tzeroCmd_sent (htas : holdsTas s g = true) (hshape : shapeOk (readS g.ctx f.a.toNat) (teamOf s g.team).pair false = true) :
    ∃ c, tzeroCmd f s g eff = .ok c ∧ c.kind = .tzero ∧ c.regs = [readS g.ctx f.a.toNat] := by
  rw [tzeroCmd_eq, descBad_of_ok htas, descBad_of_ok hshape]
  exact ⟨_, rfl, rfl, rfl⟩

end OwnChecks

/-! ### Words that send nothing -/

/-- Whether a dependency names whole lines and sets no reserved bit (08 R208). -/
def depRangeOk (w : Word) : Bool :=
  bits w.toNat 31 21 = 0 && bits w.toNat 63 53 = 0 && bits w.toNat 20 0 % 128 = 0 && bits w.toNat 52 32 % 128 = 0
    && bits w.toNat 52 32 != 0

theorem depRangeOk_iff {w : Word} : depRangeOk w = true ↔ bits w.toNat 31 21 = 0 ∧ bits w.toNat 63 53 = 0
    ∧ bits w.toNat 20 0 % 128 = 0 ∧ bits w.toNat 52 32 % 128 = 0 ∧ bits w.toNat 52 32 ≠ 0 := by
  simp [depRangeOk, and_assoc]

/-- What `TDEP` does to its group's list, or its fault (08 R208). -/
def tdepBody (f : FOps) (s : State) (h : Nat) (g : Group) : Except Bad State :=
  let w := readS g.ctx f.a.toNat
  match firstBad [descBad (depRangeOk w), descBad (decide (g.ctx.tdep.length < 4)),
      if rangeOk s g (bits w.toNat 20 0) (bits w.toNat 52 32) then none else some { code := 0x11, va := bits w.toNat 20 0 }] with
  | some b => .error b
  | none => .ok (modCtx s h fun x => { x with tdep := x.tdep ++ [w] })

theorem exec_tdep (f : FOps) (s : State) : exec (.tdep f) s = issueEngineNow s f (ioUni [f.a.toNat]) (tdepBody f) := rfl

section Dependency

variable {f : FOps} {s : State} {h : Nat} {g : Group}

theorem tdepBody_illegal (hbad : ¬(depRangeOk (readS g.ctx f.a.toNat) = true ∧ g.ctx.tdep.length < 4)) :
    tdepBody f s h g = .error { code := 0x20 } := by
  have hdescs : ¬(depRangeOk (readS g.ctx f.a.toNat) = true ∧ decide (g.ctx.tdep.length < 4) = true) := by
    rwa [decide_eq_true_eq]
  rw [tdepBody, firstBad_two_descs _ hdescs]

variable (hrange : depRangeOk (readS g.ctx f.a.toNat) = true) (hroom : g.ctx.tdep.length < 4)
include hrange hroom

theorem tdepBody_outside
    (hout : rangeOk s g (bits (readS g.ctx f.a.toNat).toNat 20 0) (bits (readS g.ctx f.a.toNat).toNat 52 32) = false) :
    tdepBody f s h g = .error { code := 0x11, va := bits (readS g.ctx f.a.toNat).toNat 20 0 } := by
  rw [tdepBody, descBad_of_ok hrange, descBad_of_ok (decide_eq_true hroom), hout]
  rfl

theorem tdepBody_added
    (hin : rangeOk s g (bits (readS g.ctx f.a.toNat).toNat 20 0) (bits (readS g.ctx f.a.toNat).toNat 52 32) = true) :
    tdepBody f s h g = .ok (modCtx s h fun x => { x with tdep := x.tdep ++ [readS g.ctx f.a.toNat] }) := by
  rw [tdepBody, descBad_of_ok hrange, descBad_of_ok (decide_eq_true hroom), hin]
  rfl

end Dependency

/-- A word that reads no register waits for no result. -/
theorem blocked_nothing (x : Ctx) : blocked x {} = false := by
  simp [blocked, meets]

/-- What `ECANCEL` does: every command of the team on the counter is cancelled (08 R226). -/
def cancelCounted (f : FOps) (s : State) (g : Group) : State :=
  each (s.cmds.filter fun c => c.2.team = g.team && c.2.core = g.core && c.2.ec = f.form) s fun u c => cancelCmd u c.1

theorem exec_ecancel (f : FOps) (s : State) :
    exec (.ecancel f) s = issueEngineNow s f {} fun s _ g => .ok (cancelCounted f s g) := rfl

/-- Settles O46: a word of the table is issued with its command, which its checks may refuse; `TDEP` and `ECANCEL` act at once. -/
theorem engineWordsComplete : Obligations.EngineWordsComplete := by
  unfold Obligations.EngineWordsComplete
  intro s h g f w1 w2 w3 hc eff s1 r
  obtain ⟨hcancelNone, -, hcancel⟩ := engineNow_goes s h g f {} (fun s _ g => .ok (cancelCounted f s g)) hc (blocked_nothing _)
  refine ⟨fun e he hfree => ?_, fun u => enterCmd_spec u h g, ⟨copyCmd_refused, copyCmd_sent⟩,
    ⟨collCmd_refused, collCmd_misaligned, collCmd_sent⟩, ⟨tzeroCmd_refused, tzeroCmd_sent⟩, fun hfree hnone => ?_,
    fun hfree hsome => ?_, fun hnone => ⟨_, (exec_ecancel f s).trans (hcancelNone hnone), retire_spec ..⟩,
    fun hsome => hcancel hsome _ rfl⟩
  · obtain ⟨hempty, hbad, hgo⟩ := issueEngine_goes s h g f e.2.1 (ioUni e.2.2.1) e.2.2.2 hc hfree
    rw [completes, exec_engineTable he]
    refine ⟨fun hnone => ⟨_, hempty hnone, retire_spec ..⟩, hbad, fun hsome c hcmd => ?_⟩
    obtain ⟨hec, hst, hcore, hteam, hrv, hiaddr, hprog⟩ := engineTable_captures he hcmd
    rw [completesAt, exec_engineTable he]
    exact ⟨hec, hst, hcore, hteam, hrv, hiaddr, hprog, hgo hsome c hcmd⟩
  · exact ⟨_, (engineNow_goes s h g f _ (tdepBody f) hc hfree).1 hnone, retire_spec ..⟩
  · obtain ⟨-, hbad, hgo⟩ := engineNow_goes s h g f (ioUni [f.a.toNat]) (tdepBody f) hc hfree
    intro w legal
    have hlegal : legal ↔ depRangeOk (r f.a) = true ∧ g.ctx.tdep.length < 4 := by
      rw [depRangeOk_iff]
      simp only [legal, w, and_assoc]
    refine ⟨fun hillegal => hbad hsome _ (tdepBody_illegal (mt hlegal.2 hillegal)), fun hl hout => ?_, fun hl hin => ?_⟩
    · obtain ⟨hrange, hroom⟩ := hlegal.1 hl
      exact hbad hsome _ (tdepBody_outside hrange hroom hout)
    · obtain ⟨hrange, hroom⟩ := hlegal.1 hl
      exact hgo hsome _ (tdepBody_added hrange hroom hin)

end Sys2Proof.Machine
end

section
/-! The events of engines (08 R202 to R226, 10 R253, R260, 19 R342): commands leave the dependency table, go to their engine,
run, end and fault; leases are bound, renewed, passed on and ended; bytes land in scratch. -/

namespace Sys2Proof.Machine

/-! ### Commands after a change of one -/

theorem find_modCmd_self (s : State) (cid : Nat) (F : Cmd → Cmd) : find (modCmd s cid F).cmds cid = (find s.cmds cid).map F := by
  unfold modCmd
  cases hd : find s.cmds cid with
  | none => exact hd
  | some d => exact find_put_self ..

/-! ### To the engine -/

section Starting

variable {s : State} {c : Cmd} (hc : c = cmdOf s s.subj.cmd)
include hc

/-- Of the entries that are ready the one that issued first leaves the table. -/
theorem exec_dependencyEntryLeave (hready : mayLeave s c = true)
    (hfirst : ∀ d ∈ s.cmds, d.2.core = c.core → d.2.seq < c.seq → mayLeave s d.2 = false) :
    exec .dependencyEntryLeave s = .next (modCore (modCmd s s.subj.cmd fun c => { c with st := .running }) c.core
      fun k => { k with dep := k.dep.erase s.subj.cmd }) := by
  subst hc
  refine if_pos (Bool.and_eq_true_iff.2 ⟨hready, List.all_eq_true.2 fun d hd => ?_⟩)
  by_cases hcore : d.2.core = (cmdOf s s.subj.cmd).core
  · by_cases hseq : d.2.seq < (cmdOf s s.subj.cmd).seq
    · simp [hfirst d hd hcore hseq]
    · simp [hseq]
  · simp [hcore]

variable (hwants : wantsEngine c = true)
include hwants

/-- A command of a kind that needs no pool engine runs at once. -/
theorem exec_engineDispatch_own (hpool : poolOf c.kind = none) :
    exec .engineDispatch s = .next (modCmd s s.subj.cmd fun c => { c with st := .running }) := by
  subst hc
  change execEngineDispatch s = _
  simp only [execEngineDispatch, mayDispatch, hwants, hpool]
  rfl

variable (hpool : (poolOf c.kind).isNone = false)
include hpool

/-- One whose tenant needs no further engine goes to the lease with the fewest commands. -/
theorem exec_engineDispatch_leased (hbind : wantsBind s c = none) {e : Nat} (hlease : bestLease s c = some e) :
    exec .engineDispatch s = .next (modCmd s s.subj.cmd fun c => { c with st := .running, engine := some e }) := by
  subst hc
  change execEngineDispatch s = _
  simp only [execEngineDispatch, mayDispatch, hwants, hbind, hlease, hpool]
  rfl

/-- One whose tenant needs an engine has it bound first. -/
theorem exec_engineDispatch_bound {e e' : Nat} (hbind : wantsBind s c = some e)
    (hlease : bestLease (bindEngine s e (cmdPart s c) c.tenant) c = some e') : exec .engineDispatch s
      = .next (modCmd (bindEngine s e (cmdPart s c) c.tenant) s.subj.cmd fun c => { c with st := .running, engine := some e' }) := by
  subst hc
  change execEngineDispatch s = _
  simp only [execEngineDispatch, mayDispatch, hwants, hbind, hlease, hpool, Option.isSome_some, Bool.or_true]
  rfl

end Starting

/-! ### Running -/

section Running

variable {s : State} {c : Cmd} (hc : c = cmdOf s s.subj.cmd) (hrun : c.st = .running) (hleft : leaseLeft s c = true)
  {n : Nat} {u : State} (hop : nextOp s s.subj.cmd c = .op n u)
include hc hrun hleft hop

/-- A running command's next operation counts against its engine's lease. -/
theorem operate_runs (name : String) {kinds : CmdKind → Bool} (hkind : kinds c.kind = true) :
    operate s name kinds = .next (chargeLease u c n) := by
  subst hc
  simp only [operate, hrun, hkind, hleft, hop]
  rfl

theorem exec_engineOperation (htmma : c.kind ≠ .tmma) (hpress : c.kind ≠ .press) (hcoll : c.kind ≠ .coll) :
    exec .engineOperation s = .next (chargeLease u c n) := by
  change execEngineOperation s = _
  exact operate_runs hc hrun hleft hop _ (by simp [htmma, hpress, hcoll])

theorem exec_tmmaKblock (htmma : c.kind = .tmma) : exec .tmmaKblock s = .next (chargeLease u c n) := by
  change execTmmaKblock s = _
  exact operate_runs hc hrun hleft hop _ (by simp [htmma])

theorem exec_pressShare (hpress : c.kind = .press) (hline : shareLine s c = some s.subj.la)
    (hawake : pressPaused s (channelOf s.subj.la) = false) : exec .pressShare s = .next (chargeLease u c n) := by
  have hoperate := operate_runs hc hrun hleft hop "PRESS_SHARE" (kinds := fun k => k == .press) (by simp [hpress])
  subst hc
  refine Eq.trans (if_pos ?_) hoperate
  simp [hline, hawake]

end Running

/-! ### The end of a command -/

section Ending

variable {s : State} {d : Cmd} (hd : find s.cmds s.subj.cmd = some d)
include hd

theorem exec_engineCommandComplete_cancelled (hst : d.st = .cancelled) :
    exec .engineCommandComplete s = .next (endCmd s s.subj.cmd d) := by
  change execEngineCommandComplete s = _
  simp only [execEngineCommandComplete, hd, hst]
  rfl

theorem exec_engineCommandComplete_done (hrun : d.st = .running) (hflight : d.flight = [])
    (hdone : nextOp s s.subj.cmd d = .done) : exec .engineCommandComplete s = .next (endCmd s s.subj.cmd d) := by
  change execEngineCommandComplete s = _
  simp only [execEngineCommandComplete, hd, hrun, hflight, hdone]
  rfl

end Ending

section Faulting

variable {s : State} {c : Cmd} (hc : c = cmdOf s s.subj.cmd) {code k va : Nat} (hfault : cmdFault s s.subj.cmd c = some (code, k, va))
  (hcause : engineCause code k = s.subj.cause) (htile : c.kind.tile = false)
include hc hfault hcause htile

theorem exec_engineFault_stops (hfinal : 4 ≤ s.subj.cause) : exec .engineFault s = .next (stopCmd s s.subj.cmd c s.subj.cause) := by
  subst hc
  change execEngineFault s = _
  simp only [execEngineFault, hfault, hcause, htile, hfinal, ne_eq, not_true_eq_false, decide_false, Bool.or_false,
    Bool.false_eq_true, if_false, if_true]

/-- A fault the driver may repair leaves the command stopped at its address. -/
theorem exec_engineFault_reports (hrepair : s.subj.cause < 4) : ∃ t, exec .engineFault s = .next t
    ∧ find t.cmds s.subj.cmd = (find s.cmds s.subj.cmd).map fun d => { d with st := .faulted s.subj.cause, va := .ofNat 64 va } := by
  subst hc
  change ∃ t, execEngineFault s = _ ∧ _
  simp only [execEngineFault, hfault, hcause, htile, Nat.not_le.2 hrepair, ne_eq, not_true_eq_false, decide_false,
    Bool.or_false, Bool.false_eq_true, if_false]
  refine ⟨_, rfl, ?_⟩
  rw [ringWrite_cmds, find_modCmd_self]

end Faulting

/-! ### Collectives -/

section Collective

variable {s : State} {cid : Nat} {c : Cmd} (hc : c = cmdOf s cid) {agree : Bool} {ranks : List (List W32)}
  (hrun : c.st = .running) (hkind : c.kind = .coll) (hprog : c.prog = 0)
include hc hrun hkind hprog

theorem exec_collComplete_op {n : Nat} {u : State} (hstep : collStep s cid c agree ranks = .op n u) :
    exec (.collComplete cid agree ranks) s = .next (chargeLease u c n) := by
  subst hc
  change execCollComplete cid agree ranks s = _
  simp only [execCollComplete, hrun, hkind, hprog, hstep]
  rfl

theorem exec_collComplete_stop {k va : Nat} (hstep : collStep s cid c agree ranks = .stop (some (0x21, k, va))) :
    exec (.collComplete cid agree ranks) s = .next (stopCmd s cid c k) := by
  subst hc
  change execCollComplete cid agree ranks s = _
  simp only [execCollComplete, hrun, hkind, hprog, hstep]
  rfl

end Collective

/-! ### Leases -/

theorem exec_engineLeaseBind {s : State} (hset : (partOf s s.subj.part).engines.contains s.subj.engine = true)
    (hfree : find s.engines s.subj.engine = none)
    (hneed : ∃ d ∈ s.cmds, wantsEngine d.2 = true ∧ runs s.subj.engine d.2.kind = true ∧ cmdPart s d.2 = s.subj.part
      ∧ d.2.tenant = s.subj.tenant ∧ (wantsBind s d.2).isSome = true) :
    exec .engineLeaseBind s = .next (bindEngine s s.subj.engine s.subj.part s.subj.tenant) := by
  obtain ⟨d, hd, hwants, hruns, hpart, htenant, hbind⟩ := hneed
  have hany : (s.cmds.any fun (_, c) => wantsEngine c && runs s.subj.engine c.kind && cmdPart s c = s.subj.part
      && c.tenant = s.subj.tenant && (wantsBind s c).isSome) = true :=
    List.any_eq_true.2 ⟨d, hd, by simp [hwants, hruns, hpart, htenant, hbind]⟩
  change execEngineLeaseBind s = _
  simp only [execEngineLeaseBind, hset, hfree, hany]
  rfl

/-- The commands of an engine whose lease ends, which go on at another lease. -/
def leaveEngine (e : Nat) (s : State) : State :=
  { s with cmds := s.cmds.map fun (i, c) =>
      (i, if c.engine == some e then { c with engine := none, st := if c.st == .running then .waiting else c.st } else c) }

theorem leaveEngine_none_left (e : Nat) (s : State) : ∀ d ∈ (leaveEngine e s).cmds, d.2.engine ≠ some e := by
  intro d hd
  obtain ⟨x, -, rfl⟩ := List.mem_map.1 hd
  dsimp only
  split
  · exact (Option.some_ne_none e).symm
  · next hother => simpa using hother

section Expiry

variable {s : State} {x : Engine} (hx : find s.engines s.subj.engine = some x) (hspent : x.left = 0)
include hx hspent

theorem exec_engineLeaseExpiry_ends (hgone : (partOf s x.part).engines.contains s.subj.engine = false) :
    exec .engineLeaseExpiry s = .next (leaveEngine s.subj.engine { s with engines := del s.engines s.subj.engine }) := by
  change execEngineLeaseExpiry s = _
  simp only [execEngineLeaseExpiry, hx, hspent, hgone]
  rfl

variable (hset : (partOf s x.part).engines.contains s.subj.engine = true)
include hset

theorem exec_engineLeaseExpiry_renews (hnext : nextLessee s s.subj.engine x = none) :
    exec .engineLeaseExpiry s = .next { s with engines := put s.engines s.subj.engine { x with left := 65536 } } := by
  change execEngineLeaseExpiry s = _
  simp only [execEngineLeaseExpiry, hx, hspent, hset, hnext]
  rfl

theorem exec_engineLeaseExpiry_passes {d : Cmd} (hnext : nextLessee s s.subj.engine x = some d) : exec .engineLeaseExpiry s
    = .next (bindEngine (leaveEngine s.subj.engine s) s.subj.engine x.part d.tenant) := by
  change execEngineLeaseExpiry s = _
  simp only [execEngineLeaseExpiry, hx, hspent, hset, hnext]
  rfl

end Expiry

theorem find_bindEngine_self (s : State) (e p t : Nat) :
    find (bindEngine s e p t).engines e = some { part := p, tenant := t, left := 65536 } := by
  rw [bindEngine_eq]
  exact find_put_self ..

theorem bindEngine_cmds (s : State) (e p t : Nat) : (bindEngine s e p t).cmds = s.cmds := by
  rw [bindEngine_eq]

/-! ### Bytes on their way into scratch -/

theorem exec_engineScratchLineLand_over {s : State} (hover : find s.cmds s.subj.cmd = none) :
    exec .engineScratchLineLand s = .next s := by
  change execEngineScratchLineLand s = _
  simp only [execEngineScratchLineLand, hover]

section Landing

variable {s : State} {d : Cmd} (hd : find s.cmds s.subj.cmd = some d)
include hd

theorem exec_engineScratchLineLand_landed (hnone : (d.flight.find? fun x => x.id = s.subj.n) = none) :
    exec .engineScratchLineLand s = .next s := by
  change execEngineScratchLineLand s = _
  simp only [execEngineScratchLineLand, hd, hnone]

/-- Bytes that arrive leave their command's flight; beyond that only groups and teams change, and nothing where the command
was cancelled. -/
theorem exec_engineScratchLineLand_lands {x : Flight} (hx : (d.flight.find? fun x => x.id = s.subj.n) = some x)
    (hfirst : flightWaits d x = false) {u : State}
    (hu : u = modCmd s s.subj.cmd fun c => { c with flight := c.flight.filter fun y => y.id != x.id }) :
    ∃ t, exec .engineScratchLineLand s = .next t ∧ GroupsTeams u t ∧ (d.st = .cancelled → t = u) := by
  subst hu
  change ∃ t, execEngineScratchLineLand s = _ ∧ _
  simp only [execEngineScratchLineLand, hd, hx, hfirst, Bool.false_eq_true, if_false]
  split
  · exact ⟨_, rfl, GroupsTeams.refl _, fun _ => rfl⟩
  · next hlive =>
    have hstands : d.st ≠ .cancelled := fun hst => hlive (by simp [hst])
    split
    · exact ⟨_, rfl, groupsTeams_modTeam .., fun hst => absurd hst hstands⟩
    · exact ⟨_, rfl, (groupsTeams_modTeam ..).trans ((groupsTeams_modTeam ..).trans (groupsTeams_retryScratch ..)),
        fun hst => absurd hst hstands⟩

end Landing

/-- Settles O47, event by event. -/
theorem engineEventsHappen : Obligations.EngineEventsHappen := by
  unfold Obligations.EngineEventsHappen
  intro s cid c ran
  refine ⟨exec_dependencyEntryLeave rfl, exec_engineDispatch_own rfl,
    fun hwants hpool hbind e hlease => exec_engineDispatch_leased rfl hwants (Option.isNone_eq_false_iff.2 ?_) hbind hlease,
    fun hwants hpool e e' hbind hlease => exec_engineDispatch_bound rfl hwants (Option.isNone_eq_false_iff.2 ?_) hbind hlease,
    fun hrun hleft n u hop => ⟨exec_engineOperation rfl hrun hleft hop, exec_tmmaKblock rfl hrun hleft hop,
      exec_pressShare rfl hrun hleft hop⟩,
    fun d hd => ⟨exec_engineCommandComplete_cancelled hd, exec_engineCommandComplete_done hd⟩,
    fun u d => endCmd_spec u cid d,
    fun code k va hfault hcause htile => ⟨exec_engineFault_stops rfl hfault hcause htile,
      exec_engineFault_reports rfl hfault hcause htile⟩,
    fun agree ranks hrun hkind hprog => ⟨fun n u => exec_collComplete_op rfl hrun hkind hprog,
      fun k va => exec_collComplete_stop rfl hrun hkind hprog⟩,
    ⟨exec_engineLeaseBind, fun x hx hspent => ⟨exec_engineLeaseExpiry_renews hx hspent, fun hgone => ?_, fun hset d hnext => ?_⟩⟩,
    exec_engineScratchLineLand_over, fun d hd => ⟨exec_engineScratchLineLand_landed hd, fun x hx hfirst => ?_⟩⟩
  · exact Option.isSome_iff_ne_none.2 hpool
  · exact Option.isSome_iff_ne_none.2 hpool
  · exact ⟨_, exec_engineLeaseExpiry_ends hx hspent hgone, find_del_self .., leaveEngine_none_left _ _⟩
  · refine ⟨_, exec_engineLeaseExpiry_passes hx hspent hset hnext, find_bindEngine_self .., ?_⟩
    rw [bindEngine_cmds]
    exact leaveEngine_none_left _ _
  · obtain ⟨t, hexec, hbeyond, hcancelled⟩ := exec_engineScratchLineLand_lands hd hx hfirst rfl
    refine ⟨t, hexec, fun hst => ?_, ?_, ?_⟩
    · rw [hcancelled hst, teamOf, teamOf, modCmd_keeps_teams]
    · rw [hbeyond]
      exact ⟨_, (find_modCmd_self ..).trans (congrArg (Option.map _) hd), rfl⟩
    · rw [hbeyond]
      exact modCmd_keeps_mem ..

end Sys2Proof.Machine
end

section
/-! Taking a fault (09 R245, R246, 13 R311, 20 R359, R360): one equation for each place where the group may then be, outside or in
handler mode, in its own slot or in a helper's. -/

namespace Sys2Proof.Machine

section TakingAFault

variable {s : State} {h : Nat} {g : Group} {r : FaultRec} (hg : groupOf s h = some g)
include hg

theorem takeFault_delivers (hshadow : g.shadow = none) (houter : g.outer = none) : takeFault s h r
    = deliver (setGroup (faultEnds s h g r) h { g with ctx := faultCtx g.ctx r }) h (filedFault s g r) := by
  simp only [takeFault, hg, hshadow, houter]

theorem takeFault_halts_again {x : Ctx} (hshadow : g.shadow = some x) (houter : g.outer = none) : takeFault s h r
    = haltGroup (setGroup (secondFault (faultEnds s h g r) g r).2 h { g with ctx := faultCtx g.ctx r }) h
        { (g.frec.getD {}) with second := some (r.code, r.cause, r.iaddr) } := by
  simp only [takeFault, hg, hshadow, houter]
  rfl

theorem takeFault_leaves {o : Nat} (hshadow : g.shadow = none) (houter : g.outer = some o) : takeFault s h r
    = faultLeaves (faultEnds s h g r) h g (faultCtx g.ctx r) (filedFault s g r) := by
  simp only [takeFault, hg, hshadow, houter]

theorem takeFault_leaves_again {x : Ctx} {o : Nat} (hshadow : g.shadow = some x) (houter : g.outer = some o) : takeFault s h r
    = faultLeaves (secondFault (faultEnds s h g r) g r).2 h g (faultCtx g.ctx r) (filedFault s g r)
        (some { (g.frec.getD {}) with second := some (r.code, r.cause, r.iaddr) }) := by
  simp only [takeFault, hg, hshadow, houter]
  rfl

end TakingAFault

/-- What a fault ends leaves its partition's table of handlers, so that the handler looked up is the one named before. -/
theorem faultEnds_part (s : State) (h : Nat) (g q : Group) (r : FaultRec) (hteam : q.team = g.team) :
    partOf (setGroup (faultEnds s h g r) h q) (groupPart (setGroup (faultEnds s h g r) h q) q) = partOf s (groupPart s g) := by
  have hbeyond := beyond_faultEnds s h g r
  have hpart : groupPart (setGroup (faultEnds s h g r) h q) q = groupPart (faultEnds s h g r) g := by
    simp only [groupPart, groupLaunch, launchIdOf, hteam]
    rfl
  rw [hpart, hbeyond.groupPart]
  exact hbeyond.part _

/-- Settles O28: delivery to the handler, from the context that the fault stops. -/
theorem faultEntersHandler : Obligations.FaultEntersHandler := by
  unfold Obligations.FaultEntersHandler
  intro s h g r pc hg hshadow houter hhandler a
  have hpart := faultEnds_part s h g { g with ctx := faultCtx g.ctx r } r rfl
  have hentered := deliver_handler _ h (filedFault s g r) _ pc (groupOf_setGroup_self ..) ((congrArg (handlerOf · r.code) hpart).trans hhandler)
  rw [hpart] at hentered
  exact ⟨_, (congrArg (groupOf · h) (takeFault_delivers hg hshadow houter)).trans hentered, rfl, rfl⟩

/-- Settles O29: with no handler, and in handler mode, the group is halted; in a helper's slot it leaves the chain. -/
theorem faultHaltsOrLeaves : Obligations.FaultHaltsOrLeaves := by
  unfold Obligations.FaultHaltsOrLeaves
  intro s h g r hg
  refine ⟨fun hshadow houter hnone => ?_, fun x hshadow houter => ?_, fun o houter hne => ?_⟩
  · have hpart := faultEnds_part s h g { g with ctx := faultCtx g.ctx r } r rfl
    rw [takeFault_delivers hg hshadow houter,
      deliver_halts _ h (filedFault s g r) _ (groupOf_setGroup_self ..) ((congrArg (handlerOf · r.code) hpart).trans hnone),
      haltGroup_group _ h _ _ (groupOf_setGroup_self ..), if_pos rfl]
  · rw [takeFault_halts_again hg hshadow houter, haltGroup_group _ h _ _ (groupOf_setGroup_self ..), if_pos rfl]
  · cases hshadow : g.shadow with
    | none =>
      refine ⟨_, (congrArg (groupOf · h) (takeFault_leaves hg hshadow houter)).trans (faultLeaves_group _ h g _ _ none o houter hne),
        rfl, rfl, rfl, rfl, rfl, fun _ => ⟨rfl, rfl⟩, nofun⟩
    | some y =>
      refine ⟨_, (congrArg (groupOf · h) (takeFault_leaves_again hg hshadow houter)).trans (faultLeaves_group _ h g _ _ (some _) o houter hne),
        rfl, rfl, rfl, rfl, rfl, nofun, fun x _ => ⟨rfl, rfl⟩⟩

end Sys2Proof.Machine
end

section
/-! `TRET` and `HALT` in handler mode (09 R245, 20 R357): each waits for the handler's own results; then the one resumes the context
in the shadow and the other halts the group. -/

namespace Sys2Proof.Machine

open Sys2Proof.Claims

/-- A change of one group and of the accounting of issue leaves memory and what is kept of its lines. -/
theorem Elsewhere.mem_lines {s t : State} {h n : Nat} (helse : Elsewhere s h n t) : t.mem = s.mem ∧ t.lines = s.lines := by
  obtain ⟨-, -, -, -, -, hrest⟩ := helse
  rw [hrest]
  exact ⟨rfl, rfl⟩

/-- A group back from its handler: the shadow context resumes with a `%rv` that has not fallen (12 R302), at the barrier where it
waits, if it does (20 R357). -/
def resumed (g : Group) (x : Ctx) : Group :=
  { g with ctx := { x with rv := max x.rv g.ctx.rv }, shadow := none, frec := none
           run := match x.barWait with
             | some b => .parked (.barrier b)
             | none => .ready }

/-- Returning from the handler gives the group back its shadow context and changes no other group. -/
theorem returnFault_group {s : State} {h : Nat} {g : Group} {x : Ctx} (hg : groupOf s h = some g) (hshadow : g.shadow = some x) (j : Nat) :
    groupOf (returnFault s h) j = if j = h then some (resumed g x) else groupOf s j := by
  simp only [returnFault, hg, hshadow]
  rw [(beyond_freeRegs ..).group, groupOf_setGroup]
  rfl

theorem returnFault_mem_lines {s : State} {h : Nat} {g : Group} {x : Ctx} (hg : groupOf s h = some g) (hshadow : g.shadow = some x) :
    (returnFault s h).mem = s.mem ∧ (returnFault s h).lines = s.lines := by
  simp only [returnFault, hg, hshadow]
  exact (freeRegs_elsewhere (setGroup (deepPend s h g.core false) h (resumed g x)) h g.core
    ((heldRegs g.ctx).filter fun p => !(heldRegs x).contains p)).mem_lines

/-- Windows that have not faulted have nothing to perform again (05 R120). -/
theorem replayWins_none {s : State} {h : Nat} {g : Group} (hg : groupOf s h = some g) (hnone : ∀ w ∈ g.ctx.wins, w.fault = none) :
    replayWins s h = s := by
  simp only [replayWins, hg]
  refine each_same _ _ _ fun w hw => ?_
  simp only [replayWin, hnone w (List.mem_filter.1 hw).1]

section HandlerWords

variable {s : State} {h : Nat} {g : Group} {f : FOps} {x : Ctx} (hc : current s = some (h, g)) (hshadow : g.shadow = some x)
include hc hshadow

theorem exec_tret_waits (hwins : g.ctx.wins ≠ []) : exec (.tret f) s = .next (setGroup s h (ended g)) := by
  change execTret f s = _
  simp only [execTret, hc, hshadow, List.isEmpty_eq_false_iff.2 hwins, Bool.not_false, if_true, ended]

theorem exec_tret_returns (hwins : g.ctx.wins = []) :
    exec (.tret f) s = .next (replayWins (returnFault (spend s h (cyclesOf f.u g.w g.ctx.active)) h) h) := by
  change execTret f s = _
  simp only [execTret, hc, hshadow, hwins, List.isEmpty_nil, Bool.not_true, Bool.false_eq_true, if_false]
  rfl

theorem exec_halt_waits (hopen : settled g.ctx = false) : exec (.halt f) s = .next (setGroup s h (ended g)) := by
  change execHalt f s = _
  simp only [execHalt, hc, hshadow, hopen, Bool.not_false, if_true, ended]

theorem exec_halt_halts (hsettled : settled g.ctx = true) :
    exec (.halt f) s = .next (haltGroup (spend s h (cyclesOf f.u g.w g.ctx.active)) h (g.frec.getD {})) := by
  change execHalt f s = _
  simp only [execHalt, hc, hshadow, hsettled, Bool.not_true, Bool.false_eq_true, if_false]
  rfl

end HandlerWords

/-- Settles O32: what `TRET` resumes and what `HALT` halts, each after its word's issue is accounted for. -/
theorem handlerReturnsAndHalts : Obligations.HandlerReturnsAndHalts := by
  unfold Obligations.HandlerReturnsAndHalts
  refine ⟨fun s h g f x hc hshadow => ⟨exec_tret_waits hc hshadow, fun hwins => ?_⟩,
    fun s h g f x hc hshadow => ⟨exec_halt_waits hc hshadow, fun hsettled => ?_⟩⟩
  all_goals
    obtain ⟨hg, -⟩ := current_group hc
    obtain ⟨n, hspent, -⟩ := spend_group s h (cyclesOf f.u g.w g.ctx.active) g hg
    obtain ⟨hspend, -⟩ := spend_elsewhere s h (cyclesOf f.u g.w g.ctx.active)
    have hother := hspend.1
  · have hback := returnFault_group hspent hshadow
    obtain ⟨hmem0, hlines0⟩ := hspend.mem_lines
    obtain ⟨hmem, hlines⟩ := returnFault_mem_lines hspent hshadow
    have hself := (hback h).trans (if_pos rfl)
    exact ⟨_, _, exec_tret_returns hc hshadow hwins, hself, rfl, fun j hj => ((hback j).trans (if_neg hj)).trans (hother j hj),
      hmem.trans hmem0, hlines.trans hlines0, replayWins_none hself⟩
  · have hhalted := haltGroup_group (spend s h (cyclesOf f.u g.w g.ctx.active)) h (g.frec.getD {}) _ hspent
    exact ⟨_, _, exec_halt_halts hc hshadow hsettled, (hhalted h).trans (if_pos rfl), rfl,
      fun j hj => ((hhalted j).trans (if_neg hj)).trans (hother j hj)⟩

end Sys2Proof.Machine
end

section
/-! The system words: regions (09 R239, R240), special registers and events (09 R242, R243), and the words of handler mode (09 R245,
20 R358, R362, R367). -/

namespace Sys2Proof.Machine

open Sys2Proof.Claims

/-- A system word's effects leave `u`, and the word completes there; but a group that they retired is left as they leave it. -/
def Finishes (i : Instr) (s u : State) (h : Nat) (io : Io) (cyc : Nat) : Prop :=
  (∀ g', groupOf u h = some g' → g'.run ≠ .retired → ∃ t, exec i s = .next t ∧ Retired u h g' io 1 cyc {} t)
  ∧ ∀ g', groupOf u h = some g' → g'.run = .retired → exec i s = .next u

/-- A group with nothing outstanding has no window to end. -/
theorem ended_of_no_wins {g : Group} (hwins : g.ctx.wins = []) : ended g = g := by
  rw [ended, endWins, hwins, List.map_nil, ← hwins]

section Issuing

variable {s u : State} {h : Nat} {g q : Group} {i : Instr} {code : Nat} {f : FOps} {io : Io} {act : State → Nat → Group → Word → Act}
  (hc : current s = some (h, g)) (hq : q = if endsWindows code then ended g else g) (hexec : exec i s = issueSys s code f io act)
include hc hq hexec

theorem finishes_of_empty (heff : effSet q.ctx q.w f.k f.kn = 0)
    (hfree : blocked q.ctx (io.under (effSet q.ctx q.w f.k f.kn)) = false) :
    Finishes i s (setGroup s h q) h io (cyclesOf f.u q.w (effSet q.ctx q.w f.k f.kn)) := by
  obtain ⟨-, -, hready, -⟩ := current_group hc
  have hrun : q.run = .ready := by
    rw [hq]
    split <;> exact hready
  have hempty := hexec.trans (issueSys_empty hc code f io act q hq heff hfree)
  refine ⟨fun g' hg' _ => ?_, fun g' hg' hretired => ?_⟩ <;> cases (groupOf_setGroup_self s h q).symm.trans hg'
  · exact ⟨_, hempty, retire_spec ..⟩
  · rw [hrun] at hretired
    cases hretired

variable (heff : effSet q.ctx q.w f.k f.kn ≠ 0) (hfree : blocked q.ctx (io.under (effSet q.ctx q.w f.k f.kn)) = false)
include heff hfree

theorem finishes_of_done (hact : act (setGroup s h q) h q (effSet q.ctx q.w f.k f.kn) = .done u) :
    Finishes i s u h io (cyclesOf f.u q.w (effSet q.ctx q.w f.k f.kn)) := by
  have hdone (g' : Group) (hg' : groupOf u h = some g') :=
    hexec.trans (issueSys_done hc code f io act q hq heff hfree u hact g' hg')
  refine ⟨fun g' hg' hrun => ⟨_, (hdone g' hg').trans ?_, retire_spec u h g' io 1 _ {}⟩, fun g' hg' hrun => (hdone g' hg').trans ?_⟩
  · rw [if_neg hrun]
    rfl
  · rw [if_pos hrun]

end Issuing

/-! ### Regions -/

/-- What `REGION` and `COMMIT` do with a thread in E: nothing without the discipline, else their fault or their own action. -/
def regionAct (cause : Group → Nat) (act : State → Nat → Group → Act) (s : State) (h : Nat) (g : Group) (eff : Word) : Act :=
  if !(groupLaunch s g).rc.region then .done s
  else if cause g ≠ 0 then .bad { code := 0x2A, cause := cause g } s
  else act (forbid s h eff) h g

/-- The cause for which `REGION` faults. -/
def regionCause (g : Group) : Nat := if g.ctx.region.getLsbD 0 then 1 else if !g.ctx.stack.isEmpty then 3 else 0

/-- The cause for which `COMMIT` faults. -/
def commitCause (g : Group) : Nat := if !g.ctx.region.getLsbD 0 then 2 else if !g.ctx.stack.isEmpty then 3 else 0

/-- A context in a region opened at its word, with a checkpoint of its registers (09 R240). -/
def openRegion (x : Ctx) : Ctx :=
  { x with region := .ofNat 64 (bits x.pc.toNat 55 3 * 8 + 1)
           ckpt := some { v := x.v, s := x.s, k := x.k, fpflags := x.fpflags, active := x.active, depth := x.depth } }

theorem regionCause_ended (g : Group) : regionCause (ended g)
    = if g.ctx.region.getLsbD 0 then 1 else if g.ctx.stack ≠ [] then 3 else 0 := by
  simp only [regionCause, ended, endWins, Bool.not_eq_true', List.isEmpty_eq_false_iff]

theorem commitCause_ended (g : Group) : commitCause (ended g)
    = if g.ctx.region.getLsbD 0 = false then 2 else if g.ctx.stack ≠ [] then 3 else 0 := by
  simp only [commitCause, ended, endWins, Bool.not_eq_true', List.isEmpty_eq_false_iff]

theorem exec_region (f : FOps) (s : State) : exec (.region f) s = issueSys s Op.region.code f {} (regionAct regionCause fun s h g =>
    if !g.ctx.wins.isEmpty then .wait s else .done (modCtx s h openRegion)) := rfl

theorem exec_commit (f : FOps) (s : State) : exec (.commit f) s
    = issueSys s Op.commit.code f {} (regionAct commitCause fun s h _ => .done (endRegion s h)) := rfl

section RegionWords

variable {s : State} {h : Nat} {g : Group} {i : Instr} {code : Nat} {f : FOps} {cause : Group → Nat} {act : State → Nat → Group → Act}
  (hc : current s = some (h, g)) (hcode : endsWindows code = true) (hexec : exec i s = issueSys s code f {} (regionAct cause act))
include hc hcode hexec

theorem region_word_empty (heff : effSet g.ctx g.w f.k f.kn = 0) :
    Finishes i s (setGroup s h (ended g)) h {} (cyclesOf f.u g.w (effSet g.ctx g.w f.k f.kn)) :=
  finishes_of_empty hc (if_pos hcode).symm hexec heff (mayRetire_nil s h (ended g) _).1

theorem region_word_off (hoff : (groupLaunch s g).rc.region = false) :
    Finishes i s (setGroup s h (ended g)) h {} (cyclesOf f.u g.w (effSet g.ctx g.w f.k f.kn)) := by
  by_cases heff : effSet g.ctx g.w f.k f.kn = 0
  · exact region_word_empty hc hcode hexec heff
  · refine finishes_of_done (q := ended g) hc (if_pos hcode).symm hexec heff (mayRetire_nil s h (ended g) _).1 ?_
    have hoff' : (groupLaunch (setGroup s h (ended g)) (ended g)).rc.region = false := hoff
    simp only [regionAct, hoff', Bool.not_false, if_true]

variable (hon : (groupLaunch s g).rc.region = true) (heff : effSet g.ctx g.w f.k f.kn ≠ 0)
include hon heff

theorem region_word_faults (hcause : cause (ended g) ≠ 0) : exec i s = .next (raise (setGroup s h (ended g)) h
    (badRec (ended g).ctx (effSet g.ctx g.w f.k f.kn) { code := 0x2A, cause := cause (ended g) })) := by
  refine hexec.trans (issueSys_bad hc code f {} _ (ended g) (if_pos hcode).symm heff (mayRetire_nil s h (ended g) _).1 _ _ ?_)
  have hon' : (groupLaunch (setGroup s h (ended g)) (ended g)).rc.region = true := hon
  simp only [regionAct, hon', Bool.not_true, Bool.false_eq_true, if_false, hcause, ne_eq, not_false_eq_true, if_true]

theorem region_word_acts (hcause : cause (ended g) = 0) {u : State}
    (hact : act (forbid (setGroup s h (ended g)) h (effSet g.ctx g.w f.k f.kn)) h (ended g) = .done u) :
    Finishes i s u h {} (cyclesOf f.u g.w (effSet g.ctx g.w f.k f.kn)) := by
  refine finishes_of_done (q := ended g) hc (if_pos hcode).symm hexec heff (mayRetire_nil s h (ended g) _).1 (.trans ?_ hact)
  have hon' : (groupLaunch (setGroup s h (ended g)) (ended g)).rc.region = true := hon
  simp only [regionAct, hon', Bool.not_true, Bool.false_eq_true, if_false, hcause, ne_eq, not_true_eq_false]
  rfl

end RegionWords

/-- `REGION` of a group with nothing outstanding and no transaction open (09 R240). -/
theorem exec_region_opens {s : State} {h : Nat} {g : Group} {f : FOps} (hc : current s = some (h, g))
    (hon : (groupLaunch s g).rc.region = true) (heff : effSet g.ctx g.w f.k f.kn ≠ 0) (hcause : regionCause (ended g) = 0)
    (hwins : g.ctx.wins = []) (htx : g.ctx.tx = []) : ∃ t, exec (.region f) s = .next t
      ∧ Retired (modCtx (setGroup s h (ended g)) h openRegion) h { g with ctx := openRegion g.ctx } {} 1
          (cyclesOf f.u g.w (effSet g.ctx g.w f.k f.kn)) {} t := by
  obtain ⟨-, -, hready, -⟩ := current_group hc
  have hact : (if !(ended g).ctx.wins.isEmpty then Act.wait (forbid (setGroup s h (ended g)) h (effSet g.ctx g.w f.k f.kn))
      else .done (modCtx (forbid (setGroup s h (ended g)) h (effSet g.ctx g.w f.k f.kn)) h openRegion))
      = .done (modCtx (setGroup s h (ended g)) h openRegion) := by
    rw [forbid_none _ h (ended g) _ (groupOf_setGroup_self ..) htx, ended_of_no_wins hwins, hwins]
    rfl
  have hgroup := modCtx_group_self openRegion (groupOf_setGroup_self s h (ended g))
  rw [ended_of_no_wins hwins] at hgroup
  refine (region_word_acts hc rfl (exec_region f s) hon heff hcause hact).1 _ ?_ (by simp [hready])
  rw [ended_of_no_wins hwins]
  exact hgroup

/-! ### Special registers and events -/

theorem exec_wrs (f : FOps) (s : State) : exec (.wrs f) s = issueSys s Op.wrs.code f { ur := [f.a.toNat] } fun s h g _ =>
    if f.d = 8 then .done (modCtx (fallBack s h) h fun x => { x with fpflags := (readS g.ctx f.a.toNat).toNat % 64 })
    else .done (modCtx s h fun x => { x with rv := max x.rv (bits (readS g.ctx f.a.toNat).toNat 47 0) }) := rfl

theorem exec_event (f : FOps) (s : State) : exec (.event f) s = issueSys s Op.event.code f (ioSrc f.u f.a.toNat 1 f.lrA)
    fun s _ g eff => .done (each (sites f.u g.w eff) s fun s t => postGroup s g f.imm12.toNat (.ofNat 32 (srcA g.ctx g.w f .b32 t))) := rfl

/-! ### Handler mode -/

/-- `KILLT` and `TLBI` read an operand register except in their first form. -/
def formIo (f : FOps) : Io := { ur := if f.mod = 0 then [] else [f.a.toNat] }

theorem formIo_eq (f : FOps) : ({ ur := if decide (f.mod ≠ 0) = true then [f.a.toNat] else [] } : Io) = formIo f := by
  by_cases hmod : f.mod = 0 <;> simp [formIo, hmod]

/-- The team that `KILLT` names: its own, or that of a task (09 R245). -/
def killtTeam (s : State) (g : Group) (f : FOps) : Option Nat :=
  if f.mod = 0 then some g.team else teamOfTask s (groupPart s g) (bits (readS g.ctx f.a.toNat).toNat 27 0)

/-- Why `KILLT` kills a team. -/
def killtWhy (g : Group) (f : FOps) : KillWhy := { code := 0x31, cause := 0, addr := g.ctx.pc, va := 0, relaunch := f.x.getLsbD 1 }

/-- What `KILLT` does in handler mode (20 R362). -/
def killtAct (f : FOps) (s : State) (h : Nat) (g : Group) : Act :=
  match killtTeam s g f with
  | some t => .done (killTeam s t (killtWhy g f) h)
  | none => .done s

/-- What `CTXSV` does in handler mode with an aligned address (20 R358); `x` is the shadow context. -/
def saveShadow (f : FOps) (s : State) (h : Nat) (g : Group) (x : Ctx) : Act :=
  match tryStore s h g true 128 (lineAccs (readS g.ctx f.a.toNat) (ctxRecord g (groupLaunch s g).rc.pocket x)) s.nextId with
  | .bad b s => .bad b s
  | .wait s => .wait s
  | .done s => .done s

/-- What `CTXLD` does in handler mode with an aligned address (20 R358); `x` is the shadow context. -/
def loadShadow (f : FOps) (s : State) (h : Nat) (g : Group) (x : Ctx) : Act :=
  match recordOf s h g x (readS g.ctx f.a.toNat) with
  | .inl r => r
  | .inr (y, s) => match groupOf s h with
    | some g => takeShadow s h g x y
    | none => .wait s

section HandlerMode

variable {s : State} {h : Nat} {g : Group} {f : FOps} {x : Ctx} (hc : current s = some (h, g)) (hshadow : g.shadow = some x)
  (heff : effSet g.ctx g.w f.k f.kn ≠ 0)
include hc hshadow heff

section ContextRecords

variable (hfree : blocked (ended g).ctx (({ ur := [f.a.toNat] } : Io).under (effSet g.ctx g.w f.k f.kn)) = false)
include hfree

/-- A context record must stand at the start of a line (20 R358). -/
theorem context_word_misaligned (halign : (readS g.ctx f.a.toNat).toNat % 128 ≠ 0) : ∀ i ∈ [Instr.ctxsv f, .ctxld f],
    exec i s = .next (raise (setGroup s h (ended g)) h
      (badRec (ended g).ctx (effSet g.ctx g.w f.k f.kn) { code := 0x10, va := (readS g.ctx f.a.toNat).toNat })) := by
  simp only [List.forall_mem_cons]
  exact ⟨(issueHandler_eq hc x hshadow ..).trans (issueSys_bad hc _ f _ _ (ended g) rfl heff hfree _ _ (if_pos halign)),
    (issueHandler_eq hc x hshadow ..).trans (issueSys_bad hc _ f _ _ (ended g) rfl heff hfree _ _ (if_pos halign)),
    List.forall_mem_nil _⟩

variable (halign : (readS g.ctx f.a.toNat).toNat % 128 = 0)
include halign

theorem ctxsv_stores {u : State} (hstore : tryStore (setGroup s h (ended g)) h (ended g) true 128 (lineAccs (readS g.ctx f.a.toNat)
      (ctxRecord (ended g) (groupLaunch (setGroup s h (ended g)) (ended g)).rc.pocket x)) (setGroup s h (ended g)).nextId = .done u) :
    Finishes (.ctxsv f) s u h { ur := [f.a.toNat] } (cyclesOf f.u g.w (effSet g.ctx g.w f.k f.kn)) := by
  have hact : saveShadow f (setGroup s h (ended g)) h (ended g) x = .done u := by
    rw [saveShadow, show readS (ended g).ctx f.a.toNat = readS g.ctx f.a.toNat from rfl, hstore]
  exact finishes_of_done (q := ended g) hc rfl (issueHandler_eq hc x hshadow ..) heff hfree ((if_neg (not_not_intro halign)).trans hact)

theorem ctxld_loads {u v : State} {y : Ctx} {g1 : Group}
    (hrecord : recordOf (setGroup s h (ended g)) h (ended g) x (readS g.ctx f.a.toNat) = .inr (y, u)) (hg1 : groupOf u h = some g1)
    (htake : takeShadow u h g1 x y = .done v) :
    Finishes (.ctxld f) s v h { ur := [f.a.toNat] } (cyclesOf f.u g.w (effSet g.ctx g.w f.k f.kn)) := by
  have hact : loadShadow f (setGroup s h (ended g)) h (ended g) x = .done v := by
    rw [loadShadow, show readS (ended g).ctx f.a.toNat = readS g.ctx f.a.toNat from rfl, hrecord]
    simp only [hg1, htake]
  exact finishes_of_done (q := ended g) hc rfl (issueHandler_eq hc x hshadow ..) heff hfree ((if_neg (not_not_intro halign)).trans hact)

end ContextRecords

variable (hfree : blocked (ended g).ctx ((formIo f).under (effSet g.ctx g.w f.k f.kn)) = false)
include hfree

theorem killt_finishes {u : State} (hact : killtAct f (setGroup s h (ended g)) h (ended g) = .done u) :
    Finishes (.killt f) s u h (formIo f) (cyclesOf f.u g.w (effSet g.ctx g.w f.k f.kn)) :=
  finishes_of_done (q := ended g) hc rfl (issueHandler_eq hc x hshadow ..) heff hfree hact

theorem killt_finds_none (hteam : killtTeam (setGroup s h (ended g)) (ended g) f = none) :
    Finishes (.killt f) s (setGroup s h (ended g)) h (formIo f) (cyclesOf f.u g.w (effSet g.ctx g.w f.k f.kn)) :=
  killt_finishes hc hshadow heff hfree (by rw [killtAct, hteam])

theorem killt_kills {t : Nat} (hteam : killtTeam (setGroup s h (ended g)) (ended g) f = some t) :
    Finishes (.killt f) s (killTeam (setGroup s h (ended g)) t (killtWhy g f) h) h (formIo f)
      (cyclesOf f.u g.w (effSet g.ctx g.w f.k f.kn)) := by
  refine killt_finishes hc hshadow heff hfree ?_
  rw [killtAct, hteam]
  rfl

theorem exec_tlbi_begins (hphase : g.ctx.phase = 0) : exec (.tlbi f) s = .next (modCtx (beginInval (setGroup s h (ended g)) (some h)
    (partOf s (groupPart s g)).cores (some (groupPart s g)) (tlbiScope s g f.mod.toNat (readS g.ctx f.a.toNat))) h
    fun x => { x with phase := 1 }) :=
  (issueHandler_eq hc x hshadow ..).trans (issueSys_wait hc _ f _ _ (ended g) rfl heff hfree _ (if_pos hphase))

theorem exec_tlbi_waits (hphase : g.ctx.phase ≠ 0) (hunder : ∃ v ∈ s.invals, v.who = some h) :
    exec (.tlbi f) s = .next (setGroup s h (ended g)) := by
  have hunder' : (s.invals.any fun v => v.who = some h) = true := by simpa using hunder
  exact (issueHandler_eq hc x hshadow ..).trans
    (issueSys_wait hc _ f _ _ (ended g) rfl heff hfree _ ((if_neg hphase).trans (if_pos hunder')))

theorem tlbi_completes (hphase : g.ctx.phase ≠ 0) (hover : ∀ v ∈ s.invals, v.who ≠ some h) :
    Finishes (.tlbi f) s (setGroup s h (ended g)) h (formIo f) (cyclesOf f.u g.w (effSet g.ctx g.w f.k f.kn)) := by
  have hover' : ¬(s.invals.any fun v => v.who = some h) = true := by simpa using hover
  exact finishes_of_done (q := ended g) hc rfl (issueHandler_eq hc x hshadow ..) heff hfree ((if_neg hphase).trans (if_neg hover'))

end HandlerMode

/-- Settles O44, word by word: each is a system word with its own action, and `REGION` and `COMMIT` share theirs. -/
theorem systemWordsComplete : Obligations.SystemWordsComplete := by
  unfold Obligations.SystemWordsComplete
  intro s h g f hc q eff s0 cyc a fin live
  refine ⟨⟨fun heff => ⟨region_word_empty hc rfl (exec_region f s) heff, region_word_empty hc rfl (exec_commit f s) heff⟩,
    fun hoff => ⟨region_word_off hc rfl (exec_region f s) hoff, region_word_off hc rfl (exec_commit f s) hoff⟩, ?_, ?_, ?_⟩, ?_, ?_, ?_⟩
  · intro ⟨hon, heff⟩ k hk
    rw [← regionCause_ended] at hk
    subst hk
    refine ⟨region_word_faults hc rfl (exec_region f s) hon heff, fun hcause hwins htx => ?_⟩
    obtain ⟨t, hexec, ⟨g', hg', ⟨hv, -, -, hshape⟩, -⟩, helse⟩ := exec_region_opens hc hon heff hcause hwins htx
    have hmem := helse.mem_lines.1
    refine ⟨t, g', hexec, hg', by rw [hshape]; rfl, by rw [hshape]; rfl, by rw [hshape]; rfl, fun n th => ?_, ?_⟩
    · rw [hv n th]
      simp [lrTakes, lastV]
      rfl
    · rw [hmem]
      exact modGroup_keeps_mem ..
  · intro ⟨hon, heff⟩ k hk
    rw [← commitCause_ended] at hk
    subst hk
    exact ⟨region_word_faults hc rfl (exec_commit f s) hon heff, fun hcause => region_word_acts hc rfl (exec_commit f s) hon heff hcause rfl⟩
  · intro u g1 sl hg1 hopen hnear hpend
    exact endRegion_spec u h g1 hg1 hopen sl ⟨hnear, hpend⟩
  · intro hfree heff
    exact ⟨fun hd => finishes_of_done (q := ended g) hc rfl (exec_wrs f s) heff hfree (if_pos hd),
      fun hd => finishes_of_done (q := ended g) hc rfl (exec_wrs f s) heff hfree (if_neg hd)⟩
  · intro p hfree heff
    exact finishes_of_done (q := p) hc rfl (exec_event f s) heff hfree rfl
  · intro x hshadow heff io
    refine ⟨fun hfree => ⟨context_word_misaligned hc hshadow heff hfree, fun halign u hstore => ctxsv_stores hc hshadow heff hfree halign hstore,
      fun halign y u g1 v hrecord hg1 htake => ⟨ctxld_loads hc hshadow heff hfree halign hrecord hg1 htake, takeShadow_spec u v h g1 x y htake⟩⟩, ?_⟩
    have hio : io (f.mod ≠ 0) = formIo f := formIo_eq f
    rw [hio]
    intro hfree tm
    exact ⟨killt_finds_none hc hshadow heff hfree, fun t hteam => killt_kills hc hshadow heff hfree hteam,
      fun hphase => ⟨_, exec_tlbi_begins hc hshadow heff hfree hphase, tlbi_begins s0 h q (groupOf_setGroup_self ..) ..⟩,
      exec_tlbi_waits hc hshadow heff hfree, tlbi_completes hc hshadow heff hfree⟩

end Sys2Proof.Machine
end

section
/-! The task words (09 R229 to R238): with E empty each only goes on; else its checks fault, or it acts once its transactions are
doomed and its region has fallen back. -/

namespace Sys2Proof.Machine

open Sys2Proof.Claims

/-- A word's effects leave `u`, and it completes there with the result `r`. -/
def CompletesIn (i : Instr) (s u : State) (h : Nat) (io : Io) (cyc : Nat) (r : Res) : Prop :=
  ∀ g', groupOf u h = some g' → ∃ t, exec i s = .next t ∧ Retired u h g' io 1 cyc r t

theorem completesIn_of_retire {i : Instr} {s u : State} {h cyc : Nat} {io : Io} {r : Res}
    (hexec : ∀ g', groupOf u h = some g' → exec i s = .next (retire u h g' io 1 cyc r)) : CompletesIn i s u h io cyc r :=
  fun g' hg' => ⟨_, hexec g' hg', retire_spec ..⟩

/-- A word that changes nothing before it completes. -/
theorem completesIn_at_start {i : Instr} {s : State} {h cyc : Nat} {q : Group} {io : Io} {r : Res}
    (hexec : exec i s = .next (retire (setGroup s h q) h q io 1 cyc r)) : CompletesIn i s (setGroup s h q) h io cyc r :=
  completesIn_of_retire fun g' hg' => by
    cases (groupOf_setGroup_self s h q).symm.trans hg'
    exact hexec

section Gate

variable {α : Type} {b : Bool} {p : Prop} [Decidable p] {waits empty goes : α} (hfree : b = false)
include hfree

/-- A word that waits for no result and has no thread in E. -/
theorem gate_empty (hempty : p) : (if b then waits else if p then empty else goes) = empty := by
  rw [hfree, if_neg Bool.false_ne_true, if_pos hempty]

/-- A word that waits for no result and has some thread in E. -/
theorem gate_goes (hsome : ¬p) : (if b then waits else if p then empty else goes) = goes := by
  rw [hfree, if_neg Bool.false_ne_true, if_neg hsome]

end Gate

/-- What a task word does before it acts: its threads' transactions are doomed, and its group's region falls back. -/
def closeOpen (s : State) (h : Nat) (eff : Word) : State := fallBack (forbid s h eff) h

/-- A future that is neither resolved nor faulted is in a state below 7 (09 R227). -/
theorem endedState_of_lt {w : Word} (hstate : futState w < 7) : endedState w = false := decide_eq_false (Nat.not_le.2 hstate)

/-- The cause for which a word that only looks at a future refuses it (09 R234). -/
def lookWhy : State → Group → List (Nat × Part) → Nat → Part → Option Nat :=
  fun s _ _ _ p => if badState (partWord s p) then some 5 else none

/-- The accesses of a word to the futures of its threads. -/
def futAccs (g : Group) (f : FOps) : List Acc :=
  accsOf (ended g).ctx g.w f false none (effSet g.ctx g.w f.k f.kn) (fun _ => 0) fun _ => 0

section TaskWords

variable {s : State} {h : Nat} {g : Group} {f : FOps} (hc : current s = some (h, g))

/-! ### `FUTNEW` and `RESOLVE` -/

/-- What `FUTNEW` does to the words of its sites: each is unresolved under the task there, which owns it (09 R229). -/
def futnewActs (f : FOps) (eff : Word) (s : State) (h : Nat) (g : Group) (ps : List (Nat × Part)) : Option State :=
  let part := groupPart s g
  some (each ps s fun s (t, p) =>
    let id := siteTask g.ctx f.u eff t
    ownAdd (partPut s h g.core p (ownedWord 1 id)) part id (partPa p))

/-- What `RESOLVE` does to the words of its sites: a release of each, which its task owns no more (09 R230). -/
def resolveActs (f : FOps) (eff : Word) (s : State) (h : Nat) (g : Group) (ps : List (Nat × Part)) : Option State :=
  let part := groupPart s g
  if !ps.all fun q => canRelease s q.2.la then none
  else some (each ps s fun s (t, p) =>
    let data := if f.u then (readS g.ctx f.c.toNat).toNat else readRun g.ctx f.c.toNat 2 t
    let s := partPut (addRecord s g.core p.la) h g.core p (resolvedWord f.mod.toNat data)
    ownDel s part (siteTask g.ctx f.u eff t) (partPa p))

/-- The registers `RESOLVE` uses. -/
def resolveIo (f : FOps) : Io := (ioAddr f false).join (ioSrc f.u f.c.toNat (if f.u then 1 else 2) f.lrC)

theorem futnewActs_eq (f : FOps) (eff : Word) (s : State) (h : Nat) (g : Group) (ps : List (Nat × Part)) :
    futnewActs f eff s h g ps = some (each ps s fun v e =>
      let id := siteTask g.ctx f.u eff e.1
      ownAdd (partPut v h g.core e.2 (.ofNat 64 (1 * 2 ^ 60 + id % 2 ^ 28 * 2 ^ 32))) (groupPart s g) id (partPa e.2)) := rfl

theorem resolveActs_eq (f : FOps) (eff : Word) (s : State) (h : Nat) (g : Group) (ps : List (Nat × Part))
    (hrelease : ∀ e ∈ ps, canRelease s e.2.la = true) : resolveActs f eff s h g ps = some (each ps s fun v e =>
      let data := if f.u then (readS g.ctx f.c.toNat).toNat else readRun g.ctx f.c.toNat 2 e.1
      let word : Word := .ofNat 64 ((8 + f.mod.toNat % 8) * 2 ^ 60 + data % 2 ^ 60)
      ownDel (partPut (addRecord v g.core e.2.la) h g.core e.2 word) (groupPart s g) (siteTask g.ctx f.u eff e.1) (partPa e.2)) :=
  if_neg (Bool.eq_false_iff.1 (congrArg (!·) (List.all_eq_true.2 hrelease)))

theorem exec_futnew (f : FOps) (s : State) :
    exec (.futnew f) s = issueFut s f (ioAddr f false) (fun s _ _ => (true, s)) (futnewWhy f.u) (futnewActs f) := rfl

theorem exec_resolve (f : FOps) (s : State) :
    exec (.resolve f) s = issueFut s f (resolveIo f) (fun s _ g => (settled g.ctx && g.out.isEmpty, s)) (ownWhy f.u) (resolveActs f) := rfl

section Futures

variable {i : Instr} {io : Io} {ready : State → Nat → Group → Bool × State}
  {why : Word → State → Group → List (Nat × Part) → Nat → Part → Option Nat}
  {acts : Word → State → Nat → Group → List (Nat × Part) → Option State} (hexec : exec i s = issueFut s f io ready why acts)
  (hfree : blocked (ended g).ctx (io.under (effSet g.ctx g.w f.k f.kn)) = false)
include hc hexec hfree

theorem futWord_empty (heff : effSet g.ctx g.w f.k f.kn = 0) :
    CompletesIn i s (setGroup s h (ended g)) h io (cyclesOf f.u g.w (effSet g.ctx g.w f.k f.kn)) {} :=
  completesIn_of_retire fun g' hg' => hexec.trans (issueFut_empty s h g f io ready why acts hc heff hfree g' hg')

variable (heff : effSet g.ctx g.w f.k f.kn ≠ 0)
include heff

theorem futWord_faults {b : Bad} {u : State}
    (htry : futTry (setGroup s h (ended g)) h f.u (futAccs g f) (why (effSet g.ctx g.w f.k f.kn)) = .bad b u) :
    exec i s = .next (raise u h (badRec (ended g).ctx (effSet g.ctx g.w f.k f.kn) b)) :=
  hexec.trans (issueFut_bad s h g f io ready why acts hc heff hfree b u htry)

theorem futWord_acts {ps : List (Nat × Part)} {u v : State} {gc : Group}
    (htry : futTry (setGroup s h (ended g)) h f.u (futAccs g f) (why (effSet g.ctx g.w f.k f.kn)) = .go ps u)
    (hgc : groupOf (closeOpen u h (effSet g.ctx g.w f.k f.kn)) h = some gc)
    (hready : ready (closeOpen u h (effSet g.ctx g.w f.k f.kn)) h gc = (true, closeOpen u h (effSet g.ctx g.w f.k f.kn)))
    (hacts : acts (effSet g.ctx g.w f.k f.kn) (closeOpen u h (effSet g.ctx g.w f.k f.kn)) h gc ps = some v) :
    CompletesIn i s v h io (cyclesOf f.u g.w (effSet g.ctx g.w f.k f.kn)) {} :=
  completesIn_of_retire fun g' hg' =>
    hexec.trans (issueFut_go s h g f io ready why acts hc heff hfree ps u htry gc hgc hready v hacts g' hg')

end Futures

/-! ### `AWAIT` -/

/-- The registers `AWAIT` uses. -/
def awaitIo (f : FOps) : Io := { ur := [f.a.toNat], uw := [f.d.toNat] }

section Await

variable (hfree : blocked (ended g).ctx ((awaitIo f).under (effSet g.ctx g.w f.k f.kn)) = false)
include hc hfree

theorem await_empty (heff : effSet g.ctx g.w f.k f.kn = 0) : CompletesIn (.await_ f) s (setGroup s h (ended g)) h (awaitIo f) 1 {} :=
  completesIn_at_start <| by
    change execAwait f s = _
    simp only [execAwait, hc]
    exact gate_empty hfree heff

variable (heff : effSet g.ctx g.w f.k f.kn ≠ 0)
include heff

theorem await_faults {b : Bad} {u : State} (htry : futTry (setGroup s h (ended g)) h true (futAccs g f) lookWhy = .bad b u) :
    exec (.await_ f) s = .next (raise u h (badRec (ended g).ctx (effSet g.ctx g.w f.k f.kn) b)) := by
  change execAwait f s = _
  unfold futAccs lookWhy ended at htry
  simp only [execAwait, hc, effSet_endWins, htry]
  exact gate_goes hfree heff

variable {e : Nat × Part} {ps : List (Nat × Part)} {u c : State} {gc : Group}
  (htry : futTry (setGroup s h (ended g)) h true (futAccs g f) lookWhy = .go (e :: ps) u)
  (hu : c = closeOpen u h (effSet g.ctx g.w f.k f.kn)) (hgc : groupOf c h = some gc)
include htry hu hgc

theorem exec_await_goes : exec (.await_ f) s = .next (awaitWord c f h gc e.2) := by
  subst hu
  exact await_goes s h g f hc hfree heff e ps u gc htry hgc

theorem await_returns (hstate : 7 ≤ futState (partWord c e.2))
    (hdrain : ∀ k ∈ acquireCores c gc.core e.2.la, canDrain c k = true) {a : Nat × State} (ha : a = acquireNow c gc.core e.2.la)
    (hstill : 7 ≤ futState (partWord a.2 e.2)) : CompletesIn (.await_ f) s (modCtx a.2 h fun x => { x with rv := max x.rv a.1 }) h
      (ioDst true f.d.toNat 1) 1 { wr := wrDst true f.d.toNat 1 0 (partWord a.2 e.2).toNat } := by
  subst ha
  refine completesIn_of_retire fun g' hg' => (exec_await_goes hc hfree heff htry hu hgc).trans ?_
  have hended : endedState (partWord c e.2) = true := decide_eq_true hstate
  have hended' : endedState (partWord (acquireNow c gc.core e.2.la).2 e.2) = true := decide_eq_true hstill
  simp only [awaitWord, hended, List.all_eq_true.2 hdrain, hg', hended', Bool.not_true, Bool.false_eq_true, if_false, if_true]

theorem await_parks (hstate : futState (partWord c e.2) < 2) :
    exec (.await_ f) s = .next (park c h (.await (partPa e.2) (partWord c e.2)) 0) := by
  have hopen := endedState_of_lt (w := partWord c e.2) (by omega)
  have hruns : ¬(futState (partWord c e.2) = 2 || futState (partWord c e.2) = 3) = true := by
    simp only [Bool.or_eq_true, decide_eq_true_eq]; omega
  rw [exec_await_goes hc hfree heff htry hu hgc, awaitWord, hopen, if_neg Bool.false_ne_true, if_neg hruns, parkOn]

/-- What is done for an owner that does not run (09 R234, R235). -/
theorem await_helps (hstate : futState (partWord c e.2) = 2 ∨ futState (partWord c e.2) = 3) {claimed : State}
    (hclaimed : claimed = partPut c h gc.core e.2 (.ofNat 64 (2 ^ 60 + (partWord c e.2).toNat % 2 ^ 60))) :
    (∀ l r, helpFor c gc (groupPart c gc) (partWord c e.2) = .record l r →
      exec (.await_ f) s = .next (adoptRecord claimed h gc (groupPart c gc) l r))
    ∧ (∀ o og, helpFor c gc (groupPart c gc) (partWord c e.2) = .group o og →
      exec (.await_ f) s = .next (adoptParked claimed h gc (groupPart c gc) o og (futOwner (partWord c e.2))))
    ∧ ∀ n, helpFor c gc (groupPart c gc) (partWord c e.2) = .regs n → exec (.await_ f) s = .next (parkRegs c h gc n) := by
  subst hclaimed
  have hopen := endedState_of_lt (w := partWord c e.2) (by omega)
  have hidle : (futState (partWord c e.2) = 2 || futState (partWord c e.2) = 3) = true := by
    simpa only [Bool.or_eq_true, decide_eq_true_eq] using hstate
  rw [exec_await_goes hc hfree heff htry hu hgc]
  refine ⟨fun l r hhelp => ?_, fun o og hhelp => ?_, fun n hhelp => ?_⟩ <;>
    simp only [awaitWord, hopen, Bool.false_eq_true, if_false, hidle, if_true, hhelp]

end Await

/-! ### `SPAWN` -/

/-- The registers `SPAWN` uses. -/
def spawnIo (f : FOps) : Io :=
  { ur := [f.a.toNat], vr := run f.b.toNat f.c.toNat, vw := [f.d.toNat], lr := if f.lrB then run f.b.toNat f.c.toNat else [] }

/-- The threads that a `SPAWN` places records for. -/
def spawnThreads (g : Group) (f : FOps) : List Nat := threadsOf g.w (spawnLeft (ended g).ctx (effSet g.ctx g.w f.k f.kn))

/-- The accesses to the futures that those threads hand over. -/
def spawnAccs (g : Group) (f : FOps) : List Acc :=
  if f.mod = 1 then (spawnThreads g f).map fun t => { t := t, ea := .ofNat 64 (readRun (ended g).ctx f.b.toNat 2 t) } else []

section Spawn

variable (hfree : blocked (ended g).ctx ((spawnIo f).under (effSet g.ctx g.w f.k f.kn)) = false)
include hc hfree

theorem spawn_empty (heff : effSet g.ctx g.w f.k f.kn = 0) :
    CompletesIn (.spawn f) s (setGroup s h (ended g)) h (spawnIo f) (laneCycles g.w (effSet g.ctx g.w f.k f.kn)) {} :=
  completesIn_at_start <| by
    change execSpawn f s = _
    simp only [execSpawn, hc]
    exact gate_empty hfree heff

variable (heff : effSet g.ctx g.w f.k f.kn ≠ 0)
include heff

theorem spawn_bad_entry (hentry : goodPc (readS (ended g).ctx f.a.toNat) = false) : exec (.spawn f) s
    = .next (raise (setGroup s h (ended g)) h (badRec (ended g).ctx (effSet g.ctx g.w f.k f.kn) { code := 0x29, cause := 1 })) := by
  change execSpawn f s = _
  simp only [execSpawn, hc]
  exact (gate_goes hfree heff).trans (if_pos (congrArg (!·) hentry))

variable (hentry : goodPc (readS (ended g).ctx f.a.toNat) = true)
  (hroom : allocCheck (setGroup s h (ended g)) h (ended g) (allocNeed (ended g).ctx (spawnIo f) (spawnIo f).vw).1
    (allocNeed (ended g).ctx (spawnIo f) (spawnIo f).vw).2 = .ok)
include hentry hroom

theorem spawn_faults {b : Bad} {u : State}
    (htry : futTry (setGroup s h (ended g)) h false (spawnAccs g f) (ownWhy false (effSet g.ctx g.w f.k f.kn)) = .bad b u) :
    exec (.spawn f) s = .next (raise u h (badRec (ended g).ctx (effSet g.ctx g.w f.k f.kn) b)) := by
  refine (spawn_goes s h g f hc hfree heff hentry).trans ?_
  unfold spawnAccs spawnThreads at htry
  unfold spawnIo at hroom
  simp only [spawnFrom, hroom]
  rw [show (ended g).w = g.w from rfl, htry]

variable {ps : List (Nat × Part)} {u c v z : State} {gc : Group} {ids : List (Nat × Nat)} {rest : List Nat}
  (htry : futTry (setGroup s h (ended g)) h false (spawnAccs g f) (ownWhy false (effSet g.ctx g.w f.k f.kn)) = .go ps u)
  (hu : c = closeOpen u h (effSet g.ctx g.w f.k f.kn)) (hgc : groupOf c h = some gc) (hpass : passReady c h gc = (true, v))
  (hspawn : spawnAll v h gc f ps (spawnThreads g f) [] = (ids, rest, z))
include htry hu hgc hpass hspawn

theorem exec_spawn_ends : exec (.spawn f) s = .next (spawnEnd z h f (spawnIo f) (effSet g.ctx g.w f.k f.kn) ids rest) := by
  subst hu
  refine (spawn_goes s h g f hc hfree heff hentry).trans ?_
  unfold closeOpen at hgc hpass
  unfold spawnAccs spawnThreads at htry
  unfold spawnThreads at hspawn
  unfold spawnIo at hroom
  simp only [spawnFrom, hroom]
  rw [show (ended g).w = g.w from rfl, htry]
  simp only [hgc, hpass, hspawn, Bool.not_true, Bool.false_eq_true, if_false]
  rfl

end Spawn

/-- A `SPAWN` whose records were all placed: the threads of E with a new task get its id, the others keep their register. -/
theorem spawnEnd_all {z : State} {h : Nat} {g' : Group} (f : FOps) (io : Io) (eff : Word) (ids : List (Nat × Nat)) (hg' : groupOf z h = some g') :
    spawnEnd z h f io eff ids [] = retire z h { g' with ctx := { g'.ctx with spawnRem := 0 } } io 1 (laneCycles g'.w eff)
      { wr := (((threadsOf g'.w eff).filter fun t => !ids.any fun e => e.1 = t).map fun t =>
            wrDst false f.d.toNat 1 t (readV g'.ctx f.d.toNat t).toNat).flatten
          ++ (ids.map fun e => wrDst false f.d.toNat 1 e.1 e.2).flatten } := by
  simp only [spawnEnd, hg']
  rfl

/-! ### `PARK` -/

/-- The registers `PARK` uses. -/
def parkIo (f : FOps) : Io := if f.mod = 1 then { ur := [f.a.toNat] } else {}

/-- The access of a `PARK` that names a future. -/
def parkAccs (g : Group) (f : FOps) : List Acc := if f.mod = 1 then futAccs g f else []

section Park

variable (hfree : blocked (ended g).ctx ((parkIo f).under (effSet g.ctx g.w f.k f.kn)) = false)
include hc hfree

theorem park_empty (heff : effSet g.ctx g.w f.k f.kn = 0) : CompletesIn (.park f) s (setGroup s h (ended g)) h (parkIo f) 1 {} :=
  completesIn_at_start <| by
    change execPark f s = _
    simp only [execPark, hc]
    exact gate_empty hfree heff

variable (heff : effSet g.ctx g.w f.k f.kn ≠ 0)
include heff

theorem park_faults {b : Bad} {u : State} (htry : futTry (setGroup s h (ended g)) h true (parkAccs g f) lookWhy = .bad b u) :
    exec (.park f) s = .next (raise u h (badRec (ended g).ctx (effSet g.ctx g.w f.k f.kn) b)) := by
  refine (park_goes s h g f hc hfree heff).trans ?_
  unfold parkAccs futAccs lookWhy at htry
  simp only [parkFrom]
  rw [show (ended g).w = g.w from rfl, htry]

theorem park_leaves {ps : List (Nat × Part)} {u c v : State} {gc g' : Group}
    (htry : futTry (setGroup s h (ended g)) h true (parkAccs g f) lookWhy = .go ps u)
    (hu : c = closeOpen u h (effSet g.ctx g.w f.k f.kn)) (hgc : groupOf c h = some gc) (hpass : passReady c h gc = (true, v))
    (hout : gc.out = []) (hg' : groupOf v h = some g') :
    exec (.park f) s = .next (leaveSlot v h g' (ps.head?.map fun e => partPa e.2)) := by
  subst hu
  refine (park_goes s h g f hc hfree heff).trans ?_
  unfold parkAccs futAccs lookWhy at htry
  unfold closeOpen at hgc hpass
  simp only [parkFrom]
  rw [show (ended g).w = g.w from rfl, htry]
  simp only [hgc, hpass, hout, hg', List.isEmpty_nil, Bool.not_true, Bool.or_self, Bool.false_eq_true, if_false]

end Park

/-! ### `STEAL` -/

/-- The registers `STEAL` uses. -/
def stealIo (f : FOps) : Io := { ur := [f.a.toNat] ++ (if f.x0 then [] else [f.b.toNat]), uw := [f.d.toNat] }

/-- The core that a `STEAL` takes records from, if any holds some (09 R237). -/
def stealSource (s : State) (g : Group) (f : FOps) : Option Nat :=
  if f.x0 then fullest s (dieOf g.core) (launchIdOf s g) (readS g.ctx f.a.toNat) else some (readS g.ctx f.b.toNat).toNat

theorem stealBy_none {s : State} {g : Group} {f : FOps} (hsrc : stealSource s g f = none) : stealBy s g f = (0, s) := by
  unfold stealSource at hsrc
  simp only [stealBy, hsrc]

theorem stealBy_some {s : State} {g : Group} {f : FOps} {k : Nat} (hsrc : stealSource s g f = some k) :
    stealBy s g f = stealFrom s (groupPart s g) g.core k (launchIdOf s g) (readS g.ctx f.a.toNat) := by
  unfold stealSource at hsrc
  simp only [stealBy, hsrc]

section Steal

variable (hfree : blocked (ended g).ctx ((stealIo f).under (effSet g.ctx g.w f.k f.kn)) = false)
include hc hfree

theorem steal_empty (heff : effSet g.ctx g.w f.k f.kn = 0) : CompletesIn (.steal f) s (setGroup s h (ended g)) h (stealIo f) 1 {} :=
  completesIn_at_start <| by
    change execSteal f s = _
    simp only [execSteal, hc]
    exact gate_empty hfree heff

theorem steal_returns (heff : effSet g.ctx g.w f.k f.kn ≠ 0) {gc : Group} {c : State}
    (hu : c = closeOpen (setGroup s h (ended g)) h (effSet g.ctx g.w f.k f.kn)) (hgc : groupOf c h = some gc) {r : Nat × State}
    (hr : stealBy c gc f = r) : ∃ t, exec (.steal f) s = .next t
      ∧ Retired r.2 h gc (stealIo f) 1 1 { wr := wrDst true f.d.toNat 1 0 r.1 } t := by
  subst hu hr
  refine ⟨_, ?_, retire_spec ..⟩
  change execSteal f s = _
  unfold closeOpen ended at hgc
  simp only [execSteal, hc, effSet_endWins, hgc]
  exact gate_goes hfree heff

end Steal

/-! ### `ROLE` -/

/-- The registers `ROLE` uses. -/
def roleIo (f : FOps) : Io := { ur := [f.a.toNat, f.a.toNat + 1], uw := [f.a.toNat, f.a.toNat + 1] }

section Role

variable (hfree : blocked (ended g).ctx ((roleIo f).under (effSet g.ctx g.w f.k f.kn)) = false)
include hc hfree

theorem role_empty (heff : effSet g.ctx g.w f.k f.kn = 0) : CompletesIn (.role f) s (setGroup s h (ended g)) h (roleIo f) 1 {} :=
  completesIn_at_start <| by
    change execRole f s = _
    simp only [execRole, hc]
    exact gate_empty hfree heff

variable (heff : effSet g.ctx g.w f.k f.kn ≠ 0)
include heff

theorem role_out_of_range (hrole : roleOk (readS (ended g).ctx f.a.toNat) (readS (ended g).ctx (f.a.toNat + 1)) = false) :
    exec (.role f) s
      = .next (raise (setGroup s h (ended g)) h (badRec (ended g).ctx (effSet g.ctx g.w f.k f.kn) { code := 0x29, cause := 2 })) := by
  change execRole f s = _
  simp only [execRole, hc]
  exact (gate_goes hfree heff).trans (if_pos (congrArg (!·) hrole))

variable (hrole : roleOk (readS (ended g).ctx f.a.toNat) (readS (ended g).ctx (f.a.toNat + 1)) = true)
include hrole

theorem role_too_small (hmapped : bits (readS (ended g).ctx (f.a.toNat + 1)).toNat 6 0 < (ended g).ctx.v.length) : exec (.role f) s
    = .next (raise (setGroup s h (ended g)) h (badRec (ended g).ctx (effSet g.ctx g.w f.k f.kn) { code := 0x07 })) := by
  change execRole f s = _
  simp only [execRole, hc]
  exact (gate_goes hfree heff).trans ((if_neg (Bool.eq_false_iff.1 (congrArg (!·) hrole))).trans (if_pos hmapped))

/-- The role swapped in, with the state it is swapped in at (09 R238). -/
theorem role_swaps (hmapped : (ended g).ctx.v.length ≤ bits (readS (ended g).ctx (f.a.toNat + 1)).toNat 6 0) {gc : Group} {u : State}
    (hu : u = fallBack (setGroup s h (ended g)) h) (hgc : groupOf u h = some gc) {x : Ctx}
    (hx : x = { gc.ctx with
      allot := bits (readS (ended g).ctx (f.a.toNat + 1)).toNat 6 0, entry := readS (ended g).ctx f.a.toNat
      cls := max (bits (readS (ended g).ctx (f.a.toNat + 1)).toNat 9 8) (groupLaunch u gc).rc.cls }) :
    exec (.role f) s = .next (retire u h { gc with ctx := x } (roleIo f) 1 1
      { wr := wrDst true f.a.toNat 1 0 (ended g).ctx.entry.toNat
          ++ wrDst true (f.a.toNat + 1) 1 0 (256 * (ended g).ctx.cls + (ended g).ctx.allot) }) := by
  subst hu hx
  change execRole f s = _
  unfold ended at hgc
  simp only [execRole, hc, hgc]
  exact (gate_goes hfree heff).trans ((if_neg (Bool.eq_false_iff.1 (congrArg (!·) hrole))).trans (if_neg (Nat.not_lt.2 hmapped)))

end Role

end TaskWords

/-- Settles O50, word by word: each with E empty, by the fault of its checks, and by what it does once they pass. -/
theorem taskWordsComplete : Obligations.TaskWordsComplete := by
  unfold Obligations.TaskWordsComplete
  intro s h g f hc q eff s0 lanes cyc accs clean free fin badBy ioR ioA args ioS ioP ioT ioL entry
  refine ⟨fun heff => ?_, fun heff => ⟨fun hfree => ?_, fun hfree => ?_, fun hfree => ?_, fun hfree => ?_, fun hfree => ?_,
    fun hfree gc hgc => ?_, fun hfree => ?_⟩⟩
  · simp only [List.forall_mem_cons]
    exact ⟨fun hfree => futWord_empty hc (exec_futnew f s) hfree heff, fun hfree => futWord_empty hc (exec_resolve f s) hfree heff,
      fun hfree => await_empty hc hfree heff, fun hfree => spawn_empty hc hfree heff, fun hfree => park_empty hc hfree heff,
      fun hfree => steal_empty hc hfree heff, fun hfree => role_empty hc hfree heff, List.forall_mem_nil _⟩
  · exact ⟨fun b u htry => futWord_faults hc (exec_futnew f s) hfree heff htry,
      fun ps u gc htry hgc => futWord_acts hc (exec_futnew f s) hfree heff htry hgc rfl (futnewActs_eq ..)⟩
  · refine ⟨fun b u htry => futWord_faults hc (exec_resolve f s) hfree heff htry,
      fun ps u gc htry hgc hsettled hout hrelease => futWord_acts hc (exec_resolve f s) hfree heff htry hgc ?_ ?_⟩
    · rw [hsettled, hout]
      rfl
    · exact resolveActs_eq f eff _ h gc ps hrelease
  · exact ⟨fun b u htry => await_faults hc hfree heff htry, fun e ps u gc htry hgc => ⟨
      fun hstate hdrain a ha hstill => await_returns hc hfree heff htry rfl hgc hstate hdrain ha hstill,
      await_parks hc hfree heff htry rfl hgc, fun hstate => await_helps hc hfree heff htry rfl hgc hstate rfl⟩⟩
  · refine ⟨spawn_bad_entry hc hfree heff, fun hentry hroom => ⟨fun b u htry => spawn_faults hc hfree heff hentry hroom htry,
      fun ps u gc v ids rest z htry hgc hpass hspawn => ?_⟩⟩
    have hends := exec_spawn_ends hc hfree heff hentry hroom htry rfl hgc hpass hspawn
    refine ⟨fun _ => hends, fun hrest g' hg' => ⟨_, hends.trans ?_, retire_spec ..⟩⟩
    rw [hrest, spawnEnd_all f _ _ ids hg']
    rfl
  · exact ⟨fun b u htry => park_faults hc hfree heff htry,
      fun ps u gc v g' htry hgc hpass hout hg' => park_leaves hc hfree heff htry rfl hgc hpass hout hg'⟩
  · exact ⟨fun hsrc _ => steal_returns hc hfree heff rfl hgc (stealBy_none hsrc),
      fun c hsrc _ => steal_returns hc hfree heff rfl hgc (stealBy_some hsrc)⟩
  · exact ⟨role_out_of_range hc hfree heff, role_too_small hc hfree heff,
      fun hrole hmapped gc hgc => ⟨_, role_swaps hc hfree heff hrole hmapped rfl hgc rfl, retire_spec ..⟩⟩

end Sys2Proof.Machine
end
section
/-! Memory right after reset, and a line of the stacks read after a write (10 R265). -/

namespace Sys2Proof.Machine

theorem peek_nil (a : Nat) : peek [] a = 0 := rfl

theorem peeks_nil (a n : Nat) : peeks [] a n = List.replicate n 0 := by
  induction n generalizing a with
  | zero => rfl
  | succ n ih => rw [peeks, ih, List.replicate_succ, peek_nil]

theorem readSector_reset (sec slot : Nat) : readSector State.reset sec slot = 0 := by
  have hplain : BitVec.ofNat 256 (leNat (peeks State.reset.mem (32 * sec) 32)) = 0 := by
    change BitVec.ofNat 256 (leNat (peeks [] (32 * sec) 32)) = 0
    rw [peeks_nil]
    rfl
  unfold readSector
  rw [hplain]
  exact ite_self _

theorem memLine_reset (la slot : Nat) : memLine State.reset la slot = 0 := by
  unfold memLine
  rw [readSector_reset, readSector_reset, readSector_reset, readSector_reset, BitVec.ofNat_eq_ofNat, BitVec.zero_append_zero,
    BitVec.zero_append_zero, BitVec.zero_append_zero]
  rfl

/-- Key slot 0 alone is live after reset (21 R380). -/
theorem keySlot_reset (k : Nat) :
    (look State.reset.keys k {}).live = decide (k = 0) ∧ (look State.reset.keys k {}).bound = [] := by
  by_cases hk : k = 0
  · subst hk
    exact ⟨rfl, rfl⟩
  · have hfree : look State.reset.keys k {} = {} := by
      change ((if 0 = k then some _ else none).getD _) = _
      rw [if_neg (Ne.symm hk), Option.getD_none]
    rw [hfree]
    exact ⟨(decide_eq_false hk).symm, rfl⟩

/-- A bit of a sector of a line just written, under the slot of the write. -/
theorem readSector_memWrite_bit (s : State) (la slot : Nat) (d : LineData) (k : ByteMask) {i j : Nat} (hi : i < 4) (hj : j < 256) :
    (readSector (memWrite s la slot d k) (4 * la + i) slot).getLsbD j
      = if k.getLsbD ((256 * i + j) / 8) then d.getLsbD (256 * i + j) else (readSector s (4 * la + i) slot).getLsbD j := by
  have hother {a b : Nat} (hne : a ≠ b) : 4 * la + a ≠ 4 * la + b := fun h => hne (Nat.add_left_cancel h)
  have hwritten (u : State) := readSector_bit u la i slot d k hi j hj
  unfold memWrite
  match i, hi with
  | 0, _ => rw [readSector_other _ _ _ _ _ _ _ _ (hother (by decide)), readSector_other _ _ _ _ _ _ _ _ (hother (by decide)),
      readSector_other _ _ _ _ _ _ _ _ (hother (by decide)), hwritten]
  | 1, _ => rw [readSector_other _ _ _ _ _ _ _ _ (hother (by decide)), readSector_other _ _ _ _ _ _ _ _ (hother (by decide)),
      hwritten, readSector_other _ _ _ _ _ _ _ _ (hother (by decide))]
  | 2, _ => rw [readSector_other _ _ _ _ _ _ _ _ (hother (by decide)), hwritten,
      readSector_other _ _ _ _ _ _ _ _ (hother (by decide)), readSector_other _ _ _ _ _ _ _ _ (hother (by decide))]
  | 3, _ => rw [hwritten, readSector_other _ _ _ _ _ _ _ _ (hother (by decide)),
      readSector_other _ _ _ _ _ _ _ _ (hother (by decide)), readSector_other _ _ _ _ _ _ _ _ (hother (by decide))]

/-- A line read back under the slot of a write (10 R265). -/
theorem memLine_memWrite (s : State) (la slot : Nat) (d : LineData) (k : ByteMask) :
    memLine (memWrite s la slot d k) la slot = mergeLine (memLine s la slot) d k := by
  apply BitVec.eq_of_getLsbD_eq
  intro n hn
  have hi : n / 256 < 4 := by omega
  have hj : n % 256 < 256 := Nat.mod_lt _ (by decide)
  rw [mergeLine_bit, ← Nat.div_add_mod n 256, memLine_bit _ _ _ _ _ hi hj, memLine_bit _ _ _ _ _ hi hj,
    readSector_memWrite_bit _ _ _ _ _ hi hj]

theorem readSector_memWrite_other (s : State) (la slot : Nat) (d : LineData) (k : ByteMask) (sec slot' : Nat)
    (hsec : ∀ i < 4, sec ≠ 4 * la + i) : readSector (memWrite s la slot d k) sec slot' = readSector s sec slot' := by
  unfold memWrite
  rw [readSector_other _ _ _ _ _ _ _ _ (hsec 3 (by decide)), readSector_other _ _ _ _ _ _ _ _ (hsec 2 (by decide)),
    readSector_other _ _ _ _ _ _ _ _ (hsec 1 (by decide)), readSector_other _ _ _ _ _ _ _ _ (hsec 0 (by decide))]

theorem memLine_memWrite_other (s : State) (la slot : Nat) (d : LineData) (k : ByteMask) {la' : Nat} (slot' : Nat) (hla : la' ≠ la) :
    memLine (memWrite s la slot d k) la' slot' = memLine s la' slot' := by
  have hkeeps (j : Nat) (hj : j < 4) : readSector (memWrite s la slot d k) (4 * la' + j) slot' = readSector s (4 * la' + j) slot' :=
    readSector_memWrite_other _ _ _ _ _ _ _ (by omega)
  unfold memLine
  rw [hkeeps 3 (by decide), hkeeps 2 (by decide), hkeeps 1 (by decide), show 4 * la' = 4 * la' + 0 from rfl, hkeeps 0 (by decide)]

theorem peek_writeSector_other (s : State) (la i slot : Nat) (d : LineData) (k : ByteMask) {a : Nat}
    (ha : a < 32 * (4 * la + i) ∨ 32 * (4 * la + i) + 32 ≤ a) : peek (writeSector s la i slot d k).mem a = peek s.mem a := by
  unfold writeSector
  split
  · rfl
  · exact (peek_pokes ..).trans (if_neg (by rw [lineBytes_length]; omega))

theorem peek_memWrite_other (s : State) (la slot : Nat) (d : LineData) (k : ByteMask) {a : Nat}
    (ha : a < 128 * la ∨ 128 * la + 128 ≤ a) : peek (memWrite s la slot d k).mem a = peek s.mem a := by
  unfold memWrite
  rw [peek_writeSector_other _ _ _ _ _ _ (by omega), peek_writeSector_other _ _ _ _ _ _ (by omega),
    peek_writeSector_other _ _ _ _ _ _ (by omega), peek_writeSector_other _ _ _ _ _ _ (by omega)]

/-- Settles O22: every table is empty but that of the keys, and a memory that lists nothing reads as zero. -/
theorem resetState : Obligations.ResetState := by
  unfold Obligations.ResetState
  exact ⟨rfl, rfl, rfl, rfl, rfl, rfl, rfl, rfl, rfl, rfl, rfl, rfl, fun _ => rfl, keySlot_reset, peek_nil, memLine_reset,
    fun _ => rfl⟩

/-- Settles O23: no byte is listed. -/
theorem resetMemoryCanonical : Obligations.ResetMemoryCanonical := reset_memory_wf

/-- Settles O25, sector by sector of the line. -/
theorem memoryReadsBack : Obligations.MemoryReadsBack := by
  unfold Obligations.MemoryReadsBack
  exact fun s la slot d k => ⟨memLine_memWrite s la slot d k, fun la' slot' hla => memLine_memWrite_other s la slot d k slot' hla,
    fun a ha => peek_memWrite_other s la slot d k ha⟩

end Sys2Proof.Machine
end

section
/-! The canonical form of memory as a property of whatever carries a state: states, outcomes, and the results of the model's
operations. -/

namespace Sys2Proof.Machine

/-- Memory is in its canonical form (log entry 2). -/
def Canonical (s : State) : Prop := Memory.wf s.mem = true

/-- The next state that an outcome answers, where it answers one, is canonical. -/
def NextCanonical : Host.Outcome State Fault Refusal → Prop
  | .next t => Canonical t
  | .fault _ | .refused _ => True

/-- What an option holds, where it holds anything, has a property. -/
def WhenSome {α : Type} (P : α → Prop) : Option α → Prop
  | some a => P a
  | none => True

/-- What a computation answers, where it answers no error, has a property. -/
def WhenOk {ε α : Type} (P : α → Prop) : Except ε α → Prop
  | .ok a => P a
  | .error _ => True

/-- Whichever of two results is answered has its property. -/
def Either {α β : Type} (P : α → Prop) (Q : β → Prop) : α ⊕ β → Prop
  | .inl a => P a
  | .inr b => Q b

/-- The state that a system word's action leaves is canonical. -/
def ActCanonical : Act → Prop
  | .done s | .bad _ s | .wait s => Canonical s

/-- The state that trying a store leaves is canonical. -/
def TryCanonical : Try → Prop
  | .done s | .bad _ s | .wait s => Canonical s

/-- The state that checking future words leaves is canonical. -/
def FutTryCanonical : FutTry → Prop
  | .go _ s | .bad _ s | .wait s => Canonical s

/-- The state that a marked word leaves is canonical. -/
def CoreWordCanonical : CoreWord → Prop
  | .on s | .bad s | .wait s => Canonical s

/-- The state that an engine's operation leaves, where it is performed, is canonical. -/
def EngCanonical : Eng → Prop
  | .op _ s => Canonical s
  | .done | .stop _ => True

theorem Beyond.canonical {s t : State} (h : Beyond s t) (hs : Canonical s) : Canonical t := h.2 hs

section Carriers

variable {α β γ ε : Type} {P : α → Prop} {Q : β → Prop} {s t : State} {c : Prop} [Decidable c]

protected theorem Canonical.of_mem (hs : Canonical s) (hmem : t.mem = s.mem) : Canonical t := by
  rw [Canonical, hmem]
  exact hs

protected theorem Canonical.of_eq (he : s = t) (hs : Canonical s) : Canonical t := he ▸ hs

protected theorem Canonical.of_fst {p : State × α} {a : α} (he : p = (t, a)) (h : Canonical p.1) : Canonical t := by
  subst he
  exact h

protected theorem Canonical.of_snd {p : α × State} {a : α} (he : p = (a, t)) (h : Canonical p.2) : Canonical t := by
  subst he
  exact h

protected theorem Canonical.of_snd_snd {p : α × β × State} {a : α} {b : β} (he : p = (a, b, t)) (h : Canonical p.2.2) :
    Canonical t := by
  subst he
  exact h

protected theorem Canonical.of_snd_snd_snd {p : α × β × γ × State} {a : α} {b : β} {d : γ} (he : p = (a, b, d, t))
    (h : Canonical p.2.2.2) : Canonical t := by
  subst he
  exact h

protected theorem Canonical.ite (hs : Canonical s) (ht : Canonical t) : Canonical (if c then s else t) :=
  iteInduction (fun _ => hs) fun _ => ht

/-- What happens to a state only under a condition keeps it canonical. -/
protected theorem Canonical.also (hs : Canonical s) (ht : Canonical s → Canonical t) : Canonical (if c then t else s) :=
  .ite (ht hs) hs

protected theorem Canonical.ite_fst {p q : State × α} (hp : Canonical p.1) (hq : Canonical q.1) :
    Canonical (if c then p else q).1 :=
  iteInduction (motive := fun r : State × α => Canonical r.1) (fun _ => hp) fun _ => hq

protected theorem Canonical.ite_snd {p q : α × State} (hp : Canonical p.2) (hq : Canonical q.2) :
    Canonical (if c then p else q).2 :=
  iteInduction (motive := fun r : α × State => Canonical r.2) (fun _ => hp) fun _ => hq

protected theorem Canonical.ite_snd_snd {p q : α × β × State} (hp : Canonical p.2.2) (hq : Canonical q.2.2) :
    Canonical (if c then p else q).2.2 :=
  iteInduction (motive := fun r : α × β × State => Canonical r.2.2) (fun _ => hp) fun _ => hq

/-- A fold keeps memory canonical where each of its steps does. -/
protected theorem Canonical.each {l : List α} {f : State → α → State} (hs : Canonical s)
    (hf : ∀ u a, Canonical u → Canonical (f u a)) : Canonical (each l s f) :=
  List.foldlRecOn l f hs fun u hu a _ => hf u a hu

protected theorem Canonical.foldl {l : List α} {f : State → α → State} (hs : Canonical s)
    (hf : ∀ u a, Canonical u → Canonical (f u a)) : Canonical (l.foldl f s) := .each hs hf

protected theorem Canonical.each_fst {l : List α} {f : State × β → α → State × β} {p : State × β} (hp : Canonical p.1)
    (hf : ∀ q a, Canonical q.1 → Canonical (f q a).1) : Canonical (each l p f).1 :=
  List.foldlRecOn l f (motive := fun q => Canonical q.1) hp fun q hq a _ => hf q a hq

protected theorem Canonical.each_snd {l : List α} {f : β × State → α → β × State} {p : β × State} (hp : Canonical p.2)
    (hf : ∀ q a, Canonical q.2 → Canonical (f q a).2) : Canonical (each l p f).2 :=
  List.foldlRecOn l f (motive := fun q => Canonical q.2) hp fun q hq a _ => hf q a hq

protected theorem Canonical.each_snd_snd {l : List α} {f : β × γ × State → α → β × γ × State} {p : β × γ × State}
    (hp : Canonical p.2.2) (hf : ∀ q a, Canonical q.2.2 → Canonical (f q a).2.2) : Canonical (each l p f).2.2 :=
  List.foldlRecOn l f (motive := fun q => Canonical q.2.2) hp fun q hq a _ => hf q a hq

protected theorem Canonical.foldl_snd_snd_snd {δ : Type} {l : List α} {f : β × γ × δ × State → α → β × γ × δ × State}
    {p : β × γ × δ × State} (hp : Canonical p.2.2.2) (hf : ∀ q a, Canonical q.2.2.2 → Canonical (f q a).2.2.2) : Canonical (l.foldl f p).2.2.2 :=
  List.foldlRecOn l f (motive := fun q => Canonical q.2.2.2) hp fun q hq a _ => hf q a hq

protected theorem Canonical.foldl_snd {l : List α} {f : β × State → α → β × State} {p : β × State} (hp : Canonical p.2)
    (hf : ∀ q a, Canonical q.2 → Canonical (f q a).2) : Canonical (l.foldl f p).2 := .each_snd hp hf

protected theorem NextCanonical.of_eq {o o' : Host.Outcome State Fault Refusal} (he : o = o') (h : NextCanonical o) :
    NextCanonical o' := he ▸ h

protected theorem NextCanonical.next (hs : Canonical s) : NextCanonical (.next s) := hs
protected theorem NextCanonical.fault {r : Fault} : NextCanonical (.fault r) := trivial
protected theorem NextCanonical.refused {r : Refusal} : NextCanonical (.refused r) := trivial

protected theorem NextCanonical.ite {o o' : Host.Outcome State Fault Refusal} (h : NextCanonical o) (h' : NextCanonical o') :
    NextCanonical (if c then o else o') :=
  iteInduction (fun _ => h) fun _ => h'

protected theorem WhenSome.of_eq {o o' : Option α} (he : o = o') (h : WhenSome P o) : WhenSome P o' := he ▸ h
protected theorem WhenSome.some {a : α} (h : P a) : WhenSome P (some a) := h
protected theorem WhenSome.none : WhenSome P none := trivial

protected theorem WhenSome.ite {o o' : Option α} (h : WhenSome P o) (h' : WhenSome P o') : WhenSome P (if c then o else o') :=
  iteInduction (fun _ => h) fun _ => h'

protected theorem WhenSome.map {o : Option β} {f : β → α} (hf : ∀ b, P (f b)) : WhenSome P (o.map f) := by
  cases o with
  | none => exact .none
  | some b => exact .some (hf b)

protected theorem WhenSome.bind {o : Option β} {f : β → Option α} (hf : ∀ b, WhenSome P (f b)) : WhenSome P (o.bind f) := by
  cases o with
  | none => exact .none
  | some b => exact hf b

protected theorem WhenSome.findSome? {l : List β} {f : β → Option α} (hf : ∀ b, WhenSome P (f b)) :
    WhenSome P (l.findSome? f) := by
  induction l with
  | nil => exact .none
  | cons b l ih =>
    rw [List.findSome?_cons]
    split
    · exact .of_eq ‹_› (hf b)
    · exact ih

protected theorem WhenSome.getD {o : Option α} {a : α} (h : WhenSome P o) (ha : P a) : P (o.getD a) := by
  cases o with
  | none => exact ha
  | some b => exact h

protected theorem WhenOk.of_eq {o o' : Except ε α} (he : o = o') (h : WhenOk P o) : WhenOk P o' := he ▸ h
protected theorem WhenOk.ok {a : α} (h : P a) : WhenOk P (.ok a : Except ε α) := h
protected theorem WhenOk.error {e : ε} : WhenOk P (.error e) := trivial

protected theorem WhenOk.ite {o o' : Except ε α} (h : WhenOk P o) (h' : WhenOk P o') : WhenOk P (if c then o else o') :=
  iteInduction (fun _ => h) fun _ => h'

protected theorem WhenOk.foldl {l : List β} {f : Except ε α → β → Except ε α} {o : Except ε α} (h : WhenOk P o)
    (hf : ∀ r b, WhenOk P r → WhenOk P (f r b)) : WhenOk P (l.foldl f o) :=
  List.foldlRecOn l f h fun r hr b _ => hf r b hr

protected theorem Either.of_eq {o o' : α ⊕ β} (he : o = o') (h : Either P Q o) : Either P Q o' := he ▸ h
protected theorem Either.inl {a : α} (h : P a) : Either P Q (.inl a) := h
protected theorem Either.inr {b : β} (h : Q b) : Either P Q (.inr b) := h

protected theorem Either.ite {o o' : α ⊕ β} (h : Either P Q o) (h' : Either P Q o') : Either P Q (if c then o else o') :=
  iteInduction (fun _ => h) fun _ => h'

protected theorem ActCanonical.of_eq {o o' : Act} (he : o = o') (h : ActCanonical o) : ActCanonical o' := he ▸ h
protected theorem ActCanonical.done (hs : Canonical s) : ActCanonical (.done s) := hs
protected theorem ActCanonical.bad {b : Bad} (hs : Canonical s) : ActCanonical (.bad b s) := hs
protected theorem ActCanonical.wait (hs : Canonical s) : ActCanonical (.wait s) := hs

protected theorem ActCanonical.ite {o o' : Act} (h : ActCanonical o) (h' : ActCanonical o') :
    ActCanonical (if c then o else o') :=
  iteInduction (fun _ => h) fun _ => h'

protected theorem TryCanonical.of_eq {o o' : Try} (he : o = o') (h : TryCanonical o) : TryCanonical o' := he ▸ h
protected theorem TryCanonical.done (hs : Canonical s) : TryCanonical (.done s) := hs
protected theorem TryCanonical.bad {b : Bad} (hs : Canonical s) : TryCanonical (.bad b s) := hs
protected theorem TryCanonical.wait (hs : Canonical s) : TryCanonical (.wait s) := hs

protected theorem TryCanonical.ite {o o' : Try} (h : TryCanonical o) (h' : TryCanonical o') :
    TryCanonical (if c then o else o') :=
  iteInduction (fun _ => h) fun _ => h'

protected theorem FutTryCanonical.of_eq {o o' : FutTry} (he : o = o') (h : FutTryCanonical o) : FutTryCanonical o' := he ▸ h
protected theorem FutTryCanonical.go {ps : List (Nat × Part)} (hs : Canonical s) : FutTryCanonical (.go ps s) := hs
protected theorem FutTryCanonical.bad {b : Bad} (hs : Canonical s) : FutTryCanonical (.bad b s) := hs
protected theorem FutTryCanonical.wait (hs : Canonical s) : FutTryCanonical (.wait s) := hs

protected theorem FutTryCanonical.ite {o o' : FutTry} (h : FutTryCanonical o) (h' : FutTryCanonical o') :
    FutTryCanonical (if c then o else o') :=
  iteInduction (fun _ => h) fun _ => h'

protected theorem CoreWordCanonical.of_eq {o o' : CoreWord} (he : o = o') (h : CoreWordCanonical o) : CoreWordCanonical o' :=
  he ▸ h
protected theorem CoreWordCanonical.on (hs : Canonical s) : CoreWordCanonical (.on s) := hs
protected theorem CoreWordCanonical.bad (hs : Canonical s) : CoreWordCanonical (.bad s) := hs
protected theorem CoreWordCanonical.wait (hs : Canonical s) : CoreWordCanonical (.wait s) := hs

protected theorem CoreWordCanonical.ite {o o' : CoreWord} (h : CoreWordCanonical o) (h' : CoreWordCanonical o') :
    CoreWordCanonical (if c then o else o') :=
  iteInduction (fun _ => h) fun _ => h'

protected theorem EngCanonical.of_eq {o o' : Eng} (he : o = o') (h : EngCanonical o) : EngCanonical o' := he ▸ h
protected theorem EngCanonical.op {n : Nat} (hs : Canonical s) : EngCanonical (.op n s) := hs
protected theorem EngCanonical.done : EngCanonical .done := trivial
protected theorem EngCanonical.stop {w : Stop} : EngCanonical (.stop w) := trivial

protected theorem EngCanonical.ite {o o' : Eng} (h : EngCanonical o) (h' : EngCanonical o') :
    EngCanonical (if c then o else o') :=
  iteInduction (fun _ => h) fun _ => h'

end Carriers

protected theorem Canonical.writeSector {s : State} {la i slot : Nat} {data : LineData} {mask : ByteMask} (hs : Canonical s) :
    Canonical (writeSector s la i slot data mask) := writeSector_wf _ _ _ _ _ _ hs

end Sys2Proof.Machine
end

section
/-! Memory stays canonical under the operations of cores and dies, memory, faults, messages and lines. -/

namespace Sys2Proof.Machine

variable {s : State} {b c code die h id idx kind la p pa sl slot t tenant va vw : Nat} {deep drop keep poisoned : Bool}
  {f : Pref → Pref} {g : Group} {payload : W32} {data : LineData} {mask : ByteMask} {e : DirEnt} {bs : List Byte}
  {w : Word} {need : Need} {grp : Option Nat} {r : FaultRec}

protected theorem Canonical.setCore {v : Core} (hs : Canonical s) : Canonical (setCore s c v) := .of_mem hs rfl

protected theorem Canonical.modCore {f : Core → Core} (hs : Canonical s) : Canonical (modCore s c f) :=
  (beyond_modCore ..).canonical hs

protected theorem Canonical.modLine {f : LineSt → LineSt} (hs : Canonical s) : Canonical (modLine s la f) :=
  (beyond_modLine ..).canonical hs

protected theorem Canonical.setGroup (hs : Canonical s) : Canonical (setGroup s h g) := .of_mem hs rfl

protected theorem Canonical.modGroup {f : Group → Group} (hs : Canonical s) : Canonical (modGroup s h f) := by
  unfold modGroup
  split
  exacts [.setGroup hs, hs]

protected theorem Canonical.modCtx {f : Ctx → Ctx} (hs : Canonical s) : Canonical (modCtx s h f) := .modGroup hs
protected theorem Canonical.modTeam {f : Team → Team} (hs : Canonical s) : Canonical (modTeam s t f) := .of_mem hs rfl

protected theorem Canonical.modLaunch {l : Nat} {f : Launch → Launch} (hs : Canonical s) : Canonical (modLaunch s l f) :=
  .of_mem hs rfl

protected theorem Canonical.modPart {f : Partition → Partition} (hs : Canonical s) : Canonical (modPart s p f) := by
  unfold modPart
  split
  exacts [.of_mem hs rfl, hs]

protected theorem Canonical.modCmd {f : Cmd → Cmd} (hs : Canonical s) : Canonical (modCmd s c f) := by
  unfold modCmd
  split
  exacts [.of_mem hs rfl, hs]

protected theorem Canonical.newId (hs : Canonical s) : Canonical (newId s).2 := (beyond_newId ..).canonical hs
protected theorem Canonical.freeWord (hs : Canonical s) : Canonical (freeWord s).2 := .of_mem hs rfl

protected theorem Canonical.send {ev : Instr} {subj : Subj} (hs : Canonical s) : Canonical (send s ev subj) :=
  (beyond_send ..).canonical hs

protected theorem Canonical.post (hs : Canonical s) : Canonical (post s code kind idx tenant payload) :=
  (beyond_post ..).canonical hs

protected theorem Canonical.postGroup (hs : Canonical s) : Canonical (postGroup s g code payload) := .post hs

protected theorem Canonical.memWrite (hs : Canonical s) : Canonical (memWrite s la slot data mask) :=
  (beyond_memWrite ..).canonical hs

protected theorem Canonical.memBack (hs : Canonical s) : Canonical (memBack s la slot data) :=
  (beyond_memBack ..).canonical hs

protected theorem Canonical.setDir {e' : DirEnt} (hs : Canonical s) : Canonical (setDir s e e') :=
  (beyond_setDir ..).canonical hs

protected theorem Canonical.dirSync (hs : Canonical s) : Canonical (dirSync s la) := (beyond_dirSync ..).canonical hs

protected theorem Canonical.postPref {press : Bool} (hs : Canonical s) : Canonical (postPref s press idx code la tenant) :=
  .post hs

protected theorem Canonical.modPrefS (hs : Canonical s) : Canonical (modPrefS s sl f) := (beyond_modPrefS ..).canonical hs
protected theorem Canonical.modPrefP (hs : Canonical s) : Canonical (modPrefP s c f) := (beyond_modPrefP ..).canonical hs

protected theorem Canonical.demand (hs : Canonical s) : Canonical (demand s la) := by
  unfold demand
  dsimp only
  split
  exacts [hs, .postPref (.modPrefS (.modLine hs))]

protected theorem Canonical.unused (hs : Canonical s) : Canonical (unused s la) := (beyond_unused ..).canonical hs

protected theorem Canonical.missAt (hs : Canonical s) : Canonical (missAt s sl la slot tenant) := by
  unfold missAt
  dsimp only
  split
  exacts [.of_mem hs rfl, .each (.of_mem hs rfl) (fun _ _ hu => .ite hu (.send (.postPref (.modPrefS (.modLine hu)))))]

protected theorem Canonical.fillAt (hs : Canonical s) : Canonical (fillAt s la tenant) := by
  unfold fillAt
  extract_lets c coming u
  split
  · exact .postPref (.modPrefP hs)
  · have hu : Canonical u := by
      unfold u
      split
      exacts [.postPref (.of_mem hs rfl), hs]
    clear_value u
    split
    split
    · exact .of_mem hu rfl
    · refine .each (.of_mem hu rfl) fun v a hv => ?_
      exact .ite hv (.send (.postPref (.modPrefP hv)))

protected theorem Canonical.demandAt {fills : Bool} (hs : Canonical s) : Canonical (demandAt s sl la slot tenant fills) :=
  .also (.ite (.demand hs) (.missAt (.demand hs))) .fillAt

protected theorem Canonical.demandHome (hs : Canonical s) : Canonical (demandHome s la slot tenant) := .demandAt hs

protected theorem Canonical.dropSliceLine (hs : Canonical s) : Canonical (dropSliceLine s die la) :=
  (beyond_dropSliceLine ..).canonical hs

protected theorem Canonical.sliceRoom (hs : Canonical s) : Canonical (sliceRoom s sl la) :=
  (beyond_sliceRoom ..).canonical hs

protected theorem Canonical.fillHome (hs : Canonical s) : Canonical (fillHome s la slot) := (beyond_fillHome ..).canonical hs

protected theorem Canonical.takePassing (hs : Canonical s) : Canonical (takePassing s la) :=
  (beyond_takePassing ..).canonical hs

protected theorem Canonical.patchPassing (hs : Canonical s) : Canonical (patchPassing s la data mask) :=
  (beyond_patchPassing ..).canonical hs

protected theorem Canonical.mergeHome {vw : Option Nat} (hs : Canonical s) : Canonical (mergeHome s la slot data mask vw) :=
  (beyond_mergeHome ..).canonical hs

protected theorem Canonical.observe {v : Nat} (hs : Canonical s) : Canonical (observe s c v) :=
  (beyond_observe ..).canonical hs

protected theorem Canonical.dropStale (hs : Canonical s) : Canonical (dropStale s c) := (beyond_dropStale ..).canonical hs
protected theorem Canonical.dropNear (hs : Canonical s) : Canonical (dropNear s c la) := (beyond_dropNear ..).canonical hs

protected theorem Canonical.dropCopies (hs : Canonical s) : Canonical (dropCopies s la) :=
  (beyond_dropCopies ..).canonical hs

protected theorem Canonical.mergeAuthority (hs : Canonical s) :
    Canonical (mergeAuthority s c la slot data mask vw poisoned) :=
  (beyond_mergeAuthority ..).canonical hs

protected theorem Canonical.recallNear (hs : Canonical s) : Canonical (recallNear s la c) :=
  (beyond_recallNear ..).canonical hs

protected theorem Canonical.performWriteback (hs : Canonical s) :
    Canonical (performWriteback s c la slot data mask vw poisoned) :=
  (beyond_performWriteback ..).canonical hs

protected theorem Canonical.recallNears (hs : Canonical s) : Canonical (recallNears s la) :=
  (beyond_recallNears ..).canonical hs

protected theorem Canonical.recallDie (hs : Canonical s) : Canonical (recallDie s die la) :=
  .each hs (fun _ _ => .recallNear)

protected theorem Canonical.stamp (hs : Canonical s) : Canonical (stamp s).2 := .newId hs
protected theorem Canonical.dirEvent (hs : Canonical s) : Canonical (dirEvent s la) := (beyond_dirEvent ..).canonical hs
protected theorem Canonical.ownerHome (hs : Canonical s) : Canonical (ownerHome s la) := (beyond_ownerHome ..).canonical hs

protected theorem Canonical.bringHome (hs : Canonical s) : Canonical (bringHome s la keep) :=
  (beyond_bringHome ..).canonical hs

protected theorem Canonical.evictEntry (hs : Canonical s) : Canonical (evictEntry s e) := (beyond_evictEntry ..).canonical hs

protected theorem Canonical.entryRoom {but : Nat} (hs : Canonical s) : Canonical (entryRoom s sl but) :=
  (beyond_entryRoom ..).canonical hs

protected theorem Canonical.dirRoom (hs : Canonical s) : Canonical (dirRoom s la) := by
  unfold dirRoom
  dsimp only
  split
  exacts [hs, .stamp (.entryRoom hs)]

protected theorem Canonical.narrow {fuel : Nat} {excl : Bool} (hs : Canonical s) : Canonical (narrow fuel s la excl) :=
  (beyond_narrow ..).canonical hs

protected theorem Canonical.gather (hs : Canonical s) : Canonical (gather s la keep) := (beyond_gather ..).canonical hs

protected theorem Canonical.readAtHome (hs : Canonical s) : Canonical (readAtHome s la slot).2 :=
  (beyond_readAtHome ..).canonical hs

protected theorem Canonical.readFor (hs : Canonical s) : Canonical (readFor s c la slot).2 := by
  unfold readFor
  dsimp only
  split
  exacts [.ite_snd (.recallNears hs) (.readAtHome hs), .readAtHome hs]

protected theorem Canonical.dieCopy {st : Moesi} (hs : Canonical s) : Canonical (dieCopy s die la slot st data) :=
  .dirSync (.modLine (.sliceRoom hs))

protected theorem Canonical.writeAtHome (hs : Canonical s) : Canonical (writeAtHome s la slot data mask vw) :=
  (beyond_writeAtHome ..).canonical hs

protected theorem Canonical.takeSplit (hs : Canonical s) : Canonical (takeSplit s).2 := by
  unfold takeSplit
  split
  · dsimp only
    exact .of_mem hs rfl
  · dsimp only
    exact hs

protected theorem Canonical.physWrite (hs : Canonical s) : Canonical (physWrite s pa bs slot vw) :=
  (beyond_physWrite ..).canonical hs

protected theorem Canonical.ringWrite {lslot : Nat} {fs : List (Nat × Nat × Nat)} (hs : Canonical s) :
    Canonical (ringWrite s p kind lslot fs) := by
  unfold ringWrite
  dsimp only
  split
  exacts [hs, .modPart (.physWrite hs)]

protected theorem Canonical.futPut (hs : Canonical s) : Canonical (futPut s pa slot w vw) := (beyond_futPut ..).canonical hs
protected theorem Canonical.futWrite (hs : Canonical s) : Canonical (futWrite s pa w vw) := (beyond_futWrite ..).canonical hs
protected theorem Canonical.modTask {f : Task → Task} (hs : Canonical s) : Canonical (modTask s p id f) := .of_mem hs rfl

protected theorem Canonical.futShift {froms : List Nat} {next : Nat} (hs : Canonical s) :
    Canonical (futShift s p id froms next) :=
  (beyond_futShift ..).canonical hs

protected theorem Canonical.futFault (hs : Canonical s) : Canonical (futFault s p id code) :=
  (beyond_futFault ..).canonical hs

protected theorem Canonical.landWins {ws : List Win} (hs : Canonical s) : Canonical (landWins s c ws) := .modCore hs

protected theorem Canonical.freeRegs {pids : List Nat} (hs : Canonical s) : Canonical (freeRegs s c pids) :=
  (beyond_freeRegs ..).canonical hs

protected theorem Canonical.ecDown {ec : Nat} (hs : Canonical s) : Canonical (ecDown s c ec) := .modCore hs

protected theorem Canonical.letPass {obs : Nat} (hs : Canonical s) : Canonical (letPass b obs s h) := by
  unfold letPass
  split
  · refine .ite (.setGroup hs) ?_
    split
    exacts [.ite (.setGroup hs) hs, hs]
  · exact hs

protected theorem Canonical.barrierCheck (hs : Canonical s) : Canonical (barrierCheck s t b) :=
  .ite (.each (.ite (.modTeam hs) (.dropStale (.modTeam hs))) (fun _ _ => .letPass)) hs

protected theorem Canonical.cacheLeaf {l : Leaf} (hs : Canonical s) : Canonical (cacheLeaf s c l) := by
  unfold cacheLeaf
  extract_lets u sv
  have hu : Canonical u := .modCore hs
  exact .ite hu (.of_mem hu rfl)

protected theorem Canonical.translate {vf : Nat} (hs : Canonical s) : Canonical (translate s c vf va).2 := by
  unfold translate
  dsimp only
  refine .ite_snd hs ?_
  split
  · dsimp only
    exact hs
  · split
    · dsimp only
      exact .cacheLeaf hs
    · split
      · dsimp only
        exact hs
      · split
        · dsimp only
          exact .cacheLeaf hs
        · dsimp only
          exact hs

protected theorem Canonical.checkByte (hs : Canonical s) : Canonical (checkByte s g va need).2 := by
  unfold checkByte
  dsimp only
  split
  · rename_i u he
    have hu : Canonical u := Canonical.of_snd he (.translate hs)
    exact hu
  · rename_i u he
    have hu : Canonical u := Canonical.of_snd he (.translate hs)
    split
    exacts [hu, .ite_snd hu hu]

protected theorem Canonical.checkAccess {ea n : Nat} (hs : Canonical s) : Canonical (checkAccess s g t ea n need).2 := by
  unfold checkAccess
  refine .foldl_snd hs (fun q a hu => ?_)
  dsimp only
  split
  · dsimp only
    exact hu
  · split
    · rename_i u he1
      have hu1 : Canonical u := Canonical.of_snd he1 (.checkByte hu)
      exact hu1
    · rename_i u he1
      have hu1 : Canonical u := Canonical.of_snd he1 (.checkByte hu)
      exact hu1

protected theorem Canonical.writeRecord (hs : Canonical s) : Canonical (writeRecord s g va bs) := by
  unfold writeRecord
  refine .each hs (fun u a hu => ?_)
  dsimp only
  split
  · rename_i u1 he
    have hu1 : Canonical u1 := Canonical.of_snd he (.translate hu)
    exact .writeAtHome hu1
  · rename_i u1 he
    have hu1 : Canonical u1 := Canonical.of_snd he (.translate hu)
    exact hu1

protected theorem Canonical.addOut (hs : Canonical s) : Canonical (addOut s h).2 := .modGroup (.newId hs)
protected theorem Canonical.ackOut (hs : Canonical s) : Canonical (ackOut s h id) := .modGroup hs
protected theorem Canonical.outSoon (hs : Canonical s) : Canonical (outSoon s h) := .send (.addOut hs)
protected theorem Canonical.modNear {f : NcLine → NcLine} (hs : Canonical s) : Canonical (modNear s c la f) := .modCore hs

protected theorem Canonical.writeBack {drain : Option Nat} (hs : Canonical s) :
    Canonical (writeBack s c la grp drain drop) := by
  unfold writeBack
  split
  · exact hs
  · split
    rename_i id u he
    have hu : Canonical u := by
      split at he
      exacts [.of_snd he (.addOut hs), .of_snd he (.newId hs)]
    dsimp only
    split
    · exact .send (.ite (.dropNear hu) (.modNear hu))
    · refine .send ?_
      have hv : Canonical (if drop then dropNear u c la else modNear u c la fun n => { n with mask := 0 }) :=
        .ite (.dropNear hu) (.modNear hu)
      generalize (if drop then dropNear u c la else modNear u c la fun n => { n with mask := 0 }) = v at hv ⊢
      exact .ite hv (.performWriteback hv)
    · exact .ite (.dropNear hu) hu

protected theorem Canonical.maintain (hs : Canonical s) : Canonical (maintain s c la grp drop) := by
  unfold maintain
  split
  exacts [hs, .ite (.writeBack hs) (.ite (.dropNear hs) hs)]

protected theorem Canonical.pendToDirty {p : PendLine} (hs : Canonical s) : Canonical (pendToDirty s c p) :=
  (beyond_pendToDirty ..).canonical hs

protected theorem Canonical.settlePend (hs : Canonical s) : Canonical (settlePend s h c deep) :=
  (beyond_settlePend ..).canonical hs

protected theorem Canonical.deepPend (hs : Canonical s) : Canonical (deepPend s h c deep) := .modCore hs

protected theorem Canonical.fallBack (hs : Canonical s) : Canonical (fallBack s h) := by
  unfold fallBack
  dsimp only
  split
  exacts [.ite (.settlePend (.setGroup (.postGroup hs))) hs, hs]

protected theorem Canonical.fallDeep (hs : Canonical s) : Canonical (fallDeep s h) := by
  unfold fallDeep
  dsimp only
  split
  · split
    exacts [.ite (.settlePend (.setGroup (.postGroup hs))) hs, hs]
  · exact hs

protected theorem Canonical.dropTxLines {t : Option Nat} (hs : Canonical s) : Canonical (dropTxLines s h c t) :=
  (beyond_dropTxLines ..).canonical hs

protected theorem Canonical.ringFault (hs : Canonical s) : Canonical (ringFault s h g r) := .ringWrite hs

protected theorem Canonical.haltGroup (hs : Canonical s) : Canonical (haltGroup s h r) := by
  unfold haltGroup
  dsimp only
  split
  exacts [hs, .ringFault (.setGroup hs)]

protected theorem Canonical.returnHelper (hs : Canonical s) : Canonical (returnHelper s g) := by
  unfold returnHelper
  dsimp only
  split
  · split
    exacts [.postGroup (.modGroup hs), .modGroup hs]
  · exact hs

protected theorem Canonical.deliver (hs : Canonical s) : Canonical (deliver s h r) := by
  unfold deliver
  dsimp only
  split
  · exact hs
  · split
    exacts [.setGroup (.deepPend (.writeRecord hs)), .haltGroup hs]

protected theorem Canonical.unseat (hs : Canonical s) : Canonical (unseat s h) := by
  unfold unseat
  dsimp only
  split
  exacts [hs, .freeRegs (.setGroup (.landWins hs))]

protected theorem Canonical.faultEnds (hs : Canonical s) : Canonical (faultEnds s h g r) :=
  (beyond_faultEnds ..).canonical hs

protected theorem Canonical.ringTasks (hs : Canonical s) : Canonical (ringTasks s h g r) := .each hs (fun _ _ => .ringFault)

protected theorem Canonical.faultLeaves {x : Ctx} {again : Option FaultRec} (hs : Canonical s) :
    Canonical (faultLeaves s h g x r again) :=
  .send (.returnHelper (.ringTasks (.unseat (.modGroup (.fallBack (.setGroup hs))))))

protected theorem Canonical.secondFault (hs : Canonical s) : Canonical (secondFault s g r).2 := by
  unfold secondFault
  dsimp only
  exact .writeRecord hs

protected theorem Canonical.takeFault (hs : Canonical s) : Canonical (takeFault s h r) := by
  unfold takeFault
  dsimp only
  split
  · exact hs
  · split
    · exact .haltGroup (.setGroup (.secondFault (.faultEnds hs)))
    · exact .faultLeaves (.secondFault (.faultEnds hs))
    · exact .faultLeaves (.faultEnds hs)
    · exact .deliver (.setGroup (.faultEnds hs))

protected theorem Canonical.raise (hs : Canonical s) : Canonical (raise s h r) := by
  unfold raise
  dsimp only
  split
  exacts [hs, .ite (.takeFault hs) (.setGroup hs)]

protected theorem Canonical.returnFault (hs : Canonical s) : Canonical (returnFault s h) := by
  unfold returnFault
  dsimp only
  split
  · exact hs
  · split
    exacts [hs, .freeRegs (.setGroup (.deepPend hs))]

end Sys2Proof.Machine
end

section
/-! Memory stays canonical under the operations of registers, near caches, windows, the slots of groups and control words. -/

namespace Sys2Proof.Machine

variable {s : State} {c code cycles fuel h la len n reason rv slot t tenant va : Nat} {kn uni : Bool} {g : Group} {io : Io}
  {k : BitVec 3} {body : Ctx → Nat → Word → Except Bad Res} {op : Op} {f : FOps} {data : LineData} {mask : ByteMask}
  {recs : List SpawnRec} {w : Win} {name : String}

protected theorem Canonical.allocReg {r : Nat} {fresh : Bool} (hs : Canonical s) : Canonical (allocReg s g r fresh).1 :=
  .setCore hs

protected theorem Canonical.writeRegs {wr : List RegWr} (hs : Canonical s) : Canonical (writeRegs s g wr).1 :=
  .each_fst hs (fun _ _ => .allocReg)

protected theorem Canonical.drawGrant (hs : Canonical s) : Canonical (drawGrant s c tenant) := by
  unfold drawGrant
  dsimp only
  refine .ite (.modCore (.modPart hs)) (.ite hs ?_)
  split
  exacts [hs, .modCore (.modPart hs)]

protected theorem Canonical.charge (hs : Canonical s) : Canonical (charge fuel s c tenant n) := by
  induction fuel generalizing s n with
  | zero => exact .modCore hs
  | succ fuel ih =>
    unfold charge
    exact .ite (.modCore hs) (.ite (.modCore hs) (ih (.drawGrant (.modCore hs))))

protected theorem Canonical.spend (hs : Canonical s) : Canonical (spend s h cycles) := by
  unfold spend
  dsimp only
  split
  exacts [hs, .charge (.modLaunch (.setGroup (.modCore hs)))]

protected theorem Canonical.postPark (hs : Canonical s) : Canonical (postPark s g reason) := .postGroup hs

protected theorem Canonical.park {why : Why} (hs : Canonical s) : Canonical (park s h why reason) := by
  unfold park
  split
  exacts [hs, .postPark (.setGroup hs)]

protected theorem Canonical.parkRegs (hs : Canonical s) : Canonical (parkRegs s h g n) := .park (.modCore hs)

protected theorem Canonical.retire {r : Res} (hs : Canonical s) : Canonical (retire s h g io len cycles r) :=
  .spend (.freeRegs (.setGroup (.writeRegs hs)))

protected theorem NextCanonical.issue (hs : Canonical s) : NextCanonical (issue s code len k kn uni io body) := by
  unfold issue
  dsimp only
  split
  · exact .fault
  · refine .ite (.next (.setGroup hs)) ?_
    split
    · exact .next (.raise (.setGroup hs))
    · split
      exacts [.next (.raise (.setGroup hs)), .next (.parkRegs (.setGroup hs)), .next (.retire hs)]

protected theorem NextCanonical.issueAlu {comp : Nat → Nat → Nat → Nat × Nat} (hs : Canonical s) :
    NextCanonical (issueAlu s op f comp) := by
  unfold issueAlu
  exact .issue hs

protected theorem Canonical.openWin {win : Win} (hs : Canonical s) : Canonical (openWin s h g io len cycles la win) :=
  .spend (.freeRegs (.setGroup (.modCore (.newId hs))))

protected theorem NextCanonical.issueLong (hs : Canonical s) : NextCanonical (issueLong s f io body) := by
  unfold issueLong
  dsimp only
  split
  · exact .fault
  · refine .ite (.next hs) ?_
    split
    · exact .next (.raise hs)
    · split
      exacts [.next (.raise hs), .next (.openWin hs)]

protected theorem Canonical.endRegion (hs : Canonical s) : Canonical (endRegion s h) := by
  unfold endRegion
  dsimp only
  split
  exacts [hs, .ite (.freeRegs (.modCtx (.settlePend hs))) hs]

protected theorem Canonical.doomThread {cause user : Nat} (hs : Canonical s) : Canonical (doomThread s h t cause user) := by
  unfold doomThread
  dsimp only
  split
  · exact hs
  · split
    exacts [hs, .ite hs (.dropTxLines (.setGroup hs))]

protected theorem Canonical.stampOf (hs : Canonical s) : Canonical (stampOf s c).2 := .modCore hs

protected theorem Canonical.yieldPend {p : PendLine} (hs : Canonical s) : Canonical (yieldPend s p) := by
  unfold yieldPend
  split
  exacts [.ite (.fallDeep hs) (.fallBack hs), .doomThread hs]

protected theorem Canonical.makeRoom (hs : Canonical s) : Canonical (makeRoom s c) := by
  unfold makeRoom
  dsimp only
  refine .ite hs ?_
  split
  · exact .maintain hs
  · split
    exacts [hs, .maintain (.yieldPend hs)]

protected theorem Canonical.install {n : NcLine} (hs : Canonical s) : Canonical (install s c la n) :=
  .modCore (.stampOf (.ite hs (.makeRoom hs)))

protected theorem Canonical.useLine (hs : Canonical s) : Canonical (useLine s c la) := .modNear (.stampOf hs)

protected theorem Canonical.dropOther (hs : Canonical s) : Canonical (dropOther s c la slot) := by
  unfold dropOther
  dsimp only
  split
  · exact .ite (.each hs (fun _ _ => .yieldPend)) (.maintain (.each hs (fun _ _ => .yieldPend)))
  · exact .each hs (fun _ _ => .yieldPend)

protected theorem Canonical.capRoom (hs : Canonical s) : Canonical (capRoom s h c) := by
  unfold capRoom
  dsimp only
  refine .ite hs ?_
  split
  exacts [hs, .writeBack hs, .writeBack (.yieldPend hs)]

protected theorem Canonical.storeRoom (hs : Canonical s) : Canonical (storeRoom s h c la) := by
  unfold storeRoom
  dsimp only
  split
  exacts [.ite (.ite hs (.makeRoom hs)) (.capRoom (.ite hs (.makeRoom hs))), .capRoom (.ite hs (.makeRoom hs))]

protected theorem Canonical.homeCopy (hs : Canonical s) : Canonical (homeCopy s c la slot rv tenant).2.2.2 := by
  unfold homeCopy
  dsimp only
  exact .observe (.ite (.modLine (.readAtHome (.ite hs (.dirRoom (.demandHome hs))))) (.dieCopy (.modLine
    (.readAtHome (.ite hs (.dirRoom (.demandHome hs)))))))

protected theorem Canonical.nearCopy (hs : Canonical s) : Canonical (nearCopy s c la slot rv tenant).2.2.2 := by
  unfold nearCopy
  extract_lets d u
  have hu : Canonical u := .demandAt hs
  clear_value u
  split
  · exact .homeCopy hu
  · split
    · exact .homeCopy hu
    · split
      · exact .observe (.modLine (.recallNears hu))
      · split
        exacts [.observe hu, .homeCopy hu]

protected theorem Canonical.baseCopy (hs : Canonical s) : Canonical (baseCopy s c la slot rv tenant).2.2.2 := by
  unfold baseCopy
  split
  · split
    · dsimp only
      exact hs
    · exact .nearCopy hs
  · exact .nearCopy hs

protected theorem Canonical.nearWrite (hs : Canonical s) : Canonical (nearWrite s h c la slot rv data mask) := by
  unfold nearWrite
  have hu : Canonical (stampOf (storeRoom (baseCopy (dropOther s c la slot) c la slot rv (tenantOf (dropOther s c la slot)
    h)).2.2.2 h c la) c).2 :=
    .stampOf (.storeRoom (.baseCopy (.dropOther hs)))
  dsimp only
  split
  exacts [.ite (.useLine (.modNear hu)) (.install hu), .install hu]

protected theorem Canonical.pendWrite {t : Option Nat} (hs : Canonical s) :
    Canonical (pendWrite s h c t la slot rv data mask) := by
  unfold pendWrite
  have hu : Canonical (dropOther s c la slot) := .dropOther hs
  generalize dropOther s c la slot = u at hu ⊢
  dsimp only
  split
  exacts [.modCore hu, .ite (.also (.storeRoom hu) .nearWrite) (.modCore (.stampOf (.maintain (.baseCopy (.storeRoom hu)))))]

protected theorem Canonical.wakeIsland (hs : Canonical s) : Canonical (wakeIsland s c) := .ite (.of_mem hs rfl) hs
protected theorem Canonical.noteRan {l : Nat} (hs : Canonical s) : Canonical (noteRan s l c) := .modLaunch hs
protected theorem Canonical.addGroup (hs : Canonical s) : Canonical (addGroup s g).2 := .setGroup (.newId (.wakeIsland hs))

protected theorem Canonical.takeTask {p : Nat} (hs : Canonical s) : Canonical (takeTask fuel s p).2 := by
  induction fuel generalizing s with
  | zero => exact .modPart hs
  | succ fuel ih =>
    unfold takeTask
    exact .ite_snd (ih (.modPart hs)) (.modPart hs)

protected theorem Canonical.endThreads {m : Word} (hs : Canonical s) : Canonical (endThreads s h m) := by
  unfold endThreads
  dsimp only
  split
  exacts [hs, .each (.modCore (.setGroup hs)) (fun _ _ hu => .ite hu (.futFault hu))]

protected theorem Canonical.cancelCmd (hs : Canonical s) : Canonical (cancelCmd s c) := by
  unfold cancelCmd
  dsimp only
  refine .ite hs ?_
  split
  exacts [hs, hs, .send (.modCmd hs)]

protected theorem Canonical.teamRetires (hs : Canonical s) : Canonical (teamRetires s t) :=
  .send (.send (.send (.each (.modTeam hs) (fun _ _ => .cancelCmd))))

protected theorem Canonical.retireGroup (hs : Canonical s) : Canonical (retireGroup s h) := by
  unfold retireGroup
  dsimp only
  have hu : Canonical (dropTxLines (endRegion s h) h ((groupOf s h).getD {}).core none) := .dropTxLines (.endRegion hs)
  split
  · exact hu
  · refine .also (.also (.each (.freeRegs (.setGroup (.landWins hu))) fun _ _ hv => ?_) .send) .teamRetires
    exact .also hv fun hv => .barrierCheck (.modTeam hv)

protected theorem Canonical.giveArgs (hs : Canonical s) : Canonical (giveArgs s h recs) := by
  unfold giveArgs
  dsimp only
  split
  exacts [hs, .setGroup (.writeRegs hs)]

protected theorem Canonical.formRecords {slot0 launch : Nat} {outer : Option Nat} {depth : Nat} (hs : Canonical s) :
    Canonical (formRecords s c slot0 launch recs outer depth).2 :=
  .each (.giveArgs (.noteRan (.modTeam (.addGroup (.newId hs))))) (fun _ _ => .futShift)

protected theorem Canonical.fetchWord (hs : Canonical s) : Canonical (fetchWord s g va).2 := by
  unfold fetchWord
  dsimp only
  split
  · rename_i u he
    have hu : Canonical u := Canonical.of_snd he (.translate hs)
    exact hu
  · rename_i u he
    have hu : Canonical u := Canonical.of_snd he (.translate hs)
    exact .ite_snd hu (.ite_snd hu (.ite_snd hu (.ite_snd hu hu)))

protected theorem Canonical.fetchWords (hs : Canonical s) : Canonical (fetchWords s g va n).2 := by
  induction n generalizing s va with
  | zero => exact hs
  | succ n ih =>
    unfold fetchWords
    split
    · rename_i he
      exact .of_snd he (.fetchWord hs)
    · rename_i u he
      have hu : Canonical u := .of_snd he (.fetchWord hs)
      split
      · rename_i he1
        exact .of_snd he1 (ih hu)
      · rename_i he1
        exact .of_snd he1 (ih hu)

protected theorem Canonical.fetchInstr (hs : Canonical s) : Canonical (fetchInstr s g).2 := by
  unfold fetchInstr
  split
  · rename_i u he
    have hu : Canonical u := Canonical.of_snd he (.fetchWord hs)
    exact hu
  · rename_i u he
    have hu : Canonical u := Canonical.of_snd he (.fetchWord hs)
    split
    · rename_i u1 he1
      have hu1 : Canonical u1 := Canonical.of_snd he1 (.fetchWords hu)
      exact hu1
    · rename_i u1 he1
      have hu1 : Canonical u1 := Canonical.of_snd he1 (.fetchWords hu)
      exact hu1

protected theorem Canonical.freshen (hs : Canonical s) : Canonical (freshen s) := .ite (.of_mem hs rfl) hs
protected theorem Canonical.unpark (hs : Canonical s) : Canonical (unpark s h) := .modGroup hs

protected theorem Canonical.elapse {c : Clock} (hs : Canonical s) : Canonical (elapse s c n) := by
  unfold elapse
  refine .ite hs ?_
  dsimp only
  split
  exacts [.modCore hs, .of_mem hs rfl, .of_mem hs rfl, .of_mem hs rfl, .of_mem hs rfl]

protected theorem NextCanonical.issueCtl {body : Ctx → Nat → Nat → Word → Flow} (hs : Canonical s) :
    NextCanonical (issueCtl s io k kn uni body) := by
  unfold issueCtl
  dsimp only
  split
  · exact .fault
  · refine .ite (.next (.setGroup hs)) ?_
    split
    · exact .next (.raise (.setGroup hs))
    · exact .next (.spend (.freeRegs (.setGroup (.setGroup hs))))
    · exact .next (.retireGroup (.endThreads (.spend (.setGroup hs))))

protected theorem NextCanonical.execExit (hs : Canonical s) : NextCanonical (execExit f s) := by
  unfold execExit
  dsimp only
  split
  · exact .fault
  · split
    · exact .next (.raise (.setGroup hs))
    · exact .next (.modCtx (.endThreads (.spend (.ite (.setGroup hs) (.endRegion (.setGroup hs))))))
    · exact .next (.retireGroup (.endThreads (.endRegion (.spend (.setGroup hs)))))

protected theorem NextCanonical.execYield (hs : Canonical s) : NextCanonical (execYield f s) := by
  unfold execYield
  split
  · rename_i u he
    have hu : Canonical u := NextCanonical.of_eq he (.issue hs)
    exact .next (.ite hu (.modGroup hu))
  · exact .issue hs

protected theorem NextCanonical.issueTrap (hs : Canonical s) : NextCanonical (issueTrap s op f code) := .issue hs
protected theorem NextCanonical.execBpt (hs : Canonical s) : NextCanonical (execBpt f s) := .issueTrap hs
protected theorem NextCanonical.execTrap (hs : Canonical s) : NextCanonical (execTrap f s) := .issueTrap hs

protected theorem NextCanonical.execIllegalInstruction {w : Word} (hs : Canonical s) :
    NextCanonical (execIllegalInstruction w s) := by
  unfold execIllegalInstruction
  dsimp only
  split
  exacts [.fault, .next (.raise (.setGroup hs))]

protected theorem NextCanonical.notNow : NextCanonical (notNow name) := .fault

protected theorem Canonical.closeWin (hs : Canonical s) : Canonical (closeWin s h w) := by
  unfold closeWin
  dsimp only
  split
  exacts [hs, .modCtx (.ite (.modCore hs) (.send (.modCore hs)))]

protected theorem Canonical.landResult (hs : Canonical s) : Canonical (landResult s h g w) := by
  unfold landResult
  exact .ite (.modCtx (.closeWin hs)) (.freeRegs (.closeWin (.setGroup (.writeRegs hs))))

protected theorem NextCanonical.execLongLatencyResult (hs : Canonical s) : NextCanonical (execLongLatencyResult s) := by
  unfold execLongLatencyResult
  dsimp only
  split
  · exact .notNow
  · split
    · exact .notNow
    · refine .ite .notNow (.ite (.next (.closeWin hs)) (.ite .notNow ?_))
      split
      · exact .next (.landResult hs)
      · split
        exacts [.next (.parkRegs hs), .notNow]
      · exact .next (.modCtx hs)

protected theorem NextCanonical.execFaultDelivery (hs : Canonical s) : NextCanonical (execFaultDelivery s) := by
  unfold execFaultDelivery
  split
  · exact .notNow
  · split
    exacts [.ite (.next (.takeFault hs)) .notNow, .ite (.next (.takeFault hs)) .notNow, .notNow]

protected theorem NextCanonical.wakeEvent {why : Why → Bool} (hs : Canonical s) : NextCanonical (wakeEvent s name why) := by
  unfold wakeEvent
  split
  · exact .notNow
  · split
    exacts [.ite (.next (.unpark hs)) .notNow, .notNow]

protected theorem NextCanonical.execRegisterGrant (hs : Canonical s) : NextCanonical (execRegisterGrant s) := by
  unfold execRegisterGrant
  dsimp only
  split
  · exact .notNow
  · split
    · exact .next (.modCore hs)
    · split
      exacts [.ite .notNow (.next (.modGroup (.unpark (.ite (.modCore hs) (.send (.modCore hs)))))), .next (.modCore hs)]

end Sys2Proof.Machine
end

section
/-! Memory stays canonical under the operations of the accesses of memory words, and what completes them. -/

namespace Sys2Proof.Machine

variable {s : State} {fall natural pocket tx uni wait : Bool} {c h la n slot wid : Nat} {g : Group} {need : Need} {a : Acc}
  {accs : List Acc} {op : AtomOp} {f : FOps} {pass : Option Passing} {kind : MemKind} {d : Word} {io2 : Io}
  {data : Ctx → Nat → Nat} {p : Part}

protected theorem Canonical.checkVirt (hs : Canonical s) : Canonical (checkVirt s g natural n need a).2 := by
  unfold checkVirt
  dsimp only
  refine .ite_snd hs ?_
  split
  · rename_i u he
    have hu : Canonical u := Canonical.of_snd he (.checkAccess hs)
    exact hu
  · rename_i u he
    have hu : Canonical u := Canonical.of_snd he (.checkAccess hs)
    exact hu

protected theorem Canonical.checkAll (hs : Canonical s) : Canonical (checkAll s g natural n need accs).2 := by
  unfold checkAll
  refine .foldl_snd hs (fun q a hu => ?_)
  dsimp only
  exact .checkVirt hu

protected theorem Canonical.doomThreads {m : Word} {cause user : Nat} (hs : Canonical s) :
    Canonical (doomThreads s h m cause user) := by
  unfold doomThreads
  split
  exacts [hs, .ite hs (.each hs (fun _ _ => .doomThread))]

protected theorem Canonical.forbid {eff : Word} (hs : Canonical s) : Canonical (forbid s h eff) := .doomThreads hs

protected theorem Canonical.txTouch {t : Nat} {write : Bool} (hs : Canonical s) :
    Canonical (txTouch s h t la slot write) := by
  unfold txTouch
  dsimp only
  split
  · exact hs
  · split
    · exact hs
    · exact .ite hs (.ite (.doomThread hs) (.ite (.each hs (fun _ _ => .doomThread)) (.ite
        (.doomThread (.each hs (fun _ _ => .doomThread))) (.modCtx (.each hs (fun _ _ => .doomThread))))))

protected theorem Canonical.performMsg {m : WbMsg} (hs : Canonical s) : Canonical (performMsg s m).2 := .performWriteback hs

protected theorem Canonical.landFlights {core : Option Nat} (hs : Canonical s) : Canonical (landFlights s core la) :=
  .each (.of_mem hs rfl) (fun _ _ hu => .send (.performMsg hu))

protected theorem Canonical.flushDirty {but : Option Nat} (hs : Canonical s) : Canonical (flushDirty s but la) := by
  unfold flushDirty
  dsimp only
  refine .each (.landFlights hs) (fun u a hu => ?_)
  split
  exacts [.ite (.send (.newId (.performWriteback (.ite (.dropNear hu) (.modNear hu))))) hu, hu]

protected theorem WhenSome.atomNear {rv : Nat} {ty : Ty} {lo : Nat} (hs : Canonical s) :
    WhenSome (fun p => Canonical p.2) (atomNear s h c rv op ty n la slot lo a) := by
  unfold atomNear
  split
  · refine .ite (.some ?_) .none
    dsimp only
    exact .nearWrite hs
  · exact .none

protected theorem Canonical.modWin {f : Win → Win} (hs : Canonical s) : Canonical (modWin s h wid f) := .modCtx hs

protected theorem Canonical.servePart {i : Nat} (hs : Canonical s) : Canonical (servePart s h wid i pass) := by
  unfold servePart
  dsimp only
  split
  · exact hs
  · split
    · exact hs
    · split
      · refine .ite hs ?_
        split
        · split
          · rename_i u he5
            have hu : Canonical u := WhenSome.of_eq he5 (.atomNear hs)
            exact .modWin hu
          · exact hs
        · split
          · rename_i u he5
            have hu : Canonical u := WhenSome.of_eq he5 (.atomNear hs)
            exact .modWin hu
          · exact hs
        · split
          exacts [.modWin (.useLine (.ite (.modCtx hs) hs)), hs]
      · exact hs

protected theorem Canonical.finishWin (hs : Canonical s) : Canonical (finishWin s h wid) := by
  unfold finishWin
  dsimp only
  refine .modWin ?_
  split
  · split
    · split
      exacts [.ite (.dropStale hs) hs, hs]
    · exact hs
  · exact hs

protected theorem Canonical.winFault {b : Bad} (hs : Canonical s) : Canonical (winFault s h wid b) := .modWin hs

protected theorem Canonical.recheckWin (hs : Canonical s) : Canonical (recheckWin s h wid) := by
  unfold recheckWin
  dsimp only
  split
  · exact hs
  · split
    · exact hs
    · split
      · exact hs
      · refine .ite hs ?_
        split
        exacts [.winFault hs, .modWin (.each hs (fun _ _ => .doomThread))]

protected theorem Canonical.serveWin (hs : Canonical s) : Canonical (serveWin s h wid pass) := by
  unfold serveWin
  dsimp only
  split
  · exact .takeSplit (.recheckWin hs)
  · split
    · exact .takeSplit (.recheckWin hs)
    · exact .ite (.takeSplit (.recheckWin hs)) (.finishWin (.each (.takeSplit (.recheckWin hs)) (fun _ _ => .servePart)))

protected theorem Canonical.askLine {kind : CopyKind} (hs : Canonical s) : Canonical (askLine s h g la slot kind) :=
  .send (.dropOther hs)

protected theorem Canonical.askLines (hs : Canonical s) : Canonical (askLines s h wid) := by
  unfold askLines
  dsimp only
  split
  · exact hs
  · split
    · exact hs
    · split
      exacts [hs, .ite (.each (.modWin hs) (fun _ _ hu => .send (.maintain hu))) (.each (.modWin hs) (fun _ _ => .askLine))]

protected theorem Canonical.serveCounters (hs : Canonical s) : Canonical (serveCounters s h wid) := by
  unfold serveCounters
  dsimp only
  split
  exacts [hs, .ite hs (.modWin hs)]

protected theorem Canonical.startVirt (hs : Canonical s) : Canonical (startVirt s h wid) := by
  unfold startVirt
  dsimp only
  split
  · exact hs
  · split
    · exact hs
    · split
      · exact .winFault (.checkAll hs)
      · exact .askLines (.serveWin (.serveCounters (.modWin (.each (.also (.each (.checkAll hs) (fun _ _ => .doomThread))
          (fun h => .each h (fun _ _ => .txTouch))) (fun _ _ hu => .ite (.flushDirty hu) hu)))))

protected theorem Canonical.spaceAtoms {req : MemReq} (hs : Canonical s) : Canonical (spaceAtoms s g req).2 :=
  .foldl_snd hs (fun _ _ => .modTeam)

protected theorem Canonical.startSpace (hs : Canonical s) : Canonical (startSpace s h wid) := by
  unfold startSpace
  dsimp only
  split
  · exact hs
  · split
    · exact hs
    · split
      exacts [.winFault hs, .ite (.modWin hs) (.modWin (.ite_snd (.spaceAtoms hs) hs))]

protected theorem Canonical.startWin (hs : Canonical s) : Canonical (startWin s h wid) := by
  unfold startWin
  split
  · split
    exacts [.startSpace hs, .startSpace hs, .startSpace hs, .startSpace hs, .startVirt hs]
  · exact hs

protected theorem NextCanonical.issueVirt {d : Option Word} {scope : Scope} {new : Ctx → Nat → Nat} (hs : Canonical s) :
    NextCanonical (issueVirt s f d kind op scope io2 data new tx fall) := by
  unfold issueVirt
  dsimp only
  split
  · exact .fault
  · refine .ite (.next hs) (.ite (.next (.raise hs)) (.ite (.next (.checkAll hs)) ?_))
    split
    · exact .next (.also (.also (.checkAll hs) .forbid) .fallBack)
    · exact .next (.startWin (.openWin (.also (.also (.checkAll hs) .forbid) .fallBack)))

protected theorem NextCanonical.issueSpaceRun {d : Option Word} {regs : Nat} (hs : Canonical s) :
    NextCanonical (issueSpaceRun s f d kind n regs op io2 data fall) := by
  unfold issueSpaceRun
  dsimp only
  split
  · exact .fault
  · refine .ite (.next hs) (.ite (.next (.raise hs)) (.ite (.next (.park hs)) ?_))
    split
    exacts [.next (.ite (.fallBack hs) hs), .next (.startWin (.openWin (.ite (.fallBack hs) hs)))]

protected theorem NextCanonical.issueSpace {d : Option Word} (hs : Canonical s) :
    NextCanonical (issueSpace s f d kind op io2 data fall) :=
  .issueSpaceRun hs

protected theorem NextCanonical.issueAddr {body : State → Nat → Group → Word → List Acc → State ⊕ Bad} (hs : Canonical s)
    (hbody : ∀ u n k y y1, Canonical u → Either Canonical (fun _ => True) (body u n k y y1)) :
    NextCanonical (issueAddr s f tx body) := by
  unfold issueAddr
  dsimp only
  split
  · exact .fault
  · refine .ite (.next hs) ?_
    split
    · exact .next (.raise (.ite (.forbid hs) hs))
    · rename_i u he1
      have hu : Canonical u := Either.of_eq he1 (hbody _ _ _ _ _ (.ite (.forbid hs) hs))
      split
      exacts [.next hu, .next (.retire hu)]

protected theorem Canonical.prefetchLine {mod : Nat} (hs : Canonical s) : Canonical (prefetchLine s h g mod p) :=
  .ite hs (.ite hs (.askLine hs))

protected theorem NextCanonical.execPref (hs : Canonical s) : NextCanonical (execPref f s) := by
  unfold execPref
  refine .issueAddr hs (fun _ _ _ _ _ hu => .inl (.each (.foldl_snd hu (fun q a hu1 => ?_)) (fun _ _ => .prefetchLine)))
  dsimp only
  exact .checkVirt hu1

protected theorem Canonical.storePart (hs : Canonical s) : Canonical (storePart s h g uni n a p) :=
  .ite (.pendWrite hs) (.ite (.pendWrite hs) (.nearWrite hs))

protected theorem Canonical.performStore {rs : List (Acc × List Part)} (hs : Canonical s) :
    Canonical (performStore s h uni n rs) := by
  unfold performStore
  dsimp only
  split
  · exact hs
  · have hu : Canonical (if uni then s else each rs s fun s x => each x.2 s fun s p => txTouch s h x.1.t p.la p.slot true) :=
      .ite hs (.each hs fun _ _ hv => .each hv fun _ _ => .txTouch)
    generalize (if uni then s else each rs s fun s x => each x.2 s fun s p => txTouch s h x.1.t p.la p.slot true) = u at hu ⊢
    split
    · exact hu
    · refine .also (.each hu fun _ _ hv => .each hv fun _ _ hw => ?_) .outSoon
      split
      exacts [.ite hw (.storePart hw), hw]

protected theorem TryCanonical.tryStore {till : Nat} (hs : Canonical s) : TryCanonical (tryStore s h g uni n accs till) := by
  unfold tryStore
  dsimp only
  split
  · exact .bad (.checkAll hs)
  · exact .ite (.wait (.each (.checkAll hs) (fun _ _ => .dropOther))) (.done (.performStore
      (.each (.each (.checkAll hs) (fun _ _ => .dropOther)) (fun _ _ => .doomThread))))

protected theorem NextCanonical.execSt (hs : Canonical s) : NextCanonical (execSt f d s) := by
  unfold execSt
  dsimp only
  split
  · exact .fault
  · refine .ite (.next hs) ?_
    split
    · rename_i u he1
      have hu : Canonical u := TryCanonical.of_eq he1 (.tryStore hs)
      exact .next (.raise hu)
    · rename_i u he1
      have hu : Canonical u := TryCanonical.of_eq he1 (.tryStore hs)
      exact .next hu
    · rename_i u he1
      have hu : Canonical u := TryCanonical.of_eq he1 (.tryStore hs)
      split
      exacts [.next hu, .next (.retire hu)]

protected theorem Canonical.spaceStore (hs : Canonical s) : Canonical (spaceStore s h g pocket n accs) :=
  .each hs (fun _ _ hu => .ite (.modCtx hu) (.modTeam hu))

protected theorem NextCanonical.issueSpaceStoreRun {l : Option Word} {io : Io} (hs : Canonical s) :
    NextCanonical (issueSpaceStoreRun s f l pocket fall n io data) := by
  unfold issueSpaceStoreRun
  dsimp only
  split
  · exact .fault
  · refine .ite (.next hs) ?_
    split
    · exact .next (.raise hs)
    · refine .ite (.next (.park hs)) ?_
      split
      exacts [.next (.spaceStore (.ite hs (.fallBack hs))), .next (.retire (.spaceStore (.ite hs (.fallBack hs))))]

protected theorem NextCanonical.issueSpaceStore (hs : Canonical s) : NextCanonical (issueSpaceStore s f d pocket) :=
  .issueSpaceStoreRun hs

protected theorem NextCanonical.execSts (hs : Canonical s) : NextCanonical (execSts f d s) := .issueSpaceStore hs
protected theorem NextCanonical.execStp (hs : Canonical s) : NextCanonical (execStp f d s) := .issueSpaceStore hs

protected theorem Canonical.putAway {lines : List Nat} (hs : Canonical s) : Canonical (putAway s c lines) :=
  .each hs (fun _ _ => .maintain)

protected theorem Canonical.sendHost (hs : Canonical s) : Canonical (sendHost s c h) := .each hs (fun _ _ => .writeBack)

protected theorem NextCanonical.execStrl (hs : Canonical s) : NextCanonical (execStrl f d s) := by
  unfold execStrl
  dsimp only
  split
  · exact .fault
  · refine .ite (.next hs) ?_
    split
    · exact .next (.raise (.checkAll (.forbid hs)))
    · refine .ite ?_ (.ite (.next (.checkAll (.forbid hs))) (.ite (.ite (.next (.also (.putAway (.fallBack (.checkAll
        (.forbid hs)))) .sendHost)) ?_) (.ite (.next (.each (.fallBack (.checkAll (.forbid hs))) (fun _ _ => .dropOther)))
        ?_)))
      · split
        exacts [.next (.checkAll (.forbid hs)), .next (.retire (.checkAll (.forbid hs)))]
      · split
        · exact .next (.each (.also (.putAway (.fallBack (.checkAll (.forbid hs)))) .sendHost) (fun _ _ hu => .each hu (fun _
            _ hu1 => .send (.addOut hu1))))
        · exact .next (.retire (.each (.also (.putAway (.fallBack (.checkAll (.forbid hs)))) .sendHost) (fun _ _ hu => .each
            hu (fun _ _ hu1 => .send (.addOut hu1)))))
      · split
        · exact .next (.performStore (.each (.fallBack (.checkAll (.forbid hs))) (fun _ _ => .dropOther)))
        · exact .next (.retire (.performStore (.each (.fallBack (.checkAll (.forbid hs))) (fun _ _ => .dropOther))))

protected theorem NextCanonical.issueMaintain {drop : Bool} (hs : Canonical s) : NextCanonical (issueMaintain s f drop) := by
  unfold issueMaintain
  refine .issueAddr hs (fun u n k y y1 hu => ?_)
  dsimp only
  split
  · exact .inr trivial
  · exact .inl (.each (.ite (.checkAll hu) (.fallBack (.checkAll hu))) (fun _ _ hu1 => .also (.maintain hu1) .dropNear))

protected theorem NextCanonical.execClean (hs : Canonical s) : NextCanonical (execClean f s) := .issueMaintain hs
protected theorem NextCanonical.execInval (hs : Canonical s) : NextCanonical (execInval f s) := .issueMaintain hs

protected theorem NextCanonical.issueGroup {body : State → Nat → Group → State} (hs : Canonical s)
    (hbody : ∀ u n k, Canonical u → Canonical (body u n k)) :
    NextCanonical (issueGroup s f tx fall body) := by
  unfold issueGroup
  dsimp only
  split
  · exact .fault
  · split
    · refine .next (.ite (.also (.ite (.forbid hs) hs) .fallBack) ?_)
      split
      exacts [hbody _ _ _ (.also (.ite (.forbid hs) hs) .fallBack), .also (.ite (.forbid hs) hs) .fallBack]
    · refine .next (.retire (.ite (.also (.ite (.forbid hs) hs) .fallBack) ?_))
      split
      exacts [hbody _ _ _ (.also (.ite (.forbid hs) hs) .fallBack), .also (.ite (.forbid hs) hs) .fallBack]

protected theorem NextCanonical.execFlushn (hs : Canonical s) : NextCanonical (execFlushn f s) :=
  .issueGroup hs (fun _ _ _ hu => .each hu (fun _ _ => .maintain))

protected theorem NextCanonical.execAcas (hs : Canonical s) : NextCanonical (execAcas f s) := .issueVirt hs

protected theorem Canonical.arednPart (hs : Canonical s) : Canonical (arednPart s h g f n a p) := by
  unfold arednPart
  dsimp only
  split
  · rename_i u he
    have hu : Canonical u := WhenSome.of_eq he (.atomNear hs)
    exact .outSoon hu
  · exact .send (.addOut hs)

protected theorem NextCanonical.execAredn (hs : Canonical s) : NextCanonical (execAredn f s) := by
  unfold execAredn
  dsimp only
  split
  · exact .fault
  · refine .ite (.next hs) ?_
    split
    · exact .next (.raise (.checkAll (.forbid hs)))
    · refine .ite (.next (.checkAll (.forbid hs))) (.ite (.next (.putAway (.ite (.checkAll (.forbid hs)) (.fallBack
        (.checkAll (.forbid hs)))))) ?_)
      split
      · refine .next (.each (.putAway (.ite (.checkAll (.forbid hs)) (.fallBack (.checkAll (.forbid hs))))) (fun u a hu =>
          ?_))
        split
        exacts [.each hu (fun _ _ => .arednPart), hu]
      · refine .next (.retire (.each (.putAway (.ite (.checkAll (.forbid hs)) (.fallBack (.checkAll (.forbid hs))))) (fun u a
          hu => ?_)))
        split
        exacts [.each hu (fun _ _ => .arednPart), hu]

protected theorem Canonical.drainCore {grp drain : Option Nat} (hs : Canonical s) : Canonical (drainCore s c grp drain) :=
  .each hs (fun _ _ => .writeBack)

protected theorem Canonical.releasePart {wide : Bool} (hs : Canonical s) : Canonical (releasePart s h g wide).2 :=
  .ite_snd hs (.ite_snd hs (.ite_snd (.modCtx (.drainCore hs)) hs))

protected theorem NextCanonical.fenceFrom (hs : Canonical s) : NextCanonical (fenceFrom s h g f) := by
  unfold fenceFrom
  dsimp only
  refine .ite (.next (.ite_snd hs (.releasePart hs))) ?_
  split
  · exact .next (.ite_snd hs (.releasePart hs))
  · exact .next (.retire (.ite (.ite_snd hs (.releasePart hs)) (.dropStale (.ite_snd hs (.releasePart hs)))))

protected theorem NextCanonical.execFence (hs : Canonical s) : NextCanonical (execFence f s) := by
  unfold execFence
  dsimp only
  split
  · exact .fault
  · refine .ite (.next (.retire (.setGroup hs))) ?_
    split
    exacts [.next (.fallBack (.forbid (.setGroup hs))), .fenceFrom (.fallBack (.forbid (.setGroup hs)))]

protected theorem Canonical.arriveBar {b : Nat} {bar : Bar} (hs : Canonical s) : Canonical (arriveBar s h g b bar wait) :=
  .ite (.modCtx (.modTeam (.spend hs))) (.also (.modGroup (.modTeam (.spend hs))) .postPark)

protected theorem NextCanonical.issueBar {drain : Bool} (hs : Canonical s) : NextCanonical (issueBar s f wait drain) := by
  unfold issueBar
  dsimp only
  split
  · exact .fault
  · exact .ite (.next (.modGroup (.fallBack (.setGroup hs)))) (.ite (.next (.raise (.fallBack (.setGroup hs)))) (.ite
      (.next (.releasePart (.fallBack (.setGroup hs)))) (.next (.barrierCheck
      (.arriveBar (.releasePart (.fallBack (.setGroup hs))))))))

protected theorem NextCanonical.issueMma {zero : Bool} (hs : Canonical s) : NextCanonical (issueMma s f zero) := by
  unfold issueMma
  dsimp only
  split
  exacts [.fault, .issueLong hs]

protected theorem NextCanonical.execMma (hs : Canonical s) : NextCanonical (execMma f s) := .issueMma hs
protected theorem NextCanonical.execMmaz (hs : Canonical s) : NextCanonical (execMmaz f s) := .issueMma hs
protected theorem NextCanonical.execMlds (hs : Canonical s) : NextCanonical (execMlds f s) := .issueSpaceRun hs
protected theorem NextCanonical.execMsts (hs : Canonical s) : NextCanonical (execMsts f s) := .issueSpaceStoreRun hs

protected theorem NextCanonical.execMtrn (hs : Canonical s) : NextCanonical (execMtrn f s) := by
  unfold execMtrn
  exact .issue hs

end Sys2Proof.Machine
end

section
/-! Memory stays canonical under the operations of one operation of each engine. -/

namespace Sys2Proof.Machine

variable {s : State} {cid g j k m n q r slot va : Nat} {a base scale : Word} {c : Cmd} {bs : List Byte} {full : Nat → Bool}
  {e : Int} {tm : Team}

protected theorem WhenOk.virtRead (hs : Canonical s) : WhenOk (fun p => Canonical p.2) (virtRead s c va n) := by
  unfold virtRead
  refine .foldl (.ok hs) fun r a hr => ?_
  dsimp only
  split
  · exact .error
  · rename_i u
    have hu : Canonical u := hr
    split
    · exact .error
    · refine .ite (.ok hu) (.ok ?_)
      dsimp only
      exact .readAtHome (.dirEvent (.demandHome hu))

protected theorem WhenOk.engRead (hs : Canonical s) : WhenOk (fun p => Canonical p.2) (engRead s cid c a n) :=
  .ite (.ite .error (.ok hs)) (.virtRead hs)

protected theorem Canonical.sendScratch {a : Nat} (hs : Canonical s) : Canonical (sendScratch s cid c a bs) :=
  .send (.modCmd (.newId hs))

protected theorem Canonical.engStore {pa : Nat} {full : Bool} (hs : Canonical s) :
    Canonical (engStore s cid c pa slot bs full) :=
  .modCmd (.also (.writeAtHome (.dirEvent hs)) .modLine)

protected theorem WhenOk.virtWrite (hs : Canonical s) : WhenOk Canonical (virtWrite s cid c va bs full) := by
  unfold virtWrite
  dsimp only
  split
  exacts [.error, .ok (.each hs (fun _ _ => .engStore))]

protected theorem WhenOk.engWrite (hs : Canonical s) : WhenOk Canonical (engWrite s cid c a bs full) :=
  .ite (.ok (.each hs (fun _ _ => .sendScratch))) (.virtWrite hs)

protected theorem Canonical.advance (hs : Canonical s) : Canonical (advance s cid n) := .modCmd hs

protected theorem EngCanonical.copyStep (hs : Canonical s) : EngCanonical (copyStep s cid c) := by
  unfold copyStep
  dsimp only
  refine .ite .done (.ite ?_ ?_)
  · split
    · exact .stop
    · rename_i u he
      have hu : Canonical u := WhenOk.of_eq he (.engWrite hs)
      exact .op (.advance hu)
  · split
    · exact .stop
    · rename_i u he
      have hu : Canonical u := WhenOk.of_eq he (.engRead hs)
      split
      · exact .stop
      · rename_i u1 he1
        have hu1 : Canonical u1 := WhenOk.of_eq he1 (.engWrite hu)
        exact .op (.advance hu1)

protected theorem WhenOk.lnRead {o : Nat} (hs : Canonical s) : WhenOk (fun p => Canonical p.2) (lnRead s cid c o e) := by
  unfold lnRead
  dsimp only
  split
  · exact .ok hs
  · split
    · exact .error
    · rename_i u he1
      have hu : Canonical u := WhenOk.of_eq he1 (.engRead hs)
      exact .ok hu

protected theorem WhenOk.lnElem {ix iy : Int} {acc : Nat} (hs : Canonical s) :
    WhenOk (fun p => Canonical p.2) (lnElem s cid c ix iy acc) := by
  unfold lnElem
  split
  · exact .error
  · rename_i u he
    have hu : Canonical u := WhenOk.of_eq he (.lnRead hs)
    refine .ite ?_ (.ok hu)
    split
    · exact .error
    · rename_i u1 he1
      have hu1 : Canonical u1 := WhenOk.of_eq he1 (.lnRead hu)
      exact .ok hu1

protected theorem WhenOk.lnResult (hs : Canonical s) : WhenOk (fun p => Canonical p.2) (lnResult s cid c n) := by
  unfold lnResult
  dsimp only
  refine .ite (.lnElem hs) (.foldl (.ok hs) (fun r b hu => ?_))
  split
  exacts [.error, .lnElem hu]

protected theorem Canonical.lnKeep (hs : Canonical s) : Canonical (lnKeep s cid c e) := by
  unfold lnKeep
  dsimp only
  split
  · exact hs
  · refine .ite hs ?_
    split
    exacts [.modCmd hs, hs]

protected theorem EngCanonical.lnestStep (hs : Canonical s) : EngCanonical (lnestStep s cid c) := by
  unfold lnestStep
  extract_lets out f per r
  have hr : WhenOk (fun p => Canonical p.2) r := by
    refine .foldl (.ok hs) fun r i hr => ?_
    split
    · exact .error
    · rename_i u
      have hu : Canonical u := hr
      split
      · exact .error
      · rename_i v he
        exact .ok (WhenOk.of_eq he (.lnResult hu))
  clear_value r
  refine .ite .done ?_
  split
  · exact .stop
  · rename_i u
    have hu : Canonical u := hr
    split
    extract_lets v w
    have hw : Canonical w := .each hu fun _ _ hx => .lnKeep hx
    split
    · exact .stop
    · rename_i he
      exact .op (.advance (WhenOk.of_eq he (.engWrite hw)))

protected theorem WhenOk.prStream {i : Nat} (hs : Canonical s) : WhenOk (fun p => Canonical p.2) (prStream s c i m) := by
  unfold prStream
  dsimp only
  split
  · exact .error
  · rename_i u he
    have hu : Canonical u := WhenOk.of_eq he (.virtRead hs)
    exact .ok hu

protected theorem EngCanonical.pressShareStep (hs : Canonical s) : EngCanonical (pressShareStep s cid c) := by
  unfold pressShareStep
  refine .ite .done ?_
  split
  extract_lets sz full r
  have hr : WhenOk (fun p => Canonical p.2) r := by
    refine .foldl (.ok hs) fun r i hr => ?_
    split
    · exact .error
    · rename_i u
      have hu : Canonical u := hr
      refine .ite ?_ (.ok hu)
      split
      · exact .error
      · rename_i v he
        exact .ok (WhenOk.of_eq he (.prStream hu))
  clear_value r
  split
  · exact .stop
  · rename_i u
    have hu : Canonical u := hr
    split
    · exact .stop
    · dsimp only
      exact .op (.advance (.ite (.post (.engStore hu)) (.post (.modCmd (.modLine (.memWrite hu))))))

protected theorem Canonical.tasSet {v : Nat} (hs : Canonical s) : Canonical (tasSet s tm g j v) := .modCore hs
protected theorem Canonical.tasFlagsSet {fl : Nat} (hs : Canonical s) : Canonical (tasFlagsSet s tm g j fl) := .modCore hs

protected theorem Canonical.tasClear {z : Shape} (hs : Canonical s) : Canonical (tasClear s tm z) :=
  .each hs (fun _ _ hu => .also (.each hu (fun _ _ => .tasSet)) (fun h => .each h (fun _ _ => .tasFlagsSet)))

protected theorem WhenOk.rowBlock (hs : Canonical s) :
    WhenOk (fun p => Canonical p.2) (rowBlock s cid c slot base scale k r j n) := by
  unfold rowBlock
  dsimp only
  refine .ite (.ite ?_ ?_) ?_
  · split
    · exact .error
    · rename_i u he
      have hu : Canonical u := WhenOk.of_eq he (.engRead hs)
      split
      · exact .error
      · rename_i u1 he1
        have hu1 : Canonical u1 := WhenOk.of_eq he1 (.engRead hu)
        exact .ok hu1
  · split
    · exact .error
    · rename_i u he
      have hu : Canonical u := WhenOk.of_eq he (.engRead hs)
      exact .ok hu
  · split
    · exact .error
    · rename_i u he
      have hu : Canonical u := WhenOk.of_eq he (.engRead hs)
      exact .ok hu

protected theorem WhenOk.rowK (hs : Canonical s) : WhenOk (fun p => Canonical p.2) (rowK s cid c slot base scale k r q) := by
  unfold rowK
  refine .foldl (.ok hs) (fun r1 b hu => ?_)
  dsimp only
  split
  · exact .error
  · refine .ite (.ok hu) ?_
    split
    · exact .error
    · rename_i u1 he
      have hu1 : Canonical u1 := WhenOk.of_eq he (.rowBlock hu)
      exact .ok hu1

protected theorem WhenOk.rowsK (hs : Canonical s) :
    WhenOk (fun p => Canonical p.2) (rowsK s cid c slot base scale k m q) := by
  unfold rowsK
  refine .foldl (.ok hs) (fun r b hu => ?_)
  split
  · exact .error
  · split
    · exact .error
    · rename_i u1 he
      have hu1 : Canonical u1 := WhenOk.of_eq he (.rowK hu)
      exact .ok hu1

protected theorem EngCanonical.tmmaStep (hs : Canonical s) : EngCanonical (tmmaStep s cid c) := by
  unfold tmmaStep
  dsimp only
  refine .ite .done ?_
  split
  · exact .stop
  · rename_i u he
    have hu : Canonical u := WhenOk.of_eq he (.rowsK hs)
    split
    · exact .stop
    · rename_i u1 he1
      have hu1 : Canonical u1 := WhenOk.of_eq he1 (.rowsK hu)
      exact .op (.advance (.each hu1 (fun _ _ hu2 => .each hu2 (fun _ _ hu3 => .tasFlagsSet (.tasSet hu3)))))

protected theorem Canonical.tileNote (hs : Canonical s) : Canonical (tileNote s c) :=
  .each hs (fun _ _ hu => .each hu (fun _ _ => .tasFlagsSet))

protected theorem EngCanonical.tstoreStep (hs : Canonical s) : EngCanonical (tstoreStep s cid c) := by
  unfold tstoreStep
  dsimp only
  refine .ite ?_ (.ite (.ite .stop (.ite (.op (.advance (.ite (.tasClear hs) (.tileNote hs)))) ?_)) .done)
  · split
    · exact .stop
    · rename_i u he
      have hu : Canonical u := WhenOk.of_eq he (.engWrite hs)
      refine .ite ?_ (.op (.advance hu))
      split
      · exact .stop
      · rename_i u1 he1
        have hu1 : Canonical u1 := by
          refine WhenOk.of_eq he1 (.foldl (.ok hu) (fun r b hu1 => ?_))
          split
          exacts [.error, .engWrite hu1]
        exact .op (.advance hu1)
  · split
    exacts [.stop, .op (.advance (.ite (.tasClear (.engStore (.readAtHome hs))) (.tileNote (.engStore (.readAtHome hs)))))]

protected theorem EngCanonical.tzeroStep (hs : Canonical s) : EngCanonical (tzeroStep s cid c) :=
  .ite (.op (.advance (.tasClear hs))) .done

protected theorem EngCanonical.collStep {agree : Bool} {ranks : List (List W32)} (hs : Canonical s) :
    EngCanonical (collStep s cid c agree ranks) := by
  unfold collStep
  refine .ite .done ?_
  dsimp only
  split
  · exact .stop
  · rename_i u he
    have hu : Canonical u := WhenOk.of_eq he (.virtRead hs)
    refine .ite .stop (.ite .stop ?_)
    split
    · exact .stop
    · rename_i u1 he1
      have hu1 : Canonical u1 := WhenOk.of_eq he1 (.virtRead hu)
      split
      · exact .stop
      · rename_i u2 he2
        have hu2 : Canonical u2 := WhenOk.of_eq he2 (.virtWrite hu1)
        exact .op (.advance hu2)

protected theorem EngCanonical.nextOp (hs : Canonical s) : EngCanonical (nextOp s cid c) := by
  unfold nextOp
  split
  · exact .copyStep hs
  · exact .copyStep hs
  · exact .lnestStep hs
  · exact .pressShareStep hs
  · exact .tmmaStep hs
  · exact .tstoreStep hs
  · exact .tzeroStep hs
  · exact .ite .stop .done

end Sys2Proof.Machine
end

section
/-! Memory stays canonical under the operations of transactions, the slices and the homes. -/

namespace Sys2Proof.Machine

variable {s : State} {c die h la le slot t wv : Nat} {f : FOps} {r : LineReq} {data : LineData} {d : Due} {m : AcqMsg}
  {modified : Bool}

protected theorem Canonical.openTx (hs : Canonical s) : Canonical (openTx s h t) := by
  unfold openTx
  split
  exacts [hs, .ite (.doomThread hs) (.modCtx hs)]

protected theorem NextCanonical.issueTx {op : Op} {body : State → Nat → Group → Word → State} (hs : Canonical s)
    (hbody : ∀ u n k y, Canonical u → Canonical (body u n k y)) :
    NextCanonical (issueTx s op f body) := by
  unfold issueTx
  split
  · rename_i u he
    have hu : Canonical u := NextCanonical.of_eq he (.issue hs)
    split
    exacts [.ite (.next hu) (.next (hbody _ _ _ _ hu)), .next hu]
  · exact .issue hs

protected theorem NextCanonical.execTxb (hs : Canonical s) : NextCanonical (execTxb f s) :=
  .issueTx hs (fun _ _ _ _ hu => .each (.ite hu (.fallBack hu)) (fun _ _ => .openTx))

protected theorem NextCanonical.execTxa (hs : Canonical s) : NextCanonical (execTxa f s) :=
  .issueTx hs (fun _ _ _ _ => .doomThreads)

protected theorem Canonical.txWrite {rv : Nat} (hs : Canonical s) : Canonical (txWrite s h c t rv).2 :=
  .foldl_snd hs (fun _ _ hu => .modCore (.writeAtHome hu))

protected theorem Canonical.closeTx (hs : Canonical s) : Canonical (closeTx s h t).2 := by
  unfold closeTx
  dsimp only
  split
  · dsimp only
    exact hs
  · split
    · dsimp only
      exact hs
    · exact .ite_snd (.postGroup (.modCtx (.dropTxLines hs))) (.ite_snd (.postGroup
        (.modCtx (.dropTxLines (.modCtx (.txWrite (.each hs (fun _ _ => .flushDirty))))))) (.postGroup (.modCtx
        (.dropTxLines (.each hs (fun _ _ => .flushDirty))))))

protected theorem NextCanonical.execTxe (hs : Canonical s) : NextCanonical (execTxe f s) := by
  unfold execTxe
  dsimp only
  split
  · exact .fault
  · refine .ite (.next (.setGroup hs)) ?_
    split
    · exact .next (.raise (.setGroup hs))
    · exact .next (.parkRegs (.setGroup hs))
    · refine .ite (.next (.setGroup hs)) ?_
      split
      · exact .next (.foldl_snd (.setGroup hs) (fun _ _ => .closeTx))
      · exact .next (.retire (.foldl_snd (.setGroup hs) (fun _ _ => .closeTx)))

protected theorem NextCanonical.execTransactionDoom (hs : Canonical s) : NextCanonical (execTransactionDoom s) := by
  unfold execTransactionDoom
  split
  exacts [.ite (.next (.doomThread hs)) .notNow, .notNow]

protected theorem NextCanonical.execPressPrefetch (hs : Canonical s) : NextCanonical (execPressPrefetch s) := by
  unfold execPressPrefetch
  dsimp only
  refine .ite .notNow (.next (.modPrefP ?_))
  split
  exacts [.ite (.postPref (.modPrefP hs)) hs, hs]

protected theorem Canonical.setBusy {b : Busy} (hs : Canonical s) : Canonical (setBusy s la b) := .modLine hs
protected theorem Canonical.reply (hs : Canonical s) : Canonical (reply s r data wv le) := .ite hs (.send hs)

protected theorem Canonical.answerRead {forwarded : Bool} (hs : Canonical s) : Canonical (answerRead s die r forwarded) :=
  .ite (.reply (.also (.modLine (.recallDie hs)) .fillHome)) (.reply (.dieCopy (.modLine (.recallDie hs))))

protected theorem Canonical.answerExcl (hs : Canonical s) : Canonical (answerExcl s die r) :=
  .send (.dirSync (.ite (.modLine (.fillHome hs)) (.modLine (.sliceRoom (.fillHome hs)))))

protected theorem Canonical.startFill {tenant : Nat} (hs : Canonical s) : Canonical (startFill s d die la slot tenant) :=
  .send (.setBusy (.ite (.fillAt hs) (.demandHome hs)))

protected theorem Canonical.startCensus {e : DirEnt} (hs : Canonical s) : Canonical (startCensus s d e la) :=
  .each (.setBusy hs) (fun _ _ => .send)

protected theorem Canonical.dropSlots (hs : Canonical s) : Canonical (dropSlots s la slot) := .ite (.gather hs) hs

protected theorem Canonical.startRead (hs : Canonical s) : Canonical (startRead s d die r) := by
  unfold startRead
  dsimp only
  refine .ite (.startCensus (.dirEvent (.ite (.recallDie (.dropSlots hs)) (.dirRoom (.recallDie (.dropSlots hs)))))) ?_
  split
  · exact .ite (.send (.setBusy (.dirEvent (.ite (.recallDie (.dropSlots hs)) (.dirRoom (.recallDie (.dropSlots hs)))))))
      (.answerRead (.dirEvent (.ite (.recallDie (.dropSlots hs)) (.dirRoom (.recallDie (.dropSlots hs))))))
  · exact .ite (.startFill (.ite (.recallDie (.dropSlots hs)) (.dirRoom (.recallDie (.dropSlots hs))))) (.answerRead
      (.dirEvent (.ite (.recallDie (.dropSlots hs)) (.dirRoom (.recallDie (.dropSlots hs))))))

protected theorem Canonical.startExcl (hs : Canonical s) : Canonical (startExcl s d die r) := by
  unfold startExcl
  dsimp only
  refine .ite (.startCensus (.dirEvent (.ite (.recallDie (.dropSlots hs)) (.dirRoom (.recallDie (.dropSlots hs)))))) (.ite
    (.ite (.startFill (.ite (.recallDie (.dropSlots hs)) (.dirRoom (.recallDie (.dropSlots hs))))) (.answerExcl (.dirEvent
    (.ite (.recallDie (.dropSlots hs)) (.dirRoom (.recallDie (.dropSlots hs))))))) ?_)
  split
  · exact .send (.each (.setBusy (.dirEvent (.ite (.recallDie (.dropSlots hs)) (.dirRoom (.recallDie (.dropSlots hs))))))
      (fun _ _ => .send))
  · exact .each (.setBusy (.dirEvent (.ite (.recallDie (.dropSlots hs)) (.dirRoom (.recallDie (.dropSlots hs)))))) (fun _ _
      => .send)

protected theorem Canonical.startUp (hs : Canonical s) : Canonical (startUp s d die r) :=
  .ite (.startExcl hs) (.ite (.startCensus (.dirEvent (.dropSlots hs))) (.ite (.answerExcl (.dirEvent (.dropSlots hs)))
    (.each (.setBusy (.dirEvent (.dropSlots hs))) (fun _ _ => .send))))

protected theorem Canonical.finishAcquire {vmax : Nat} (hs : Canonical s) : Canonical (finishAcquire s m vmax) := by
  unfold finishAcquire
  dsimp only
  split
  · exact .observe (.ite (.recheckWin (.modLine (.readFor (.dirEvent hs)))) (.finishWin (.modWin
      (.recheckWin (.modLine (.readFor (.dirEvent hs)))))))
  · exact .observe (.recheckWin (.modLine (.readFor (.dirEvent hs))))

protected theorem Canonical.startAcquire (hs : Canonical s) : Canonical (startAcquire s d m) :=
  .ite (.finishAcquire (.demandHome hs)) (.each (.setBusy (.demandHome hs)) (fun _ _ => .send))

protected theorem Canonical.performed {core g id : Nat} (hs : Canonical s) : Canonical (performed s core g id la) :=
  .send (.modCore hs)

protected theorem Canonical.performRelease {m : RelMsg} (hs : Canonical s) : Canonical (performRelease s m) :=
  .performed (.modLine (.writeAtHome (.dirEvent (.demandHome hs))))

protected theorem Canonical.startRelease {m : RelMsg} (hs : Canonical s) : Canonical (startRelease s d m) := by
  unfold startRelease
  split
  exacts [.ite (.send (.setBusy hs)) (.performRelease hs), .performRelease hs]

protected theorem Canonical.startAtomic {m : AtomMsg} (hs : Canonical s) : Canonical (startAtomic s m) := by
  unfold startAtomic
  dsimp only
  exact .performed (.writeAtHome (.readAtHome (.dirEvent (.demandHome hs))))

protected theorem Canonical.startProbe (hs : Canonical s) : Canonical (startProbe s d) :=
  .send (.modLine (.ite (.gather (.dirEvent hs)) (.fillHome (.gather (.dirEvent hs)))))

protected theorem Canonical.homeStart (hs : Canonical s) : Canonical (homeStart s d) := by
  unfold homeStart
  split
  exacts [.startRead hs, .startExcl hs, .startUp hs, .startAcquire hs, .startRelease hs, .startAtomic hs, .startProbe hs, hs]

protected theorem Canonical.pump {fuel : Nat} (hs : Canonical s) : Canonical (pump fuel s la) := by
  induction fuel generalizing s with
  | zero => exact hs
  | succ fuel ih =>
    unfold pump
    refine .ite hs ?_
    split
    exacts [hs, ih (.homeStart (.modLine hs))]

protected theorem Canonical.serveLine (hs : Canonical s) : Canonical (serveLine s la) := .pump hs
protected theorem Canonical.arrive (hs : Canonical s) : Canonical (arrive s la d) := .serveLine (.modLine hs)

protected theorem Canonical.endBusy {next : State → State} (hs : Canonical s)
    (hnext : ∀ u, Canonical u → Canonical (next u)) :
    Canonical (endBusy s la next) :=
  .serveLine (hnext _ (.setBusy hs))

protected theorem NextCanonical.execNearCacheMiss (hs : Canonical s) : NextCanonical (execNearCacheMiss r s) := by
  unfold execNearCacheMiss
  dsimp only
  refine .ite .notNow (.ite (.next (.send (.demandAt hs))) ?_)
  split
  · exact .next (.send (.demandAt hs))
  · exact .ite (.next (.send (.demandAt hs))) (.ite (.ite (.next (.send (.dirSync (.modLine (.demandAt hs)))))
      (.next (.send (.demandAt hs)))) (.ite (.next (.reply (.modLine (.recallDie (.demandAt hs))))) (.ite (.next
      (.reply (.demandAt hs))) (.next (.send (.demandAt hs))))))

protected theorem NextCanonical.execForwardShared (hs : Canonical s) : NextCanonical (execForwardShared s) := by
  unfold execForwardShared
  dsimp only
  refine .ite .notNow ?_
  split
  exacts [.next (.send (.recallDie hs)), .next (.send (.modLine (.recallDie hs)))]

protected theorem NextCanonical.execForwardExclusive (hs : Canonical s) : NextCanonical (execForwardExclusive s) := by
  unfold execForwardExclusive
  dsimp only
  refine .ite .notNow ?_
  split
  exacts [.next (.send (.recallDie hs)), .next (.send (.modLine (.unused (.recallDie hs))))]

protected theorem Canonical.resumeReq {acks : List Nat} {fwd : Option Nat} (hs : Canonical s) :
    Canonical (resumeReq s d acks fwd la) := by
  unfold resumeReq
  split
  · exact .endBusy hs (fun _ => .answerRead)
  · exact .ite (.endBusy hs (fun _ => .answerExcl)) (.setBusy hs)
  · exact .ite (.endBusy hs (fun _ => .answerExcl)) (.setBusy hs)
  · exact .endBusy hs (fun _ hu => hu)

protected theorem Canonical.absorb (hs : Canonical s) : Canonical (absorb s la data modified) :=
  .modLine (.ite hs (.sliceRoom hs))

protected theorem NextCanonical.execForwardReply (hs : Canonical s) :
    NextCanonical (execForwardReply die la data modified s) := by
  unfold execForwardReply
  split
  · exact .ite (.next (.resumeReq (.dirSync (.absorb hs)))) .notNow
  · exact .ite (.next (.resumeReq (.dirSync (.absorb hs)))) .notNow
  · exact .notNow

protected theorem NextCanonical.execNoDataReply (hs : Canonical s) : NextCanonical (execNoDataReply s) := by
  unfold execNoDataReply
  dsimp only
  refine .ite .notNow ?_
  split
  · exact .ite (.next (.resumeReq hs)) .notNow
  · exact .ite (.next (.resumeReq (.fillHome (.dirSync hs)))) .notNow
  · exact .ite (.next (.resumeReq (.dirSync hs))) .notNow
  · exact .notNow

protected theorem NextCanonical.execInvalidation (hs : Canonical s) : NextCanonical (execInvalidation s) :=
  .ite .notNow (.next (.send (.modLine (.ite (.unused hs) hs))))

protected theorem NextCanonical.execInvalidationAck (hs : Canonical s) : NextCanonical (execInvalidationAck s) := by
  unfold execInvalidationAck
  dsimp only
  split
  · refine .ite ?_ (.next (.setBusy hs))
    split
    exacts [.next (.endBusy hs (fun _ => .answerExcl)), .next (.endBusy hs (fun _ hu => hu))]
  · exact .next (.resumeReq hs)
  · exact .next (.setBusy hs)
  · exact .notNow

protected theorem NextCanonical.execSliceWriteback {st : Moesi} (hs : Canonical s) :
    NextCanonical (execSliceWriteback die la data st s) := by
  unfold execSliceWriteback
  dsimp only
  split
  · exact .ite (.next (.post (.setBusy (.dirEvent (.dirSync (.ite (.absorb hs) hs)))))) (.next (.serveLine
      (.dirEvent (.dirSync (.ite (.absorb hs) hs)))))
  · exact .ite (.next (.post (.setBusy (.dirEvent (.dirSync (.ite (.absorb hs) hs)))))) (.next (.serveLine
      (.dirEvent (.dirSync (.ite (.absorb hs) hs)))))
  · exact .next (.serveLine (.dirEvent (.dirSync (.ite (.absorb hs) hs))))

protected theorem NextCanonical.execSliceEviction (hs : Canonical s) : NextCanonical (execSliceEviction s) := by
  unfold execSliceEviction
  dsimp only
  refine .ite .notNow (.ite (.ite (.next (.dropSliceLine hs)) .notNow) ?_)
  split
  exacts [.notNow, .next (.dropSliceLine (.ite (.recallDie hs) hs))]

protected theorem NextCanonical.execSliceRecall (hs : Canonical s) : NextCanonical (execSliceRecall s) := by
  unfold execSliceRecall
  dsimp only
  refine .ite .notNow ?_
  split
  exacts [.notNow, .next (.dirEvent (.dirSync (.modLine (.unused (.also (.fillHome (.recallDie hs)) .absorb)))))]

protected theorem NextCanonical.execFillFromMemory (hs : Canonical s) : NextCanonical (execFillFromMemory s) := by
  unfold execFillFromMemory
  dsimp only
  split
  exacts [.next (.endBusy (.fillHome hs) (fun _ => .homeStart)), .next (.fillHome hs), .notNow]

protected theorem NextCanonical.execDirectoryCensus (hs : Canonical s) : NextCanonical (execDirectoryCensus s) := by
  unfold execDirectoryCensus
  dsimp only
  split <;> exact .next (.send hs)

protected theorem NextCanonical.execCensusReply {part : Nat} {lower upper : Bool} (hs : Canonical s) :
    NextCanonical (execCensusReply part la die lower upper s) := by
  unfold execCensusReply
  dsimp only
  split
  · refine .ite .notNow (.ite (.next (.setBusy hs)) (.next (.endBusy ?_ (fun _ => .homeStart))))
    split
    exacts [hs, .post (.entryRoom hs)]
  · exact .notNow

protected theorem NextCanonical.execDirectoryMerge (hs : Canonical s) : NextCanonical (execDirectoryMerge s) := by
  unfold execDirectoryMerge
  dsimp only
  split
  · exact .notNow
  · split
    exacts [.notNow, .ite (.next (.post (.of_mem hs rfl))) .notNow]

protected theorem Canonical.serveCore {kind : CopyKind} {v : Nat} {pass : Option Passing} (hs : Canonical s) :
    Canonical (serveCore s c la kind v pass) := by
  unfold serveCore
  refine .each hs (fun u a hu => ?_)
  dsimp only
  split
  · exact hu
  · refine .ite hu ?_
    split
    · exact .also (.serveWin hu) .modWin
    · split
      · split
        exacts [.askLine (.also (.serveWin hu) .modWin), .also (.serveWin hu) .modWin]
      · exact .also (.serveWin hu) .modWin

protected theorem NextCanonical.execNearCacheFill (hs : Canonical s) : NextCanonical (execNearCacheFill r data wv le s) :=
  .ite (.next (.serveCore (.install (.observe hs)))) (.ite (.next (.serveCore (.observe hs))) (.ite
    (.next (.serveCore (.observe hs))) (.ite (.next (.serveCore (.dropOther (.observe hs)))) (.next (.serveCore
    (.install (.dropOther (.observe hs))))))))

protected theorem NextCanonical.execExclusiveGrant (hs : Canonical s) : NextCanonical (execExclusiveGrant die r s) :=
  .next (.serveLine (.serveCore (.observe (.install (.fillHome (.landFlights (.dropOther (.each hs (fun _ _ =>
    .recallNear)))))))))

protected theorem NextCanonical.execNearCacheRecall (hs : Canonical s) : NextCanonical (execNearCacheRecall s) :=
  .ite (.next (.recallNear hs)) .notNow

protected theorem NextCanonical.execNearCacheWriteback {m : WbMsg} (hs : Canonical s) :
    NextCanonical (execNearCacheWriteback m s) := by
  unfold execNearCacheWriteback
  refine .ite .notNow (.ite (.next (.send (.performWriteback ?_))) (.next (.send (.performWriteback ?_))))
  · split
    · dsimp only
      exact .of_mem hs rfl
    · dsimp only
      exact hs
  · split
    · dsimp only
      exact .of_mem hs rfl
    · dsimp only
      exact hs

protected theorem Canonical.drained (hs : Canonical s) : Canonical (drained s c) := by
  unfold drained
  dsimp only
  refine .ite hs (.each hs (fun u a hu => ?_))
  split
  exacts [.ite (.also (.setBusy hu) .send) hu, .ite (.send hu) hu, hu]

protected theorem NextCanonical.execWritebackAck {m : WbMsg} (hs : Canonical s) :
    NextCanonical (execWritebackAck m wv s) := by
  unfold execWritebackAck
  dsimp only
  refine .next (.drained (.ite (.send ?_) ?_))
  · split
    exacts [.ackOut (.observe hs), .observe hs]
  · split
    exacts [.ackOut (.observe hs), .observe hs]

protected theorem NextCanonical.execStoreAck (hs : Canonical s) : NextCanonical (execStoreAck s) :=
  .next (.ite (.ackOut hs) (.observe (.modCtx (.ackOut hs))))

protected theorem NextCanonical.execCoreDrain (hs : Canonical s) : NextCanonical (execCoreDrain s) :=
  .next (.drained (.drainCore hs))

protected theorem NextCanonical.execDrainComplete (hs : Canonical s) : NextCanonical (execDrainComplete s) := by
  unfold execDrainComplete
  dsimp only
  split
  · split
    exacts [.next (.endBusy hs (fun _ => .finishAcquire)), .next (.endBusy hs (fun _ hu => hu))]
  · split
    exacts [.next (.endBusy (.modLine hs) (fun _ => .performRelease)), .next (.endBusy (.modLine hs) (fun _ hu => hu))]
  · exact .notNow

protected theorem NextCanonical.execSlicePrefetch (hs : Canonical s) : NextCanonical (execSlicePrefetch s) := by
  unfold execSlicePrefetch
  dsimp only
  split
  · exact .ite .notNow (.ite (.next (.fillHome (.modLine hs))) (.ite (.next (.modLine hs)) (.next
      (.dieCopy (.readAtHome (.dirRoom (.dropSlots (.modLine hs))))))))
  · exact .notNow

protected theorem Canonical.settleCore (hs : Canonical s) : Canonical (settleCore s c) := (beyond_settleCore ..).canonical hs
protected theorem Canonical.rebaseCasks (hs : Canonical s) : Canonical (rebaseCasks s c) := .modCore hs

protected theorem NextCanonical.execVintageRebase (hs : Canonical s) : NextCanonical (execVintageRebase s) :=
  .ite .notNow (.next (.modPart (.each hs (fun _ _ hu => .rebaseCasks (.settleCore hu)))))

end Sys2Proof.Machine
end

section
/-! Memory stays canonical under the operations of the words' results, and sunk runs. -/

namespace Sys2Proof.Machine

variable {s : State} {code core h wid : Nat} {o op : Op} {f : FOps} {comp : Nat → Nat → Nat → Nat} {r : FaultRec}
  {who : Word} {k : SinkSt} {g : Group} {j : Subj}

protected theorem NextCanonical.issueInt {comp : Int → Int → Int → Int} (hs : Canonical s) :
    NextCanonical (issueInt s op f comp) :=
  .issueAlu hs

protected theorem NextCanonical.issueBits (hs : Canonical s) : NextCanonical (issueBits s op f comp) := .issueAlu hs

protected theorem NextCanonical.issueLongAlu {comp : Nat → Nat → Nat → Nat × Nat} (hs : Canonical s) :
    NextCanonical (issueLongAlu s op f comp) :=
  .issueLong hs

protected theorem NextCanonical.execIdiv (hs : Canonical s) : NextCanonical (execIdiv f s) := .issueLongAlu hs
protected theorem NextCanonical.execIrem (hs : Canonical s) : NextCanonical (execIrem f s) := .issueLongAlu hs

protected theorem NextCanonical.execMov (hs : Canonical s) : NextCanonical (execMov f s) := by
  unfold execMov
  exact .issue hs

protected theorem NextCanonical.issueField (hs : Canonical s) : NextCanonical (issueField s op f comp) := .issue hs
protected theorem NextCanonical.execBfx (hs : Canonical s) : NextCanonical (execBfx f s) := .issueField hs
protected theorem NextCanonical.execBfi (hs : Canonical s) : NextCanonical (execBfi f s) := .issueField hs

protected theorem NextCanonical.issueFp {comp : Fmt → FV → FV → FV → Nat × Nat} (hs : Canonical s) :
    NextCanonical (issueFp s op f comp) :=
  .issueAlu hs

protected theorem NextCanonical.issueFpBits {comp : Fmt → Nat → Nat → Nat × Nat} (hs : Canonical s) :
    NextCanonical (issueFpBits s op f comp) :=
  .issueAlu hs

protected theorem NextCanonical.issueFcmp (hs : Canonical s) : NextCanonical (issueFcmp s op f) := .issue hs
protected theorem NextCanonical.execFcmp (hs : Canonical s) : NextCanonical (execFcmp f s) := .issueFcmp hs
protected theorem NextCanonical.execDcmp (hs : Canonical s) : NextCanonical (execDcmp f s) := .issueFcmp hs

protected theorem NextCanonical.issueFpLong {comp : Fmt → Nat → Nat × Nat} (hs : Canonical s) :
    NextCanonical (issueFpLong s op f comp) :=
  .issueLongAlu hs

protected theorem NextCanonical.execCvt (hs : Canonical s) : NextCanonical (execCvt f s) := by
  unfold execCvt
  exact .issue hs

protected theorem NextCanonical.execCvtb (hs : Canonical s) : NextCanonical (execCvtb f s) := by
  unfold execCvtb
  exact .issue hs

protected theorem NextCanonical.sinkCompute (hs : Canonical s) : NextCanonical (sinkCompute o f s) := by
  unfold sinkCompute
  split
  exacts [.issueInt hs, .issueInt hs, .issueInt hs, .issueInt hs, .issueInt hs, .issueInt hs, .issueInt hs, .issueInt hs,
    .issueInt hs, .issue hs, .execMov hs, .issueBits hs, .issueBits hs, .issueBits hs, .issueBits hs, .issueBits hs,
    .issueBits hs, .issueBits hs, .issueBits hs, .issueBits hs, .issueBits hs, .issueBits hs, .issueBits hs, .execBfx hs,
    .execBfi hs, .issueBits hs, .issueFp hs, .issueFp hs, .issueFp hs, .issueFp hs, .issueFpBits hs, .issueFpBits hs,
    .issueFpBits hs, .issueFpBits hs, .next hs]

protected theorem Canonical.modSink {f : SinkSt → SinkSt} (hs : Canonical s) : Canonical (modSink s h wid f) := .modCtx hs
protected theorem Canonical.sinkFault (hs : Canonical s) : Canonical (sinkFault s h wid r) := .modWin hs

protected theorem Canonical.raiseSunk (hs : Canonical s) : Canonical (raiseSunk s h wid r) := by
  unfold raiseSunk
  dsimp only
  split
  · exact hs
  · exact .sinkFault (.postGroup (.modSink (.each (.each hs (fun _ _ hu => .serveLine (.modLine hu))) (fun _ _ => .ackOut))))

protected theorem Canonical.finishSink (hs : Canonical s) : Canonical (finishSink s h wid) := by
  unfold finishSink
  dsimp only
  split
  exacts [hs, .modWin (.modCtx (.each hs (fun _ _ => .postGroup)))]

protected theorem Canonical.sinkDecide (hs : Canonical s) : Canonical (sinkDecide s h wid who).2 := by
  unfold sinkDecide
  dsimp only
  split
  · dsimp only
    exact hs
  · split
    · dsimp only
      exact hs
    · split
      · dsimp only
        refine .foldl_snd_snd_snd hs (fun q a hu => ?_)
        split
        · rename_i u he3
          have hu1 : Canonical u := Canonical.of_snd he3 (.translate hu)
          exact hu1
        · rename_i u he3
          have hu1 : Canonical u := Canonical.of_snd he3 (.translate hu)
          split <;> exact hu1
      · dsimp only
        refine .foldl_snd_snd_snd hs (fun q a hu => ?_)
        split
        · rename_i u he3
          have hu1 : Canonical u := Canonical.of_snd he3 (.translate hu)
          exact hu1
        · rename_i u he3
          have hu1 : Canonical u := Canonical.of_snd he3 (.translate hu)
          split <;> exact hu1

protected theorem Canonical.coreFault {b : Bad} (hs : Canonical s) : Canonical (coreFault s h wid k b) :=
  .sinkFault (.modSink (.modCtx hs))

protected theorem CoreWordCanonical.sinkLand (hs : Canonical s) : CoreWordCanonical (sinkLand s h wid g k) := by
  unfold sinkLand
  dsimp only
  split
  · exact .wait hs
  · split
    exacts [.bad (.coreFault hs), .ite (.wait hs) (.on (.modSink (.modCtx hs)))]

protected theorem Canonical.noteStood {ps : List Part} (hs : Canonical s) : Canonical (noteStood s h wid ps) := .modSink hs

protected theorem CoreWordCanonical.sinkAccess (hs : Canonical s) : CoreWordCanonical (sinkAccess s h wid g k o f) := by
  unfold sinkAccess
  extract_lets req tx fall space
  split
  rename_i rs u he
  have hu : Canonical u := .of_snd he (.ite_snd hs (.checkAll hs))
  extract_lets ps
  refine .ite (.wait hu) ?_
  rename_i ok a b
  have hb : Canonical b := .also (.also hu .forbid) .fallBack
  split
  rename_i id v he'
  have hv : Canonical v := .of_snd he' (.newId hb)
  extract_lets d e i
  have hi : Canonical i := .startWin (.modSink (.spend (.also (.modCtx hv) .noteStood)))
  clear_value i
  split
  exacts [.sinkLand hi, .wait hi]

protected theorem CoreWordCanonical.sinkWord (hs : Canonical s) : CoreWordCanonical (sinkWord s h wid g k) := by
  unfold sinkWord
  refine .ite (.sinkLand hs) ?_
  dsimp only
  split
  · exact .wait hs
  · split
    · exact .sinkAccess hs
    · exact .sinkAccess hs
    · exact .sinkAccess hs
    · exact .sinkAccess hs
    · exact .sinkAccess hs
    · exact .sinkAccess hs
    · split
      · rename_i u he1
        have hu : Canonical u := TryCanonical.of_eq he1 (.tryStore hs)
        exact .bad (.coreFault hu)
      · rename_i u he1
        have hu : Canonical u := TryCanonical.of_eq he1 (.tryStore hs)
        exact .wait hu
      · rename_i u he1
        have hu : Canonical u := TryCanonical.of_eq he1 (.tryStore hs)
        exact .on (.modSink (.spend (.noteStood hu)))
    · split
      exacts [.bad (.coreFault hs), .ite (.wait hs) (.on (.modSink (.spend (.spaceStore (.fallBack hs)))))]
    · split
      exacts [.bad (.coreFault hs), .ite (.wait hs) (.on (.modSink (.spend (.spaceStore (.fallBack hs)))))]
    · exact .ite (.bad (.coreFault hs)) (.on (.modSink (.spend (.modSink hs))))

protected theorem Canonical.sendProbe (hs : Canonical s) : Canonical (sendProbe s h wid) := by
  unfold sendProbe
  dsimp only
  split
  · split
    exacts [.send hs, hs]
  · exact hs

protected theorem Canonical.sendInstance {l : Nat × Nat × Nat} (hs : Canonical s) :
    Canonical (sendInstance s h wid core l) :=
  .send hs

protected theorem Canonical.sendAway (hs : Canonical s) : Canonical (sendAway s h wid) := by
  unfold sendAway
  dsimp only
  split
  · exact hs
  · exact .ite (.sendProbe (.modSink (.modSink (.each hs (fun _ _ hu => .modSink (.addOut hu)))))) (.each (.modSink
      (.each hs (fun _ _ hu => .modSink (.addOut hu)))) (fun _ _ => .sendInstance))

protected theorem Canonical.sinkTake (hs : Canonical s) : Canonical (sinkTake s h wid who) := by
  unfold sinkTake
  dsimp only
  split
  · rename_i u he
    have hu : Canonical u := Canonical.of_snd he (.sinkDecide hs)
    split
    exacts [.raiseSunk hu, hu]
  · rename_i u he
    have hu : Canonical u := Canonical.of_snd he (.sinkDecide hs)
    exact .modSink hu

protected theorem Canonical.sinkGo {fuel : Nat} (hs : Canonical s) : Canonical (sinkGo fuel s h wid) := by
  induction fuel generalizing s with
  | zero => exact hs
  | succ fuel ih =>
    unfold sinkGo
    split
    · exact hs
    · rename_i g k _
      refine .ite (.ite (ih (.modSink hs)) ?_) (.ite ?_ (.ite (.sendAway hs) (.ite hs (.finishSink hs))))
      · have hw : CoreWordCanonical (sinkWord s h wid g k) := .sinkWord hs
        split <;> rename_i u he <;> have hu : Canonical u := CoreWordCanonical.of_eq he hw
        exacts [ih hu, hu, hu]
      · dsimp only
        split
        exacts [.ite (.sinkTake hs) (ih (.sinkTake hs)), .sinkTake hs]

protected theorem Canonical.sinkBegin (hs : Canonical s) : Canonical (sinkBegin s h wid) := by
  unfold sinkBegin
  dsimp only
  split
  · exact hs
  · split
    · exact .ite (.sinkTake (.modSink (.modWin hs))) (.sinkGo (.sinkTake (.modSink (.modWin hs))))
    · exact .sinkTake (.modSink (.modWin hs))

protected theorem Canonical.replayWin {w : Win} (hs : Canonical s) : Canonical (replayWin s h w) := by
  unfold replayWin
  dsimp only
  split
  exacts [hs, .ite (.sinkBegin hs) (.sinkGo (.modWin hs)), .ite (.modWin hs) (.startWin (.modWin hs))]

protected theorem Canonical.replayWins (hs : Canonical s) : Canonical (replayWins s h) := by
  unfold replayWins
  split
  exacts [hs, .each hs (fun _ _ => .replayWin)]

protected theorem Canonical.retryScratch {team : Nat} (hs : Canonical s) : Canonical (retryScratch s team) :=
  .each hs (fun _ _ hu => .each hu (fun _ _ => .startSpace))

protected theorem NextCanonical.execSink (hs : Canonical s) : NextCanonical (execSink f s) := by
  unfold execSink
  dsimp only
  split
  · exact .fault
  · split
    · exact .next (.raise (.fetchWords (.setGroup hs)))
    · split
      · exact .next (.raise (.fetchWords (.setGroup hs)))
      · refine .ite (.next (.raise (.fetchWords (.setGroup hs)))) (.ite (.next (.fetchWords (.setGroup hs))) (.ite ?_
          (.ite (.next (.raise (.fetchWords (.setGroup hs)))) (.ite (.next (.fetchWords (.setGroup hs))) (.next
          (.sinkBegin (.modCtx (.openWin (.fetchWords (.setGroup hs))))))))))
        split
        exacts [.next (.retire (.modCtx (.fetchWords (.setGroup hs)))), .next (.modCtx (.fetchWords (.setGroup hs)))]

protected theorem NextCanonical.execSinkHoldGrant (hs : Canonical s) : NextCanonical (execSinkHoldGrant s) := by
  unfold execSinkHoldGrant
  dsimp only
  split
  · exact .notNow
  · refine .ite .notNow ?_
    split
    · exact .next (.raiseSunk (.modSink hs))
    · exact .ite (.next (.each (.modSink hs) (fun _ _ => .sendInstance))) (.next (.sendProbe (.modSink hs)))

protected theorem Canonical.answerInstance {t la wv : Nat} {i : Option Inst} (hs : Canonical s) :
    Canonical (answerInstance s h wid t la core wv code i) := by
  unfold answerInstance
  split
  exacts [.send (.modSink hs), .send hs]

protected theorem Canonical.performStoreInstance (hs : Canonical s) : Canonical (performStoreInstance s g k j) := by
  unfold performStoreInstance
  dsimp only
  refine .ite (.answerInstance (.modCore ?_)) (.serveLine (.modLine (.modSink (.answerInstance (.modCore ?_)))))
  · split
    · exact .ite (.modLine (.memWrite (.ite_snd (.demandAt hs) (.readAtHome (.demandAt hs))))) (.writeAtHome (.ite_snd
        (.demandAt hs) (.readAtHome (.demandAt hs))))
    · exact .ite_snd (.demandAt hs) (.readAtHome (.demandAt hs))
  · split
    · exact .ite (.modLine (.memWrite (.ite_snd (.demandAt hs) (.readAtHome (.demandAt hs))))) (.writeAtHome (.ite_snd
        (.demandAt hs) (.readAtHome (.demandAt hs))))
    · exact .ite_snd (.demandAt hs) (.readAtHome (.demandAt hs))

protected theorem Canonical.performRead {data : LineData} (hs : Canonical s) : Canonical (performRead s g j data code) := by
  unfold performRead
  dsimp only
  split
  · exact .send (.modSink hs)
  · split
    exacts [.answerInstance hs, hs]

protected theorem NextCanonical.execSinkInstance (hs : Canonical s) : NextCanonical (execSinkInstance s) := by
  unfold execSinkInstance
  dsimp only
  split
  · exact .notNow
  · exact .ite .notNow (.ite (.next (.performStoreInstance hs)) (.ite .notNow (.ite
      (.next (.performRead (.recallDie (.demandAt hs)))) (.ite .notNow (.ite .notNow
      (.ite (.next (.performRead (.readAtHome (.demandAt hs)))) (.next (.performRead (.demandAt hs)))))))))

protected theorem Canonical.takeResult (hs : Canonical s) : Canonical (takeResult s k j) := by
  unfold takeResult
  dsimp only
  refine .modSink (.modCtx (.observe ?_))
  split
  exacts [.ackOut hs, hs]

protected theorem NextCanonical.execSinkResult (hs : Canonical s) : NextCanonical (execSinkResult s) := by
  unfold execSinkResult
  dsimp only
  split
  · exact .notNow
  · split
    · exact .next (.takeResult hs)
    · refine .ite (.next (.takeResult hs)) ?_
      split
      exacts [.next (.raiseSunk (.takeResult hs)), .next (.sinkGo (.takeResult hs))]

protected theorem NextCanonical.execSinkCoreReexecution (hs : Canonical s) : NextCanonical (execSinkCoreReexecution s) := by
  unfold execSinkCoreReexecution
  dsimp only
  split
  exacts [.notNow, .ite .notNow (.next (.sinkGo (.ite hs (.modSink hs))))]

end Sys2Proof.Machine
end

section
/-! Memory stays canonical under the operations of engine commands, futures, casks and spawning. -/

namespace Sys2Proof.Machine

variable {s : State} {c cid h i id inner la p pa task : Nat} {eff w : Word} {g : Group} {f : FOps} {io : Io} {v : Cask}
  {r : SpawnRec} {l : Lies} {ids : List (Nat × Nat)}

protected theorem Canonical.enterCmd {c : Cmd} (hs : Canonical s) : Canonical (enterCmd s h g c) :=
  .also (.modTeam (.modCore (.of_mem hs rfl))) .modCtx

protected theorem NextCanonical.issueEngine {len : Nat} {mk : State → Group → Word → Except Bad Cmd} (hs : Canonical s) :
    NextCanonical (issueEngine s f len io mk) := by
  unfold issueEngine
  dsimp only
  split
  · exact .fault
  · refine .ite (.next hs) (.ite (.next (.retire hs)) ?_)
    split
    · exact .next (.raise hs)
    · refine .ite (.next (.modGroup (.fallBack (.forbid hs)))) (.ite (.next (.modGroup (.fallBack (.forbid hs)))) ?_)
      split
      exacts [.next (.enterCmd (.fallBack (.forbid hs))), .next (.retire (.enterCmd (.fallBack (.forbid hs))))]

protected theorem NextCanonical.issueEngineNow {body : State → Nat → Group → Except Bad State} (hs : Canonical s)
    (hbody : ∀ u n k, Canonical u → WhenOk Canonical (body u n k)) :
    NextCanonical (issueEngineNow s f io body) := by
  unfold issueEngineNow
  dsimp only
  split
  · exact .fault
  · refine .ite (.next hs) (.ite (.next (.retire hs)) ?_)
    split
    · exact .next (.raise hs)
    · rename_i u he1
      have hu : Canonical u := WhenOk.of_eq he1 (hbody _ _ _ hs)
      split
      exacts [.next (.fallBack (.forbid hu)), .next (.retire (.fallBack (.forbid hu)))]

protected theorem NextCanonical.execTdep (hs : Canonical s) : NextCanonical (execTdep f s) := by
  unfold execTdep
  refine .issueEngineNow hs (fun u n k hu => ?_)
  dsimp only
  split
  exacts [.error, .ok (.modCtx hu)]

protected theorem NextCanonical.execEcancel (hs : Canonical s) : NextCanonical (execEcancel f s) :=
  .issueEngineNow hs (fun _ _ _ hu => .ok (.each hu (fun _ _ => .cancelCmd)))

protected theorem NextCanonical.execWaite (hs : Canonical s) : NextCanonical (execWaite f s) := by
  unfold execWaite
  dsimp only
  split
  · exact .fault
  · refine .ite (.next (.park (.setGroup hs))) ?_
    split
    · exact .ite (.next (.setGroup hs)) (.next (.raise (.modTeam (.setGroup (.setGroup hs)))))
    · exact .next (.retire (.setGroup hs))

protected theorem NextCanonical.execDependencyEntryLeave (hs : Canonical s) : NextCanonical (execDependencyEntryLeave s) :=
  .ite (.next (.modCore (.modCmd hs))) .notNow

protected theorem Canonical.bindEngine {e part tenant : Nat} (hs : Canonical s) : Canonical (bindEngine s e part tenant) :=
  .post (.of_mem hs rfl)

protected theorem NextCanonical.execEngineLeaseBind (hs : Canonical s) : NextCanonical (execEngineLeaseBind s) :=
  .ite (.next (.bindEngine hs)) .notNow

protected theorem NextCanonical.execEngineDispatch (hs : Canonical s) : NextCanonical (execEngineDispatch s) := by
  unfold execEngineDispatch
  dsimp only
  refine .ite .notNow (.ite (.next (.modCmd hs)) ?_)
  split
  · refine .next (.modCmd ?_)
    split
    exacts [.bindEngine hs, hs]
  · exact .notNow

protected theorem NextCanonical.execEngineLeaseExpiry (hs : Canonical s) : NextCanonical (execEngineLeaseExpiry s) := by
  unfold execEngineLeaseExpiry
  dsimp only
  split
  · exact .notNow
  · refine .ite .notNow (.ite (.next (.of_mem hs rfl)) ?_)
    split
    exacts [.next (.bindEngine (.of_mem hs rfl)), .next (.of_mem hs rfl)]

protected theorem Canonical.chargeLease {c : Cmd} {n : Nat} (hs : Canonical s) : Canonical (chargeLease s c n) := by
  unfold chargeLease
  dsimp only
  split
  exacts [.of_mem hs rfl, hs]

protected theorem NextCanonical.operate {name : String} {kinds : CmdKind → Bool} (hs : Canonical s) :
    NextCanonical (operate s name kinds) := by
  unfold operate
  dsimp only
  refine .ite .notNow ?_
  split
  · rename_i u he
    have hu : Canonical u := EngCanonical.of_eq he (.nextOp hs)
    exact .next (.chargeLease hu)
  · exact .notNow

protected theorem NextCanonical.execEngineOperation (hs : Canonical s) : NextCanonical (execEngineOperation s) := .operate hs
protected theorem NextCanonical.execTmmaKblock (hs : Canonical s) : NextCanonical (execTmmaKblock s) := .operate hs

protected theorem NextCanonical.execPressShare (hs : Canonical s) : NextCanonical (execPressShare s) :=
  .ite (.operate hs) .notNow

protected theorem Canonical.landAll {c : Cmd} (hs : Canonical s) : Canonical (landAll s cid c) := .retryScratch (.modTeam hs)

protected theorem Canonical.endCmd {c : Cmd} (hs : Canonical s) : Canonical (endCmd s cid c) :=
  .send (.send (.of_mem (.landAll (cid := cid) (c := c) hs) rfl))

protected theorem Canonical.stopCmd {c : Cmd} {cause : Nat} (hs : Canonical s) : Canonical (stopCmd s cid c cause) :=
  .endCmd (.modTeam hs)

protected theorem NextCanonical.execEngineCommandComplete (hs : Canonical s) :
    NextCanonical (execEngineCommandComplete s) := by
  unfold execEngineCommandComplete
  dsimp only
  split
  · exact .notNow
  · refine .ite (.next (.endCmd hs)) (.ite .notNow ?_)
    split
    exacts [.next (.endCmd hs), .notNow]

protected theorem NextCanonical.execEngineScratchLineLand (hs : Canonical s) :
    NextCanonical (execEngineScratchLineLand s) := by
  unfold execEngineScratchLineLand
  dsimp only
  split
  · exact .next hs
  · split
    · exact .next hs
    · exact .ite .notNow (.ite (.next (.modCmd hs)) (.ite (.next (.modTeam (.modCmd hs))) (.next
        (.retryScratch (.modTeam (.modTeam (.modCmd hs)))))))

protected theorem NextCanonical.execEngineFault (hs : Canonical s) : NextCanonical (execEngineFault s) := by
  unfold execEngineFault
  dsimp only
  split
  exacts [.notNow, .ite .notNow (.ite (.next (.stopCmd hs)) (.next (.ringWrite (.modCmd hs))))]

protected theorem NextCanonical.execCollComplete {cmd : Nat} {agree : Bool} {ranks : List (List W32)} (hs : Canonical s) :
    NextCanonical (execCollComplete cmd agree ranks s) := by
  unfold execCollComplete
  dsimp only
  refine .ite .notNow ?_
  split
  · rename_i u he
    have hu : Canonical u := EngCanonical.of_eq he (.collStep hs)
    exact .next (.chargeLease hu)
  · exact .next (.stopCmd hs)
  · exact .notNow

protected theorem Canonical.drainLines {ls : List Nat} (hs : Canonical s) : Canonical (drainLines s c ls).2 := by
  unfold drainLines
  dsimp only
  refine .observe (.foldl_snd hs (fun q a hu => ?_))
  split
  · dsimp only
    exact hu
  · dsimp only
    exact .modNear (.performWriteback hu)

protected theorem Canonical.drainNow (hs : Canonical s) : Canonical (drainNow s c).2 := .drainLines hs

protected theorem Canonical.acquireNow (hs : Canonical s) : Canonical (acquireNow s c la).2 :=
  .observe (.modLine (.foldl_snd hs (fun _ _ => .drainNow)))

protected theorem Canonical.addRecord (hs : Canonical s) : Canonical (addRecord s c la) := by
  unfold addRecord
  dsimp only
  refine .modLine ?_
  split
  exacts [.ite hs (.modLine (.drainNow hs)), hs]

protected theorem Canonical.passReady (hs : Canonical s) : Canonical (passReady s h g).2 := .ite_snd hs (.releasePart hs)

protected theorem Canonical.partPut {p : Part} (hs : Canonical s) : Canonical (partPut s h c p w) :=
  .observe (.modCtx (.dropNear (.futPut hs)))

protected theorem Canonical.ownAdd (hs : Canonical s) : Canonical (ownAdd s p id pa) := .modTask hs
protected theorem Canonical.ownDel (hs : Canonical s) : Canonical (ownDel s p id pa) := .modTask hs

protected theorem FutTryCanonical.futTry {uni : Bool} {accs : List Acc}
    {why : State → Group → List (Nat × Part) → Nat → Part → Option Nat} (hs : Canonical s) :
    FutTryCanonical (futTry s h uni accs why) := by
  unfold futTry
  dsimp only
  split
  · exact .wait hs
  · split
    · exact .bad (.checkAll hs)
    · refine .ite (.wait (.putAway (.checkAll hs))) ?_
      split
      exacts [.bad (.putAway (.checkAll hs)), .go (.putAway (.checkAll hs))]

protected theorem NextCanonical.issueFut {ready : State → Nat → Group → Bool × State}
    {why : Word → State → Group → List (Nat × Part) → Nat → Part → Option Nat}
    {acts : Word → State → Nat → Group → List (Nat × Part) → Option State} (hs : Canonical s)
    (hready : ∀ u n k, Canonical u → Canonical (ready u n k).2)
    (hacts : ∀ y u n k y1, Canonical u → WhenSome Canonical (acts y u n k y1)) :
    NextCanonical (issueFut s f io ready why acts) := by
  unfold issueFut
  dsimp only
  split
  · exact .fault
  · refine .ite (.next (.setGroup hs)) (.ite ?_ ?_)
    · split
      exacts [.next (.setGroup hs), .next (.retire (.setGroup hs))]
    · split
      · rename_i u he1
        have hu : Canonical u := FutTryCanonical.of_eq he1 (.futTry (.setGroup hs))
        exact .next (.raise hu)
      · rename_i u he1
        have hu : Canonical u := FutTryCanonical.of_eq he1 (.futTry (.setGroup hs))
        exact .next hu
      · rename_i u he1
        have hu : Canonical u := FutTryCanonical.of_eq he1 (.futTry (.setGroup hs))
        split
        · exact .next (.fallBack (.forbid hu))
        · refine .ite (.next (hready _ _ _ (.fallBack (.forbid hu)))) ?_
          split
          · exact .next (hready _ _ _ (.fallBack (.forbid hu)))
          · rename_i u1 he3
            have hu1 : Canonical u1 := WhenSome.of_eq he3 (hacts _ _ _ _ _ (hready _ _ _ (.fallBack (.forbid hu))))
            split
            exacts [.next hu1, .next (.retire hu1)]

protected theorem NextCanonical.execFutnew (hs : Canonical s) : NextCanonical (execFutnew f s) :=
  .issueFut hs (fun _ _ _ hu => hu) (fun _ _ _ _ _ hu => .some (.each hu (fun _ _ hu1 => .ownAdd (.partPut hu1))))

protected theorem NextCanonical.execResolve (hs : Canonical s) : NextCanonical (execResolve f s) := by
  unfold execResolve
  refine .issueFut hs (fun _ _ _ hu => hu) (fun _ _ _ _ _ hu => ?_)
  exact .ite .none (.some (.each hu (fun _ _ hu1 => .ownDel (.partPut (.addRecord hu1)))))

protected theorem Canonical.caskPut {recs : List SpawnRec} (hs : Canonical s) : Canonical (caskPut s c i v recs) :=
  .ite hs (.modCore hs)

protected theorem Canonical.caskLeave {rest : List SpawnRec} (hs : Canonical s) : Canonical (caskLeave s c i v rest) :=
  .modCore hs

protected theorem Canonical.ringPut {d : Nat} (hs : Canonical s) : Canonical (ringPut s p d r) := .modPart (.physWrite hs)

protected theorem WhenSome.placeRecord (hs : Canonical s) : WhenSome Canonical (placeRecord s p c r) := by
  unfold placeRecord
  split
  exacts [.some (.caskPut hs), .ite (.some (.ringPut hs)) .none]

protected theorem Canonical.takeRecords {w : Nat} (hs : Canonical s) : Canonical (takeRecords s p w l r).2 := by
  unfold takeRecords
  dsimp only
  split
  · dsimp only
    exact .caskLeave hs
  · dsimp only
    exact .modPart hs

protected theorem Canonical.loadCtx {w : Nat} {x : Ctx} (hs : Canonical s) : Canonical (loadCtx s c w x).2 :=
  .foldl_snd hs (fun _ _ => .setCore)

protected theorem Canonical.seat {slot0 : Nat} {run : Run} (hs : Canonical s) : Canonical (seat s h g c slot0 run) := by
  unfold seat
  dsimp only
  refine .setGroup (.noteRan ?_)
  split
  · dsimp only
    exact .loadCtx (.loadCtx (.wakeIsland hs))
  · dsimp only
    exact .loadCtx (.wakeIsland hs)

protected theorem Canonical.beginAdoption (hs : Canonical s) : Canonical (beginAdoption s h inner task) := by
  unfold beginAdoption
  split
  exacts [hs, .postGroup (.setGroup hs)]

protected theorem Canonical.adoptRecord (hs : Canonical s) : Canonical (adoptRecord s h g p l r) :=
  .beginAdoption (.formRecords (.takeRecords hs))

protected theorem Canonical.adoptParked {o : Group} (hs : Canonical s) : Canonical (adoptParked s h g p inner o task) :=
  .beginAdoption (.each (.seat hs) (fun _ _ => .futShift))

protected theorem Canonical.parkOn (hs : Canonical s) : Canonical (parkOn s h pa w) := .park hs

protected theorem Canonical.awaitWord {p : Part} (hs : Canonical s) : Canonical (awaitWord s f h g p) := by
  unfold awaitWord
  dsimp only
  refine .ite (.ite hs ?_) (.ite ?_ (.parkOn hs))
  · split
    exacts [.modCtx (.acquireNow hs), .ite (.modCtx (.acquireNow hs)) (.retire (.modCtx (.acquireNow hs)))]
  · split
    exacts [.adoptRecord (.partPut hs), .adoptParked (.partPut hs), .parkRegs hs, .send (.parkOn hs)]

protected theorem NextCanonical.execAwait (hs : Canonical s) : NextCanonical (execAwait f s) := by
  unfold execAwait
  dsimp only
  split
  · exact .fault
  · refine .ite (.next (.setGroup hs)) (.ite (.next (.retire (.setGroup hs))) ?_)
    split
    · rename_i u he1
      have hu : Canonical u := FutTryCanonical.of_eq he1 (.futTry (.setGroup hs))
      exact .next (.raise hu)
    · rename_i u he1
      have hu : Canonical u := FutTryCanonical.of_eq he1 (.futTry (.setGroup hs))
      exact .next hu
    · rename_i u he1
      have hu : Canonical u := FutTryCanonical.of_eq he1 (.futTry (.setGroup hs))
      split
      exacts [.next (.awaitWord (.fallBack (.forbid hu))), .next (.fallBack (.forbid hu))]

protected theorem Canonical.handOver {t : Nat} {p : Part} (hs : Canonical s) : Canonical (handOver s h g t id p) :=
  .ownAdd (.ownDel (.partPut hs))

protected theorem Canonical.spawnAll {ps : List (Nat × Part)} {ts : List Nat} (hs : Canonical s) :
    Canonical (spawnAll s h g f ps ts ids).2.2 := by
  induction ts generalizing s ids with
  | nil => exact hs
  | cons t ts ih =>
    unfold spawnAll
    refine .ite_snd_snd hs ?_
    dsimp only
    have hu : Canonical (takeTask (taskFuel s (groupPart s g)) s (groupPart s g)).2 := .takeTask hs
    cases (ps.find? fun q => q.1 = t).map (·.2) with
    | none =>
      dsimp only
      split
      · rename_i v he
        exact ih (WhenSome.of_eq he (.placeRecord hu))
      · exact hu
    | some p =>
      dsimp only
      split
      · rename_i v he
        exact ih (WhenSome.of_eq he (.placeRecord (.handOver hu)))
      · exact .handOver hu

protected theorem Canonical.spawnEnd {left : List Nat} (hs : Canonical s) : Canonical (spawnEnd s h f io eff ids left) := by
  unfold spawnEnd
  dsimp only
  split
  · exact hs
  · refine .ite (.retire hs) ?_
    split
    · exact .ite (.adoptRecord (.setGroup (.writeRegs hs))) (.modGroup (.setGroup (.writeRegs hs)))
    · exact .modGroup (.setGroup (.writeRegs hs))

protected theorem NextCanonical.spawnFrom (hs : Canonical s) : NextCanonical (spawnFrom s h g f io eff) := by
  unfold spawnFrom
  dsimp only
  split
  · exact .next (.raise hs)
  · exact .next (.parkRegs hs)
  · split
    · rename_i u he1
      have hu : Canonical u := FutTryCanonical.of_eq he1 (.futTry hs)
      exact .next (.raise hu)
    · rename_i u he1
      have hu : Canonical u := FutTryCanonical.of_eq he1 (.futTry hs)
      exact .next hu
    · rename_i u he1
      have hu : Canonical u := FutTryCanonical.of_eq he1 (.futTry hs)
      split
      · exact .next (.fallBack (.forbid hu))
      · exact .ite (.next (.passReady (.fallBack (.forbid hu)))) (.next (.spawnEnd
          (.spawnAll (.passReady (.fallBack (.forbid hu))))))

protected theorem NextCanonical.execSpawn (hs : Canonical s) : NextCanonical (execSpawn f s) := by
  unfold execSpawn
  dsimp only
  split
  · exact .fault
  · exact .ite (.next (.setGroup hs)) (.ite (.next (.retire (.setGroup hs))) (.ite (.next (.raise (.setGroup hs)))
      (.spawnFrom (.setGroup hs))))

protected theorem Canonical.leaveSlot {wake : Option Nat} (hs : Canonical s) : Canonical (leaveSlot s h g wake) :=
  .send (.also (.each (.unseat (.modGroup (.spend (.postPark hs)))) (fun _ _ => .futShift)) .send)

protected theorem NextCanonical.parkFrom (hs : Canonical s) : NextCanonical (parkFrom s h g f eff) := by
  unfold parkFrom
  dsimp only
  split
  · rename_i u he
    have hu : Canonical u := FutTryCanonical.of_eq he (.futTry hs)
    exact .next (.raise hu)
  · rename_i u he
    have hu : Canonical u := FutTryCanonical.of_eq he (.futTry hs)
    exact .next hu
  · rename_i u he
    have hu : Canonical u := FutTryCanonical.of_eq he (.futTry hs)
    split
    · exact .next (.fallBack (.forbid hu))
    · refine .ite (.next (.passReady (.fallBack (.forbid hu)))) ?_
      split
      exacts [.next (.passReady (.fallBack (.forbid hu))), .next (.leaveSlot (.passReady (.fallBack (.forbid hu))))]

protected theorem NextCanonical.execPark (hs : Canonical s) : NextCanonical (execPark f s) := by
  unfold execPark
  dsimp only
  split
  exacts [.fault, .ite (.next (.setGroup hs)) (.ite (.next (.retire (.setGroup hs))) (.parkFrom (.setGroup hs)))]

protected theorem Canonical.stealFrom {dst src launch : Nat} {entry : Word} (hs : Canonical s) :
    Canonical (stealFrom s p dst src launch entry).2 := by
  unfold stealFrom
  refine .ite_snd hs ?_
  dsimp only
  split
  · dsimp only
    exact .caskPut (.caskLeave hs)
  · dsimp only
    exact hs

protected theorem Canonical.stealBy (hs : Canonical s) : Canonical (stealBy s g f).2 := by
  unfold stealBy
  dsimp only
  split
  · exact .stealFrom hs
  · dsimp only
    exact hs

protected theorem NextCanonical.execSteal (hs : Canonical s) : NextCanonical (execSteal f s) := by
  unfold execSteal
  dsimp only
  split
  · exact .fault
  · refine .ite (.next (.setGroup hs)) (.ite (.next (.retire (.setGroup hs))) ?_)
    split
    exacts [.next (.fallBack (.forbid (.setGroup hs))), .next (.retire (.stealBy (.fallBack (.forbid (.setGroup hs)))))]

protected theorem NextCanonical.execRole (hs : Canonical s) : NextCanonical (execRole f s) := by
  unfold execRole
  dsimp only
  split
  · exact .fault
  · refine .ite (.next (.setGroup hs)) (.ite (.next (.retire (.setGroup hs))) (.ite (.next (.raise (.setGroup hs))) (.ite
      (.next (.raise (.setGroup hs))) ?_)))
    split
    exacts [.next (.fallBack (.setGroup hs)), .next (.retire (.fallBack (.setGroup hs)))]

protected theorem WhenSome.launchCask (hs : Canonical s) : WhenSome Canonical (launchCask s c i v) := by
  unfold launchCask
  dsimp only
  refine .ite .none ?_
  split
  exacts [.none, .some (.formRecords (.caskLeave hs))]

protected theorem NextCanonical.execCaskLaunch (hs : Canonical s) : NextCanonical (execCaskLaunch s) := by
  unfold execCaskLaunch
  dsimp only
  split
  · exact .notNow
  · refine .ite .notNow ?_
    split
    · rename_i u he1
      have hu : Canonical u := WhenSome.of_eq he1 (.launchCask hs)
      exact .next hu
    · exact .notNow

protected theorem NextCanonical.execCaskAgeExpiry (hs : Canonical s) : NextCanonical (execCaskAgeExpiry s) := by
  unfold execCaskAgeExpiry
  dsimp only
  split
  exacts [.notNow, .ite (.next (.send hs)) .notNow]

protected theorem NextCanonical.execOverflowMove (hs : Canonical s) : NextCanonical (execOverflowMove s) := by
  unfold execOverflowMove
  dsimp only
  split
  exacts [.notNow, .next (.caskPut (.modPart hs))]

protected theorem NextCanonical.execIdleSteal (hs : Canonical s) : NextCanonical (execIdleSteal s) := by
  unfold execIdleSteal
  dsimp only
  refine .ite .notNow ?_
  split
  exacts [.notNow, .next (.send (.caskPut (.caskLeave hs)))]

protected theorem NextCanonical.execAdoptionReturn (hs : Canonical s) : NextCanonical (execAdoptionReturn s) := by
  unfold execAdoptionReturn
  dsimp only
  split
  exacts [.notNow, .ite (.next (.returnHelper (.setGroup hs))) .notNow]

protected theorem NextCanonical.execFutureWake (hs : Canonical s) : NextCanonical (execFutureWake s) :=
  .ite .notNow (.next (.each (.each hs (fun _ _ => .unpark)) (fun _ _ => .send)))

end Sys2Proof.Machine
end

section
/-! Memory stays canonical under the operations of queues, placement, and the contexts that are saved and restored. -/

namespace Sys2Proof.Machine

variable {s : State} {c code h handle launch off p q t team vf x : Nat} {l : List Span} {bs : List Byte}
  {xs : List (Nat × Nat × Nat)} {g : Group} {used : List (Nat × Nat)} {i : Item} {name : String} {evict : Bool}
  {why : KillWhy}

protected theorem Canonical.spansRead (hs : Canonical s) : Canonical (spansRead s l).2 := by
  induction l generalizing s with
  | nil => exact hs
  | cons x l ih =>
    unfold spansRead
    dsimp only
    exact ih (.readAtHome hs)

protected theorem Canonical.spansWrite (hs : Canonical s) : Canonical (spansWrite s l bs) :=
  (beyond_spansWrite ..).canonical hs

protected theorem Canonical.modQueue {f : Queue → Queue} (hs : Canonical s) : Canonical (modQueue s vf q f) := by
  unfold modQueue
  dsimp only
  split
  exacts [.of_mem hs rfl, hs]

protected theorem Canonical.writeReport (hs : Canonical s) : Canonical (writeReport s vf q) :=
  (beyond_writeReport ..).canonical hs

protected theorem NextCanonical.execCreateQueue {desc : List Byte} (hs : Canonical s) :
    NextCanonical (execCreateQueue vf q desc s) :=
  .ite (.next hs) (.next (.of_mem hs rfl))

protected theorem NextCanonical.execQueueDoorbell {tail : Word} (hs : Canonical s) :
    NextCanonical (execQueueDoorbell vf q tail s) := by
  unfold execQueueDoorbell
  refine .ite .notNow ?_
  dsimp only
  split
  exacts [.next hs, .ite (.next (.writeReport (.modQueue hs))) (.next (.send (.modQueue hs)))]

protected theorem Canonical.writeCompletion {part : Nat} {addr : Word} (hs : Canonical s) :
    Canonical (writeCompletion s vf q part addr bs) := by
  unfold writeCompletion
  refine .ite hs ?_
  split
  exacts [.spansWrite hs, .writeReport (.modQueue hs)]

protected theorem Canonical.dropConstants (hs : Canonical s) : Canonical (dropConstants s p) :=
  .each hs (fun _ _ => .modCore)

protected theorem NextCanonical.execLaunchRecordTake (hs : Canonical s) : NextCanonical (execLaunchRecordTake s) := by
  unfold execLaunchRecordTake
  extract_lets vf q
  split
  · exact .notNow
  · rename_i v _
    split
    · rename_i slot p l _ _ _
      refine .ite .notNow ?_
      have hread : Canonical (spansRead s l).2 := .spansRead hs
      generalize spansRead s l = x at hread ⊢
      split
      rename_i bs u
      extract_lets r bads took
      have htook {w : State} (hw : Canonical w) : Canonical (took w) := .send (.writeReport (.modPart (.modQueue hw)))
      clear_value took r bads
      cases least bads with
      | some off => exact .ite (.next (htook (.modQueue hread))) (.next (htook (.writeCompletion hread)))
      | none => exact .next (.send (htook (.of_mem (.dropConstants hread) rfl)))
    · exact .notNow

protected theorem Canonical.cleanCores {cs : List Nat} (hs : Canonical s) : Canonical (cleanCores s cs) :=
  .each hs (fun _ _ => .drainLines)

protected theorem Canonical.giveCore {a : Ask} (hs : Canonical s) : Canonical (giveCore s t c a) :=
  .modTeam (.modCore (.wakeIsland hs))

protected theorem Canonical.giveCores {cask : Bool} (hs : Canonical s) : Canonical (giveCores s t c launch cask) :=
  .also (.also (.giveCore (.modTeam hs)) .giveCore) .modTeam

protected theorem Canonical.endDesignation {num : Nat} (hs : Canonical s) : Canonical (endDesignation s p launch num) :=
  .modPart hs

protected theorem Canonical.enterGroups {entry : Nat → Word} (hs : Canonical s) :
    Canonical (enterGroups s t launch xs entry) :=
  .each hs (fun _ _ hu => .modTeam (.addGroup (.noteRan hu)))

protected theorem Canonical.placeFresh (hs : Canonical s) : Canonical (placeFresh s p launch c xs) := by
  unfold placeFresh
  have htask : Canonical (takeTask (taskFuel s p) s p).2 := .takeTask hs
  generalize takeTask (taskFuel s p) s p = x at htask ⊢
  dsimp only
  exact .endDesignation (.enterGroups (.modLaunch (.giveCores (.modTeam (.newId htask)))))

protected theorem Canonical.placeAgain (hs : Canonical s) : Canonical (placeAgain s p t c xs) :=
  .endDesignation (.enterGroups (.giveCores (.modTeam hs)))

protected theorem Canonical.restoreChain (hs : Canonical s) : Canonical (restoreChain s h c x) := by
  unfold restoreChain
  refine .each hs (fun u a hu => ?_)
  dsimp only
  split
  exacts [hu, .also (.seat hu) (fun h => .replayWins (.modGroup h))]

protected theorem Canonical.restoreTeam (hs : Canonical s) : Canonical (restoreTeam s p t c xs) := by
  unfold restoreTeam
  dsimp only
  refine .endDesignation (.each (.each (.each (.also (.giveCores (.modTeam hs)) (fun h => .each (.modTeam h)
    (fun _ _ => .modCore))) (fun _ _ hu => .modCore (.modCmd hu))) (fun _ _ => .modCore)) (fun u a hu => ?_))
  split
  exacts [.restoreChain hu, hu]

protected theorem Canonical.placeGroup (hs : Canonical s) : Canonical (placeGroup s h g c x) := by
  unfold placeGroup
  dsimp only
  split
  · exact .deliver (.modCtx (.modTeam (.seat hs)))
  · exact .each (.also (.modTeam (.seat hs)) (fun h => .replayWins (.modGroup h))) (fun _ _ => .futShift)

protected theorem WhenSome.placeCoop {used : List Nat} {ts : List (Option Nat)} (hs : Canonical s) :
    WhenSome Canonical (placeCoop s p launch c used ts) := by
  induction ts generalizing s used with
  | nil => exact .ite (.some hs) .none
  | cons t ts ih =>
    unfold placeCoop
    refine .findSome? fun b => ?_
    dsimp only
    cases t with
    | none => exact ih (.placeFresh hs)
    | some t => exact ih (.restoreTeam hs)

protected theorem WhenSome.placeItem (hs : Canonical s) : WhenSome Canonical (placeItem s p i) := by
  unfold placeItem
  dsimp only
  split
  · exact .map (fun _ => .placeFresh hs)
  · exact .ite (.map (fun _ => .restoreTeam hs)) (.map (fun _ => .placeAgain hs))
  · exact .bind (fun _ => .ite .none (.map (fun _ => .placeGroup hs)))
  · exact .placeCoop hs

protected theorem WhenSome.placeFirst {l : List Item} (hs : Canonical s) : WhenSome Canonical (placeFirst s p l) :=
  .findSome? (fun _ => .placeItem hs)

protected theorem Canonical.withSplit {blocks : Nat} (hs : Canonical s) : Canonical (withSplit s c blocks) := .modCore hs

protected theorem WhenSome.designate (hs : Canonical s) : WhenSome Canonical (designate s p i) := by
  unfold designate
  dsimp only
  split
  exacts [.none, .ite .none (.map (fun _ => .modPart (.each hs (fun _ _ hu => .send (.send (.modCore hu))))))]

protected theorem Canonical.noteFirst {l : List Item} (hs : Canonical s) : Canonical (noteFirst s p l) := .modPart hs

protected theorem Canonical.moveSplits (hs : Canonical s) : Canonical (moveSplits s p) :=
  .each hs (fun _ _ hu => .ite (.send hu) (.ite (.send hu) hu))

protected theorem WhenSome.dispatch (hs : Canonical s) : WhenSome Canonical (dispatch s p) := by
  unfold dispatch
  dsimp only
  split
  · exact .none
  · split
    · rename_i u he1
      have hu : Canonical u := WhenSome.of_eq he1 (.placeItem hs)
      exact .some hu
    · split
      · rename_i u he2
        have hu : Canonical u := WhenSome.of_eq he2 (.designate hs)
        exact .some hu
      · exact .ite .none (.placeFirst hs)

protected theorem NextCanonical.execTeamPlacement (hs : Canonical s) : NextCanonical (execTeamPlacement s) := by
  unfold execTeamPlacement
  dsimp only
  split
  · rename_i u he
    have hu : Canonical u := WhenSome.of_eq he (.dispatch (.noteFirst hs))
    exact .next (.send (.noteFirst (.moveSplits hu)))
  · exact .ite .notNow (.next (.noteFirst hs))

protected theorem NextCanonical.execPlacementHoldExpiry (hs : Canonical s) : NextCanonical (execPlacementHoldExpiry s) :=
  .ite (.next (.modPart hs)) .notNow

protected theorem NextCanonical.execCooperativeCancel (hs : Canonical s) : NextCanonical (execCooperativeCancel s) := by
  unfold execCooperativeCancel
  dsimp only
  split
  exacts [.notNow, .ite (.next (.send (.modLaunch hs))) .notNow]

protected theorem Canonical.freeTeam (hs : Canonical s) : Canonical (freeTeam s t) :=
  .each (.each hs (fun _ _ => .modCore)) (fun _ _ => .modCore)

protected theorem NextCanonical.execGranuleRelease (hs : Canonical s) : NextCanonical (execGranuleRelease s) :=
  .ite .notNow (.next (.moveSplits (.send (.send (.modTeam (.freeTeam hs))))))

protected theorem Canonical.startPeriod (hs : Canonical s) : Canonical (startPeriod s p) :=
  .modPart (.each hs (fun _ _ => .modCore))

protected theorem NextCanonical.execTokenPeriodStart (hs : Canonical s) : NextCanonical (execTokenPeriodStart s) := by
  unfold execTokenPeriodStart
  dsimp only
  split
  exacts [.notNow, .ite (.next (.startPeriod hs)) .notNow]

protected theorem NextCanonical.execTokenGrantDraw (hs : Canonical s) : NextCanonical (execTokenGrantDraw s) :=
  .ite (.next (.drawGrant hs)) .notNow

protected theorem NextCanonical.execTenantIdle (hs : Canonical s) : NextCanonical (execTenantIdle s) :=
  .ite .notNow (.next (.each hs (fun _ _ => .send)))

protected theorem NextCanonical.execSplitScratchToCache (hs : Canonical s) : NextCanonical (execSplitScratchToCache s) := by
  unfold execSplitScratchToCache
  dsimp only
  refine .ite .notNow ?_
  split
  exacts [.notNow, .next (.send (.modCore hs))]

protected theorem Canonical.emptyBlock {b : Nat} (hs : Canonical s) : Canonical (emptyBlock s c b) :=
  .each (.each hs (fun _ _ => .yieldPend)) (fun _ _ => .maintain)

protected theorem NextCanonical.execSplitCacheToScratch (hs : Canonical s) : NextCanonical (execSplitCacheToScratch s) := by
  unfold execSplitCacheToScratch
  dsimp only
  split
  · exact .ite (.next (.send (.send (.modCore hs)))) .notNow
  · refine .ite .notNow ?_
    split
    exacts [.notNow, .next (.send (.emptyBlock (.modCore hs)))]

protected theorem Canonical.answer {status : Nat} {fs : List (Nat × Nat × Nat)} (hs : Canonical s) :
    Canonical (answer s status off fs) :=
  .of_mem hs rfl

protected theorem Canonical.answerDone (hs : Canonical s) : Canonical (answerDone s) := .answer hs
protected theorem Canonical.reject (hs : Canonical s) : Canonical (reject s off) := .answer hs

protected theorem NextCanonical.perform {body : State → Host.Outcome State Fault Refusal} (hs : Canonical s)
    (hbody : ∀ u, Canonical u → NextCanonical (body u)) :
    NextCanonical (perform s name code used body) := by
  unfold perform
  refine .ite .notNow ?_
  split
  exacts [.next (.reject hs), hbody _ hs]

protected theorem NextCanonical.performPart {body : State → Nat → Partition → Host.Outcome State Fault Refusal}
    (hs : Canonical s) (hbody : ∀ u n y, Canonical u → NextCanonical (body u n y)) :
    NextCanonical (performPart s name code used body) := by
  unfold performPart
  refine .perform hs (fun u hu => ?_)
  split
  exacts [hbody _ _ _ hu, .next (.reject hu)]

protected theorem NextCanonical.withBytes {pa n : Nat} {body : List Byte → State → Host.Outcome State Fault Refusal}
    (hs : Canonical s) (hbody : ∀ y u, Canonical u → NextCanonical (body y u)) :
    NextCanonical (withBytes s name pa n body) :=
  .ite (hbody _ _ (.spansRead hs)) .notNow

protected theorem NextCanonical.execManagementUnknownCode (hs : Canonical s) : NextCanonical (execManagementUnknownCode s) :=
  .ite (.next (.answer hs)) .notNow

protected theorem NextCanonical.execDoorbellWriteIgnored (hs : Canonical s) : NextCanonical (execDoorbellWriteIgnored s) :=
  .ite (.next (.of_mem hs rfl)) .notNow

protected theorem Canonical.poolWrite (hs : Canonical s) : Canonical (poolWrite s t bs) :=
  .foldl_snd (.modTeam hs) (fun _ _ => .physWrite)

protected theorem Canonical.restartGroup (hs : Canonical s) : Canonical (restartGroup s h) := by
  unfold restartGroup
  dsimp only
  split
  exacts [hs, .freeRegs (.setGroup (.landWins hs))]

protected theorem Canonical.settleRegion (hs : Canonical s) : Canonical (settleRegion s h evict) := by
  unfold settleRegion
  dsimp only
  split
  · exact hs
  · exact .ite (.fallDeep (.fallBack (.dropTxLines (.modCtx hs)))) (.restartGroup (.also (.dropTxLines (.modCtx hs))
      .modCore))

protected theorem Canonical.putTeam (hs : Canonical s) : Canonical (putTeam s t) := by
  unfold putTeam
  extract_lets hs' cores
  split
  rename_i v u he
  have hu : Canonical u := .of_snd he (.foldl_snd hs fun _ _ hq => .drainNow hq)
  extract_lets tm saved ecRv a image b c d e m f
  have ha : Canonical a := .each hu fun _ _ hw => .modCore (.ecDown (.modCmd hw))
  have hb : Canonical b := .freeTeam ha
  have hd : Canonical d := by
    refine .each (.modTeam hb) fun w h hw => ?_
    extract_lets x
    split
    exacts [.unseat hw, .setGroup (.modCore (.unseat hw))]
  have he : Canonical e := .poolWrite hd
  have hf : Canonical f := .ite (.of_mem he rfl) he
  clear_value f
  exact .send (.moveSplits hf)

protected theorem Canonical.beginSave (hs : Canonical s) : Canonical (beginSave s t evict) := .send (.modTeam hs)

protected theorem Canonical.spliceChain (hs : Canonical s) : Canonical (spliceChain s h) := by
  unfold spliceChain
  dsimp only
  split
  · split
    · refine .setGroup ?_
      split
      exacts [.modGroup (.modGroup hs), .modGroup hs]
    · exact hs
  · exact hs

protected theorem Canonical.killGroup (hs : Canonical s) : Canonical (killGroup s h) := by
  unfold killGroup
  dsimp only
  split
  · exact .spliceChain hs
  · exact .ite (.spliceChain hs) (.ite (.retireGroup (.modCore (.spliceChain hs))) (.retireGroup (.setGroup
      (.spliceChain hs))))

protected theorem Canonical.killRecord (hs : Canonical s) : Canonical (killRecord s t why handle).2.2 := by
  unfold killRecord
  dsimp only
  split
  · dsimp only
    exact hs
  · dsimp only
    exact .newId hs

protected theorem Canonical.killTeam (hs : Canonical s) : Canonical (killTeam s t why handle) := by
  unfold killTeam
  extract_lets tm l again
  split
  rename_i handle' r u he
  have hu : Canonical u := .of_snd_snd he (.killRecord hs)
  extract_lets a b d e f g i j
  have he : Canonical e := .modTeam (.each (.ringWrite (.modPart hu)) fun _ _ hv => .futFault hv)
  have hf : Canonical f := .each he fun _ _ hv => .ite (.of_mem hv rfl) (.cancelCmd hv)
  have hi : Canonical i := .each (.each hf fun _ _ hv => .killGroup hv) fun _ _ hv => .modCore hv
  have hj : Canonical j := .also hi .teamRetires
  clear_value j
  exact .ite (.send (.modTeam hj)) (.modLaunch hj)

protected theorem NextCanonical.execTeamKill (hs : Canonical s) : NextCanonical (execTeamKill team why s) :=
  .ite (.next (.killTeam hs)) (.ite (.next (.killTeam hs)) .notNow)

protected theorem NextCanonical.execRegisterParkEviction (hs : Canonical s) :
    NextCanonical (execRegisterParkEviction s) := by
  unfold execRegisterParkEviction
  split
  exacts [.notNow, .next (.beginSave (.modGroup hs))]

protected theorem Canonical.evictNext (hs : Canonical s) : Canonical (evictNext s t) := by
  unfold evictNext
  dsimp only
  split
  exacts [.beginSave hs, hs]

protected theorem NextCanonical.execTeamSave (hs : Canonical s) : NextCanonical (execTeamSave team evict s) := by
  unfold execTeamSave
  extract_lets tm hs' u
  have hu : Canonical u := .each hs fun _ _ hv => .settleRegion hv
  clear_value u
  exact .ite .notNow (.ite (.next (.modTeam hs)) (.ite (.ite (.next (.killTeam hs)) (.next (.also (.modTeam hs) .evictNext)))
    (.ite .notNow (.next (.also (.putTeam hu) .post)))))

protected theorem NextCanonical.execPreEmpt (hs : Canonical s) : NextCanonical (execPreEmpt s) :=
  .performPart hs (fun _ _ _ hu => .ite (.ite (.next (.reject hu)) (.next (.send
    (.each hu (fun _ _ hu1 => .ite hu1 (.beginSave hu1)))))) (.ite .notNow (.next (.answer hu))))

protected theorem Canonical.resumeGroup (hs : Canonical s) : Canonical (resumeGroup s h g) := by
  unfold resumeGroup
  dsimp only
  split
  exacts [.replayWins (.returnFault hs), .replayWins (.setGroup hs), .setGroup hs, .setGroup hs, .send (.setGroup hs)]

protected theorem NextCanonical.execResumeRequest (hs : Canonical s) : NextCanonical (execResumeRequest s) := by
  unfold execResumeRequest
  refine .perform hs (fun u hu => ?_)
  split
  exacts [.next (.answerDone (.resumeGroup hu)), .next (.answerDone (.modCmd hu)), .next (.reject hu)]

protected theorem NextCanonical.execKillRequest (hs : Canonical s) : NextCanonical (execKillRequest s) := by
  unfold execKillRequest
  refine .perform hs (fun u hu => ?_)
  dsimp only
  split
  exacts [.next (.answerDone (.killTeam hu)), .next (.answerDone (.stopCmd hu)), .next (.reject hu)]

protected theorem NextCanonical.execQueryRequest (hs : Canonical s) : NextCanonical (execQueryRequest s) := by
  unfold execQueryRequest
  refine .perform hs (fun u hu => ?_)
  dsimp only
  split
  exacts [.next (.reject hu), .ite (.next (.reject hu)) (.ite (.next (.answerDone (.spansWrite hu))) .notNow)]

end Sys2Proof.Machine
end

section
/-! Memory stays canonical under the operations of system words, the management requests, and the host. -/

namespace Sys2Proof.Machine

variable {s : State} {d h idx k p stage : Nat} {a core unsent : Word} {new old : Ctx} {f : FOps} {io : Io} {op : Op}
  {cores : List Nat} {own : Option Nat} {i : InvalidateScope} {g : Group} {r : WinRec} {bytes : List Byte}

protected theorem NextCanonical.issueSys {code : Nat} {act : State → Nat → Group → Word → Act} (hs : Canonical s)
    (hact : ∀ u n k y, Canonical u → ActCanonical (act u n k y)) :
    NextCanonical (issueSys s code f io act) := by
  unfold issueSys
  dsimp only
  split
  · exact .fault
  · refine .ite (.next (.setGroup hs)) (.ite (.next (.retire (.setGroup hs))) ?_)
    split
    · rename_i u he1
      have hu : Canonical u := ActCanonical.of_eq he1 (hact _ _ _ _ (.setGroup hs))
      exact .next hu
    · rename_i u he1
      have hu : Canonical u := ActCanonical.of_eq he1 (hact _ _ _ _ (.setGroup hs))
      exact .next (.raise hu)
    · rename_i u he1
      have hu : Canonical u := ActCanonical.of_eq he1 (hact _ _ _ _ (.setGroup hs))
      split
      exacts [.ite (.next hu) (.next (.retire hu)), .next hu]

protected theorem NextCanonical.issueRegion {cause : Group → Nat} {act : State → Nat → Group → Act} (hs : Canonical s)
    (hact : ∀ u n k, Canonical u → ActCanonical (act u n k)) :
    NextCanonical (issueRegion s op f cause act) :=
  .issueSys hs (fun _ _ _ _ hu => .ite (.done hu) (.ite (.bad hu) (hact _ _ _ (.forbid hu))))

protected theorem NextCanonical.execRegion (hs : Canonical s) : NextCanonical (execRegion f s) :=
  .issueRegion hs (fun _ _ _ hu => .ite (.wait hu) (.done (.modCtx hu)))

protected theorem NextCanonical.execCommit (hs : Canonical s) : NextCanonical (execCommit f s) :=
  .issueRegion hs (fun _ _ _ hu => .done (.endRegion hu))

protected theorem NextCanonical.execRds (hs : Canonical s) : NextCanonical (execRds f s) := by
  unfold execRds
  dsimp only
  split
  exacts [.fault, .ite (.next (.modGroup hs)) (.issue hs)]

protected theorem NextCanonical.execWrs (hs : Canonical s) : NextCanonical (execWrs f s) :=
  .issueSys hs (fun _ _ _ _ hu => .ite (.done (.modCtx (.fallBack hu))) (.done (.modCtx hu)))

protected theorem NextCanonical.execEvent (hs : Canonical s) : NextCanonical (execEvent f s) :=
  .issueSys hs (fun _ _ _ _ hu => .done (.each hu (fun _ _ => .postGroup)))

protected theorem NextCanonical.execClockc (hs : Canonical s) : NextCanonical (execClockc f s) := by
  unfold execClockc
  split
  exacts [.fault, .issue hs]

protected theorem NextCanonical.issueHandler {act : State → Nat → Group → Ctx → Act} (hs : Canonical s)
    (hact : ∀ u n k y, Canonical u → ActCanonical (act u n k y)) :
    NextCanonical (issueHandler s op f io act) := by
  unfold issueHandler
  split
  · exact .fault
  · split
    exacts [.next (.raise (.setGroup hs)), .issueSys hs (fun _ _ _ _ hu => hact _ _ _ _ hu)]

protected theorem NextCanonical.execTret (hs : Canonical s) : NextCanonical (execTret f s) := by
  unfold execTret
  split
  · exact .fault
  · split
    exacts [.next (.raise (.setGroup hs)), .ite (.next (.setGroup hs)) (.next (.replayWins (.returnFault (.spend hs))))]

protected theorem NextCanonical.execHalt (hs : Canonical s) : NextCanonical (execHalt f s) := by
  unfold execHalt
  split
  · exact .fault
  · split
    exacts [.next (.raise (.setGroup hs)), .ite (.next (.setGroup hs)) (.next (.haltGroup (.spend hs)))]

protected theorem NextCanonical.execKillt (hs : Canonical s) : NextCanonical (execKillt f s) := by
  unfold execKillt
  refine .issueHandler hs (fun u n k y hu => ?_)
  dsimp only
  split
  exacts [.done (.killTeam hu), .done hu]

protected theorem Canonical.dropLeaves (hs : Canonical s) : Canonical (dropLeaves s cores own i) :=
  .each hs (fun _ _ => .modCore)

protected theorem Canonical.beginInval {who : Option Nat} (hs : Canonical s) : Canonical (beginInval s who cores own i) :=
  .send (.each hs (fun _ _ => .modCore))

protected theorem NextCanonical.execTranslationInvalidateComplete (hs : Canonical s) :
    NextCanonical (execTranslationInvalidateComplete i s) := by
  unfold execTranslationInvalidateComplete
  dsimp only
  split
  exacts [.notNow, .next (.also (.of_mem hs rfl) .answerDone)]

protected theorem NextCanonical.execTlbi (hs : Canonical s) : NextCanonical (execTlbi f s) :=
  .issueHandler hs (fun _ _ _ _ hu => .ite (.wait (.modCtx (.beginInval hu))) (.ite (.wait hu) (.done hu)))

protected theorem NextCanonical.execTranslationWalk (hs : Canonical s) : NextCanonical (execTranslationWalk s) := by
  unfold execTranslationWalk
  split
  · exact .notNow
  · split
    · exact .notNow
    · split
      exacts [.next (.ite hs (.cacheLeaf hs)), .next hs]

protected theorem NextCanonical.execCtxsv (hs : Canonical s) : NextCanonical (execCtxsv f s) := by
  unfold execCtxsv
  refine .issueHandler hs (fun _ _ _ _ hu => .ite (.bad hu) ?_)
  split
  · rename_i u1 he
    have hu1 : Canonical u1 := TryCanonical.of_eq he (.tryStore hu)
    exact .bad hu1
  · rename_i u1 he
    have hu1 : Canonical u1 := TryCanonical.of_eq he (.tryStore hu)
    exact .wait hu1
  · rename_i u1 he
    have hu1 : Canonical u1 := TryCanonical.of_eq he (.tryStore hu)
    exact .done hu1

protected theorem Canonical.sinkOfRec {eff : Word} (hs : Canonical s) :
    Canonical (sinkOfRec s g new f r eff core unsent idx).2 := by
  unfold sinkOfRec
  dsimp only
  split
  · dsimp only
    exact .fetchWords hs
  · split
    · dsimp only
      exact .fetchWords hs
    · exact .ite_snd (.fetchWords hs) (.newId (.fetchWords hs))

protected theorem Canonical.winOfRec (hs : Canonical s) : Canonical (winOfRec s g old new r core unsent idx).2 := by
  unfold winOfRec
  dsimp only
  split
  · dsimp only
    exact hs
  · refine .ite_snd (.newId hs) ?_
    split
    · rename_i u he1
      have hu : Canonical u := Canonical.of_snd he1 (.fetchInstr hs)
      exact hu
    · rename_i u he1
      have hu : Canonical u := Canonical.of_snd he1 (.fetchInstr hs)
      split
      exacts [.sinkOfRec hu, hu, .ite_snd hu (.newId hu)]

protected theorem Canonical.winsOfRecs {rs : List WinRec} (hs : Canonical s) :
    Canonical (winsOfRecs s g old new rs core unsent idx).2 := by
  unfold winsOfRecs
  refine .foldl_snd hs (fun q a hu => ?_)
  dsimp only
  split
  · dsimp only
    exact hu
  · split
    · rename_i u he1
      have hu1 : Canonical u := Canonical.of_snd he1 (.winOfRec hu)
      exact hu1
    · rename_i u he1
      have hu1 : Canonical u := Canonical.of_snd he1 (.winOfRec hu)
      exact hu1
    · rename_i u he1
      have hu1 : Canonical u := Canonical.of_snd he1 (.winOfRec hu)
      exact hu1

protected theorem Canonical.readLines {accs : List Acc} (hs : Canonical s) : Canonical (readLines s h g accs).2 := by
  unfold readLines
  dsimp only
  split
  · dsimp only
    exact .checkAll hs
  · exact .ite_snd (.each (.checkAll hs) (fun _ _ => .dropOther)) (.foldl_snd (.each (.checkAll hs) (fun _ _ => .dropOther))
      (fun _ _ hu => .modCtx (.baseCopy hu)))

protected theorem ActCanonical.takeShadow (hs : Canonical s) : ActCanonical (takeShadow s h g old new) :=
  .ite (.wait hs) (.done (.setGroup (.loadCtx (.freeRegs (.modCore hs)))))

protected theorem Canonical.readRest {n pos : Nat} {bs : List Byte} (hs : Canonical s) :
    Canonical (readRest n s h g a pos bs).2.2 := by
  induction n generalizing s pos bs with
  | zero => exact hs
  | succ n ih =>
    unfold readRest
    refine .ite_snd_snd hs ?_
    dsimp only
    split
    all_goals rename_i r u he
    exacts [ih (.of_snd he (.readLines hs)), .of_snd he (.readLines hs)]

protected theorem Either.recordOf (hs : Canonical s) :
    Either ActCanonical (fun p => Canonical p.2) (recordOf s h g old a) := by
  unfold recordOf
  dsimp only
  split
  · rename_i u he
    have hu : Canonical u := Canonical.of_snd he (.readLines hs)
    exact .inl (.bad hu)
  · rename_i u he
    have hu : Canonical u := Canonical.of_snd he (.readLines hs)
    exact .inl (.wait hu)
  · rename_i u he
    have hu : Canonical u := Canonical.of_snd he (.readLines hs)
    refine .ite (.inl (.bad hu)) ?_
    split
    · rename_i u1 he1
      have hu1 : Canonical u1 := Canonical.of_snd he1 (.readLines hu)
      exact .inl (.bad hu1)
    · rename_i u1 he1
      have hu1 : Canonical u1 := Canonical.of_snd he1 (.readLines hu)
      exact .inl (.wait hu1)
    · rename_i u1 he1
      have hu1 : Canonical u1 := Canonical.of_snd he1 (.readLines hu)
      refine .ite (.inl (.bad hu1)) ?_
      split
      · rename_i u2 he2
        have hu2 : Canonical u2 := Canonical.of_snd_snd he2 (.readRest hu1)
        exact .inl (.bad hu2)
      · rename_i u2 he2
        have hu2 : Canonical u2 := Canonical.of_snd_snd he2 (.readRest hu1)
        exact .inl (.wait hu2)
      · rename_i u2 he2
        have hu2 : Canonical u2 := Canonical.of_snd_snd he2 (.readRest hu1)
        refine .ite (.inl (.bad hu2)) ?_
        split
        · rename_i u3 he3
          have hu3 : Canonical u3 := Canonical.of_snd he3 (.readLines hu2)
          exact .inl (.bad hu3)
        · rename_i u3 he3
          have hu3 : Canonical u3 := Canonical.of_snd he3 (.readLines hu2)
          exact .inl (.wait hu3)
        · rename_i u3 he3
          have hu3 : Canonical u3 := Canonical.of_snd he3 (.readLines hu2)
          refine .ite (.inl (.bad hu3)) ?_
          split
          · rename_i u4 he4
            have hu4 : Canonical u4 := Canonical.of_snd he4 (.winsOfRecs hu3)
            exact .inl (.bad hu4)
          · rename_i u4 he4
            have hu4 : Canonical u4 := Canonical.of_snd he4 (.winsOfRecs hu3)
            exact .inr hu4

protected theorem NextCanonical.execCtxld (hs : Canonical s) : NextCanonical (execCtxld f s) := by
  unfold execCtxld
  refine .issueHandler hs (fun _ _ _ _ hu => .ite (.bad hu) ?_)
  split
  · rename_i x4 he
    have hu1 : ActCanonical x4 := Either.of_eq he (.recordOf hu)
    exact hu1
  · rename_i u1 he
    have hu1 : Canonical u1 := Either.of_eq he (.recordOf hu)
    split
    exacts [.takeShadow hu1, .wait hu1]

protected theorem Canonical.clearCounters {slices channels : List Nat} (hs : Canonical s) :
    Canonical (clearCounters s slices channels) :=
  .of_mem hs rfl

protected theorem NextCanonical.withDesc {name : String} {a : Nat}
    {body : List Byte → List Byte → List Byte → State → Host.Outcome State Fault Refusal} (hs : Canonical s)
    (hbody : ∀ y y1 y2 u, Canonical u → NextCanonical (body y y1 y2 u)) :
    NextCanonical (withDesc s name a body) :=
  .withBytes hs (fun _ _ hu => .withBytes hu (fun _ _ hu1 => .withBytes hu1 (fun _ _ hu2 => hbody _ _ _ _ hu2)))

protected theorem Canonical.zeroLines (hs : Canonical s) : Canonical (zeroLines s p) := .of_mem hs rfl

protected theorem NextCanonical.execCreatePartition (hs : Canonical s) : NextCanonical (execCreatePartition s) := by
  unfold execCreatePartition
  refine .perform hs (fun _ hu => .withDesc hu (fun y y1 y2 u1 hu1 => ?_))
  dsimp only
  split
  exacts [.next (.reject hu1), .next (.answerDone (.zeroLines (.of_mem hu1 rfl)))]

protected theorem Canonical.quietCore {c : Nat} (hs : Canonical s) : Canonical (quietCore s c) := .modCore (.drainNow hs)
protected theorem Canonical.gatherLines (hs : Canonical s) : Canonical (gatherLines s p) := .each hs (fun _ _ => .gather)

protected theorem Canonical.emptyLines (hs : Canonical s) : Canonical (emptyLines s p) := by
  unfold emptyLines
  refine .each hs (fun _ _ _ => .modLine ?_)
  split
  · rename_i he _ _ _
    exact .ite (.memBack he) he
  · rename_i he _ _
    exact he

protected theorem Canonical.quiesce (hs : Canonical s) : Canonical (quiesce s p) :=
  .gatherLines (.each hs (fun _ _ => .quietCore))

protected theorem NextCanonical.execDestroyPartition (hs : Canonical s) : NextCanonical (execDestroyPartition s) :=
  .performPart hs (fun _ _ _ hu => .ite (.next (.reject hu)) (.ite .notNow (.next
    (.answerDone (.each (.emptyLines (.quiesce hu)) (fun _ _ => .modCore))))))

protected theorem NextCanonical.execSliceChannelHomeTableChange (hs : Canonical s) :
    NextCanonical (execSliceChannelHomeTableChange s) := by
  unfold execSliceChannelHomeTableChange
  dsimp only
  split
  · exact .notNow
  · exact .withDesc hs (fun _ _ _ _ hu => .ite .notNow (.next (.modPart (.clearCounters (.emptyLines (.quiesce hu))))))

protected theorem Canonical.endResize (hs : Canonical s) : Canonical (endResize s p) :=
  .ite (.send (.modPart (.ringWrite hs))) hs

protected theorem Canonical.beginResize (hs : Canonical s) : Canonical (beginResize s p cores) :=
  .endResize (.each (.modPart hs) (fun _ _ => .send))

protected theorem Canonical.resize {force : Bool} (hs : Canonical s) : Canonical (resize s p cores force) := by
  unfold resize
  dsimp only
  split
  · exact .beginResize hs
  · exact .ite (.beginResize (.each hs (fun _ _ hu => .send (.each (.modLaunch hu) (fun _ _ => .killTeam))))) (.modPart
      (.ringWrite hs))

protected theorem Canonical.resumeResize (hs : Canonical s) : Canonical (resumeResize s p) := by
  unfold resumeResize
  dsimp only
  split
  exacts [.ite (.resize (.modPart hs)) hs, hs]

protected theorem NextCanonical.execResizeRequest (hs : Canonical s) : NextCanonical (execResizeRequest s) :=
  .performPart hs (fun _ _ _ hu => .withBytes hu (fun _ _ hu1 => .ite (.next (.reject hu1)) (.ite (.next (.reject hu1))
    (.ite (.next (.reject hu1)) (.next (.answerDone (.resize hu1)))))))

protected theorem NextCanonical.execCoreLeave (hs : Canonical s) : NextCanonical (execCoreLeave s) :=
  .ite .notNow (.next (.endResize (.modPart (.modCore (.each (.quietCore hs) (fun _ _ => .ringPut))))))

protected theorem NextCanonical.execLaunchCompletion (hs : Canonical s) : NextCanonical (execLaunchCompletion s) := by
  unfold execLaunchCompletion
  dsimp only
  split
  · exact .notNow
  · refine .ite .notNow (.next (.send (.each (.resumeResize ?_) (fun _ _ => .send))))
    split
    · exact .send (.modLaunch (.writeCompletion (.dropConstants (.cleanCores hs))))
    · exact .modLaunch (.writeCompletion (.dropConstants (.cleanCores hs)))

protected theorem NextCanonical.execInstallHandlerTable (hs : Canonical s) : NextCanonical (execInstallHandlerTable s) :=
  .performPart hs (fun _ _ _ hu => .withBytes hu (fun _ _ hu1 => .ite (.next (.answerDone (.modPart hu1))) (.next
    (.reject hu1))))

protected theorem NextCanonical.execRegisterContextPool (hs : Canonical s) : NextCanonical (execRegisterContextPool s) :=
  .performPart hs (fun _ _ _ hu => .next (.answerDone (.modPart hu)))

protected theorem NextCanonical.execSetCommunicator (hs : Canonical s) : NextCanonical (execSetCommunicator s) :=
  .perform hs (fun _ hu => .withBytes hu (fun _ _ hu1 => .ite (.next (.reject hu1)) (.ite (.next (.reject hu1)) (.ite
    (.next (.reject hu1)) (.next (.answerDone (.of_mem hu1 rfl)))))))

protected theorem NextCanonical.execSetAddressSpace (hs : Canonical s) : NextCanonical (execSetAddressSpace s) :=
  .perform hs (fun _ hu => .ite (.next (.reject hu)) (.ite (.next (.reject hu)) (.ite (.next (.reject hu))
    (.next (.answerDone (.of_mem hu rfl))))))

protected theorem NextCanonical.execInvalidateTranslations (hs : Canonical s) :
    NextCanonical (execInvalidateTranslations s) :=
  .perform hs (fun _ hu => .ite .notNow (.ite (.next (.reject hu)) (.ite (.next (.reject hu)) (.next
    (.beginInval (.of_mem hu rfl))))))

protected theorem NextCanonical.execKeyCreate (hs : Canonical s) : NextCanonical (execKeyCreate s) := by
  unfold execKeyCreate
  refine .perform hs (fun u hu => ?_)
  split
  · exact .next (.reject hu)
  · refine .ite (.next (.reject hu)) (.withBytes hu (fun y u1 hu1 => ?_))
    split
    exacts [.next (.reject hu1), .next (.answerDone (.of_mem hu1 rfl))]

protected theorem NextCanonical.execKeyBind (hs : Canonical s) : NextCanonical (execKeyBind s) := by
  unfold execKeyBind
  refine .perform hs (fun u hu => ?_)
  dsimp only
  split
  exacts [.next (.reject hu), .ite (.next (.reject hu)) (.ite (.next (.reject hu)) (.next (.answerDone (.of_mem hu rfl))))]

protected theorem NextCanonical.execKeyUnbind (hs : Canonical s) : NextCanonical (execKeyUnbind s) := by
  unfold execKeyUnbind
  refine .perform hs (fun u hu => ?_)
  dsimp only
  split
  exacts [.next (.reject hu), .ite (.next (.reject hu)) (.next (.answerDone (.of_mem hu rfl)))]

protected theorem Canonical.dropTagged (hs : Canonical s) : Canonical (dropTagged s k) := .of_mem hs rfl

protected theorem Canonical.dropSliced (hs : Canonical s) : Canonical (dropSliced s k) :=
  .each hs (fun _ _ hu => .ite hu (.dirSync (.also (.unused (.modLine hu)) .modLine)))

protected theorem Canonical.dropBuffered (hs : Canonical s) : Canonical (dropBuffered s k) :=
  .each hs (fun _ _ hu => .each hu (fun _ _ hu1 => .postPref (.modPrefP hu1)))

protected theorem Canonical.dropSlot (hs : Canonical s) : Canonical (dropSlot s k) :=
  .dropBuffered (.dropSliced (.dropTagged hs))

protected theorem NextCanonical.execKeyDestroy (hs : Canonical s) : NextCanonical (execKeyDestroy s) := by
  unfold execKeyDestroy
  refine .perform hs (fun u hu => ?_)
  dsimp only
  split
  · exact .next (.reject hu)
  · exact .ite (.ite (.next (.reject hu)) (.ite .notNow (.next (.send (.dropSlot (.of_mem hu rfl)))))) (.ite .notNow (.next
      (.answerDone (.dropSlot hu))))

protected theorem Canonical.logImage {component version : Nat} (hs : Canonical s) :
    Canonical (logImage s stage component version bytes) :=
  .of_mem hs rfl

protected theorem Canonical.bootFails {cause : Nat} (hs : Canonical s) : Canonical (bootFails s stage cause) :=
  .of_mem hs rfl

protected theorem NextCanonical.execBootStage {img : BootImage} (hs : Canonical s) :
    NextCanonical (execBootStage stage img s) :=
  .ite .notNow (.ite (.next (.of_mem hs rfl)) (.ite (.next (.bootFails hs)) (.ite (.next (.bootFails hs))
    (.ite (.next (.bootFails hs)) (.next (.of_mem hs rfl))))))

protected theorem NextCanonical.execReadAttestationLog (hs : Canonical s) : NextCanonical (execReadAttestationLog s) :=
  .perform hs (fun _ hu => .ite (.next (.reject hu)) (.ite (.next (.answerDone (.spansWrite hu))) .notNow))

protected theorem NextCanonical.execQuote (hs : Canonical s) : NextCanonical (execQuote s) :=
  .perform hs (fun _ hu => .next (.answerDone (.of_mem hu rfl)))

protected theorem Canonical.closeDie (hs : Canonical s) : Canonical (closeDie s d) := .of_mem hs rfl
protected theorem Canonical.openDie (hs : Canonical s) : Canonical (openDie s d) := .each (.of_mem hs rfl) (fun _ _ => .send)
protected theorem Canonical.stopTaster {b : Bool} (hs : Canonical s) : Canonical (stopTaster s d b) := .of_mem hs rfl

protected theorem Canonical.beginUpdate {die : Nat} (hs : Canonical s) : Canonical (beginUpdate s die bytes) :=
  .ite (.reject hs) (.ite (.answerDone (.logImage hs)) (.ite (.answer hs) (.send
    (.each (.logImage (.closeDie hs)) (fun _ _ hu => .ite hu (.beginSave hu))))))

protected theorem NextCanonical.execFirmwareUpdate (hs : Canonical s) : NextCanonical (execFirmwareUpdate s) :=
  .perform hs (fun _ hu => .ite (.ite (.next (.reject hu)) (.ite (.next (.reject hu)) (.withBytes hu
    (fun _ _ hu1 => .next (.beginUpdate hu1))))) (.ite (.ite .notNow (.next (.send (.of_mem hu rfl)))) (.next
    (.ite (.answerDone (.openDie (.stopTaster (.of_mem hu rfl)))) (.reject (.openDie (.stopTaster (.of_mem hu rfl))))))))

protected theorem NextCanonical.execVote (hs : Canonical s) : NextCanonical (execVote f s) := by
  unfold execVote
  exact .issue hs

protected theorem NextCanonical.execShfl (hs : Canonical s) : NextCanonical (execShfl f s) := by
  unfold execShfl
  exact .issue hs

protected theorem NextCanonical.execGscan (hs : Canonical s) : NextCanonical (execGscan f s) := by
  unfold execGscan
  exact .issueLong hs

protected theorem NextCanonical.execGred (hs : Canonical s) : NextCanonical (execGred f s) := by
  unfold execGred
  exact .issueLong hs

protected theorem NextCanonical.execMatch (hs : Canonical s) : NextCanonical (execMatch f s) := by
  unfold execMatch
  exact .issue hs

end Sys2Proof.Machine
end

section
/-! Memory stays canonical under the operations of Tasters and their filters, and the parts of the fleet. -/

namespace Sys2Proof.Machine

variable {s : State} {c i la n : Nat} {k kind : PartKind} {f : FlF} {w : RegWrite}

protected theorem Canonical.modTaster {d : Nat} {f : Taster → Taster} (hs : Canonical s) : Canonical (modTaster s d f) :=
  .of_mem hs rfl

protected theorem Canonical.modSlot {f : TSlot → TSlot} (hs : Canonical s) : Canonical (modSlot s i f) := .of_mem hs rfl

protected theorem Canonical.offer {e : TEvent} (hs : Canonical s) : Canonical (offer s i e) :=
  .ite hs (.ite (.modSlot hs) (.send (.modSlot hs)))

protected theorem NextCanonical.execTasterEventArrival {die : Nat} {ev : TEvent} (hs : Canonical s) :
    NextCanonical (execTasterEventArrival die ev s) :=
  .ite .notNow (.ite (.next hs) (.next (.each (.modTaster hs) (fun _ _ => .offer))))

protected theorem NextCanonical.execFilterRunStart (hs : Canonical s) : NextCanonical (execFilterRunStart s) := by
  unfold execFilterRunStart
  dsimp only
  split
  · exact .notNow
  · exact .ite .notNow (.ite (.next (.ite (.modSlot (.modTaster hs)) (.send (.modSlot (.modTaster hs))))) (.next (.modSlot
      (.modTaster hs))))

protected theorem NextCanonical.execFilterRunEnd (hs : Canonical s) : NextCanonical (execFilterRunEnd s) := by
  unfold execFilterRunEnd
  dsimp only
  split
  · exact .notNow
  · refine .ite .notNow ?_
    split
    exacts [.next (.of_mem hs rfl), .next (.ite (.modSlot (.modTaster hs)) (.send (.modSlot (.modTaster hs))))]

protected theorem NextCanonical.execTasterBudgetWindow (hs : Canonical s) : NextCanonical (execTasterBudgetWindow s) :=
  .ite .notNow (.next (.modTaster hs))

protected theorem NextCanonical.execSnapshotCopyComplete (hs : Canonical s) :
    NextCanonical (execSnapshotCopyComplete s) := by
  unfold execSnapshotCopyComplete
  dsimp only
  split
  exacts [.notNow, .ite .notNow (.next (.ite (.modSlot hs) (.send (.modSlot hs))))]

protected theorem NextCanonical.writeSlot {off : Nat} (hs : Canonical s) : NextCanonical (writeSlot w i off s) :=
  .ite (.next hs) (.ite (.ite (.next hs) (.ite (.next (.modSlot hs)) (.next (.modSlot hs)))) (.ite (.next hs) (.ite
    (.ite (.ite .notNow (.next (.modSlot hs))) (.ite (.next hs) (.ite .notNow (.next (.modSlot hs))))) (.ite (.ite .notNow
    (.next (.modSlot hs))) (.next hs)))))

protected theorem Canonical.writeControl (hs : Canonical s) : Canonical (writeControl w s) :=
  .ite hs (.ite (.of_mem hs rfl) (.ite (.ite (.of_mem hs rfl) (.send (.of_mem hs rfl))) hs))

protected theorem NextCanonical.execRegisterWrite (hs : Canonical s) : NextCanonical (execRegisterWrite w s) := by
  unfold execRegisterWrite
  dsimp only
  split
  · exact .next (.writeControl hs)
  · exact .ite (.next hs) (.execQueueDoorbell hs)
  · exact .ite (.next hs) (.ite (.writeSlot hs) (.ite (.next hs) (.next (.modTaster hs))))
  · exact .next hs

protected theorem NextCanonical.filterStep {cost : Nat} {body : State → TSlot → FlRun → State × TSlot × FlRun × Nat}
    (hs : Canonical s) (hbody : ∀ u y y1, Canonical u → Canonical (body u y y1).1) :
    NextCanonical (filterStep s cost body) := by
  unfold filterStep
  dsimp only
  split
  exacts [.fault, .ite .fault (.next (hbody _ _ _ hs))]

protected theorem NextCanonical.filterAlu {val : FlRun → W32} (hs : Canonical s) : NextCanonical (filterAlu s f val) :=
  .filterStep hs (fun _ _ _ hu => hu)

protected theorem NextCanonical.filterBranch {cond : FlRun → Bool} (hs : Canonical s) :
    NextCanonical (filterBranch s f cond) :=
  .filterStep hs (fun _ _ _ hu => hu)

protected theorem NextCanonical.execFilterTrig (hs : Canonical s) : NextCanonical (execFilterTrig f s) :=
  .filterStep hs (fun _ _ _ hu => .ite (.of_mem hu rfl) hu)

protected theorem Canonical.hostWrite {l : List Span} {bs : List Byte} (hs : Canonical s) : Canonical (hostWrite s l bs) :=
  .foldl_snd hs (fun _ _ hu => .ite (.spansWrite hu) hu)

protected theorem NextCanonical.execHostMemoryAccess {pa : Nat} {acc : HostAccess} (hs : Canonical s) :
    NextCanonical (execHostMemoryAccess pa acc s) := by
  unfold execHostMemoryAccess
  dsimp only
  refine .ite .notNow ?_
  split
  exacts [.ite (.next (.of_mem hs rfl)) (.next (.spansRead hs)), .next (.hostWrite hs)]

protected theorem NextCanonical.execHostTransfer {compress : Bool} {src dst len : Nat} (hs : Canonical s) :
    NextCanonical (execHostTransfer compress src dst len s) :=
  .ite .notNow (.ite (.next (.answerDone (.hostWrite (.spansRead hs)))) .notNow)

protected theorem NextCanonical.execFlitRetry (hs : Canonical s) : NextCanonical (execFlitRetry s) :=
  .ite .notNow (.next (.post hs))

protected theorem NextCanonical.execRoceRetransmission (hs : Canonical s) : NextCanonical (execRoceRetransmission s) :=
  .ite .notNow (.next (.post hs))

protected theorem Canonical.notices {slot : Nat} (hs : Canonical s) : Canonical (notices s la slot) :=
  .ite hs (.each hs (fun _ _ hu => .each hu (fun _ _ => .ringWrite)))

protected theorem Canonical.mustRetire (hs : Canonical s) : Canonical (mustRetire s k n) := .ite hs (.send (.of_mem hs rfl))
protected theorem Canonical.poisonLine (hs : Canonical s) : Canonical (poisonLine s la) := .of_mem hs rfl

protected theorem NextCanonical.execEccUncorrectable {site : EccSite} (hs : Canonical s) :
    NextCanonical (execEccUncorrectable site s) := by
  unfold execEccUncorrectable
  dsimp only
  split
  · exact .ite .notNow (.next (.notices (.poisonLine hs)))
  · split
    exacts [.notNow, .next (.notices (.poisonLine (.ite (.modNear hs) hs)))]
  · exact .ite (.next (.mustRetire hs)) .notNow

protected theorem NextCanonical.execCorrectedError (hs : Canonical s) : NextCanonical (execCorrectedError kind n s) :=
  .ite .notNow (.next (.also (.of_mem hs rfl) .mustRetire))

protected theorem Canonical.spareTakes (hs : Canonical s) : Canonical (spareTakes s k n) := .of_mem hs rfl
protected theorem Canonical.partDies (hs : Canonical s) : Canonical (partDies s k n) := .of_mem hs rfl

protected theorem Canonical.coreMoves (hs : Canonical s) : Canonical (coreMoves s c) :=
  .spareTakes (.modCore (.freeWord (.drainNow hs)))

protected theorem WhenSome.retireCore (hs : Canonical s) : WhenSome Canonical (retireCore s c) := by
  unfold retireCore
  refine .ite (.ite (.some (.send (.coreMoves hs))) .none) (.ite (.some (.send (.each (.of_mem hs rfl) (fun _ _ hu => .ite hu
    (.beginSave hu))))) (.some ?_))
  split
  exacts [.resize (.partDies hs), .partDies hs]

protected theorem WhenSome.retireSlice (hs : Canonical s) : WhenSome Canonical (retireSlice s n) := by
  unfold retireSlice
  refine .ite (.some (.of_mem hs rfl)) ?_
  split
  exacts [.some (.spareTakes hs), .ite (.some (.spareTakes (.each hs (fun _ _ => .quietCore)))) .none]

protected theorem WhenSome.retireChannel (hs : Canonical s) : WhenSome Canonical (retireChannel s n) :=
  .ite .none (.ite (.some (.send (.of_mem hs rfl))) (.some (.of_mem hs rfl)))

protected theorem NextCanonical.execPartRetire (hs : Canonical s) : NextCanonical (execPartRetire kind n s) := by
  unfold execPartRetire
  refine .ite .notNow ?_
  dsimp only
  split
  · rename_i u he
    cases kind with
    | core => exact .next (WhenSome.of_eq he (.retireCore hs))
    | slice => exact .next (WhenSome.of_eq he (.retireSlice hs))
    | channel => exact .next (WhenSome.of_eq he (.retireChannel hs))
  · exact .notNow

protected theorem NextCanonical.execChannelCopyComplete (hs : Canonical s) : NextCanonical (execChannelCopyComplete s) :=
  .ite (.next (.spareTakes hs)) .notNow

protected theorem NextCanonical.execIslandStateChange {island : Nat} {st : IslandState} (hs : Canonical s) :
    NextCanonical (execIslandStateChange island st s) :=
  .ite (.next (.of_mem hs rfl)) .notNow

protected theorem NextCanonical.execPressScrub (hs : Canonical s) : NextCanonical (execPressScrub s) :=
  .ite .notNow (.next (.of_mem hs rfl))

protected theorem NextCanonical.execDeviceReset (hs : Canonical s) : NextCanonical (execDeviceReset s) :=
  .next (.of_mem hs rfl)

protected theorem NextCanonical.issuePair {a b : PairSlot} (hs : Canonical s) : NextCanonical (issuePair s a b) := by
  unfold issuePair
  dsimp only
  split
  · exact .fault
  · refine .ite (.next (.raise hs)) (.ite (.next hs) ?_)
    split
    exacts [.next (.raise hs), .next (.parkRegs hs), .next (.retire hs)]

end Sys2Proof.Machine
end

section
/-! Memory stays canonical under every instruction, and so under a step. -/

namespace Sys2Proof.Machine

variable {s : State} {d : Due} {h : Nat} {g : Group} {c : Choice}

protected theorem NextCanonical.exec {i : Instr} (hs : Canonical s) : NextCanonical (exec i s) := by
  unfold exec
  cases i with dsimp only
  | nop | iaddc | icmp | lea | sel | movi | fclass | fscl | bcast | kop | kmov | txq => exact .issue hs
  | br | join | call | ret | btab | loopu => exact .issueCtl hs
  | exit => exact .execExit hs
  | sink => exact .execSink hs
  | region => exact .execRegion hs
  | commit => exact .execCommit hs
  | yield_ => exact .execYield hs
  | bpt => exact .execBpt hs
  | trap => exact .execTrap hs
  | iadd | isub | imul | imulh | imad | imin | imax | iabs | ineg => exact .issueInt hs
  | idiv => exact .execIdiv hs
  | irem => exact .execIrem hs
  | mov => exact .execMov hs
  | and_ | or_ | xor_ | not_ | andn | shl | shr | sar | rol | popc | clz | brev | perm => exact .issueBits hs
  | bfx => exact .execBfx hs
  | bfi => exact .execBfi hs
  | fadd | fsub | fmul | ffma | dadd | dsub | dmul | dfma => exact .issueFp hs
  | fmin | fmax | fabs | fneg | dmin | dmax | frnd => exact .issueFpBits hs
  | fcmp => exact .execFcmp hs
  | frcp | frsq | fsqrt | fex2 | flg2 | ftrig | drcp | dsqrt => exact .issueFpLong hs
  | dcmp => exact .execDcmp hs
  | cvt => exact .execCvt hs
  | cvtb => exact .execCvtb hs
  | vote => exact .execVote hs
  | shfl => exact .execShfl hs
  | gscan => exact .execGscan hs
  | gred => exact .execGred hs
  | match_ => exact .execMatch hs
  | ld | ldc | lda | ldx | atom => exact .issueVirt hs
  | lds | ldp | atoms => exact .issueSpace hs
  | pref => exact .execPref hs
  | st => exact .execSt hs
  | sts => exact .execSts hs
  | stp => exact .execStp hs
  | strl => exact .execStrl hs
  | clean => exact .execClean hs
  | inval => exact .execInval hs
  | flushn => exact .execFlushn hs
  | acas => exact .execAcas hs
  | aredn => exact .execAredn hs
  | fence => exact .execFence hs
  | barw | bara | drain => exact .issueBar hs
  | txb => exact .execTxb hs
  | txe => exact .execTxe hs
  | txa => exact .execTxa hs
  | waite => exact .execWaite hs
  | spawn => exact .execSpawn hs
  | await_ => exact .execAwait hs
  | resolve => exact .execResolve hs
  | park => exact .execPark hs
  | steal => exact .execSteal hs
  | role => exact .execRole hs
  | futnew => exact .execFutnew hs
  | mma => exact .execMma hs
  | mmaz => exact .execMmaz hs
  | mlds => exact .execMlds hs
  | msts => exact .execMsts hs
  | mtrn => exact .execMtrn hs
  | tmma | copy | coll | press | lnest | tstore | tzero => exact .issueEngine hs
  | tdep => exact .execTdep hs
  | ecancel => exact .execEcancel hs
  | rds => exact .execRds hs
  | wrs => exact .execWrs hs
  | event => exact .execEvent hs
  | clockc => exact .execClockc hs
  | tret => exact .execTret hs
  | tlbi => exact .execTlbi hs
  | ctxsv => exact .execCtxsv hs
  | ctxld => exact .execCtxld hs
  | killt => exact .execKillt hs
  | halt => exact .execHalt hs
  | pairNop | pairMov | pairIaddI32 | pairIsubI32 | pairIminI32 | pairImaxI32 | pairIminN32 | pairImaxN32 | pairAnd
  | pairOr | pairXor | pairAndn | pairShl | pairShr | pairSar | pairFaddF32 | pairFmulF32 | pairFminF32 | pairFmaxF32
  | pairFaddBf16x2 | pairFmulBf16x2 | pairFminBf16x2 | pairFmaxBf16x2 | pairIaddI64 | pairIsubI64 | pairMovImm
  | pairIaddI32Imm | pairAndImm | pairOrImm | pairXorImm | pairShlImm | pairShrImm | pairSarImm
  | pairIaddI64Imm => exact .issuePair hs
  | longLatencyResult => exact .execLongLatencyResult hs
  | faultDelivery => exact .execFaultDelivery hs
  | yieldExpiry | parkedScratchAccess | spawnOverflowRetry => exact .wakeEvent hs
  | registerParkEviction => exact .execRegisterParkEviction hs
  | registerGrant => exact .execRegisterGrant hs
  | sinkProbe | homeRelease | homeAcquire | homeAtomic => exact .ite .notNow (.next (.arrive hs))
  | sinkHoldGrant => exact .execSinkHoldGrant hs
  | sinkInstance => exact .execSinkInstance hs
  | sinkResult => exact .execSinkResult hs
  | sinkCoreReexecution => exact .execSinkCoreReexecution hs
  | engineDispatch => exact .execEngineDispatch hs
  | dependencyEntryLeave => exact .execDependencyEntryLeave hs
  | engineScratchLineLand => exact .execEngineScratchLineLand hs
  | engineCommandComplete => exact .execEngineCommandComplete hs
  | engineFault => exact .execEngineFault hs
  | engineLeaseExpiry => exact .execEngineLeaseExpiry hs
  | engineLeaseBind => exact .execEngineLeaseBind hs
  | collComplete => exact .execCollComplete hs
  | pressShare => exact .execPressShare hs
  | tmmaKblock => exact .execTmmaKblock hs
  | nearCacheMiss => exact .execNearCacheMiss hs
  | nearCacheFill => exact .execNearCacheFill hs
  | nearCacheWriteback => exact .execNearCacheWriteback hs
  | writebackAck => exact .execWritebackAck hs
  | storeAck => exact .execStoreAck hs
  | nearCacheRecall => exact .execNearCacheRecall hs
  | homeRead | homeReadExclusive | homeUpgrade => exact .next (.arrive hs)
  | forwardShared => exact .execForwardShared hs
  | forwardExclusive => exact .execForwardExclusive hs
  | forwardReply => exact .execForwardReply hs
  | noDataReply => exact .execNoDataReply hs
  | invalidation => exact .execInvalidation hs
  | invalidationAck => exact .execInvalidationAck hs
  | sliceWriteback => exact .execSliceWriteback hs
  | sliceEviction => exact .execSliceEviction hs
  | directoryCensus => exact .execDirectoryCensus hs
  | directoryMerge => exact .execDirectoryMerge hs
  | exclusiveGrant => exact .execExclusiveGrant hs
  | coreDrain => exact .execCoreDrain hs
  | drainComplete => exact .execDrainComplete hs
  | transactionDoom => exact .execTransactionDoom hs
  | slicePrefetch => exact .execSlicePrefetch hs
  | pressPrefetch => exact .execPressPrefetch hs
  | pressScrub => exact .execPressScrub hs
  | vintageRebase => exact .execVintageRebase hs
  | splitScratchToCache => exact .execSplitScratchToCache hs
  | splitCacheToScratch => exact .execSplitCacheToScratch hs
  | granuleRelease => exact .execGranuleRelease hs
  | caskLaunch => exact .execCaskLaunch hs
  | caskAgeExpiry => exact .execCaskAgeExpiry hs
  | overflowMove => exact .execOverflowMove hs
  | idleSteal => exact .execIdleSteal hs
  | adoptionReturn => exact .execAdoptionReturn hs
  | futureWake => exact .execFutureWake hs
  | launchRecordTake => exact .execLaunchRecordTake hs
  | queueDoorbell => exact .execQueueDoorbell hs
  | teamPlacement => exact .execTeamPlacement hs
  | placementHoldExpiry => exact .execPlacementHoldExpiry hs
  | cooperativeCancel => exact .execCooperativeCancel hs
  | launchCompletion => exact .execLaunchCompletion hs
  | tokenPeriodStart => exact .execTokenPeriodStart hs
  | tokenGrantDraw => exact .execTokenGrantDraw hs
  | tenantIdle => exact .execTenantIdle hs
  | coreLeave => exact .execCoreLeave hs
  | teamSave => exact .execTeamSave hs
  | teamKill => exact .execTeamKill hs
  | translationWalk => exact .execTranslationWalk hs
  | translationInvalidateComplete => exact .execTranslationInvalidateComplete hs
  | eccUncorrectable => exact .execEccUncorrectable hs
  | partRetire => exact .execPartRetire hs
  | channelCopyComplete => exact .execChannelCopyComplete hs
  | islandStateChange => exact .execIslandStateChange hs
  | deviceReset => exact .execDeviceReset hs
  | bootStage => exact .execBootStage hs
  | hostMemoryAccess => exact .execHostMemoryAccess hs
  | flitRetry => exact .execFlitRetry hs
  | roceRetransmission => exact .execRoceRetransmission hs
  | createPartition => exact .execCreatePartition hs
  | destroyPartition => exact .execDestroyPartition hs
  | resizeRequest => exact .execResizeRequest hs
  | preEmpt => exact .execPreEmpt hs
  | resumeRequest => exact .execResumeRequest hs
  | killRequest => exact .execKillRequest hs
  | queryRequest => exact .execQueryRequest hs
  | installHandlerTable => exact .execInstallHandlerTable hs
  | registerContextPool => exact .execRegisterContextPool hs
  | setCommunicator => exact .execSetCommunicator hs
  | invalidateTranslations => exact .execInvalidateTranslations hs
  | setAddressSpace => exact .execSetAddressSpace hs
  | keyCreate => exact .execKeyCreate hs
  | keyBind => exact .execKeyBind hs
  | keyUnbind => exact .execKeyUnbind hs
  | keyDestroy => exact .execKeyDestroy hs
  | readAttestationLog => exact .execReadAttestationLog hs
  | quote_ => exact .execQuote hs
  | firmwareUpdate => exact .execFirmwareUpdate hs
  | managementUnknownCode => exact .execManagementUnknownCode hs
  | tasterEventArrival => exact .execTasterEventArrival hs
  | filterRunStart => exact .execFilterRunStart hs
  | filterRunEnd => exact .execFilterRunEnd hs
  | tasterBudgetWindow => exact .execTasterBudgetWindow hs
  | snapshotCopyComplete => exact .execSnapshotCopyComplete hs
  | sctlStart | sctlStop | sownWrite => exact .ite .notNow (.next (.modSlot hs))
  | registerWrite => exact .execRegisterWrite hs
  | filterEnd | filterLdw | filterStw | filterHinc | filterCms | filterHll
  | filterSnap => exact .filterStep hs (fun _ _ _ hu => hu)
  | filterLdf | filterSeti | filterAdd | filterAddi | filterSub | filterAnd | filterAndi | filterOr | filterXor
  | filterShli | filterShri | filterSltu | filterCeqi | filterHash => exact .filterAlu hs
  | filterBz | filterBnz | filterJmp => exact .filterBranch hs
  | filterTrig => exact .execFilterTrig hs
  | illegalInstruction => exact .execIllegalInstruction hs
  | engineOperation => exact .execEngineOperation hs
  | fillFromMemory => exact .execFillFromMemory hs
  | censusReply => exact .execCensusReply hs
  | sliceRecall => exact .execSliceRecall hs
  | correctedError => exact .execCorrectedError hs
  | createQueue => exact .execCreateQueue hs
  | hostTransfer => exact .execHostTransfer hs
  | doorbellWriteIgnored => exact .execDoorbellWriteIgnored hs
  | sliceChannelHomeTableChange => exact .execSliceChannelHomeTableChange hs

protected theorem WhenSome.tryEvent (hs : Canonical s) : WhenSome NextCanonical (tryEvent s d) := by
  unfold tryEvent
  split
  · exact .none
  · rename_i u he
    have hu : Canonical u := NextCanonical.of_eq he (.exec (.of_mem hs rfl))
    exact .some (.next (.freshen hu))
  · exact .some (.exec (.of_mem hs rfl))

protected theorem NextCanonical.performEvent (hs : Canonical s) : NextCanonical (performEvent s d) :=
  .ite (.next hs) (WhenSome.getD (.tryEvent hs) (.next hs))

protected theorem NextCanonical.afterWord {r : Host.Outcome State Fault Refusal} (hr : NextCanonical r) :
    NextCanonical (afterWord s h g r) := by
  unfold afterWord
  split
  exacts [.next (.ite (.modGroup hr) (.freshen hr)), hr]

protected theorem NextCanonical.runWord {ws : List Word} (hs : Canonical s) : NextCanonical (runWord s h g ws) :=
  .ite (.next (.setGroup hs)) (.afterWord (.exec hs))

protected theorem NextCanonical.runGroup (hs : Canonical s) : NextCanonical (runGroup s h) := by
  unfold runGroup
  dsimp only
  split
  · exact .next (.unpark hs)
  · split
    · rename_i u he1
      have hu : Canonical u := Canonical.of_snd he1 (.fetchInstr (.unpark hs))
      exact .next (.raise hu)
    · rename_i u he1
      have hu : Canonical u := Canonical.of_snd he1 (.fetchInstr (.unpark hs))
      exact .runWord hu

protected theorem NextCanonical.runFilter {die slot : Nat} (hs : Canonical s) : NextCanonical (runFilter s die slot) := by
  unfold runFilter
  dsimp only
  split
  · exact .next hs
  · refine .ite (.performEvent (.of_mem hs rfl)) ?_
    split
    exacts [.exec (.of_mem hs rfl), .performEvent (.of_mem hs rfl)]

protected theorem NextCanonical.defaultStep (hs : Canonical s) : NextCanonical (defaultStep s) := by
  unfold defaultStep
  split
  · rename_i x1 he
    have hu : NextCanonical x1 := WhenSome.of_eq he (.findSome? (fun _ => .tryEvent hs))
    exact hu
  · split
    · exact .runGroup hs
    · split
      exacts [.runFilter hs, .next hs]

protected theorem NextCanonical.follow (hs : Canonical s) : NextCanonical (follow s c) := by
  unfold follow
  split
  · exact .performEvent hs
  · split
    exacts [.ite (.runGroup hs) (.next hs), .next hs]
  · exact .runFilter hs
  · exact .next (.freshen (.elapse hs))
  · split
    exacts [.next (.of_mem hs rfl), .next hs]
  · exact .next hs
  · exact .next hs

protected theorem NextCanonical.choose (hs : Canonical s) : NextCanonical (choose s c) := by
  unfold choose
  split
  exacts [.performEvent (.of_mem hs rfl), .follow hs]

protected theorem NextCanonical.step (hs : Canonical s) : NextCanonical (step s) := by
  unfold step
  split
  exacts [.choose (.of_mem hs rfl), .defaultStep hs]

end Sys2Proof.Machine
end
section
/-! Every step keeps memory canonical (10 R265; the form is the model's, log entry 2). -/

namespace Sys2Proof.Machine

/-- Settles O24: every function that a step runs keeps memory canonical, down to the few that write memory. -/
theorem stepKeepsMemoryCanonical : Obligations.StepKeepsMemoryCanonical := by
  unfold Obligations.StepKeepsMemoryCanonical
  intro s t hs ht
  exact NextCanonical.of_eq ht (.step hs)

end Sys2Proof.Machine
end

section
/-! The messages of near caches: a miss at the die's slice, a fill, a grant, a recall, a write-back with its
acknowledgement, and prefetches (10 R255, R261, 12 R285 to R288, 18 R326, R327). -/

namespace Sys2Proof.Machine

variable {s : State}

section Miss

variable {r : LineReq} {d : Nat} {u : State} (hflight : wbInFlight s r.core r.la = false)
  (hd : localDie s r.core r.la = d) (hgrant : granting s d r.la = false)
  (hu : demandAt s (localSlice s (dieOf r.core) r.la) r.la r.slot r.tenant false = u)

/-- What a miss asks the home for. -/
def missAsk (d : Nat) (r : LineReq) : Instr := if r.kind = .exclusive then .homeReadExclusive d r else .homeRead d r

include hflight hd hgrant hu

theorem exec_nearCacheMiss_asks (h : d = homeDie u r.la ∨ find (lineSt u r.la).copies d = none) :
    exec (.nearCacheMiss r) s = .next (send u (missAsk d r)) := by
  change execNearCacheMiss r s = _
  unfold execNearCacheMiss
  by_cases hhome : d = homeDie u r.la
  · simp [missAsk, hd, hu, hflight, hgrant, ← hhome]
  · simp [missAsk, hd, hu, hflight, hgrant, hhome, h.resolve_left hhome]

variable {k : DieCopy} (hhome : d ≠ homeDie u r.la) (hk : find (lineSt u r.la).copies d = some k)
include hhome hk

theorem exec_nearCacheMiss_otherSlot (hslot : k.slot ≠ r.slot) :
    exec (.nearCacheMiss r) s = .next (send u (missAsk d r)) := by
  change execNearCacheMiss r s = _
  unfold execNearCacheMiss
  simp [missAsk, hd, hu, hflight, hgrant, hhome, hk, hslot]

theorem exec_nearCacheMiss_grants (hslot : k.slot = r.slot) (hexcl : r.kind = .exclusive) (hst : k.st = .m ∨ k.st = .e) :
    exec (.nearCacheMiss r) s = .next (send (dirSync (modLine u r.la fun l => { l with
      copies := put l.copies d { k with st := .m } }) r.la) (.exclusiveGrant d r)) := by
  change execNearCacheMiss r s = _
  unfold execNearCacheMiss
  simp [hd, hu, hflight, hgrant, hhome, hk, hslot, hexcl, hst]

theorem exec_nearCacheMiss_upgrades (hslot : k.slot = r.slot) (hexcl : r.kind = .exclusive) (hst : k.st = .o ∨ k.st = .s) :
    exec (.nearCacheMiss r) s = .next (send u (.homeUpgrade d r)) := by
  change execNearCacheMiss r s = _
  unfold execNearCacheMiss
  rcases hst with hst | hst <;> simp [hd, hu, hflight, hgrant, hhome, hk, hslot, hexcl, hst]

theorem exec_nearCacheMiss_leases (hslot : k.slot = r.slot) (hexcl : r.kind ≠ .exclusive) (hst : k.st = .m ∨ k.st = .e)
    {v : State} (hv : modLine (recallDie u d r.la) r.la (fun l => grantLease (recallDie u d r.la) l r.la r.rv) = v) :
    exec (.nearCacheMiss r) s
      = .next (reply v r (look (lineSt v r.la).copies d {}).data (lineSt v r.la).wv (lineSt v r.la).le) := by
  subst hv
  change execNearCacheMiss r s = _
  unfold execNearCacheMiss
  simp [hd, hu, hflight, hgrant, hhome, hk, hslot, hexcl, hst]

theorem exec_nearCacheMiss_reads (hslot : k.slot = r.slot) (hexcl : r.kind ≠ .exclusive) (hst : k.st = .o ∨ k.st = .s) :
    exec (.nearCacheMiss r) s
      = .next (if r.rv ≤ k.le then reply u r k.data k.wv k.le else send u (missAsk d r)) := by
  change execNearCacheMiss r s = _
  unfold execNearCacheMiss
  rcases hst with hst | hst <;>
    by_cases hr : r.rv ≤ k.le <;> simp [missAsk, hd, hu, hflight, hgrant, hhome, hk, hslot, hexcl, hst, hr]

end Miss

section Fill

variable {r : LineReq} {data : LineData} {wv le : Nat} {u v : State} (hu : observe s r.core wv = u)
include hu

/-- The core's own bytes of the line. -/
def OwnLine (u : State) (r : LineReq) : Prop :=
  ∃ n, nearLine u r.core r.la = some n ∧ n.slot = r.slot ∧ (n.st = .dirty ∨ n.st = .exclusive)

theorem exec_nearCacheFill_constant (hkind : r.kind = .constant) :
    exec (.nearCacheFill r data wv le) s = .next (serveCore
      (install u r.core (constKey r.la) { st := .constant, data := data, slot := r.slot, wv := wv, le := le })
      r.core r.la .constant 0) := by
  change execNearCacheFill r data wv le s = _
  unfold execNearCacheFill
  simp [hu, hkind]

variable (hkind : r.kind ≠ .constant)
include hkind

theorem exec_nearCacheFill_late (h : OwnLine u r ∨ wv ≠ (lineSt u r.la).wv ∨ wbInFlight u r.core r.la = true) :
    exec (.nearCacheFill r data wv le) s = .next (serveCore u r.core r.la .leased 0) := by
  change execNearCacheFill r data wv le s = _
  unfold execNearCacheFill
  rcases h with ⟨n, hn, hslot, hst⟩ | h | h
  · simp [hu, hkind, hn, hslot, hst]
  · simp [hu, hkind, h]
  · simp [hu, hkind, h]

variable (hown : ¬OwnLine u r) (hwv : wv = (lineSt u r.la).wv) (hflight : wbInFlight u r.core r.la = false)
  (hv : dropOther u r.core r.la r.slot = v)
include hown hwv hflight hv

theorem exec_nearCacheFill_new : exec (.nearCacheFill r data wv le) s = .next
    (if ∃ q ∈ (coreOf v r.core).pend, q.la = r.la then serveCore v r.core r.la .leased 0 (some (r.la, r.slot, data, wv))
    else serveCore (install v r.core r.la { st := .leased, data := data, slot := r.slot, wv := wv, le := le })
      r.core r.la .leased 0) := by
  change execNearCacheFill r data wv le s = _
  unfold execNearCacheFill
  cases hn : nearLine u r.core r.la with
  | none => by_cases hp : ∃ q ∈ (coreOf v r.core).pend, q.la = r.la <;> simp [hu, hkind, hn, ← hwv, hflight, hv, hp]
  | some n =>
    have hnot : (n.slot == r.slot && (n.st == .dirty || n.st == .exclusive)) = false :=
      Bool.eq_false_iff.2 fun h => hown ⟨n, hn, by simpa using h⟩
    simp only [hu, hn, hnot]
    by_cases hp : ∃ q ∈ (coreOf v r.core).pend, q.la = r.la <;> simp [hkind, ← hwv, hflight, hv, hp]

end Fill

section Grant

variable {r : LineReq} {die : Nat} {v : State} {n : NcLine} {base : LineData}
  (hv : fillHome (landFlights (dropOther (each ((exclCores s r.la).filter fun c => c != r.core) s fun s c =>
    recallNear s r.la c) r.core r.la r.slot) (some r.core) r.la) r.la r.slot = v)
  (hbase : (if die = homeDie v r.la then homeData v r.la r.slot else (look (lineSt v r.la).copies die {}).data) = base)
include hv hbase

/-- The line that a grant puts into the core, over what the core holds of it. -/
def grantedLine (v : State) (r : LineReq) (base : LineData) : NcLine :=
  let l := lineSt v r.la
  match nearLine v r.core r.la with
  | none => { st := .exclusive, data := base, slot := r.slot, wv := l.wv, le := l.le }
  | some o =>
    if o.isDirty then { o with st := .exclusive, data := mergeLine base o.data o.mask, wv := l.wv, le := l.le }
    else { o with st := .exclusive, data := if o.st = .exclusive then o.data else base, mask := 0, wv := l.wv, le := l.le }

theorem exec_exclusiveGrant : exec (.exclusiveGrant die r) s = .next (serveLine
    (serveCore (observe (install v r.core r.la (grantedLine v r base)) r.core (lineSt v r.la).wv) r.core r.la .exclusive
      (lineSt v r.la).wv) r.la) := by
  subst hbase hv
  change execExclusiveGrant die r s = _
  unfold execExclusiveGrant grantedLine
  dsimp only
  generalize fillHome _ _ _ = v
  cases nearLine v r.core r.la with
  | none => rfl
  | some o => simp only [beq_iff_eq]

end Grant

theorem exec_nearCacheWriteback {m : WbMsg} (hwait : wbWaits s m = false) {cut : Bool} {u : State}
    (hsplit : takeSplit s = (cut, u)) {now : ByteMask} (hnow : (if cut then firstSector m.mask else m.mask) = now) :
    exec (.nearCacheWriteback m) s = .next (
      if now = m.mask then send (performMsg u { m with mask := now }).2 (.writebackAck m (performMsg u { m with mask := now }).1)
      else send (performMsg u { m with mask := now }).2 (.nearCacheWriteback { m with mask := m.mask &&& ~~~now })) := by
  change execNearCacheWriteback m s = _
  unfold execNearCacheWriteback
  by_cases hall : now = m.mask <;> simp [hwait, hsplit, hnow, hall]

theorem exec_writebackAck {m : WbMsg} {wv : Nat} {u : State}
    (hu : (match m.grp with | some h => ackOut (observe s m.core wv) h m.id | none => observe s m.core wv) = u)
    (hmoving : (coreOf u m.core).moving = none) :
    exec (.writebackAck m wv) s = .next (drained { u with lines := u.lines.map fun x => (x.1,
      match x.2.busy with
      | .acquire d cores v => if cores.contains m.core then { x.2 with busy := .acquire d cores (max v wv) } else x.2
      | _ => x.2) } m.core) := by
  change execWritebackAck m wv s = _
  unfold execWritebackAck
  cases hgrp : m.grp with
  | none =>
    simp only [hgrp] at hu
    simp [hu, hmoving] <;> rfl
  | some h =>
    simp only [hgrp] at hu
    simp [hu, hmoving] <;> rfl

theorem ackOut_subj (s : State) (h id : Nat) : (ackOut s h id).subj = s.subj := modGroup_keeps_subj ..

theorem exec_storeAck : exec .storeAck s = .next (if s.subj.va = 0 then ackOut s s.subj.g s.subj.n
    else observe (modCtx (ackOut s s.subj.g s.subj.n) s.subj.g fun x => { x with rv := max x.rv s.subj.va }) s.subj.core
      s.subj.va) := by
  change execStoreAck s = _
  unfold execStoreAck
  simp only [ackOut_subj]

section PressPrefetch

variable {p : Pref} (hp : look s.prefP s.subj.channel {} = p) (hchannel : channelOf s.subj.la = s.subj.channel)
  (hpoison : (lineSt s s.subj.la).poison = false) (hnew : find p.buffer s.subj.la = none)
  (hroom : p.used + p.late + p.evicted + p.buffer.length < p.issued)
include hp hchannel hpoison hnew hroom

theorem exec_pressPrefetch_keeps (hlen : p.buffer.length < 64) : exec .pressPrefetch s
    = .next (modPrefP s s.subj.channel fun p => { p with buffer := p.buffer ++ [(s.subj.la, s.subj.tenant)] }) := by
  have hissued : ¬p.issued ≤ p.used + p.late + p.evicted + p.buffer.length := Nat.not_le.2 hroom
  change execPressPrefetch s = _
  unfold execPressPrefetch
  cases hb : p.buffer with
  | nil =>
    rw [hb] at hissued hnew
    simp only [hp, hchannel, hpoison, hnew, hb, hissued]
    simp
  | cons old rest =>
    rw [hb] at hissued hnew hlen
    simp only [hp, hchannel, hpoison, hnew, hb, hissued, if_neg (Nat.not_le.2 hlen)]
    simp

/-- The oldest line of a full buffer makes room, and counts as evicted (10 R263). -/
def prefetchEvicts (s : State) (old : Nat × Nat) (rest : Tbl Nat) : State :=
  postPref (modPrefP s s.subj.channel fun p => { p with evicted := p.evicted + 1, buffer := rest }) true s.subj.channel 0x113
    old.1 old.2

theorem exec_pressPrefetch_evicts {old : Nat × Nat} {rest : Tbl Nat} (hb : p.buffer = old :: rest)
    (hlen : 64 ≤ p.buffer.length) : exec .pressPrefetch s = .next (modPrefP (prefetchEvicts s old rest) s.subj.channel
      fun p => { p with buffer := p.buffer ++ [(s.subj.la, s.subj.tenant)] }) := by
  have hissued : ¬p.issued ≤ p.used + p.late + p.evicted + p.buffer.length := Nat.not_le.2 hroom
  change execPressPrefetch s = _
  unfold execPressPrefetch
  rw [hb] at hissued hnew hlen
  simp only [hp, hchannel, hpoison, hnew, hb, hissued, if_pos hlen]
  simp [prefetchEvicts, postPref, post, modPrefP]

omit hchannel hpoison hnew hroom in
theorem prefetchEvicts_prefP (old : Nat × Nat) (rest : Tbl Nat) :
    look (prefetchEvicts s old rest).prefP s.subj.channel {} = { p with evicted := p.evicted + 1, buffer := rest } := by
  simp [prefetchEvicts, postPref, post, modPrefP, look_put_self, hp]

end PressPrefetch

/-- Settles O54, event by event. -/
theorem nearCacheEventsHappen : Obligations.NearCacheEventsHappen := by
  unfold Obligations.NearCacheEventsHappen
  intro s c la p
  refine ⟨fun r hflight hgrant => ?miss, fun r data wv le => ?fill, fun die r => ?grant, fun hc => ?takes,
    fun m hwait cut u hsplit => ?writeback, fun m wv => ?ack, ?store, rfl, fun hchannel hpoison hnew hroom => ?prefetch⟩
  case miss =>
    refine ⟨fun hhome => exec_nearCacheMiss_asks hflight rfl hgrant rfl (.inl hhome), fun hhome =>
      ⟨fun hk => exec_nearCacheMiss_asks hflight rfl hgrant rfl (.inr hk), fun k hk => ⟨?_, ?_, ?_, ?_, ?_⟩⟩⟩
    · exact exec_nearCacheMiss_otherSlot hflight rfl hgrant rfl hhome hk
    · exact exec_nearCacheMiss_grants hflight rfl hgrant rfl hhome hk
    · exact exec_nearCacheMiss_upgrades hflight rfl hgrant rfl hhome hk
    · exact fun hslot hexcl hst => exec_nearCacheMiss_leases hflight rfl hgrant rfl hhome hk hslot hexcl hst rfl
    · exact exec_nearCacheMiss_reads hflight rfl hgrant rfl hhome hk
  case fill =>
    refine ⟨exec_nearCacheFill_constant rfl, fun hkind => ⟨exec_nearCacheFill_late rfl hkind, fun hown hwv hflight =>
      ⟨fun hp => ?_, fun hp => ?_⟩⟩⟩
    · rw [exec_nearCacheFill_new rfl hkind hown hwv hflight rfl, if_pos hp]
    · rw [exec_nearCacheFill_new rfl hkind hown hwv hflight rfl, if_neg (by simpa using hp)]
  case grant =>
    have hgrant := exec_exclusiveGrant (s := s) (r := r) (die := die) rfl rfl
    refine ⟨fun hn => ?_, fun o hn => ⟨fun hdirty => ?_, fun hdirty => ?_⟩⟩
    · simpa only [grantedLine, hn] using hgrant
    · simpa only [grantedLine, hn, hdirty, if_true] using hgrant
    · simpa only [grantedLine, hn, hdirty, Bool.false_eq_true, if_false] using hgrant
  case takes => exact if_pos (by simpa using hc)
  case writeback =>
    have hexec := exec_nearCacheWriteback hwait hsplit rfl
    exact ⟨fun hall => by rw [hexec, if_pos hall], fun hpart => by rw [hexec, if_neg hpart]⟩
  case ack => exact exec_writebackAck rfl
  case store => exact ⟨fun hv => by rw [exec_storeAck, if_pos hv], fun hv => by rw [exec_storeAck, if_neg hv]⟩
  case prefetch =>
    refine ⟨exec_pressPrefetch_keeps rfl hchannel hpoison hnew hroom, fun old rest hb hlen =>
      ⟨_, exec_pressPrefetch_evicts rfl hchannel hpoison hnew hroom hb hlen, ?_⟩⟩
    simp only [modPrefP, look_put_self, prefetchEvicts_prefP rfl]
    rfl

end Sys2Proof.Machine
end

section
/-! The home: requests in their lines' queues, forwards and invalidations with their answers, slices' write-backs, fills and
recalls, directory entries, drains and the rebase (10 R266, 12 R289 to R302, 18 R327). -/

namespace Sys2Proof.Machine

variable {s : State} {n : Nat} {d : Due}

/-- A request joins its line's queue. -/
def enqueue (s : State) (n : Nat) (d : Due) : State := modLine s n fun l => { l with queue := l.queue ++ [d] }

theorem arrive_ready (hready : lineReady s n = true) (hempty : (lineSt s n).queue = []) :
    arrive s n d = pump 1 (homeStart (modLine (enqueue s n d) n fun l => { l with queue := [] }) d) n := by
  have hqueue : (lineSt (enqueue s n d) n).queue = [d] := by rw [enqueue, lineSt_modLine_self, hempty]; rfl
  have hready' : lineReady (enqueue s n d) n = true := (lineReady_queue s n d).trans hready
  change serveLine (enqueue s n d) n = _
  unfold serveLine
  rw [hqueue, List.length_singleton, pump, hready', hqueue]
  rfl

theorem arrive_waits (hready : lineReady s n = false) : arrive s n d = enqueue s n d := by
  change serveLine (enqueue s n d) n = _
  unfold serveLine
  rw [pump, enqueue, lineReady_queue, hready]
  rfl

section Forwards

variable {die la : Nat} (hdie : s.subj.die = die) (hla : s.subj.la = la) (hgrant : granting s die la = false)
include hdie hla hgrant

theorem exec_forward_none (hcopy : find (lineSt (recallDie s die la) la).copies die = none) :
    exec .forwardShared s = .next (send (recallDie s die la) .noDataReply { die := die, la := la })
    ∧ exec .forwardExclusive s = .next (send (recallDie s die la) .noDataReply { die := die, la := la }) := by
  change execForwardShared s = _ ∧ execForwardExclusive s = _
  unfold execForwardShared execForwardExclusive
  simp [hdie, hla, hgrant, hcopy]

theorem exec_forwardShared_some {k : DieCopy} (hcopy : find (lineSt (recallDie s die la) la).copies die = some k) :
    exec .forwardShared s = .next (send (modLine (recallDie s die la) la fun l => { l with
      copies := put l.copies die { k with st := if k.st == .e then .s else .o, wv := l.wv, le := l.le } })
        (.forwardReply die la k.data (k.st == .m || k.st == .o))) := by
  change execForwardShared s = _
  unfold execForwardShared
  simp only [hdie, hla, hgrant, hcopy]
  rfl

theorem exec_forwardExclusive_some {k : DieCopy} (hcopy : find (lineSt (recallDie s die la) la).copies die = some k) :
    exec .forwardExclusive s = .next (send (modLine (unused (recallDie s die la) la) la fun l => { l with
      copies := del l.copies die }) (.forwardReply die la k.data (k.st == .m || k.st == .o))) := by
  change execForwardExclusive s = _
  unfold execForwardExclusive
  simp only [hdie, hla, hgrant, hcopy]
  rfl

theorem exec_invalidation : exec .invalidation s = .next (send (modLine
    (if (find (lineSt s la).copies die).isSome then unused s la else s) la fun l => { l with copies := del l.copies die })
      .invalidationAck { die := die, la := la }) := by
  change execInvalidation s = _
  unfold execInvalidation
  simp only [hdie, hla, hgrant]
  rfl

end Forwards

theorem exec_forwardReply {o : Nat} {data : LineData} {dirty : Bool} {u : State}
    (hu : dirSync (absorb s n data dirty) n = u) :
    ((lineSt s n).busy = .fw d o → exec (.forwardReply o n data dirty) s = .next (resumeReq u d [] none n))
    ∧ ∀ acks, (lineSt s n).busy = .rx d acks (some o) →
      exec (.forwardReply o n data dirty) s = .next (resumeReq u d acks none n) := by
  change (_ → execForwardReply o n data dirty s = _) ∧ ∀ _, _ → execForwardReply o n data dirty s = _
  unfold execForwardReply
  exact ⟨fun hbusy => by simp [hbusy, hu], fun acks hbusy => by simp [hbusy, hu]⟩

section NoData

variable {die la : Nat} (hdie : s.subj.die = die) (hla : s.subj.la = la) (hflight : sliceWbInFlight s die la = false)
include hdie hla hflight

theorem exec_noDataReply_wb {acks : List Nat} (hbusy : (lineSt s la).busy = .wb d die acks) :
    exec .noDataReply s = .next (resumeReq s d acks none la) := by
  change execNoDataReply s = _
  unfold execNoDataReply
  simp [hdie, hla, hflight, hbusy]

theorem exec_noDataReply_fw (hbusy : (lineSt s la).busy = .fw d die) :
    exec .noDataReply s = .next (resumeReq (fillHome (dirSync s la) la (lineSt s la).slot) d [] none la) := by
  change execNoDataReply s = _
  unfold execNoDataReply
  simp [hdie, hla, hflight, hbusy]

theorem exec_noDataReply_rx {acks : List Nat} (hbusy : (lineSt s la).busy = .rx d acks (some die)) :
    exec .noDataReply s = .next (resumeReq (dirSync s la) d acks none la) := by
  change execNoDataReply s = _
  unfold execNoDataReply
  simp [hdie, hla, hflight, hbusy]

end NoData

section Acks

variable {die la : Nat} {acks : List Nat} (hdie : s.subj.die = die) (hla : s.subj.la = la)
include hdie hla

theorem exec_invalidationAck_up {x : Nat} {r : LineReq} (hev : d.ev = .homeUpgrade x r)
    (hbusy : (lineSt s la).busy = .up d acks) : exec .invalidationAck s = .next
      (if acks.erase die = [] then endBusy s la fun s => answerExcl s x r else setBusy s la (.up d (acks.erase die))) := by
  change execInvalidationAck s = _
  unfold execInvalidationAck
  by_cases hlast : acks.erase die = [] <;> simp [hdie, hla, hbusy, hev, hlast]

theorem exec_invalidationAck_rx {fwd : Option Nat} (hbusy : (lineSt s la).busy = .rx d acks fwd) :
    exec .invalidationAck s = .next (resumeReq s d (acks.erase die) fwd la) := by
  change execInvalidationAck s = _
  unfold execInvalidationAck
  simp [hdie, hla, hbusy]

theorem exec_invalidationAck_wb {o : Nat} (hbusy : (lineSt s la).busy = .wb d o acks) :
    exec .invalidationAck s = .next (setBusy s la (.wb d o (acks.erase die))) := by
  change execInvalidationAck s = _
  unfold execInvalidationAck
  simp [hdie, hla, hbusy]

end Acks

section SliceWriteback

variable {x : Nat} {data : LineData} {st : Moesi} {u : State}
  (hu : dirEvent (dirSync (if st == .m || st == .o then absorb s n data true else s) n) n = u)
include hu

theorem exec_sliceWriteback_enters {acks : List Nat}
    (hbusy : (lineSt u n).busy = .fw d x ∧ acks = [] ∨ (lineSt u n).busy = .rx d acks (some x)) :
    exec (.sliceWriteback x n data st) s
      = .next (post (setBusy u n (.wb d x acks)) 0x122 1 (homeSlice u n) 0xFF (.ofNat 32 x)) := by
  change execSliceWriteback x n data st s = _
  unfold execSliceWriteback
  simp only [hu]
  rcases hbusy with ⟨hbusy, rfl⟩ | hbusy <;> simp [hbusy]

theorem exec_sliceWriteback_idle (hbusy : (lineSt u n).busy = .idle) :
    exec (.sliceWriteback x n data st) s = .next (serveLine u n) := by
  change execSliceWriteback x n data st s = _
  unfold execSliceWriteback
  simp only [hu, hbusy]

end SliceWriteback

section GiveUp

variable {die la : Nat} (hdie : s.subj.die = die) (hla : s.subj.la = la) (hgrant : granting s die la = false)
  (hasked : sliceAsked s die la = false)
include hdie hla hgrant hasked

theorem exec_sliceEviction_home (hhome : die = homeDie s la) (hready : lineReady s la = true)
    (hcopy : (lineSt s la).home ≠ none) (hexcl : exclCores s la = []) :
    exec .sliceEviction s = .next (dropSliceLine s die la) := by
  change execSliceEviction s = _
  unfold execSliceEviction
  simp [hdie, hla, hgrant, hasked, ← hhome, hready, Option.isSome_iff_ne_none, hcopy, hexcl]

variable {k : DieCopy} (hk : find (lineSt s la).copies die = some k)
include hk

theorem exec_sliceEviction_away (hhome : die ≠ homeDie s la) : exec .sliceEviction s
    = .next (dropSliceLine (if k.st = .m ∨ k.st = .e then recallDie s die la else s) die la) := by
  change execSliceEviction s = _
  unfold execSliceEviction
  simp [hdie, hla, hgrant, hasked, hhome, hk]

theorem exec_sliceRecall (hready : lineReady s la = true) {k' : DieCopy} {w : State}
    (hk' : look (lineSt (recallDie s die la) la).copies die {} = k')
    (hw : (if k'.st == .m || k'.st == .o then absorb (fillHome (recallDie s die la) la k'.slot) la k'.data true
      else fillHome (recallDie s die la) la k'.slot) = w) :
    exec .sliceRecall s
      = .next (dirEvent (dirSync (modLine (unused w la) la fun l => { l with copies := del l.copies die }) la) la) := by
  change execSliceRecall s = _
  unfold execSliceRecall
  subst hw hk'
  simp only [hdie, hla, hgrant, hasked, hready, hk]
  rfl

end GiveUp

theorem dropSliceLine_away {u : State} {die la : Nat} {k : DieCopy} (hhome : die ≠ homeDie (unused u la) la)
    (hk : find (lineSt (unused u la) la).copies die = some k) :
    let v := modLine (unused u la) la fun l => { l with copies := del l.copies die }
    dropSliceLine u die la = if k.st = .s then v else send v (.sliceWriteback die la k.data k.st) := by
  unfold dropSliceLine
  by_cases hst : k.st = .s <;> simp [hhome, hk, hst]

theorem exec_fillFromMemory_fill {la : Nat} (hla : s.subj.la = la) (hbusy : (lineSt s la).busy = .fill d) :
    exec .fillFromMemory s = .next (endBusy (fillHome s la s.subj.slot) la fun s => homeStart s d) := by
  change execFillFromMemory s = _
  unfold execFillFromMemory
  simp only [hla, hbusy]

theorem exec_fillFromMemory_idle {la : Nat} (hla : s.subj.la = la) (hbusy : (lineSt s la).busy = .idle) :
    exec .fillFromMemory s = .next (fillHome s la s.subj.slot) := by
  change execFillFromMemory s = _
  unfold execFillFromMemory
  simp only [hla, hbusy]

theorem exec_slicePrefetch_home {la x : Nat} (hla : s.subj.la = la) (hpf : (lineSt s la).pf = some (x, s.subj.slice, false))
    (hpoison : (lineSt s la).poison = false) {u : State}
    (hu : modLine s la (fun l => { l with pf := some (x, s.subj.slice, true) }) = u) (hready : lineReady s la = true)
    (hhome : s.subj.slice / 64 = homeDie u la) : exec .slicePrefetch s = .next (fillHome u la s.subj.slot) := by
  change execSlicePrefetch s = _
  unfold execSlicePrefetch
  simp [hla, hpf, hpoison, hready, hu, hhome]

theorem exec_directoryCensus_none {die la : Nat} (hdie : s.subj.die = die) (hla : s.subj.la = la) (hdir : dirAt s la = none) :
    exec .directoryCensus s = .next (send s (.censusReply s.subj.part la die false false)) := by
  change execDirectoryCensus s = _
  unfold execDirectoryCensus
  simp only [hdie, hla, hdir]

section Census

variable {x : Nat} {dies lo up lo' up' : List Nat} {low high : Bool} (hbusy : (lineSt s n).busy = .census d dies lo up)
  (hx : x ∈ dies) (hlo : (if low then lo ++ [x] else lo) = lo') (hup : (if high then up ++ [x] else up) = up')
include hbusy hx hlo hup

theorem exec_censusReply_more (hmore : dies.erase x ≠ []) : exec (.censusReply (partOfLine s n) n x low high) s
    = .next (setBusy s n (.census d (dies.erase x) lo' up')) := by
  change execCensusReply (partOfLine s n) n x low high s = _
  unfold execCensusReply
  simp [hbusy, hx, hlo, hup, hmore]

theorem exec_censusReply_last (hlast : dies.erase x = []) {e : DirEnt} (he : dirAt s n = some e) :
    exec (.censusReply (partOfLine s n) n x low high) s = .next (endBusy
      (post (let u := entryRoom s e.slice e.base
        { u with dir := (u.dir.filter fun x => !(x.slice = e.slice && x.base = e.base && x.span = e.span))
            ++ [halfEntry e false lo', halfEntry e true up'] }) 0x120 1 e.slice 0xFF (.ofNat 32 (e.span - 1))) n
      fun s => homeStart s d) := by
  change execCensusReply (partOfLine s n) n x low high s = _
  unfold execCensusReply
  simp [hbusy, hx, hlo, hup, hlast, he]

end Census

theorem exec_directoryMerge {la base sib : Nat} {e x : DirEnt} (hla : s.subj.la = la) (he : dirAt s la = some e)
    (hbase : e.base / 2 ^ (e.span + 1) * 2 ^ (e.span + 1) = base)
    (hsib : (if e.base = base then e.base + 2 ^ e.span else base) = sib)
    (hx : (s.dir.find? fun x => x.slice = e.slice && x.base = sib && x.span = e.span) = some x)
    (hpart : s.subj.part = partOfLine s la) (hspan : e.span < 9) (hevents : 65536 ≤ e.events + x.events)
    (howner : e.owner = x.owner) (hsharers : e.sharers = x.sharers) (hidle : spanIdle s e = true) (hidle' : spanIdle s x = true) :
    let m : DirEnt := { e with base := base, span := e.span + 1, events := 0, use := max e.use x.use }
    exec .directoryMerge s = .next (post { s with dir := (s.dir.filter fun y => y != e && y != x) ++ [m] }
      0x121 1 e.slice 0xFF (.ofNat 32 m.span)) := by
  change execDirectoryMerge s = _
  unfold execDirectoryMerge
  simp only [hla, he, hbase, hsib, hx]
  simp [hpart, hspan, hevents, ← howner, ← hsharers, hidle, hidle']

theorem exec_drainComplete_acquire {la v : Nat} {m : AcqMsg} (hla : s.subj.la = la) (hbusy : (lineSt s la).busy = .acquire d [] v)
    (hev : d.ev = .homeAcquire m) : exec .drainComplete s = .next (endBusy s la fun s => finishAcquire s m v) := by
  change execDrainComplete s = _
  unfold execDrainComplete
  simp only [hla, hbusy, hev]

theorem exec_drainComplete_release {la k : Nat} {m : RelMsg} (hla : s.subj.la = la) (hbusy : (lineSt s la).busy = .release d k)
    (hev : d.ev = .homeRelease m) : exec .drainComplete s = .next (endBusy (modLine s la fun l => { l with
      wv := max l.wv (coreOf s k).obsv, le := max l.le (max l.wv (coreOf s k).obsv), recs := l.recs.drop 1 }) la
        fun s => performRelease s m) := by
  change execDrainComplete s = _
  unfold execDrainComplete
  simp only [hla, hbusy, hev]

section Rebase

/-- The state that a rebase of a partition leaves once its cores have written back and dropped what they hold. -/
def settledForRebase (s : State) (p : Nat) : State := each (partOf s p).cores s fun s c => rebaseCasks (settleCore s c) c

theorem beyond_settledForRebase (s : State) (p : Nat) : Beyond s (settledForRebase s p) :=
  beyond_each _ _ _ fun s c => (beyond_settleCore s c).trans (beyond_modCore ..)

theorem partOfLine_beyond {t : State} (h : Beyond s t) (la : Nat) : partOfLine t la = partOfLine s la := by
  unfold partOfLine
  rw [h.1]

variable {p : Nat}

theorem exec_vintageRebase (hp : s.subj.part = p) (hdue : rebaseDue s p = true) (hquiet : partQuiet s p = true) :
    ∃ u, exec .vintageRebase s = .next u
      ∧ u.lines = (settledForRebase s p).lines.map (fun x => (x.1, rebaseLine (settledForRebase s p) p x.1 x.2))
      ∧ u.groups = (settledForRebase s p).groups.map (fun x => (x.1, rebaseGroup (settledForRebase s p) p x.2)) := by
  change ∃ u, execVintageRebase s = .next u ∧ _
  unfold execVintageRebase
  simp only [hp, hdue, hquiet]
  refine ⟨_, rfl, ?_, ?_⟩
  all_goals
    rw [modPart_frame]
    rfl

theorem rebaseGroup_rv {u : State} {g g' : Group} (hg : rebaseGroup u p g = g') (hpart : groupPart u g' = p) : g'.ctx.rv = 0 := by
  unfold rebaseGroup at hg
  split at hg
  · subst hg
    rfl
  · next hother =>
    subst hg
    exact absurd hpart hother

theorem rebaseLine_vintages {u : State} {la : Nat} (l : LineSt) (hpart : partOfLine u la = p) :
    (rebaseLine u p la l).wv = 0 ∧ (rebaseLine u p la l).le = 0 := by
  rw [rebaseLine, if_pos hpart]
  exact ⟨rfl, rfl⟩

theorem rebased_groups {u v : State} {h : Nat} {g : Group} (hgroups : u.groups = v.groups.map (fun x => (x.1, rebaseGroup v p x.2)))
    (hg : groupOf u h = some g) (hpart : groupPart v g = p) : g.ctx.rv = 0 := by
  unfold groupOf at hg
  rw [hgroups, find_map_value v.groups h fun _ => rebaseGroup v p] at hg
  obtain ⟨g₀, -, hg₀⟩ := Option.map_eq_some_iff.1 hg
  exact rebaseGroup_rv hg₀ hpart

theorem rebased_lines {u v : State} {la : Nat} (hlines : u.lines = v.lines.map (fun x => (x.1, rebaseLine v p x.1 x.2)))
    (hpart : partOfLine v la = p) : (lineSt u la).wv = 0 ∧ (lineSt u la).le = 0 := by
  unfold lineSt look
  rw [hlines, find_map_value v.lines la (rebaseLine v p)]
  cases find v.lines la with
  | none => exact ⟨rfl, rfl⟩
  | some l => exact rebaseLine_vintages l hpart

end Rebase

/-- Settles O55, event by event. -/
theorem homeEventsHappen : Obligations.HomeEventsHappen := by
  unfold Obligations.HomeEventsHappen
  intro s die la l drop
  refine ⟨fun _ _ => ⟨rfl, rfl, rfl⟩, fun m hold => ?release, fun m hold => ?atomic, fun m hflight => ?acquire,
    fun n d => arrive_ready, fun n d => arrive_waits, fun hgrant => ?forwards, fun n o data dirty => ?replies,
    fun hflight => ?noData, fun d acks => ?acks, fun x n data st => ?writebacks, fun hgrant hasked => ?gives, ?fills,
    fun x hpf hpoison => ?prefetch, fun hdir => ?census, fun n d x dies lo up low high hbusy hx => ?censusReply,
    fun e x he => ?merge, fun d m v => ?drainAcquire, fun d m k => ?drainRelease, fun hdue hquiet => ?rebase⟩
  case release => exact if_neg (by simp [hold])
  case atomic => exact if_neg (by simp [hold])
  case acquire => exact if_neg (by simp [hflight])
  case forwards =>
    exact ⟨exec_forward_none rfl rfl hgrant, fun k hk => ⟨exec_forwardShared_some rfl rfl hgrant hk,
      exec_forwardExclusive_some rfl rfl hgrant hk⟩, exec_invalidation rfl rfl hgrant⟩
  case replies => exact ⟨fun d => (exec_forwardReply rfl).1, fun d => (exec_forwardReply rfl).2⟩
  case noData =>
    exact ⟨fun d acks => exec_noDataReply_wb rfl rfl hflight, fun d => exec_noDataReply_fw rfl rfl hflight,
      fun d acks => exec_noDataReply_rx rfl rfl hflight⟩
  case acks =>
    exact ⟨fun x r => exec_invalidationAck_up rfl rfl, fun fwd => exec_invalidationAck_rx rfl rfl,
      fun o => exec_invalidationAck_wb rfl rfl⟩
  case writebacks =>
    exact ⟨fun d hbusy => exec_sliceWriteback_enters rfl (.inl ⟨hbusy, rfl⟩),
      fun d acks hbusy => exec_sliceWriteback_enters rfl (.inr hbusy), exec_sliceWriteback_idle rfl⟩
  case gives =>
    exact ⟨exec_sliceEviction_home rfl rfl hgrant hasked,
      fun hhome k hk => exec_sliceEviction_away rfl rfl hgrant hasked hk hhome,
      fun u hhome k hk => dropSliceLine_away hhome hk,
      fun hready k hk => exec_sliceRecall rfl rfl hgrant hasked hk hready rfl rfl⟩
  case fills => exact ⟨fun d => exec_fillFromMemory_fill rfl, exec_fillFromMemory_idle rfl⟩
  case prefetch => exact exec_slicePrefetch_home rfl hpf hpoison rfl
  case census => exact exec_directoryCensus_none rfl rfl hdir
  case censusReply =>
    exact ⟨exec_censusReply_more hbusy hx rfl rfl, fun hlast e he => exec_censusReply_last hbusy hx rfl rfl hlast he⟩
  case merge => exact exec_directoryMerge rfl he rfl rfl
  case drainAcquire => exact exec_drainComplete_acquire rfl
  case drainRelease => exact exec_drainComplete_release rfl
  case rebase =>
    obtain ⟨u, hexec, hlines, hgroups⟩ := exec_vintageRebase rfl hdue hquiet
    have hbeyond := beyond_settledForRebase s s.subj.part
    exact ⟨u, hexec, fun h g hg hpart => rebased_groups hgroups hg ((hbeyond.groupPart g).trans hpart),
      fun n hpart => rebased_lines hlines ((partOfLine_beyond hbeyond n).trans hpart)⟩

end Sys2Proof.Machine
end

section
/-! The dispatcher's events: queues and launch records, placement and completion, tokens, cores that leave and near SRAM that is
split anew, waits that end, saves and kills (10 R257 to R260, 19 R330 to R342, R346, 02 R44, R46, 20 R350, R362). -/

namespace Sys2Proof.Machine

variable {s : State}

section Queues

variable {vf q : Nat}

/-- What makes a queue's descriptor legal (19 R330). -/
def DescLegal (desc : List Byte) : Prop :=
  let log := field desc 8 1
  field desc 0 8 % 256 = 0 ∧ 4 ≤ log ∧ log ≤ 16 ∧ field desc 9 1 < 64 ∧ field desc 10 1 < 128 ∧ field desc 11 5 = 0
    ∧ field desc 16 8 % 8 = 0 ∧ field desc 24 40 = 0

theorem exec_createQueue_legal {desc : List Byte} (hlen : desc.length = 64) (hvf : vf < 128) (hq : q < 16) (h : DescLegal desc) :
    let x := look s.vfs vf {}
    let v : Queue := { base := field desc 0 8, log := field desc 8 1, part := field desc 9 1, tenant := field desc 10 1
                       report := field desc 16 8 }
    exec (.createQueue vf q desc) s = .next { s with vfs := put s.vfs vf { x with queues := put x.queues q v } } := by
  obtain ⟨hbase, hlow, hhigh, hpart, htenant, hzero, hreport, hzero'⟩ := h
  change execCreateQueue vf q desc s = _
  unfold execCreateQueue
  simp [hlen, hvf, hq, hbase, hlow, hhigh, hpart, htenant, hzero, hreport, hzero']

theorem exec_createQueue_illegal {desc : List Byte} (h : ¬DescLegal desc) : exec (.createQueue vf q desc) s = .next s := by
  change execCreateQueue vf q desc s = _
  unfold execCreateQueue
  refine if_pos (Bool.not_eq_true' _ ▸ Bool.eq_false_iff.2 fun hok => h ?_)
  simp only [Bool.and_eq_true, decide_eq_true_eq] at hok
  obtain ⟨⟨⟨⟨⟨⟨⟨⟨⟨⟨-, -⟩, -⟩, hbase⟩, hlow⟩, hhigh⟩, hpart⟩, htenant⟩, hzero⟩, hreport⟩, hzero'⟩ := hok
  exact ⟨hbase, hlow, hhigh, hpart, htenant, hzero, hreport, hzero'⟩

theorem queueOf_modQueue {v : Queue} (hv : queueOf s vf q = some v) (f : Queue → Queue) :
    queueOf (modQueue s vf q f) vf q = some (f v) := by
  unfold modQueue
  rw [hv]
  simp only [queueOf, look_put_self, find_put_self]

theorem queueOf_send (ev : Instr) (x : Subj) : queueOf (send s ev x) vf q = queueOf s vf q := by
  unfold queueOf
  rw [send_keeps_vfs]

variable {tail : Word} {t : Nat} (hstage : s.boot.stage = 5) (ht : tail.toNat % 2 ^ 32 = t)
include hstage

theorem exec_queueDoorbell_none (hv : queueOf s vf q = none) : exec (.queueDoorbell vf q tail) s = .next s := by
  change execQueueDoorbell vf q tail s = _
  unfold execQueueDoorbell
  simp [hstage, hv]

variable {v : Queue} (hv : queueOf s vf q = some v)
include hv ht

theorem exec_queueDoorbell_overrun (hfar : 2 ^ v.log < (t + 2 ^ 32 - v.head) % 2 ^ 32) : exec (.queueDoorbell vf q tail) s
    = .next (writeReport (modQueue s vf q fun v => { v with overrun := true }) vf q) := by
  change execQueueDoorbell vf q tail s = _
  unfold execQueueDoorbell
  simp only [hstage, hv, ht, if_pos hfar]
  rfl

theorem exec_queueDoorbell_takes (hnear : (t + 2 ^ 32 - v.head) % 2 ^ 32 ≤ 2 ^ v.log) : exec (.queueDoorbell vf q tail) s
    = .next (send (modQueue s vf q fun v => { v with tail := t }) .launchRecordTake { vf := vf, q := q }) := by
  change execQueueDoorbell vf q tail s = _
  unfold execQueueDoorbell
  simp only [hstage, hv, ht, if_neg (Nat.not_lt.2 hnear)]
  rfl

end Queues

section Records

/-- A record of queue `q` is taken: the queue's head moves on, and the turn passes to the next queue. -/
def recordTaken (vf q : Nat) (v : Queue) (u : State) : State :=
  let a := writeReport (modPart (modQueue u vf q fun v => { v with head := (v.head + 1) % 2 ^ 32 }) v.part fun p =>
    { p with turn := 16 * vf + q + 1 }) vf q
  send a .launchRecordTake (match turnQueue a v.part with
    | some (a, b) => { vf := a, q := b }
    | none => { vf := vf, q := q })

theorem recordTaken_launches (vf q : Nat) (v : Queue) (u : State) : (recordTaken vf q v u).launches = u.launches := by
  unfold recordTaken
  rw [send_launches, (beyond_writeReport ..).launches, modPart_launches, modQueue_launches]

theorem recordTaken_accepted (vf q : Nat) (v : Queue) (u : State) : (recordTaken vf q v u).accepted = u.accepted := by
  unfold recordTaken
  rw [send_accepted, (beyond_writeReport ..).accepted, modPart_accepted, modQueue_accepted]

/-- Dropping the constants of a partition changes its cores alone. -/
theorem dropConstants_cores (s : State) (p : Nat) : dropConstants s p = { s with cores := (dropConstants s p).cores } := by
  unfold dropConstants
  generalize (partOf s p).cores = l
  induction l generalizing s with
  | nil => rfl
  | cons c l ih => exact ih (modCore s c _)

variable {v : Queue} {l : List Span} {bs : List Byte} {u : State} {slot : Nat}
  (hv : queueOf s s.subj.vf s.subj.q = some v) (hpart : (find s.parts v.part).isSome = true)
  (hl : cpSpans s s.subj.vf v.part (v.base + 256 * (v.head % 2 ^ v.log)) 256 .read = some l)
  (hturn : turnQueue s v.part = some (s.subj.vf, s.subj.q)) (hready : spansReady s l = true) (hread : spansRead s l = (bs, u))
  (hslot : freeSlot s v.part = some slot)
include hv hpart hl hturn hready hread hslot

theorem exec_launchRecordTake_rejects {off : Nat} (hbad : least (recBad bs) = some off) :
    ∃ t, exec .launchRecordTake s = .next t ∧ t.launches = u.launches := by
  obtain ⟨w, hw⟩ := Option.isSome_iff_exists.1 hpart
  have hexec : exec .launchRecordTake s = .next (recordTaken s.subj.vf s.subj.q v
      (if (recBad bs).contains 16 || (parseRec bs).compl = 0 then
        modQueue u s.subj.vf s.subj.q fun v => { v with rejects := (v.rejects + 1) % 2 ^ 16 }
      else writeCompletion u s.subj.vf s.subj.q v.part (parseRec bs).compl (rejectBytes off))) := by
    change execLaunchRecordTake s = _
    unfold execLaunchRecordTake
    simp only [hv, hslot, hw, hl, hturn, hready, hread, hbad, bne_self_eq_false, Bool.not_true, Bool.or_self]
    by_cases hgone : ((recBad bs).contains 16 || decide ((parseRec bs).compl = 0)) = true
    · rw [if_pos hgone, if_pos hgone]
      rfl
    · rw [if_neg hgone, if_neg hgone]
      rfl
  refine ⟨_, hexec, ?_⟩
  rw [recordTaken_launches]
  split_ifs
  · exact modQueue_launches ..
  · exact writeCompletion_launches ..

theorem exec_launchRecordTake_accepts (hgood : recBad bs = []) : ∃ t, exec .launchRecordTake s = .next t
    ∧ t.launches = put u.launches u.nextId { part := v.part, slot := slot, vf := s.subj.vf, q := s.subj.q, tenant := v.tenant
                                             rc := parseRec bs, accepted := u.accepted }
    ∧ t.accepted = u.accepted + 1 := by
  obtain ⟨w, hw⟩ := Option.isSome_iff_exists.1 hpart
  have hdrop := dropConstants_cores u v.part
  refine ⟨send (recordTaken s.subj.vf s.subj.q v { (newId (dropConstants u v.part)).2 with
    launches := put u.launches u.nextId { part := v.part, slot := slot, vf := s.subj.vf, q := s.subj.q, tenant := v.tenant
                                          rc := parseRec bs, accepted := u.accepted }
    accepted := u.accepted + 1 }) .teamPlacement { part := v.part }, ?_, ?_, ?_⟩
  · change execLaunchRecordTake s = _
    unfold execLaunchRecordTake
    simp only [hv, hslot, hw, hl, hturn, hready, hread, hgood, bne_self_eq_false, Bool.not_true, Bool.or_self]
    rw [hdrop]
    rfl
  · rw [send_launches, recordTaken_launches]
  · rw [send_accepted, recordTaken_accepted]

end Records

section Placement

variable {p : Nat}

theorem exec_teamPlacement (hp : s.subj.part = p) {u : State} (hu : dispatch (noteFirst s p (order s p)) p = some u) :
    exec .teamPlacement s
      = .next (send (noteFirst (moveSplits u p) p (order (moveSplits u p) p)) .teamPlacement { part := p }) := by
  change execTeamPlacement s = _
  unfold execTeamPlacement
  simp only [hp, hu]

variable {i : Item} {l : List Item} (horder : order s p = i :: l)
include horder

theorem dispatch_places {u : State} (hplace : placeItem s p i = some u) : dispatch s p = some u := by
  unfold dispatch
  simp only [horder, hplace]

variable (hplace : placeItem s p i = none)
include hplace

theorem dispatch_designates {u : State} (hdes : designate s p i = some u) : dispatch s p = some u := by
  unfold dispatch
  simp only [horder, hplace, hdes]

theorem dispatch_others (hdes : designate s p i = none) :
    dispatch s p = if held s p then none else l.findSome? fun j => placeItem s p j := by
  unfold dispatch
  simp only [horder, hplace, hdes, placeFirst, List.findSome?_cons]

end Placement

theorem exec_placementHoldExpiry {p : Nat} (hp : s.subj.part = p) (hfirst : (partOf s p).firstTeam.isSome = true)
    (hhold : (partOf s p).hold = false) (hlong : 2 ^ 20 ≤ s.sched - (partOf s p).firstSince) :
    exec .placementHoldExpiry s = .next (modPart s p fun v => { v with hold := true }) := by
  change execPlacementHoldExpiry s = _
  unfold execPlacementHoldExpiry
  simp only [hp, hfirst, hhold, hlong]
  rfl

section Completion

variable {id : Nat} {l : Launch} (hid : s.subj.launch = id) (hl : find s.launches id = some l)
include hid hl

theorem exec_cooperativeCancel (hhead : (order s l.part).head? = some (.coop id)) (hnext : l.next = 0)
    (hfew : (partOf s l.part).cores.length < l.rc.coop) : exec .cooperativeCancel s
      = .next (send (modLaunch s id fun l => { l with cancelled := true }) .launchCompletion { launch := id }) := by
  change execCooperativeCancel s = _
  unfold execCooperativeCancel
  simp [hid, hl, hhead, hnext, hfew]

theorem exec_launchCompletion (hdone : l.done = false) (hover : l.cancelled = true ∨ launchOver s id l = true)
    (hclean : ∀ j ∈ (partOf s l.part).cores.filter l.ran.contains, canClean s j = true) {b e : State}
    (hb : modLaunch (writeCompletion (dropConstants (cleanCores s ((partOf s l.part).cores.filter l.ran.contains)) l.part)
      l.vf l.q l.part l.rc.compl (completionBytes (dropConstants (cleanCores s ((partOf s l.part).cores.filter l.ran.contains))
        l.part) id l)) id (fun l => { l with done := true }) = b)
    (he : resumeResize (match turnQueue b l.part with
      | some (vf, q) => send b .launchRecordTake { vf := vf, q := q }
      | none => b) l.part = e) :
    exec .launchCompletion s = .next (send (each (partOf e l.part).removing e fun s c =>
      send s .coreLeave { part := l.part, core := c }) .teamPlacement { part := l.part }) := by
  subst hb he
  have hgo : (l.done || !(l.cancelled || launchOver s id l)
      || !((partOf s l.part).cores.filter l.ran.contains).all (canClean s)) = false := by
    rw [hdone, (Bool.or_eq_true ..).mpr hover, List.all_eq_true.2 hclean]
    rfl
  change execLaunchCompletion s = _
  unfold execLaunchCompletion
  simp only [hid, hl, hgo]
  rfl

end Completion

theorem exec_granuleRelease {t : Nat} {tm : Team} (ht : s.subj.team = t) (htm : teamOf s t = tm)
    (hst : tm.st = .retired ∨ tm.st = .killed ∨ tm.st = .waiting) (hholds : tm.granules ≠ [] ∨ tm.tas = true)
    (hcmds : ∀ x ∈ s.cmds, x.2.team = t → usesTeam x.2 = false) :
    exec .granuleRelease s = .next (moveSplits (send (send
      (modTeam (freeTeam s t) t fun tm => { tm with granules := [], tas := false, scratch := [], absent := [] })
      .launchCompletion { launch := tm.launch }) .teamPlacement { part := (launchOf s tm.launch).part })
        (launchOf s tm.launch).part) := by
  have hfree : (tm.granules.isEmpty && !tm.tas) = false := by
    rcases hholds with h | h <;> simp [h]
  have hidle : (s.cmds.any fun c => decide (c.2.team = t) && usesTeam c.2) = false :=
    List.any_eq_false.2 fun x hx => by simpa using hcmds x hx
  change execGranuleRelease s = _
  unfold execGranuleRelease
  rcases hst with h | h | h <;>
  · simp only [ht, htm, h, hfree, hidle]
    rfl

section Tokens

theorem exec_tokenPeriodStart {p : Nat} {v : Partition} (hp : s.subj.part = p) (hv : find s.parts p = some v)
    (hperiod : v.period ≤ s.sched / 2 ^ 20) : exec .tokenPeriodStart s = .next (startPeriod s p) := by
  change execTokenPeriodStart s = _
  unfold execTokenPeriodStart
  simp only [hp, hv, if_pos hperiod]

theorem exec_tokenGrantDraw {c t : Nat} (hc : s.subj.core = c) (ht : s.subj.tenant = t) (hnone : look (coreOf s c).tokens t 0 = 0)
    (hdrawn : look (coreOf (drawGrant s c t) c).tokens t 0 ≠ 0) : exec .tokenGrantDraw s = .next (drawGrant s c t) := by
  change execTokenGrantDraw s = _
  unfold execTokenGrantDraw
  simp [hc, ht, hnone, hdrawn]

theorem exec_tenantIdle {p t : Nat} {x : Tenant} (hp : s.subj.part = p) (ht : s.subj.tenant = t)
    (hx : look (partOf s p).tenants t {} = x) (hidle : 2 ^ 14 ≤ x.idle) (hbalance : x.balance ≠ 0) :
    ∃ u, exec .tenantIdle s = .next u ∧ u = { s with due := u.due } := by
  change ∃ u, execTenantIdle s = .next u ∧ _
  unfold execTenantIdle
  simp only [hp, ht, hx, Nat.not_lt.2 hidle, hbalance]
  exact ⟨_, rfl, each_due _ _ _ fun _ _ => send_due ..⟩

end Tokens

section Cores

variable {c : Nat} {k : Core} (hc : s.subj.core = c)
include hc

theorem exec_coreLeave {p : Nat} {v : Partition} (hp : s.subj.part = p) (hv : partOf s p = v) (hremoved : c ∈ v.removing)
    (hseats : seats s c = []) (hfree : ∀ t ∈ s.teams, ∀ g ∈ t.2.granules, g.1 ≠ c) (hdrain : canDrain s c = true)
    (hroom : (look v.ov (dieOf c) []).length + ((coreOf s c).casks.map fun k => k.2.recs).flatten.length ≤ 2 ^ v.ovLog) :
    ∃ u, exec .coreLeave s = .next (endResize (modPart u p fun v => { v with
        cores := v.cores.filter (· != c), removing := v.removing.filter (· != c)
        designated := match v.designated with
          | some (d, l, n) => if d = c then none else some (d, l, n)
          | none => none }) p)
      ∧ coreOf u c = { coreOf u c with near := [], tlb := [], casks := [], tokens := [], target := 0, blocks := [] } := by
  have hteams : (s.teams.any fun t => t.2.granules.any fun g => decide (g.1 = c)) = false := by
    refine List.any_eq_false.2 fun t ht => ?_
    rw [Bool.not_eq_true, List.any_eq_false]
    exact fun g hg => by simpa using hfree t ht g hg
  change ∃ u, execCoreLeave s = .next (endResize (modPart u p _) p) ∧ _
  unfold execCoreLeave
  simp only [hp, hc, hv, hseats, hteams, hdrain, List.contains_iff_mem.2 hremoved, decide_eq_false (Nat.not_lt.2 hroom)]
  exact ⟨_, rfl, by rw [coreOf_modCore, if_pos rfl]⟩

variable (hk : coreOf s c = k)
include hk

theorem exec_splitScratchToCache (hmoving : k.moving = none) (hmore : k.target < k.blocks.length) {b : Nat}
    (hb : ((List.range 12).filter k.blocks.contains).find? (fun b => !k.granules.any fun g => g.1 / 32 = b) = some b) :
    ∃ u, exec .splitScratchToCache s = .next u ∧ coreOf u c = { k with blocks := k.blocks.erase b } := by
  change ∃ u, execSplitScratchToCache s = .next u ∧ _
  unfold execSplitScratchToCache
  simp only [hc, hk, hmoving, hb, Option.isSome_none, Bool.false_or, decide_eq_false (Nat.not_le.2 hmore)]
  exact ⟨_, rfl, by rw [coreOf_send, coreOf_modCore, if_pos rfl, hk, hmoving]⟩

theorem exec_splitCacheToScratch_begins (hmoving : k.moving = none) (hfew : k.blocks.length < k.target) {b : Nat}
    (hb : (List.range 12).reverse.find? (fun b => !k.blocks.contains b) = some b) :
    exec .splitCacheToScratch s = .next (send (emptyBlock (modCore s c fun k => { k with moving := some b }) c b)
      .splitCacheToScratch { core := c }) := by
  change execSplitCacheToScratch s = _
  unfold execSplitCacheToScratch
  simp only [hc, hk, hmoving, hb, if_neg (Nat.not_le.2 hfew)]

theorem exec_splitCacheToScratch_ends {b : Nat} (hmoving : k.moving = some b) (hquiet : coreQuiet s c = true) :
    ∃ u, exec .splitCacheToScratch s = .next u ∧ coreOf u c = { k with moving := none, blocks := k.blocks ++ [b] } := by
  change ∃ u, execSplitCacheToScratch s = .next u ∧ _
  unfold execSplitCacheToScratch
  simp only [hc, hk, hmoving, hquiet]
  exact ⟨_, rfl, by rw [coreOf_send, coreOf_send, coreOf_modCore, if_pos rfl, hk]⟩

end Cores

section Waits

variable {g : Group}

theorem exec_yieldExpiry {n m : Nat} (hg : groupOf s s.subj.g = some g) (hrun : g.run = .parked (.yielding n m))
    (hwakes : wakes s g (.yielding n m) = true) : exec .yieldExpiry s = .next (unpark s s.subj.g) := by
  change execYieldExpiry s = _
  unfold execYieldExpiry wakeEvent
  simp [hg, hrun, hwakes]

theorem exec_parkedScratchAccess {lines : List Nat} (hg : groupOf s s.subj.g = some g) (hrun : g.run = .parked (.scratch lines))
    (hwakes : wakes s g (.scratch lines) = true) : exec .parkedScratchAccess s = .next (unpark s s.subj.g) := by
  change execParkedScratchAccess s = _
  unfold execParkedScratchAccess wakeEvent
  simp [hg, hrun, hwakes]

theorem ownShare_beyond {t : State} (h : Beyond s t) (g : Group) (run : Run) : ownShare t { g with run := run } = ownShare s g := by
  unfold ownShare regMin
  rw [h.groupLaunch]
  rfl

/-- The state in which the first of a core's queue is granted registers: it has left the queue, and the next one is asked. -/
def grantNext (s : State) (c : Nat) (rest : List Nat) : State :=
  let u := modCore s c fun k => { k with regQueue := rest }
  if rest.isEmpty then u else send u .registerGrant { core := c }

theorem beyond_grantNext (s : State) (c : Nat) (rest : List Nat) : Beyond s (grantNext s c rest) := by
  unfold grantNext
  dsimp only
  split
  · exact beyond_modCore ..
  · exact (beyond_modCore ..).trans (beyond_send ..)

theorem grantNext_queue (s : State) (c : Nat) (rest : List Nat) : (coreOf (grantNext s c rest) c).regQueue = rest := by
  unfold grantNext
  dsimp only
  split
  · rw [coreOf_modCore, if_pos rfl]
  · rw [coreOf_send, coreOf_modCore, if_pos rfl]

theorem exec_registerGrant {c h n : Nat} {rest : List Nat} (hc : s.subj.core = c) (hqueue : (coreOf s c).regQueue = h :: rest)
    (hg : groupOf s h = some g) (hrun : g.run = .parked (.regs n)) (hrows : rowsServe s h g n = true) :
    ∃ u m, exec .registerGrant s = .next u ∧ (coreOf u c).regQueue = rest
      ∧ groupOf u h = some { g with run := .ready, grant := m } ∧ m = n - ownShare s g := by
  have hbeyond := beyond_grantNext s c rest
  have hunpark : groupOf (unpark (grantNext s c rest) h) h = some { g with run := .ready } := by
    rw [unpark, modGroup_group, if_pos rfl, hbeyond.group, hg, Option.map_some, hrun]
  have hshare : ownShare (grantNext s c rest) { g with run := .ready } = ownShare s g :=
    ownShare_beyond hbeyond g .ready
  have hexec : exec .registerGrant s = .next (modGroup (unpark (grantNext s c rest) h) h fun g =>
      { g with grant := n - ownShare (grantNext s c rest) g }) := by
    change execRegisterGrant s = _
    unfold execRegisterGrant
    simp only [hc, hqueue, hg, hrun, hrows]
    rfl
  refine ⟨_, _, hexec, ?_, ?_, rfl⟩
  · unfold coreOf
    rw [modGroup_keeps_cores, unpark, modGroup_keeps_cores]
    exact grantNext_queue s c rest
  · rw [modGroup_group, if_pos rfl, hunpark, Option.map_some, hshare]

theorem exec_registerParkEviction {c h t : Nat} (hc : s.subj.core = c) (hdue : evictionDue s c = some (h, t)) :
    exec .registerParkEviction s
      = .next (beginSave (modGroup s h fun g => { g with parkedAt := g.parkedAt + 65536 }) t true) := by
  change execRegisterParkEviction s = _
  unfold execRegisterParkEviction
  simp only [hc, hdue]

end Waits

theorem exec_teamSave {t : Nat} {evict : Bool} {tm : Team} {hs : List Nat} {u : State} {part : Nat} (htm : teamOf s t = tm)
    (hhs : saveGroups s t = hs) (hu : each hs s (fun s h => settleRegion s h evict) = u)
    (hpart : (launchOf s tm.launch).part = part)
    (hsaving : tm.saving = some evict) (hst : tm.st = .resident) (hquiet : ∀ h ∈ hs, groupQuiet s h = true)
    (hcmds : cmdsQuiet s t = true) (hsome : hs ≠ [])
    (hroom : poolUsed s part + (teamBytes u t + (hs.map (groupBytesNow u)).sum)
      + (if s.mgmt.list.contains t then 0 else poolKept s part) ≤ (partOf s part).poolLen)
    (hdrain : ∀ j ∈ (teamCores tm ++ hs.filterMap fun h => (groupOf s h).map (·.core)).eraseDups, canDrain u j = true) :
    exec (.teamSave t evict) s = .next (if evict then
        post (putTeam u t) 0x107 0 tm.core (launchOf (putTeam u t) tm.launch).vf (.ofNat 32 tm.num)
      else putTeam u t) := by
  change execTeamSave t evict s = _
  unfold execTeamSave
  simp only [htm, hhs, hu, hpart, hsaving, hst, hcmds, List.all_eq_true.2 hquiet, List.all_eq_true.2 hdrain,
    if_neg (Nat.not_lt.2 hroom), List.isEmpty_eq_false_iff.2 hsome, bne_self_eq_false]
  rfl

theorem exec_teamKill {t : Nat} {why : KillWhy} (hfault : tileFault s = some (t, why)) (hlives : teamLives (teamOf s t) = true) :
    exec (.teamKill t why) s = .next (killTeam s t why 0) := by
  change execTeamKill t why s = _
  unfold execTeamKill
  simp [hfault, hlives]

/-- Settles O56, event by event. -/
theorem launchEventsHappen : Obligations.LaunchEventsHappen := by
  unfold Obligations.LaunchEventsHappen
  intro s c p k
  refine ⟨fun vf q desc hlen hvf hq => ?create, fun hstage vf q tail => ?doorbell,
    fun v l bs u hv hpart hl hturn hready hread slot hslot => ?record, fun u => exec_teamPlacement rfl,
    fun a i l horder => ?order,
    exec_placementHoldExpiry rfl, fun l hl => ?completion, exec_granuleRelease rfl rfl, fun v => exec_tokenPeriodStart rfl,
    exec_tokenGrantDraw rfl rfl, exec_tenantIdle rfl rfl rfl, exec_coreLeave rfl rfl rfl,
    fun hmoving hmore b => exec_splitScratchToCache rfl rfl hmoving hmore,
    fun hmoving hfew b => exec_splitCacheToScratch_begins rfl rfl hmoving hfew,
    fun b => exec_splitCacheToScratch_ends rfl rfl, fun g hg => ?waits, fun h rest g n => exec_registerGrant rfl,
    fun h t => exec_registerParkEviction rfl, fun t evict => exec_teamSave rfl rfl rfl rfl, fun t why => exec_teamKill⟩
  case create => exact ⟨exec_createQueue_legal hlen hvf hq, exec_createQueue_illegal⟩
  case doorbell =>
    exact ⟨exec_queueDoorbell_none hstage, fun v hv => ⟨exec_queueDoorbell_overrun hstage rfl hv, fun hnear =>
      ⟨_, exec_queueDoorbell_takes hstage rfl hv hnear, (queueOf_send ..).trans (queueOf_modQueue hv _)⟩⟩⟩
  case record =>
    exact ⟨fun off => exec_launchRecordTake_rejects hv hpart hl hturn hready hread hslot,
      exec_launchRecordTake_accepts hv hpart hl hturn hready hread hslot⟩
  case order =>
    exact ⟨fun u => dispatch_places horder, fun hplace u => dispatch_designates horder hplace, dispatch_others horder⟩
  case completion =>
    exact ⟨exec_cooperativeCancel rfl hl, fun hdone hover hclean => exec_launchCompletion rfl hl hdone hover hclean rfl rfl⟩
  case waits =>
    exact ⟨fun n m => exec_yieldExpiry hg, fun lines => exec_parkedScratchAccess hg⟩

end Sys2Proof.Machine
end

section
/-! The events of tasks: casks launch, age and are stolen from, records leave the overflow area (13 R304 to R308), and groups
that wait, or that helped, go on (09 R234, R235). -/

namespace Sys2Proof.Machine

variable {s : State}

section Casks

variable {c i : Nat} {v : Cask}

/-- What makes a cask's launch due, whatever boosts there are (13 R305): a group's worth of records, their age, or a theft. -/
def DueUnboosted (s : State) (k : Core) (v : Cask) : Prop :=
  (launchOf s v.launch).rc.w ≤ v.recs.length ∨ (launchOf s v.launch).rc.age ≤ caskAge k v ∨ 0 < v.stolen

/-- Whether a boost names the task of one of a cask's records (13 R310). -/
def BoostedCask (s : State) (v : Cask) : Prop :=
  ∃ r ∈ v.recs, ∃ b ∈ s.boosts, b.part = (launchOf s v.launch).part ∧ b.task = r.task

theorem caskDue_iff {k : Core} : caskDue s k v = true ↔ DueUnboosted s k v ∨ BoostedCask s v := by
  simp [caskDue, boosted, DueUnboosted, BoostedCask, or_assoc]

/-- Only a cask that its boost alone makes due waits for another (13 R310). -/
theorem boostWaits_of_dueUnboosted {k : Core} (h : DueUnboosted s k v) : boostWaits s k v = false := by
  have hdue : (decide ((launchOf s v.launch).rc.w ≤ v.recs.length) || decide ((launchOf s v.launch).rc.age ≤ caskAge k v)
      || decide (0 < v.stolen)) = true := by
    simpa [DueUnboosted, or_assoc] using h
  exact if_pos hdue

variable (hc : s.subj.core = c) (hi : s.subj.cask = i) (hv : find (coreOf s c).casks i = some v)
include hc hi hv

theorem exec_caskLaunch {x : Nat} (hdue : DueUnboosted s (coreOf s c) v ∨ BoostedCask s v ∧ boostWaits s (coreOf s c) v = false)
    (hopen : coreShut s (launchOf s v.launch).part c = false) (hfits : groupFits s c (launchOf s v.launch).rc = some x) :
    exec .caskLaunch s = .next (formRecords (caskLeave s c i v (v.recs.drop (launchOf s v.launch).rc.w)) c x v.launch
      (v.recs.take (launchOf s v.launch).rc.w) none 0).2 := by
  have hnow : caskDue s (coreOf s c) v = true := caskDue_iff.2 (hdue.imp_right And.left)
  have hfirst : boostWaits s (coreOf s c) v = false := hdue.elim boostWaits_of_dueUnboosted And.right
  change execCaskLaunch s = _
  unfold execCaskLaunch launchCask
  simp [hc, hi, hv, hnow, hfirst, hopen, hfits]

theorem exec_caskAgeExpiry (hage : (launchOf s v.launch).rc.age ≤ (coreOf s c).cycles - v.since) :
    exec .caskAgeExpiry s = .next (send s .caskLaunch { core := c, cask := i }) := by
  change execCaskAgeExpiry s = _
  unfold execCaskAgeExpiry
  simp only [hc, hi, hv, caskAge, if_pos hage]

end Casks

theorem exec_overflowMove {p d k j : Nat} {r : SpawnRec} {v : Cask} (hp : s.subj.part = p) (hd : s.subj.die = d)
    (hmove : ringMove s p d = some (r, k, j, v)) : exec .overflowMove s = .next (caskPut
      (modPart s p fun x => { x with ov := put x.ov d ((look x.ov d []).filter fun y => y != r) }) k j v [r]) := by
  change execOverflowMove s = _
  unfold execOverflowMove
  simp only [hp, hd, hmove]

theorem stealsNow_of_idle {c : Nat} (hidle : 256 ≤ (coreOf s c).idle) (hempty : (coreOf s c).casks = [])
    (hfree : coreBusy s c = false) : stealsNow s c = true := by
  simp [stealsNow, hidle, hempty, hfree]

theorem exec_idleSteal {c k j : Nat} {v : Cask} (hc : s.subj.core = c) (hsteals : stealsNow s c = true)
    (hfull : mostFull s (partOfCore s c) (dieOf c) = some (k, j, v)) :
    exec .idleSteal s = .next (send (caskPut (caskLeave s k j v (v.recs.drop (ceilDiv v.recs.length 2))) c 0
      { launch := v.launch, entry := v.entry, since := (coreOf s c).cycles, stolen := ceilDiv v.recs.length 2 }
      (v.recs.take (ceilDiv v.recs.length 2))) .caskLaunch { core := c, cask := 0 }) := by
  change execIdleSteal s = _
  unfold execIdleSteal
  simp [hc, hsteals, hfull]

theorem exec_adoptionReturn {g : Group} (hg : groupOf s s.subj.g = some g) (hhelps : g.outer.isSome = true)
    (hgone : g.run = .retired ∨ ∃ k, g.run = .out k) :
    exec .adoptionReturn s = .next (returnHelper (setGroup s s.subj.g { g with outer := none, depth := 0 }) g) := by
  change execAdoptionReturn s = _
  unfold execAdoptionReturn
  rcases hgone with hrun | ⟨k, hrun⟩ <;> simp [hg, hhelps, hrun]

/-- The groups that named the future word at `pa` as their wake future (09 R236). -/
def wakeNamed (s : State) (pa : Nat) : List (Nat × Group) := s.groups.filter fun g => g.2.run == .out (some pa)

/-- The groups parked on the word at `pa` have been let go on, and the boosts asked for under its old value are gone. -/
def wokenAt (s : State) (pa : Nat) : State :=
  let u := each (wakers s pa) s unpark
  { u with boosts := u.boosts.filter fun b => b.pa != pa || futWord u pa = b.word }

theorem exec_futureWake {pa : Nat} (hpa : s.subj.pa = pa) (hsome : wakers s pa ≠ [] ∨ wakeNamed s pa ≠ []) :
    exec .futureWake s = .next (each (wakeNamed s pa) (wokenAt s pa) fun v g =>
      send v .teamPlacement { part := groupPart v g.2 }) := by
  have hgo : ((wakers s pa).isEmpty && (wakeNamed s pa).isEmpty) = false := by
    rcases hsome with h | h <;> simp [h]
  subst hpa
  exact if_neg (Bool.not_eq_true _ ▸ hgo)

theorem wakeEvent_wakes {g : Group} {w : Why} {name : String} {why : Why → Bool} (hg : groupOf s s.subj.g = some g)
    (hrun : g.run = .parked w) (hkind : why w = true) (hwakes : wakes s g w = true) :
    wakeEvent s name why = .next (unpark s s.subj.g) := by
  unfold wakeEvent
  simp [hg, hrun, hkind, hwakes]

theorem exec_spawnOverflowRetry {g : Group} {e : Word} (hg : groupOf s s.subj.g = some g) (hrun : g.run = .parked (.spawnRoom e))
    (hwakes : wakes s g (.spawnRoom e) = true) : exec .spawnOverflowRetry s = .next (unpark s s.subj.g) :=
  wakeEvent_wakes hg hrun rfl hwakes

/-- Settles O51, event by event. -/
theorem taskEventsHappen : Obligations.TaskEventsHappen := by
  unfold Obligations.TaskEventsHappen
  intro s c i p d
  refine ⟨fun v x hv hdue => exec_caskLaunch rfl rfl hv ?due, fun v => exec_caskAgeExpiry rfl rfl,
    fun r k j v => exec_overflowMove rfl rfl,
    fun hidle hempty hfree k j v => exec_idleSteal rfl (stealsNow_of_idle hidle hempty hfree),
    fun g => exec_adoptionReturn, exec_futureWake rfl, fun g e => exec_spawnOverflowRetry⟩
  case due =>
    rcases hdue with hmany | hold | hstolen | hboost
    · exact .inl (.inl hmany)
    · exact .inl (.inr (.inl hold))
    · exact .inl (.inr (.inr hstolen))
    · exact .inr hboost

end Sys2Proof.Machine
end

section
/-! Translations: a walk that completes, and the end of an invalidation (20 R364 to R367). -/

namespace Sys2Proof.Machine

variable {s : State}

section Walk

variable {v : Vf} {vf root : Nat} (hv : s.vfs.find? (fun v => v.2.asid = s.subj.asid && v.2.root.isSome) = some (vf, v))
  (hroot : v.root = some root)
include hv hroot

theorem exec_translationWalk_fails {e : Nat} (hwalk : walk s root v.asid s.subj.va = .error e) :
    exec .translationWalk s = .next s := by
  change execTranslationWalk s = _
  unfold execTranslationWalk
  simp only [hv, hroot, hwalk]

theorem exec_translationWalk_finds {l : Leaf} (hwalk : walk s root v.asid s.subj.va = .ok l) : exec .translationWalk s
    = .next (if (cachedLeaf (coreOf s s.subj.core).tlb v.asid s.subj.va).isSome then s else cacheLeaf s s.subj.core l) := by
  change execTranslationWalk s = _
  unfold execTranslationWalk
  simp only [hv, hroot, hwalk]

end Walk

theorem exec_translationInvalidateComplete {i : InvalidateScope} {v : Inval}
    (hv : s.invals.find? (fun v => v.scope == i && v.left.all (accessDone s)) = some v) :
    exec (.translationInvalidateComplete i) s = .next (if v.who.isNone then
      answerDone { s with invals := s.invals.erase v } else { s with invals := s.invals.erase v }) := by
  change execTranslationInvalidateComplete i s = _
  unfold execTranslationInvalidateComplete
  simp only [hv]

/-- Settles O45: a walk by what it finds, an invalidation's end by who asked for it. -/
theorem translationEventsComplete : Obligations.TranslationEventsComplete := by
  unfold Obligations.TranslationEventsComplete
  intro s
  refine ⟨fun v vf root hv hroot => ⟨fun e => exec_translationWalk_fails hv hroot, fun l hwalk => ⟨fun hcached => ?cached,
    fun hnew => ?new⟩⟩, fun i v hv => ⟨fun h hwho => ?tlbi, fun hwho => ?request⟩⟩
  case cached => rw [exec_translationWalk_finds hv hroot hwalk, if_pos hcached]
  case new => simp [exec_translationWalk_finds hv hroot hwalk, hnew]
  case tlbi => simp [exec_translationInvalidateComplete hv, hwho]
  case request => simp [exec_translationInvalidateComplete hv, hwho]

end Sys2Proof.Machine
end

section
/-! Filter instructions: the values they write, their cost and what they change of their slot (22 R394 to R399). -/

namespace Sys2Proof.Machine

open Sys2Proof.Claims

section Values

theorem word_shl (a : W32) (n : Nat) : a <<< n = .ofNat 32 (a.toNat * 2 ^ n) :=
  BitVec.eq_of_toNat_eq (by rw [BitVec.toNat_shiftLeft, Nat.shiftLeft_eq, BitVec.toNat_ofNat])

theorem word_shr (a : W32) (n : Nat) : a >>> n = .ofNat 32 (a.toNat / 2 ^ n) := by
  rw [← Nat.shiftRight_eq_div_pow, ← BitVec.toNat_ushiftRight, BitVec.ofNat_toNat, BitVec.setWidth_eq]

theorem word_sub (a b : W32) : a - b = .ofInt 32 ((a.toNat : Int) - b.toNat) := by
  rw [Int.sub_eq_add_neg, BitVec.ofInt_add, BitVec.ofInt_neg, BitVec.ofInt_natCast, BitVec.ofInt_natCast, BitVec.ofNat_toNat,
    BitVec.ofNat_toNat, BitVec.setWidth_eq, BitVec.setWidth_eq, BitVec.sub_eq_add_neg]

theorem word_eq_imm (a : W32) (m : BitVec 14) : a = m.setWidth 32 ↔ a.toNat = m.toNat := by
  rw [← BitVec.toNat_inj, BitVec.toNat_setWidth_of_le (by decide)]

/-- The field of an event that `LDF` loads (22 R395), by its immediate. -/
theorem event_field (n : Nat) (e : TEvent) : (match n with
    | 0 => e.payload
    | 1 => .ofNat 32 (e.code % 2 ^ 9)
    | 2 => .ofNat 32 (e.source % 2 ^ 16)
    | _ => .ofNat 32 (e.tenant % 2 ^ 8))
    = if n = 0 then e.payload else if n = 1 then .ofNat 32 (e.code % 2 ^ 9) else if n = 2 then .ofNat 32 (e.source % 2 ^ 16)
      else BitVec.ofNat 32 (e.tenant % 2 ^ 8) := by
  match n with
  | 0 | 1 | 2 | _ + 3 => rfl

end Values

section Running

variable {s : State} {v : TSlot} {r : FlRun} (hv : slotOf s s.curSlot = v) (hr : v.cur = some r) (hlive : r.ended = false)
include hv hr hlive

/-- A filter instruction is performed: its run pays `cost`, and what its body leaves of slot and run is put back. -/
theorem filters_of_body {i : Instr} {o : Host.Outcome State Fault Refusal} (hexec : exec i s = o) {cost off : Nat}
    {body : State → TSlot → FlRun → State × TSlot × FlRun × Nat} (hstep : o = filterStep s cost body) {v' : TSlot} {r' : FlRun}
    (hbody : body s v { r with cost := r.cost + cost } = (s, v', { r' with cost := r'.cost + cost }, off)) :
    filters i s v' r' cost off := by
  unfold filters
  rw [hexec, hstep, filterStep_goes s cost body v r hv hr hlive, hbody]

variable {i : Instr} {f : FlF} {o : Host.Outcome State Fault Refusal} (hexec : exec i s = o)
include hexec

theorem filters_alu {val : FlRun → W32} (halu : o = filterAlu s f val) {x : W32} (hval : val { r with cost := r.cost + 1 } = x) :
    filters i s v (r.set f.d x) 1 1 :=
  filters_of_body hv hr hlive hexec halu (hval ▸ rfl)

variable {cond : FlRun → Bool} (hbranch : o = filterBranch s f cond)
include hbranch

theorem filters_branch_taken (hcond : cond { r with cost := r.cost + 1 } = true) : filters i s v r 1 f.imm.toNat :=
  filters_of_body hv hr hlive hexec hbranch (by simp only [hcond, if_true])

theorem filters_branch_not_taken (hcond : cond { r with cost := r.cost + 1 } = false) : filters i s v r 1 1 :=
  filters_of_body hv hr hlive hexec hbranch (by simp only [hcond, Bool.false_eq_true, if_false])

end Running

section Instructions

variable {s : State} {v : TSlot} {r : FlRun} {f : FlF} (hv : slotOf s s.curSlot = v) (hr : v.cur = some r)
  (hlive : r.ended = false)
include hv hr hlive

theorem filters_table {e : Instr × W32} (he : e ∈ filterTable f r) : filters e.1 s v (r.set f.d e.2) 1 1 := by
  revert e
  simp only [filterTable, List.forall_mem_cons, List.not_mem_nil, false_imp_iff, implies_true, and_true]
  refine ⟨?seti, ?add, ?addi, ?sub, ?and, ?andi, ?or, ?xor, ?shli, ?shri, ?sltu, ?ceqi, ?ldf, ?hash⟩
  case seti => exact filters_alu hv hr hlive (o := execFilterSeti f s) rfl rfl (BitVec.ofNat_toNat ..).symm
  case add => exact filters_alu hv hr hlive (o := execFilterAdd f s) rfl rfl (BitVec.add_def ..)
  case addi => exact filters_alu hv hr hlive (o := execFilterAddi f s) rfl rfl rfl
  case sub => exact filters_alu hv hr hlive (o := execFilterSub f s) rfl rfl (word_sub ..)
  case and => exact filters_alu hv hr hlive (o := execFilterAnd f s) rfl rfl rfl
  case andi => exact filters_alu hv hr hlive (o := execFilterAndi f s) rfl rfl (congrArg _ (BitVec.ofNat_toNat ..).symm)
  case or => exact filters_alu hv hr hlive (o := execFilterOr f s) rfl rfl rfl
  case xor => exact filters_alu hv hr hlive (o := execFilterXor f s) rfl rfl rfl
  case shli => exact filters_alu hv hr hlive (o := execFilterShli f s) rfl rfl (word_shl ..)
  case shri => exact filters_alu hv hr hlive (o := execFilterShri f s) rfl rfl (word_shr ..)
  case sltu => exact filters_alu hv hr hlive (o := execFilterSltu f s) rfl rfl rfl
  case ceqi => exact filters_alu hv hr hlive (o := execFilterCeqi f s) rfl rfl (if_congr (word_eq_imm ..) rfl rfl)
  case ldf => exact filters_alu hv hr hlive (o := execFilterLdf f s) rfl rfl (event_field ..)
  case hash => exact filters_alu hv hr hlive (o := execFilterHash f s) rfl rfl (tasterHash_eq _ f.imm _ rfl)

theorem filters_bz_of_zero (ha : r.reg f.a = 0) : filters (.filterBz f) s v r 1 f.imm.toNat :=
  filters_branch_taken hv hr hlive (o := execFilterBz f s) rfl rfl (decide_eq_true ha)

theorem filters_bz_of_nonzero (ha : r.reg f.a ≠ 0) : filters (.filterBz f) s v r 1 1 :=
  filters_branch_not_taken hv hr hlive (o := execFilterBz f s) rfl rfl (decide_eq_false ha)

theorem filters_bnz_of_zero (ha : r.reg f.a = 0) : filters (.filterBnz f) s v r 1 1 :=
  filters_branch_not_taken hv hr hlive (o := execFilterBnz f s) rfl rfl (decide_eq_false (not_not.2 ha))

theorem filters_bnz_of_nonzero (ha : r.reg f.a ≠ 0) : filters (.filterBnz f) s v r 1 f.imm.toNat :=
  filters_branch_taken hv hr hlive (o := execFilterBnz f s) rfl rfl (decide_eq_true ha)

theorem filters_hinc : let i := (f.imm.toNat + min (r.reg f.a).toNat (r.reg f.b).toNat) % 2048
    let c : W32 := .ofNat 32 (min ((look v.state i 0).toNat + 1) (2 ^ 32 - 1))
    filters (.filterHinc f) s { v with state := put v.state i c } (r.set f.d c) 1 1 := by
  intro i c
  have hcount : satUp (look v.state i 0) = c := satUp_eq _
  refine filters_of_body hv hr hlive (o := execFilterHinc f s) rfl rfl ?_
  rw [← hcount]
  rfl

theorem filters_cms : let i (j : Nat) : Nat := (f.imm.toNat + 256 * j + (tasterHash (r.reg f.a) (.ofNat 32 j)).toNat % 256) % 2048
    let c (j : Nat) : Nat := min ((look v.state (i j) 0).toNat + 1) (2 ^ 32 - 1)
    ∃ st, filters (.filterCms f) s { v with state := st } (r.set f.d (.ofNat 32 (min (c 0) (min (c 1) (min (c 2) (c 3)))))) 4 1
      ∧ (∀ j < 4, (look st (i j) 0).toNat = c j) ∧ ∀ k, (∀ j < 4, k ≠ i j) → look st k 0 = look v.state k 0 := by
  intro i c
  obtain ⟨hleast, hrows, hothers⟩ := cms_spec f (r.reg f.a) v.state
  refine ⟨_, filters_of_body hv hr hlive (o := execFilterCms f s) rfl rfl ?_, hrows, hothers⟩
  rw [← hleast]
  rfl

/-- The word of the state RAM that `HLL` leaves: of the bytes of `w`, the one that hash `h` names is raised (22 R397). -/
def hllWord (w : W32) (h : Nat) : W32 :=
  .ofNat 32 (w.toNat - w.toNat / 256 ^ (h % 256 % 4) % 256 * 256 ^ (h % 256 % 4)
    + max (w.toNat / 256 ^ (h % 256 % 4) % 256) (1 + leading24 (h / 256)) * 256 ^ (h % 256 % 4))

omit hv hr hlive in
theorem hllWord_byte (w : W32) (h : Nat) {k : Nat} (hk : k < 4) : (hllWord w h).toNat / 256 ^ k % 256
    = if k = h % 256 % 4 then max (w.toNat / 256 ^ k % 256) (1 + leading24 (h / 256)) else w.toNat / 256 ^ k % 256 :=
  hll_spec w (h % 256) _ (Nat.lt_of_le_of_lt (Nat.add_le_add_left (leading24_le _) 1) (by decide)) k hk

theorem filters_hll : let h := (tasterHash (r.reg f.a) 0).toNat
    let i := (f.imm.toNat + h % 256 / 4) % 2048
    filters (.filterHll f) s { v with state := put v.state i (hllWord (look v.state i 0) h) } r 1 1 :=
  filters_of_body hv hr hlive (o := execFilterHll f s) rfl rfl rfl

theorem exec_filterTrig :
    let u := if v.irq then { s with msix := s.msix ++ [(if v.owner = 0xFF then none else some v.owner, 1)] } else s
    exec (.filterTrig f) s = .next { u with slots := put s.slots s.curSlot { v with
      ring := put v.ring (v.head % 64) (trigBytes v r f), head := (v.head + 1) % 2 ^ 64, triggers := (v.triggers + 1) % 2 ^ 64
      cur := some { r with pc := r.pc + 1, cost := r.cost + 1 } } } := by
  dsimp only
  change execFilterTrig f s = _
  unfold execFilterTrig
  rw [filterStep_goes s 1 _ v r hv hr hlive]
  cases v.irq with
  | false => rfl
  | true => rfl

end Instructions

/-- Settles O52, instruction by instruction. -/
theorem filterResults : Obligations.FilterResults := by
  unfold Obligations.FilterResults
  intro s v r f hv hr hlive
  refine ⟨fun e => filters_table hv hr hlive, ?end_,
    fun ha => ⟨filters_bz_of_zero hv hr hlive ha, filters_bnz_of_zero hv hr hlive ha⟩,
    fun ha => ⟨filters_bz_of_nonzero hv hr hlive ha, filters_bnz_of_nonzero hv hr hlive ha⟩,
    filters_branch_taken hv hr hlive (o := execFilterJmp f s) rfl rfl rfl, ?ldw, ?stw, filters_hinc hv hr hlive,
    filters_cms hv hr hlive,
    ⟨_, filters_hll hv hr hlive, fun k => hllWord_byte _ _⟩, exec_filterTrig hv hr hlive, ?snap⟩
  case end_ => exact filters_of_body hv hr hlive (o := execFilterEnd f s) rfl rfl rfl
  case ldw => exact filters_of_body hv hr hlive (o := execFilterLdw f s) rfl rfl rfl
  case stw => exact filters_of_body hv hr hlive (o := execFilterStw f s) rfl rfl rfl
  case snap => exact filters_of_body hv hr hlive (o := execFilterSnap f s) rfl rfl rfl

end Sys2Proof.Machine
end

section
/-! The events of the Tasters: arrivals, runs, budgets, snapshots, and the host's register windows (21 R372, 22 R386 to R399). -/

namespace Sys2Proof.Machine

variable {s : State}

section Arrival

theorem exec_tasterEventArrival {die : Nat} {e : TEvent} (hdie : die < 4) (hgoes : (tasterOf s die).stopped = false) :
    exec (.tasterEventArrival die e) s = .next (each (List.range 16) (modTaster s die fun t => { t with
      expect := put t.expect e.source ((e.seq + 1) % 256)
      lost := (t.lost + (e.seq + 256 - look (tasterOf s die).expect e.source 0 % 256) % 256) % 2 ^ 64 })
        fun u k => offer u (16 * die + k) e) := by
  change execTasterEventArrival die e s = _
  unfold execTasterEventArrival
  rw [if_neg (Nat.not_le.2 hdie), hgoes]
  rfl

variable {v : TSlot} {e : TEvent}

theorem accepts_iff : accepts v e = true ↔ v.run = true ∧ v.bound = true ∧ (v.owner = 0xFF ∨ v.owner = e.tenant)
    ∧ v.kinds.testBit (e.source / 4096) = true ∧ v.low ≤ e.code ∧ e.code ≤ v.high := by
  simp [accepts, and_assoc]

variable {k : Nat}

theorem offer_refused (h : accepts (slotOf s k) e = false) : offer s k e = s := by
  simp [offer, h]

theorem offer_accepted (h : accepts (slotOf s k) e = true) : slotOf (offer s k e) k
    = if 64 ≤ (slotOf s k).queue.length then { slotOf s k with qdrops := more (slotOf s k).qdrops }
      else { slotOf s k with queue := (slotOf s k).queue ++ [e], accepted := more (slotOf s k).accepted } := by
  unfold offer
  simp only [h, Bool.not_true, Bool.false_eq_true, if_false]
  split
  · rw [slotOf_modSlot]
  · rw [slotOf_send, slotOf_modSlot]

end Arrival

/-- A slot's next run may be offered once it holds another event: what that leaves of slots and Tasters. -/
def nextRun (s : State) (d i : Nat) (idle : Bool) : State := if idle then s else send s .filterRunStart { die := d, slot := i }

theorem slotOf_nextRun (s : State) (d i j : Nat) (idle : Bool) : slotOf (nextRun s d i idle) j = slotOf s j := by
  cases idle with
  | true => rfl
  | false => exact slotOf_send ..

theorem tasterOf_nextRun (s : State) (d i j : Nat) (idle : Bool) : tasterOf (nextRun s d i idle) j = tasterOf s j := by
  cases idle with
  | true => rfl
  | false => exact congrArg (look · j {}) (send_tasters ..)

theorem slotOf_modTaster (s : State) (d i : Nat) (F : Taster → Taster) : slotOf (modTaster s d F) i = slotOf s i := rfl

section Runs

variable {d i : Nat} {v : TSlot} {t : Taster} (hd : s.subj.die = d) (hi : s.subj.slot = i) (hv : slotOf s i = v)
  (ht : tasterOf s d = t) (hat : slotAt d i = true)
include hd hi hv ht hat

section Start

variable {e : TEvent} {rest : List TEvent} (hqueue : v.queue = e :: rest) (hcur : v.cur = none) (hcopy : v.copying = none)
  (howner : v.nextOwner = none)
include hqueue hcur hcopy howner

theorem exec_filterRunStart_runs (hrich : v.worst ≤ look t.balance (entryOf v) 0) : ∃ u, exec .filterRunStart s = .next u
    ∧ look (tasterOf u d).balance (entryOf v) 0 = look t.balance (entryOf v) 0 - v.worst
    ∧ slotOf u i = { v with queue := rest, cur := some { code := (List.range v.len).map fun n => look v.prog n 0
                                                         ev := e, held := v.worst, window := t.windows } } := by
  refine ⟨modSlot (modTaster s d fun x => { x with balance := put x.balance (entryOf v) (look t.balance (entryOf v) 0 - v.worst) })
    i fun w => { w with queue := rest, cur := some { code := (List.range v.len).map fun n => look v.prog n 0
                                                     ev := e, held := w.worst, window := t.windows } }, ?_, ?_, ?_⟩
  · change execFilterRunStart s = _
    unfold execFilterRunStart
    simp only [hd, hi, hv, ht, hat, hqueue, hcur, hcopy, howner, if_neg (Nat.not_lt.2 hrich)]
    rfl
  · rw [tasterOf_modSlot, tasterOf_modTaster, ht]
    exact look_put_self ..
  · rw [slotOf_modSlot, slotOf_modTaster, hv]

theorem exec_filterRunStart_drops (hpoor : look t.balance (entryOf v) 0 < v.worst) : ∃ u, exec .filterRunStart s = .next u
    ∧ slotOf u i = { v with queue := rest, bdrops := more v.bdrops }
    ∧ look (tasterOf u d).drops (entryOf v) 0 = more (look t.drops (entryOf v) 0)
    ∧ look (tasterOf u d).balance (entryOf v) 0 = look t.balance (entryOf v) 0 := by
  refine ⟨nextRun (modSlot (modTaster s d fun t => { t with drops := put t.drops (entryOf v) (more (look t.drops (entryOf v) 0)) })
    i fun w => { w with queue := rest, bdrops := more w.bdrops }) d i rest.isEmpty, ?_, ?_, ?_, ?_⟩
  · change execFilterRunStart s = _
    unfold execFilterRunStart
    simp only [hd, hi, hv, ht, hat, hqueue, hcur, hcopy, howner, if_pos hpoor]
    rfl
  · rw [slotOf_nextRun, slotOf_modSlot, slotOf_modTaster, hv]
  · rw [tasterOf_nextRun, tasterOf_modSlot, tasterOf_modTaster, ht]
    exact look_put_self ..
  · rw [tasterOf_nextRun, tasterOf_modSlot, tasterOf_modTaster, ht]

end Start

section End

/-- A Taster whose slot's run has ended: what the run did not spend is refunded unless a window began since (22 R392). -/
def refunded (t : Taster) (k : Nat) (r : FlRun) : Taster :=
  if t.windows = r.window then { t with balance := put t.balance k (look t.balance k 0 + (r.held - r.cost)) } else t

omit hd hi hv ht hat in
theorem look_refunded (t : Taster) (k : Nat) (r : FlRun) : look (refunded t k r).balance k 0
    = if t.windows = r.window then look t.balance k 0 + (r.held - r.cost) else look t.balance k 0 := by
  unfold refunded
  split
  · exact look_put_self ..
  · rfl

omit hd hi hv ht hat in
theorem refunded_cycles (t : Taster) (k : Nat) (r : FlRun) : (refunded t k r).cycles = t.cycles := by
  unfold refunded
  split <;> rfl

/-- A slot whose run has ended, with no owner waiting: it begins the snapshot that the run asked for (22 R399). -/
def runEnded (v : TSlot) (r : FlRun) (now : Nat) : TSlot :=
  let x : TSlot := { v with cur := none, runs := more v.runs }
  if r.snap then { x with snapSeq := more v.snapSeq, copying := some r.zero, copyFrom := now, copied := 0 } else x

omit hd hi hv ht hat in
theorem runOver_of_end {r : FlRun} (h : r.ended = true ∨ r.code.length ≤ r.pc) : runOver r = true := by
  rcases h with h | h <;> simp [runOver, h]

variable {r : FlRun} (hr : v.cur = some r) (hover : runOver r = true)
include hr hover

theorem exec_filterRunEnd_rebinds {o : Nat} (howner : v.nextOwner = some o) : ∃ u, exec .filterRunEnd s = .next u
    ∧ look (tasterOf u d).balance (entryOf v) 0 = (if t.windows = r.window then look t.balance (entryOf v) 0 + (r.held - r.cost)
      else look t.balance (entryOf v) 0) ∧ slotOf u i = freshSlot o := by
  refine ⟨modSlot (modTaster s d fun t => refunded t (entryOf v) r) i fun _ => freshSlot o, ?_, ?_, ?_⟩
  · change execFilterRunEnd s = _
    unfold execFilterRunEnd
    simp only [hd, hi, hv, hat, hr, hover, howner]
    rfl
  · rw [tasterOf_modSlot, tasterOf_modTaster, ht, look_refunded]
  · rw [slotOf_modSlot]

theorem exec_filterRunEnd_keeps (howner : v.nextOwner = none) : ∃ u, exec .filterRunEnd s = .next u
    ∧ look (tasterOf u d).balance (entryOf v) 0 = (if t.windows = r.window then look t.balance (entryOf v) 0 + (r.held - r.cost)
      else look t.balance (entryOf v) 0) ∧ slotOf u i = runEnded v r t.cycles := by
  refine ⟨nextRun (modSlot (modTaster s d fun t => refunded t (entryOf v) r) i fun w => runEnded w r
    (tasterOf (modTaster s d fun t => refunded t (entryOf v) r) d).cycles) d i v.queue.isEmpty, ?_, ?_, ?_⟩
  · change execFilterRunEnd s = _
    unfold execFilterRunEnd
    simp only [hd, hi, hv, hat, hr, hover, howner]
    rfl
  · rw [tasterOf_nextRun, tasterOf_modSlot, tasterOf_modTaster, ht, look_refunded]
  · rw [slotOf_nextRun, slotOf_modSlot, slotOf_modTaster, hv, tasterOf_modTaster, refunded_cycles, ht]

end End

theorem exec_snapshotCopyComplete {z : Bool} (hcopy : v.copying = some z) (hlong : v.copyFrom + 2048 ≤ t.cycles) :
    ∃ u, exec .snapshotCopyComplete s = .next u ∧ slotOf u i
      = { copyUpTo v 2048 with state := if z then [] else v.state, snapSeq := more v.snapSeq, copying := none } := by
  refine ⟨nextRun (modSlot s i fun v => { copyUpTo v 2048 with
    state := if z then [] else v.state, snapSeq := more v.snapSeq, copying := none }) d i v.queue.isEmpty, ?_, ?_⟩
  · change execSnapshotCopyComplete s = _
    unfold execSnapshotCopyComplete
    simp only [hd, hi, hv, ht, hat, hcopy, decide_eq_false (Nat.not_lt.2 hlong)]
    rfl
  · rw [slotOf_nextRun, slotOf_modSlot, hv]

omit hd hi hv ht hat in
/-- A word of the snapshot when its copy is complete: taken before, or as it stands in the state RAM (22 R399). -/
theorem copied_word {k : Nat} (hk : k < 2048) : look (copyUpTo v 2048).snap k 0
    = if k < v.copied then look v.snap k 0 else look v.state k 0 := by
  rw [copyUpTo_snap]
  by_cases htaken : k < v.copied
  · rw [if_neg (fun h => Nat.not_le.2 htaken h.1), if_pos htaken]
  · rw [if_pos ⟨Nat.not_lt.1 htaken, hk⟩, if_neg htaken]

end Runs

theorem exec_tasterBudgetWindow {d : Nat} {t : Taster} (hd : s.subj.die = d) (ht : tasterOf s d = t) (hdie : d < 4)
    (hdue : t.windows * 2 ^ 20 ≤ t.cycles) : ∃ u, exec .tasterBudgetWindow s = .next u
      ∧ tasterOf u d = { t with windows := t.windows + 1, balance := t.budget } := by
  refine ⟨modTaster s d fun t => { t with windows := t.windows + 1, balance := t.budget }, ?_, ?_⟩
  · change execTasterBudgetWindow s = _
    unfold execTasterBudgetWindow
    simp only [hd, ht, decide_eq_false (Nat.not_le.2 hdie), decide_eq_false (Nat.not_lt.2 hdue)]
    rfl
  · rw [tasterOf_modTaster, ht]

/-- A program of a length that may be is checked word by word before its slot starts (22 R390). -/
theorem startSlot_checked {v : TSlot} {x len : Nat} {code : List W32} (hl : bits x 13 8 = len)
    (hcode : ((List.range len).map fun k => look v.prog k 0) = code) (hpos : 1 ≤ len) (hmost : len ≤ 48) :
    startSlot v x = match firstFail len code with
    | some (n, k) => { v with status := k, failWord := n }
    | none => { sctlFields v x with
        status := 0, failWord := 0, worst := worstCost code, accepted := 0, qdrops := 0, bdrops := 0, runs := 0, triggers := 0
        head := 0, ring := [], snapSeq := 0 } := by
  subst hl hcode
  exact if_neg (by simp; omega)

section Control

variable {die i : Nat} {w : Word} (hat : slotAt die i = true)
include hat

section Start

variable (hstopped : (slotOf s i).run = false) (hrun : w.getLsbD 0 = true)
include hstopped hrun

theorem exec_sctlStart_length (hlen : bits w.toNat 13 8 = 0 ∨ 48 < bits w.toNat 13 8) : exec (.sctlStart die i w) s
    = .next (modSlot s i fun v => { v with status := 1, failWord := 0 }) := by
  refine (sctlStart_eq die i w s hat hrun hstopped).trans (congrArg _ (modSlot_congr _ _ _ _ ?_))
  exact if_pos (by simpa using hlen)

variable {len : Nat} {code : List W32} (hl : bits w.toNat 13 8 = len)
  (hcode : ((List.range len).map fun k => look (slotOf s i).prog k 0) = code) (hpos : 1 ≤ len) (hmost : len ≤ 48)
include hl hcode hpos hmost

theorem exec_sctlStart_rejects {n k : Nat} (hfail : firstFail len code = some (n, k)) : exec (.sctlStart die i w) s
    = .next (modSlot s i fun v => { v with status := k, failWord := n }) := by
  refine (sctlStart_eq die i w s hat hrun hstopped).trans (congrArg _ (modSlot_congr _ _ _ _ ?_))
  rw [startSlot_checked hl hcode hpos hmost, hfail]

theorem exec_sctlStart_accepts (hok : firstFail len code = none) : ∃ u, exec (.sctlStart die i w) s = .next u
    ∧ slotOf u i = { slotOf s i with
      kinds := bits w.toNat 63 48, high := bits w.toNat 40 32, low := bits w.toNat 24 16, len := len, irq := w.getLsbD 1, run := true
      status := 0, failWord := 0, worst := worstCost code, accepted := 0, qdrops := 0, bdrops := 0, runs := 0, triggers := 0
      head := 0, ring := [], snapSeq := 0 } := by
  refine ⟨_, sctlStart_eq die i w s hat hrun hstopped, ?_⟩
  rw [slotOf_modSlot, startSlot_checked hl hcode hpos hmost, hok, ← hl, ← hrun]
  rfl

end Start

theorem exec_sownWrite : exec (.sownWrite die i w) s = .next (modSlot s i fun x =>
    if (stopSlot x).cur.isSome then { stopSlot x with nextOwner := some w.toNat } else freshSlot w.toNat) := by
  change execSownWrite die i w s = _
  unfold execSownWrite
  simp only [hat]
  rfl

theorem slotOf_sownWrite : ∃ u, exec (.sownWrite die i w) s = .next u ∧ slotOf u i =
    if (slotOf s i).cur = none then { owner := w.toNat % 256, bound := w.getLsbD 8 }
    else { slotOf s i with run := false, queue := [], nextOwner := some w.toNat } := by
  refine ⟨_, exec_sownWrite hat, ?_⟩
  rw [slotOf_modSlot]
  cases hcur : (slotOf s i).cur with
  | none =>
    simp only [stopSlot, hcur]
    rfl
  | some r =>
    simp only [stopSlot, hcur]
    rfl

end Control

section Windows

variable {r : RegWrite}

theorem exec_registerWrite_control (hfn : r.fn = none) (hbar : r.bar = 0) :
    exec (.registerWrite r) s = .next (writeControl r s) := by
  change execRegisterWrite r s = _
  unfold execRegisterWrite
  rw [hfn, hbar]
  rfl

theorem exec_registerWrite_doorbell {vf : Nat} (hfn : r.fn = some vf) (hbar : r.bar = 0) (hvf : vf < 128)
    (hstage : s.boot.stage = 5) (hsize : r.size = 8) (hoff : r.off % 8 = 0) (hlow : r.off < 128) :
    exec (.registerWrite r) s = execQueueDoorbell vf (r.off / 8) r.value s := by
  change execRegisterWrite r s = _
  unfold execRegisterWrite
  rw [hfn, hbar]
  exact if_neg (by simp [hvf, hstage, hsize, hoff, hlow])

theorem exec_registerWrite_taster (hbar : r.bar = 2) (hshown : tasterShown s r.fn = true) :
    exec (.registerWrite r) s = if r.off < 0x200000 then writeSlot r (r.off / 0x8000) (r.off % 0x8000) s
      else if r.fn.isSome || 4 ≤ (r.off - 0x200000) / 0x2000 || r.size ≠ 8 || (r.off - 0x200000) % 0x2000 % 8 ≠ 0
        || 128 < (r.off - 0x200000) % 0x2000 / 8 then .next s
      else .next (modTaster s ((r.off - 0x200000) / 0x2000) fun t => { t with
        budget := put t.budget ((r.off - 0x200000) % 0x2000 / 8) (r.value.toNat % 2 ^ 32) }) := by
  change execRegisterWrite r s = _
  unfold execRegisterWrite
  rw [hbar]
  cases hfn : r.fn with
  | none =>
    simp only [hfn] at hshown
    simp [hshown]
  | some f =>
    simp only [hfn] at hshown
    simp [hshown]

theorem shows_of_owner {v : TSlot} (h : r.fn = none ∨ (v.bound = true ∧ r.fn = some v.owner)) : shows r.fn v = true := by
  rcases h with h | ⟨hbound, h⟩
  · rw [h]
    rfl
  · rw [h]
    simp [shows, hbound]

/-- The words that a write of 4 or 8 bytes puts are those of its value (22 R388). -/
theorem look_putWords (m : Tbl W32) (k : Nat) (hsize : r.size = 4 ∨ r.size = 8) {j : Nat} (hj : j < r.size / 4) :
    look (putWords m k r) (k + j) 0 = r.value.extractLsb' (32 * j) 32 := by
  have hlow : r.value.setWidth 32 = r.value.extractLsb' 0 32 := BitVec.setWidth_eq_extractLsb' (by decide)
  unfold putWords
  rcases hsize with h | h
  · obtain rfl : j = 0 := by omega
    rw [h, if_neg (by decide)]
    exact (look_put_self ..).trans hlow
  · rw [h, if_pos rfl]
    obtain rfl | rfl : j = 0 ∨ j = 1 := by omega
    · exact (look_put_other _ _ _ _ _ (Nat.ne_of_lt (Nat.lt_succ_self k))).trans ((look_put_self ..).trans hlow)
    · exact look_put_self ..

section Slot

variable {n o : Nat} (hshows : shows r.fn (slotOf s n) = true)
include hshows

/-- A write to a stopped slot's state or program puts its words there (22 R388, R400). -/
theorem writeSlot_words (hstopped : (slotOf s n).run = false) (hsize : r.size = 4 ∨ r.size = 8) (hoff : o % r.size = 0)
    (ho : o < 0x20C0) : ∃ u, writeSlot r n o s = .next u
      ∧ (o < 0x2000 → (slotOf u n).state = putWords (slotOf s n).state (o / 4) r)
      ∧ (0x2000 ≤ o → (slotOf u n).prog = putWords (slotOf s n).prog ((o - 0x2000) / 4) r) := by
  have hsizes : (r.size != 4 && r.size != 8) = false := by
    rcases hsize with h | h <;> rw [h] <;> rfl
  have hgo : writeSlot r n o s = if o < 0x2000 then .next (modSlot s n fun v =>
        { (if v.copying.isSome then copyUpTo v (copyDone s n) else v) with state := putWords v.state (o / 4) r })
      else .next (modSlot s n fun v => { v with prog := putWords v.prog ((o - 0x2000) / 4) r }) := by
    unfold writeSlot
    simp only [hshows, hoff, if_pos ho, hstopped, hsizes]
    rfl
  by_cases hstate : o < 0x2000
  · exact ⟨_, hgo.trans (if_pos hstate), fun _ => by rw [slotOf_modSlot], fun h => absurd hstate (Nat.not_lt.2 h)⟩
  · exact ⟨_, hgo.trans (if_neg hstate), fun h => absurd h hstate, fun _ => by rw [slotOf_modSlot]⟩

theorem writeSlot_sctl (hsize : r.size = 8) : writeSlot r n 0x2100 s =
    if r.value.getLsbD 0 = false then exec (.sctlStop (n / 16) n r.value) s
    else if (slotOf s n).run = true then .next s else exec (.sctlStart (n / 16) n r.value) s := by
  unfold writeSlot
  simp only [hshows, hsize, Bool.not_true, Bool.not_eq_true']
  rfl

omit hshows in
theorem writeSlot_sown (hsize : r.size = 8) (hfn : r.fn = none) :
    writeSlot r n 0x2180 s = exec (.sownWrite (n / 16) n r.value) s := by
  unfold writeSlot
  simp [hsize, hfn, shows]
  rfl

end Slot

end Windows

/-- Settles O53: the events of slots and Tasters, then the host's writes. -/
theorem tasterEventsHappen : Obligations.TasterEventsHappen := by
  unfold Obligations.TasterEventsHappen
  refine ⟨?events, ?writes⟩
  case events =>
    intro s d i v t
    refine ⟨fun die e => exec_tasterEventArrival, fun u k e => ⟨accepts_iff, offer_refused, offer_accepted⟩,
      fun hat e rest hqueue hcur hcopy howner => ⟨exec_filterRunStart_runs rfl rfl rfl rfl hat hqueue hcur hcopy howner,
        exec_filterRunStart_drops rfl rfl rfl rfl hat hqueue hcur hcopy howner⟩,
      fun hat r hr hover => ?ends, exec_tasterBudgetWindow rfl rfl, fun hat z hcopy hlong => ?copy⟩
    case ends =>
      have hover' : runOver r = true := runOver_of_end hover
      obtain howner | ⟨o, howner⟩ := Option.eq_none_or_eq_some v.nextOwner
      · obtain ⟨u, hexec, hbalance, hslot⟩ := exec_filterRunEnd_keeps rfl rfl rfl rfl hat hr hover' howner
        exact ⟨u, hexec, hbalance, fun o h => (nomatch howner.symm.trans h), fun _ => hslot⟩
      · obtain ⟨u, hexec, hbalance, hslot⟩ := exec_filterRunEnd_rebinds rfl rfl rfl rfl hat hr hover' howner
        refine ⟨u, hexec, hbalance, fun o' h => ?_, fun h => nomatch howner.symm.trans h⟩
        cases howner.symm.trans h
        exact hslot
    case copy =>
      obtain ⟨u, hexec, hslot⟩ := exec_snapshotCopyComplete rfl rfl rfl rfl hat hcopy hlong
      refine ⟨u, hexec, ⟨_, hslot⟩, fun k hk => ?_⟩
      rw [hslot]
      exact copied_word hk
  case writes =>
    intro s die i w v len code
    refine ⟨fun hat hstopped hrun => ?start, fun hat hbit => ⟨_, sctlStop_eq die i w s hat hbit, slotOf_modSlot ..⟩,
      slotOf_sownWrite, fun r => ⟨exec_registerWrite_control, fun vf => exec_registerWrite_doorbell,
        fun hbar hshown hslots howner => ?slot, fun hfn hbar hboot hlow hhigh hsize hbudget hoff => ?budget⟩⟩
    case start =>
      exact ⟨exec_sctlStart_length hat hstopped hrun, fun hpos hmost =>
        ⟨fun n k => exec_sctlStart_rejects hat hstopped hrun rfl rfl hpos hmost,
          exec_sctlStart_accepts hat hstopped hrun rfl rfl hpos hmost⟩⟩
    case slot =>
      have hshows := shows_of_owner howner
      have hexec := (exec_registerWrite_taster hbar hshown).trans (if_pos hslots)
      refine ⟨fun hstopped hsize hoff ho => ?words, fun hsize ho => ?sctl, fun hsize ho hfn => ?sown⟩
      case words =>
        obtain ⟨u, hgo, hstate, hprog⟩ := writeSlot_words hshows hstopped hsize hoff ho
        exact ⟨u, hexec.trans hgo, fun hlow j hj => (hstate hlow) ▸ look_putWords _ _ hsize hj,
          fun hhigh j hj => (hprog hhigh) ▸ look_putWords _ _ hsize hj⟩
      case sctl => exact hexec.trans (ho ▸ writeSlot_sctl hshows hsize)
      case sown => exact hexec.trans (ho ▸ writeSlot_sown hsize hfn)
    case budget =>
      have hshown : tasterShown s r.fn = true := by simp [tasterShown, hboot, hfn]
      rw [exec_registerWrite_taster hbar hshown, if_neg (Nat.not_lt.2 hlow), if_neg]
      simp only [hfn, hsize, Option.isSome_none, Bool.false_or, Bool.or_eq_true, decide_eq_true_eq]
      omega

end Sys2Proof.Machine
end

section
/-! Management requests: what each checks and answers, and what it does (21 R374, R376 to R379, 19 R343 to R348, 20 R349, R359 to
R367, 10 R267, 23 R407). -/

namespace Sys2Proof.Machine

open Sys2Proof.Claims

variable {s : State}

section Reply

/-- The little-endian bytes of a number are worth what fits in them (00 R4). -/
theorem leNat_bytes (n v : Nat) : leNat ((List.range n).map fun i => BitVec.ofNat 8 (v / 256 ^ i)) = v % 256 ^ n := by
  induction n generalizing v with
  | zero => simp [leNat, Nat.mod_one]
  | succ n ih =>
    have htail : (List.range n).map ((fun i => BitVec.ofNat 8 (v / 256 ^ i)) ∘ Nat.succ)
        = (List.range n).map fun i => BitVec.ofNat 8 (v / 256 / 256 ^ i) :=
      List.map_congr_left fun i _ => by simp only [Function.comp, Nat.div_div_eq_div_mul, Nat.pow_succ, Nat.mul_comm]
    rw [List.range_succ_eq_map, List.map_cons, List.map_map, htail, leNat, ih, Nat.pow_succ', Nat.mod_mul]
    simp

/-- The first eight bytes of a reply: status, late doorbells, offset and tag (21 R374). -/
theorem reply_head (a b c d : Nat) (bs : List Byte) :
    withFields (List.replicate 8 0 ++ bs) [(0, 1, a), (1, 1, b), (2, 2, c), (4, 4, d)]
      = ((List.range 1).map fun i => BitVec.ofNat 8 (a / 256 ^ i)) ++ ((List.range 1).map fun i => BitVec.ofNat 8 (b / 256 ^ i))
        ++ ((List.range 2).map fun i => BitVec.ofNat 8 (c / 256 ^ i))
        ++ ((List.range 4).map fun i => BitVec.ofNat 8 (d / 256 ^ i)) ++ bs :=
  rfl

theorem answer_reply (st off : Nat) : let bs := (answer s st off []).mgmt.reply
    field bs 0 1 = st % 256 ∧ field bs 2 2 = off % 2 ^ 16 ∧ field bs 4 4 = req s 4 4 := by
  intro bs
  have hbs : bs = _ := reply_head st (if s.mgmt.late then 1 else 0) off (req s 4 4) _
  have htag : req s 4 4 % 256 ^ 4 = req s 4 4 := Nat.mod_eq_of_lt (leNat_take4 _)
  rw [hbs]
  exact ⟨leNat_bytes 1 st, leNat_bytes 2 off, (leNat_bytes 4 (req s 4 4)).trans htag⟩

end Reply

section Checks

variable {name : String} {code : Nat} {used : List (Nat × Nat)}

theorem perform_stray {body : State → Host.Outcome State Fault Refusal} {off : Nat} (hbusy : s.mgmt.busy = true)
    (hcode : req s 0 2 = code) (hstray : strayByte s used = some off) :
    perform s name code used body = .next (answer s 1 off []) := by
  unfold perform asks
  simp only [hbusy, hcode, hstray, BEq.rfl]
  rfl

theorem perform_asked {body : State → Host.Outcome State Fault Refusal} (h : asked s code used) :
    perform s name code used body = body s := by
  obtain ⟨hbusy, hcode, hstray⟩ := h
  unfold perform asks
  simp only [hbusy, hcode, hstray, BEq.rfl]
  rfl

theorem performPart_asked {body : State → Nat → Partition → Host.Outcome State Fault Refusal} {v : Partition}
    (hv : find s.parts (req s 2 2) = some v) (h : asked s code used) :
    performPart s name code used body = body s (req s 2 2) v := by
  unfold performPart
  rw [perform_asked h]
  simp only [reqPart, hv]

theorem withBytes_reads {pa n : Nat} {bs : List Byte} {u : State} {body : List Byte → State → Host.Outcome State Fault Refusal}
    (h : reads s pa n bs u) : withBytes s name pa n body = body bs u := by
  obtain ⟨hready, hread⟩ := h
  unfold withBytes
  simp only [hready, hread, if_true]

theorem withDesc_reads {pa : Nat} {bs home tn : List Byte} {a b c : State} (ha : reads s pa 256 bs a)
    (hb : reads a (field bs 128 8) 8192 home b) (hc : reads b (field bs 176 8) 2048 tn c)
    {body : List Byte → List Byte → List Byte → State → Host.Outcome State Fault Refusal} :
    withDesc s name pa body = body bs home tn c := by
  unfold withDesc
  rw [withBytes_reads ha, withBytes_reads hb, withBytes_reads hc]

theorem exec_managementUnknownCode (hbusy : s.mgmt.busy = true) (hcode : requestEvent (req s 0 2) = .managementUnknownCode) :
    exec .managementUnknownCode s = .next (answer s 2 0xFFFF []) := by
  change execManagementUnknownCode s = _
  unfold execManagementUnknownCode
  rw [hbusy, hcode]
  rfl

theorem exec_doorbellWriteIgnored (hbusy : s.mgmt.busy = true) :
    exec .doorbellWriteIgnored s = .next { s with mgmt := { s.mgmt with late := true } } :=
  if_pos hbusy

/-- Each request, its code and the operand bytes it uses (21 R374). -/
def requestTable : List (Instr × Nat × List (Nat × Nat)) :=
  [(Instr.createPartition, 1, [(8, 8)]), (.resumeRequest, 5, [(8, 4)]), (.killRequest, 6, [(8, 4)]),
    (.queryRequest, 7, [(8, 4), (16, 8)]),
    (.setCommunicator, 0x0A, [(8, 16)]), (.invalidateTranslations, 0x0B, [(8, 16)]), (.setAddressSpace, 0x0C, [(8, 24)]),
    (.keyCreate, 0x10, [(8, 16)]), (.keyBind, 0x11, [(8, 16)]), (.keyUnbind, 0x12, [(8, 16)]), (.keyDestroy, 0x13, [(8, 8)]),
    (.readAttestationLog, 0x20, [(8, 16)]), (.quote_, 0x21, [(8, 32)]), (.firmwareUpdate, 0x30, [(8, 17)]),
    (.destroyPartition, 2, []), (.resizeRequest, 3, [(8, 8), (16, 1)]), (.preEmpt, 4, [(8, 2)]), (.installHandlerTable, 8, [(8, 8)]),
    (.registerContextPool, 9, [(8, 16)])]

omit s in
theorem performed_of {i : Instr} {s : State} (o : Host.Outcome State Fault Refusal) (hexec : exec i s = o)
    {body : State → Host.Outcome State Fault Refusal} (ho : o = perform s name code used body) :
    ∃ name body, exec i s = perform s name code used body :=
  ⟨name, body, hexec.trans ho⟩

omit s in
theorem performed_of_part {i : Instr} {s : State} (o : Host.Outcome State Fault Refusal) (hexec : exec i s = o)
    {body : State → Nat → Partition → Host.Outcome State Fault Refusal} (ho : o = performPart s name code used body) :
    ∃ name body, exec i s = perform s name code used body :=
  performed_of o hexec (by rw [ho, performPart])

/-- Every request is performed under its code and its operands' bytes. -/
theorem exec_request {e : Instr × Nat × List (Nat × Nat)} (he : e ∈ requestTable) :
    ∃ name body, exec e.1 s = perform s name e.2.1 e.2.2 body := by
  revert e
  simp only [requestTable, List.forall_mem_cons, List.not_mem_nil, false_imp_iff, implies_true, and_true]
  exact ⟨performed_of (execCreatePartition s) rfl rfl, performed_of (execResumeRequest s) rfl rfl,
    performed_of (execKillRequest s) rfl rfl, performed_of (execQueryRequest s) rfl rfl,
    performed_of (execSetCommunicator s) rfl rfl, performed_of (execInvalidateTranslations s) rfl rfl,
    performed_of (execSetAddressSpace s) rfl rfl, performed_of (execKeyCreate s) rfl rfl,
    performed_of (execKeyBind s) rfl rfl, performed_of (execKeyUnbind s) rfl rfl, performed_of (execKeyDestroy s) rfl rfl,
    performed_of (execReadAttestationLog s) rfl rfl, performed_of (execQuote s) rfl rfl,
    performed_of (execFirmwareUpdate s) rfl rfl, performed_of_part (execDestroyPartition s) rfl rfl,
    performed_of_part (execResizeRequest s) rfl rfl, performed_of_part (execPreEmpt s) rfl rfl,
    performed_of_part (execInstallHandlerTable s) rfl rfl, performed_of_part (execRegisterContextPool s) rfl rfl⟩

end Checks

section Partitions

section Create

variable {bs home tn : List Byte} {a b c : State} (hasked : asked s 1 [(8, 8)]) (ha : reads s (req s 8 8) 256 bs a)
  (hb : reads a (field bs 128 8) 8192 home b) (hc : reads b (field bs 176 8) 2048 tn c)
include hasked ha hb hc

theorem exec_createPartition_rejects {off : Nat} (hbad : least (descBad_ c bs home tn none) = some off) :
    exec .createPartition s = .next (reject c off) := by
  change execCreatePartition s = _
  unfold execCreatePartition
  rw [perform_asked hasked, withDesc_reads ha hb hc]
  simp only [hbad]

theorem exec_createPartition_makes (hgood : descBad_ c bs home tn none = []) : ∃ t, exec .createPartition s = .next t
    ∧ find t.parts (field bs 0 1) = some { parseDesc bs with
      home := homeEntries home, tenants := tenantsOf tn, period := c.sched / 2 ^ 20
      ctr := some (Config.counterPage (field bs 0 1)) } := by
  change ∃ t, execCreatePartition s = .next t ∧ _
  unfold execCreatePartition
  rw [perform_asked hasked, withDesc_reads ha hb hc, hgood]
  exact ⟨_, rfl, find_put_self ..⟩

end Create

section Existing

variable {v : Partition} (hv : find s.parts (req s 2 2) = some v)
include hv

theorem exec_destroyPartition_rejects (hasked : asked s 2 []) (hlive : liveLaunches s (req s 2 2) ≠ []) :
    exec .destroyPartition s = .next (reject s 2) := by
  change execDestroyPartition s = _
  unfold execDestroyPartition
  rw [performPart_asked hv hasked, if_pos (by simp [hlive])]

theorem exec_destroyPartition_removes (hasked : asked s 2 []) (hlive : liveLaunches s (req s 2 2) = [])
    (hquiet : quiesced s (req s 2 2) = true) : ∃ t, exec .destroyPartition s = .next t ∧ find t.parts (req s 2 2) = none := by
  change ∃ t, execDestroyPartition s = .next t ∧ _
  unfold execDestroyPartition
  rw [performPart_asked hv hasked, hlive, if_neg (by simp), hquiet, if_neg (by simp)]
  exact ⟨_, rfl, find_del_self ..⟩

theorem exec_resizeRequest {bs : List Byte} {u : State} (hasked : asked s 3 [(8, 8), (16, 1)]) (hread : reads s (req s 8 8) 32 bs u)
    (hfree : ∀ x ∈ u.parts, x.1 ≠ req s 2 2 → ∀ c ∈ x.2.cores, c ∉ bitsOf 256 (leNat bs))
    (hstores : bitsOf 256 (leNat bs) = [] ∨ (v.slices ≠ [] ∧ v.channels ≠ [])) (hforce : req u 16 1 ≤ 1) : exec .resizeRequest s
      = .next (answerDone (resize u (req s 2 2) (bitsOf 256 (leNat bs)) (req u 16 1 = 1))) := by
  have htaken : (u.parts.any fun x => x.1 != req s 2 2 && x.2.cores.any (bitsOf 256 (leNat bs)).contains) = false := by
    refine List.any_eq_false.2 fun x hx => ?_
    simpa using hfree x hx
  change execResizeRequest s = _
  unfold execResizeRequest
  rw [performPart_asked hv hasked, withBytes_reads hread]
  simp only [htaken, if_neg (Nat.not_lt.2 hforce)]
  rcases hstores with hnone | ⟨hslices, hchannels⟩
  · simp [hnone]
  · simp [hslices, hchannels]

theorem exec_preEmpt_begins (hasked : asked s 4 [(8, 2)]) (hphase : s.mgmt.phase = 0) (hall : req s 8 2 = 0xFFFF) :
    exec .preEmpt s = .next (let ts := savable s (req s 2 2) 0xFFFF
      let u := each ts s fun s t => if (teamOf s t).saving.isSome then s else beginSave s t false
      send { u with mgmt := { u.mgmt with phase := 1, list := ts } } .preEmpt) := by
  change execPreEmpt s = _
  unfold execPreEmpt
  rw [performPart_asked hv hasked, hall, if_pos hphase]
  rfl

theorem exec_preEmpt_ends (hasked : asked s 4 [(8, 2)]) (hphase : s.mgmt.phase ≠ 0)
    (hsaved : ∀ t ∈ s.mgmt.list, (teamOf s t).saving = none) :
    let saved := s.mgmt.saved.eraseDups.length
    let left := (s.mgmt.list.filter fun t => !s.mgmt.saved.contains t && (teamOf s t).st == .resident).length
    exec .preEmpt s = .next (answer s (if left = 0 then 0 else 3) 0xFFFF [(8, 4, saved), (12, 4, left)]) := by
  have hover : (s.mgmt.list.any fun t => (teamOf s t).saving.isSome) = false :=
    List.any_eq_false.2 fun t ht => by simp [hsaved t ht]
  change execPreEmpt s = _
  unfold execPreEmpt
  rw [performPart_asked hv hasked, if_neg hphase]
  simp only [hover]
  rfl

theorem exec_installHandlerTable {bs : List Byte} {u : State} (hasked : asked s 8 [(8, 8)]) (hread : reads s (req s 8 8) 512 bs u) :
    let es := (List.range 64).map fun i => field bs (8 * i) 8
    es.getD 0 0 % 256 = 0 → (∀ e ∈ es.drop 1, bits e 63 56 = 0 ∧ bits e 2 1 = 0) → exec .installHandlerTable s
      = .next (answerDone (modPart u (req s 2 2) fun v => { v with handlers := es.map (.ofNat 64) })) := by
  intro es hfirst hrest
  have hgood : (es.getD 0 0 % 256 = 0 && (es.drop 1).all fun e => bits e 63 56 = 0 && bits e 2 1 = 0) = true := by
    rw [hfirst]
    exact List.all_eq_true.2 fun e he => by simp [hrest e he]
  change execInstallHandlerTable s = _
  unfold execInstallHandlerTable
  rw [performPart_asked hv hasked, withBytes_reads hread]
  exact if_pos hgood

theorem exec_registerContextPool (hasked : asked s 9 [(8, 16)]) : exec .registerContextPool s
    = .next (answerDone (modPart s (req s 2 2) fun v => { v with pool := req s 8 8, poolLen := req s 16 8 })) := by
  change execRegisterContextPool s = _
  unfold execRegisterContextPool
  rw [performPart_asked hv hasked]

end Existing

theorem exec_sliceChannelHomeTableChange {v : Partition} {p : Nat} {bs home tn : List Byte} {a b c : State} (hp : s.subj.part = p)
    (hv : find s.parts p = some v) (ha : reads s s.subj.desc 256 bs a) (hb : reads a (field bs 128 8) 8192 home b)
    (hc : reads b (field bs 176 8) 2048 tn c) (hnum : field bs 0 1 = p) (hgood : descBad_ c bs home tn (some p) = [])
    (hquiet : quiesced c p = true) : ∃ u, exec .sliceChannelHomeTableChange s = .next (modPart u p fun o => { o with
      slices := (parseDesc bs).slices, channels := (parseDesc bs).channels, engines := (parseDesc bs).engines
      home := homeEntries home }) := by
  change ∃ u, execSliceChannelHomeTableChange s = .next (modPart u p _)
  unfold execSliceChannelHomeTableChange
  simp only [hp, hv]
  rw [withDesc_reads ha hb hc, hgood, hquiet, if_neg (by simp [hnum])]
  exact ⟨_, rfl⟩

end Partitions

section Waiting

theorem exec_resumeRequest (hasked : asked s 5 [(8, 4)]) : exec .resumeRequest s = .next (match heldBy s (req s 8 4) with
    | some (.group h g) => answerDone (resumeGroup s h g)
    | some (.cmd c _ _) => answerDone (modCmd s c fun c => { c with st := .running })
    | none => reject s 8) := by
  change execResumeRequest s = _
  unfold execResumeRequest
  rw [perform_asked hasked]
  rcases heldBy s (req s 8 4) with _ | ⟨h, g⟩ | ⟨c, x, k⟩ <;> rfl

theorem exec_killRequest (hasked : asked s 6 [(8, 4)]) : exec .killRequest s = .next (match heldBy s (req s 8 4) with
    | some (.group h g) => let r := g.frec.getD (g.ctx.pending.getD {})
      answerDone (killTeam s g.team { code := r.code, cause := r.cause, addr := r.iaddr, va := r.va, relaunch := false } h)
    | some (.cmd c x k) => answerDone (stopCmd s c x k)
    | none => reject s 8) := by
  change execKillRequest s = _
  unfold execKillRequest
  rw [perform_asked hasked]
  rcases heldBy s (req s 8 4) with _ | ⟨h, g⟩ | ⟨c, x, k⟩ <;> rfl

end Waiting

section Query

variable {bs : List Byte} (hasked : asked s 7 [(8, 4), (16, 8)]) (hbs : queryBytes s (req s 8 4) = some bs)
include hasked hbs

theorem exec_queryRequest_rejects (hodd : req s 16 8 % 8 ≠ 0) : exec .queryRequest s = .next (reject s 16) := by
  change execQueryRequest s = _
  unfold execQueryRequest
  rw [perform_asked hasked]
  simp only [hbs, if_pos hodd]

theorem exec_queryRequest_writes (heven : req s 16 8 % 8 = 0) (hready : spansReady s (fwSpans (req s 16 8) 80) = true) :
    exec .queryRequest s = .next (answerDone (spansWrite s (fwSpans (req s 16 8) 80) bs)) := by
  change execQueryRequest s = _
  unfold execQueryRequest
  rw [perform_asked hasked]
  simp only [hbs, if_neg (not_not.2 heven), if_pos hready]

end Query

section Spaces

theorem exec_setCommunicator {bs : List Byte} {u : State} (hasked : asked s 0x0A [(8, 16)]) (hread : reads s (req s 16 8) 64 bs u)
    (hnum : req s 8 8 ≤ 4095) (hidle : ∀ c ∈ u.cmds, sentOn u c.2 ≠ some (req s 8 8)) (hmany : 2 ≤ field bs 0 2)
    (hmost : field bs 0 2 ≤ 4096) (hrank : field bs 2 2 < field bs 0 2) (hpath : field bs 4 1 ≤ 1) (hzero : field bs 6 2 = 0)
    (hzero' : field bs 16 48 = 0) : exec .setCommunicator s = .next (answerDone { u with
      comms := put u.comms (req s 8 8)
        { count := field bs 0 2, rank := field bs 2 2, path := field bs 4 1, mask := field bs 5 1, table := field bs 8 8 } }) := by
  have hfree : (u.cmds.any fun c => sentOn u c.2 = some (req s 8 8)) = false :=
    List.any_eq_false.2 fun c hc => by simpa using hidle c hc
  change execSetCommunicator s = _
  unfold execSetCommunicator
  rw [perform_asked hasked, withBytes_reads hread]
  simp only [if_neg (Nat.not_lt.2 hnum), hfree, decide_eq_false (Nat.not_lt.2 hmany), decide_eq_false (Nat.not_lt.2 hmost),
    decide_eq_false (Nat.not_le.2 hrank), decide_eq_false (Nat.not_lt.2 hpath), hzero, hzero']
  rfl

theorem exec_invalidateTranslations (hasked : asked s 0x0B [(8, 16)]) (hphase : s.mgmt.phase = 0) (hasid : req s 8 8 ≤ 4095)
    (hva : req s 16 8 < 2 ^ 56 ∨ req s 16 8 = 2 ^ 64 - 1) : exec .invalidateTranslations s
      = .next (beginInval { s with mgmt := { s.mgmt with phase := 1 } } none (s.cores.map (·.1)) none
        (if req s 16 8 = 2 ^ 64 - 1 then .asid (req s 8 8) else .page (req s 8 8) (req s 16 8))) := by
  have hpage : (2 ^ 56 ≤ req s 16 8 && req s 16 8 ≠ 2 ^ 64 - 1) = false := by
    rcases hva with h | h
    · rw [decide_eq_false (Nat.not_le.2 h), Bool.false_and]
    · simp [h]
  change execInvalidateTranslations s = _
  unfold execInvalidateTranslations
  rw [perform_asked hasked]
  simp only [hphase, if_neg (Nat.not_lt.2 hasid), hpage]
  rfl

theorem exec_setAddressSpace (hasked : asked s 0x0C [(8, 24)]) (hvf : req s 8 8 ≤ 127) (hasid : req s 16 8 ≤ 4095)
    (hfree : ∀ v ∈ s.vfs, v.1 ≠ req s 8 8 → v.2.root.isSome = true → v.2.asid ≠ req s 16 8) (halign : req s 24 8 % 4096 = 0)
    (hroot : req s 24 8 < 2 ^ 52) : exec .setAddressSpace s = .next (answerDone { s with
      vfs := put s.vfs (req s 8 8) { look s.vfs (req s 8 8) {} with asid := req s 16 8, root := some (req s 24 8) } }) := by
  have hunique : (s.vfs.any fun v => v.1 != req s 8 8 && v.2.root.isSome && v.2.asid = req s 16 8) = false :=
    List.any_eq_false.2 fun v hv => by simpa using hfree v hv
  change execSetAddressSpace s = _
  unfold execSetAddressSpace
  rw [perform_asked hasked]
  simp only [if_neg (Nat.not_lt.2 hvf), decide_eq_false (Nat.not_lt.2 hasid), hunique, halign, decide_eq_false (Nat.not_le.2 hroot)]
  rfl

end Spaces

section Keys

variable (hlow : 1 ≤ req s 8 8) (hhigh : req s 8 8 ≤ 1023)
include hlow hhigh

theorem keySlot_eq : keySlot s = some (req s 8 8) :=
  if_neg (by simp; omega)

section Create

variable (hasked : asked s 0x10 [(8, 16)]) (hfree : (look s.keys (req s 8 8) {}).live = false) {bs : List Byte} {u : State}
  (hread : reads s (req s 16 8) 384 bs u)
include hasked hfree hread

theorem exec_keyCreate_makes {key : List Byte} (hkey : Config.oaepOpen bs = some key) : exec .keyCreate s
    = .next (answerDone { u with keys := put u.keys (req s 8 8) { live := true, key := leNat key + 1 } }) := by
  change execKeyCreate s = _
  unfold execKeyCreate
  rw [perform_asked hasked, keySlot_eq hlow hhigh]
  simp only [hfree]
  rw [if_neg (by decide), withBytes_reads hread, hkey]

theorem exec_keyCreate_rejects (hkey : Config.oaepOpen bs = none) : exec .keyCreate s = .next (reject u 16) := by
  change execKeyCreate s = _
  unfold execKeyCreate
  rw [perform_asked hasked, keySlot_eq hlow hhigh]
  simp only [hfree]
  rw [if_neg (by decide), withBytes_reads hread, hkey]

end Create

variable {k : KeySlot} (hk : look s.keys (req s 8 8) {} = k)
include hk

theorem exec_keyBind (hasked : asked s 0x11 [(8, 16)]) (hlive : k.live = true) (hvf : req s 16 8 ≤ 127) : exec .keyBind s
    = .next (answerDone { s with keys := put s.keys (req s 8 8) { k with
      bound := if k.bound.contains (req s 16 8) then k.bound else k.bound ++ [req s 16 8] } }) := by
  change execKeyBind s = _
  unfold execKeyBind
  rw [perform_asked hasked, keySlot_eq hlow hhigh]
  simp only [hk, hlive, if_neg (Nat.not_lt.2 hvf)]
  rfl

theorem exec_keyUnbind (hasked : asked s 0x12 [(8, 16)]) (hbound : req s 16 8 ∈ k.bound) : exec .keyUnbind s
    = .next (answerDone { s with keys := put s.keys (req s 8 8) { k with bound := k.bound.filter (· != req s 16 8) } }) := by
  change execKeyUnbind s = _
  unfold execKeyUnbind
  rw [perform_asked hasked, keySlot_eq hlow hhigh]
  simp only [hk, List.contains_iff_mem.2 hbound]
  rfl

variable (hasked : asked s 0x13 [(8, 8)])
include hasked

theorem exec_keyDestroy_begins (hphase : s.mgmt.phase = 0) (hlive : k.live = true) (hheld : slotHeld s (req s 8 8) = false) :
    exec .keyDestroy s = .next (let u := dropSlot { s with keys := put s.keys (req s 8 8) {} } (req s 8 8)
      send { u with mgmt := { u.mgmt with phase := 1 } } .keyDestroy) := by
  change execKeyDestroy s = _
  unfold execKeyDestroy
  rw [perform_asked hasked, keySlot_eq hlow hhigh]
  simp only [hk, hphase, hlive, hheld]
  rfl

omit hk in
theorem exec_keyDestroy_ends (hphase : s.mgmt.phase ≠ 0) (hidle : slotBusy s (req s 8 8) = false) :
    exec .keyDestroy s = .next (answerDone (dropSlot s (req s 8 8))) := by
  change execKeyDestroy s = _
  unfold execKeyDestroy
  rw [perform_asked hasked, keySlot_eq hlow hhigh]
  simp only [if_neg hphase, hidle]
  rfl

end Keys

section Dropping

variable (s : State) (k : Nat)

theorem dropTagged_near (c : Nat) {n : Nat × NcLine} (hn : n ∈ (coreOf (dropTagged s k) c).near) : n.2.slot ≠ k := by
  have hcore := find_map_value s.cores c fun _ v => { v with near := v.near.filter fun n => n.2.slot != k
                                                             pend := v.pend.filter fun p => p.slot != k }
  unfold coreOf look dropTagged at hn
  rw [hcore] at hn
  cases hc : find s.cores c with
  | none =>
    rw [hc] at hn
    exact absurd hn List.not_mem_nil
  | some v =>
    rw [hc] at hn
    simpa using (List.mem_filter.1 hn).2

theorem dirSync_cores (la : Nat) : (dirSync s la).cores = s.cores := by
  unfold dirSync
  split
  · rfl
  · dsimp only
    split <;> rfl

theorem unused_cores (la : Nat) : (unused s la).cores = s.cores := by
  unfold unused
  split
  · exact send_cores ..
  · rfl

theorem each_cores {α : Type} (l : List α) (f : State → α → State) (hf : ∀ s a, (f s a).cores = s.cores) :
    (each l s f).cores = s.cores := by
  induction l generalizing s with
  | nil => rfl
  | cons a l ih => exact (ih (f s a)).trans (hf s a)

theorem dropSliced_cores : (dropSliced s k).cores = s.cores := by
  refine each_cores s _ _ fun s la => ?_
  dsimp only
  split
  · rfl
  · rw [dirSync_cores]
    split <;> exact unused_cores ..

theorem dropBuffered_cores : (dropBuffered s k).cores = s.cores :=
  each_cores s _ _ fun s _ => each_cores s _ _ fun _ _ => send_cores ..

theorem dropSlot_near (c : Nat) {n : Nat × NcLine} (hn : n ∈ (coreOf (dropSlot s k) c).near) : n.2.slot ≠ k := by
  refine dropTagged_near s k c ?_
  rwa [dropSlot, coreOf, dropBuffered_cores, dropSliced_cores] at hn

theorem beyond_dropSliced : Beyond s (dropSliced s k) := by
  refine beyond_each _ s _ fun s la => ?_
  dsimp only
  split
  · exact Beyond.refl s
  · refine Beyond.trans ?_ (beyond_dirSync ..)
    split
    · exact ((beyond_modLine ..).trans (beyond_unused ..)).trans (beyond_modLine ..)
    · exact (beyond_modLine ..).trans (beyond_unused ..)

theorem beyond_dropBuffered : Beyond s (dropBuffered s k) :=
  beyond_each _ s _ fun s _ => beyond_each _ s _ fun _ _ => (beyond_modPrefP ..).trans (beyond_post ..)

/-- What a dropped slot leaves beside its lines' copies; the keys are as they were. -/
theorem beyond_dropSlot : Beyond s (dropSlot s k) :=
  (Beyond.trans (t := dropTagged s k) ⟨rfl, id⟩ (beyond_dropSliced ..)).trans (beyond_dropBuffered ..)

theorem dropSlot_keys : (dropSlot s k).keys = s.keys := by
  rw [(beyond_dropSlot s k).1]

end Dropping

section Firmware

theorem exec_readAttestationLog (hasked : asked s 0x20 [(8, 16)]) (hindex : req s 8 8 ≤ s.boot.log.length) :
    let bs := ((List.range (s.boot.log.length - req s 8 8)).map fun j =>
      logBytes (req s 8 8 + j) (s.boot.log.getD (req s 8 8 + j) (0, 0, []))).flatten
    let l := fwSpans (Config.hostBase + req s 16 8) bs.length
    spansReady s l = true → exec .readAttestationLog s = .next (answerDone (spansWrite s l bs)) := by
  intro bs l hready
  change execReadAttestationLog s = _
  unfold execReadAttestationLog
  rw [perform_asked hasked]
  exact (if_neg (Nat.not_lt.2 hindex)).trans (if_pos hready)

theorem exec_quote (hasked : asked s 0x21 [(8, 32)]) : exec .quote_ s = .next (answerDone { s with
    returned := Config.quoteSign (sha256 ((s.mgmt.cur.drop 8).take 32 ++ chainValue s.boot.log ++ leBytes 4 s.boot.log.length))
      ++ Config.transportKey }) := by
  change execQuote s = _
  unfold execQuote
  rw [perform_asked hasked]

variable (hasked : asked s 0x30 [(8, 17)])
include hasked

theorem exec_firmwareUpdate_begins (hphase : s.mgmt.phase = 0) (hsome : 0 < req s 16 8) (hmost : req s 16 8 ≤ 2 ^ 26)
    (hdie : req s 24 1 ≤ 4) {bs : List Byte} {u : State} (hread : reads s (req s 8 8) (req s 16 8) bs u) :
    exec .firmwareUpdate s = .next (beginUpdate u (req s 24 1) bs) := by
  change execFirmwareUpdate s = _
  unfold execFirmwareUpdate
  rw [perform_asked hasked]
  rw [if_pos hphase, if_neg (by simp; omega), if_neg (Nat.not_lt.2 hdie), withBytes_reads hread]

theorem exec_firmwareUpdate_stops (hphase : s.mgmt.phase = 1) (hsaved : teamsOnDie s (req s 24 1) = []) : exec .firmwareUpdate s
    = .next (send { stopTaster s (req s 24 1) true with mgmt := { s.mgmt with phase := 2 } } .firmwareUpdate) := by
  change execFirmwareUpdate s = _
  unfold execFirmwareUpdate
  rw [perform_asked hasked]
  simp only [hphase, hsaved]
  rfl

theorem exec_firmwareUpdate_ends (hphase : 2 ≤ s.mgmt.phase) :
    let v := openDie (stopTaster { s with mgmt := { s.mgmt with list := [] } } (req s 24 1) false) (req s 24 1)
    exec .firmwareUpdate s = .next (if s.mgmt.starts then answerDone v else reject v 24) := by
  change execFirmwareUpdate s = _
  unfold execFirmwareUpdate
  rw [perform_asked hasked]
  exact (if_neg (by omega)).trans (if_neg (by omega))

end Firmware

/-- Settles O57, request by request. -/
theorem managementRequestsHappen : Obligations.ManagementRequestsHappen := by
  unfold Obligations.ManagementRequestsHappen
  intro s op p held
  refine ⟨fun st off fs => ⟨rfl, rfl, rfl, rfl, fun hfs => ?reply⟩, fun e he hbusy hcode off hstray => ?stray,
    exec_managementUnknownCode, exec_doorbellWriteIgnored,
    fun hasked bs home tn a b c ha hb hc => ⟨fun off => exec_createPartition_rejects hasked ha hb hc,
      exec_createPartition_makes hasked ha hb hc⟩,
    fun v hv => ⟨fun hasked => ⟨exec_destroyPartition_rejects hv hasked, exec_destroyPartition_removes hv hasked⟩,
      fun hasked bs u => exec_resizeRequest hv hasked, exec_preEmpt_begins hv, exec_preEmpt_ends hv,
      fun hasked bs u => exec_installHandlerTable hv hasked, exec_registerContextPool hv⟩,
    fun v bs home tn a b c => exec_sliceChannelHomeTableChange rfl, fun hasked => ?resume, fun hasked => ?kill,
    fun hasked bs hbs => ⟨exec_queryRequest_rejects hasked hbs, exec_queryRequest_writes hasked hbs⟩,
    fun hasked bs u hread hnum hidle hmany hmost hrank hpath hzero hzero' =>
      ⟨_, exec_setCommunicator hasked hread hnum hidle hmany hmost hrank hpath hzero hzero', find_put_self ..⟩,
    exec_invalidateTranslations, exec_setAddressSpace, fun hlow hhigh => ?keys, exec_readAttestationLog, exec_quote,
    fun hasked => ⟨fun hphase hsome hmost hdie bs u => exec_firmwareUpdate_begins hasked hphase hsome hmost hdie,
      exec_firmwareUpdate_stops hasked, exec_firmwareUpdate_ends hasked⟩⟩
  case reply =>
    subst hfs
    exact answer_reply st off
  case stray =>
    obtain ⟨name, body, hexec⟩ := exec_request (s := s) he
    rw [hexec, perform_stray hbusy hcode hstray]
  case resume =>
    have hexec := exec_resumeRequest hasked
    exact ⟨fun h g hheld => by rw [hexec, show heldBy s (req s 8 4) = _ from hheld],
      fun c x k hheld => by rw [hexec, show heldBy s (req s 8 4) = _ from hheld],
      fun hheld => by rw [hexec, show heldBy s (req s 8 4) = _ from hheld]⟩
  case kill =>
    have hexec := exec_killRequest hasked
    exact ⟨fun h g hheld => by rw [hexec, show heldBy s (req s 8 4) = _ from hheld],
      fun c x k hheld => by rw [hexec, show heldBy s (req s 8 4) = _ from hheld],
      fun hheld => by rw [hexec, show heldBy s (req s 8 4) = _ from hheld]⟩
  case keys =>
    intro k
    refine ⟨fun hasked hfree bs u hread => ⟨fun key => exec_keyCreate_makes hlow hhigh hasked hfree hread,
      exec_keyCreate_rejects hlow hhigh hasked hfree hread⟩, exec_keyBind hlow hhigh rfl, exec_keyUnbind hlow hhigh rfl,
      fun hasked => ⟨fun hphase hlive hheld => ⟨_, exec_keyDestroy_begins hlow hhigh rfl hasked hphase hlive hheld, ?key, ?copies⟩,
        exec_keyDestroy_ends hlow hhigh hasked⟩⟩
    case key =>
      rw [send_keeps_keys]
      dsimp only
      rw [dropSlot_keys]
      exact look_put_self ..
    case copies =>
      intro c n hn
      rw [coreOf_send] at hn
      exact dropSlot_near _ _ c hn

end Sys2Proof.Machine
end

section
/-! The device's own events: boot, the host's link, errors in storage, spares, islands, scrubbing and reset (20 R369, R370, 21 R373
to R378, 22 R385, 23 R402 to R410, 00 R2). -/

namespace Sys2Proof.Machine

variable {s : State}

section Boot

variable {stage : Nat} {img : BootImage} (hgoes : s.boot.failed = 0) (hmost : stage ≤ 5)
  (hnext : stage = s.boot.stage + 1 ∨ (stage = 4 ∧ s.boot.stage = 4))
include hgoes hmost hnext

/-- A stage that comes next in the order is entered, or an image of it is verified and measured first (21 R377). -/
theorem exec_bootStage : exec (.bootStage stage img) s = if stage = 1 || stage = 5 then
      .next { s with boot := { s.boot with stage := stage } }
    else if !img.readOk then .next (bootFails s stage 3)
    else if !Config.signatureOk img.bytes then .next (bootFails s stage 1)
    else if img.version < Config.rollback then .next (bootFails s stage 2)
    else .next { s with boot := { s.boot with
      stage := stage, log := s.boot.log ++ [(stage + img.component % 2 ^ 16 * 2 ^ 16, img.version, sha256 img.bytes)] } } := by
  have hturn : (s.boot.failed ≠ 0 || 5 < stage || !(stage = s.boot.stage + 1 || (stage = 4 && s.boot.stage = 4))) = false := by
    rcases hnext with h | ⟨h, h'⟩
    · simp [hgoes, hmost, ← h]
    · simp [hgoes, h, h']
  exact if_neg (Bool.eq_false_iff.1 hturn)

theorem exec_bootStage_plain (hplain : stage = 1 ∨ stage = 5) :
    exec (.bootStage stage img) s = .next { s with boot := { s.boot with stage := stage } } := by
  rw [exec_bootStage hgoes hmost hnext, if_pos (by simpa using hplain)]

theorem exec_bootStage_image (hone : stage ≠ 1) (hfive : stage ≠ 5) {k : Nat} (hk : k = (if img.readOk = false then 3
      else if Config.signatureOk img.bytes = false then 1 else if img.version < Config.rollback then 2 else 0)) :
    (k ≠ 0 → exec (.bootStage stage img) s = .next { s with boot := { s.boot with failed := stage, cause := k } })
    ∧ (k = 0 → exec (.bootStage stage img) s = .next { s with boot := { s.boot with
        stage := stage, log := s.boot.log ++ [(stage + img.component % 2 ^ 16 * 2 ^ 16, img.version, sha256 img.bytes)] } }) := by
  rw [exec_bootStage hgoes hmost hnext, if_neg (by simp [hone, hfive])]
  cases hread : img.readOk with
  | false =>
    rw [if_pos hread] at hk
    subst hk
    exact ⟨fun _ => rfl, fun h => absurd h (by decide)⟩
  | true =>
    rw [if_neg (by simp [hread])] at hk
    cases hsigned : Config.signatureOk img.bytes with
    | false =>
      rw [if_pos hsigned] at hk
      subst hk
      exact ⟨fun _ => rfl, fun h => absurd h (by decide)⟩
    | true =>
      rw [if_neg (by simp [hsigned])] at hk
      by_cases hold : img.version < Config.rollback
      · rw [if_pos hold] at hk
        subst hk
        exact ⟨fun _ => if_pos hold, fun h => absurd h (by decide)⟩
      · rw [if_neg hold] at hk
        subst hk
        exact ⟨fun h => absurd rfl h, fun _ => if_neg hold⟩

end Boot

section HostLink

/-- An access within one line is one piece. -/
theorem fwSpans_within {pa n : Nat} (hsome : 0 < n) (hline : pa % 128 + n ≤ 128) :
    fwSpans pa n = [(pa / 128, 0, pa % 128, n)] := by
  have hmin : min n (128 - pa % 128) = n := Nat.min_eq_left (by omega)
  have hcuts : lineCuts pa n = [(pa, n)] := by
    unfold lineCuts cuts
    rw [if_neg (Nat.ne_of_gt hsome), hmin]
    change (pa, n) :: cuts (n / 128 + 1) (pa + n) (n - n) = [(pa, n)]
    rw [Nat.sub_self, cuts, if_pos rfl]
  rw [fwSpans, hcuts]
  rfl

variable {pa : Nat} (hstage : s.boot.stage = 5) (hpa : pa < 2 ^ 52)
include hstage hpa

theorem exec_hostMemoryAccess_read {n : Nat} (hsome : 0 < n) (hline : pa % 128 + n ≤ 128)
    (hready : spansReady s (fwSpans pa n) = true) : exec (.hostMemoryAccess pa (.read n)) s = .next
      (if lineBad s (pa / 128) then { s with returned := [] }
       else { (spansRead s (fwSpans pa n)).2 with returned := (spansRead s (fwSpans pa n)).1 }) := by
  change execHostMemoryAccess pa (.read n) s = _
  unfold execHostMemoryAccess
  simp only [hstage, decide_eq_false (Nat.ne_of_gt hsome), decide_eq_false (Nat.not_lt.2 hline),
    decide_eq_false (Nat.not_le.2 hpa), hready]
  cases lineBad s (pa / 128) with
  | false => rfl
  | true => rfl

theorem exec_hostMemoryAccess_write {bs : List Byte} (hsome : 0 < bs.length) (hline : pa % 128 + bs.length ≤ 128)
    (hready : spansReady s (fwSpans pa bs.length) = true) : exec (.hostMemoryAccess pa (.write bs)) s = .next
      (if hostTakes s (pa / 128, 0, pa % 128, bs.length) then spansWrite s (fwSpans pa bs.length) bs else s) := by
  have hwhole : hostWrite s (fwSpans pa bs.length) bs
      = if hostTakes s (pa / 128, 0, pa % 128, bs.length) then spansWrite s (fwSpans pa bs.length) bs else s := by
    rw [fwSpans_within hsome hline]
    unfold hostWrite
    simp only [List.foldl_cons, List.foldl_nil, List.take_length]
  change execHostMemoryAccess pa (.write bs) s = _
  unfold execHostMemoryAccess
  simp only [hstage, decide_eq_false (Nat.ne_of_gt hsome), decide_eq_false (Nat.not_lt.2 hline),
    decide_eq_false (Nat.not_le.2 hpa), hready, hwhole]
  rfl

omit hstage hpa in
theorem hostTakes_iff {x : Span} :
    hostTakes s x = true ↔ lineBad s x.1 = false ∨ (x.2.2.2 = 128 ∧ deadLine s x.1 = false) := by
  simp [hostTakes]

omit hpa in
theorem exec_hostTransfer {comp : Bool} {src dst len : Nat} {bs : List Byte} {u : State} (hfree : s.mgmt.busy = false)
    (hready : spansReady s (fwSpans src len) = true) (hgood : ∀ x ∈ fwSpans src len, lineBad s x.1 = false)
    (hread : spansRead s (fwSpans src len) = (bs, u)) :
    let out := if comp then Config.deflate bs else Config.inflate bs
    spansReady u (fwSpans dst out.length) = true → exec (.hostTransfer comp src dst len) s = .next (answerDone
      { hostWrite u (fwSpans dst out.length) out with mgmt := { u.mgmt with cur := u.mgmt.req } }) := by
  intro out hready'
  have hwell : ((fwSpans src len).any fun x => lineBad s x.1) = false :=
    List.any_eq_false.2 fun x hx => by simp [hgood x hx]
  change execHostTransfer comp src dst len s = _
  unfold execHostTransfer
  simp only [hstage, hfree, hready, hwell, hread]
  exact if_pos hready'

end HostLink

section Links

theorem exec_flitRetry (hport : s.subj.port < 8) : exec .flitRetry s = .next (post s 0x140 4 s.subj.port 0xFF 0) :=
  if_neg (Nat.not_le.2 hport)

theorem exec_roceRetransmission (hport : s.subj.port < 2) (htenant : s.subj.tenant < 128 ∨ s.subj.tenant = 0xFF) :
    exec .roceRetransmission s = .next (post s 0x141 5 s.subj.port s.subj.tenant (.ofNat 32 (s.subj.qp % 2 ^ 24))) :=
  if_neg (by simp; omega)

end Links

section Errors

variable {la : Nat}

theorem poisonLine_poisons (s : State) (la : Nat) : (lineSt (poisonLine s la) la).poison = true :=
  congrArg LineSt.poison (lineSt_modLine_self s la fun l => { l with poison := true })

/-- No notice is due of a line whose slot is bound to one function at most (20 R370). -/
theorem notices_unshared {slot : Nat} (h : (look s.keys slot {}).bound.length < 2) : notices s la slot = s :=
  if_pos h

theorem exec_eccUncorrectable_line (hdevice : 128 * la < Config.hostBase) :
    exec (.eccUncorrectable (.line la)) s = .next (notices (poisonLine s la) la (slotOfLine s la)) :=
  if_neg (Nat.not_le.2 hdevice)

theorem exec_eccUncorrectable_nearLine {k key : Nat} {n : NcLine} (hn : nearLine s k key = some n) :
    exec (.eccUncorrectable (.nearLine k key)) s = .next (notices (poisonLine
      (if n.st = .dirty ∨ n.st = .exclusive then modNear s k key fun n => { n with poison := true } else s) (key % 2 ^ 45))
      (key % 2 ^ 45) n.slot) := by
  change execEccUncorrectable (.nearLine k key) s = _
  unfold execEccUncorrectable
  simp [hn]

variable {k : PartKind} {n : Nat} (hpart : partExists k n = true)
include hpart

theorem exec_eccUncorrectable_part : exec (.eccUncorrectable (.part k n)) s = .next (mustRetire s k n) :=
  if_pos hpart

theorem exec_correctedError : let count := look s.corrected (kindNo k * 512 + n) 0 + 1
    let u := { s with corrected := put s.corrected (kindNo k * 512 + n) count }
    exec (.correctedError k n) s = .next (if Config.retireThreshold < count then mustRetire u k n else u) :=
  if_neg (by simp [hpart])

end Errors

section Spares

variable {n : Nat}

/-- How a part of each kind is retired (23 R403, R404). -/
def retirePart (s : State) (k : PartKind) (n : Nat) : Option State :=
  match k with
  | .core => retireCore s n
  | .slice => retireSlice s n
  | .channel => retireChannel s n

theorem exec_partRetire {k : PartKind} (hfails : (kindNo k, n) ∈ s.failing) {u : State} (hretire : retirePart s k n = some u) :
    exec (.partRetire k n) s = .next u := by
  have hgo : exec (.partRetire k n) s = match retirePart s k n with
      | some u => .next u
      | none => notNow "PART_RETIRE" := if_neg (by simp [hfails])
  rw [hgo, hretire]

section Core

theorem retireCore_saves (hfirst : (0, n) ∉ s.copying) (hspare : spareLeft s .core n = true) : retireCore s n = some (send
    (each (teamsOnCore s n) { s with copying := s.copying ++ [(0, n)] } fun s t =>
      if (teamOf s t).saving.isSome then s else beginSave s t false) (.partRetire .core n)) := by
  unfold retireCore
  rw [if_neg (by simpa using hfirst), if_pos hspare]
  rfl

theorem retireCore_moves (hbegun : (0, n) ∈ s.copying) (hempty : seats s n = []) (hdrain : canDrain s n = true) :
    retireCore s n = some (send (coreMoves s n) .teamPlacement { part := partOfCore (coreMoves s n) n }) := by
  unfold retireCore
  rw [if_pos (List.contains_iff_mem.2 hbegun), if_pos (by simp [hempty, hdrain])]

theorem retireCore_leaves (hfirst : (0, n) ∉ s.copying) (hnone : spareLeft s .core n = false) {x : Nat × Partition}
    (hx : s.parts.find? (fun p => p.2.cores.contains n) = some x) : retireCore s n = some (resize { s with
      dead := s.dead ++ [(0, n)], failing := s.failing.erase (0, n) } x.1 (x.2.cores.filter (· != n)) true) := by
  unfold retireCore
  rw [if_neg (by simpa using hfirst), if_neg (by simp [hnone])]
  simp only [partDies, kindNo, hx]

end Core

theorem retireSlice_loses (hnone : spareLeft s .slice n = false) : retireSlice s n = some { s with
    dead := s.dead ++ [(1, n)], failing := s.failing.erase (1, n), mgmt := { s.mgmt with loss := true } } := by
  unfold retireSlice
  rw [if_pos (by simp [hnone])]
  rfl

theorem retireChannel_copies (hfirst : (2, n) ∉ s.copying) (hspare : spareLeft s .channel n = true) : retireChannel s n
    = some (send { s with copying := s.copying ++ [(2, n)] } .channelCopyComplete { channel := n }) := by
  unfold retireChannel
  rw [if_neg (by simpa using hfirst), if_pos hspare]

theorem exec_channelCopyComplete {c : Nat} (hc : s.subj.channel = c) (hbegun : (2, c) ∈ s.copying) :
    exec .channelCopyComplete s = .next (spareTakes s .channel c) := by
  subst hc
  exact if_pos (List.contains_iff_mem.2 hbegun)

end Spares

section Upkeep

theorem exec_islandStateChange {i : Nat} {st : IslandState} (hi : i < 320) (hsched : i ≠ Config.schedIsland ∨ st = .nominal)
    (hgate : st ≠ .gated ∨ 256 ≤ i ∨ (residents s i = [] ∧ ∀ e ∈ (coreOf s i).ec, e = 0)) :
    exec (.islandStateChange i st) s = .next { s with islands := put s.islands i st } := by
  have hfree : (st != .gated || decide (256 ≤ i) || ((residents s i).isEmpty && (coreOf s i).ec.all (· == 0))) = true := by
    simpa [or_assoc] using hgate
  have hmay : islandMay s i st = true := by
    unfold islandMay
    rw [hfree, decide_eq_true hi]
    simpa using hsched
  exact if_pos hmay

theorem exec_pressScrub {c : Nat} (hc : s.subj.channel = c) (hchannel : c < 384)
    (hdue : 1024 * (look s.scrub c 0 + 1) ≤ look s.pressCycles (c / 32) 0) (hidle : channelBusy s c = false)
    (hpress : pressPaused s c = false) :
    exec .pressScrub s = .next { s with scrub := put s.scrub c (look s.scrub c 0 + 1) } := by
  subst hc
  exact if_neg (by simp [hchannel, hdue, hidle, hpress])

/-- The lines that a reset keeps anything of: their poison. -/
def poisonLeft (s : State) : Tbl LineSt := (s.lines.filter fun l => l.2.poison).map fun l => (l.1, ({ poison := true } : LineSt))

theorem poisonLeft_line (s : State) (la : Nat) : let l := look (poisonLeft s) la {}
    l.home = none ∧ l.copies = [] ∧ (l.poison = true → ∃ x ∈ s.lines, x.2.poison = true) := by
  unfold look
  cases hl : find (poisonLeft s) la with
  | none => exact ⟨rfl, rfl, fun h => nomatch h⟩
  | some v =>
    obtain ⟨rfl, hpoison⟩ := find_poison s.lines la v hl
    exact ⟨rfl, rfl, fun _ => hpoison⟩

theorem exec_deviceReset (s : State) : exec .deviceReset s = .next { State.reset with
    mem := s.mem, tags := s.tags, spares := s.spares, dead := s.dead, lines := poisonLeft s, nextId := s.nextId
    fresh := s.fresh, tape := s.tape } := rfl

end Upkeep

/-- Settles O58, event by event. -/
theorem deviceEventsHappen : Obligations.DeviceEventsHappen := by
  unfold Obligations.DeviceEventsHappen
  intro s c
  refine ⟨fun stage img hgoes hmost hnext => ⟨exec_bootStage_plain hgoes hmost hnext,
      fun hone hfive k => exec_bootStage_image hgoes hmost hnext hone hfive⟩,
    fun hstage pa hpa => ⟨fun n hsome hline hready => ?read, fun bs hsome hline hready => ?write⟩,
    fun hstage hfree comp src dst len bs u => exec_hostTransfer hstage hfree, exec_flitRetry, exec_roceRetransmission,
    fun la hdevice => ⟨poisonLine_poisons s la, exec_eccUncorrectable_line hdevice, fun hunshared => ?line⟩,
    fun k key n => exec_eccUncorrectable_nearLine, fun k n hpart => ⟨exec_eccUncorrectable_part hpart, exec_correctedError hpart⟩,
    fun n hfails => ⟨fun hfirst hspare => exec_partRetire hfails (retireCore_saves hfirst hspare),
      fun hbegun hempty hdrain => ?moves,
      fun hfirst hnone x hx => exec_partRetire hfails (retireCore_leaves hfirst hnone hx)⟩,
    fun n hfails hnone => exec_partRetire hfails (retireSlice_loses hnone),
    fun n hfails hfirst hspare => exec_partRetire hfails (retireChannel_copies hfirst hspare),
    fun hbegun => ⟨_, exec_channelCopyComplete rfl hbegun, look_put_self .., rfl, rfl⟩,
    fun i st => exec_islandStateChange, exec_pressScrub rfl,
    ⟨_, exec_deviceReset s, rfl, rfl, rfl, rfl, rfl, rfl, poisonLeft_line s⟩⟩
  case read =>
    rw [exec_hostMemoryAccess_read hstage hpa hsome hline hready]
    exact ⟨fun hbad => by rw [if_pos hbad], fun hgood bs u hread => by rw [hgood, hread, if_neg (by decide)]⟩
  case write =>
    rw [exec_hostMemoryAccess_write hstage hpa hsome hline hready]
    refine ⟨fun htakes => by rw [if_pos (hostTakes_iff.2 htakes)], fun hbad hpart => ?_⟩
    have hrefused : ¬(lineBad s (pa / 128) = false ∨ (bs.length = 128 ∧ deadLine s (pa / 128) = false)) := by
      rcases hpart with h | h <;> simp [hbad, h]
    rw [if_neg (hrefused ∘ hostTakes_iff.1)]
  case line => exact (exec_eccUncorrectable_line hdevice).trans (congrArg _ (notices_unshared hunshared))
  case moves =>
    refine ⟨_, exec_partRetire hfails (retireCore_moves hbegun hempty hdrain), ?_, ?_⟩
    · rw [coreOf_send, coreMoves_near]
    · rw [send_keeps_spares, coreMoves_spares]

end Sys2Proof.Machine
end
